-- ==== Sys2Proof/Word.lean ====
section
/-!
DEFINITION. The plain data types of the machine: bytes, words, names, vectors, and finite maps kept as lists of
key and value. Only types and their plainest arithmetic stand here.
-/
namespace Sys2Proof

/-- One byte. -/
abbrev Byte := BitVec 8
/-- A 64-bit scalar value (R53, R101). -/
abbrev Word := BitVec 64
/-- A 128-bit touchmark (R238). -/
abbrev Name := BitVec 128
/-- A vector register: 2048 untyped bits (R126). -/
abbrev VecWord := BitVec 2048
/-- A mask register: 512 bits (R127). -/
abbrev MaskWord := BitVec 512
/-- A control-stream word (R50). -/
abbrev Word80 := BitVec 80
/-- An engine word (R68). -/
abbrev EngWord := BitVec 16
/-- A micro-operation word (R232). -/
abbrev MicroWord := BitVec 64
/-- An entry of an engine's parameter stack (R68). -/
abbrev StackWord := BitVec 48

/-- A finite map from naturals, as a list with rising keys. -/
abbrev Sparse (α : Type) := List (Nat × α)

end Sys2Proof
end

