-- ==== Sys2Proof/Syntax.lean ====
section
/-!
DEFINITION. The steps of the machine as data: one constructor for each row of the opcode table. Control-stream
words carry their header (guard, producer distance, consume tags) and their operands as read from the fields of R50;
engine words carry their argument; micro-operations their fields (R232); the hardware, host and board steps carry what
their message or event holds.
-/
namespace Sys2Proof

/-- The element formats of R25, in code order. -/
inductive Fmt where
  | i8 | i16 | i32 | i64 | n8 | n16 | n32 | n64 | f16 | bf16 | f32 | l4 | l8 | l16 | h4 | h8
  deriving DecidableEq, Repr

/-- A source position of the scalar file (R53). -/
inductive SSrc where
  | s (r : Fin 64) | bq (q : Fin 4) | zero | pts | cycle
  deriving DecidableEq, Repr

/-- A written position of the scalar file (R53). -/
inductive SDst where
  | s (r : Fin 64) | aq (q : Fin 4)
  deriving DecidableEq, Repr

/-- A source position of the vector file (R53). -/
inductive VSrc where
  | v (r : Fin 64) | port (i : Fin 8) | zero | lane | pts | cycle
  deriving DecidableEq, Repr

/-- A written position of the vector file (R53). -/
inductive VDst where
  | v (r : Fin 64) | port (o : Fin 4)
  deriving DecidableEq, Repr

/-- A source position of the condition file. -/
inductive CSrc where
  | c (r : Fin 8) | zero
  deriving DecidableEq, Repr

/-- A source position of the mask file. -/
inductive MSrc where
  | m (r : Fin 16) | zero
  deriving DecidableEq, Repr

/-- A source position of the name file; the zero operand reads as the null name (R246). -/
inductive NSrc where
  | n (r : Fin 16) | zero
  deriving DecidableEq, Repr

/-- A source position of the patch file. -/
inductive PSrc where
  | p (r : Fin 4) | zero
  deriving DecidableEq, Repr

/-- Source b: a scalar register position or the 16-bit immediate (R57). -/
inductive SrcB where
  | reg (r : SSrc) | imm (v : BitVec 16)
  deriving DecidableEq, Repr

/-- Source b of a vector word. -/
inductive VSrcB where
  | reg (r : VSrc) | imm (v : BitVec 16)
  deriving DecidableEq, Repr

/-- A memory operand (R57). -/
inductive MemOp where
  | off (a : SSrc) (o : BitVec 16)
  | idx (a b : SSrc) (k : Fin 8)
  deriving DecidableEq, Repr

/-- The fields every control-stream word has: guard, producer distance, consume tags (R50, R52). -/
structure Hdr where
  guard : BitVec 4
  pd : BitVec 4
  usA : BitVec 4
  usB : BitVec 4
  deriving DecidableEq, Repr

/-- The condition codes of R86. -/
inductive Cond where
  | eq | ne | lt | le | gt | ge | un
  deriving DecidableEq, Repr

/-- The rounding modes of R28. -/
inductive RMode where
  | rne | rtz | rup | rdn
  deriving DecidableEq, Repr

/-- The memory modifier code of R86. -/
structure Mmc where
  scope : BitVec 3
  order : BitVec 2
  row : Bool
  opn : Bool
  deriving DecidableEq, Repr

/-- Where a global store goes: under a modifier code, or into the patch of a register (R90). -/
inductive StDst where
  | mmc (m : Mmc) | patch (p : Fin 4)
  deriving DecidableEq, Repr

/-- How a global load reads: under a modifier code, or as of a sealed patch (R86). -/
inductive LdMod where
  | mmc (m : Mmc) | asof (n : NSrc)
  deriving DecidableEq, Repr

/-- The kind field of PBEGIN and PPAIR (R275). -/
inductive PKind where
  | repl | replPre | add (delta : Fmt) | sharedAdd (delta : Fmt)
  deriving DecidableEq, Repr

/-- The forms of NMOV (R251). -/
inductive NMovForm where
  | nn (d : Fin 16) (a : NSrc)
  | np (d : Fin 16) (a : PSrc)
  | ns (d : Fin 16) (a : Fin 32)
  | sn (d : Fin 32) (a : NSrc)
  | ld (d : Fin 16) (m : MemOp) (o : Mmc)
  | st (m : MemOp) (c : NSrc) (o : Mmc)
  | h (slot : Fin 16) (a : NSrc)
  deriving DecidableEq, Repr

/-- The forms of NNEW (R246). -/
inductive NNewForm where
  | tensor (a : SSrc) | cellseg (a : SSrc) | aliasName (a : NSrc)
  deriving DecidableEq, Repr

/-- The items of an XM word (R63): masks a, b, c of neg and abs are bits 2, 1, 0. -/
structure XmMod where
  neg : BitVec 3
  abs : BitVec 3
  sat : Bool
  clen : Bool
  clo : BitVec 7
  chi : BitVec 7
  scen : Bool
  k : BitVec 6
  rmen : Bool
  rm : BitVec 2
  usC : BitVec 4
  usD : BitVec 4
  deriving DecidableEq, Repr

/-- The four engine queues of R92. -/
inductive QCode where
  | anvil | copy0 | copy1 | coll
  deriving DecidableEq, Repr

/-- The three engines. -/
inductive Eng where
  | anvil | copy | coll
  deriving DecidableEq, Repr

/-- The access scopes of R86 and R315. -/
abbrev Scope := BitVec 3

/-- A 128-byte line of a stack set's physical space: the set's first die, its number of dies, and the line's number
in that space (R285). -/
structure Line where
  lo : Nat
  nd : Nat
  no : Nat
  deriving DecidableEq, Repr

/-- A coherence request (R304): the line, the requesting core, and whether it is addressed to the home or to the
requester's own die. -/
structure CohReq where
  line : Line
  core : Nat
  home : Bool
  deriving DecidableEq, Repr

/-- The states of a MOESI copy (R303). -/
inductive Moesi where
  | i | s | e | o | m
  deriving DecidableEq, Repr

/-- Who finds an uncorrectable error (R335): a read of the stacks by a bank, its engine entries or their walkers; a use of an array of the
core that the bank owns; the Bellows at the placement of a job (R180); or a write-back, an eviction or a scrub. -/
inductive ErrFinder where
  | access (core : Nat) (bank : Bool) | store (core : Nat) (bank : Bool) | placement (job : Nat) | scrub
  deriving DecidableEq, Repr

/-- A core-bound packet (R356). -/
structure Packet where
  jobtag : BitVec 16
  smod : BitVec 12
  score : BitVec 11
  dmod : BitVec 12
  dcore : BitVec 11
  seq : BitVec 32
  typ : BitVec 4
  late : Bool
  stepBit : Bool
  arg : BitVec 8
  raddr : BitVec 22
  data : List Byte
  reserved : Bool
  pts : BitVec 16
  wordNo : Nat
  sbank : Bool
  deriving DecidableEq, Repr

/-- One indivisible step of the machine: a row of the opcode table. `Bool` banks: false is bank 0, true bank 1. -/
inductive Instr where
  -- scalar class (R88)
  | nop (h : Hdr)
  | add (h : Hdr) (ty : Fmt) (d : SDst) (a : SSrc) (b : SrcB)
  | sub (h : Hdr) (ty : Fmt) (d : SDst) (a : SSrc) (b : SrcB)
  | mul (h : Hdr) (ty : Fmt) (d : SDst) (a : SSrc) (b : SrcB)
  | mulh (h : Hdr) (ty : Fmt) (d : SDst) (a : SSrc) (b : SrcB)
  | div (h : Hdr) (ty : Fmt) (d : SDst) (a : SSrc) (b : SrcB)
  | rem (h : Hdr) (ty : Fmt) (d : SDst) (a : SSrc) (b : SrcB)
  | min (h : Hdr) (ty : Fmt) (d : SDst) (a : SSrc) (b : SrcB)
  | max (h : Hdr) (ty : Fmt) (d : SDst) (a : SSrc) (b : SrcB)
  | and (h : Hdr) (d : SDst) (a : SSrc) (b : SrcB)
  | or (h : Hdr) (d : SDst) (a : SSrc) (b : SrcB)
  | xor (h : Hdr) (d : SDst) (a : SSrc) (b : SrcB)
  | andn (h : Hdr) (d : SDst) (a : SSrc) (b : SrcB)
  | shl (h : Hdr) (d : SDst) (a : SSrc) (b : SrcB)
  | shr (h : Hdr) (d : SDst) (a : SSrc) (b : SrcB)
  | sar (h : Hdr) (d : SDst) (a : SSrc) (b : SrcB)
  | rot (h : Hdr) (d : SDst) (a : SSrc) (b : SrcB)
  | clz (h : Hdr) (d : SDst) (a : SSrc)
  | popc (h : Hdr) (d : SDst) (a : SSrc)
  | sel (h : Hdr) (d : SDst) (a : CSrc) (b c : SSrc)
  | cmp (h : Hdr) (ty : Fmt) (d : Fin 8) (a : SSrc) (b : SrcB) (k : Cond)
  | movi (h : Hdr) (d : SDst) (a : SSrc) (v : BitVec 16) (sh : Fin 4)
  | lea (h : Hdr) (d : SDst) (m : MemOp)
  | ld (h : Hdr) (ty : Fmt) (d : SDst) (m : MemOp) (al : BitVec 4)
  | st (h : Hdr) (ty : Fmt) (m : MemOp) (c : SSrc)
  | csrr (h : Hdr) (d : SDst) (csr : BitVec 16)
  | csrw (h : Hdr) (csr : BitVec 16) (a : SSrc)
  | cand (h : Hdr) (d : Fin 8) (a b : CSrc)
  | cor (h : Hdr) (d : Fin 8) (a b : CSrc)
  | cxor (h : Hdr) (d : Fin 8) (a b : CSrc)
  | fadd (h : Hdr) (ty : Fmt) (d : SDst) (a : SSrc) (b : SrcB)
  | fmul (h : Hdr) (ty : Fmt) (d : SDst) (a : SSrc) (b : SrcB)
  | ffma (h : Hdr) (ty : Fmt) (d : SDst) (a b c : SSrc)
  | fcvt (h : Hdr) (ty src : Fmt) (d : SDst) (a : SSrc)
  | fcmp (h : Hdr) (ty : Fmt) (d : Fin 8) (a : SSrc) (b : SrcB) (k : Cond)
  | fmin (h : Hdr) (ty : Fmt) (d : SDst) (a : SSrc) (b : SrcB)
  | fmax (h : Hdr) (ty : Fmt) (d : SDst) (a : SSrc) (b : SrcB)
  | ftolog (h : Hdr) (ty src : Fmt) (d : SDst) (a b : SSrc)
  | ffromlog (h : Hdr) (ty src : Fmt) (d : SDst) (a b : SSrc)
  -- vector class (R89, R129)
  | vadd (h : Hdr) (ty : Fmt) (d : VDst) (a : VSrc) (b : VSrcB)
  | vsub (h : Hdr) (ty : Fmt) (d : VDst) (a : VSrc) (b : VSrcB)
  | vmul (h : Hdr) (ty : Fmt) (d : VDst) (a : VSrc) (b : VSrcB)
  | vfma (h : Hdr) (ty : Fmt) (d : VDst) (a b c : VSrc)
  | vmin (h : Hdr) (ty : Fmt) (d : VDst) (a : VSrc) (b : VSrcB)
  | vmax (h : Hdr) (ty : Fmt) (d : VDst) (a : VSrc) (b : VSrcB)
  | vrcp (h : Hdr) (ty : Fmt) (d : VDst) (a : VSrc)
  | vrsq (h : Hdr) (ty : Fmt) (d : VDst) (a : VSrc)
  | vexp2 (h : Hdr) (ty : Fmt) (d : VDst) (a : VSrc)
  | vlog2 (h : Hdr) (ty : Fmt) (d : VDst) (a : VSrc)
  | vand (h : Hdr) (ty : Fmt) (d : VDst) (a : VSrc) (b : VSrcB)
  | vor (h : Hdr) (ty : Fmt) (d : VDst) (a : VSrc) (b : VSrcB)
  | vxor (h : Hdr) (ty : Fmt) (d : VDst) (a : VSrc) (b : VSrcB)
  | vshl (h : Hdr) (ty : Fmt) (d : VDst) (a : VSrc) (b : VSrcB)
  | vshr (h : Hdr) (ty : Fmt) (d : VDst) (a : VSrc) (b : VSrcB)
  | vsar (h : Hdr) (ty : Fmt) (d : VDst) (a : VSrc) (b : VSrcB)
  | vcmp (h : Hdr) (ty : Fmt) (d : Fin 16) (a : VSrc) (b : VSrcB) (k : Cond)
  | vsel (h : Hdr) (ty : Fmt) (d : VDst) (a : MSrc) (b c : VSrc)
  | vcvt (h : Hdr) (ty src : Fmt) (d : VDst) (a : VSrc)
  | vtolog (h : Hdr) (ty src : Fmt) (d : VDst) (a b : VSrc)
  | vfromlog (h : Hdr) (ty src : Fmt) (d : VDst) (a b : VSrc)
  | vqnt (h : Hdr) (ty src : Fmt) (d : VDst) (a b : VSrc)
  | vdqnt (h : Hdr) (ty src : Fmt) (d : VDst) (a b : VSrc)
  | vbscale (h : Hdr) (ty tgt : Fmt) (d : VDst) (a : VSrc)
  | vredadd (h : Hdr) (ty : Fmt) (d : VDst) (a : VSrc)
  | vredmax (h : Hdr) (ty : Fmt) (d : VDst) (a : VSrc)
  | vredmin (h : Hdr) (ty : Fmt) (d : VDst) (a : VSrc)
  | vscan (h : Hdr) (ty : Fmt) (d : VDst) (a : VSrc) (op : Fin 3)
  | vhist (h : Hdr) (ty : Fmt) (d : VDst) (a : VSrc) (b : SrcB)
  | vcmprs (h : Hdr) (ty : Fmt) (d : VDst) (a : VSrc)
  | vperm (h : Hdr) (ty : Fmt) (d : VDst) (a b : VSrc)
  | vslide (h : Hdr) (ty : Fmt) (d : VDst) (a : VSrc) (b : SrcB) (down : Bool)
  | vbcast (h : Hdr) (ty : Fmt) (d : VDst) (a : SSrc)
  | vext (h : Hdr) (ty : Fmt) (d : SDst) (a : VSrc) (b : SrcB)
  | vins (h : Hdr) (ty : Fmt) (d : Fin 64) (a : SSrc) (b : SrcB)
  | viota (h : Hdr) (ty : Fmt) (d : VDst) (a : SSrc)
  | vld (h : Hdr) (ty : Fmt) (d : VDst) (m : MemOp) (al : BitVec 4)
  | vst (h : Hdr) (ty : Fmt) (m : MemOp) (c : VSrc)
  | vgath (h : Hdr) (ty : Fmt) (d : VDst) (a : SSrc) (b : VSrc) (k : Fin 8) (al : BitVec 4)
  | vscat (h : Hdr) (ty : Fmt) (a : SSrc) (b : VSrc) (k : Fin 8) (c : VSrc)
  | portcfg (h : Hdr) (port : Fin 12) (a : SSrc)
  | mand (h : Hdr) (d : Fin 16) (a b : MSrc)
  | mor (h : Hdr) (d : Fin 16) (a b : MSrc)
  | mxor (h : Hdr) (d : Fin 16) (a b : MSrc)
  | mnot (h : Hdr) (d : Fin 16) (a : MSrc)
  | mpop (h : Hdr) (ty : Fmt) (d : SDst) (a : MSrc)
  | mfirst (h : Hdr) (ty : Fmt) (d : SDst) (a : MSrc)
  | vord (h : Hdr) (ty : Fmt) (d : VDst) (a : VSrc)
  -- memory class: global words (R296)
  | ldg (h : Hdr) (ty : Fmt) (d : SDst) (m : MemOp) (o : LdMod) (al : BitVec 4)
  | stg (h : Hdr) (ty : Fmt) (m : MemOp) (c : SSrc) (o : StDst)
  | vldg (h : Hdr) (ty : Fmt) (d : VDst) (m : MemOp) (o : LdMod) (al : BitVec 4)
  | vstg (h : Hdr) (ty : Fmt) (m : MemOp) (c : VSrc) (o : StDst)
  | prefg (h : Hdr) (m : MemOp) (l2 : Bool)
  | aadd (h : Hdr) (ty : Fmt) (m : MemOp) (c : SSrc) (o : StDst) (al : BitVec 4)
  | amin (h : Hdr) (ty : Fmt) (m : MemOp) (c : SSrc) (o : Mmc) (al : BitVec 4)
  | amax (h : Hdr) (ty : Fmt) (m : MemOp) (c : SSrc) (o : Mmc) (al : BitVec 4)
  | aand (h : Hdr) (ty : Fmt) (m : MemOp) (c : SSrc) (o : Mmc) (al : BitVec 4)
  | aor (h : Hdr) (ty : Fmt) (m : MemOp) (c : SSrc) (o : Mmc) (al : BitVec 4)
  | axor (h : Hdr) (ty : Fmt) (m : MemOp) (c : SSrc) (o : Mmc) (al : BitVec 4)
  | axchg (h : Hdr) (ty : Fmt) (m : MemOp) (c : SSrc) (o : Mmc) (al : BitVec 4)
  | acas (h : Hdr) (ty : Fmt) (d : Fin 64) (m : MemOp) (c : SSrc) (al : BitVec 4)
  | adcas (h : Hdr) (ty : Fmt) (d : Fin 32) (a b : SSrc) (c : Fin 32) (al : BitVec 4)
  | amove (h : Hdr) (ty : Fmt) (d : SDst) (a b : SSrc) (al : BitVec 4)
  | aradd (h : Hdr) (ty : Fmt) (a : SSrc) (off : BitVec 16) (pair : Bool) (c : VSrc) (o : StDst) (al : BitVec 4)
  | armax (h : Hdr) (ty : Fmt) (a : SSrc) (off : BitVec 16) (pair : Bool) (c : VSrc) (o : StDst) (al : BitVec 4)
  -- memory class: patches (R275)
  | pbegin (h : Hdr) (d : Fin 4) (a : NSrc) (k : PKind)
  | ppair (h : Hdr) (d : Fin 4) (a b : NSrc) (k : PKind)
  | pjoin (h : Hdr) (d : Fin 4) (a : NSrc)
  | pseal (h : Hdr) (a : PSrc)
  | pabort (h : Hdr) (a : PSrc)
  | psquash (h : Hdr) (a b : NSrc) (x : Bool)
  | pinv (h : Hdr) (d : Fin 16) (a : NSrc)
  | pcomm (h : Hdr) (a b : NSrc)
  | pxpl (h : Hdr) (d : Fin 16) (a b : NSrc) (c : SSrc) (mv : Bool)
  | pdrop (h : Hdr) (a : NSrc)
  | pquery (h : Hdr) (d : SDst) (a : NSrc) (al : BitVec 4)
  -- memory class: names (R246)
  | nnew (h : Hdr) (d : Fin 16) (f : NNewForm)
  | ndest (h : Hdr) (a : NSrc)
  | nres (h : Hdr) (d : Fin 16) (a : NSrc) (al : BitVec 4)
  | ncas (h : Hdr) (d : Fin 8) (a b c : NSrc) (al : BitVec 4)
  | nmov (h : Hdr) (f : NMovForm)
  | ncmp (h : Hdr) (d : Fin 8) (a b : NSrc)
  -- memory class: cache words
  | cpin (h : Hdr) (d : SDst) (m : MemOp) (al : BitVec 4)
  | cunpin (h : Hdr) (m : MemOp)
  | cwb (h : Hdr) (m : MemOp) (l2 : Bool)
  | cinv (h : Hdr) (m : MemOp) (l2 : Bool)
  -- flow class (R91)
  | br (h : Hdr) (off : BitVec 16)
  | brc (h : Hdr) (ty : Fmt) (a b : SSrc) (k : Cond) (off : BitVec 16)
  | jmpi (h : Hdr) (a : SSrc)
  | call (h : Hdr) (d : SDst) (off : BitVec 16)
  | ret (h : Hdr) (a : SSrc)
  | loop (h : Hdr) (a : Fin 64) (off : BitVec 16)
  | rotset (h : Hdr) (v : BitVec 5) (m : BitVec 3)
  | trap (h : Hdr) (code : BitVec 16)
  | rett (h : Hdr)
  | swait (h : Hdr) (k : BitVec 8)
  | ssig (h : Hdr) (k : BitVec 8) (a : Option SSrc)
  | sset (h : Hdr) (k : BitVec 8) (a : SSrc)
  | sread (h : Hdr) (d : SDst) (k : BitVec 8) (al : BitVec 4)
  | bar (h : Hdr) (stage : Bool)
  | comm (h : Hdr) (m : MemOp)
  | fence (h : Hdr) (scope : BitVec 3)
  | launch (h : Hdr) (m : MemOp)
  | yield (h : Hdr)
  | exit (h : Hdr)
  -- engine class (R163)
  | eqpush (h : Hdr) (q : QCode) (m : MemOp)
  | eqpushv (h : Hdr) (q : QCode) (a : VSrc)
  | eqstat (h : Hdr) (d : SDst) (q : QCode)
  | fpush (h : Hdr) (a : SSrc)
  | qpop (h : Hdr) (d : SDst) (q : Fin 4) (al : BitVec 4)
  | qpush (h : Hdr) (q : Fin 4) (a : SSrc)
  | qstat (h : Hdr) (d : SDst) (q : Fin 9)
  | estat (h : Hdr) (d : SDst) (e : Eng)
  -- modifier class (R63): an XM word's guard bits do not exist; its pd governs the pair
  | xm (pd : BitVec 4) (x : XmMod)
  -- a word that breaks R52 to R57, R63 to R66 or a form's own rule: it takes fault 0x01 (R66)
  | illegalOpcode (w : Word80)
  -- system class (R331, R361, R369)
  | segld (h : Hdr) (m : MemOp)
  | seginv (h : Hdr) (a : SSrc)
  | htlbinv (h : Hdr) (a b : SSrc) (all : Bool)
  | banksw (h : Hdr)
  | banksave (h : Hdr) (bank : Bool) (m : MemOp)
  | bankload (h : Hdr) (bank : Bool) (m : MemOp)
  | ucload (h : Hdr) (a : NSrc)
  | quench (h : Hdr) (a : NSrc) (now : Bool)
  | qresume (h : Hdr) (a : NSrc)
  | ckpt (h : Hdr) (a : Fin 16) (b : SSrc) (k : BitVec 8)
  | ckres (h : Hdr) (a : Fin 16)
  | keybind (h : Hdr) (a b : SSrc)
  | biasflip (h : Hdr) (a b : SSrc) (dev : Bool)
  | idle (h : Hdr)
  | halt (h : Hdr)
  | partset (h : Hdr) (a b : SSrc)
  -- engine words (R68, R195, R219, R358)
  | lit (v : BitVec 15)
  | ext (v : BitVec 14)
  | engineIllegalWord (w : EngWord)
  | popq (a : Fin 4)
  | pushb (a : Fin 4)
  | waitk (k : BitVec 8)
  | sigk (k : BitVec 8)
  | setl (a : Fin 6)
  | setb (a : Fin 8)
  | zacc (a : Fin 4)
  | go (a : Fin 4)
  | drain (a : Fin 4)
  | amaxc (a : Fin 4)
  | layer (a : Fin 4)
  | tload (s : Fin 16)
  | tstore (s : Fin 16)
  | tpair (s : Fin 16)
  | egath (s : Fin 16)
  | txpose (s : Fin 16)
  | cred (a : Fin 4)
  | csig (k : BitVec 8)
  -- micro-operations (R232)
  | usetl (a : Fin 6) (count : BitVec 16) (stride : BitVec 32)
  | usetb (a : Fin 8) (x : BitVec 48)
  | uaddb (a : Fin 8) (d : BitVec 48)
  | uzacc (a : Fin 4)
  | ugo (a : Fin 4)
  | udrain (a : Fin 4)
  | uamaxc (a : Fin 4)
  | usetlc (a : Fin 4) (n : BitVec 16)
  | uloop (a : Fin 4) (target : BitVec 12)
  -- events: messages, timers and the progress of units, as the machine sends them to itself
  | anvilCommandComplete (id : Nat)
  | loadLand (tag : BitVec 4)
  | storeAck (seq : Nat)
  | remoteSignalApply (src : Nat) (sbank : Bool) (jobtag : BitVec 16) (k : BitVec 8) (operand : Word) (pts : BitVec 16)
  | signalAck (err : Option (BitVec 8)) (k : BitVec 8) (operand : Word)
  | barrierRelease (job : Nat) (die : Nat) (stage : Option (BitVec 4)) (inst : Nat) (pts : BitVec 16)
  | commStepEnd (job : Nat) (stage : Option (BitVec 4))
  | jobPlace (job : Nat)
  | jobRetire (job : Nat)
  | jobFail (job : Nat)
  | priorityAging (job : Nat)
  | preempt (job : Nat)
  | wrapStep (quarter : BitVec 2)
  | gets (r : CohReq)
  | getm (r : CohReq)
  | upg (r : CohReq)
  | putm (line : Line) (die : Nat) (data : BitVec 1024)
  | puto (line : Line) (die : Nat) (data : BitVec 1024)
  | puts (line : Line) (die : Nat)
  | pute (line : Line) (die : Nat)
  | forward (line : Line) (die : Nat) (excl : Bool)
  | invalidate (line : Line) (die : Nat)
  | invalidationAck (line : Line) (die : Nat) (data : Option (BitVec 1024))
  | coherenceData (line : Line) (core : Nat) (grant : Moesi) (data : Option (BitVec 1024))
  | completionNotice (line : Line)
  | backInvalidate (line : Line) (die : Nat)
  | leaseRenew (line : Line) (core : Nat)
  | leaseWriteThrough (core : Nat) (seq : Nat)
  | homeAtomic (core : Nat) (seq : Nat)
  | nameInvalidate (name : Name) (die : Nat)
  | nameInvalidateAck (name : Name) (die : Nat)
  | hostPageFault (seq : Nat)
  | pageRequestTimeout (pasid : BitVec 20) (page : Nat)
  | putPacketApply (p : Packet)
  | reducePacketApply (p : Packet)
  | broadcastPacketApply (p : Packet)
  | signalPacketApply (p : Packet)
  | quenchDeadline (job : Name)
  | flaconWriteAck (key : Nat)
  | checkpointDurable (ckpt : Name)
  | journalDurable (mark : Nat)
  | notifyReread (q : Fin 64) (tries : Nat)
  | graceTimeExpiry (job : Nat)
  | partialCollect (patch : Name) (contributor : Nat)
  -- events that come from outside, and register side-cases
  | qcwConfigure (q : QCode) (v : Word)
  | qcwEnable (q : QCode) (v : Word)
  | qcwDisable (q : QCode) (v : Word)
  | ksplitWrite (v : Word)
  | ptsTick (untouched : Bool)
  | latePatchWrite (addr : Word)
  | pageResponse (pasid : BitVec 20) (page : Nat) (ok : Bool)
  | uncorrectableError (addr : Nat) (finder : ErrFinder)
  | errorResponse (code : BitVec 8) (seq : Nat)
  | invalidPacketDiscard (p : Packet)
  | flitRetry (link : Fin 64) (seq : Nat)
  | quenchOrder (job : Name) (now : Bool)
  | sweepDoneMarker (tag : BitVec 16) (link : Fin 64) (chan : Fin 9)
  | saveAreaPacket (p : Packet)
  | quenchReport (job : Name) (module : BitVec 12)
  | latePacket (p : Packet)
  | heldIncrement (tag : BitVec 16) (core : Nat) (k : BitVec 8)
  | checkpointSlice (key : Nat) (bytes : List Byte)
  | submissionNotify (v : Word)
  | launchQueueDescriptorWrite (q : Fin 64) (bytes : List Byte)
  | flipAcknowledge (id : BitVec 32)
  | hostMemoryWrite (line : Line) (off : Fin 128) (bytes : List Byte)
  | hostMemoryRead (line : Line) (off : Fin 128) (len : Fin 129)
  | ptsConfigWrite (mask : BitVec 2048) (v : BitVec 16)
  | jobTagAssign (tag : BitVec 16) (job : Name)
  | configWrite (off : Nat) (v : Word)
  | keyRelease (slot : Fin 128)
  | microcodeImageVerify (addr : Nat) (words : Nat) (signature : List Byte)
  | readyMapChange (map : Fin 4) (bit : Fin 64) (up : Bool)
  | powerCap (steps : Fin 16)
  | thermalCap (steps : Fin 16)
  | hostSnoop (line : Line)
  | launchRecordWrite (q : Fin 64) (slot : Nat) (bytes : List Byte)
  | keyPolicyLoad (digest : BitVec 512)
  -- steps without operands; the compiler keeps these for last
  | endw
  | nopw
  | dup
  | drop
  | swap
  | over
  | callw
  | retw
  | lstat
  | swapp
  | tpad
  | lcopy
  | sload
  | sstore
  | tree
  | cslot
  | cput
  | cbcast
  | uend
  | ulstat
  | uswapp
  | ustripe
  | entryStart
  | entryComplete
  | impreciseTrapDeliver
  | arithmeticTrap
  | slotOverrun
  | overlayLoad
  | bankReturn
  | idleWake
  | eventLogClear
  | spdmGetMeasurements
  | coldBoot
  | thermalShutdown
  | lossOfPower
  | baseHomeReport
  | hostTlbInvalidateAck
  deriving DecidableEq, Repr

end Sys2Proof
end

