-- ==== Sys2Proof/WellFormed.lean ====
section
/-!
DEFINITION. Which instructions a program can hold: the limits of R52 to R57, R84 to R95 and of each form's own entry
that the types of `Instr` do not already keep. An instruction that breaks one has no encoding.
-/
namespace Sys2Proof

/-! ## Type groups (R25, R85) -/

/-- The width of a format in bits (R25). -/
def Fmt.width : Fmt → Nat
  | .i8 | .n8 | .l8 | .h8 => 8
  | .i16 | .n16 | .f16 | .bf16 | .l16 => 16
  | .i32 | .n32 | .f32 => 32
  | .i64 | .n64 => 64
  | .l4 | .h4 => 4

/-- INT: i8 to n64. -/
def Fmt.isInt : Fmt → Bool
  | .i8 | .i16 | .i32 | .i64 | .n8 | .n16 | .n32 | .n64 => true
  | .f16 | .bf16 | .f32 | .l4 | .l8 | .l16 | .h4 | .h8 => false

/-- A signed integer type. -/
def Fmt.signed : Fmt → Bool
  | .i8 | .i16 | .i32 | .i64 => true
  | .n8 | .n16 | .n32 | .n64 | .f16 | .bf16 | .f32 | .l4 | .l8 | .l16 | .h4 | .h8 => false

/-- FLT: f16, bf16 and f32. -/
def Fmt.isFlt : Fmt → Bool
  | .f16 | .bf16 | .f32 => true
  | .i8 | .i16 | .i32 | .i64 | .n8 | .n16 | .n32 | .n64 | .l4 | .l8 | .l16 | .h4 | .h8 => false

/-- LF: l4, l8 and l16. -/
def Fmt.isLog : Fmt → Bool
  | .l4 | .l8 | .l16 => true
  | .i8 | .i16 | .i32 | .i64 | .n8 | .n16 | .n32 | .n64 | .f16 | .bf16 | .f32 | .h4 | .h8 => false

/-- HF: h4 and h8. -/
def Fmt.isHalfStep : Fmt → Bool
  | .h4 | .h8 => true
  | .i8 | .i16 | .i32 | .i64 | .n8 | .n16 | .n32 | .n64 | .f16 | .bf16 | .f32 | .l4 | .l8 | .l16 => false

/-- VINT: the integer types of at most 32 bits. -/
def Fmt.isVInt (t : Fmt) : Bool := t.isInt && t.width ≤ 32

/-- "any": every vector lane type (R85, R126). -/
def Fmt.isAny (t : Fmt) : Bool := t.width ≤ 32

/-- VINT or FLT. -/
def Fmt.isVArith (t : Fmt) : Bool := t.isVInt || t.isFlt

/-- INT or FLT. -/
def Fmt.isArith (t : Fmt) : Bool := t.isInt || t.isFlt

/-! ## Fields -/

/-- A condition guard: 0b1000 is illegal (R55). -/
def Hdr.cond (h : Hdr) : Bool := h.guard != 8

/-- The guard of a whole-register vector word must be m0 (R128). -/
def Hdr.whole (h : Hdr) : Bool := h.guard == 0

/-- Scope and order of a memory modifier go together, and scope 111 is reserved (R86). -/
def Mmc.base (m : Mmc) : Bool := m.scope != 7 && ((m.scope == 0) == (m.order == 0))

/-- The modifier of a load: any order but .rel (R86). -/
def Mmc.load (m : Mmc) : Bool := m.base && m.order != 2

/-- The modifier of a store: any order but .acq, no load modifier (R86). -/
def Mmc.store (m : Mmc) : Bool := m.base && m.order != 1 && !m.row && !m.opn

/-- The modifier of an atomic: any order, no load modifier (R86). -/
def Mmc.atomic (m : Mmc) : Bool := m.base && !m.row && !m.opn

/-- How a load may read. An .asof load takes the offset form (R296). -/
def LdMod.wf (m : MemOp) : LdMod → Bool
  | .mmc o => o.load
  | .asof _ => match m with | .off _ _ => true | .idx _ _ _ => false

/-- Where a store may go. -/
def StDst.wf : StDst → Bool
  | .mmc o => o.store
  | .patch _ => true

/-- Where an atomic may go. -/
def StDst.wfAtomic : StDst → Bool
  | .mmc o => o.atomic
  | .patch _ => true

/-- .un is accepted on floating types only (R86). -/
def Cond.wf (k : Cond) (t : Fmt) : Bool := k != .un || t.isFlt

/-- The delta types of R275. -/
def Fmt.isDelta : Fmt → Bool
  | .f32 | .bf16 | .i32 => true
  | .i8 | .i16 | .i64 | .n8 | .n16 | .n32 | .n64 | .f16 | .l4 | .l8 | .l16 | .h4 | .h8 => false

/-- The kind of PBEGIN and PPAIR carries a delta type of R275. -/
def PKind.wf : PKind → Bool
  | .repl | .replPre => true
  | .add t | .sharedAdd t => t.isDelta

/-- The scalar position whose result an atomic with .ret writes back: it must name an s register, for its read and its
written meanings must be one register (R53; log 10). -/
def SSrc.isReg : SSrc → Bool
  | .s _ => true
  | .bq _ | .zero | .pts | .cycle => false

/-- As `SSrc.isReg` for the vector file. -/
def VSrc.isReg : VSrc → Bool
  | .v _ => true
  | .port _ | .zero | .lane | .pts | .cycle => false

/-- The row register of ARADD and ARMAX: a pair is vC, vC + 1 with C even (R296). -/
def rowRegWf (c : VSrc) (pair : Bool) (al : BitVec 4) : Bool :=
  (al == 0 || c.isReg) &&
  match pair, c with
  | false, _ => true
  | true, .v r => r.val % 2 == 0
  | true, _ => false

/-- The forms of NMOV: `nmov nD, zero` is one form, not two, and .ld and .st keep the modifier rules (R251). -/
def NMovForm.wf : NMovForm → Bool
  | .nn _ _ | .ns _ _ | .sn _ _ | .h _ _ => true
  | .np _ a => a != .zero
  | .ld _ _ o => o.load
  | .st _ _ o => o.store

/-- The bounds of a clamp are s registers (R63). Codes of a clamp that is not enabled, and a scale or rounding mode that is not enabled, are
not looked at (DESIGN CHOICE, log 29). -/
def XmMod.wf (x : XmMod) : Bool := !x.clen || (x.clo.toNat < 64 && x.chi.toNat < 64)

/-- A guarded tagged word names a tag (R62). -/
def tagged (al : BitVec 4) : Bool := al != 0

/-- Well-formed: what a program's words can hold. Words that break a field rule are not well-formed; the steps that no
word encodes are. -/
def WellFormed : Instr → Bool
  | .nop h => h.cond
  | .add h ty _ _ _ | .sub h ty _ _ _ | .mul h ty _ _ _ | .mulh h ty _ _ _ | .div h ty _ _ _ | .rem h ty _ _ _
  | .min h ty _ _ _ | .max h ty _ _ _ => h.cond && ty.isInt
  | .and h _ _ _ | .or h _ _ _ | .xor h _ _ _ | .andn h _ _ _ | .shl h _ _ _ | .shr h _ _ _ | .sar h _ _ _
  | .rot h _ _ _ | .clz h _ _ | .popc h _ _ | .sel h _ _ _ _ => h.cond
  | .cmp h ty _ _ _ k => h.cond && ty.isInt && k.wf ty
  | .movi h _ a _ sh => h.cond && (sh != 0 || a == .s 0)
  | .lea h _ _ => h.cond
  | .ld h ty _ _ al => h.cond && ty.isInt && tagged al
  | .st h ty _ _ => h.cond && ty.isInt
  | .csrr h _ _ | .csrw h _ _ | .cand h _ _ _ | .cor h _ _ _ | .cxor h _ _ _ => h.cond
  | .fadd h ty _ _ _ | .fmul h ty _ _ _ | .ffma h ty _ _ _ _ | .fmin h ty _ _ _ | .fmax h ty _ _ _ =>
    h.cond && ty.isFlt
  | .fcvt h ty src _ _ => h.cond && ty.isArith && src.isArith
  | .fcmp h ty _ _ _ _ => h.cond && ty.isFlt
  | .ftolog h ty src _ _ _ => h.cond && ty.isLog && src.isFlt
  | .ffromlog h ty src _ _ _ => h.cond && ty.isFlt && src.isLog
  | .vadd _ ty _ _ _ | .vsub _ ty _ _ _ | .vmul _ ty _ _ _ | .vmin _ ty _ _ _ | .vmax _ ty _ _ _ => ty.isVArith
  | .vfma _ ty _ _ _ _ | .vrcp _ ty _ _ | .vrsq _ ty _ _ | .vexp2 _ ty _ _ | .vlog2 _ ty _ _ => ty.isFlt
  | .vand _ ty _ _ _ | .vor _ ty _ _ _ | .vxor _ ty _ _ _ | .vshl _ ty _ _ _ | .vshr _ ty _ _ _
  | .vsar _ ty _ _ _ => ty.isVInt
  | .vcmp _ ty _ _ _ k => ty.isVArith && k.wf ty
  | .vsel _ ty _ _ _ _ => ty.isAny
  | .vcvt _ ty src _ _ => ty.isVArith && src.isVArith
  | .vtolog _ ty src _ _ _ => ty.isLog && src.isFlt
  | .vfromlog _ ty src _ _ _ => ty.isFlt && src.isLog
  | .vqnt _ ty src _ _ _ => ty.isHalfStep && src.isFlt
  | .vdqnt _ ty src _ _ _ => ty.isFlt && src.isHalfStep
  | .vbscale _ ty tgt _ _ => ty.isFlt && tgt.isLog
  | .vredadd _ ty _ _ | .vredmax _ ty _ _ | .vredmin _ ty _ _ | .vscan _ ty _ _ _ => ty.isVArith
  | .vhist _ ty _ _ _ => ty == .n16 || ty == .n32
  | .vcmprs _ ty _ _ | .vperm _ ty _ _ _ | .vslide _ ty _ _ _ _ | .vbcast _ ty _ _ => ty.isAny
  | .vext h ty _ _ _ => h.whole && ty.isAny
  | .vins _ ty _ _ _ => ty.isAny
  | .viota _ ty _ _ => ty.isVArith
  | .vld _ ty _ _ al => ty.isAny && tagged al
  | .vst _ ty _ _ => ty.isAny
  | .vgath _ ty _ _ _ _ al => ty.isAny && tagged al
  | .vscat _ ty _ _ _ _ => ty.isAny
  | .portcfg h _ _ => h.whole
  | .mand h _ _ _ | .mor h _ _ _ | .mxor h _ _ _ | .mnot h _ _ => h.whole
  | .mpop h ty _ _ | .mfirst h ty _ _ => h.whole && ty.isAny
  | .vord _ ty _ _ => ty.isFlt
  | .ldg h ty _ m o al => h.cond && ty.isArith && o.wf m && tagged al
  | .stg h ty _ _ o => h.cond && ty.isArith && o.wf
  | .vldg _ ty _ m o al => ty.isAny && o.wf m && tagged al
  | .vstg _ ty _ _ o => ty.isAny && o.wf
  | .prefg h _ _ => h.cond
  | .aadd h ty _ c o al =>
    h.cond && (ty.isInt || ty == .bf16 || ty == .f32) && o.wfAtomic && (al == 0 || c.isReg)
  | .amin h ty _ c o al | .amax h ty _ c o al | .aand h ty _ c o al | .aor h ty _ c o al | .axor h ty _ c o al =>
    h.cond && ty.isInt && o.atomic && (al == 0 || c.isReg)
  | .axchg h ty _ c o al => h.cond && ty.isInt && o.atomic && tagged al && c.isReg
  | .acas h ty _ _ _ al => h.cond && ty.isInt && tagged al
  | .adcas h ty _ _ _ _ al => h.cond && (ty == .i64 || ty == .n64) && tagged al
  | .amove h ty _ _ _ al => h.cond && ty.isInt && tagged al
  | .aradd _ ty _ _ pair c o al | .armax _ ty _ _ pair c o al =>
    (ty == .bf16 || ty == .f32) && rowRegWf c pair al && o.wfAtomic
  | .pbegin h _ _ k | .ppair h _ _ _ k => h.cond && k.wf
  | .pjoin h _ _ | .pseal h _ | .pabort h _ | .psquash h _ _ _ | .pinv h _ _ | .pcomm h _ _ | .pxpl h _ _ _ _ _
  | .pdrop h _ => h.cond
  | .pquery h _ _ al => h.cond && tagged al
  | .nnew h _ f => h.cond && (match f with | .aliasName .zero => false | _ => true)
  | .ndest h _ => h.cond
  | .nres h _ _ al => h.cond && tagged al
  | .ncas h _ _ _ _ al => h.cond && tagged al
  | .nmov h f => h.cond && f.wf
  | .ncmp h _ _ _ => h.cond
  | .cpin h _ _ al => h.cond && tagged al
  | .cunpin h _ | .cwb h _ _ | .cinv h _ _ => h.cond
  | .br h _ => h.cond
  | .brc h ty _ _ k _ => h.cond && ty.isInt && k.wf ty
  | .jmpi h _ | .call h _ _ | .ret h _ | .loop h _ _ | .rotset h _ _ | .trap h _ | .rett h | .swait h _ => h.cond
  | .ssig h _ a => h.cond && a != some (.s 0)
  | .sset h _ _ => h.cond
  | .sread h _ _ al => h.cond && tagged al
  | .bar h _ | .comm h _ => h.cond
  | .fence h scope => h.cond && scope != 0 && scope != 7
  | .launch h _ | .yield h | .exit h => h.cond
  | .eqpush h _ _ | .eqpushv h _ _ | .eqstat h _ _ | .fpush h _ => h.cond
  | .qpop h _ _ al => h.cond && tagged al
  | .qpush h _ _ | .qstat h _ _ | .estat h _ _ => h.cond
  | .xm _ x => x.wf
  | .illegalOpcode _ => false
  | .segld h _ | .seginv h _ => h.cond
  | .htlbinv h _ b all => h.cond && (!all || b == .s 0)
  | .banksw h | .banksave h _ _ | .bankload h _ _ | .ucload h _ | .quench h _ _ | .qresume h _ | .ckpt h _ _ _
  | .ckres h _ | .keybind h _ _ | .biasflip h _ _ _ | .idle h | .halt h | .partset h _ _ => h.cond
  | .engineIllegalWord _ => false
  | .lit _ | .ext _ | .endw | .nopw | .dup | .drop | .swap | .over | .popq _ | .pushb _ | .callw | .retw | .waitk _
  | .sigk _ | .setl _ | .setb _ | .lstat | .swapp | .zacc _ | .go _ | .drain _ | .amaxc _ | .layer _ | .tload _
  | .tstore _ | .tpad | .lcopy | .sload | .sstore | .tree | .tpair _ | .egath _ | .txpose _ | .cslot | .cput
  | .cred _ | .cbcast | .csig _ => true
  | .uend | .usetl _ _ _ | .usetb _ _ | .uaddb _ _ | .ulstat | .uswapp | .uzacc _ | .ugo _ | .udrain _ | .uamaxc _
  | .usetlc _ _ | .uloop _ _ | .ustripe => true
  | .qcwConfigure _ _ | .qcwEnable _ _ | .qcwDisable _ _ | .ksplitWrite _ | .entryStart | .entryComplete
  | .anvilCommandComplete _ | .loadLand _ | .storeAck _ | .impreciseTrapDeliver | .arithmeticTrap
  | .remoteSignalApply _ _ _ _ _ _ | .signalAck _ _ _ | .barrierRelease _ _ _ _ _ | .commStepEnd _ _ | .slotOverrun
  | .overlayLoad | .bankReturn | .idleWake | .jobPlace _ | .jobRetire _ | .jobFail _ | .priorityAging _ | .preempt _
  | .ptsTick _ | .wrapStep _ | .gets _ | .getm _ | .upg _ | .putm _ _ _ | .puto _ _ _ | .puts _ _ | .pute _ _
  | .forward _ _ _ | .invalidate _ _ | .invalidationAck _ _ _ | .coherenceData _ _ _ _ | .completionNotice _
  | .backInvalidate _ _ | .leaseRenew _ _ | .leaseWriteThrough _ _ | .homeAtomic _ _ | .partialCollect _ _
  | .latePatchWrite _ | .nameInvalidate _ _ | .nameInvalidateAck _ _ | .hostPageFault _ | .pageResponse _ _ _
  | .pageRequestTimeout _ _ | .uncorrectableError _ _ | .errorResponse _ _ | .putPacketApply _ | .reducePacketApply _
  | .broadcastPacketApply _ | .signalPacketApply _ | .invalidPacketDiscard _ | .flitRetry _ _ | .quenchOrder _ _
  | .sweepDoneMarker _ _ _ | .saveAreaPacket _ | .quenchReport _ _ | .quenchDeadline _ | .latePacket _
  | .heldIncrement _ _ _ | .checkpointSlice _ _ | .flaconWriteAck _ | .checkpointDurable _ | .journalDurable _
  | .submissionNotify _ | .notifyReread _ _ | .launchQueueDescriptorWrite _ _ | .flipAcknowledge _
  | .hostMemoryWrite _ _ _ | .hostMemoryRead _ _ _ | .ptsConfigWrite _ _ | .jobTagAssign _ _ | .eventLogClear
  | .configWrite _ _ | .spdmGetMeasurements | .keyRelease _ | .microcodeImageVerify _ _ _ | .readyMapChange _ _ _
  | .coldBoot | .powerCap _ | .thermalCap _ | .thermalShutdown | .graceTimeExpiry _ | .hostSnoop _
  | .launchRecordWrite _ _ _ | .keyPolicyLoad _ | .lossOfPower | .baseHomeReport | .hostTlbInvalidateAck => true

end Sys2Proof
end

