-- ==== Sys2Proof/Decode.lean ====
section
/-!
DEFINITION. Reading instructions from words and writing words from instructions: the 80-bit control-stream words (R50 to
R66, R84 to R95), the 16-bit engine words (R68, R69, R94) and the 64-bit micro-operations (R232). The decoder is total
and rejects by name; the encoder follows the same tables.
-/
namespace Sys2Proof

/-- Why a word is no instruction. Every one of them is fault 0x01 (R52, R54, R56, R62, R66). -/
inductive DecodeError where
  /-- an unassigned opcode or class 111 (R66) -/
  | unassigned
  /-- a field the form does not use is not zero (R52) -/
  | unusedField
  /-- an operand code outside its position's file (R54) -/
  | operandCode
  /-- a format code the word does not accept (R56) -/
  | typeCode
  /-- a modifier, condition, queue code or selector outside its table -/
  | modifier
  /-- the guard 0b1000, or a guard other than m0 on a whole-register word (R55, R128) -/
  | guardCode
  /-- a variable-latency result without a tag (R62) -/
  | noTag
  deriving DecidableEq, Repr

/-- The result of reading a word. -/
abbrev Decoded (α : Type) := Except DecodeError α

/-- Go on only if the condition holds. -/
def need (b : Bool) (e : DecodeError) : Decoded Unit := if b then .ok () else .error e

/-! ## The fields of R50 -/

/-- The fields of a control-stream word. -/
structure Fields where
  cls : BitVec 3
  op : BitVec 8
  guard : BitVec 4
  dst : BitVec 7
  a : BitVec 7
  b : BitVec 7
  c : BitVec 7
  ty : BitVec 4
  imm : BitVec 16
  i : BitVec 1
  pd : BitVec 4
  al : BitVec 4
  usA : BitVec 4
  usB : BitVec 4
  deriving DecidableEq, Repr

/-- The fields of a word (R50). -/
def Fields.ofWord (w : Word80) : Fields :=
  { cls := w.extractLsb' 77 3, op := w.extractLsb' 69 8, guard := w.extractLsb' 65 4, dst := w.extractLsb' 58 7
    a := w.extractLsb' 51 7, b := w.extractLsb' 44 7, c := w.extractLsb' 37 7, ty := w.extractLsb' 33 4
    imm := w.extractLsb' 17 16, i := w.extractLsb' 16 1, pd := w.extractLsb' 12 4, al := w.extractLsb' 8 4
    usA := w.extractLsb' 4 4, usB := w.extractLsb' 0 4 }

/-- The word with these fields (R50). -/
def Fields.toWord (f : Fields) : Word80 :=
  f.cls ++ f.op ++ f.guard ++ f.dst ++ f.a ++ f.b ++ f.c ++ f.ty ++ f.imm ++ f.i ++ f.pd ++ f.al ++ f.usA ++ f.usB

/-! ## Codes -/

/-- The format of a code (R25). -/
def Fmt.ofCode (c : BitVec 4) : Fmt :=
  match c.toNat with
  | 0 => .i8 | 1 => .i16 | 2 => .i32 | 3 => .i64 | 4 => .n8 | 5 => .n16 | 6 => .n32 | 7 => .n64
  | 8 => .f16 | 9 => .bf16 | 10 => .f32 | 11 => .l4 | 12 => .l8 | 13 => .l16 | 14 => .h4 | _ => .h8

/-- The code of a format (R25). -/
def Fmt.code : Fmt → BitVec 4
  | .i8 => 0 | .i16 => 1 | .i32 => 2 | .i64 => 3 | .n8 => 4 | .n16 => 5 | .n32 => 6 | .n64 => 7
  | .f16 => 8 | .bf16 => 9 | .f32 => 10 | .l4 => 11 | .l8 => 12 | .l16 => 13 | .h4 => 14 | .h8 => 15

/-- A number below a bound, or the code is rejected. -/
def below (k : Nat) (n : Nat) (e : DecodeError) : Decoded (Fin k) := if h : n < k then .ok ⟨n, h⟩ else .error e

/-- A scalar source (R53). -/
def SSrc.ofCode (c : BitVec 7) : Decoded SSrc :=
  let n := c.toNat
  if h : n < 64 then .ok (.s ⟨n, h⟩)
  else if h : 72 ≤ n ∧ n < 76 then .ok (.bq ⟨n - 72, by omega⟩)
  else if n = 116 then .ok .zero
  else if n = 118 then .ok .pts
  else if n = 119 then .ok .cycle
  else .error .operandCode

/-- The code of a scalar source. -/
def SSrc.code : SSrc → BitVec 7
  | .s r => BitVec.ofNat 7 r.val
  | .bq q => BitVec.ofNat 7 (72 + q.val)
  | .zero => 116
  | .pts => 118
  | .cycle => 119

/-- A scalar destination (R53). -/
def SDst.ofCode (c : BitVec 7) : Decoded SDst :=
  let n := c.toNat
  if h : n < 64 then .ok (.s ⟨n, h⟩)
  else if h : 72 ≤ n ∧ n < 76 then .ok (.aq ⟨n - 72, by omega⟩)
  else .error .operandCode

/-- The code of a scalar destination. -/
def SDst.code : SDst → BitVec 7
  | .s r => BitVec.ofNat 7 r.val
  | .aq q => BitVec.ofNat 7 (72 + q.val)

/-- A vector source (R53). -/
def VSrc.ofCode (c : BitVec 7) : Decoded VSrc :=
  let n := c.toNat
  if h : n < 64 then .ok (.v ⟨n, h⟩)
  else if h : 64 ≤ n ∧ n < 72 then .ok (.port ⟨n - 64, by omega⟩)
  else if n = 116 then .ok .zero
  else if n = 117 then .ok .lane
  else if n = 118 then .ok .pts
  else if n = 119 then .ok .cycle
  else .error .operandCode

/-- The code of a vector source. -/
def VSrc.code : VSrc → BitVec 7
  | .v r => BitVec.ofNat 7 r.val
  | .port i => BitVec.ofNat 7 (64 + i.val)
  | .zero => 116
  | .lane => 117
  | .pts => 118
  | .cycle => 119

/-- A vector destination (R53). -/
def VDst.ofCode (c : BitVec 7) : Decoded VDst :=
  let n := c.toNat
  if h : n < 64 then .ok (.v ⟨n, h⟩)
  else if h : 64 ≤ n ∧ n < 68 then .ok (.port ⟨n - 64, by omega⟩)
  else .error .operandCode

/-- The code of a vector destination. -/
def VDst.code : VDst → BitVec 7
  | .v r => BitVec.ofNat 7 r.val
  | .port o => BitVec.ofNat 7 (64 + o.val)

/-- A register code of a file that starts at `base` and holds `k` registers. -/
def fileReg (base k : Nat) (c : BitVec 7) : Decoded (Fin k) :=
  let n := c.toNat
  if h : base ≤ n ∧ n < base + k then .ok ⟨n - base, by omega⟩ else .error .operandCode

/-- The code of register r of the file that starts at `base`. -/
def regCode (base : Nat) (r : Nat) : BitVec 7 := BitVec.ofNat 7 (base + r)

/-- A condition source. -/
def CSrc.ofCode (c : BitVec 7) : Decoded CSrc := if c = 116 then .ok .zero else (fileReg 80 8 c).map .c
/-- The code of a condition source. -/
def CSrc.code : CSrc → BitVec 7 | .c r => regCode 80 r | .zero => 116
/-- A mask source. -/
def MSrc.ofCode (c : BitVec 7) : Decoded MSrc := if c = 116 then .ok .zero else (fileReg 80 16 c).map .m
/-- The code of a mask source. -/
def MSrc.code : MSrc → BitVec 7 | .m r => regCode 80 r | .zero => 116
/-- A name source. -/
def NSrc.ofCode (c : BitVec 7) : Decoded NSrc := if c = 116 then .ok .zero else (fileReg 96 16 c).map .n
/-- The code of a name source. -/
def NSrc.code : NSrc → BitVec 7 | .n r => regCode 96 r | .zero => 116
/-- A patch source. -/
def PSrc.ofCode (c : BitVec 7) : Decoded PSrc := if c = 116 then .ok .zero else (fileReg 112 4 c).map .p
/-- The code of a patch source. -/
def PSrc.code : PSrc → BitVec 7 | .p r => regCode 112 r | .zero => 116

/-- The even register of a pair among 64 (R251, R301). -/
def evenReg (c : BitVec 7) : Decoded (Fin 32) :=
  let n := c.toNat
  if h : n < 64 then (if n % 2 = 0 then .ok ⟨n / 2, by omega⟩ else .error .operandCode) else .error .operandCode

/-- The code of the even register of pair r. -/
def evenCode (r : Fin 32) : BitVec 7 := BitVec.ofNat 7 (2 * r.val)

/-- A condition code (R86). -/
def Cond.ofCode (c : BitVec 7) : Decoded Cond :=
  match c.toNat with
  | 0 => .ok .eq | 1 => .ok .ne | 2 => .ok .lt | 3 => .ok .le | 4 => .ok .gt | 5 => .ok .ge | 6 => .ok .un
  | _ => .error .modifier

/-- The code of a condition. -/
def Cond.code : Cond → BitVec 7
  | .eq => 0 | .ne => 1 | .lt => 2 | .le => 3 | .gt => 4 | .ge => 5 | .un => 6

/-- The rounding mode of a code (R28). -/
def RMode.ofCode (c : BitVec 2) : RMode :=
  match c.toNat with
  | 0 => .rne | 1 => .rtz | 2 => .rup | _ => .rdn

/-- The fields of a memory modifier code (R86). -/
def Mmc.ofCode (c : BitVec 7) : Mmc :=
  { scope := c.extractLsb' 4 3, order := c.extractLsb' 2 2, row := c.getLsbD 1, opn := c.getLsbD 0 }

/-- The code of a memory modifier. -/
def Mmc.code (m : Mmc) : BitVec 7 := m.scope ++ m.order ++ BitVec.ofBool m.row ++ BitVec.ofBool m.opn

/-- A Boolean field value: 0 or 1. -/
def flagOf (c : BitVec 7) : Decoded Bool := if c = 0 then .ok false else if c = 1 then .ok true else .error .modifier

/-- The code of a Boolean field. -/
def flagCode (b : Bool) : BitVec 7 := if b then 1 else 0

/-- A queue code (R92). -/
def QCode.ofCode (c : BitVec 7) : Decoded QCode :=
  match c.toNat with
  | 0 => .ok .anvil | 1 => .ok .copy0 | 2 => .ok .copy1 | 3 => .ok .coll | _ => .error .modifier

/-- The code of a queue. -/
def QCode.code : QCode → BitVec 7 | .anvil => 0 | .copy0 => 1 | .copy1 => 2 | .coll => 3

/-- An engine code (R92). -/
def Eng.ofCode (c : BitVec 7) : Decoded Eng :=
  match c.toNat with
  | 0 => .ok .anvil | 1 => .ok .copy | 2 => .ok .coll | _ => .error .modifier

/-- The code of an engine. -/
def Eng.code : Eng → BitVec 7 | .anvil => 0 | .copy => 1 | .coll => 2

/-- The kind of PBEGIN and PPAIR (R275): srcc and type. -/
def PKind.ofCode (c : BitVec 7) (ty : BitVec 4) : Decoded PKind :=
  match c.toNat with
  | 0 => if ty = 0 then .ok .repl else .error .typeCode
  | 4 => if ty = 0 then .ok .replPre else .error .typeCode
  | 1 => if (Fmt.ofCode ty).isDelta then .ok (.add (.ofCode ty)) else .error .typeCode
  | 3 => if (Fmt.ofCode ty).isDelta then .ok (.sharedAdd (.ofCode ty)) else .error .typeCode
  | _ => .error .modifier

/-- srcc of a kind. -/
def PKind.code : PKind → BitVec 7 | .repl => 0 | .replPre => 4 | .add _ => 1 | .sharedAdd _ => 3
/-- The type field of a kind. -/
def PKind.ty : PKind → BitVec 4 | .repl => 0 | .replPre => 0 | .add t => t.code | .sharedAdd t => t.code

/-! ## Reading fields -/

/-- A field of a word, as an entry lists those it does not use. -/
inductive Fld where
  | dst | a | b | c | ty | imm | i | al
  deriving DecidableEq, Repr

/-- The field holds zero; `imm` covers imm16 and I. -/
def Fields.isZero (f : Fields) : Fld → Bool
  | .dst => f.dst == 0 | .a => f.a == 0 | .b => f.b == 0 | .c => f.c == 0 | .ty => f.ty == 0
  | .imm => f.imm == 0 && f.i == 0 | .i => f.i == 0 | .al => f.al == 0

/-- The listed fields must be zero (R52). -/
def Fields.unused (f : Fields) (l : List Fld) : Decoded Unit := need (l.all f.isZero) .unusedField

/-- The header of a word. -/
def Fields.hdr (f : Fields) : Hdr := { guard := f.guard, pd := f.pd, usA := f.usA, usB := f.usB }

/-- The header of a word with a condition guard (R55). -/
def Fields.cond (f : Fields) : Decoded Hdr := if f.hdr.cond then .ok f.hdr else .error .guardCode
/-- The header of a whole-register word (R128). -/
def Fields.whole (f : Fields) : Decoded Hdr := if f.hdr.whole then .ok f.hdr else .error .guardCode
/-- The header of a word with a mask guard. -/
def Fields.mask (f : Fields) : Decoded Hdr := .ok f.hdr

/-- The type field, of a group. -/
def Fields.typ (f : Fields) (p : Fmt → Bool) : Decoded Fmt :=
  if p (.ofCode f.ty) then .ok (.ofCode f.ty) else .error .typeCode

/-- A format code in srcc, of a group (R84). -/
def Fields.typC (f : Fields) (p : Fmt → Bool) : Decoded Fmt :=
  if f.c.toNat < 16 then
    (if p (.ofCode (f.c.setWidth 4)) then .ok (.ofCode (f.c.setWidth 4)) else .error .typeCode)
  else .error .typeCode

/-- B# of a scalar word (R57, R85). -/
def Fields.srcB (f : Fields) : Decoded SrcB :=
  if f.i = 1 then (if f.b = 0 then .ok (.imm f.imm) else .error .unusedField)
  else if f.imm = 0 then (SSrc.ofCode f.b).map .reg else .error .unusedField

/-- B# of a vector word. -/
def Fields.vsrcB (f : Fields) : Decoded VSrcB :=
  if f.i = 1 then (if f.b = 0 then .ok (.imm f.imm) else .error .unusedField)
  else if f.imm = 0 then (VSrc.ofCode f.b).map .reg else .error .unusedField

/-- The memory operand (R57). -/
def Fields.mem (f : Fields) : Decoded MemOp := do
  let a ← SSrc.ofCode f.a
  if f.i = 1 then (if f.b = 0 then .ok (.off a f.imm) else .error .unusedField)
  else
    let b ← SSrc.ofCode f.b
    (below 8 f.imm.toNat .unusedField).map (.idx a b)

/-- The tag of a word whose result has variable latency (R62). -/
def Fields.tag (f : Fields) : Decoded (BitVec 4) := if tagged f.al then .ok f.al else .error .noTag

/-- The shift of a gather or scatter operand (R85). -/
def Fields.shift (f : Fields) : Decoded (Fin 8) := below 8 f.imm.toNat .unusedField

/-- A semaphore number (R85). -/
def Fields.sem (f : Fields) : Decoded (BitVec 8) :=
  if f.imm.toNat < 256 then .ok (f.imm.setWidth 8) else .error .unusedField

/-- A modifier of a load, as field value (R86, R296). -/
def Mmc.read (p : Mmc → Bool) (c : BitVec 7) : Decoded Mmc :=
  if p (.ofCode c) then .ok (.ofCode c) else .error .modifier

/-- The destination of a store: a modifier or a patch register (R86, R90). -/
def StDst.read (p : Mmc → Bool) (c : BitVec 7) : Decoded StDst :=
  match fileReg 112 4 c with
  | .ok r => .ok (.patch r)
  | .error _ => (Mmc.read p c).map .mmc

/-- The code of a store's destination. -/
def StDst.code : StDst → BitVec 7 | .mmc m => m.code | .patch p => regCode 112 p

/-- Memory operand and reading modifier of LDG and VLDG: .asof is marked by srcb = 116 beside an offset (R296). -/
def Fields.loadMem (f : Fields) : Decoded (MemOp × LdMod) := do
  if f.i = 1 ∧ f.b = 116 then
    let a ← SSrc.ofCode f.a
    let n ← NSrc.ofCode f.c
    .ok (.off a f.imm, .asof n)
  else
    let m ← f.mem
    let o ← Mmc.read Mmc.load f.c
    .ok (m, .mmc o)

/-! ## Control-stream words, class by class -/

/-- Scalar class (R88). -/
def decodeScalar (f : Fields) : Decoded Instr := do
  let arith (k : Hdr → Fmt → SDst → SSrc → SrcB → Instr) (p : Fmt → Bool) : Decoded Instr := do
    let h ← f.cond; f.unused [.c, .al]
    .ok (k h (← f.typ p) (← SDst.ofCode f.dst) (← SSrc.ofCode f.a) (← f.srcB))
  let logic (k : Hdr → SDst → SSrc → SrcB → Instr) : Decoded Instr := do
    let h ← f.cond; f.unused [.c, .ty, .al]
    .ok (k h (← SDst.ofCode f.dst) (← SSrc.ofCode f.a) (← f.srcB))
  let unary (k : Hdr → SDst → SSrc → Instr) : Decoded Instr := do
    let h ← f.cond; f.unused [.b, .c, .ty, .imm, .al]
    .ok (k h (← SDst.ofCode f.dst) (← SSrc.ofCode f.a))
  let compare (k : Hdr → Fmt → Fin 8 → SSrc → SrcB → Cond → Instr) (p : Fmt → Bool) : Decoded Instr := do
    let h ← f.cond; f.unused [.al]
    let ty ← f.typ p; let cc ← Cond.ofCode f.c
    need (cc.wf ty) .modifier
    .ok (k h ty (← fileReg 80 8 f.dst) (← SSrc.ofCode f.a) (← f.srcB) cc)
  let clog (k : Hdr → Fin 8 → CSrc → CSrc → Instr) : Decoded Instr := do
    let h ← f.cond; f.unused [.c, .ty, .imm, .al]
    .ok (k h (← fileReg 80 8 f.dst) (← CSrc.ofCode f.a) (← CSrc.ofCode f.b))
  let flog (k : Hdr → Fmt → Fmt → SDst → SSrc → SSrc → Instr) (p q : Fmt → Bool) : Decoded Instr := do
    let h ← f.cond; f.unused [.imm, .al]
    .ok (k h (← f.typ p) (← f.typC q) (← SDst.ofCode f.dst) (← SSrc.ofCode f.a) (← SSrc.ofCode f.b))
  match f.op.toNat with
  | 0x00 => do let h ← f.cond; f.unused [.dst, .a, .b, .c, .ty, .imm, .al]; .ok (.nop h)
  | 0x01 => arith .add Fmt.isInt
  | 0x02 => arith .sub Fmt.isInt
  | 0x03 => arith .mul Fmt.isInt
  | 0x04 => arith .mulh Fmt.isInt
  | 0x05 => arith .div Fmt.isInt
  | 0x06 => arith .rem Fmt.isInt
  | 0x07 => arith .min Fmt.isInt
  | 0x08 => arith .max Fmt.isInt
  | 0x09 => logic .and
  | 0x0A => logic .or
  | 0x0B => logic .xor
  | 0x0C => logic .andn
  | 0x0D => logic .shl
  | 0x0E => logic .shr
  | 0x0F => logic .sar
  | 0x10 => logic .rot
  | 0x11 => unary .clz
  | 0x12 => unary .popc
  | 0x13 => do
    let h ← f.cond; f.unused [.ty, .imm, .al]
    .ok (.sel h (← SDst.ofCode f.dst) (← CSrc.ofCode f.a) (← SSrc.ofCode f.b) (← SSrc.ofCode f.c))
  | 0x14 => compare .cmp Fmt.isInt
  | 0x15 => do
    let h ← f.cond; f.unused [.b, .ty, .al]
    need (f.i == 1) .unusedField
    let sh ← below 4 f.c.toNat .modifier
    let a ← SSrc.ofCode f.a
    need (sh != 0 || a == .s 0) .unusedField
    .ok (.movi h (← SDst.ofCode f.dst) a f.imm sh)
  | 0x16 => do let h ← f.cond; f.unused [.c, .ty, .al]; .ok (.lea h (← SDst.ofCode f.dst) (← f.mem))
  | 0x17 => do
    let h ← f.cond; f.unused [.c]
    .ok (.ld h (← f.typ Fmt.isInt) (← SDst.ofCode f.dst) (← f.mem) (← f.tag))
  | 0x18 => do
    let h ← f.cond; f.unused [.dst, .al]
    .ok (.st h (← f.typ Fmt.isInt) (← f.mem) (← SSrc.ofCode f.c))
  | 0x19 => do
    let h ← f.cond; f.unused [.a, .b, .c, .ty, .i, .al]
    .ok (.csrr h (← SDst.ofCode f.dst) f.imm)
  | 0x1A => do
    let h ← f.cond; f.unused [.dst, .b, .c, .ty, .i, .al]
    .ok (.csrw h f.imm (← SSrc.ofCode f.a))
  | 0x1B => clog .cand
  | 0x1C => clog .cor
  | 0x1D => clog .cxor
  | 0x1E => arith .fadd Fmt.isFlt
  | 0x1F => arith .fmul Fmt.isFlt
  | 0x20 => do
    let h ← f.cond; f.unused [.imm, .al]
    .ok (.ffma h (← f.typ Fmt.isFlt) (← SDst.ofCode f.dst) (← SSrc.ofCode f.a) (← SSrc.ofCode f.b) (← SSrc.ofCode f.c))
  | 0x21 => do
    let h ← f.cond; f.unused [.b, .imm, .al]
    .ok (.fcvt h (← f.typ Fmt.isArith) (← f.typC Fmt.isArith) (← SDst.ofCode f.dst) (← SSrc.ofCode f.a))
  | 0x22 => compare .fcmp Fmt.isFlt
  | 0x23 => arith .fmin Fmt.isFlt
  | 0x24 => arith .fmax Fmt.isFlt
  | 0x25 => flog .ftolog Fmt.isLog Fmt.isFlt
  | 0x26 => flog .ffromlog Fmt.isFlt Fmt.isLog
  | _ => .error .unassigned

/-- Vector class (R89, R129). VINS into a port code, which it would read and write with two meanings, is rejected (DESIGN CHOICE, log 10). -/
def decodeVector (f : Fields) : Decoded Instr := do
  let two (k : Hdr → Fmt → VDst → VSrc → VSrcB → Instr) (p : Fmt → Bool) : Decoded Instr := do
    let h ← f.mask; f.unused [.c, .al]
    .ok (k h (← f.typ p) (← VDst.ofCode f.dst) (← VSrc.ofCode f.a) (← f.vsrcB))
  let one (k : Hdr → Fmt → VDst → VSrc → Instr) (p : Fmt → Bool) : Decoded Instr := do
    let h ← f.mask; f.unused [.b, .c, .imm, .al]
    .ok (k h (← f.typ p) (← VDst.ofCode f.dst) (← VSrc.ofCode f.a))
  let conv1 (k : Hdr → Fmt → Fmt → VDst → VSrc → Instr) (p q : Fmt → Bool) : Decoded Instr := do
    let h ← f.mask; f.unused [.b, .imm, .al]
    .ok (k h (← f.typ p) (← f.typC q) (← VDst.ofCode f.dst) (← VSrc.ofCode f.a))
  let conv2 (k : Hdr → Fmt → Fmt → VDst → VSrc → VSrc → Instr) (p q : Fmt → Bool) : Decoded Instr := do
    let h ← f.mask; f.unused [.imm, .al]
    .ok (k h (← f.typ p) (← f.typC q) (← VDst.ofCode f.dst) (← VSrc.ofCode f.a) (← VSrc.ofCode f.b))
  let masks (k : Hdr → Fin 16 → MSrc → MSrc → Instr) : Decoded Instr := do
    let h ← f.whole; f.unused [.c, .ty, .imm, .al]
    .ok (k h (← fileReg 80 16 f.dst) (← MSrc.ofCode f.a) (← MSrc.ofCode f.b))
  let mcount (k : Hdr → Fmt → SDst → MSrc → Instr) : Decoded Instr := do
    let h ← f.whole; f.unused [.b, .c, .imm, .al]
    .ok (k h (← f.typ Fmt.isAny) (← SDst.ofCode f.dst) (← MSrc.ofCode f.a))
  match f.op.toNat with
  | 0x00 => two .vadd Fmt.isVArith
  | 0x01 => two .vsub Fmt.isVArith
  | 0x02 => two .vmul Fmt.isVArith
  | 0x03 => do
    let h ← f.mask; f.unused [.imm, .al]
    .ok (.vfma h (← f.typ Fmt.isFlt) (← VDst.ofCode f.dst) (← VSrc.ofCode f.a) (← VSrc.ofCode f.b) (← VSrc.ofCode f.c))
  | 0x04 => two .vmin Fmt.isVArith
  | 0x05 => two .vmax Fmt.isVArith
  | 0x06 => one .vrcp Fmt.isFlt
  | 0x07 => one .vrsq Fmt.isFlt
  | 0x08 => one .vexp2 Fmt.isFlt
  | 0x09 => one .vlog2 Fmt.isFlt
  | 0x0A => two .vand Fmt.isVInt
  | 0x0B => two .vor Fmt.isVInt
  | 0x0C => two .vxor Fmt.isVInt
  | 0x0D => two .vshl Fmt.isVInt
  | 0x0E => two .vshr Fmt.isVInt
  | 0x0F => two .vsar Fmt.isVInt
  | 0x10 => do
    let h ← f.mask; f.unused [.al]
    let ty ← f.typ Fmt.isVArith; let cc ← Cond.ofCode f.c
    need (cc.wf ty) .modifier
    .ok (.vcmp h ty (← fileReg 80 16 f.dst) (← VSrc.ofCode f.a) (← f.vsrcB) cc)
  | 0x11 => do
    let h ← f.mask; f.unused [.imm, .al]
    .ok (.vsel h (← f.typ Fmt.isAny) (← VDst.ofCode f.dst) (← MSrc.ofCode f.a) (← VSrc.ofCode f.b) (← VSrc.ofCode f.c))
  | 0x12 => conv1 .vcvt Fmt.isVArith Fmt.isVArith
  | 0x13 => conv2 .vtolog Fmt.isLog Fmt.isFlt
  | 0x14 => conv2 .vfromlog Fmt.isFlt Fmt.isLog
  | 0x15 => conv2 .vqnt Fmt.isHalfStep Fmt.isFlt
  | 0x16 => conv2 .vdqnt Fmt.isFlt Fmt.isHalfStep
  | 0x17 => conv1 .vbscale Fmt.isFlt Fmt.isLog
  | 0x18 => one .vredadd Fmt.isVArith
  | 0x19 => one .vredmax Fmt.isVArith
  | 0x1A => one .vredmin Fmt.isVArith
  | 0x1B => do
    let h ← f.mask; f.unused [.b, .imm, .al]
    .ok (.vscan h (← f.typ Fmt.isVArith) (← VDst.ofCode f.dst) (← VSrc.ofCode f.a) (← below 3 f.c.toNat .modifier))
  | 0x1C => do
    let h ← f.mask; f.unused [.c, .al]
    .ok (.vhist h (← f.typ (fun t => t == .n16 || t == .n32)) (← VDst.ofCode f.dst) (← VSrc.ofCode f.a) (← f.srcB))
  | 0x1D => one .vcmprs Fmt.isAny
  | 0x1E => do
    let h ← f.mask; f.unused [.c, .imm, .al]
    .ok (.vperm h (← f.typ Fmt.isAny) (← VDst.ofCode f.dst) (← VSrc.ofCode f.a) (← VSrc.ofCode f.b))
  | 0x1F => do
    let h ← f.mask; f.unused [.al]
    .ok (.vslide h (← f.typ Fmt.isAny) (← VDst.ofCode f.dst) (← VSrc.ofCode f.a) (← f.srcB) (← flagOf f.c))
  | 0x20 => do
    let h ← f.mask; f.unused [.b, .c, .imm, .al]
    .ok (.vbcast h (← f.typ Fmt.isAny) (← VDst.ofCode f.dst) (← SSrc.ofCode f.a))
  | 0x21 => do
    let h ← f.whole; f.unused [.c, .al]
    .ok (.vext h (← f.typ Fmt.isAny) (← SDst.ofCode f.dst) (← VSrc.ofCode f.a) (← f.srcB))
  | 0x22 => do
    let h ← f.mask; f.unused [.c, .al]
    .ok (.vins h (← f.typ Fmt.isAny) (← below 64 f.dst.toNat .operandCode) (← SSrc.ofCode f.a) (← f.srcB))
  | 0x23 => do
    let h ← f.mask; f.unused [.b, .c, .imm, .al]
    .ok (.viota h (← f.typ Fmt.isVArith) (← VDst.ofCode f.dst) (← SSrc.ofCode f.a))
  | 0x24 => do
    let h ← f.mask; f.unused [.c]
    .ok (.vld h (← f.typ Fmt.isAny) (← VDst.ofCode f.dst) (← f.mem) (← f.tag))
  | 0x25 => do
    let h ← f.mask; f.unused [.dst, .al]
    .ok (.vst h (← f.typ Fmt.isAny) (← f.mem) (← VSrc.ofCode f.c))
  | 0x26 => do
    let h ← f.mask; f.unused [.c, .i]
    .ok (.vgath h (← f.typ Fmt.isAny) (← VDst.ofCode f.dst) (← SSrc.ofCode f.a) (← VSrc.ofCode f.b) (← f.shift) (← f.tag))
  | 0x27 => do
    let h ← f.mask; f.unused [.dst, .i, .al]
    .ok (.vscat h (← f.typ Fmt.isAny) (← SSrc.ofCode f.a) (← VSrc.ofCode f.b) (← f.shift) (← VSrc.ofCode f.c))
  | 0x28 => do
    let h ← f.whole; f.unused [.dst, .b, .c, .ty, .i, .al]
    .ok (.portcfg h (← below 12 f.imm.toNat .modifier) (← SSrc.ofCode f.a))
  | 0x29 => masks .mand
  | 0x2A => masks .mor
  | 0x2B => masks .mxor
  | 0x2C => do
    let h ← f.whole; f.unused [.b, .c, .ty, .imm, .al]
    .ok (.mnot h (← fileReg 80 16 f.dst) (← MSrc.ofCode f.a))
  | 0x2D => mcount .mpop
  | 0x2E => mcount .mfirst
  | 0x2F => one .vord Fmt.isFlt
  | _ => .error .unassigned

/-- NMOV by form (R251). -/
def decodeNmov (f : Fields) : Decoded NMovForm :=
  match f.ty.toNat with
  | 0 => do
    f.unused [.b, .c, .imm]
    match fileReg 96 16 f.dst with
    | .ok d =>
      match NSrc.ofCode f.a with
      | .ok a => .ok (.nn d a)
      | .error _ =>
        match fileReg 112 4 f.a with
        | .ok p => .ok (.np d (.p p))
        | .error _ => .ok (.ns d (← evenReg f.a))
    | .error _ => .ok (.sn (← evenReg f.dst) (← NSrc.ofCode f.a))
  | 1 => do .ok (.ld (← fileReg 96 16 f.dst) (← f.mem) (← Mmc.read Mmc.load f.c))
  | 2 => do .ok (.st (← f.mem) (← NSrc.ofCode f.c) (← Mmc.read Mmc.store f.dst))
  | 3 => do f.unused [.b, .c, .imm]; .ok (.h (← below 16 f.dst.toNat .operandCode) (← NSrc.ofCode f.a))
  | _ => .error .typeCode

/-- NNEW by form (R246). -/
def decodeNnew (f : Fields) : Decoded NNewForm :=
  match f.c.toNat with
  | 1 => do .ok (.tensor (← SSrc.ofCode f.a))
  | 5 => do .ok (.cellseg (← SSrc.ofCode f.a))
  | 8 => do .ok (.aliasName (.n (← fileReg 96 16 f.a)))
  | _ => .error .modifier

/-- Memory class (R90, R246, R275, R296). ACAS with a queue code as sD, which it would read and write with two meanings, is rejected (DESIGN
CHOICE, log 10). -/
def decodeMemory (f : Fields) : Decoded Instr := do
  let atomic (k : Hdr → Fmt → MemOp → SSrc → Mmc → BitVec 4 → Instr) (must : Bool) : Decoded Instr := do
    let h ← f.cond
    let ty ← f.typ Fmt.isInt; let m ← f.mem; let c ← SSrc.ofCode f.c; let o ← Mmc.read Mmc.atomic f.dst
    need (!must || tagged f.al) .noTag
    need (f.al == 0 || c.isReg) .operandCode
    .ok (k h ty m c o f.al)
  let row (k : Hdr → Fmt → SSrc → BitVec 16 → Bool → VSrc → StDst → BitVec 4 → Instr) : Decoded Instr := do
    let h ← f.mask
    need (f.i == 1) .unusedField
    let ty ← f.typ (fun t => t == .bf16 || t == .f32)
    let a ← SSrc.ofCode f.a; let pair ← flagOf f.b; let c ← VSrc.ofCode f.c; let o ← StDst.read Mmc.atomic f.dst
    need (rowRegWf c pair f.al) .operandCode
    .ok (k h ty a f.imm pair c o f.al)
  let level (k : Hdr → MemOp → Bool → Instr) : Decoded Instr := do
    let h ← f.cond; f.unused [.c, .ty, .al]
    .ok (k h (← f.mem) (← flagOf f.dst))
  match f.op.toNat with
  | 0x00 => do
    let h ← f.cond
    let ty ← f.typ Fmt.isArith; let d ← SDst.ofCode f.dst; let (m, o) ← f.loadMem
    .ok (.ldg h ty d m o (← f.tag))
  | 0x01 => do
    let h ← f.cond; f.unused [.al]
    .ok (.stg h (← f.typ Fmt.isArith) (← f.mem) (← SSrc.ofCode f.c) (← StDst.read Mmc.store f.dst))
  | 0x02 => do
    let h ← f.mask
    let ty ← f.typ Fmt.isAny; let d ← VDst.ofCode f.dst; let (m, o) ← f.loadMem
    .ok (.vldg h ty d m o (← f.tag))
  | 0x03 => do
    let h ← f.mask; f.unused [.al]
    .ok (.vstg h (← f.typ Fmt.isAny) (← f.mem) (← VSrc.ofCode f.c) (← StDst.read Mmc.store f.dst))
  | 0x04 => level .prefg
  | 0x05 => do
    let h ← f.cond
    let ty ← f.typ (fun t => t.isInt || t == .bf16 || t == .f32)
    let m ← f.mem; let c ← SSrc.ofCode f.c; let o ← StDst.read Mmc.atomic f.dst
    need (f.al == 0 || c.isReg) .operandCode
    .ok (.aadd h ty m c o f.al)
  | 0x06 => atomic .amin false
  | 0x07 => atomic .amax false
  | 0x08 => atomic .aand false
  | 0x09 => atomic .aor false
  | 0x0A => atomic .axor false
  | 0x0B => atomic .axchg true
  | 0x0C => do
    let h ← f.cond
    .ok (.acas h (← f.typ Fmt.isInt) (← below 64 f.dst.toNat .operandCode) (← f.mem) (← SSrc.ofCode f.c) (← f.tag))
  | 0x0D => do
    let h ← f.cond; f.unused [.imm]
    .ok (.adcas h (← f.typ (fun t => t == .i64 || t == .n64)) (← evenReg f.dst) (← SSrc.ofCode f.a) (← SSrc.ofCode f.b)
      (← evenReg f.c) (← f.tag))
  | 0x0E => do
    let h ← f.cond; f.unused [.c, .imm]
    .ok (.amove h (← f.typ Fmt.isInt) (← SDst.ofCode f.dst) (← SSrc.ofCode f.a) (← SSrc.ofCode f.b) (← f.tag))
  | 0x0F => row .aradd
  | 0x10 => row .armax
  | 0x11 => do
    let h ← f.cond; f.unused [.b, .imm, .al]
    .ok (.pbegin h (← fileReg 112 4 f.dst) (← NSrc.ofCode f.a) (← PKind.ofCode f.c f.ty))
  | 0x12 => do
    let h ← f.cond; f.unused [.imm, .al]
    .ok (.ppair h (← fileReg 112 4 f.dst) (← NSrc.ofCode f.a) (← NSrc.ofCode f.b) (← PKind.ofCode f.c f.ty))
  | 0x13 => do
    let h ← f.cond; f.unused [.b, .c, .ty, .imm, .al]
    .ok (.pjoin h (← fileReg 112 4 f.dst) (← NSrc.ofCode f.a))
  | 0x14 => do let h ← f.cond; f.unused [.dst, .b, .c, .ty, .imm, .al]; .ok (.pseal h (← PSrc.ofCode f.a))
  | 0x15 => do let h ← f.cond; f.unused [.dst, .b, .c, .ty, .imm, .al]; .ok (.pabort h (← PSrc.ofCode f.a))
  | 0x16 => do
    let h ← f.cond; f.unused [.dst, .ty, .imm, .al]
    .ok (.psquash h (← NSrc.ofCode f.a) (← NSrc.ofCode f.b) (← flagOf f.c))
  | 0x17 => do
    let h ← f.cond; f.unused [.b, .c, .ty, .imm, .al]
    .ok (.pinv h (← fileReg 96 16 f.dst) (← NSrc.ofCode f.a))
  | 0x18 => do
    let h ← f.cond; f.unused [.dst, .c, .ty, .imm, .al]
    .ok (.pcomm h (← NSrc.ofCode f.a) (← NSrc.ofCode f.b))
  | 0x19 => do
    let h ← f.cond; f.unused [.ty, .i, .al]
    need (f.imm.toNat < 2) .unusedField
    .ok (.pxpl h (← fileReg 96 16 f.dst) (← NSrc.ofCode f.a) (← NSrc.ofCode f.b) (← SSrc.ofCode f.c) (f.imm == 1))
  | 0x1A => do let h ← f.cond; f.unused [.dst, .b, .c, .ty, .imm, .al]; .ok (.pdrop h (← NSrc.ofCode f.a))
  | 0x1B => do
    let h ← f.cond; f.unused [.b, .c, .ty, .imm]
    .ok (.pquery h (← SDst.ofCode f.dst) (← NSrc.ofCode f.a) (← f.tag))
  | 0x1C => do
    let h ← f.cond; f.unused [.b, .ty, .imm, .al]
    .ok (.nnew h (← fileReg 96 16 f.dst) (← decodeNnew f))
  | 0x1D => do let h ← f.cond; f.unused [.dst, .b, .c, .ty, .imm, .al]; .ok (.ndest h (← NSrc.ofCode f.a))
  | 0x1E => do
    let h ← f.cond; f.unused [.b, .c, .ty, .imm]
    .ok (.nres h (← fileReg 96 16 f.dst) (← NSrc.ofCode f.a) (← f.tag))
  | 0x1F => do
    let h ← f.cond; f.unused [.ty, .imm]
    .ok (.ncas h (← fileReg 80 8 f.dst) (← NSrc.ofCode f.a) (← NSrc.ofCode f.b) (← NSrc.ofCode f.c) (← f.tag))
  | 0x20 => do let h ← f.cond; f.unused [.al]; .ok (.nmov h (← decodeNmov f))
  | 0x21 => do
    let h ← f.cond; f.unused [.c, .ty, .imm, .al]
    .ok (.ncmp h (← fileReg 80 8 f.dst) (← NSrc.ofCode f.a) (← NSrc.ofCode f.b))
  | 0x22 => do
    let h ← f.cond; f.unused [.c, .ty]
    .ok (.cpin h (← SDst.ofCode f.dst) (← f.mem) (← f.tag))
  | 0x23 => do let h ← f.cond; f.unused [.dst, .c, .ty, .al]; .ok (.cunpin h (← f.mem))
  | 0x24 => level .cwb
  | 0x25 => level .cinv
  | _ => .error .unassigned

/-- Flow class (R91, R114, R168, R172 to R178). LOOP with a queue code as sA, which it would read and write with two meanings, is rejected
(DESIGN CHOICE, log 10). -/
def decodeFlow (f : Fields) : Decoded Instr := do
  let bare (k : Hdr → Instr) : Decoded Instr := do
    let h ← f.cond; f.unused [.dst, .a, .b, .c, .ty, .imm, .al]; .ok (k h)
  match f.op.toNat with
  | 0x00 => do let h ← f.cond; f.unused [.dst, .a, .b, .c, .ty, .i, .al]; .ok (.br h f.imm)
  | 0x01 => do
    let h ← f.cond; f.unused [.dst, .i, .al]
    let ty ← f.typ Fmt.isInt; let cc ← Cond.ofCode f.c
    need (cc.wf ty) .modifier
    .ok (.brc h ty (← SSrc.ofCode f.a) (← SSrc.ofCode f.b) cc f.imm)
  | 0x02 => do let h ← f.cond; f.unused [.dst, .b, .c, .ty, .imm, .al]; .ok (.jmpi h (← SSrc.ofCode f.a))
  | 0x03 => do
    let h ← f.cond; f.unused [.a, .b, .c, .ty, .i, .al]
    .ok (.call h (← SDst.ofCode f.dst) f.imm)
  | 0x04 => do let h ← f.cond; f.unused [.dst, .b, .c, .ty, .imm, .al]; .ok (.ret h (← SSrc.ofCode f.a))
  | 0x05 => do
    let h ← f.cond; f.unused [.dst, .b, .c, .ty, .i, .al]
    .ok (.loop h (← below 64 f.a.toNat .operandCode) f.imm)
  | 0x06 => do
    let h ← f.cond; f.unused [.dst, .a, .b, .c, .ty, .i, .al]
    need (f.imm.extractLsb' 5 3 == 0 && f.imm.extractLsb' 11 5 == 0) .unusedField
    .ok (.rotset h (f.imm.extractLsb' 0 5) (f.imm.extractLsb' 8 3))
  | 0x07 => do let h ← f.cond; f.unused [.dst, .a, .b, .c, .ty, .i, .al]; .ok (.trap h f.imm)
  | 0x08 => bare .rett
  | 0x09 => do let h ← f.cond; f.unused [.dst, .a, .b, .c, .ty, .i, .al]; .ok (.swait h (← f.sem))
  | 0x0A => do
    let h ← f.cond; f.unused [.dst, .b, .c, .ty, .i, .al]
    let k ← f.sem
    let a ← if f.a = 0 then .ok none else (SSrc.ofCode f.a).map some
    .ok (.ssig h k a)
  | 0x0B => do
    let h ← f.cond; f.unused [.dst, .b, .c, .ty, .i, .al]
    let k ← f.sem
    .ok (.sset h k (← SSrc.ofCode f.a))
  | 0x0C => do
    let h ← f.cond; f.unused [.a, .b, .c, .ty, .i]
    .ok (.sread h (← SDst.ofCode f.dst) (← f.sem) (← f.tag))
  | 0x0D => do let h ← f.cond; f.unused [.dst, .a, .b, .ty, .imm, .al]; .ok (.bar h (← flagOf f.c))
  | 0x0E => do let h ← f.cond; f.unused [.dst, .c, .ty, .al]; .ok (.comm h (← f.mem))
  | 0x0F => do
    let h ← f.cond; f.unused [.dst, .a, .b, .c, .ty, .i, .al]
    need (f.imm.toNat < 8) .unusedField
    let s : BitVec 3 := f.imm.setWidth 3
    need (s != 0 && s != 7) .modifier
    .ok (.fence h s)
  | 0x10 => do let h ← f.cond; f.unused [.dst, .c, .ty, .al]; .ok (.launch h (← f.mem))
  | 0x11 => bare .yield
  | 0x12 => bare .exit
  | _ => .error .unassigned

/-- Engine class (R92, R163). -/
def decodeEngineClass (f : Fields) : Decoded Instr := do
  match f.op.toNat with
  | 0x00 => do let h ← f.cond; f.unused [.c, .ty, .al]; .ok (.eqpush h (← QCode.ofCode f.dst) (← f.mem))
  | 0x01 => do
    let h ← f.cond; f.unused [.b, .c, .ty, .imm, .al]
    .ok (.eqpushv h (← QCode.ofCode f.dst) (← VSrc.ofCode f.a))
  | 0x02 => do
    let h ← f.cond; f.unused [.a, .b, .ty, .imm, .al]
    .ok (.eqstat h (← SDst.ofCode f.dst) (← QCode.ofCode f.c))
  | 0x03 => do
    let h ← f.cond; f.unused [.b, .c, .ty, .imm, .al]
    need (f.dst == 76) .operandCode
    .ok (.fpush h (← SSrc.ofCode f.a))
  | 0x04 => do
    let h ← f.cond; f.unused [.a, .b, .c, .ty, .i]
    .ok (.qpop h (← SDst.ofCode f.dst) (← below 4 f.imm.toNat .modifier) (← f.tag))
  | 0x05 => do
    let h ← f.cond; f.unused [.dst, .b, .c, .ty, .i, .al]
    .ok (.qpush h (← below 4 f.imm.toNat .modifier) (← SSrc.ofCode f.a))
  | 0x06 => do
    let h ← f.cond; f.unused [.a, .b, .c, .ty, .i, .al]
    .ok (.qstat h (← SDst.ofCode f.dst) (← below 9 f.imm.toNat .modifier))
  | 0x07 => do
    let h ← f.cond; f.unused [.a, .b, .ty, .imm, .al]
    .ok (.estat h (← SDst.ofCode f.dst) (← Eng.ofCode f.c))
  | _ => .error .unassigned

/-- System class (R93, R331, R361, R369). -/
def decodeSystem (f : Fields) : Decoded Instr := do
  let bare (k : Hdr → Instr) : Decoded Instr := do
    let h ← f.cond; f.unused [.dst, .a, .b, .c, .ty, .imm, .al]; .ok (k h)
  let bank (k : Hdr → Bool → MemOp → Instr) : Decoded Instr := do
    let h ← f.cond; f.unused [.c, .ty, .al]; .ok (k h (← flagOf f.dst) (← f.mem))
  let nameA (k : Hdr → NSrc → Instr) : Decoded Instr := do
    let h ← f.cond; f.unused [.dst, .b, .c, .ty, .imm, .al]; .ok (k h (← NSrc.ofCode f.a))
  let two (k : Hdr → SSrc → SSrc → Instr) : Decoded Instr := do
    let h ← f.cond; f.unused [.dst, .c, .ty, .imm, .al]; .ok (k h (← SSrc.ofCode f.a) (← SSrc.ofCode f.b))
  match f.op.toNat with
  | 0x00 => do let h ← f.cond; f.unused [.dst, .c, .ty, .al]; .ok (.segld h (← f.mem))
  | 0x01 => do let h ← f.cond; f.unused [.dst, .b, .c, .ty, .imm, .al]; .ok (.seginv h (← SSrc.ofCode f.a))
  | 0x02 => do
    let h ← f.cond; f.unused [.dst, .ty, .imm, .al]
    let a ← SSrc.ofCode f.a; let b ← SSrc.ofCode f.b; let all ← flagOf f.c
    need (!all || b == .s 0) .unusedField
    .ok (.htlbinv h a b all)
  | 0x03 => bare .banksw
  | 0x04 => bank .banksave
  | 0x05 => bank .bankload
  | 0x06 => nameA .ucload
  | 0x07 => do
    let h ← f.cond; f.unused [.dst, .b, .ty, .imm, .al]
    .ok (.quench h (← NSrc.ofCode f.a) (← flagOf f.c))
  | 0x08 => nameA .qresume
  | 0x09 => do
    let h ← f.cond; f.unused [.dst, .c, .ty, .i, .al]
    .ok (.ckpt h (← fileReg 96 16 f.a) (← SSrc.ofCode f.b) (← f.sem))
  | 0x0A => do let h ← f.cond; f.unused [.dst, .b, .c, .ty, .imm, .al]; .ok (.ckres h (← fileReg 96 16 f.a))
  | 0x0B => two .keybind
  | 0x0C => do
    let h ← f.cond; f.unused [.dst, .ty, .imm, .al]
    .ok (.biasflip h (← SSrc.ofCode f.a) (← SSrc.ofCode f.b) (← flagOf f.c))
  | 0x0D => bare .idle
  | 0x0E => bare .halt
  | 0x0F => two .partset
  | _ => .error .unassigned

/-- The items of an XM word (R63). -/
def XmMod.ofWord (w : Word80) : XmMod :=
  { neg := w.extractLsb' 66 3, abs := w.extractLsb' 63 3, sat := w.getLsbD 62, clen := w.getLsbD 61
    clo := w.extractLsb' 54 7, chi := w.extractLsb' 47 7, scen := w.getLsbD 46, k := w.extractLsb' 40 6
    rmen := w.getLsbD 39, rm := w.extractLsb' 37 2, usC := w.extractLsb' 33 4, usD := w.extractLsb' 29 4 }

/-- An XM word (R63): the opcode and the reserved bits are zero. -/
def decodeXm (w : Word80) : Decoded Instr := do
  need (w.extractLsb' 69 8 == 0) .unassigned
  need (w.extractLsb' 16 13 == 0 && w.extractLsb' 0 12 == 0) .unusedField
  let x := XmMod.ofWord w
  need x.wf .operandCode
  .ok (.xm (w.extractLsb' 12 4) x)

/-- A control-stream word as an instruction, or why it is none (R66). -/
def decodeWord (w : Word80) : Decoded Instr :=
  let f := Fields.ofWord w
  match f.cls.toNat with
  | 0 => decodeScalar f
  | 1 => decodeVector f
  | 2 => decodeMemory f
  | 3 => decodeFlow f
  | 4 => decodeEngineClass f
  | 5 => decodeXm w
  | 6 => decodeSystem f
  | _ => .error .unassigned

/-- A control-stream word as the step it is: a word that is none takes fault 0x01 (R66). -/
def decode80 (w : Word80) : Instr :=
  match decodeWord w with
  | .ok i => i
  | .error _ => .illegalOpcode w

/-! ## Engine words (R68, R69, R94) -/

/-- The words that every engine has: operation o with argument a (R196 to R198). -/
def decodeCommon (o a : Nat) : Option Instr :=
  let z (i : Instr) : Option Instr := if a = 0 then some i else none
  let q (k : Fin 4 → Instr) : Option Instr := if h : a < 4 then some (k ⟨a, h⟩) else none
  match o with
  | 0x00 => z .nopw
  | 0x01 => z .dup
  | 0x02 => z .drop
  | 0x03 => z .swap
  | 0x04 => z .over
  | 0x05 => q .popq
  | 0x06 => q .pushb
  | 0x07 => z .callw
  | 0x08 => z .retw
  | 0x09 => some (.waitk (BitVec.ofNat 8 a))
  | 0x0A => some (.sigk (BitVec.ofNat 8 a))
  | _ => none

/-- The Anvil's own words. -/
def decodeAnvil (o a : Nat) : Option Instr :=
  let z (i : Instr) : Option Instr := if a = 0 then some i else none
  let q (k : Fin 4 → Instr) : Option Instr := if h : a < 4 then some (k ⟨a, h⟩) else none
  match o with
  | 0x0C => if h : a < 6 then some (.setl ⟨a, h⟩) else none
  | 0x0D => if h : a < 8 then some (.setb ⟨a, h⟩) else none
  | 0x0E => z .lstat
  | 0x0F => z .swapp
  | 0x10 => q .zacc
  | 0x11 => q .go
  | 0x12 => q .drain
  | 0x13 => q .amaxc
  | 0x14 => q .layer
  | _ => none

/-- The copy engine's own words. -/
def decodeCopy (o a : Nat) : Option Instr :=
  let z (i : Instr) : Option Instr := if a = 0 then some i else none
  let sl (k : Fin 16 → Instr) : Option Instr := if h : a < 16 then some (k ⟨a, h⟩) else none
  match o with
  | 0x0C => sl .tload
  | 0x0D => sl .tstore
  | 0x0E => z .tpad
  | 0x0F => z .lcopy
  | 0x10 => z .sload
  | 0x11 => z .sstore
  | 0x12 => z .tree
  | 0x13 => sl .tpair
  | 0x14 => sl .egath
  | 0x15 => sl .txpose
  | _ => none

/-- The collective engine's own words. -/
def decodeColl (o a : Nat) : Option Instr :=
  let z (i : Instr) : Option Instr := if a = 0 then some i else none
  match o with
  | 0x0C => z .cslot
  | 0x0D => z .cput
  | 0x0E => if h : a < 4 then some (.cred ⟨a, h⟩) else none
  | 0x0F => z .cbcast
  | 0x10 => some (.csig (BitVec.ofNat 8 a))
  | _ => none

/-- An engine word, or none where it is no word of that engine (fault 0x0D). -/
def decodeEngWord (e : Eng) (w : EngWord) : Option Instr :=
  let n := w.toNat
  if n ≥ 0x8000 then some (.lit (w.setWidth 15))
  else if n ≥ 0x4000 then some (.ext (w.setWidth 14))
  else if n = 0 then some .endw
  else if n < 0x2000 then none
  else
    let o := (n - 0x2000) / 256
    let a := n % 256
    if o < 0x0C then decodeCommon o a
    else match e with
      | .anvil => decodeAnvil o a
      | .copy => decodeCopy o a
      | .coll => decodeColl o a

/-- An engine word as the step it is (R68). -/
def decode16 (e : Eng) (w : EngWord) : Instr := (decodeEngWord e w).getD (.engineIllegalWord w)

/-! ## Micro-operations (R232) -/

/-- A micro-operation, or none where it raises fault 0x0D. -/
def decodeMicro (w : MicroWord) : Option Instr :=
  let a := (w.extractLsb' 56 4).toNat
  let v := (w.extractLsb' 0 48 : BitVec 48)
  let z (i : Instr) : Option Instr := if a = 0 ∧ v = 0 then some i else none
  let q (k : Fin 4 → Instr) : Option Instr := if h : a < 4 then (if v = 0 then some (k ⟨a, h⟩) else none) else none
  if w.extractLsb' 48 8 ≠ (0 : BitVec 8) then none
  else match (w.extractLsb' 60 4).toNat with
    | 0x0 => z .uend
    | 0x1 => if h : a < 6 then some (.usetl ⟨a, h⟩ (v.extractLsb' 32 16) (v.extractLsb' 0 32)) else none
    | 0x2 => if h : a < 8 then some (.usetb ⟨a, h⟩ v) else none
    | 0x3 => if h : a < 8 then some (.uaddb ⟨a, h⟩ v) else none
    | 0x4 => z .ulstat
    | 0x5 => z .uswapp
    | 0x6 => q .uzacc
    | 0x7 => q .ugo
    | 0x8 => q .udrain
    | 0x9 => q .uamaxc
    | 0xA => if h : a < 4 then
        (if v.extractLsb' 16 32 = (0 : BitVec 32) then some (.usetlc ⟨a, h⟩ (v.extractLsb' 0 16)) else none) else none
    | 0xB => if h : a < 4 then
        (if v.extractLsb' 12 36 = (0 : BitVec 36) then some (.uloop ⟨a, h⟩ (v.extractLsb' 0 12)) else none) else none
    | 0xC => z .ustripe
    | _ => none

/-- The instruction the decoder reads from an instruction of `nbits` bits: a control-stream word of 80 bits, an engine
word of 16, a micro-operation of 64. A 16-bit word does not name its engine: the Anvil's table is read first, then the
copy engine's, then the collective engine's (log 11). -/
def decodeTableWord (nbits w : Nat) : Option Instr :=
  if nbits = 80 then (decodeWord (BitVec.ofNat 80 w)).toOption
  else if nbits = 64 then decodeMicro (BitVec.ofNat 64 w)
  else if nbits = 16 then
    match decodeEngWord .anvil (BitVec.ofNat 16 w) with
    | some i => some i
    | none =>
      match decodeEngWord .copy (BitVec.ofNat 16 w) with
      | some i => some i
      | none => decodeEngWord .coll (BitVec.ofNat 16 w)
  else none

/-! ## The encoder -/

/-- A word of a class and opcode with its header and every other field zero. -/
def Fields.base (cls : BitVec 3) (op : BitVec 8) (h : Hdr) : Fields :=
  { cls := cls, op := op, guard := h.guard, dst := 0, a := 0, b := 0, c := 0, ty := 0, imm := 0, i := 0, pd := h.pd
    al := 0, usA := h.usA, usB := h.usB }

/-- B# of a scalar word. -/
def Fields.putB (f : Fields) : SrcB → Fields
  | .reg r => { f with b := r.code }
  | .imm v => { f with imm := v, i := 1 }

/-- B# of a vector word. -/
def Fields.putVB (f : Fields) : VSrcB → Fields
  | .reg r => { f with b := r.code }
  | .imm v => { f with imm := v, i := 1 }

/-- The memory operand. -/
def Fields.putMem (f : Fields) : MemOp → Fields
  | .off a o => { f with a := a.code, imm := o, i := 1 }
  | .idx a b k => { f with a := a.code, b := b.code, imm := BitVec.ofNat 16 k.val }

/-- The reading modifier of a load. -/
def Fields.putLd (f : Fields) : LdMod → Fields
  | .mmc o => { f with c := o.code }
  | .asof n => { f with b := 116, c := n.code }

/-- A format code in srcc. -/
def Fmt.codeC (t : Fmt) : BitVec 7 := t.code.setWidth 7

/-- The fields of a control-stream instruction; none where it has no encoding of this kind. -/
def encodeFields : Instr → Option Fields
  | .nop h => some (.base 0 0x00 h)
  | .add h ty d a b => some (({ Fields.base 0 0x01 h with dst := d.code, a := a.code, ty := ty.code }).putB b)
  | .sub h ty d a b => some (({ Fields.base 0 0x02 h with dst := d.code, a := a.code, ty := ty.code }).putB b)
  | .mul h ty d a b => some (({ Fields.base 0 0x03 h with dst := d.code, a := a.code, ty := ty.code }).putB b)
  | .mulh h ty d a b => some (({ Fields.base 0 0x04 h with dst := d.code, a := a.code, ty := ty.code }).putB b)
  | .div h ty d a b => some (({ Fields.base 0 0x05 h with dst := d.code, a := a.code, ty := ty.code }).putB b)
  | .rem h ty d a b => some (({ Fields.base 0 0x06 h with dst := d.code, a := a.code, ty := ty.code }).putB b)
  | .min h ty d a b => some (({ Fields.base 0 0x07 h with dst := d.code, a := a.code, ty := ty.code }).putB b)
  | .max h ty d a b => some (({ Fields.base 0 0x08 h with dst := d.code, a := a.code, ty := ty.code }).putB b)
  | .and h d a b => some (({ Fields.base 0 0x09 h with dst := d.code, a := a.code }).putB b)
  | .or h d a b => some (({ Fields.base 0 0x0A h with dst := d.code, a := a.code }).putB b)
  | .xor h d a b => some (({ Fields.base 0 0x0B h with dst := d.code, a := a.code }).putB b)
  | .andn h d a b => some (({ Fields.base 0 0x0C h with dst := d.code, a := a.code }).putB b)
  | .shl h d a b => some (({ Fields.base 0 0x0D h with dst := d.code, a := a.code }).putB b)
  | .shr h d a b => some (({ Fields.base 0 0x0E h with dst := d.code, a := a.code }).putB b)
  | .sar h d a b => some (({ Fields.base 0 0x0F h with dst := d.code, a := a.code }).putB b)
  | .rot h d a b => some (({ Fields.base 0 0x10 h with dst := d.code, a := a.code }).putB b)
  | .clz h d a => some { Fields.base 0 0x11 h with dst := d.code, a := a.code }
  | .popc h d a => some { Fields.base 0 0x12 h with dst := d.code, a := a.code }
  | .sel h d a b c => some { Fields.base 0 0x13 h with dst := d.code, a := a.code, b := b.code, c := c.code }
  | .cmp h ty d a b k =>
    some (({ Fields.base 0 0x14 h with dst := regCode 80 d, a := a.code, ty := ty.code, c := k.code }).putB b)
  | .movi h d a v sh =>
    some { Fields.base 0 0x15 h with dst := d.code, a := a.code, c := BitVec.ofNat 7 sh.val, imm := v, i := 1 }
  | .lea h d m => some (({ Fields.base 0 0x16 h with dst := d.code }).putMem m)
  | .ld h ty d m al => some (({ Fields.base 0 0x17 h with dst := d.code, ty := ty.code, al := al }).putMem m)
  | .st h ty m c => some (({ Fields.base 0 0x18 h with c := c.code, ty := ty.code }).putMem m)
  | .csrr h d n => some { Fields.base 0 0x19 h with dst := d.code, imm := n }
  | .csrw h n a => some { Fields.base 0 0x1A h with a := a.code, imm := n }
  | .cand h d a b => some { Fields.base 0 0x1B h with dst := regCode 80 d, a := a.code, b := b.code }
  | .cor h d a b => some { Fields.base 0 0x1C h with dst := regCode 80 d, a := a.code, b := b.code }
  | .cxor h d a b => some { Fields.base 0 0x1D h with dst := regCode 80 d, a := a.code, b := b.code }
  | .fadd h ty d a b => some (({ Fields.base 0 0x1E h with dst := d.code, a := a.code, ty := ty.code }).putB b)
  | .fmul h ty d a b => some (({ Fields.base 0 0x1F h with dst := d.code, a := a.code, ty := ty.code }).putB b)
  | .ffma h ty d a b c =>
    some { Fields.base 0 0x20 h with dst := d.code, a := a.code, b := b.code, c := c.code, ty := ty.code }
  | .fcvt h ty src d a => some { Fields.base 0 0x21 h with dst := d.code, a := a.code, c := src.codeC, ty := ty.code }
  | .fcmp h ty d a b k =>
    some (({ Fields.base 0 0x22 h with dst := regCode 80 d, a := a.code, ty := ty.code, c := k.code }).putB b)
  | .fmin h ty d a b => some (({ Fields.base 0 0x23 h with dst := d.code, a := a.code, ty := ty.code }).putB b)
  | .fmax h ty d a b => some (({ Fields.base 0 0x24 h with dst := d.code, a := a.code, ty := ty.code }).putB b)
  | .ftolog h ty src d a b =>
    some { Fields.base 0 0x25 h with dst := d.code, a := a.code, b := b.code, c := src.codeC, ty := ty.code }
  | .ffromlog h ty src d a b =>
    some { Fields.base 0 0x26 h with dst := d.code, a := a.code, b := b.code, c := src.codeC, ty := ty.code }
  | .vadd h ty d a b => some (({ Fields.base 1 0x00 h with dst := d.code, a := a.code, ty := ty.code }).putVB b)
  | .vsub h ty d a b => some (({ Fields.base 1 0x01 h with dst := d.code, a := a.code, ty := ty.code }).putVB b)
  | .vmul h ty d a b => some (({ Fields.base 1 0x02 h with dst := d.code, a := a.code, ty := ty.code }).putVB b)
  | .vfma h ty d a b c =>
    some { Fields.base 1 0x03 h with dst := d.code, a := a.code, b := b.code, c := c.code, ty := ty.code }
  | .vmin h ty d a b => some (({ Fields.base 1 0x04 h with dst := d.code, a := a.code, ty := ty.code }).putVB b)
  | .vmax h ty d a b => some (({ Fields.base 1 0x05 h with dst := d.code, a := a.code, ty := ty.code }).putVB b)
  | .vrcp h ty d a => some { Fields.base 1 0x06 h with dst := d.code, a := a.code, ty := ty.code }
  | .vrsq h ty d a => some { Fields.base 1 0x07 h with dst := d.code, a := a.code, ty := ty.code }
  | .vexp2 h ty d a => some { Fields.base 1 0x08 h with dst := d.code, a := a.code, ty := ty.code }
  | .vlog2 h ty d a => some { Fields.base 1 0x09 h with dst := d.code, a := a.code, ty := ty.code }
  | .vand h ty d a b => some (({ Fields.base 1 0x0A h with dst := d.code, a := a.code, ty := ty.code }).putVB b)
  | .vor h ty d a b => some (({ Fields.base 1 0x0B h with dst := d.code, a := a.code, ty := ty.code }).putVB b)
  | .vxor h ty d a b => some (({ Fields.base 1 0x0C h with dst := d.code, a := a.code, ty := ty.code }).putVB b)
  | .vshl h ty d a b => some (({ Fields.base 1 0x0D h with dst := d.code, a := a.code, ty := ty.code }).putVB b)
  | .vshr h ty d a b => some (({ Fields.base 1 0x0E h with dst := d.code, a := a.code, ty := ty.code }).putVB b)
  | .vsar h ty d a b => some (({ Fields.base 1 0x0F h with dst := d.code, a := a.code, ty := ty.code }).putVB b)
  | .vcmp h ty d a b k =>
    some (({ Fields.base 1 0x10 h with dst := regCode 80 d, a := a.code, ty := ty.code, c := k.code }).putVB b)
  | .vsel h ty d a b c =>
    some { Fields.base 1 0x11 h with dst := d.code, a := a.code, b := b.code, c := c.code, ty := ty.code }
  | .vcvt h ty src d a => some { Fields.base 1 0x12 h with dst := d.code, a := a.code, c := src.codeC, ty := ty.code }
  | .vtolog h ty src d a b =>
    some { Fields.base 1 0x13 h with dst := d.code, a := a.code, b := b.code, c := src.codeC, ty := ty.code }
  | .vfromlog h ty src d a b =>
    some { Fields.base 1 0x14 h with dst := d.code, a := a.code, b := b.code, c := src.codeC, ty := ty.code }
  | .vqnt h ty src d a b =>
    some { Fields.base 1 0x15 h with dst := d.code, a := a.code, b := b.code, c := src.codeC, ty := ty.code }
  | .vdqnt h ty src d a b =>
    some { Fields.base 1 0x16 h with dst := d.code, a := a.code, b := b.code, c := src.codeC, ty := ty.code }
  | .vbscale h ty tgt d a =>
    some { Fields.base 1 0x17 h with dst := d.code, a := a.code, c := tgt.codeC, ty := ty.code }
  | .vredadd h ty d a => some { Fields.base 1 0x18 h with dst := d.code, a := a.code, ty := ty.code }
  | .vredmax h ty d a => some { Fields.base 1 0x19 h with dst := d.code, a := a.code, ty := ty.code }
  | .vredmin h ty d a => some { Fields.base 1 0x1A h with dst := d.code, a := a.code, ty := ty.code }
  | .vscan h ty d a op =>
    some { Fields.base 1 0x1B h with dst := d.code, a := a.code, ty := ty.code, c := BitVec.ofNat 7 op.val }
  | .vhist h ty d a b => some (({ Fields.base 1 0x1C h with dst := d.code, a := a.code, ty := ty.code }).putB b)
  | .vcmprs h ty d a => some { Fields.base 1 0x1D h with dst := d.code, a := a.code, ty := ty.code }
  | .vperm h ty d a b => some { Fields.base 1 0x1E h with dst := d.code, a := a.code, b := b.code, ty := ty.code }
  | .vslide h ty d a b dn =>
    some (({ Fields.base 1 0x1F h with dst := d.code, a := a.code, c := flagCode dn, ty := ty.code }).putB b)
  | .vbcast h ty d a => some { Fields.base 1 0x20 h with dst := d.code, a := a.code, ty := ty.code }
  | .vext h ty d a b => some (({ Fields.base 1 0x21 h with dst := d.code, a := a.code, ty := ty.code }).putB b)
  | .vins h ty d a b => some (({ Fields.base 1 0x22 h with dst := regCode 0 d.val, a := a.code, ty := ty.code }).putB b)
  | .viota h ty d a => some { Fields.base 1 0x23 h with dst := d.code, a := a.code, ty := ty.code }
  | .vld h ty d m al => some (({ Fields.base 1 0x24 h with dst := d.code, ty := ty.code, al := al }).putMem m)
  | .vst h ty m c => some (({ Fields.base 1 0x25 h with c := c.code, ty := ty.code }).putMem m)
  | .vgath h ty d a b k al =>
    some { Fields.base 1 0x26 h with dst := d.code, a := a.code, b := b.code, imm := BitVec.ofNat 16 k.val, ty := ty.code,
                                     al := al }
  | .vscat h ty a b k c =>
    some { Fields.base 1 0x27 h with a := a.code, b := b.code, c := c.code, imm := BitVec.ofNat 16 k.val, ty := ty.code }
  | .portcfg h port a => some { Fields.base 1 0x28 h with a := a.code, imm := BitVec.ofNat 16 port.val }
  | .mand h d a b => some { Fields.base 1 0x29 h with dst := regCode 80 d, a := a.code, b := b.code }
  | .mor h d a b => some { Fields.base 1 0x2A h with dst := regCode 80 d, a := a.code, b := b.code }
  | .mxor h d a b => some { Fields.base 1 0x2B h with dst := regCode 80 d, a := a.code, b := b.code }
  | .mnot h d a => some { Fields.base 1 0x2C h with dst := regCode 80 d, a := a.code }
  | .mpop h ty d a => some { Fields.base 1 0x2D h with dst := d.code, a := a.code, ty := ty.code }
  | .mfirst h ty d a => some { Fields.base 1 0x2E h with dst := d.code, a := a.code, ty := ty.code }
  | .vord h ty d a => some { Fields.base 1 0x2F h with dst := d.code, a := a.code, ty := ty.code }
  | .ldg h ty d m o al =>
    some ((({ Fields.base 2 0x00 h with dst := d.code, ty := ty.code, al := al }).putMem m).putLd o)
  | .stg h ty m c o => some (({ Fields.base 2 0x01 h with dst := o.code, c := c.code, ty := ty.code }).putMem m)
  | .vldg h ty d m o al =>
    some ((({ Fields.base 2 0x02 h with dst := d.code, ty := ty.code, al := al }).putMem m).putLd o)
  | .vstg h ty m c o => some (({ Fields.base 2 0x03 h with dst := o.code, c := c.code, ty := ty.code }).putMem m)
  | .prefg h m l2 => some (({ Fields.base 2 0x04 h with dst := flagCode l2 }).putMem m)
  | .aadd h ty m c o al =>
    some (({ Fields.base 2 0x05 h with dst := o.code, c := c.code, ty := ty.code, al := al }).putMem m)
  | .amin h ty m c o al =>
    some (({ Fields.base 2 0x06 h with dst := o.code, c := c.code, ty := ty.code, al := al }).putMem m)
  | .amax h ty m c o al =>
    some (({ Fields.base 2 0x07 h with dst := o.code, c := c.code, ty := ty.code, al := al }).putMem m)
  | .aand h ty m c o al =>
    some (({ Fields.base 2 0x08 h with dst := o.code, c := c.code, ty := ty.code, al := al }).putMem m)
  | .aor h ty m c o al =>
    some (({ Fields.base 2 0x09 h with dst := o.code, c := c.code, ty := ty.code, al := al }).putMem m)
  | .axor h ty m c o al =>
    some (({ Fields.base 2 0x0A h with dst := o.code, c := c.code, ty := ty.code, al := al }).putMem m)
  | .axchg h ty m c o al =>
    some (({ Fields.base 2 0x0B h with dst := o.code, c := c.code, ty := ty.code, al := al }).putMem m)
  | .acas h ty d m c al =>
    some (({ Fields.base 2 0x0C h with dst := regCode 0 d, c := c.code, ty := ty.code, al := al }).putMem m)
  | .adcas h ty d a b c al =>
    some { Fields.base 2 0x0D h with dst := evenCode d, a := a.code, b := b.code, c := evenCode c, ty := ty.code, al := al }
  | .amove h ty d a b al =>
    some { Fields.base 2 0x0E h with dst := d.code, a := a.code, b := b.code, ty := ty.code, al := al }
  | .aradd h ty a off pair c o al =>
    some { Fields.base 2 0x0F h with dst := o.code, a := a.code, b := flagCode pair, c := c.code, ty := ty.code, imm := off,
                                     i := 1, al := al }
  | .armax h ty a off pair c o al =>
    some { Fields.base 2 0x10 h with dst := o.code, a := a.code, b := flagCode pair, c := c.code, ty := ty.code, imm := off,
                                     i := 1, al := al }
  | .pbegin h d a k => some { Fields.base 2 0x11 h with dst := regCode 112 d, a := a.code, c := k.code, ty := k.ty }
  | .ppair h d a b k =>
    some { Fields.base 2 0x12 h with dst := regCode 112 d, a := a.code, b := b.code, c := k.code, ty := k.ty }
  | .pjoin h d a => some { Fields.base 2 0x13 h with dst := regCode 112 d, a := a.code }
  | .pseal h a => some { Fields.base 2 0x14 h with a := a.code }
  | .pabort h a => some { Fields.base 2 0x15 h with a := a.code }
  | .psquash h a b x => some { Fields.base 2 0x16 h with a := a.code, b := b.code, c := flagCode x }
  | .pinv h d a => some { Fields.base 2 0x17 h with dst := regCode 96 d, a := a.code }
  | .pcomm h a b => some { Fields.base 2 0x18 h with a := a.code, b := b.code }
  | .pxpl h d a b c mv =>
    some { Fields.base 2 0x19 h with dst := regCode 96 d, a := a.code, b := b.code, c := c.code,
                                     imm := if mv then 1 else 0 }
  | .pdrop h a => some { Fields.base 2 0x1A h with a := a.code }
  | .pquery h d a al => some { Fields.base 2 0x1B h with dst := d.code, a := a.code, al := al }
  | .nnew h d f =>
    some (match f with
      | .tensor a => { Fields.base 2 0x1C h with dst := regCode 96 d, a := a.code, c := 1 }
      | .cellseg a => { Fields.base 2 0x1C h with dst := regCode 96 d, a := a.code, c := 5 }
      | .aliasName a => { Fields.base 2 0x1C h with dst := regCode 96 d, a := a.code, c := 8 })
  | .ndest h a => some { Fields.base 2 0x1D h with a := a.code }
  | .nres h d a al => some { Fields.base 2 0x1E h with dst := regCode 96 d, a := a.code, al := al }
  | .ncas h d a b c al =>
    some { Fields.base 2 0x1F h with dst := regCode 80 d, a := a.code, b := b.code, c := c.code, al := al }
  | .nmov h f =>
    some (match f with
      | .nn d a => { Fields.base 2 0x20 h with dst := regCode 96 d, a := a.code }
      | .np d a => { Fields.base 2 0x20 h with dst := regCode 96 d, a := a.code }
      | .ns d a => { Fields.base 2 0x20 h with dst := regCode 96 d, a := evenCode a }
      | .sn d a => { Fields.base 2 0x20 h with dst := evenCode d, a := a.code }
      | .ld d m o => ({ Fields.base 2 0x20 h with dst := regCode 96 d, c := o.code, ty := 1 }).putMem m
      | .st m c o => ({ Fields.base 2 0x20 h with dst := o.code, c := c.code, ty := 2 }).putMem m
      | .h slot a => { Fields.base 2 0x20 h with dst := regCode 0 slot, a := a.code, ty := 3 })
  | .ncmp h d a b => some { Fields.base 2 0x21 h with dst := regCode 80 d, a := a.code, b := b.code }
  | .cpin h d m al => some (({ Fields.base 2 0x22 h with dst := d.code, al := al }).putMem m)
  | .cunpin h m => some ((Fields.base 2 0x23 h).putMem m)
  | .cwb h m l2 => some (({ Fields.base 2 0x24 h with dst := flagCode l2 }).putMem m)
  | .cinv h m l2 => some (({ Fields.base 2 0x25 h with dst := flagCode l2 }).putMem m)
  | .br h off => some { Fields.base 3 0x00 h with imm := off }
  | .brc h ty a b k off =>
    some { Fields.base 3 0x01 h with a := a.code, b := b.code, c := k.code, ty := ty.code, imm := off }
  | .jmpi h a => some { Fields.base 3 0x02 h with a := a.code }
  | .call h d off => some { Fields.base 3 0x03 h with dst := d.code, imm := off }
  | .ret h a => some { Fields.base 3 0x04 h with a := a.code }
  | .loop h a off => some { Fields.base 3 0x05 h with a := regCode 0 a, imm := off }
  | .rotset h v m => some { Fields.base 3 0x06 h with imm := (0 : BitVec 5) ++ m ++ (0 : BitVec 3) ++ v }
  | .trap h code => some { Fields.base 3 0x07 h with imm := code }
  | .rett h => some (.base 3 0x08 h)
  | .swait h k => some { Fields.base 3 0x09 h with imm := k.setWidth 16 }
  | .ssig h k a =>
    some { Fields.base 3 0x0A h with imm := k.setWidth 16, a := match a with | none => 0 | some r => r.code }
  | .sset h k a => some { Fields.base 3 0x0B h with imm := k.setWidth 16, a := a.code }
  | .sread h d k al => some { Fields.base 3 0x0C h with dst := d.code, imm := k.setWidth 16, al := al }
  | .bar h stage => some { Fields.base 3 0x0D h with c := flagCode stage }
  | .comm h m => some ((Fields.base 3 0x0E h).putMem m)
  | .fence h scope => some { Fields.base 3 0x0F h with imm := scope.setWidth 16 }
  | .launch h m => some ((Fields.base 3 0x10 h).putMem m)
  | .yield h => some (.base 3 0x11 h)
  | .exit h => some (.base 3 0x12 h)
  | .eqpush h q m => some (({ Fields.base 4 0x00 h with dst := q.code }).putMem m)
  | .eqpushv h q a => some { Fields.base 4 0x01 h with dst := q.code, a := a.code }
  | .eqstat h d q => some { Fields.base 4 0x02 h with dst := d.code, c := q.code }
  | .fpush h a => some { Fields.base 4 0x03 h with dst := 76, a := a.code }
  | .qpop h d q al => some { Fields.base 4 0x04 h with dst := d.code, imm := BitVec.ofNat 16 q.val, al := al }
  | .qpush h q a => some { Fields.base 4 0x05 h with a := a.code, imm := BitVec.ofNat 16 q.val }
  | .qstat h d q => some { Fields.base 4 0x06 h with dst := d.code, imm := BitVec.ofNat 16 q.val }
  | .estat h d e => some { Fields.base 4 0x07 h with dst := d.code, c := e.code }
  | .segld h m => some ((Fields.base 6 0x00 h).putMem m)
  | .seginv h a => some { Fields.base 6 0x01 h with a := a.code }
  | .htlbinv h a b all => some { Fields.base 6 0x02 h with a := a.code, b := b.code, c := flagCode all }
  | .banksw h => some (.base 6 0x03 h)
  | .banksave h bank m => some (({ Fields.base 6 0x04 h with dst := flagCode bank }).putMem m)
  | .bankload h bank m => some (({ Fields.base 6 0x05 h with dst := flagCode bank }).putMem m)
  | .ucload h a => some { Fields.base 6 0x06 h with a := a.code }
  | .quench h a now => some { Fields.base 6 0x07 h with a := a.code, c := flagCode now }
  | .qresume h a => some { Fields.base 6 0x08 h with a := a.code }
  | .ckpt h a b k => some { Fields.base 6 0x09 h with a := regCode 96 a, b := b.code, imm := k.setWidth 16 }
  | .ckres h a => some { Fields.base 6 0x0A h with a := regCode 96 a }
  | .keybind h a b => some { Fields.base 6 0x0B h with a := a.code, b := b.code }
  | .biasflip h a b dev => some { Fields.base 6 0x0C h with a := a.code, b := b.code, c := flagCode dev }
  | .idle h => some (.base 6 0x0D h)
  | .halt h => some (.base 6 0x0E h)
  | .partset h a b => some { Fields.base 6 0x0F h with a := a.code, b := b.code }
  | _ => none

/-- The word of an XM (R63). -/
def encodeXm (pd : BitVec 4) (x : XmMod) : Word80 :=
  (5 : BitVec 3) ++ (0 : BitVec 8) ++ x.neg ++ x.abs ++ BitVec.ofBool x.sat ++ BitVec.ofBool x.clen ++ x.clo ++ x.chi
    ++ BitVec.ofBool x.scen ++ x.k ++ BitVec.ofBool x.rmen ++ x.rm ++ x.usC ++ x.usD ++ (0 : BitVec 13) ++ pd
    ++ (0 : BitVec 12)

/-- The control-stream word of an instruction. -/
def encode80 : Instr → Option Word80
  | .xm pd x => some (encodeXm pd x)
  | i => (encodeFields i).map Fields.toWord

/-- An operation word (R68). -/
def opWord (o a : Nat) : EngWord := BitVec.ofNat 16 (0x2000 + o * 0x100 + a)

/-- The engine word of an instruction, and the engine that reads it (none: all three). -/
def encode16 : Instr → Option (Option Eng × EngWord)
  | .lit v => some (none, (1 : BitVec 1) ++ v)
  | .ext v => some (none, (1 : BitVec 2) ++ v)
  | .endw => some (none, 0)
  | .nopw => some (none, opWord 0x00 0)
  | .dup => some (none, opWord 0x01 0)
  | .drop => some (none, opWord 0x02 0)
  | .swap => some (none, opWord 0x03 0)
  | .over => some (none, opWord 0x04 0)
  | .popq a => some (none, opWord 0x05 a)
  | .pushb a => some (none, opWord 0x06 a)
  | .callw => some (none, opWord 0x07 0)
  | .retw => some (none, opWord 0x08 0)
  | .waitk k => some (none, opWord 0x09 k.toNat)
  | .sigk k => some (none, opWord 0x0A k.toNat)
  | .setl a => some (some .anvil, opWord 0x0C a)
  | .setb a => some (some .anvil, opWord 0x0D a)
  | .lstat => some (some .anvil, opWord 0x0E 0)
  | .swapp => some (some .anvil, opWord 0x0F 0)
  | .zacc a => some (some .anvil, opWord 0x10 a)
  | .go a => some (some .anvil, opWord 0x11 a)
  | .drain a => some (some .anvil, opWord 0x12 a)
  | .amaxc a => some (some .anvil, opWord 0x13 a)
  | .layer a => some (some .anvil, opWord 0x14 a)
  | .tload s => some (some .copy, opWord 0x0C s)
  | .tstore s => some (some .copy, opWord 0x0D s)
  | .tpad => some (some .copy, opWord 0x0E 0)
  | .lcopy => some (some .copy, opWord 0x0F 0)
  | .sload => some (some .copy, opWord 0x10 0)
  | .sstore => some (some .copy, opWord 0x11 0)
  | .tree => some (some .copy, opWord 0x12 0)
  | .tpair s => some (some .copy, opWord 0x13 s)
  | .egath s => some (some .copy, opWord 0x14 s)
  | .txpose s => some (some .copy, opWord 0x15 s)
  | .cslot => some (some .coll, opWord 0x0C 0)
  | .cput => some (some .coll, opWord 0x0D 0)
  | .cred a => some (some .coll, opWord 0x0E a)
  | .cbcast => some (some .coll, opWord 0x0F 0)
  | .csig k => some (some .coll, opWord 0x10 k.toNat)
  | _ => none

/-- A micro-operation word (R232). -/
def microWord (op a : BitVec 4) (v : BitVec 48) : MicroWord := op ++ a ++ (0 : BitVec 8) ++ v

/-- The micro-operation of an instruction. -/
def encodeMicro : Instr → Option MicroWord
  | .uend => some (microWord 0x0 0 0)
  | .usetl a count stride => some (microWord 0x1 (BitVec.ofNat 4 a.val) (count ++ stride))
  | .usetb a x => some (microWord 0x2 (BitVec.ofNat 4 a.val) x)
  | .uaddb a d => some (microWord 0x3 (BitVec.ofNat 4 a.val) d)
  | .ulstat => some (microWord 0x4 0 0)
  | .uswapp => some (microWord 0x5 0 0)
  | .uzacc a => some (microWord 0x6 (BitVec.ofNat 4 a.val) 0)
  | .ugo a => some (microWord 0x7 (BitVec.ofNat 4 a.val) 0)
  | .udrain a => some (microWord 0x8 (BitVec.ofNat 4 a.val) 0)
  | .uamaxc a => some (microWord 0x9 (BitVec.ofNat 4 a.val) 0)
  | .usetlc a n => some (microWord 0xA (BitVec.ofNat 4 a.val) ((0 : BitVec 32) ++ n))
  | .uloop a target => some (microWord 0xB (BitVec.ofNat 4 a.val) ((0 : BitVec 36) ++ target))
  | .ustripe => some (microWord 0xC 0 0)
  | _ => none

/-- The words of a well-formed instruction as one number, with its length in bits: 80 for a control-stream word, 16 for
an engine word, 64 for a micro-operation; none for a step that no word encodes. -/
def encode (i : Instr) : Option (Nat × Nat) :=
  if !WellFormed i then none
  else match encode80 i with
    | some w => some (80, w.toNat)
    | none =>
      match encode16 i with
      | some (_, w) => some (16, w.toNat)
      | none => (encodeMicro i).map (fun w => (64, w.toNat))

end Sys2Proof
end

