-- ==== Sys2Proof/Config.lean ====
section
/-!
DEFINITION. What the manual fuses into a module or leaves open: constants and free values, each without a body, so
that nothing can be proved of their value. A free value that must differ each time is applied to the counter
`State.free`, which every use advances.
-/
namespace Sys2Proof

/-- Which of several steps that are due in one cycle is served next (R148, R161, R278, R390 leave the order open).
Applied to the free-value counter. Log 1. -/
opaque Config.choice : Nat → Nat
/-- How many cycles above its stated minimum a latency takes (R297, R276, R245, R391 state minima only). Log 1. -/
opaque Config.delay : Nat → Nat
/-- A sector or byte the manual lets be old or new, as one bit each. Log 1. -/
opaque Config.coin : Nat → Bool
/-- A value the manual says exists but does not state. Log 6. -/
opaque Config.freeWord : Nat → BitVec 64

/-- The fused identity of this module (R238). -/
opaque Config.ident : BitVec 32
/-- The fused feature mask of a die (R349), bits 14:8 and 4:0. -/
opaque Config.featmask : Nat → BitVec 64
/-- This module's number in its system (R242). -/
opaque Config.moduleNumber : BitVec 12

/-- SHA3-512 over a byte string; the manual names the algorithm and does not define it (R354, R385). Log 7. -/
opaque Config.sha3_512 : List Byte → BitVec 512
/-- Whether an ML-DSA-87 signature over a digest verifies under the device's keys (R354, R371). Log 7. -/
opaque Config.mlDsaVerify : BitVec 512 → List Byte → Bool
/-- Whether a loaded key policy admits the values of measurement registers 1, 2, 4 and 5 (R386). Log 7. -/
opaque Config.policyAdmits : BitVec 512 → List (BitVec 512) → Bool
/-- What cold boot and bring-up measure: the digests that registers 1, 2, 4 and 5 are extended with (R385). Log 7. -/
opaque Config.bootDigest : Nat → BitVec 512
/-- Whether the host's root port reports AtomicOp completer support (R302). -/
opaque Config.rootPortAtomicOps : Bool
/-- The die whose home slice keeps a name in its table: the manual hashes names without giving the hash (R245). Log 1. -/
opaque Config.nameHomeDie : Nat → Nat
/-- The manual gives no interpretation of where two tensors overlap: which of them answers (R293). Log 8. -/
opaque Config.overlapPick : Nat → Nat

/-- The module at the other end of an Evnov link. Log 9. -/
opaque Config.linkPeer : Nat → BitVec 12
/-- The hops between a die of one module and a die of another, as R286 counts them: the manual gives the Evnov link no time. Log 9. -/
opaque Config.evnovHops : Nat → Nat → Nat
/-- How the records of a job on the other modules stand when QRESUME asks: 0 as here, 1 otherwise, 2 lossy or aborted (R368). Log 9. -/
opaque Config.peerRecords : Nat → Fin 3
/-- Whether and when the other modules' cores of a gang have arrived where this module's have: so many cycles after them, with their largest
pts, or never (R172, R174). Log 9. -/
opaque Config.peersArrive : Nat → Option (Nat × BitVec 16)
/-- Whether the other modules of a job can place their gangs again (R368). Log 9. -/
opaque Config.peersFit : Nat → Bool

/-- The lane index converted to a half-step type, for which the manual states no conversion (R53, R41). Log 6. -/
opaque Config.laneHalfStep : Nat → BitVec 8

end Sys2Proof
end

