-- ==== Sys2Proof/Machine/State.lean ====
section
/-!
DEFINITION. The state of one Ballek B32 module as plain data: every core with its two context banks, engines and
caches, every L2 slice, the device memory, names, patches, jobs, links and services; and the state right after reset.
-/
namespace Sys2Proof.Machine

/-- Why a step may stop the model. The machine itself never stops: every fault of R332 is taken as a trap. -/
inductive Fault where
  /-- Raised by `step` when the focused agent names a core above 2047, which does not exist (R8, R11). Safe: the
  hardware has no such agent. -/
  | noSuchCore (core : Nat)
  deriving DecidableEq, Repr

/-- Why a step has no meaning in the model. -/
inductive Refusal where
  /-- Raised by an arm of `exec` whose instruction has no meaning yet. Safe. -/
  | notModelled (mnemonic : String)
  deriving DecidableEq, Repr

/-! ## Registers and results in flight -/

/-- A physical register, as exposed windows and tags see it (R59, R62, R100). -/
inductive Reg where
  | s (r : Fin 64) | v (r : Fin 64) | m (r : Fin 16) | c (r : Fin 8) | n (r : Fin 16) | p (r : Fin 4)
  deriving DecidableEq, Repr

/-- Where a result goes: a register, a queue register that it is pushed to (R54), or a handle slot (R251). -/
inductive RDst where
  | reg (r : Reg) | aq (q : Fin 4) | handle (h : Fin 16)
  deriving DecidableEq, Repr

/-- What the status words and CSRR sample at the end of the cycle after issue (R108, R165, R169). -/
inductive Sample where
  | csr (n : BitVec 16) | eqstat (q : QCode) | qstat (q : Fin 9) | estat (e : Eng) | sem (k : BitVec 8)
  deriving DecidableEq, Repr

/-- A result: a scalar, vector or mask bits with the bits that are written, a condition, a name, a patch register's
content, or a sample to be taken when it is due. -/
inductive RVal where
  | word (w : Word) | vec (w bits : VecWord) | mask (w bits : MaskWord) | cond (b : Bool) | name (n : Name)
  | patchReg (n : Option Name) | sample (x : Sample)
  deriving DecidableEq, Repr

/-- A result on its way (R59): written at the end of cycle `due`, its flags merged then (R48). `interlock` marks a
register that readers wait for (R87); `tag` names the scoreboard tag it lands under, 0 for none (R167, R169). -/
structure PendWrite where
  dst : Option RDst
  val : RVal
  due : Nat
  flags : BitVec 8
  pc : BitVec 15
  vecUnit : Bool
  interlock : Bool
  tag : BitVec 4
  deriving DecidableEq, Repr

/-- A pending scoreboard tag (R62): the registers it will write, and the value once it is known. -/
structure TagRec where
  tag : BitVec 4
  dst : List RDst
  fmt : Fmt
  bits : VecWord
  bits2 : VecWord
  data : List (Nat × Byte)
  vals : List RVal
  ready : Bool
  issued : Nat
  minLat : Nat
  flags : BitVec 8
  failed : Bool
  deriving DecidableEq, Repr

/-- A held imprecise trap (R124). -/
structure ImpTrap where
  code : BitVec 8
  src : BitVec 4
  taddr : Word
  detail : BitVec 16
  mpc : BitVec 12
  aflags : BitVec 8
  name0 : Name
  name1 : Name
  arrived : Nat
  deriving DecidableEq, Repr

/-- A trap of a word that has already issued, due at the next boundary: an arithmetic one (R49), or with `sem` the overflow of a local
SSIG whose increment came later (R161); and whether it was raised while a trap was active. -/
structure ArithTrap where
  pc : BitVec 15
  aflags : BitVec 8
  vecUnit : Bool
  active : Bool
  sem : Bool := false
  deriving DecidableEq, Repr

/-- Flags that were merged in this cycle (R48): of a stream's word at `pc`, or of an engine's command, whose trap `eng` would be. Whether
they trap is settled at the end of the cycle, after a CSRW that completes in it. -/
structure Merge where
  flags : BitVec 8
  pc : BitVec 15
  vecUnit : Bool
  eng : Option ImpTrap
  deriving DecidableEq, Repr

/-! ## Banks -/

/-- A segment table entry (R283). -/
structure Seg where
  vbase : Nat
  len : Nat
  pbase : Nat
  kind : BitVec 2
  lease : Bool
  cls : BitVec 2
  policy : BitVec 2
  dlo : Nat
  dhi : Nat
  keyid : BitVec 7
  perm : BitVec 4
  hostVisible : Bool
  devBias : Bool
  away : Option (BitVec 12) := none
  deriving DecidableEq, Repr

/-- A sector that a port has read before the word that takes it (R155): its key in the port, its address and bytes, and whether an engine
has written it since. -/
structure Ahead where
  key : Nat
  addr : Nat
  bytes : List Byte
  stale : Bool
  deriving DecidableEq, Repr

/-- A configured port (R152-R156): the descriptor's fields, the next chunk, the cycle from which a vector can be taken, and the
sectors already read ahead (R155). -/
structure Port where
  base : Nat
  csz : Nat
  counts : List Nat
  strides : List Int
  next : Nat
  readyAt : Nat
  ahead : List Ahead
  deriving DecidableEq, Repr

/-- The state of a queue's head entry. -/
inductive HeadState where
  | waiting | started | faulted
  deriving DecidableEq, Repr

/-- One queue control word (R71), the state of its head entry, and for each entry the number of the stream's accesses
that are ordered before it (the fork edge, R164). The engine sees an entry that was pushed onto the empty queue from cycle `since` on. -/
structure Queue where
  en : Bool
  count : Nat
  head : Nat
  esize : BitVec 2
  depthm1 : Nat
  base : Nat
  hd : HeadState
  closing : Bool
  forks : List Nat
  since : Nat
  deriving DecidableEq, Repr

/-- One stationary weight or accumulated mark: zero, NaR, or a sign and an effective log (R43, R211). -/
inductive LogVal where
  | zero | nar | val (neg : Bool) (log : Int)
  deriving DecidableEq, Repr

/-- A stationary plane with the fields of the LSTAT that filled it (R211): weight of output n and logical k at key
`n * 512 + k`; an unlisted weight is zero. -/
structure Plane where
  rcd : Option (Fmt × Fmt × Bool)
  weights : Sparse LogVal
  deriving DecidableEq, Repr

/-- A bank's Anvil registers (R211). -/
structure AnvilBank where
  stat : Plane
  shadow : Plane
  b : Vector StackWord 8
  loops : Vector (Nat × Int) 6
  lc : Vector (BitVec 16) 4
  deriving DecidableEq, Repr

/-- A trailer (R176). -/
structure Trailer where
  words : Nat
  shi : BitVec 4
  slo : BitVec 4
  last : Bool
  mask : BitVec 4
  deriving DecidableEq, Repr

/-- Why a bank does not issue. -/
inductive BStat where
  /-- no job -/
  | vacant
  | running
  /-- after IDLE (R340) -/
  | idle
  /-- after HALT (R340) -/
  | halted
  /-- stopped by a trap with no handler or a second trap (R121, R125), with the second code if any -/
  | stopped (second : Option (BitVec 8))
  /-- arrived at a barrier (R172) -/
  | atBar (stage : Bool) (inst : Nat)
  /-- in a communication step (R174) -/
  | inStep (stage : Bool)
  /-- waiting for the base home, a name's home or another unit to report the word complete (R276, R331) -/
  | held
  /-- frozen on a host page fault (R342) -/
  | pageWait
  /-- its part of the job has ended (R177) -/
  | ended
  /-- stopped by a Quench (R362) or left by CKRES (R374) -/
  | quenched
  deriving DecidableEq, Repr

/-- The registers of a trap record (R122). -/
structure TrapRec where
  act : Bool
  src : BitVec 4
  imp : Bool
  code : BitVec 8
  tpc : BitVec 15
  taddr : Word
  name0 : Name
  name1 : Name
  aflags : BitVec 8
  mpc : BitVec 12
  detail : BitVec 16
  rpc : BitVec 15
  deriving DecidableEq, Repr

/-- What a held word will deliver when its home reports (R276): results and flags, or a precise fault. -/
structure HeldWord where
  pc : BitVec 15
  trap : Option ImpTrap
  writes : List (Reg × RVal)
  flags : BitVec 8
  deriving DecidableEq, Repr

/-- One context bank (R14). `fenced` is a FENCE whose earlier accesses may still be on their way (R173); `relStores`
says that a FENCE makes later stores releases (R313), and `readStamp` holds, by the narrowest scope that gains the edge, the largest release stamp that loads since
then have read (R319). A bank that is being taken off its core has `stopEng` set: it issues nothing, and its engines stop at their
boundaries (R337, R362); `stopAtBar` makes it stop at its next BAR. `csrws` are the CSR writes of this cycle, which take effect after
it (R108). -/
structure Bank where
  job : Option Nat
  status : BStat
  priv : Bool
  stage : BitVec 4
  stageRank : Nat
  gangRank : Nat
  lqgrant : Word
  pc : BitVec 15
  istore : Sparse Word80
  s : Vector Word 64
  v : Vector VecWord 64
  m : Vector MaskWord 16
  c : Vector Bool 8
  n : Vector Name 16
  h : Vector Name 16
  p : Vector (Option Name) 4
  pGone : Vector (Option Name) 4
  aq : Vector (List Word) 4
  bq : Vector (List Word) 4
  arst : BitVec 16
  csrws : List (BitVec 16 × Word)
  merges : List Merge
  vrb : BitVec 5
  mrb : BitVec 3
  check : Bool
  queues : Vector Queue 4
  amax : Vector (BitVec 32) 4
  amaxNow : Vector (Option (BitVec 32)) 4
  trap : TrapRec
  tvecEn : Bool
  tvecHdlr : BitVec 15
  overrun : Word
  stepReady : Bool
  lastBarStage : Bool
  barGang : Nat
  barStage : Nat
  segs : Sparse Seg
  ports : Vector (Option Port) 12
  touch : Option (Nat × Nat)
  imps : List ImpTrap
  arith : List ArithTrap
  writes : List PendWrite
  tags : List TagRec
  qpops : List (BitVec 4 × Fin 4)
  prevIssue : Nat
  bound : Nat
  divFree : Nat
  fenced : Option Scope
  relStores : Option Scope
  readStamp : List (Nat × BitVec 16)
  holdWord : Option HeldWord
  woken : Bool
  stopAtBar : Bool
  stopEng : Bool
  switchClaim : Bool
  trailer : Trailer
  overlay : Nat
  image : Nat
  runs : List (Nat × Nat)
  persist : List (Nat × Nat)
  anvil : AnvilBank
  deriving DecidableEq, Repr

/-! ## Engines -/

/-- Where an engine's next word stands: in its entry, or in a routine at a local address (R197). -/
inductive WordPos where
  | entry (i : Nat) | routine (base : Nat) (off : Nat)
  deriving DecidableEq, Repr

/-- An entry in progress (R14, R158): its bank, queue and slot, its header, the engine's position and stacks, the LAYER
sequence it is in with whether a stripe has just ended there (R233, R234), the settings that lapse with it, and the sectors of local
memory that its present word has read and those that it still has to read (R79, R83). -/
structure Entry where
  bank : Bool
  q : QCode
  slot : Nat
  hdr : BitVec 32
  fork : Nat
  fromStep : Option Nat
  at_ : WordPos
  pstack : List StackWord
  rstack : List WordPos
  layer : Option (Fin 4 × Nat)
  stripe : Bool
  pad : Option StackWord
  done : Bool
  src : List (Nat × List Byte)
  want : List (Nat × Nat)
  deriving DecidableEq, Repr

/-- A communication step's schedule on one core (R174): where it stands, the entry index, the count, the element
size, the planned end and step time 0. -/
structure Sched where
  bank : Bool
  base : Nat
  esize : Nat
  count : Nat
  next : Nat
  tend : Nat
  t0 : Nat
  deriving DecidableEq, Repr

/-- An engine: its last-served queue position (R159), the entry it executes, and whether it is frozen on a host page
fault (R165, R194). -/
structure Engine where
  last : Nat
  cur : Option Entry
  tried : Bool
  frozen : Bool
  sched : Option Sched
  deriving DecidableEq, Repr

/-- A tile command in progress in the Anvil (R227). -/
inductive AnvilKind where
  | lstat | zacc (a : Fin 4) | go (a : Fin 4) | drain (a : Fin 4)
  deriving DecidableEq, Repr

/-- A tile command on its way: it completes at the end of cycle `due` and then takes effect and merges its flags (R48, R227): its format
word, the plane and the rows that a GO streams, the sectors of local memory that it has read and those that it has still to read (R79). -/
structure AnvilCmd where
  id : Nat
  bank : Bool
  kind : AnvilKind
  entered : Nat
  due : Nat
  flags : BitVec 8
  detail : BitVec 16
  upc : BitVec 12
  word : BitVec 32
  plane : Plane
  rows : List (Nat × Nat)
  src : List (Nat × List Byte)
  want : List (Nat × Nat)
  deriving DecidableEq, Repr

/-! ## Accesses to memory on their way -/

/-- A physical byte of a stack set's space (R285). -/
structure Loc where
  lo : Nat
  nd : Nat
  q : Nat
  deriving DecidableEq, Repr

/-- How a PATCHED read forms its value (R264, R265, R262). -/
inductive ViewMode where
  | plain | opn | asof (sealNo : Nat)
  /-- the open value with one patch's own contributions, whether it is shared or not (R299, R300) -/
  | own (patch : Name)
  deriving DecidableEq, Repr

/-- The read-modify-write operations of R299. -/
inductive Rmw where
  | add | min | max | and | or | xor | xchg | cas
  deriving DecidableEq, Repr

/-- Where the bytes of a load go. -/
inductive LoadDst where
  /-- byte i of the access to byte `off + i` of the tag's buffer -/
  | tag (t : BitVec 4) (off : Nat)
  /-- to local memory; `hi` replaces the high half of the last byte, an element out of bounds of a 4-bit tile (R192) -/
  | toLocal (addr : Nat) (hi : Option (BitVec 4))
  /-- headers of an H format, to local memory: bits 31:24 of each must be zero (R42) -/
  | headers (addr : Nat)
  /-- to a name register (R251) -/
  | nameReg (d : Fin 16)
  /-- to byte `off` of the tile that a TXPOSE collects (R202) -/
  | xpose (off : Nat) (hi : Option (BitVec 4))
  | nowhere
  deriving DecidableEq, Repr

/-- What an access does when it takes effect. -/
inductive AccOp where
  | load (mode : ViewMode) (dst : LoadDst)
  /-- the bits of `v` that `m` marks -/
  | store (v m : List Byte)
  /-- bytes or values for a patch, of a copy word or of the control stream's word at a pc, in the vector unit or not (R206, R259) -/
  | patchStore (patch : Name) (twin : Bool) (bytes : List (Option Byte)) (ty : Fmt) (pc : BitVec 15) (vec : Bool)
  | rmw (k : Rmw) (ty : Fmt) (x cmp : Word) (t : BitVec 4)
  | row (mx : Bool) (ty : Fmt) (x x2 : VecWord) (lanes : MaskWord) (pair : Bool) (t : BitVec 4)
  | dcas (ty : Fmt) (loc2 : Loc) (lease2 : Bool) (e1 e2 w1 w2 : Word) (t : BitVec 4)
  | move (ty : Fmt) (loc2 : Loc) (lease2 : Bool) (t : BitVec 4)
  /-- AADD into a patch: the name, type, operand, and the tag of a `.ret` (R299) -/
  | patchAdd (patch : Name) (ty : Fmt) (x : Word) (t : BitVec 4)
  /-- ARADD or ARMAX into a patch: the name, type, operands, active elements, and the tag of a `.ret` (R300) -/
  | patchRow (mx : Bool) (patch : Name) (ty : Fmt) (x x2 : VecWord) (lanes : MaskWord) (pair : Bool) (t : BitVec 4)
  | stage (store : Bool) (slice : Nat) (off : Nat) (laddr : Nat)
  | writeBack (l2 : Bool)
  | dropCopies (l2 : Bool)
  | prefetch (l2 : Bool)
  | pin (t : BitVec 4)
  | unpin
  /-- a semaphore signal that waits for the accesses before it (R170): to this core, or to the core of an operand, for the SSIG at a pc -/
  | signal (k : BitVec 8) (operand : Option Word) (pc : BitVec 15)
  deriving DecidableEq, Repr

/-- What kind of target an access has (R282, R283). -/
inductive Target where
  | cell | leaseCell | view | leaseView | host | staging
  deriving DecidableEq, Repr

/-- How far an access has come. -/
inductive AccState where
  /-- not yet performed -/
  | waiting
  /-- its request is on its way -/
  | sent
  /-- performed; its acknowledgement has not yet reached the core (R390) -/
  | performed
  deriving DecidableEq, Repr

/-- A split atomic of the host window between its read and its write (R302): the translated pieces and the bytes read. -/
structure HostHalf where
  pieces : List (Nat × Nat)
  old : List Byte
  deriving DecidableEq, Repr

/-- One single-copy access on its way (R295, R322): at most one 32-byte sector, or one row. `word` is the number its
word's accesses share; `direct` ones are served at the home and not from a copy, `publish` ones set
release stamps (R319), `name` is the name through which it was made, if any (R248), `detail` and `upc` tell where the engine's word stands that made it (R122), and `carry` and `flags` are the wts and the flags that the acknowledgement brings (R390, R299). -/
structure Access where
  seq : Nat
  word : Nat
  bank : Bool
  eng : Option Eng
  op : AccOp
  vaddr : Nat
  len : Nat
  loc : Loc
  target : Target
  cls : BitVec 2
  acq : Bool
  rel : Bool
  scope : Scope
  state : AccState
  tried : Bool
  direct : Bool
  publish : Bool
  keyid : BitVec 7
  carry : Option (BitVec 16)
  flags : BitVec 8
  name : Name
  detail : BitVec 16
  upc : BitVec 12
  half : Option HostHalf
  deriving DecidableEq, Repr

/-- One byte of a stream's local access: its address, its place in the word's value, and for a store its value and the bits written. -/
structure LMove where
  addr : Nat
  off : Nat
  val : Byte
  mask : Byte
  deriving DecidableEq, Repr

/-- A local access of the control stream on its way (R106, R107, R149, R150, R187): its number in issue order, the sectors it has still to
perform, each in one piece and not before cycle `ready`. A load's bytes go to the tag `tag`, which lands `lat` cycles after the last of
them, exactly then where `exact` and nothing delayed it. A store to an output port whose data comes under a tag `waits` for it (R154). -/
structure LAcc where
  no : Nat
  bank : Bool
  store : Bool
  ready : Nat
  pieces : List (List LMove)
  tag : BitVec 4
  lat : Nat
  exact : Bool
  waits : Bool
  deriving DecidableEq, Repr

/-- A grant of a memory bank for one cycle (R148): a requester, a number that its access has, and the 64-byte block. -/
structure Grant where
  who : Nat
  no : Nat
  block : Nat
  deriving DecidableEq, Repr

/-- A requester that waits for a memory bank, and those that the bank has served since it began to ask (R148). -/
structure BankWait where
  unit : Nat
  who : Nat
  served : List Nat
  deriving DecidableEq, Repr

/-- A local write of an engine on its way: one 32-byte sector or less, not before cycle `due` (R79, R227). -/
structure LWrite where
  eng : Eng
  bank : Bool
  addr : Nat
  bytes : List Byte
  due : Nat
  cmd : Nat
  deriving DecidableEq, Repr

/-- An amax update on its way (R230). -/
structure AmaxUpd where
  bank : Bool
  reg : Fin 4
  val : BitVec 32
  due : Nat
  deriving DecidableEq, Repr

/-! ## Caches -/

/-- A line of an L1 (R287, R303, R309). `marks` are the flags that reading a byte of a view copy sets
(R264); the line's data is there from the cycle `ready` (R297). -/
structure L1Line where
  line : Line
  set : Nat
  view : Bool
  lease : Bool
  st : Moesi
  data : BitVec 1024
  valid : BitVec 4
  dirty : Bool
  wts : BitVec 16
  rts : BitVec 16
  hits : Nat
  stamps : List (BitVec 16)
  marks : Sparse (BitVec 8)
  lru : Nat
  ready : Nat := 0
  deriving DecidableEq, Repr

/-- A line of an L2 slice, as home copy or as proxy (R288, R303, R309); its data is there from the cycle `ready` (R297). -/
structure SLine where
  line : Line
  st : Moesi
  data : BitVec 1024
  valid : BitVec 4
  dirty : Bool
  view : Bool
  lease : Bool
  cls : BitVec 2
  pin : Option Nat
  cores : List Nat
  owner : Option Nat
  ost : Moesi
  wts : BitVec 16
  rts : BitVec 16
  stamps : List (BitVec 16)
  marks : Sparse (BitVec 8)
  lru : Nat
  ready : Nat := 0
  deriving DecidableEq, Repr

/-- A line of a snoop filter (R303, R305, R306). Two compressed lines that share one entry have one `pair` number. -/
structure SfEntry where
  line : Line
  dies : BitVec 32
  owner : Option Nat
  ost : Moesi
  pair : Option Nat
  lru : Nat
  deriving DecidableEq, Repr

/-- A transaction that a home serves (R304, R390), or that a proxy has sent to the home: the request, the copies whose
acknowledgement it awaits, the owner to forward to afterwards (R325), and the lines whose snoop-filter entry it evicts first
(R325). -/
structure Txn where
  line : Line
  req : CohReq
  excl : Bool
  upgrade : Bool
  awaits : List (Line × Nat)
  fwd : Option Nat
  evicts : List Line
  deriving DecidableEq, Repr

/-- One L2 slice (R288, R289). -/
structure Slice where
  sfways : BitVec 4
  qkv : BitVec 4
  qact : BitVec 4
  qwt : BitVec 4
  qoth : BitVec 4
  stg : BitVec 4
  lines : List SLine
  sf : List SfEntry
  busy : List Txn
  waitq : List Instr
  mts : BitVec 16
  staging : List Host.Cell
  deriving DecidableEq, Repr

/-! ## Cores -/

/-- A remote signal whose acknowledgement is awaited (R170). -/
structure SigOut where
  bank : Bool
  k : BitVec 8
  operand : Word
  deriving DecidableEq, Repr

/-- A TREE in progress on a core (R207): its instance, its operands, and the level that the core comes to next: 0 until every participant has
arrived, 4 when the core has no level left. -/
structure TreeWord where
  inst : Nat
  laddr : Nat
  count : Nat
  level : Nat
  deriving DecidableEq, Repr

/-- A TXPOSE that collects its tile (R202): the number of its word, the tile's image as it would stand in local memory by
R193, its rows and columns, its format, and where the transpose goes. -/
structure Xpose where
  word : Nat
  bank : Bool
  image : List Byte
  rows : Nat
  cols : Nat
  fmt : Fmt
  laddr : Nat
  detail : BitVec 16
  upc : BitVec 12
  deriving DecidableEq, Repr

/-- A transfer or signal of the collective engine on its way (R359): its number, its bank, the packets that have not been applied,
whether a communication step judges it, when the last one was applied, and the start of the next slot once it is known (R174). -/
structure Send where
  no : Nat
  bank : Bool
  left : Nat
  judged : Bool
  doneAt : Nat
  limit : Option Nat
  deriving DecidableEq, Repr

/-- One core (R12). `laccs` are the stream's local accesses on their way, `asks` the input ports for which a word waits, and `grants` and `waits` the
arbitration of the memory banks (R148). `reduces` are the reduce packets that wait for the end of a communication step (R360), `resumes` the entries in
progress of a restored bank that wait for their engine, with the microcode image they were saved under (R234, R338). -/
structure Core where
  active : Bool
  bank0 : Bank
  bank1 : Bank
  tried : Bool
  mem : List Host.Cell
  guards : List Nat
  sems : Vector (BitVec 16) 256
  semPts : Sparse (List (BitVec 16 × Bool))
  ksplit : Bool
  fq : List (BitVec 32 × Bool)
  acc : Sparse (BitVec 32)
  marks : List Nat
  ucode : Sparse MicroWord
  ucodeName : Option Name
  anvil : Engine
  copy : Engine
  coll : Engine
  cmds : List AnvilCmd
  cmdNo : Nat
  lastRow : Nat
  pts : BitVec 16
  lease1 : BitVec 12
  lease2 : BitVec 12
  tick : BitVec 32
  tickAt : Nat
  staleReads : Word
  staleWindows : Word
  msize : Word
  l1 : List L1Line
  accs : List Access
  accSeq : Nat
  lwrites : List LWrite
  laccs : List LAcc
  asks : List (Bool × Fin 8)
  grants : List Grant
  waits : List BankWait
  amaxUpds : List AmaxUpd
  sigs : List SigOut
  names : List Name
  treeCount : Nat
  treeAt : Option TreeWord
  xposes : List Xpose
  sends : List Send
  sendNo : Nat
  reduces : List Packet
  resumes : List (Eng × Entry × Option Name)
  sendSeq : List (Nat × Nat)
  deriving DecidableEq, Repr

/-! ## Names and patches -/

/-- A tensor as its descriptor gives it (R190), with the address of the descriptor and the segment that holds its
storage. -/
structure Tensor where
  desc : Nat
  descLoc : Loc
  base : Nat
  rows : Nat
  cols : Nat
  pitch : Nat
  fmt : Fmt
  group : Nat
  autosquash : Bool
  pre : Bool
  paired : Bool
  pad : BitVec 32
  aux : Nat
  auxpitch : Nat
  twin : Name
  seg : Seg
  deriving DecidableEq, Repr

/-- What a live name is bound to (R244, R247, R250). -/
inductive Binding where
  | tensor (t : Tensor)
  | patch
  | job (id : Nat)
  | checkpoint (job : Nat) (step : Nat)
  | cellseg (vbase : Nat)
  | microcode (addr : Nat) (words : Nat) (digest : BitVec 512)
  | savearea (tag : BitVec 16)
  | aliasTo (n : Name)
  deriving DecidableEq, Repr

/-- A live name in the home table (R247, R248): with the job that issued it, and the logical time that its last NCAS carries
(R319). -/
structure NameEnt where
  name : Name
  bind : Binding
  keyid : BitVec 7
  job : Option Nat
  resolvers : List (BitVec 12)
  pts : BitVec 16
  deriving DecidableEq, Repr

/-- A name that its home has removed and whose shoot-down is on its way (R248): the dies that have not acknowledged,
die d of this module as d and module m as 32 + m, the bank that waits if it is one of this module, and the earliest completion. -/
structure Dying where
  ent : NameEnt
  awaits : List Nat
  waiter : Option (Nat × Bool)
  earliest : Nat
  deriving DecidableEq, Repr

/-- An issuance record of an ident (R243). -/
structure Issue where
  ident : BitVec 32
  gen : BitVec 24
  mark : Nat
  deriving DecidableEq, Repr

/-- The home of another module, as this one meets it (R242 to R245): its issuance records and its name table. -/
structure Peer where
  module : BitVec 12
  ident : BitVec 32
  records : List Issue
  table : List NameEnt
  deriving DecidableEq, Repr

/-- The state of a patch (R255). A DEAD patch is no longer listed. -/
inductive PState where
  | opened | sealed | squashed
  deriving DecidableEq, Repr

/-- One half of a patch on one base (R254): payload bytes and deltas by physical byte, the pre-image and the seal. -/
structure PHalf where
  base : Name
  payload : Sparse Byte
  deltas : Sparse (BitVec 32)
  pre : Option (Sparse Byte)
  sealNo : Nat
  deriving DecidableEq, Repr

/-- A patch (R254). `neg` marks deltas that count negated, as an inverse's do (R268): the negation is exact. A shared patch keeps each
contributor's partial apart, of its plain half and of its twin's (R261, R274). While a shared patch is being sealed, `sealer` is the bank whose PSEAL collects, `awaits` the contributors still to be asked and `collected`
those whose partial is taken (R261). -/
structure Patch where
  name : Name
  delta : Option Fmt
  shared : Bool
  preFlag : Bool
  state : PState
  opener : Nat
  job : Nat
  half : PHalf
  twin : Option PHalf
  partials : List (Nat × Sparse (BitVec 32))
  twinPartials : List (Nat × Sparse (BitVec 32))
  sealer : Option (Nat × Bool)
  awaits : List Nat
  collected : List Nat
  inverseOf : Option Name
  neg : Bool
  pts : BitVec 16
  inexact : Bool
  foldinx : Bool
  deriving DecidableEq, Repr

/-- The chain of one sector, lowest first (R257, R264). -/
structure Chain where
  lo : Nat
  nd : Nat
  sec : Nat
  names : List Name
  deriving DecidableEq, Repr

/-- An undo record of a fold (R372), with the checkpoint that covers the fold once one has been taken. -/
structure Undo where
  covered : Option Name
  base : Name
  prior : List (Loc × Byte)
  chains : List Chain
  patches : List Patch
  deriving DecidableEq, Repr

/-! ## Jobs -/

/-- A launch record (R179). -/
structure LaunchRec where
  image : Nat
  params : Nat
  segtab : Nat
  needs : Word
  lqgrant : Word
  shape : BitVec 32
  policy : BitVec 32
  preds : List Name
  deriving DecidableEq, Repr

/-- How a job stands (R182, R121). -/
inductive JState where
  | waiting | running | retired | failed | quenched
  deriving DecidableEq, Repr

/-- The dispatcher's report of a failed job (R121, R125, R180, R182, R340). -/
structure Report where
  code : BitVec 8
  pc : BitVec 15
  addr : Word
  second : Option (BitVec 8)
  pred : Name
  rcd : Option TrapRec
  deriving DecidableEq, Repr

/-- A job (R16, R182-R185). `segs` is the table through which the Bellows reads its record's addresses, the launcher's (R180), and its
own table once it has started; `params` is its parameter block as it was at its start, `evictFor` the job for which the Bellows takes it off its banks (R185); `pts` is the logical time that its launch by a core, and later its retirement, carries (R319). -/
structure Job where
  id : Nat
  name : Name
  rcd : LaunchRec
  lq : Nat
  priv : Bool
  pasid : Option (BitVec 20)
  state : JState
  accepted : Nat
  started : Nat
  aged : Nat
  tag : BitVec 16
  cores : List (Nat × Bool)
  report : Option Report
  lastCkpt : Option (Name × Nat)
  reserved : List (Nat × Bool)
  pts : Option (BitVec 16)
  segs : Sparse Seg
  params : List Byte
  evictFor : Option Nat
  deriving DecidableEq, Repr

/-- One overlay as the loader places it for one local base (R176, R177, R236). `data` lists every byte of its data section, the
zeros too. -/
structure Overlay where
  words : List Word80
  data : List Host.Cell
  guards : List Nat
  runs : List (Nat × Nat)
  persist : List (Nat × Nat)
  queues : List (QCode × Word)
  trapEntry : Option (BitVec 15)
  trailer : Trailer
  deriving DecidableEq, Repr

/-- One .alloc or .queue directive (R157): its bytes, its alignment, whether it persists, and for a queue its engine and its control word
without the base, whose fields then give the bytes. -/
structure Alloc where
  size : Nat
  align : Nat
  persist : Bool
  queue : Option (QCode × Word)
  deriving DecidableEq, Repr

/-- What a label names: a byte of the data section, or an allocation by its place among the directives (R236). -/
inductive Label where
  | data (off : Nat) | alloc (i : Nat)
  deriving DecidableEq, Repr

/-- A field that the loader fills with a label's local address and a distance from it (R236): the runs of bits that hold the sum from its lowest
bits on, each in a word or in the data section, with its first bit and its number of bits (a LIT and an EXT hold one address in two runs), and
the highest address that it may hold. -/
structure Reloc where
  label : Label
  add : Nat
  parts : List (Option Nat × Nat × Nat)
  limit : Nat
  deriving DecidableEq, Repr

/-- One overlay of an object file as the loader takes it (R157, R176, R236): words, trailer slot, data section, allocations in the order of
their directives, fields to fill and handler. -/
structure OverlayObj where
  words : List Word80
  slot : Word80
  data : List Byte
  allocs : List Alloc
  relocs : List Reloc
  trapEntry : Option (BitVec 15)
  deriving DecidableEq, Repr

/-- A program image: its overlays in order (R176). The object file's own layout is described outside the manual (00). -/
structure ProgImage where
  overlays : List OverlayObj
  deriving DecidableEq, Repr

/-- A launch queue (R379, R381): its descriptor, the head slot, the expected number, pending notifies and slots. -/
structure LQueue where
  offset : Nat
  depth : Nat
  enabled : Bool
  pasidValid : Bool
  pasid : BitVec 20
  head : Nat
  expect : BitVec 16
  pending : List (BitVec 16)
  reading : Bool
  deriving DecidableEq, Repr

/-! ## Quench and checkpoint -/

/-- A bank as BANKSAVE saves it (R234, R336): with what the core holds for it, its local runs with their guard bits, its entries in
progress, its frozen host accesses and its core-bound traffic. -/
structure SavedBank where
  addr : Nat
  core : Nat
  bank : Bank
  sems : List (Nat × BitVec 16 × List (BitVec 16 × Bool))
  fq : List (BitVec 32)
  sets : List Nat
  acc : Sparse (BitVec 32)
  marks : List Nat
  runBytes : List (Nat × List Byte)
  guards : List Nat
  entries : List (Eng × Entry)
  sched : Option Sched
  replays : List Access
  sigs : List SigOut
  sends : List Send
  reduces : List Packet
  sendSeq : List (Nat × Nat)
  ucodeName : Option Name
  treeCount : Nat
  stores : List LAcc
  deriving DecidableEq, Repr

/-- A resume record (R365). `banks` are the bank images, whose place in device memory the manual does not state. -/
structure ResumeRec where
  tag : BitVec 16
  job : Name
  banks : List SavedBank
  savearea : Name
  state : BitVec 8
  nbank : Nat
  npkt : Nat
  step : Word
  images : Nat
  held : Nat
  heldIncs : List (Nat × BitVec 8)
  absent : List (BitVec 12)
  remote : Bool
  deriving DecidableEq, Repr

/-- A quench in progress on this module (R362 to R364): whether it waits for barriers first, the banks whose words wait for it,
its phase here (0 waits for the barriers, 1 injection stops, 2 sweep, 3 save, 4 done), the modules that have not reported and those counted absent, the markers
that have arrived, whether the Bellows ordered it to requeue the job (R185), and whether another module issued it. -/
structure Quench where
  job : Name
  id : Nat
  tag : BitVec 16
  now : Bool
  issuers : List (Nat × Bool)
  phase : Nat
  waiting : List (BitVec 12)
  absent : List (BitVec 12)
  markers : List (Fin 64 × Fin 9)
  requeue : Bool
  remote : Bool
  deriving DecidableEq, Repr

/-- A save area (R363). -/
structure SaveArea where
  tag : BitVec 16
  packets : List Packet
  closed : Bool
  deriving DecidableEq, Repr

/-- A checkpoint of this module for one step (R370, R371): while its cores still arrive its name is null. -/
structure Ckpt where
  name : Name
  prev : Name
  job : Nat
  step : Nat
  marks : List (Name × Nat)
  names : List Name
  persist : List (Nat × List Host.Cell)
  pcs : List (Nat × Bool × BitVec 15 × Nat)
  dirty : List (Loc × List Byte × List Byte)
  patches : List Patch
  chains : List Chain
  sems : List (Nat × Bool × BitVec 8)
  arrived : List (Nat × Bool)
  durable : Bool
  pendingAcks : Nat
  deriving DecidableEq, Repr

/-- What the slices of another module's checkpoint hold for a restore here (R374, R375): whether every digest and the signature hold,
the index of a newer shard that can no longer be returned to the step, the job, its gang record, its parameter block and segments, the
name table and the issuance record, and the name journal's dead names and last high mark. -/
structure RemoteCkpt where
  valid : Bool
  mixed : Option Nat
  ckpt : Ckpt
  jobName : Name
  rcd : LaunchRec
  tag : BitVec 16
  priv : Bool
  params : List Byte
  segs : Sparse Seg
  gen : BitVec 24
  mark : Nat
  table : List NameEnt
  dead : List Name
  high : Option Nat
  deriving DecidableEq, Repr

/-! ## Module services -/

/-- A record of the event log (R334). -/
structure LogRec where
  code : BitVec 8
  lost : Bool
  core : BitVec 16
  module : BitVec 12
  bank : Bool
  keyid : BitVec 7
  addr : Word
  jobtag : BitVec 16
  part : BitVec 4
  time : Nat
  deriving DecidableEq, Repr

/-- A host TLB entry of a die (R347). -/
structure TlbEnt where
  pasid : BitVec 20
  level : Nat
  vpage : Nat
  frame : Nat
  writable : Bool
  deriving DecidableEq, Repr

/-- One compute die (R11). -/
structure Die where
  part : BitVec 4
  featmask : Word
  tlb : List TlbEnt
  names : List Name
  guardCount : Nat
  deriving DecidableEq, Repr

/-- A PASID table entry (R378). -/
structure PasidEnt where
  pasid : BitVec 20
  valid : Bool
  depth : Nat
  root : Nat
  deriving DecidableEq, Repr

/-- A bias flip in flight (R353, R384). -/
structure Flip where
  id : BitVec 32
  dev : Bool
  base : Nat
  len : Nat
  pages : List Nat
  core : Nat
  bank : Bool
  deriving DecidableEq, Repr

/-- The security block (R385, R386, R352). -/
structure Security where
  meas : Vector (BitVec 512) 6
  policy : Option (BitVec 512)
  attested : Bool
  keys : List (Fin 128)
  bound : List (Fin 128 × BitVec 4)
  verified : List (Nat × Nat × BitVec 512)
  deriving DecidableEq, Repr

/-- A host TLB invalidation on its way (R348): the bank that waits, the PASID, an address or all of them, and the dies that have
not acknowledged. -/
structure HtlbInv where
  core : Nat
  bank : Bool
  pasid : BitVec 20
  addr : Option Nat
  dies : List Nat
  deriving DecidableEq, Repr

/-- A step in flight: a message or a timed event that arrives no earlier than cycle `due`, nor before the reference clock's time `ref`
where it is due at a time in seconds (R1), at the given core and bank. Flights of one channel arrive in the order they were sent (R286, R357). -/
structure Flight where
  due : Nat
  ref : Option Nat := none
  chan : Option (Nat × Nat × Nat)
  core : Nat
  bank : Bool
  eng : Option Eng
  ev : Instr
  deriving DecidableEq, Repr

/-- Which agent performs the next step: a core, one of its banks, and an engine where it is one. -/
structure Focus where
  core : Nat
  bank : Bool
  eng : Option Eng
  deriving DecidableEq, Repr

/-- The module. `refTime` counts the reference clock in the largest unit of which every cycle length of R389 is a multiple. `corrected` counts the corrected errors
of die d at d and of stack s at 32 + s, and `ecc` lists the units that correct one in each cycle to come (R335). `inputs` is what the world
outside will do to it, in order, each with the core, bank and engine it concerns. -/
structure State where
  cycle : Nat
  refTime : Nat
  clockMHz : Nat
  free : Nat
  focus : Focus
  cores : Sparse Core
  blank : Core
  slices : Sparse Slice
  blankSlice : Slice
  dies : Vector Die 32
  hbm : List Host.Cell
  hostMem : List Host.Cell
  stamps : Sparse (BitVec 16)
  blankStamp : BitVec 16
  releasers : List (Nat × Nat × Bool × Nat)
  quarter : BitVec 2
  -- names and patches
  ident : BitVec 32
  moduleNo : BitVec 12
  gen : BitVec 24
  mark : Nat
  foreign : List Issue
  peers : List Peer
  homeMap : List (BitVec 32 × BitVec 12)
  table : List NameEnt
  dying : List Dying
  patches : List Patch
  chains : List Chain
  seals : List (Name × Nat)
  sealPts : List (Name × BitVec 16)
  dirtyPages : List (Nat × Nat × Nat)
  undos : List Undo
  gone : List (Name × BitVec 16)
  journal : List Name
  journalMark : Nat
  journalNo : Nat
  journalWaits : List (Nat × Nat × Bool × Option Nat)
  -- jobs
  jobs : List Job
  progs : List (Nat × ProgImage)
  lqueues : Vector LQueue 64
  lqSlots : List Host.Cell
  privq : Word
  threshold : BitVec 7
  graceUs : Nat
  -- configuration space and hub services
  pageTimeoutUs : Nat
  saveReserveMiB : Nat
  quenchDeadlineUs : Nat
  pasids : Sparse (BitVec 128)
  buddies : Vector (BitVec 12) 8
  corrected : Sparse Nat
  ecc : List (List Nat)
  log : List LogRec
  logLost : Nat
  ready : Vector Word 4
  sec : Security
  bias : List (Nat × Nat × Nat × Bool)
  flip : Option Flip
  flipNo : BitVec 32
  hostHeld : List (Line × Moesi)
  rtSegs : Sparse Seg
  spans : List (Name × List (BitVec 12))
  pageReqs : List (BitVec 20 × Nat)
  htlbInv : List HtlbInv
  -- quench, checkpoint, flacon
  resume : List ResumeRec
  quenches : List Quench
  saveAreas : List SaveArea
  ckpts : List Ckpt
  remoteCkpts : List RemoteCkpt
  flacon : List (Nat × List Byte)
  savedBanks : List SavedBank
  discarded : Nat
  -- outputs and inputs
  outbox : List Packet
  acksOut : List (Packet × BitVec 8)
  msix : List (Fin 2)
  spdmOut : List (List (BitVec 512))
  hostReads : List (List Byte)
  errResponses : List Nat
  flights : List Flight
  inputs : List (Focus × Instr)
  deriving DecidableEq, Repr

/-! ## Reset -/

/-- A queue control word after reset (R71). -/
def Queue.reset : Queue :=
  { en := false, count := 0, head := 0, esize := 0, depthm1 := 0, base := 0, hd := .waiting, closing := false
    forks := [], since := 0 }

/-- An unloaded plane (R211). -/
def Plane.unloaded : Plane := { rcd := none, weights := [] }

/-- A bank's Anvil state when a job is placed (R211); after reset too (log 3 for lc). -/
def AnvilBank.reset : AnvilBank :=
  { stat := .unloaded, shadow := .unloaded, b := Vector.replicate 8 0, loops := Vector.replicate 6 (1, 0)
    lc := Vector.replicate 4 0 }

/-- The trap record after reset (R122; taddr and the names by log 3). -/
def TrapRec.reset : TrapRec :=
  { act := false, src := 0, imp := false, code := 0, tpc := 0, taddr := 0, name0 := 0, name1 := 0, aflags := 0
    mpc := 0, detail := 0, rpc := 0 }

/-- A trailer that names every queue and ends the job; what a bank without an overlay holds (log 3). -/
def Trailer.reset : Trailer := { words := 0, shi := 15, slo := 0, last := true, mask := 15 }

/-- A vacant bank: CSRs as their maps state (R47, R71, R99, R100, R121, R122, R175, R229), the rest by log 3. -/
def Bank.reset : Bank :=
  { job := none, status := .vacant, priv := false, stage := 0, stageRank := 0, gangRank := 0, lqgrant := 0, pc := 0
    istore := [], s := Vector.replicate 64 0, v := Vector.replicate 64 0, m := Vector.replicate 16 0
    c := Vector.replicate 8 false, n := Vector.replicate 16 0, h := Vector.replicate 16 0
    p := Vector.replicate 4 none, pGone := Vector.replicate 4 none, aq := Vector.replicate 4 [], bq := Vector.replicate 4 []
    arst := 0, csrws := [], merges := [], vrb := 0, mrb := 0, check := false, queues := Vector.replicate 4 .reset
    amax := Vector.replicate 4 0, amaxNow := Vector.replicate 4 none, trap := .reset, tvecEn := false, tvecHdlr := 0
    overrun := 0, stepReady := false, lastBarStage := false, barGang := 0, barStage := 0, segs := []
    ports := Vector.replicate 12 none, touch := none, imps := [], arith := [], writes := [], tags := [], qpops := []
    prevIssue := 0, bound := 0, divFree := 0, fenced := none, relStores := none, readStamp := [], holdWord := none, woken := false, stopAtBar := false, stopEng := false, switchClaim := false
    trailer := .reset, overlay := 0, image := 0, runs := [], persist := [], anvil := .reset }

/-- An idle engine whose first examined queue will be position 0 (log 3). -/
def Engine.reset (last : Nat) : Engine :=
  { last := last, cur := none, tried := false, frozen := false, sched := none }

/-- A core after reset: lease lengths and tick by R308, no microcode by R231, the rest by log 3. -/
def Core.reset : Core :=
  { active := false, bank0 := .reset, bank1 := .reset, tried := false, mem := [], guards := []
    sems := Vector.replicate 256 0, semPts := [], ksplit := false, fq := [], acc := [], marks := [], ucode := []
    ucodeName := none, anvil := .reset 1, copy := .reset 3, coll := .reset 1, cmds := [], cmdNo := 0, lastRow := 0
    pts := 0, lease1 := 16, lease2 := 64, tick := 2000, tickAt := 0, staleReads := 0, staleWindows := 0, msize := 0
    l1 := [], accs := [], accSeq := 0, lwrites := [], laccs := [], asks := [], grants := [], waits := [], amaxUpds := [], sigs := [], names := []
    treeCount := 0, treeAt := none, xposes := [], sends := [], sendNo := 0, reduces := [], resumes := [], sendSeq := [] }

/-- A slice after reset (R289; mts by log 3). -/
def Slice.reset : Slice :=
  { sfways := 0, qkv := 15, qact := 15, qwt := 15, qoth := 15, stg := 0, lines := [], sf := [], busy := []
    waitq := [], mts := 0, staging := [] }

/-- A die after reset: partition 0 (R351), its fused features (R349). -/
def Die.reset (d : Nat) : Die :=
  { part := 0, featmask := Config.featmask d &&& 0x7F1F, tlb := [], names := [], guardCount := 0 }

/-- A launch queue after reset: not enabled (log 3). -/
def LQueue.reset : LQueue :=
  { offset := 0, depth := 64, enabled := false, pasidValid := false, pasid := 0, head := 0, expect := 0, pending := []
    reading := false }

/-- The security block at cold boot (R385, R386). -/
def Security.reset : Security :=
  { meas := Vector.replicate 6 0, policy := none, attested := false, keys := [], bound := [], verified := [] }

/-- The module right after reset. -/
def State.reset : State :=
  { cycle := 0, refTime := 0, clockMHz := 2000, free := 0, focus := { core := 0, bank := false, eng := none }
    cores := [], blank := .reset, slices := [], blankSlice := .reset, dies := Vector.ofFn (fun d => Die.reset d.val)
    hbm := [], hostMem := [], stamps := [], blankStamp := 0, releasers := [], quarter := 0
    ident := Config.ident, moduleNo := Config.moduleNumber, gen := 0, mark := 0, foreign := [], peers := [], homeMap := [(Config.ident, Config.moduleNumber)]
    table := [], dying := [], patches := [], chains := [], seals := [], sealPts := [], dirtyPages := [], undos := [], gone := [], journal := []
    journalMark := 0, journalNo := 0, journalWaits := []
    jobs := [], progs := [], lqueues := Vector.replicate 64 .reset, lqSlots := [], privq := 0, threshold := 112
    graceUs := 50
    pageTimeoutUs := 100000, saveReserveMiB := 4096, quenchDeadlineUs := 1500, pasids := []
    buddies := Vector.replicate 8 0, corrected := [], ecc := [], log := [], logLost := 0, ready := Vector.replicate 4 0, sec := .reset, bias := []
    flip := none, flipNo := 0, hostHeld := [], rtSegs := [], spans := [], pageReqs := [], htlbInv := []
    resume := [], quenches := [], saveAreas := [], ckpts := [], remoteCkpts := [], flacon := [], savedBanks := [], discarded := 0
    outbox := [], acksOut := [], msix := [], spdmOut := [], hostReads := [], errResponses := [], flights := [], inputs := [] }

end Sys2Proof.Machine
end

