-- ==== Sys2Proof/Machine/Memory.lean ====
section
/-!
DEFINITION. Maps kept as lists with rising keys, memories as lists of cells in one canonical form, and byte order
(R3: the low byte of a value stands at the lowest address).
-/
namespace Sys2Proof.Machine

/-! ## Sparse maps -/

/-- The entry of a key. -/
def Sparse.find {α : Type} : Sparse α → Nat → Option α
  | [], _ => none
  | (k, v) :: r, a => if k = a then some v else Sparse.find r a

/-- Put an entry, keeping keys rising. -/
def Sparse.put {α : Type} : Sparse α → Nat → α → Sparse α
  | [], a, x => [(a, x)]
  | (k, v) :: r, a, x =>
    if a < k then (a, x) :: (k, v) :: r
    else if a = k then (a, x) :: r
    else (k, v) :: Sparse.put r a x

/-- Remove a key. -/
def Sparse.erase {α : Type} : Sparse α → Nat → Sparse α
  | [], _ => []
  | (k, v) :: r, a => if k = a then r else (k, v) :: Sparse.erase r a

/-- Apply a function to every entry. -/
def Sparse.mapVals {α : Type} (f : α → α) (m : Sparse α) : Sparse α := m.map (fun p => (p.1, f p.2))

/-! ## Memories -/

/-- What a byte that no cell lists reads as: the manual gives RAM no contents after reset (log 4, DESIGN CHOICE). -/
def Memory.unlisted : Byte := 0

/-- One byte of a memory. -/
def Memory.read : List Host.Cell → Nat → Byte
  | [], _ => Memory.unlisted
  | (k, v) :: r, a => if k = a then v else Memory.read r a

/-- Write one byte, keeping addresses rising and no cell equal to the unlisted byte. -/
def Memory.write : List Host.Cell → Nat → Byte → List Host.Cell
  | [], a, x => if x = Memory.unlisted then [] else [(a, x)]
  | (k, v) :: r, a, x =>
    if a < k then (if x = Memory.unlisted then (k, v) :: r else (a, x) :: (k, v) :: r)
    else if a = k then (if x = Memory.unlisted then r else (a, x) :: r)
    else (k, v) :: Memory.write r a x

/-- The canonical form above an address: every cell's address lies at or above it, they rise, and none reads as an
unlisted cell does. -/
def Memory.wfFrom : Nat → List Host.Cell → Bool
  | _, [] => true
  | lo, (k, v) :: r => lo ≤ k && v != Memory.unlisted && Memory.wfFrom (k + 1) r

/-- The canonical form of a memory. -/
def Memory.wf (m : List Host.Cell) : Bool := Memory.wfFrom 0 m

/-- `n` bytes from an address upward. -/
def Memory.readBytes (m : List Host.Cell) (a n : Nat) : List Byte :=
  (List.range n).map (fun i => Memory.read m (a + i))

/-- Write bytes from an address upward. -/
def Memory.writeBytes : List Host.Cell → Nat → List Byte → List Host.Cell
  | m, _, [] => m
  | m, a, b :: r => Memory.writeBytes (Memory.write m a b) (a + 1) r

/-- Write those bytes that are given, from an address upward. -/
def Memory.writeSome : List Host.Cell → Nat → List (Option Byte) → List Host.Cell
  | m, _, [] => m
  | m, a, none :: r => Memory.writeSome m (a + 1) r
  | m, a, some b :: r => Memory.writeSome (Memory.write m a b) (a + 1) r

/-! ## Byte order (R3) -/

/-- The number a list of bytes holds, low byte first. -/
def leNat : List Byte → Nat
  | [] => 0
  | b :: r => b.toNat + 256 * leNat r

/-- The `n` low bytes of a number, low byte first. -/
def leBytes : Nat → Nat → List Byte
  | 0, _ => []
  | n + 1, v => BitVec.ofNat 8 v :: leBytes n (v / 256)

/-- The little-endian number of `n` bytes at an address. -/
def Memory.readNat (m : List Host.Cell) (a n : Nat) : Nat := leNat (Memory.readBytes m a n)

/-- Bits `hi` down to `lo` of a number. -/
def bits (v hi lo : Nat) : Nat := (v / 2 ^ lo) % 2 ^ (hi + 1 - lo)

/-- Sign-extend the low `w` bits of a number. -/
def sext (w v : Nat) : Int := if v % 2 ^ w < 2 ^ (w - 1) then (v % 2 ^ w : Nat) else (v % 2 ^ w : Nat) - (2 ^ w : Nat)

/-- The low `w` bits of an integer. -/
def wrapTo (w : Nat) (x : Int) : Nat := (x % (2 ^ w : Nat)).toNat

/-- The sum of a list. -/
def sumNat : List Nat → Nat
  | [] => 0
  | a :: r => a + sumNat r

/-- The largest of a list, at least the given one. -/
def maxNat : Nat → List Nat → Nat
  | k, [] => k
  | k, a :: r => maxNat (Nat.max k a) r

/-- Drop repeats, keeping first occurrences. -/
def dedup {α : Type} [DecidableEq α] : List α → List α
  | [] => []
  | a :: r => a :: (dedup r).filter (fun b => b ≠ a)

end Sys2Proof.Machine
end

