-- ==== Sys2Proof/Machine/Flags.lean ====
section
/-!
DEFINITION. The arithmetic flags of arst (R47), how they are merged into a bank (R48), and how an enabled flag raises an
arithmetic trap (R49).
-/
namespace Sys2Proof.Machine

/-- A set of flags, in the bit order of arst 7:0 (R47). -/
abbrev FlagSet := BitVec 8

/-- INX: inexact. -/
def Flag.inx : FlagSet := 0x01
/-- OVF: overflow. -/
def Flag.ovf : FlagSet := 0x02
/-- UNF: underflow. -/
def Flag.unf : FlagSet := 0x04
/-- INV: invalid operation. -/
def Flag.inv : FlagSet := 0x08
/-- LSAT: log saturation. -/
def Flag.lsat : FlagSet := 0x10
/-- LUF: log underflow to zero. -/
def Flag.luf : FlagSet := 0x20
/-- NAR: a NaR read or produced. -/
def Flag.nar : FlagSet := 0x40
/-- SATI: integer saturation. -/
def Flag.sati : FlagSet := 0x80

/-- A flag if the condition holds. -/
def Flag.when (c : Bool) (f : FlagSet) : FlagSet := if c then f else 0

/-- The flags of a set that are enabled to trap (R47: bits 15:8 enable bits 7:0). -/
def Bank.enabled (b : Bank) (f : FlagSet) : FlagSet := f &&& b.arst.extractLsb' 8 8

/-- OR flags into arst; no flag is ever cleared by an operation (R47). -/
def Bank.orFlags (b : Bank) (f : FlagSet) : Bank := { b with arst := b.arst ||| f.setWidth 16 }

/-- Flags merge, and whether they trap is settled when the cycle ends (R48, R49). -/
def Bank.merge (b : Bank) (m : Merge) : Bank :=
  if m.flags = 0 then b else { b.orFlags m.flags with merges := b.merges ++ [m] }

/-- The flags that were merged in this cycle. -/
def Bank.mergedNow (b : Bank) : FlagSet := b.merges.foldl (fun f m => f ||| m.flags) 0

/-- A CSRW to arst: bits 63:16 are read-only (R47). The write is applied first, and the flags of what completes in the same cycle are ORed
in after it (R48). -/
def Bank.writeArst (b : Bank) (v : Word) : Bank := { b with arst := v.setWidth 16 ||| b.mergedNow.setWidth 16 }

/-- The flags of a completing control-stream or vector word merge (R48). -/
def Bank.completeFlags (b : Bank) (f : FlagSet) (pc : BitVec 15) (vec : Bool) : Bank :=
  b.merge { flags := f, pc := pc, vecUnit := vec, eng := none }

/-- A merge raises its trap if a flag of it is enabled: an arithmetic trap of a stream's word, an imprecise one of an engine (R49). -/
def Bank.settleOne (b : Bank) (m : Merge) : Bank :=
  let f := b.enabled m.flags
  if f = 0 then b
  else match m.eng with
    | none => { b with arith := b.arith ++ [{ pc := m.pc, aflags := f, vecUnit := m.vecUnit, active := b.trap.act }] }
    | some t => { b with imps := b.imps ++ [{ t with aflags := f }], woken := true }

/-- The cycle's merges raise their traps (R48, R49). -/
def Bank.settle (b : Bank) : Bank := { b.merges.foldl Bank.settleOne b with merges := [] }

end Sys2Proof.Machine
end

