-- ==== Sys2Proof/Machine/Float.lean ====
section
/-!
DEFINITION. Integer and IEEE arithmetic as the manual fixes it: exact results, then one rounding (R26 to R30), with the
flags of R29. Values are exact dyadic numbers between reading and rounding.
-/
namespace Sys2Proof.Machine

/-! ## Formats (R27) -/

/-- Exponent bits of a floating format. -/
def Fmt.eb : Fmt → Nat
  | .f16 => 5
  | .i8 | .i16 | .i32 | .i64 | .n8 | .n16 | .n32 | .n64 | .bf16 | .f32 | .l4 | .l8 | .l16 | .h4 | .h8 => 8

/-- Fraction bits of a floating format. -/
def Fmt.mb : Fmt → Nat
  | .f16 => 10
  | .bf16 => 7
  | .i8 | .i16 | .i32 | .i64 | .n8 | .n16 | .n32 | .n64 | .f32 | .l4 | .l8 | .l16 | .h4 | .h8 => 23

/-- The bias. -/
def Fmt.bias (t : Fmt) : Nat := 2 ^ (Fmt.eb t - 1) - 1
/-- The exponent of one unit of the last place of a subnormal. -/
def Fmt.qmin (t : Fmt) : Int := 1 - (Fmt.bias t : Int) - (Fmt.mb t : Int)
/-- The bits of +∞. -/
def Fmt.infBits (t : Fmt) : Nat := (2 ^ Fmt.eb t - 1) * 2 ^ Fmt.mb t
/-- The canonical quiet NaN (R27). -/
def Fmt.nanBits (t : Fmt) : Nat := Fmt.infBits t + 2 ^ (Fmt.mb t - 1)
/-- The sign bit. -/
def Fmt.signBit (t : Fmt) : Nat := 2 ^ (Fmt.eb t + Fmt.mb t)
/-- The bits of a magnitude with a sign. -/
def Fmt.withSign (t : Fmt) (neg : Bool) (mag : Nat) : Nat := if neg then Fmt.signBit t + mag else mag

/-- The exact dyadic number ±m·2^e; a zero keeps its sign. -/
structure Dy where
  neg : Bool
  m : Nat
  e : Int
  deriving DecidableEq, Repr

/-- A floating value, exact. -/
inductive FVal where
  | nan (sig : Bool)
  | inf (neg : Bool)
  | num (d : Dy)
  deriving DecidableEq, Repr

/-- The value of the low bits of a number in a floating format (R27). -/
def FVal.ofBits (t : Fmt) (n : Nat) : FVal :=
  let fr := n % 2 ^ Fmt.mb t
  let ex := (n / 2 ^ Fmt.mb t) % 2 ^ Fmt.eb t
  let neg := (n / Fmt.signBit t) % 2 == 1
  if ex = 2 ^ Fmt.eb t - 1 then
    (if fr = 0 then .inf neg else .nan (fr < 2 ^ (Fmt.mb t - 1)))
  else if ex = 0 then .num { neg := neg, m := fr, e := Fmt.qmin t }
  else .num { neg := neg, m := fr + 2 ^ Fmt.mb t, e := Fmt.qmin t + (ex - 1 : Nat) }

/-- A signalling NaN. -/
def FVal.isSig : FVal → Bool
  | .nan s => s
  | .inf _ | .num _ => false

/-- A NaN. -/
def FVal.isNan : FVal → Bool
  | .nan _ => true
  | .inf _ | .num _ => false

/-- The sign of a value that is no NaN. -/
def FVal.sign : FVal → Bool
  | .nan _ => false
  | .inf n => n
  | .num d => d.neg

/-- −x; a NaN stays a NaN. -/
def FVal.negate : FVal → FVal
  | .nan s => .nan s
  | .inf n => .inf !n
  | .num d => .num { d with neg := !d.neg }

/-- |x|. -/
def FVal.magnitude : FVal → FVal
  | .nan s => .nan s
  | .inf _ => .inf false
  | .num d => .num { d with neg := false }

/-- y·2^k. -/
def FVal.scale (k : Int) : FVal → FVal
  | .nan s => .nan s
  | .inf n => .inf n
  | .num d => .num { d with e := d.e + k }

/-! ## Rounding (R28, R29) -/

/-- m·2^(−d) rounded to an integer in a mode, and whether that was inexact. -/
def roundShift (mode : RMode) (neg : Bool) (m : Nat) (d : Int) : Nat × Bool :=
  if d ≤ 0 then (m * 2 ^ (-d).toNat, false)
  else
    let k := d.toNat
    let n := m / 2 ^ k
    let r := m % 2 ^ k
    if r = 0 then (n, false)
    else
      let up := match mode with
        | .rne => 2 * r > 2 ^ k || (2 * r == 2 ^ k && n % 2 == 1)
        | .rtz => false
        | .rup => !neg
        | .rdn => neg
      (if up then n + 1 else n, true)

/-- The bits an overflow delivers (R28). -/
def overflowBits (t : Fmt) (mode : RMode) (neg : Bool) : Nat :=
  let toInf := match mode with
    | .rne => true
    | .rtz => false
    | .rup => !neg
    | .rdn => neg
  Fmt.withSign t neg (if toInf then Fmt.infBits t else Fmt.infBits t - 1)

/-- Round an exact dyadic number into a format, once, with the flags of R29. -/
def roundDy (t : Fmt) (mode : RMode) (x : Dy) : Nat × FlagSet :=
  if x.m = 0 then (Fmt.withSign t x.neg 0, 0)
  else
    let mb := Fmt.mb t
    let qmin := Fmt.qmin t
    let qu := x.e + (Nat.log2 x.m : Int) - (mb : Int)
    let q := if qu < qmin then qmin else qu
    let (n, ix) := roundShift mode x.neg x.m (q - x.e)
    let (nu, _) := roundShift mode x.neg x.m (qu - x.e)
    let field := (q - qmin).toNat * 2 ^ mb + n
    if field ≥ Fmt.infBits t then (overflowBits t mode x.neg, Flag.ovf ||| Flag.inx)
    else
      let tiny := qu < qmin && !(qu == qmin - 1 && nu == 2 ^ (mb + 1))
      (Fmt.withSign t x.neg field, Flag.when ix Flag.inx ||| Flag.when (tiny && ix) Flag.unf)

/-- Round an exact result; every NaN is canonical (R29). Under `sat` an overflow delivers the largest finite magnitude
and keeps its flags (R64). -/
def roundVal (t : Fmt) (mode : RMode) (sat : Bool) : FVal → Nat × FlagSet
  | .nan _ => (Fmt.nanBits t, 0)
  | .inf n => (Fmt.withSign t n (Fmt.infBits t), 0)
  | .num d =>
    let (b, f) := roundDy t mode d
    if sat && (f &&& Flag.ovf) != 0 then (Fmt.withSign t d.neg (Fmt.infBits t - 1), f) else (b, f)

/-! ## Exact operations -/

/-- The signed integer of a dyadic number in units of 2^e. -/
def Dy.atExp (d : Dy) (e : Int) : Int :=
  let n : Int := (d.m * 2 ^ (d.e - e).toNat : Nat)
  if d.neg then -n else n

/-- The dyadic number of an integer in units of 2^e; `zneg` is the sign of a zero. -/
def Dy.ofInt (n : Int) (e : Int) (zneg : Bool) : Dy :=
  if n = 0 then { neg := zneg, m := 0, e := e } else { neg := n < 0, m := n.natAbs, e := e }

/-- The exact sum; an exact zero takes the sign of R28. -/
def Dy.add (mode : RMode) (x y : Dy) : Dy :=
  let e := if x.e < y.e then x.e else y.e
  let zneg := if x.m = 0 && y.m = 0 && x.neg == y.neg then x.neg else mode == .rdn
  Dy.ofInt (x.atExp e + y.atExp e) e zneg

/-- The exact product. -/
def Dy.mul (x y : Dy) : Dy := { neg := x.neg != y.neg, m := x.m * y.m, e := x.e + y.e }

/-- INV for a signalling operand (R29). -/
def sigFlag (l : List FVal) : FlagSet := Flag.when (l.any FVal.isSig) Flag.inv

/-- x + y, exact (R28, R29). -/
def FVal.add (mode : RMode) (x y : FVal) : FVal × FlagSet :=
  match x, y with
  | .nan _, _ => (.nan false, sigFlag [x, y])
  | _, .nan _ => (.nan false, sigFlag [x, y])
  | .inf a, .inf b => if a = b then (.inf a, 0) else (.nan false, Flag.inv)
  | .inf a, .num _ => (.inf a, 0)
  | .num _, .inf b => (.inf b, 0)
  | .num a, .num b => (.num (Dy.add mode a b), 0)

/-- x · y, exact. -/
def FVal.mul (x y : FVal) : FVal × FlagSet :=
  match x, y with
  | .nan _, _ => (.nan false, sigFlag [x, y])
  | _, .nan _ => (.nan false, sigFlag [x, y])
  | .inf a, .inf b => (.inf (a != b), 0)
  | .inf a, .num d => if d.m = 0 then (.nan false, Flag.inv) else (.inf (a != d.neg), 0)
  | .num d, .inf b => if d.m = 0 then (.nan false, Flag.inv) else (.inf (d.neg != b), 0)
  | .num a, .num b => (.num (Dy.mul a b), 0)

/-- x · y + z, exact. An invalid product sets INV beside a NaN addend too (R29; log 12). -/
def FVal.fma (mode : RMode) (x y z : FVal) : FVal × FlagSet :=
  let (p, f) := FVal.mul x y
  let (r, g) := FVal.add mode p z
  (r, f ||| g)

/-- x < y for values that are no NaN; `z` orders −0 below +0 (R109) when true and equal to it when false (R110). -/
def FVal.below (z : Bool) (x y : FVal) : Bool :=
  match x, y with
  | .nan _, _ => false
  | _, .nan _ => false
  | .inf a, .inf b => a && !b
  | .inf a, .num _ => a
  | .num _, .inf b => !b
  | .num a, .num b =>
    let e := if a.e < b.e then a.e else b.e
    a.atExp e < b.atExp e || (z && a.m == 0 && b.m == 0 && a.neg && !b.neg)

/-- FMIN: a NaN operand gives a NaN (R109). -/
def FVal.min (x y : FVal) : FVal × FlagSet :=
  if x.isNan || y.isNan then (.nan false, sigFlag [x, y]) else (if FVal.below true y x then y else x, 0)

/-- FMAX (R109). -/
def FVal.max (x y : FVal) : FVal × FlagSet :=
  if x.isNan || y.isNan then (.nan false, sigFlag [x, y]) else (if FVal.below true x y then y else x, 0)

/-- A floating comparison (R110): the truth value and the flags. -/
def FVal.compare (k : Cond) (x y : FVal) : Bool × FlagSet :=
  let nan := x.isNan || y.isNan
  let quiet := sigFlag [x, y]
  let ordered := Flag.when nan Flag.inv
  let lt := FVal.below false x y
  let gt := FVal.below false y x
  match k with
  | .eq => (!nan && !lt && !gt, quiet)
  | .ne => (nan || lt || gt, quiet)
  | .un => (nan, quiet)
  | .lt => (lt, ordered)
  | .le => (!nan && !gt, ordered)
  | .gt => (gt, ordered)
  | .ge => (!nan && !lt, ordered)

/-! ## Integers (R26, R101) -/

/-- The integer in the low w bits of a number. -/
def readInt (t : Fmt) (n : Nat) : Int := if t.signed then sext t.width n else (n % 2 ^ t.width : Nat)

/-- The least value of an integer type. -/
def intMin (t : Fmt) : Int := if t.signed then -(2 ^ (t.width - 1) : Nat) else 0
/-- The greatest value of an integer type. -/
def intMax (t : Fmt) : Int := if t.signed then (2 ^ (t.width - 1) : Nat) - 1 else (2 ^ t.width : Nat) - 1

/-- SatInt: the clamped value, with SATI whenever it clamps (R26). -/
def satInt (t : Fmt) (x : Int) : Int × FlagSet :=
  if x < intMin t then (intMin t, Flag.sati)
  else if x > intMax t then (intMax t, Flag.sati)
  else (x, 0)

/-- The low w bits of an exact integer result: wrapped, or saturated (R26). -/
def finishInt (t : Fmt) (sat : Bool) (x : Int) : Nat × FlagSet :=
  if sat then
    let (y, f) := satInt t x
    (wrapTo t.width y, f)
  else (wrapTo t.width x, 0)

/-- The result bits of an integer or floating type as a 64-bit register holds them (R101). -/
def toWord (t : Fmt) (n : Nat) : Word :=
  if t.signed then BitVec.ofInt 64 (sext t.width n) else BitVec.ofNat 64 (n % 2 ^ t.width)

/-- An integer comparison. -/
def compareInt (k : Cond) (x y : Int) : Bool :=
  match k with
  | .eq => x == y
  | .ne => x != y
  | .lt => x < y
  | .le => x ≤ y
  | .gt => x > y
  | .ge => x ≥ y
  | .un => false

/-- Division truncated toward zero, with the fixed result of a division by zero: all ones (R102). -/
def divInt (t : Fmt) (x y : Int) : Int :=
  if y = 0 then (if t.signed then -1 else intMax t) else Int.tdiv x y

/-- The remainder, whose sign follows x; x itself for a division by zero (R102). -/
def remInt (x y : Int) : Int := if y = 0 then x else Int.tmod x y

/-! ## Conversions (R30, R111) -/

/-- An integer as an exact floating value. -/
def FVal.ofInt (n : Int) : FVal := .num (Dy.ofInt n 0 false)

/-- A floating value rounded to an integer and clamped (R30). -/
def floatToInt (t : Fmt) (mode : RMode) : FVal → Nat × FlagSet
  | .nan _ => (0, Flag.inv)
  | .inf n => (wrapTo t.width (if n then intMin t else intMax t), Flag.sati)
  | .num d =>
    let (n, ix) := roundShift mode d.neg d.m (-d.e)
    let (y, f) := satInt t (if d.neg then -(n : Int) else n)
    (wrapTo t.width y, f ||| Flag.when ix Flag.inx)

end Sys2Proof.Machine
end

