-- ==== Sys2Proof/Machine/Transc.lean ====
section
/-!
DEFINITION. The four functions of R132, each rounded once from the exact value. A value that is no dyadic number is
enclosed by exact integer arithmetic tightly enough that its leading bits are certain; the enclosure is tried at growing
precision (log 13).
-/
namespace Sys2Proof.Machine

/-- The integer square root by Newton's steps from above; the fuel bounds their number. -/
def isqrtFrom (n : Nat) : Nat → Nat → Nat
  | 0, x => x
  | fuel + 1, x =>
    let y := (x + n / x) / 2
    if y < x then isqrtFrom n fuel y else x

/-- The integer square root. -/
def isqrt (n : Nat) : Nat := if n = 0 then 0 else isqrtFrom n (Nat.log2 n + 4) (2 ^ (Nat.log2 n / 2 + 1))

/-- A value of which m·2^e is the largest multiple of 2^e at or below it, not that multiple itself unless `exact`. -/
def Dy.leading (neg : Bool) (m : Nat) (e : Int) (exact : Bool) : Dy :=
  if exact then { neg := neg, m := m, e := e } else { neg := neg, m := 2 * m + 1, e := e - 1 }

/-- 1/x of a non-zero dyadic number, to 64 leading bits. -/
def Dy.recip (d : Dy) : Dy :=
  let s := Nat.log2 d.m + 64
  Dy.leading d.neg (2 ^ s / d.m) (-(s : Int) - d.e) (2 ^ s % d.m == 0)

/-- 1/√x of a positive dyadic number, to about 64 leading bits. -/
def Dy.rsqrt (d : Dy) : Dy :=
  -- make the exponent even, then √(2^(2s) / m)
  let (m, e) := if d.e % 2 = 0 then (d.m, d.e) else (2 * d.m, d.e - 1)
  let s := Nat.log2 m + 64
  let q := 2 ^ (2 * s) / m
  let r := isqrt q
  Dy.leading false r (-(s : Int) - e / 2) (r * r == q && 2 ^ (2 * s) % m == 0)

/-! ## Enclosures: natural numbers in units of 2^(−P), a lower and an upper bound -/

/-- An enclosure of a real number. -/
structure Encl where
  lo : Nat
  hi : Nat
  deriving DecidableEq, Repr

/-- The product of two enclosures at precision P. -/
def Encl.mul (P : Nat) (x y : Encl) : Encl := { lo := x.lo * y.lo / 2 ^ P, hi := x.hi * y.hi / 2 ^ P + 1 }

/-- The square root of an enclosure at precision P. -/
def Encl.sqrt (P : Nat) (x : Encl) : Encl := { lo := isqrt (x.lo * 2 ^ P), hi := isqrt (x.hi * 2 ^ P) + 1 }

/-- The product over the set bits of f, from bit k − 1 down, of 2^(2^−i), where bit k − i of f counts 2^−i; c encloses
2^(2^−(i−1)). -/
def exp2Frac (P f : Nat) : Nat → Encl → Encl → Encl
  | 0, _, acc => acc
  | k + 1, c, acc =>
    let c := c.sqrt P
    exp2Frac P f k c (if (f / 2 ^ k) % 2 = 1 then acc.mul P c else acc)

/-- The leading bits of 2^(f·2^−k) for 0 < f < 2^k, once an enclosure decides 40 of them. -/
def exp2Try (f k : Nat) : Nat → Nat → Nat
  | 0, P => (exp2Frac P f k { lo := 2 ^ (P + 1), hi := 2 ^ (P + 1) } { lo := 2 ^ P, hi := 2 ^ P }).lo / 2 ^ (P - 40)
  | fuel + 1, P =>
    let x := exp2Frac P f k { lo := 2 ^ (P + 1), hi := 2 ^ (P + 1) } { lo := 2 ^ P, hi := 2 ^ P }
    if x.lo / 2 ^ (P - 40) = x.hi / 2 ^ (P - 40) then x.lo / 2 ^ (P - 40) else exp2Try f k fuel (2 * P)

/-- 2^x of a dyadic number. Beyond ±2^14 the result rounds as 2^(±2^14) does in every format and at every scale. -/
def Dy.exp2 (d : Dy) : Dy :=
  if d.m = 0 then { neg := false, m := 1, e := 0 }
  else if (Nat.log2 d.m : Int) + d.e ≥ 14 then { neg := false, m := 1, e := if d.neg then -16384 else 16384 }
  else if d.e ≥ 0 then { neg := false, m := 1, e := d.atExp 0 }
  else
    let k := (-d.e).toNat
    let n : Int := if d.neg then -(d.m : Int) else d.m
    let ip := n / (2 ^ k : Nat)
    let f := (n - ip * (2 ^ k : Nat)).toNat
    if f = 0 then { neg := false, m := 1, e := ip }
    else Dy.leading false (exp2Try f k 6 (256 + 2 * k)) (ip - 40) false

/-- One bit of a binary logarithm by squaring, for each unit of fuel: x encloses a number in [1, 2); acc collects the
bits; none when the enclosure does not decide a bit. -/
def log2Bits (P : Nat) : Nat → Encl → Nat → Option Nat
  | 0, _, acc => some acc
  | k + 1, x, acc =>
    let y := x.mul P x
    if y.lo ≥ 2 ^ (P + 1) then log2Bits P k { lo := y.lo / 2, hi := y.hi / 2 + 1 } (2 * acc + 1)
    else if y.hi < 2 ^ (P + 1) then log2Bits P k y (2 * acc)
    else none

/-- 96 bits of the fraction of log2 m, once an enclosure decides them. -/
def log2Try (m : Nat) : Nat → Nat → Nat
  | 0, _ => 0
  | fuel + 1, P =>
    let x := m * 2 ^ P / 2 ^ Nat.log2 m
    match log2Bits P 96 { lo := x, hi := x } 0 with
    | some b => b
    | none => log2Try m fuel (2 * P)

/-- log2 x of a positive dyadic number: exact at a power of two, else irrational. -/
def Dy.log2 (d : Dy) : Dy :=
  let ip : Int := (Nat.log2 d.m : Int) + d.e
  if d.m = 2 ^ Nat.log2 d.m then Dy.ofInt ip 0 false
  else
    -- the exact value lies strictly between n and n + 1 units of 2^−96
    let n : Int := ip * (2 ^ 96 : Nat) + (log2Try d.m 6 320 : Nat)
    if n ≥ 0 then Dy.leading false n.toNat (-96) false else Dy.leading true (-(n + 1)).toNat (-96) false

/-! ## The table of R132 -/

/-- VRCP. -/
def FVal.recip : FVal → FVal × FlagSet
  | .nan s => (.nan false, Flag.when s Flag.inv)
  | .inf n => (.num { neg := n, m := 0, e := 0 }, 0)
  | .num d => if d.m = 0 then (.inf d.neg, 0) else (.num d.recip, 0)

/-- VRSQ. -/
def FVal.rsqrt : FVal → FVal × FlagSet
  | .nan s => (.nan false, Flag.when s Flag.inv)
  | .inf n => if n then (.nan false, Flag.inv) else (.num { neg := false, m := 0, e := 0 }, 0)
  | .num d =>
    if d.m = 0 then (.inf d.neg, 0)
    else if d.neg then (.nan false, Flag.inv)
    else (.num d.rsqrt, 0)

/-- VEXP2. -/
def FVal.exp2 : FVal → FVal × FlagSet
  | .nan s => (.nan false, Flag.when s Flag.inv)
  | .inf n => (if n then .num { neg := false, m := 0, e := 0 } else .inf false, 0)
  | .num d => (.num d.exp2, 0)

/-- VLOG2. -/
def FVal.log2 : FVal → FVal × FlagSet
  | .nan s => (.nan false, Flag.when s Flag.inv)
  | .inf n => if n then (.nan false, Flag.inv) else (.inf false, 0)
  | .num d =>
    if d.m = 0 then (.inf true, 0)
    else if d.neg then (.nan false, Flag.inv)
    else (.num d.log2, 0)

end Sys2Proof.Machine
end

