-- ==== Sys2Proof/Machine/Lns.lean ====
section
/-!
DEFINITION. The logarithmic formats, the block scale, the published tables, and the half-step formats (R31 to R43).
-/
namespace Sys2Proof.Machine

/-- Fractional bits f of an L format (R31). -/
def Fmt.frac : Fmt → Nat
  | .l4 => 1
  | .l16 => 8
  | .i8 | .i16 | .i32 | .i64 | .n8 | .n16 | .n32 | .n64 | .f16 | .bf16 | .f32 | .l8 | .h4 | .h8 => 4

/-- The code bound cmax (R35): the greatest log code of an L format. -/
def Fmt.cmax (t : Fmt) : Int := (2 ^ (t.width - 2) : Nat) - 1

/-- The zero code (R31). -/
def Fmt.lzero (t : Fmt) : Nat := 2 ^ (t.width - 2)
/-- The NaR code (R31). -/
def Fmt.lnar (t : Fmt) : Nat := 2 ^ (t.width - 1) + 2 ^ (t.width - 2)

/-- The code of a sign and a log code. -/
def Fmt.lcode (t : Fmt) (neg : Bool) (q : Int) : Nat := (if neg then 2 ^ (t.width - 1) else 0) + wrapTo (t.width - 1) q

/-- A code read: zero, NaR, or a sign and a log code (R31). -/
def LogVal.ofCode (t : Fmt) (c : Nat) : LogVal :=
  let neg := (c / 2 ^ (t.width - 1)) % 2 == 1
  let q := sext (t.width - 1) c
  if q = -(2 ^ (t.width - 2) : Nat) then (if neg then .nar else .zero) else .val neg q

/-- The scale of a B10 code; 0x200 marks an all-zero block (R34). -/
def b10Scale (c : Nat) : Int := sext 10 c
/-- The all-zero marker (R34). -/
def b10AllZero (c : Nat) : Bool := c % 1024 == 0x200

/-- The integer at or below log2 (m^K·2^(K·e)). -/
def Dy.log2Pow (d : Dy) (K : Nat) : Int := (Nat.log2 (d.m ^ K) : Int) + (K : Int) * d.e

/-- NearestInt(2^f·(log2 |x| − S/16)), ties to even, for a non-zero x (R35). -/
def nearestLog (f : Nat) (d : Dy) (S : Int) : Int :=
  match f with
  | 1 =>
    let v := Dy.log2Pow d 16 - S + 4
    let q := v / 8
    if d.m = 2 ^ Nat.log2 d.m ∧ v % 8 = 0 ∧ q % 2 ≠ 0 then q - 1 else q
  | 4 => (Dy.log2Pow d 32 + 1) / 2 - S
  | _ => (Dy.log2Pow d 512 + 1) / 2 - 16 * S

/-- LinToLog (R35). -/
def linToLog (t : Fmt) (S : Int) : FVal → Nat × FlagSet
  | .nan s => (Fmt.lnar t, Flag.nar ||| Flag.when s Flag.inv)
  | .inf n => (Fmt.lcode t n (Fmt.cmax t), Flag.lsat)
  | .num d =>
    if d.m = 0 then (Fmt.lzero t, 0)
    else
      let q := nearestLog (Fmt.frac t) d S
      if q > Fmt.cmax t then (Fmt.lcode t d.neg (Fmt.cmax t), Flag.lsat)
      else if q < -Fmt.cmax t then (Fmt.lzero t, Flag.luf)
      else (Fmt.lcode t d.neg q, 0)

/-- The L8 table (R38). -/
def T8 (f : Nat) : Nat :=
  [32768, 34219, 35734, 37316, 38968, 40693, 42495, 44376, 46341, 48393, 50535, 52773, 55109, 57549, 60097,
    62757].getD f 0

/-- The L16 table by its formula, round(2^(f/256)·2^23) (R40): the 256th root by eight square roots. -/
def T16 (f : Nat) : Nat :=
  (isqrt (isqrt (isqrt (isqrt (isqrt (isqrt (isqrt (isqrt (2 ^ (f + 256 * 24))))))))) + 1) / 2

/-- ±2^(E/2^g) through the table of resolution g (R37, R44). -/
def tableVal (g : Nat) (neg : Bool) (E : Int) : Dy :=
  if g = 4 then { neg := neg, m := T8 (E % 16).toNat, e := E / 16 - 15 }
  else { neg := neg, m := T16 (E % 256).toNat, e := E / 256 - 23 }

/-- The resolution at which a format's effective logs are taken (R34). -/
def Fmt.res (t : Fmt) : Nat := if t = .l16 then 8 else 4

/-- An effective log (R34): the log code and the block's scale at the finer resolution. -/
def effLog (t : Fmt) (q : Int) (S : Int) : Int :=
  match t with
  | .l4 => 8 * q + S
  | .l16 => q + 16 * S
  | .i8 | .i16 | .i32 | .i64 | .n8 | .n16 | .n32 | .n64 | .f16 | .bf16 | .f32 | .l8 | .h4 | .h8 => q + S

/-- LogToLin (R37); `sc` is the scale's 10-bit code. -/
def logToLin (t : Fmt) (c sc : Nat) : FVal × FlagSet :=
  if b10AllZero sc then (.num { neg := false, m := 0, e := 0 }, 0)
  else match LogVal.ofCode t c with
    | .zero => (.num { neg := false, m := 0, e := 0 }, 0)
    | .nar => (.nan false, Flag.nar)
    | .val neg q => (.num (tableVal (Fmt.res t) neg (effLog t q (b10Scale sc))), 0)

/-- The larger of two magnitudes, as VBSCALE looks for it. -/
def biggerMag (acc : Option Dy) : FVal → Option Dy
  | .nan _ => acc
  | .inf _ => acc
  | .num d =>
    if d.m = 0 then acc
    else match acc with
      | none => some { d with neg := false }
      | some a => if FVal.below false (.num a) (.num { d with neg := false }) then some { d with neg := false } else some a

/-- The scale code VBSCALE chooses for a block (R36). -/
def blockScale (t : Fmt) (xs : List FVal) : Nat :=
  match xs.foldl biggerMag none with
  | some m =>
    let T : Int := match t with
      | .l8 => 63
      | .l4 => 24
      | .i8 | .i16 | .i32 | .i64 | .n8 | .n16 | .n32 | .n64 | .f16 | .bf16 | .f32 | .l16 | .h4 | .h8 => 1023
    let S := (Dy.log2Pow m 32 + 1) / 2 - T
    wrapTo 10 (if S > 511 then 511 else if S < -511 then -511 else S)
  | none => if xs.any (fun x => match x with | .nan _ => true | .inf _ => true | .num _ => false) then 0 else 0x200

/-- The bounded conversion of R43 at resolution g, of the Anvil's streams and weights. An infinite element or weight takes the top of the bounded
range (DESIGN CHOICE, log 27). -/
def boundedLog (g : Nat) : FVal → LogVal × FlagSet
  | .nan s => (.nar, Flag.nar ||| Flag.when s Flag.inv)
  | .inf n => (.val n (if g = 4 then 574 else 24559), Flag.lsat)
  | .num d =>
    if d.m = 0 then (.zero, 0)
    else
      let top : Int := if g = 4 then 574 else 24559
      let q := nearestLog g d 0
      if q > top then (.val d.neg top, Flag.lsat)
      else if q < -top then (.zero, Flag.luf)
      else (.val d.neg q, 0)

/-! ## Half-step formats (R41, R139) -/

/-- The exact value s·(n + ½ − z) (R41). -/
def halfStepVal (s : FVal) (n z : Nat) : FVal × FlagSet :=
  let k : Int := 2 * (n : Int) + 1 - 2 * (z : Int)
  FVal.mul s (.num (Dy.ofInt k (-1) false))

/-- The nearest integer of p/q with q > 0, ties to even, and whether p/q is no integer. -/
def nearestRat (p : Int) (q : Nat) : Int × Bool :=
  let n := p / (q : Int)
  let r := (p % (q : Int)).toNat
  if r = 0 then (n, false)
  else (if 2 * r > q ∨ (2 * r = q ∧ n % 2 ≠ 0) then n + 1 else n, true)

/-- The code VQNT gives an element (R139), for a code width w. -/
def quantize (w : Nat) (x s : FVal) (z : Nat) : Nat × FlagSet :=
  match x, s with
  | .nan _, _ => (0, Flag.inv)
  | _, .nan _ => (0, Flag.inv)
  | _, .inf _ => (0, Flag.inv)
  | .inf n, .num d =>
    if d.m = 0 then (0, Flag.inv) else (if n != d.neg then 0 else 2 ^ w - 1, Flag.sati)
  | .num a, .num d =>
    if d.m = 0 then (0, Flag.inv)
    else
      -- x / s as p / q, then t = p/q + z − ½
      let k := a.e - d.e
      let p : Int := (a.m * 2 ^ k.toNat : Nat)
      let p := if a.neg != d.neg then -p else p
      let q := d.m * 2 ^ (-k).toNat
      let (n, ix) := nearestRat (2 * p + (2 * (z : Int) - 1) * (q : Int)) (2 * q)
      let top : Int := (2 ^ w : Nat) - 1
      let c := n < 0 || n > top
      ((if n < 0 then 0 else if n > top then top else n).toNat, Flag.when ix Flag.inx ||| Flag.when c Flag.sati)

end Sys2Proof.Machine
end

