-- ==== Sys2Proof/Machine/Ops.lean ====
section
/-!
DEFINITION. The named operations over the state: cores, banks, registers and queues, values left open, messages on their
way, taking a trap and returning from one (R121 to R125), the event log (R334), and local memory with its guard granules
(R106, R151).
-/
namespace Sys2Proof.Machine

/-! ## Cores and banks -/

/-- The bank of a core by its number. -/
def Core.bank (c : Core) (b : Bool) : Bank := if b then c.bank1 else c.bank0

/-- Replace a bank of a core. -/
def Core.setBank (c : Core) (b : Bool) (x : Bank) : Core := if b then { c with bank1 := x } else { c with bank0 := x }

/-- Change a bank of a core. -/
def Core.modBank (c : Core) (b : Bool) (f : Bank → Bank) : Core := c.setBank b (f (c.bank b))

/-- A core by its module-linear index; one that nothing has touched is `blank` (log 2). -/
def State.core (s : State) (i : Nat) : Core := (Sparse.find s.cores i).getD s.blank

/-- Replace a core. -/
def State.setCore (s : State) (i : Nat) (c : Core) : State := { s with cores := Sparse.put s.cores i c }

/-- Change a core. -/
def State.modCore (s : State) (i : Nat) (f : Core → Core) : State := s.setCore i (f (s.core i))

/-- The core of the acting agent. -/
def State.cur (s : State) : Core := s.core s.focus.core

/-- Change the core of the acting agent. -/
def State.modCur (s : State) (f : Core → Core) : State := s.modCore s.focus.core f

/-- The bank of the acting agent. -/
def State.bank (s : State) : Bank := s.cur.bank s.focus.bank

/-- Replace the bank of the acting agent. -/
def State.setBank (s : State) (b : Bank) : State := s.modCur (fun c => c.setBank s.focus.bank b)

/-- Change the bank of the acting agent. -/
def State.modBank (s : State) (f : Bank → Bank) : State := s.setBank (f s.bank)

/-- A bank by core and number. -/
def State.bankAt (s : State) (i : Nat) (b : Bool) : Bank := (s.core i).bank b

/-- Change a bank by core and number. -/
def State.modBankAt (s : State) (i : Nat) (b : Bool) (f : Bank → Bank) : State := s.modCore i (fun c => c.modBank b f)

/-- The die of a core (R8, R11). -/
def dieOf (core : Nat) : Nat := core / 64

/-- The cluster of a core on its die (R11). -/
def clusterOf (core : Nat) : Nat := (core / 8) % 8

/-- A slice by die and number; one that nothing has touched is `blankSlice` (log 2). -/
def State.slice (s : State) (die sl : Nat) : Slice := (Sparse.find s.slices (die * 64 + sl)).getD s.blankSlice

/-- Change a slice. -/
def State.modSlice (s : State) (die sl : Nat) (f : Slice → Slice) : State :=
  { s with slices := Sparse.put s.slices (die * 64 + sl) (f (s.slice die sl)) }

/-- A compute die by number. -/
def State.die (s : State) (d : Nat) : Die := s.dies[d % 32]'(Nat.mod_lt _ (by decide))

/-- Change a compute die. -/
def State.modDie (s : State) (d : Nat) (f : Die → Die) : State :=
  { s with dies := s.dies.set (d % 32) (f (s.die d)) (Nat.mod_lt _ (by decide)) }

/-- A job by its number. -/
def State.job (s : State) (id : Nat) : Option Job := s.jobs.find? (fun j => j.id == id)

/-- Change a job. -/
def State.modJob (s : State) (id : Nat) (f : Job → Job) : State :=
  { s with jobs := s.jobs.map (fun j => if j.id == id then f j else j) }

/-! ## Places (R9, R11, R286) -/

/-- The distance between two numbers. -/
def apart (a b : Nat) : Nat := (a - b) + (b - a)

/-- The grid distance of two compute dies (R9); the dies of module m are numbered from 32 · (m + 1), away from this one's (log 9). -/
def dieDist (a b : Nat) : Nat :=
  if a / 32 = b / 32 then apart (a % 32 / 8) (b % 32 / 8) + apart (a % 8) (b % 8) else Config.evnovHops (a / 32) (b / 32)

/-- The mesh distance of two stops, counted as if both lay on one mesh (R11, R210). -/
def meshDist (a b : Nat) : Nat := apart ((a % 64) / 8) ((b % 64) / 8) + apart (a % 8) (b % 8)

/-- The time of a message between two stops given as die · 64 + stop (R286). -/
def pathTime (a b : Nat) : Nat := 48 * dieDist (a / 64) (b / 64) + 2 * meshDist a b

/-! ## Values left open, and messages (log 1) -/

/-- Advance the counter of free values. -/
def State.tick (s : State) : State := { s with free := s.free + 1 }

/-- How many cycles above its minimum the next latency takes. -/
def State.delay (s : State) : Nat := Config.delay s.free

/-- Send a step that arrives `min` cycles from now or later, on a channel or none. -/
def State.post (s : State) (min : Nat) (chan : Option (Nat × Nat × Nat)) (core : Nat) (bank : Bool) (eng : Option Eng)
    (ev : Instr) : State :=
  { s.tick with flights := s.flights ++
      [{ due := s.cycle + min + s.delay, chan := chan, core := core, bank := bank, eng := eng, ev := ev }] }

/-- Schedule a step for a fixed cycle. -/
def State.postAt (s : State) (due : Nat) (core : Nat) (bank : Bool) (eng : Option Eng) (ev : Instr) : State :=
  { s with flights := s.flights ++ [{ due := due, chan := none, core := core, bank := bank, eng := eng, ev := ev }] }

/-- A microsecond in units of the reference clock: 720720 is a multiple of every number of sixteenths that a cycle can last (R389). -/
def microUnits : Nat := 125 * 720720

/-- Schedule a step for a time of the reference clock, in units from now (R1). -/
def State.postIn (s : State) (units : Nat) (core : Nat) (bank : Bool) (eng : Option Eng) (ev : Instr) : State :=
  { s with flights := s.flights ++
      [{ due := s.cycle, ref := some (s.refTime + units), chan := none, core := core, bank := bank, eng := eng, ev := ev }] }

/-- Send a step to the acting core and bank. -/
def State.postHere (s : State) (min : Nat) (ev : Instr) : State :=
  s.post min none s.focus.core s.focus.bank none ev

/-! ## Logical time (R308, R311, R319) -/

/-- x ≼ y in the modular order of R308. -/
def ptsLe (x y : BitVec 16) : Bool := (y - x).toNat < 32768

/-- The later of two logical times. -/
def ptsMax (x y : BitVec 16) : BitVec 16 := if ptsLe x y then y else x

/-- The quarter of a logical time (R311). -/
def quarterOf (x : BitVec 16) : BitVec 2 := x.extractLsb' 14 2

/-- Set a core's pts by a tick or a jump; the first entry of any core into a new quarter makes a wrap step, which comes
before this cycle ends (R311, R328). -/
def State.setPts (s : State) (i : Nat) (v : BitVec 16) : State :=
  let old := (s.core i).pts
  let s := s.modCore i (fun c => { c with pts := v })
  if quarterOf old = quarterOf v || s.quarter = quarterOf v then s
  else { s.postAt s.cycle i false none (.wrapStep (quarterOf v)) with quarter := quarterOf v }

/-- An acquire brings a logical time to a core (R319); a read or write moves it on (R309). -/
def State.bumpPts (s : State) (i : Nat) (v : BitVec 16) : State := s.setPts i (ptsMax (s.core i).pts v)

/-! ## The event log (R334) -/

/-- Add a record, or count it as lost where the ring of 4096 is full. -/
def State.addLog (s : State) (r : LogRec) : State :=
  if s.log.length < 4096 then { s with log := s.log ++ [{ r with lost := s.logLost != 0 }], logLost := 0 }
  else { s with logLost := s.logLost + 1 }

/-- The job tag of a bank's job, or 0. -/
def State.jobTag (s : State) (b : Bank) : BitVec 16 :=
  match b.job with
  | none => 0
  | some id => match s.job id with
    | none => 0
    | some j => j.tag

/-- The key id of a bank's job: bits 14:8 of its policy word (R179). -/
def State.keyId (s : State) (b : Bank) : BitVec 7 :=
  match b.job.bind s.job with
  | none => 0
  | some j => j.rcd.policy.extractLsb' 8 7

/-- A record of a fault of the acting bank (R334). -/
def State.logHere (s : State) (code : BitVec 8) (addr : Word) (keyid : BitVec 7) : State :=
  s.addLog { code := code, lost := false, core := BitVec.ofNat 16 s.focus.core, module := Config.moduleNumber
             bank := s.focus.bank, keyid := keyid, addr := addr, jobtag := s.jobTag s.bank
             part := (s.die (dieOf s.focus.core)).part, time := s.cycle }

/-- A record of a fault that no bank of this module asked for (R334). -/
def State.logNobody (s : State) (code : BitVec 8) (addr : Word) (jobtag : BitVec 16) : State :=
  s.addLog { code := code, lost := false, core := 0xFFFF, module := Config.moduleNumber, bank := false, keyid := 0
             addr := addr, jobtag := jobtag, part := 0, time := s.cycle }

/-- The faults that enter the event log whoever receives them (R334). -/
def loggedCode (code : BitVec 8) : Bool := code == 0x08 || code == 0x1A

/-! ## Traps (R120 to R125) -/

/-- What a fault reports (R122). -/
structure TrapInfo where
  code : BitVec 8
  src : BitVec 4
  taddr : Word
  detail : BitVec 16
  name0 : Name
  name1 : Name
  aflags : BitVec 8
  mpc : BitVec 12
  skip : Bool
  deriving DecidableEq, Repr

/-- A fault of the control stream with no more to report. -/
def fault (code : BitVec 8) : TrapInfo :=
  { code := code, src := 0, taddr := 0, detail := 0, name0 := 0, name1 := 0, aflags := 0, mpc := 0, skip := false }

/-- A fault with a data address. -/
def faultAt (code : BitVec 8) (addr : Word) : TrapInfo := { fault code with taddr := addr }

/-- A fault with tinfo.detail. -/
def faultDetail (code : BitVec 8) (d : BitVec 16) : TrapInfo := { fault code with detail := d }

/-- A fault that names a touchmark (R122). -/
def faultName (code : BitVec 8) (n : Name) : TrapInfo := { fault code with name0 := n }

/-- The cycle after the last write of every fixed-latency word issued so far (R123). -/
def Bank.drained (b : Bank) : Nat := b.writes.foldl (fun m w => Nat.max m (w.due + 1)) 0

/-- Taking a trap on a bank: the record is written and the handler entered, three cycles on at the earliest; a bank
without a handler stops, and so does one in which a trap is active, which keeps its first record (R121 to R125). -/
def Bank.takeTrap (b : Bank) (cycle : Nat) (imp : Bool) (tpc rpc : BitVec 15) (t : TrapInfo) : Bank :=
  if b.trap.act then { b with status := .stopped (some t.code), prevIssue := cycle }
  else
    let b := { b with
      trap := { act := true, src := t.src, imp := imp, code := t.code, tpc := tpc, taddr := t.taddr, name0 := t.name0
                name1 := t.name1, aflags := t.aflags, mpc := t.mpc, detail := t.detail, rpc := rpc }
      prevIssue := cycle, bound := Nat.max (cycle + 3) b.drained }
    if b.tvecEn then { b with pc := b.tvecHdlr } else { b with status := .stopped none }

/-- Whether a bank has stopped for good on a trap. -/
def Bank.isStopped (b : Bank) : Bool :=
  match b.status with
  | .stopped _ => true
  | .vacant | .running | .idle | .halted | .atBar _ _ | .inStep _ | .held | .pageWait | .ended | .quenched => false

/-- The report of a bank that has stopped (R121, R125). -/
def Bank.stopReport (b : Bank) : Report :=
  { code := b.trap.code, pc := b.trap.tpc, addr := b.trap.taddr
    second := match b.status with
      | .stopped x => x
      | .vacant | .running | .idle | .halted | .atBar _ _ | .inStep _ | .held | .pageWait | .ended | .quenched => none
    pred := 0, rcd := some b.trap }

/-- After a trap of the acting bank: a bank that stopped fails its job (R121). -/
def State.afterTrap (s : State) : State :=
  if s.bank.isStopped then
    match s.bank.job with
    | none => s
    | some id => (s.modJob id (fun j => if j.report.isNone then { j with report := some s.bank.stopReport } else j)).postHere
        1 (.jobFail id)
  else s

/-- A precise trap of the acting bank at its pc (R123): the word has no effect; `skip` resumes after it (R118). -/
def State.trap (s : State) (t : TrapInfo) : State :=
  let s := if loggedCode t.code then s.logHere t.code t.taddr (s.keyId s.bank) else s
  let pc := s.bank.pc
  (s.modBank (fun b => b.takeTrap s.cycle false pc (if t.skip then pc + 1 else pc) t)).afterTrap

/-- A fault as a bank holds it from a cycle on (R124). -/
def TrapInfo.held (t : TrapInfo) (cycle : Nat) : ImpTrap :=
  { code := t.code, src := t.src, taddr := t.taddr, detail := t.detail, mpc := t.mpc, aflags := t.aflags, name0 := t.name0
    name1 := t.name1, arrived := cycle }

/-- A held fault as it was reported. -/
def ImpTrap.info (t : ImpTrap) : TrapInfo :=
  { code := t.code, src := t.src, taddr := t.taddr, detail := t.detail, name0 := t.name0, name1 := t.name1, aflags := t.aflags
    mpc := t.mpc, skip := false }

/-- Hold an imprecise trap for a bank until its next boundary (R124). -/
def State.holdTrap (s : State) (core : Nat) (bank : Bool) (t : TrapInfo) : State :=
  s.modBankAt core bank (fun b => { b with imps := b.imps ++ [t.held s.cycle], woken := true })

/-- Flags of an engine's command merge into the owning bank when it completes; the trap they may raise names the engine and its word
(R48, R49). -/
def State.mergeFlags (s : State) (core : Nat) (bank : Bool) (f : FlagSet) (src : BitVec 4) (detail : BitVec 16) (upc : BitVec 12) : State :=
  s.modBankAt core bank (fun b => b.merge
    { flags := f, pc := 0, vecUnit := false
      eng := some ({ fault 0x1E with src := src, detail := detail, mpc := upc }.held s.cycle) })

/-- The held trap that is delivered first: the oldest, and of one cycle the lowest from code (R124). -/
def firstImp : List ImpTrap → Option ImpTrap
  | [] => none
  | t :: r =>
    match firstImp r with
    | none => some t
    | some u => if u.arrived < t.arrived || (u.arrived == t.arrived && u.src < t.src) then some u else some t

/-- Deliver the first held imprecise trap (R124). -/
def State.deliverImprecise (s : State) : State :=
  match firstImp s.bank.imps with
  | none => s
  | some t =>
    if s.bank.trap.act then s
    else
      let s := s.modBank (fun b => { b with imps := b.imps.erase t })
      let pc := s.bank.pc
      (s.modBank (fun b => b.takeTrap s.cycle true pc pc t.info)).afterTrap

/-- The arithmetic trap that a bank delivers next: the oldest; while a trap is active, only one that was raised then, which stops the bank
(R49). One raised before waits for the RETT, as traps held together do (R124; log 18). -/
def Bank.arithDue (b : Bank) : Option ArithTrap := b.arith.find? (fun t => t.active || !b.trap.act)

/-- What a trap that is due tells of itself (R49, R161). -/
def ArithTrap.info (t : ArithTrap) : TrapInfo :=
  if t.sem then fault 0x23 else { fault 0x1E with src := if t.vecUnit then 1 else 0, aflags := t.aflags }

/-- Deliver the arithmetic trap that is due (R49): tpc names the flagging word, rpc the first word not issued. -/
def State.deliverArithmetic (s : State) : State :=
  match s.bank.arithDue with
  | none => s
  | some t =>
    let s := s.modBank (fun b => { b with arith := b.arith.erase t })
    let pc := s.bank.pc
    (s.modBank (fun b => b.takeTrap s.cycle false t.pc pc t.info)).afterTrap

/-- Return from a trap: act clears and the stream resumes at rpc (R119). -/
def Bank.returnTrap (b : Bank) : Bank := { b with trap := { b.trap with act := false }, pc := b.trap.rpc }

/-! ## Registers (R53, R100, R101) -/

/-- The physical vector register of a logical one (R100). -/
def Bank.physV (b : Bank) (r : Fin 64) : Fin 64 :=
  if r.val < 32 then r else ⟨32 + (r.val - 32 + b.vrb.toNat) % 32, by omega⟩

/-- The physical mask register of a logical one (R100). -/
def Bank.physM (b : Bank) (r : Fin 16) : Fin 16 :=
  if r.val < 8 then r else ⟨8 + (r.val - 8 + b.mrb.toNat) % 8, by omega⟩

/-- The physical register of a logical one. -/
def Bank.phys (b : Bank) : Reg → Reg
  | .s r => .s r
  | .v r => .v (b.physV r)
  | .m r => .m (b.physM r)
  | .c r => .c r
  | .n r => .n r
  | .p r => .p r

/-- s0 reads as 0. -/
def Bank.getS (b : Bank) (r : Fin 64) : Word := if r.val = 0 then 0 else b.s[r]
/-- A write to s0 is discarded. -/
def Bank.setS (b : Bank) (r : Fin 64) (w : Word) : Bank := if r.val = 0 then b else { b with s := b.s.set r w }
/-- c0 reads as true. -/
def Bank.getC (b : Bank) (r : Fin 8) : Bool := r.val == 0 || b.c[r]
/-- A write to c0 is discarded. -/
def Bank.setC (b : Bank) (r : Fin 8) (x : Bool) : Bank := if r.val = 0 then b else { b with c := b.c.set r x }
/-- m0 reads as all ones (R127); the register is physical. -/
def Bank.getM (b : Bank) (r : Fin 16) : MaskWord := if r.val = 0 then BitVec.allOnes 512 else b.m[r]
/-- A write to m0 is discarded. -/
def Bank.setM (b : Bank) (r : Fin 16) (w : MaskWord) : Bank := if r.val = 0 then b else { b with m := b.m.set r w }
/-- Write the marked bits of a physical vector register. -/
def Bank.setV (b : Bank) (r : Fin 64) (w bits : VecWord) : Bank :=
  { b with v := b.v.set r ((b.v[r] &&& ~~~bits) ||| (w &&& bits)) }

/-- Write the marked bits of a physical mask register. -/
def Bank.setMBits (b : Bank) (r : Fin 16) (w bits : MaskWord) : Bank := b.setM r ((b.m[r] &&& ~~~bits) ||| (w &&& bits))

/-- Write a result where it goes. -/
def Bank.put (b : Bank) (d : RDst) (x : RVal) : Bank :=
  match d, x with
  | .reg (.s r), .word w => b.setS r w
  | .aq q, .word w => { b with aq := b.aq.set q (b.aq[q] ++ [w]) }
  | .handle k, .name n => { b with h := b.h.set k n }
  | .reg (.v r), .vec w m => b.setV r w m
  | .reg (.m r), .mask w m => b.setMBits r w m
  | .reg (.c r), .cond v => b.setC r v
  | .reg (.n r), .name n => { b with n := b.n.set r n }
  | .reg (.p r), .patchReg n => { b with p := b.p.set r n, pGone := b.pGone.set r none }
  | _, _ => b

/-- The entries a queue register holds or will hold from results on their way. -/
def Bank.aqLoad (b : Bank) (q : Fin 4) : Nat :=
  b.aq[q].length + (b.writes.filter (fun w => w.dst == some (.aq q))).length
    + (b.tags.filter (fun t => t.dst.contains (.aq q))).length

/-! ## Local memory (R106, R107, R149, R151) -/

/-- The size of the local window: 4 MiB. -/
def localSize : Nat := 0x400000

/-- The window rules of R106: beyond the window, fault 0x07; across its end, fault 0x06. -/
def windowFault (a n : Nat) : Option TrapInfo :=
  if a ≥ localSize then some (faultAt 0x07 (BitVec.ofNat 64 a))
  else if a + n > localSize then some (faultAt 0x06 (BitVec.ofNat 64 a))
  else none

/-- The first guarded byte among `n` from an address. -/
def Core.firstGuarded (c : Core) (a n : Nat) : Option Nat :=
  (c.guards.map (fun g => Nat.max a (g * 256))).filter (fun x => x < a + n && c.guards.contains (x / 256)) |>.min?

/-- Record a guard touch of a bank (R151). -/
def Bank.recordTouch (b : Bank) (x : Option Nat) : Bank :=
  match x with
  | none => b
  | some a => match b.touch with
    | none => { b with touch := some (a, 0) }
    | some (f, n) => { b with touch := some (f, Nat.min 2047 (n + 1)) }

/-- Note that an access of a bank touches `n` bytes from an address. -/
def Core.touch (c : Core) (bank : Bool) (a n : Nat) : Core :=
  c.modBank bank (fun b => b.recordTouch (c.firstGuarded a n))

/-- Note that an access of a bank touches some bytes: the lowest guarded one is reported (R151). -/
def Core.touchBytes (c : Core) (bank : Bool) (l : List Nat) : Core :=
  c.modBank bank (fun b => b.recordTouch (l.filter (fun a => c.guards.contains (a / 256))).min?)

/-- An engine's write meets a sector that a port has read ahead: the port's bytes are old from now on (R79, R155). -/
def Port.spoil (p : Port) (a n : Nat) : Port :=
  { p with ahead := p.ahead.map (fun x => if x.addr < a + n && a < x.addr + x.bytes.length then { x with stale := true } else x) }

/-- Every port of a bank that has read some bytes ahead holds old ones. -/
def Bank.spoil (b : Bank) (a n : Nat) : Bank := { b with ports := b.ports.map (fun p => p.map (fun p => p.spoil a n)) }

/-- What a stream has read ahead before it saw an increment, and an engine has written since, is read afresh (R79, R155). -/
def Bank.rereadPorts (b : Bank) : Bank :=
  { b with ports := b.ports.map (fun p => p.map (fun p => { p with ahead := p.ahead.filter (fun x => !x.stale) })) }

/-- An engine's bytes reach the local memory for a bank. -/
def Core.storeLocal (c : Core) (bank : Bool) (a : Nat) (bs : List Byte) : Core :=
  let c := c.touch bank a bs.length
  { c with mem := Memory.writeBytes c.mem a bs, bank0 := c.bank0.spoil a bs.length, bank1 := c.bank1.spoil a bs.length }

/-! ## The memory banks (R148) -/

/-- The memory bank of a 64-byte block. -/
def unitOf (block : Nat) : Nat := block % 32

/-- The requester numbers of R148: the stream's words, the ports, and each engine. -/
def Eng.asker : Eng → Nat
  | .anvil => 2
  | .copy => 3
  | .coll => 4

/-- The requester number of the ports. -/
def portAsker : Nat := 1

/-- Whether a memory bank can serve a block in this cycle: it has served nothing else, and the requester is not one that was served since
another began to wait there (R148). -/
def Core.mayTake (c : Core) (g : Grant) : Bool :=
  c.grants.contains g
    || (c.grants.all (fun x => unitOf x.block != unitOf g.block)
      && c.waits.all (fun w => w.unit != unitOf g.block || w.who == g.who || !w.served.contains g.who))

/-- A memory bank serves a block in this cycle. -/
def Core.take (c : Core) (g : Grant) : Core := if c.grants.contains g then c else { c with grants := c.grants ++ [g] }

/-- Several blocks in one cycle, or none. -/
def Core.takeAll (c : Core) : List Grant → Option Core
  | [] => some c
  | g :: r => if c.mayTake g then (c.take g).takeAll r else none

/-! ## The stream's local accesses (R106, R107, R149, R150, R187) -/

/-- The 64-byte block of a piece. -/
def blockOf (p : List LMove) : Nat := match p with
  | [] => 0
  | m :: _ => m.addr / 64

/-- Put a byte into its sector's piece. -/
def addMove (m : LMove) : List (List LMove) → List (List LMove)
  | [] => [[m]]
  | p :: r => if p.any (fun x => x.addr / 32 == m.addr / 32) then (p ++ [m]) :: r else p :: addMove m r

/-- The pieces of a local access: its bytes, sector by sector. -/
def sectorPieces (l : List LMove) : List (List LMove) := l.foldl (fun ps m => addMove m ps) []

/-- The bytes of a load of `n` bytes from an address. -/
def loadMoves (a n : Nat) : List LMove := (List.range n).map (fun i => { addr := a + i, off := i, val := 0, mask := 0xFF })

/-- The bytes of a store that has marked bits at an address, from a place in the word's value on. -/
def storeMoves (a off : Nat) (v m : List Byte) : List LMove :=
  ((v.zip m).zipIdx.map (fun (x, i) => ({ addr := a + i, off := off + i, val := x.1, mask := x.2 } : LMove))).filter (fun x => x.mask != 0)

/-- A local access of the stream of a bank sets out: it takes its banks in the next cycle or later (R187). -/
def Core.addLocal (c : Core) (bank : Bool) (x : LAcc) (l : List LMove) : Core :=
  if l.isEmpty then c
  else
    let c := c.touchBytes bank (l.map (fun m => m.addr))
    { c with laccs := c.laccs ++ [{ x with no := c.accSeq, bank := bank, pieces := sectorPieces l }], accSeq := c.accSeq + 1 }

/-- A store of the stream, with nothing to wait for. -/
def LAcc.storeAt (cycle : Nat) : LAcc :=
  { no := 0, bank := false, store := true, ready := cycle + 1, pieces := [], tag := 0, lat := 0, exact := false, waits := false }

/-- A load of the stream under a tag that lands so many cycles after its last sector. -/
def LAcc.loadAt (cycle : Nat) (t : BitVec 4) (lat : Nat) (exact : Bool) : LAcc :=
  { no := 0, bank := false, store := false, ready := cycle + 1, pieces := [], tag := t, lat := lat, exact := exact, waits := false }

/-- An earlier access of the stream holds a piece of a later one: while it still wants the same memory bank, or, where its own data is not
there yet, the same byte (R107). -/
def LAcc.holds (x y : LAcc) (p : List LMove) : Bool :=
  x.bank == y.bank && decide (x.no < y.no) && x.pieces.any (fun q =>
    if x.waits then q.any (fun m => p.any (fun n => n.addr == m.addr)) else unitOf (blockOf q) == unitOf (blockOf p))

/-- The pieces that the stream's accesses want in a cycle. -/
def Core.localWants (c : Core) (cycle : Nat) : List (LAcc × List LMove) :=
  c.laccs.flatMap (fun y => if y.waits || cycle < y.ready then []
    else (y.pieces.filter (fun p => !c.laccs.any (fun x => x.holds y p))).map (fun p => (y, p)))

/-- The grant that a piece asks for. -/
def LAcc.grant (x : LAcc) (p : List LMove) : Grant := { who := 0, no := x.no, block := blockOf p }

/-- A byte of a store over what stands there. -/
def LMove.write (m : LMove) (mem : List Host.Cell) : List Host.Cell :=
  Memory.write mem m.addr ((Memory.read mem m.addr &&& ~~~m.mask) ||| (m.val &&& m.mask))

/-- A store's bytes reach a memory. -/
def writeMoves (mem : List Host.Cell) (p : List LMove) : List Host.Cell := p.foldl (fun mem m => m.write mem) mem

/-- The access of a number goes on without a piece, or is over. -/
def Core.dropPiece (c : Core) (no : Nat) (p : List LMove) : Core :=
  let cut (x : LAcc) : LAcc := if x.no == no then { x with pieces := x.pieces.erase p } else x
  { c with laccs := (c.laccs.map cut).filter (fun x => !x.pieces.isEmpty) }

/-- Local memory as the stream of a bank will have left it: with its stores that are still on their way (R107). -/
def Core.streamMem (c : Core) (bank : Bool) : List Host.Cell :=
  (c.laccs.filter (fun x => x.bank == bank && x.store && !x.waits)).foldl (fun mem x => x.pieces.foldl writeMoves mem) c.mem

/-- Some store of a bank's stream to given bytes has no data yet. -/
def Core.streamWaits (c : Core) (bank : Bool) (a n : Nat) : Bool :=
  c.laccs.any (fun x => x.bank == bank && x.store && x.waits && x.pieces.any (fun p => p.any (fun m => a ≤ m.addr && m.addr < a + n)))

/-- Some local access of a bank's stream that was issued before a point is on its way (R79, R164). -/
def Core.localBefore (c : Core) (bank : Bool) (fork : Nat) : Bool := c.laccs.any (fun x => x.bank == bank && decide (x.no < fork))

/-- A bank's stream has local accesses on their way. -/
def Core.localBusy (c : Core) (bank : Bool) : Bool := c.laccs.any (fun x => x.bank == bank)

/-- Local bytes of the acting core as its stream sees them. -/
def State.localBytes (s : State) (a n : Nat) : List Byte := Memory.readBytes (s.cur.streamMem s.focus.bank) a n

/-- The little-endian number of `n` local bytes of the acting core. -/
def State.localNat (s : State) (a n : Nat) : Nat := leNat (s.localBytes a n)

/-- Note a read of the acting bank. -/
def State.touchLocal (s : State) (a n : Nat) : State := s.modCur (fun c => c.touch s.focus.bank a n)

/-- A store of the acting bank's stream sets out. -/
def State.sendStore (s : State) (l : List LMove) : State := s.modCur (fun c => c.addLocal s.focus.bank (.storeAt s.cycle) l)

/-- A store of whole bytes of the acting bank's stream. -/
def State.storeLocal (s : State) (a : Nat) (bs : List Byte) : State := s.sendStore (storeMoves a 0 bs (bs.map (fun _ => 0xFF)))

/-- A store of the acting bank's stream whose data comes under a tag (R154). -/
def State.sendTagStore (s : State) (t : BitVec 4) (l : List LMove) : State :=
  s.modCur (fun c => c.addLocal s.focus.bank { LAcc.storeAt s.cycle with tag := t, waits := true } l)

/-- A guard report as a trap (R151): the memory bank of the first byte and the further touches. -/
def guardTrap (a n : Nat) : TrapInfo :=
  { fault 0x0F with src := 6, taddr := BitVec.ofNat 64 a, detail := BitVec.ofNat 16 ((a / 64) % 32 + 32 * n) }

/-! ## Semaphores (R161, R162) -/

/-- Whether a bank owns a semaphore (R162). -/
def Core.ownsSem (c : Core) (bank : Bool) (k : BitVec 8) : Bool :=
  !c.ksplit || (if bank then k.toNat ≥ 128 else k.toNat < 128)

/-- A semaphore. -/
def Core.sem (c : Core) (k : BitVec 8) : BitVec 16 := c.sems[k.toNat]'(k.isLt)

/-- Write a semaphore. -/
def Core.setSem (c : Core) (k : BitVec 8) (v : BitVec 16) : Core := { c with sems := c.sems.set k.toNat v k.isLt }

/-- Increment a semaphore with what its unit carries: the incrementer's pts and whether it acquires (R161, R319); none
where it holds 65 535. -/
def Core.incSem (c : Core) (k : BitVec 8) (pts : BitVec 16) (acq : Bool) : Option Core :=
  if c.sem k = 0xFFFF then none
  else some { c.setSem k (c.sem k + 1) with
    semPts := Sparse.put c.semPts k.toNat ((Sparse.find c.semPts k.toNat).getD [] ++ [(pts, acq)]) }

/-- An increment wakes an idle bank that owns the semaphore (R340). -/
def Core.wakeOwners (c : Core) (k : BitVec 8) : Core :=
  let mark (b : Bool) (x : Bank) : Bank := if c.ownsSem b k then { x with woken := true } else x
  { c with bank0 := mark false c.bank0, bank1 := mark true c.bank1 }

/-- Increment a semaphore of a core, or hold semaphore-overflow fault 0x23 for a bank of a core (R161). -/
def State.incSem (s : State) (core : Nat) (k : BitVec 8) (pts : BitVec 16) (tell : Nat × Bool) (t : TrapInfo) : State :=
  match (s.core core).incSem k pts true with
  | some c => s.setCore core (c.wakeOwners k)
  | none => s.holdTrap tell.1 tell.2 { t with code := 0x23 }

/-- Take one unit of a semaphore: the unit's pts, if it carries one. -/
def Core.takeSem (c : Core) (k : BitVec 8) : Core × Option (BitVec 16) :=
  let units := (Sparse.find c.semPts k.toNat).getD []
  let c' := { c.setSem k (c.sem k - 1) with semPts := Sparse.put c.semPts k.toNat units.tail }
  (c', match units.head? with
    | some (p, true) => some p
    | some (_, false) => none
    | none => none)

end Sys2Proof.Machine
end

