-- ==== Sys2Proof/Machine/Operands.lean ====
section
/-!
DEFINITION. Reading and writing operands: scalar and vector sources, immediates, memory operands, lanes, ports (R53, R54,
R57, R101, R126, R127, R152 to R156).
-/
namespace Sys2Proof.Machine

/-! ## Scalar operands -/

/-- Pop a bq register of the acting bank. -/
def State.popBq (s : State) (q : Fin 4) : Word × State :=
  (s.bank.bq[q].headD 0, s.modBank (fun b => { b with bq := b.bq.set q b.bq[q].tail }))

/-- A scalar source: reading a bq register pops it (R53, R54). -/
def State.readS (s : State) : SSrc → Word × State
  | .s r => (s.bank.getS r, s)
  | .bq q => s.popBq q
  | .zero => (0, s)
  | .pts => (s.cur.pts.setWidth 64, s)
  | .cycle => (BitVec.ofNat 64 s.cycle, s)

/-- An immediate of a scalar integer word, sign-extended (R57). -/
def immSext (v : BitVec 16) : Word := v.signExtend 64
/-- An immediate that is zero-extended. -/
def immZext (v : BitVec 16) : Word := v.setWidth 64
/-- An immediate of a scalar floating word: BF16 for f32 and bf16, FP16 for f16 (R101). -/
def immFlt (t : Fmt) (v : BitVec 16) : Word := if t = .f32 then v.setWidth 64 <<< 16 else v.setWidth 64

/-- B# of a scalar word. -/
def State.readB (s : State) (imm : BitVec 16 → Word) : SrcB → Word × State
  | .reg r => s.readS r
  | .imm v => (imm v, s)

/-- The effective address of a memory operand, modulo 2^64 (R57, R105). -/
def State.readAddr (s : State) : MemOp → Word × State
  | .off a o =>
    let (x, s) := s.readS a
    (x + immSext o, s)
  | .idx a b k =>
    let (x, s) := s.readS a
    let (y, s) := s.readS b
    (x + (y <<< k.val), s)

/-- A condition source. -/
def Bank.readC (b : Bank) : CSrc → Bool
  | .c r => b.getC r
  | .zero => false

/-- A mask source, through the rotation (R100, R127). -/
def Bank.readM (b : Bank) : MSrc → MaskWord
  | .m r => b.getM (b.physM r)
  | .zero => 0

/-- A name source; the zero operand is the null name (R246). -/
def Bank.readN (b : Bank) : NSrc → Name
  | .n r => b.n[r]
  | .zero => 0

/-- A patch source. -/
def Bank.readP (b : Bank) : PSrc → Option Name
  | .p r => b.p[r]
  | .zero => none

/-! ## Lanes (R126) -/

/-- The number of lanes of a type. -/
def Fmt.lanes (t : Fmt) : Nat := 2048 / t.width

/-- Lane i of a vector under a width. -/
def laneOf (w : Nat) (v : VecWord) (i : Nat) : Nat := (v.toNat / 2 ^ (w * i)) % 2 ^ w

/-- The number whose `n` lanes of width w are given. -/
def vecNat (w : Nat) (f : Nat → Nat) : Nat → Nat
  | 0 => 0
  | n + 1 => vecNat w f n + (f n % 2 ^ w) * 2 ^ (w * n)

/-- The vector whose `n` lanes of width w are given, zeros above. -/
def mkVec (w n : Nat) (f : Nat → Nat) : VecWord := BitVec.ofNat 2048 (vecNat w f n)

/-- The bits of those of `n` lanes that satisfy a condition. -/
def laneBits (w n : Nat) (p : Nat → Bool) : VecWord := mkVec w n (fun i => if p i then 2 ^ w - 1 else 0)

/-- The bytes of a vector (R126). -/
def vecBytes (v : VecWord) : List Byte := leBytes 256 v.toNat

/-- The vector of 256 bytes. -/
def bytesVec (l : List Byte) : VecWord := BitVec.ofNat 2048 (leNat l)

/-- The active lanes under a mask guard: m0 means all (R55, R127). -/
def Bank.guardMask (b : Bank) (h : Hdr) : MaskWord := b.getM (b.physM h.guard.toFin)

/-- An immediate of a vector word as a lane's bits (R57). -/
def vimm (t : Fmt) (v : BitVec 16) : Nat :=
  match t with
  | .f32 => v.toNat * 2 ^ 16
  | .i8 | .i16 | .i32 | .i64 | .n8 | .n16 | .n32 | .n64 => wrapTo t.width v.toInt
  | .f16 | .bf16 | .l4 | .l8 | .l16 | .h4 | .h8 => v.toNat % 2 ^ t.width

/-- The lane index converted to a type (R53): exact for every lane number of an IEEE format; the codes of LinToLog for
L types; for H types no conversion is stated (log 6). -/
def laneIndex (t : Fmt) (i : Nat) : Nat :=
  match t with
  | .i8 | .i16 | .i32 | .i64 | .n8 | .n16 | .n32 | .n64 => i % 2 ^ t.width
  | .f16 | .bf16 | .f32 => (roundVal t .rne false (FVal.ofInt i)).1
  | .l4 | .l8 | .l16 => (linToLog t 0 (FVal.ofInt i)).1
  | .h4 | .h8 => (Config.laneHalfStep i).toNat % 2 ^ t.width

/-! ## Ports (R152 to R156) -/

/-- The number of chunks a port's generator produces. -/
def Port.total (p : Port) : Nat := p.counts.foldl (· * ·) 1

/-- The address of chunk `u`, index 0 varying fastest (R152). -/
def chunkAddr : List Nat → List Int → Nat → Int
  | n :: ns, d :: ds, u => ((u % n : Nat) : Int) * d + chunkAddr ns ds (u / n)
  | _, _, _ => 0

/-- The local address of chunk `u` of a port. -/
def Port.addr (p : Port) (u : Nat) : Nat := ((p.base : Int) + chunkAddr p.counts p.strides u).toNat

/-- The chunks of a port's next vector, short at the end (R152). -/
def Port.chunks (p : Port) : List Nat :=
  (List.range (256 / p.csz)).map (fun j => p.next + j) |>.filter (fun u => u < p.total)

/-- The port after its next vector is taken. -/
def Port.advance (p : Port) : Port :=
  { p with next := p.next + 256 / p.csz, readyAt := p.readyAt + 1
           ahead := p.ahead.filter (fun x => x.key ≥ (p.next + 256 / p.csz) * 8) }

/-- The pieces of a chunk that are single sectors: (key, address, length); chunk u's sector j has key 8·u + j (R155). -/
def Port.pieces (p : Port) (u : Nat) : List (Nat × Nat × Nat) :=
  (List.range ((p.csz + 31) / 32)).map (fun j => (8 * u + j, p.addr u + 32 * j, Nat.min 32 (p.csz - 32 * j)))

/-- The bytes of a chunk: sectors already read ahead as they were, the rest as they are now (R155). -/
def Port.chunkBytes (p : Port) (mem : List Host.Cell) (u : Nat) : List Byte :=
  (p.pieces u).flatMap (fun (k, a, n) =>
    match p.ahead.find? (fun x => x.key == k) with
    | some x => x.bytes
    | none => Memory.readBytes mem a n)

/-- The next vector of an input port, zeros where it is short. -/
def Port.vector (p : Port) (mem : List Host.Cell) : VecWord := bytesVec (p.chunks.flatMap (p.chunkBytes mem))

/-- The sectors of the next vector that have not been read. -/
def Port.missing (p : Port) : List (Nat × Nat × Nat) :=
  (p.chunks.flatMap p.pieces).filter (fun x => !p.ahead.any (fun y => y.key == x.1))

/-- What reading a sector for a port asks of its memory bank (R148). -/
def portGrant (a : Nat) : Grant := { who := portAsker, no := 0, block := a / 64 }

/-- A port by number of R153: 0 to 7 are i0 to i7, 8 to 11 are o0 to o3. -/
def Bank.port (b : Bank) (i : Nat) : Option Port := b.ports.toList.getD i none

/-- A port that is unconfigured or has no vector left is exhausted (R154). -/
def Bank.portExhausted (b : Bank) (i : Nat) : Bool :=
  match b.port i with
  | none => true
  | some p => p.next ≥ p.total

/-- What the input ports of a word have still to read when it takes their vectors. -/
def Bank.portNeeds (b : Bank) (l : List (Fin 8)) : List Grant :=
  l.flatMap (fun i => match b.port i.val with
    | none => []
    | some p => p.missing.map (fun x => portGrant x.2.1))

/-- Advance an input port by one vector: the sectors read only now take their memory banks and touch guarded bytes. -/
def State.advancePort (s : State) (i : Fin 12) : State :=
  match s.bank.ports[i] with
  | none => s
  | some p =>
    let s := p.missing.foldl (fun (s : State) x => s.modCur (fun c => (c.take (portGrant x.2.1)).touch s.focus.bank x.2.1 x.2.2)) s
    s.modBank (fun b => { b with ports := b.ports.set i (some p.advance) })

/-- Store the marked bits of some bytes to local memory for the acting bank. -/
def State.storeMasked (s : State) (a : Nat) (v m : List Byte) : State := s.sendStore (storeMoves a 0 v m)

/-- The bytes that a vector's store to the next vector of an output port moves (R154). -/
def Port.moves (p : Port) (v m : VecWord) : List LMove :=
  p.chunks.zipIdx.flatMap (fun x =>
    storeMoves (p.addr x.1) (x.2 * p.csz) (((vecBytes v).drop (x.2 * p.csz)).take p.csz) (((vecBytes m).drop (x.2 * p.csz)).take p.csz))

/-- Store to the next vector of an output port by a given way, and advance it (R154). -/
def State.toPort (s : State) (o : Fin 4) (v m : VecWord) (send : State → List LMove → State) : State :=
  let i : Fin 12 := ⟨8 + o.val, by omega⟩
  match s.bank.ports[i] with
  | none => s
  | some p => (send s (p.moves v m)).modBank (fun b => { b with ports := b.ports.set i (some p.advance) })

/-- Store the marked bits of a vector to an output port (R154). -/
def State.storePort (s : State) (o : Fin 4) (v m : VecWord) : State := s.toPort o v m State.sendStore

/-! ## Vector operands -/

/-- A vector source under a type (R53, R54). A port's vector is read here and the port advanced once per word. -/
def State.vec (s : State) (t : Fmt) : VSrc → VecWord
  | .v r => s.bank.v[s.bank.physV r]
  | .port i => match s.bank.port i with
    | none => 0
    | some p => p.vector s.cur.mem
  | .zero => 0
  | .lane => mkVec t.width (Fmt.lanes t) (laneIndex t)
  | .pts => mkVec t.width (Fmt.lanes t) (fun _ => s.cur.pts.toNat)
  | .cycle => mkVec t.width (Fmt.lanes t) (fun _ => s.cycle)

/-- B# of a vector word. -/
def State.vecB (s : State) (t : Fmt) : VSrcB → VecWord
  | .reg r => s.vec t r
  | .imm v => mkVec t.width (Fmt.lanes t) (fun _ => vimm t v)

/-- The input ports among vector sources, each once (R154). -/
def portsOf (l : List VSrc) : List (Fin 8) :=
  dedup (l.filterMap (fun x => match x with
    | .port i => some i
    | .v _ | .zero | .lane | .pts | .cycle => none))

/-- Advance the input ports a word has read. -/
def State.advancePorts (s : State) (l : List VSrc) : State :=
  (portsOf l).foldl (fun s i => s.advancePort ⟨i.val, by omega⟩) s

/-- The vector source of B#. -/
def VSrcB.srcs : VSrcB → List VSrc
  | .reg r => [r]
  | .imm _ => []

end Sys2Proof.Machine
end

