-- ==== Sys2Proof/Machine/Issue.lean ====
section
/-!
DEFINITION. When a control-stream word issues, and what happens then to the bank whatever the word does (R55, R58 to R62,
R67, R97 to R99).
-/
namespace Sys2Proof.Machine

/-- What a word needs before it can issue. -/
structure Need where
  hdr : Hdr
  cond : Bool
  vec : Bool
  reads : List (BitVec 7 × Reg)
  dsts : List (BitVec 7 × Reg × Nat)
  tagDsts : List (BitVec 7 × Reg × Nat)
  pops : List (Fin 4)
  push : List (Fin 4)
  inPorts : List (Fin 8)
  outPorts : List (Fin 4)
  al : BitVec 4
  divider : Bool
  mem : Bool
  global : Bool
  priv : Bool
  falls : Bool

/-- A word with a condition guard and nothing else. -/
def Need.of (h : Hdr) : Need :=
  { hdr := h, cond := true, vec := false, reads := [], dsts := [], tagDsts := [], pops := [], push := [], inPorts := [], outPorts := []
    al := 0, divider := false, mem := false, global := false, priv := false, falls := true }

/-- A word of the vector unit, with a mask guard. -/
def Need.ofV (h : Hdr) : Need := { Need.of h with cond := false, vec := true }

/-- It reads a scalar source. -/
def Need.s (n : Need) (x : SSrc) : Need :=
  match x with
  | .s r => { n with reads := n.reads ++ [(x.code, .s r)] }
  | .bq q => { n with pops := n.pops ++ [q] }
  | .zero | .pts | .cycle => n

/-- It reads B#. -/
def Need.sb (n : Need) : SrcB → Need
  | .reg r => n.s r
  | .imm _ => n

/-- It reads a vector source. -/
def Need.v (n : Need) (x : VSrc) : Need :=
  match x with
  | .v r => { n with reads := n.reads ++ [(x.code, .v r)] }
  | .port i => { n with inPorts := dedup (n.inPorts ++ [i]), mem := true }
  | .zero | .lane | .pts | .cycle => n

/-- It reads B# of a vector word. -/
def Need.vb (n : Need) : VSrcB → Need
  | .reg r => n.v r
  | .imm _ => n

/-- It reads a condition. -/
def Need.c (n : Need) (x : CSrc) : Need :=
  match x with | .c r => { n with reads := n.reads ++ [(x.code, .c r)] } | .zero => n

/-- It reads a mask. -/
def Need.m (n : Need) (x : MSrc) : Need :=
  match x with | .m r => { n with reads := n.reads ++ [(x.code, .m r)] } | .zero => n

/-- It reads a name. -/
def Need.n (n : Need) (x : NSrc) : Need :=
  match x with | .n r => { n with reads := n.reads ++ [(x.code, .n r)] } | .zero => n

/-- It reads a patch register. -/
def Need.p (n : Need) (x : PSrc) : Need :=
  match x with | .p r => { n with reads := n.reads ++ [(x.code, .p r)] } | .zero => n

/-- It reads the registers of a memory operand. -/
def Need.addr (n : Need) : MemOp → Need
  | .off a _ => n.s a
  | .idx a b _ => (n.s a).s b

/-- It writes a scalar destination with a latency. -/
def Need.ds (n : Need) (d : SDst) (lat : Nat) : Need :=
  match d with
  | .s r => { n with dsts := n.dsts ++ [(d.code, .s r, lat)] }
  | .aq q => { n with push := n.push ++ [q] }

/-- It writes a vector destination with a latency. -/
def Need.dv (n : Need) (d : VDst) (lat : Nat) : Need :=
  match d with
  | .v r => { n with dsts := n.dsts ++ [(d.code, .v r, lat)] }
  | .port o => { n with outPorts := n.outPorts ++ [o], mem := true }

/-- It writes a condition. -/
def Need.dc (n : Need) (d : Fin 8) (lat : Nat) : Need := { n with dsts := n.dsts ++ [(regCode 80 d, .c d, lat)] }

/-- It writes a mask. -/
def Need.dm (n : Need) (d : Fin 16) (lat : Nat) : Need := { n with dsts := n.dsts ++ [(regCode 80 d, .m d, lat)] }

/-- It writes a scalar destination under its tag, no earlier than so many cycles after issue: a register, or a queue register that it
pushes to. -/
def Need.dTag (n : Need) (d : SDst) (lat : Nat) : Need :=
  match d with
  | .s r => { n with tagDsts := n.tagDsts ++ [(d.code, .s r, lat)] }
  | .aq q => { n with push := n.push ++ [q] }

/-- It writes a condition under its tag. -/
def Need.dcTag (n : Need) (d : Fin 8) (lat : Nat) : Need := { n with tagDsts := n.tagDsts ++ [(regCode 80 d, .c d, lat)] }

/-- It writes a name register under its tag. -/
def Need.dnTag (n : Need) (d : Fin 16) (lat : Nat) : Need := { n with tagDsts := n.tagDsts ++ [(regCode 80 d, .n d, lat)] }

/-- It allocates a tag. -/
def Need.tag (n : Need) (al : BitVec 4) : Need := { n with al := al }

/-- It accesses local memory. -/
def Need.local (n : Need) : Need := { n with mem := true }

/-- It issues a global memory request. -/
def Need.globalMem (n : Need) : Need := { n with mem := true, global := true }

/-- It is privileged (R330). -/
def Need.privileged (n : Need) : Need := { n with priv := true }

/-- It occupies the divider, or does not (R60). -/
def Need.div (n : Need) (x : Bool) : Need := { n with divider := x }

/-- It never falls through to the next word. -/
def Need.ends (n : Need) : Need := { n with falls := false }

/-- A tag is pending (R62). -/
def Bank.tagPending (b : Bank) (t : BitVec 4) : Bool := t != 0 && (b.tags.any (fun r => r.tag == t))

/-- A register waits for an interlocked result (R87). -/
def Bank.interlocked (b : Bank) (r : Reg) : Bool := b.writes.any (fun w => w.interlock && w.dst == some (.reg r))

/-- A register waits for an interlocked result, or for a name on its way from memory (R87, R251). -/
def State.locked (s : State) (r : Reg) : Bool :=
  s.bank.interlocked r ||
    match r with
    | .n d => s.cur.accs.any (fun a => a.bank == s.focus.bank && match a.op with
      | .load _ (.nameReg x) => x == d
      | _ => false)
    | .s _ | .v _ | .m _ | .c _ | .p _ => false

/-- tinfo.detail of a window read (R122). -/
def windowDetail (cycles : Nat) (tag : Bool) (code : BitVec 7) : BitVec 16 :=
  BitVec.ofNat 16 (code.toNat + (if tag then 128 else 0) + 256 * (cycles % 32))

/-- In checking mode, the fault of reading a register whose result is still on its way (R59, R62). A pending write to s0 counts although its
value will be discarded (DESIGN CHOICE, log 28). -/
def Bank.windowRead (b : Bank) (cycle : Nat) (code : BitVec 7) (r : Reg) : Option TrapInfo :=
  if !b.check then none
  else match b.writes.find? (fun w => w.tag == 0 && w.dst == some (.reg r)) with
    | some w => some (faultDetail 0x03 (windowDetail (w.due + 1 - cycle) false code))
    | none =>
      if b.tags.any (fun t => t.dst.contains (.reg r)) then some (faultDetail 0x03 (windowDetail 0 true code)) else none

/-- In checking mode, the fault of a write that would complete before an earlier one to the same register (R59): one of fixed latency,
or, for a word of fixed latency, one under a tag that has not landed; a word under a tag counts with its least latency (log 20). -/
def Bank.windowWrite (b : Bank) (cycle : Nat) (tagged : Bool) (code : BitVec 7) (r : Reg) (lat : Nat) : Option TrapInfo :=
  if !b.check || lat = 0 then none
  else match b.writes.find? (fun w => w.tag == 0 && w.dst == some (.reg r) && w.due > cycle + lat - 1) with
    | some w => some (faultDetail 0x03 (windowDetail (w.due + 1 - cycle) false code))
    | none =>
      if !tagged && b.tags.any (fun t => t.dst.contains (.reg r)) then some (faultDetail 0x03 (windowDetail 0 true code)) else none

/-- The first fault of a list. -/
def firstFault {α : Type} (f : α → Option TrapInfo) : List α → Option TrapInfo
  | [] => none
  | x :: r => match f x with
    | some t => some t
    | none => firstFault f r

/-- The accesses of a bank's stream that are not yet acknowledged, local ones among them, with its unanswered remote signals. -/
def Core.outstanding (c : Core) (bank : Bool) : Nat :=
  (c.laccs.filter (fun x => x.bank == bank)).length + (c.accs.filter (fun a => a.bank == bank && a.eng.isNone)).length + (c.sigs.filter (fun x => x.bank == bank)).length

/-- The global memory requests of a core (R97): the accesses of one word are one request. -/
def Core.requests (c : Core) : Nat :=
  (dedup ((c.accs.filter (fun a => match a.op with | .signal _ _ _ => false | _ => true)).map (fun a => a.word))).length

/-- Whether a fence or an acquiring access of the stream still holds its later accesses (R173, R313). -/
def Core.memHeld (c : Core) (bank : Bool) : Bool :=
  ((c.bank bank).fenced.isSome && c.outstanding bank != 0)
    || c.accs.any (fun a => a.bank == bank && a.eng.isNone && a.acq && a.state != .performed)

/-- What the word at pc does in this cycle, before its own effect. -/
inductive Ready where
  | stall
  /-- a word waits for sectors of input ports whose memory banks are taken (R148, R155) -/
  | ask (ports : List (Fin 8))
  | off
  | fault (t : TrapInfo)
  | go

/-- An XM's producer distance and items. -/
abbrev XmPair := BitVec 4 × XmMod

/-- The words an issue takes: an XM pair takes two (R97). -/
def wordsOf (m : Option XmPair) : Nat := if m.isSome then 2 else 1

/-- The last word address (R51). -/
def lastWord : Nat := 26213

/-- The fault of falling through past the last word (R98). -/
def fallFault (b : Bank) (m : Option XmPair) : TrapInfo := faultAt 0x01 (BitVec.ofNat 64 (b.pc.toNat + wordsOf m))

/-- The registers a clamp reads (R64). -/
def xmReads : Option XmPair → List (BitVec 7 × Reg)
  | none => []
  | some (_, x) =>
    if x.clen then [(x.clo, .s (Fin.ofNat 64 x.clo.toNat)), (x.chi, .s (Fin.ofNat 64 x.chi.toNat))] else []

/-- The waits for tags named by the word and its XM (R62). -/
def Bank.tagWait (b : Bank) (n : Need) (m : Option XmPair) : Bool :=
  b.tagPending n.hdr.usA || b.tagPending n.hdr.usB ||
    match m with
    | none => false
    | some (_, x) => b.tagPending x.usC || b.tagPending x.usD

/-- The earliest cycle of an issue: the bound of the branch or trap before it, and its producer distance (R58, R61). -/
def Bank.earliest (b : Bank) (n : Need) (m : Option XmPair) : Nat :=
  Nat.max b.bound (b.prevIssue + (match m with
    | none => n.hdr.pd
    | some (pd, _) => pd).toNat)

/-- The guard's register as a word reads it. -/
def Bank.guardReg (b : Bank) (n : Need) : Option (BitVec 7 × Reg) :=
  if n.cond then
    let r := n.hdr.guard.extractLsb' 0 3
    if r = 0 then none else some (regCode 80 r.toNat, .c r.toFin)
  else if n.vec || n.hdr.guard != 0 then
    if n.hdr.guard = 0 then none else some (regCode 80 n.hdr.guard.toNat, .m (b.physM n.hdr.guard.toFin))
  else none

/-- A condition guard holds: the selected bit, inverted by bit 3 (R55). A mask guard never stops a word. -/
def Bank.guardHolds (b : Bank) (n : Need) : Bool :=
  !n.cond || (b.getC (n.hdr.guard.extractLsb' 0 3).toFin != n.hdr.guard.getLsbD 3)

/-- The structural waits of R97, and exhausted ports (R154), for a word that executes. -/
def State.structural (s : State) (n : Need) : Ready :=
  let b := s.bank
  if (dedup n.pops).any (fun q => b.bq[q].length < n.pops.count q || b.qpops.any (fun p => p.2 == q)) then .stall
  else if (dedup n.push).any (fun q => b.aqLoad q + n.push.count q > 8) then .stall
  else match n.inPorts.find? (fun i => b.portExhausted i.val) with
    | some i => .fault (faultDetail 0x0A (BitVec.ofNat 16 i.val))
    | none => match n.outPorts.find? (fun o => b.portExhausted (8 + o.val)) with
      | some o => .fault (faultDetail 0x0A (BitVec.ofNat 16 (8 + o.val)))
      | none =>
        if n.inPorts.any (fun i => match b.port i.val with
            | none => false
            | some p => s.cycle < p.readyAt) then .stall
        else if (s.cur.takeAll (b.portNeeds n.inPorts)).isNone then .ask n.inPorts
        else if n.divider && s.cycle < b.divFree then .stall
        else if n.global && s.cur.requests ≥ 2048 then .stall
        else if n.mem && s.cur.memHeld s.focus.bank then .stall
        else .go

/-- The checks at issue, in order: time and tags; the fall-through past the last word (R98); the guard; for a word that
executes its tag, privilege, interlocks and window reads; then the structural waits. -/
def State.classify (s : State) (n : Need) (m : Option XmPair) : Ready :=
  let b := s.bank
  let phys (x : BitVec 7 × Reg) : BitVec 7 × Reg := (x.1, b.phys x.2)
  let guard := (b.guardReg n).toList
  let reads := (n.reads.map phys) ++ xmReads m
  if s.cycle < b.earliest n m || b.tagWait n m then .stall
  else if n.falls && b.pc.toNat + wordsOf m > lastWord then
    .fault (fallFault b m)
  else if guard.any (fun x => s.locked x.2) then .stall
  else match firstFault (fun x => b.windowRead s.cycle x.1 x.2) guard with
    | some t => .fault t
    | none =>
      if !b.guardHolds n then .off
      else if b.tagPending n.al then .stall
      else if n.priv && !b.priv then .fault (fault 0x04)
      else if reads.any (fun x => s.locked x.2) then .stall
      else match firstFault (fun x => b.windowRead s.cycle x.1 x.2) reads with
        | some t => .fault t
        | none =>
          let late (tagged : Bool) (x : BitVec 7 × Reg × Nat) : Option TrapInfo :=
            b.windowWrite s.cycle tagged x.1 (b.phys x.2.1) x.2.2
          match (firstFault (late false) n.dsts).or (firstFault (late true) n.tagDsts) with
          | some t => .fault t
          | none => s.structural n

/-- What a word's own effect comes to. -/
inductive Result where
  | stall
  | fault (t : TrapInfo)
  | ok (s : State)

/-- A fence ends once nothing before it is outstanding: the loads before it whose edges its scope covers have acquired, and stores after
it release (R173, R313, R315, R319). -/
def State.endFence (s : State) (core : Nat) (bank : Bool) : State :=
  match (s.bankAt core bank).fenced with
  | none => s
  | some sc =>
    if (s.core core).outstanding bank != 0 then s
    else
      let taken := (s.bankAt core bank).readStamp.filter (fun x => x.1 ≤ sc.toNat)
      let s := taken.foldl (fun (s : State) x => s.bumpPts core x.2) s
      s.modBankAt core bank (fun b => { b with
        fenced := none, readStamp := b.readStamp.filter (fun x => sc.toNat < x.1)
        relStores := match b.relStores with
          | none => some sc
          | some x => some (if x.toNat < sc.toNat then sc else x) })

/-- A word that accesses memory passes a fence only when nothing is outstanding. -/
def State.passFence (s : State) : State := s.endFence s.focus.core s.focus.bank

/-- The bank after a word issues, before its own effect: pc moves on, and the next word issues a cycle later at the
earliest. -/
def State.advance (s : State) (n : Need) (m : Option XmPair) : State :=
  let s := if n.mem then s.passFence else s
  s.modBank (fun b => { b with
    pc := b.pc + BitVec.ofNat 15 (wordsOf m), prevIssue := s.cycle, bound := s.cycle + 1 })

/-- The from code of a precise fault: the vector unit's words report 1, and so does an exhausted port, but a window read is the stream's
(R332). -/
def Need.from (n : Need) (t : TrapInfo) : TrapInfo :=
  if t.src == 0 && t.code != 0x03 && (n.vec || t.code == 0x0A) then { t with src := 1 } else t

/-- Issue a word: wait, fall through when guarded off, trap, or advance and take effect. -/
def State.issue (s : State) (n : Need) (m : Option XmPair) (body : State → Result) : State :=
  match s.classify n m with
  | .stall => s
  | .ask l => s.modCur (fun c => { c with asks := l.map (fun i => (s.focus.bank, i)) })
  | .off =>
    if s.bank.pc.toNat + wordsOf m > lastWord then s.trap (fallFault s.bank m)
    else s.modBank (fun b => { b with
      pc := b.pc + BitVec.ofNat 15 (wordsOf m), prevIssue := s.cycle, bound := s.cycle + 1 })
  | .fault t => s.trap (n.from t)
  | .go => match body (s.advance n m) with
    | .stall => s
    | .fault t => s.trap (n.from t)
    | .ok s' => s'

/-! ## Results (R59, R60, R87) -/

/-- A result of the word at `pc` that is written `lat` cycles after issue, with its flags. -/
def State.result (s : State) (d : Option RDst) (x : RVal) (lat : Nat) (f : FlagSet) (pc : BitVec 15) (vec : Bool) : State :=
  s.modBank (fun b => { b with writes := b.writes ++
    [{ dst := d, val := x, due := s.cycle + lat - 1, flags := f, pc := pc, vecUnit := vec, interlock := false, tag := 0 }] })

/-- A scalar destination as a result's. -/
def SDst.rdst : SDst → RDst
  | .s r => .reg (.s r)
  | .aq q => .aq q

/-- A scalar result. -/
def State.resultS (s : State) (d : SDst) (w : Word) (lat : Nat) (f : FlagSet) (pc : BitVec 15) : State :=
  s.result (some (SDst.rdst d)) (.word w) lat f pc false

/-- An interlocked result, written in the cycle after issue or later (R87). -/
def State.resultLocked (s : State) (r : RDst) (x : RVal) (lat : Nat) : State :=
  s.modBank (fun b => { b with writes := b.writes ++
    [{ dst := some r, val := x, due := s.cycle + lat, flags := 0, pc := 0, vecUnit := false, interlock := true
       tag := 0 }] })

/-- A vector result: the marked bits go to a register, or to an output port at once (R154). -/
def State.resultV (s : State) (d : VDst) (w bits : VecWord) (lat : Nat) (f : FlagSet) (pc : BitVec 15) : State :=
  match d with
  | .v r => s.result (some (.reg (.v (s.bank.physV r)))) (.vec w bits) lat f pc true
  | .port o => (s.storePort o w bits).result none (.word 0) lat f pc true

/-- A tag allocated for a word whose result has variable latency (R62). -/
def State.allocate (s : State) (r : TagRec) : State := s.modBank (fun b => { b with tags := b.tags ++ [r] })

/-- A tag record with its destinations and nothing landed. -/
def State.newTag (s : State) (t : BitVec 4) (dst : List RDst) (ty : Fmt) (bits bits2 : VecWord) (minLat : Nat) : TagRec :=
  { tag := t, dst := dst, fmt := ty, bits := bits, bits2 := bits2, data := [], vals := [], ready := false
    issued := s.cycle, minLat := minLat, flags := 0, failed := false }

/-- A tagged result that lands at a fixed time after issue: written at the end of cycle t + lat − 1, with its tag
(R167, R169). -/
def State.resultTagged (s : State) (t : BitVec 4) (d : RDst) (x : RVal) (lat : Nat) : State :=
  let dst := match d with | .reg _ | .handle _ => [d] | .aq _ => []
  let s := s.allocate { s.newTag t dst .i64 0 0 lat with ready := true }
  s.modBank (fun b => { b with writes := b.writes ++
    [{ dst := some d, val := x, due := s.cycle + lat - 1, flags := 0, pc := 0, vecUnit := false, interlock := false
       tag := t }] })

/-- A tagged result whose value is known at issue and that lands `min` cycles after issue or later: LOAD_LAND writes
it. -/
def State.landLater (s : State) (t : BitVec 4) (dst : List RDst) (vals : List RVal) (min : Nat) : State :=
  (s.allocate { s.newTag t dst .i64 0 0 min with vals := vals, ready := true }).postHere min (.loadLand t)

/-- A local load of the acting bank's stream under a tag, whose bytes come sector by sector (R62, R106). -/
def State.loadLocal (s : State) (r : TagRec) (lat : Nat) (exact : Bool) (l : List LMove) : State :=
  let s := s.allocate { r with ready := l.isEmpty }
  if l.isEmpty then s.postAt (s.cycle + r.minLat) s.focus.core s.focus.bank none (.loadLand r.tag)
  else s.modCur (fun c => c.addLocal s.focus.bank (.loadAt s.cycle r.tag lat exact) l)

/-! ## XM (R63, R64) -/

/-- Whether an XM item bit names source a (0), b (1) or c (2) (R63: the high bit is a). -/
def xmBit (f : BitVec 3) (pos : Nat) : Bool := f.getLsbD (2 - pos)

/-- An integer source adjusted: absolute value first, then negation (R64). -/
def adjI (m : Option XmPair) (pos : Nat) (x : Int) : Int :=
  match m with
  | none => x
  | some (_, x') =>
    let x := if xmBit x'.abs pos then (x.natAbs : Int) else x
    if xmBit x'.neg pos then -x else x

/-- A floating source adjusted (R64). -/
def adjF (m : Option XmPair) (pos : Nat) (x : FVal) : FVal :=
  match m with
  | none => x
  | some (_, x') =>
    let x := if xmBit x'.abs pos then x.magnitude else x
    if xmBit x'.neg pos then x.negate else x

/-- The rounding mode of a word (R28, R64). -/
def modeOf : Option XmPair → RMode
  | none => .rne
  | some (_, x) => if x.rmen then RMode.ofCode x.rm else .rne

/-- Whether results saturate. -/
def satOf : Option XmPair → Bool
  | none => false
  | some (_, x) => x.sat

/-- The bounds of a clamp, as the low bits of s registers (R64). -/
def Bank.clampBounds (b : Bank) (x : XmMod) : Nat × Nat :=
  ((b.getS (Fin.ofNat 64 x.clo.toNat)).toNat, (b.getS (Fin.ofNat 64 x.chi.toNat)).toNat)

/-- Min(Max(y, lo), hi) on integers of a type (R64). -/
def clampInt (t : Fmt) (y lo hi : Nat) : Nat :=
  let z := if readInt t y < readInt t lo then lo else y
  (if readInt t hi < readInt t z then hi else z) % 2 ^ t.width

/-- The clamp on floating values: a NaN passes, and a NaN bound is no bound (R64). -/
def clampFlt (t : Fmt) (y lo hi : Nat) : Nat :=
  let z := if FVal.below true (.ofBits t y) (.ofBits t lo) then lo % 2 ^ t.width else y
  if FVal.below true (.ofBits t hi) (.ofBits t z) then hi % 2 ^ t.width else z

/-- The clamp of a pair, in the destination type. -/
def Bank.clamp (b : Bank) (t : Fmt) (m : Option XmPair) (y : Nat) : Nat :=
  match m with
  | none => y
  | some (_, x) =>
    if !x.clen then y
    else
      let (lo, hi) := b.clampBounds x
      if t.isFlt then clampFlt t y lo hi else clampInt t y lo hi

/-- An exact integer result wrapped or saturated, without the clamp. -/
def stepI (t : Fmt) (m : Option XmPair) (x : Int) : Nat × FlagSet := finishInt t (satOf m) x

/-- An exact integer result as the word delivers it (R64, R102). -/
def Bank.finishI (b : Bank) (t : Fmt) (m : Option XmPair) (x : Int) : Nat × FlagSet :=
  let (y, f) := stepI t m x
  (b.clamp t m y, f)

/-- The scale of a pair, applied to an exact result (R64). -/
def scaleF (m : Option XmPair) (x : FVal) : FVal :=
  match m with
  | none => x
  | some (_, x') => if x'.scen then x.scale x'.k.toInt else x

/-- An exact floating result with the flags so far, rounded once as the word delivers it (R28, R64). -/
def Bank.finishF (b : Bank) (t : Fmt) (m : Option XmPair) (x : FVal × FlagSet) : Nat × FlagSet :=
  let (y, f) := roundVal t (modeOf m) (satOf m) (scaleF m x.1)
  (b.clamp t m y, x.2 ||| f)

/-- What an XM may ask of a word with a destination type and a number of sources (R65). -/
def XmMod.fits (x : XmMod) (t : Fmt) (srcs : Nat) : Bool :=
  (t.isFlt || (!x.scen && !x.rmen)) &&
  (List.range 3).all (fun i => i < srcs || !(xmBit x.neg i || xmBit x.abs i))

end Sys2Proof.Machine
end

