-- ==== Sys2Proof/Machine/Scalar.lean ====
section
/-!
DEFINITION. The scalar class without its memory and CSR words: integer and floating arithmetic, bits, selection,
constants and addresses (R101 to R105, R109 to R113).
-/
namespace Sys2Proof.Machine

/-- The outcome type of a meaning. -/
abbrev Out := Host.Outcome State Fault Refusal

/-! ## Integer arithmetic (R102) -/

/-- An integer word: both operands read by R101, an exact result, wrapped or saturated; it wraps where `sats` refuses the second
operand. -/
def intOp (f : Fmt → Int → Int → Int) (sats : Int → Bool) (lat : Nat) (divider : Bool) (m : Option XmPair) (h : Hdr) (ty : Fmt) (d : SDst)
    (a : SSrc) (b : SrcB) (s : State) : State :=
  let pc := s.bank.pc
  s.issue ((Need.of h).s a |>.sb b |>.ds d lat |>.div divider) m fun s =>
    let (x, s) := s.readS a
    let (y, s) := s.readB immSext b
    let y := adjI m 1 (readInt ty y.toNat)
    let z := f ty (adjI m 0 (readInt ty x.toNat)) y
    let (r, fl) := if sats y then s.bank.finishI ty m z else (s.bank.clamp ty m (wrapTo ty.width z), 0)
    let s := if divider then s.modBank (fun b => { b with divFree := s.cycle + 24 }) else s
    .ok (s.resultS d (toWord ty r) lat fl pc)

/-- ADD. -/
def addOp := intOp (fun _ x y => x + y) (fun _ => true) 1 false
/-- SUB. -/
def subOp := intOp (fun _ x y => x - y) (fun _ => true) 1 false
/-- MUL. -/
def mulOp := intOp (fun _ x y => x * y) (fun _ => true) 3 false
/-- MULH: floor of the product over 2^w. -/
def mulhOp := intOp (fun t x y => x * y / (2 ^ t.width : Nat)) (fun _ => false) 3 false
/-- DIV; a division by zero sets no flag (R102). -/
def divOp := intOp divInt (· ≠ 0) 24 true
/-- REM; a division by zero sets no flag (R102). -/
def remOp := intOp (fun _ x y => remInt x y) (· ≠ 0) 24 true
/-- MIN. -/
def minOp := intOp (fun _ x y => if y < x then y else x) (fun _ => true) 1 false
/-- MAX. -/
def maxOp := intOp (fun _ x y => if x < y then y else x) (fun _ => true) 1 false

/-- ADD (R102). -/
def execAdd (h : Hdr) (ty : Fmt) (d : SDst) (a : SSrc) (b : SrcB) (s : State) : Out := .next (addOp none h ty d a b s)
/-- SUB (R102). -/
def execSub (h : Hdr) (ty : Fmt) (d : SDst) (a : SSrc) (b : SrcB) (s : State) : Out := .next (subOp none h ty d a b s)
/-- MUL (R102). -/
def execMul (h : Hdr) (ty : Fmt) (d : SDst) (a : SSrc) (b : SrcB) (s : State) : Out := .next (mulOp none h ty d a b s)
/-- MULH (R102). -/
def execMulh (h : Hdr) (ty : Fmt) (d : SDst) (a : SSrc) (b : SrcB) (s : State) : Out := .next (mulhOp none h ty d a b s)
/-- DIV (R102). -/
def execDiv (h : Hdr) (ty : Fmt) (d : SDst) (a : SSrc) (b : SrcB) (s : State) : Out := .next (divOp none h ty d a b s)
/-- REM (R102). -/
def execRem (h : Hdr) (ty : Fmt) (d : SDst) (a : SSrc) (b : SrcB) (s : State) : Out := .next (remOp none h ty d a b s)
/-- MIN (R102). -/
def execMin (h : Hdr) (ty : Fmt) (d : SDst) (a : SSrc) (b : SrcB) (s : State) : Out := .next (minOp none h ty d a b s)
/-- MAX (R102). -/
def execMax (h : Hdr) (ty : Fmt) (d : SDst) (a : SSrc) (b : SrcB) (s : State) : Out := .next (maxOp none h ty d a b s)

/-! ## Bits (R103) -/

/-- A word on all 64 bits, its immediate zero-extended. -/
def bitOp (f : Word → Word → Word) (h : Hdr) (d : SDst) (a : SSrc) (b : SrcB) (s : State) : State :=
  let pc := s.bank.pc
  s.issue ((Need.of h).s a |>.sb b |>.ds d 1) none fun s =>
    let (x, s) := s.readS a
    let (y, s) := s.readB immZext b
    .ok (s.resultS d (f x y) 1 0 pc)

/-- A word of one source on all 64 bits. -/
def bitOp1 (f : Word → Word) (h : Hdr) (d : SDst) (a : SSrc) (s : State) : State :=
  let pc := s.bank.pc
  s.issue ((Need.of h).s a |>.ds d 1) none fun s =>
    let (x, s) := s.readS a
    .ok (s.resultS d (f x) 1 0 pc)

/-- The shift amount of R103. -/
def shamt (y : Word) : Nat := y.toNat % 64

/-- Leading zero bits, 64 for zero. -/
def leadingZeros (x : Word) : Word := if x = 0 then 64 else BitVec.ofNat 64 (63 - Nat.log2 x.toNat)

/-- One bits among the low `n` of a number. -/
def onesBelow (v : Nat) : Nat → Nat
  | 0 => 0
  | n + 1 => onesBelow v n + (if v.testBit n then 1 else 0)

/-- AND (R103). -/
def execAnd (h : Hdr) (d : SDst) (a : SSrc) (b : SrcB) (s : State) : Out := .next (bitOp (· &&& ·) h d a b s)
/-- OR (R103). -/
def execOr (h : Hdr) (d : SDst) (a : SSrc) (b : SrcB) (s : State) : Out := .next (bitOp (· ||| ·) h d a b s)
/-- XOR (R103). -/
def execXor (h : Hdr) (d : SDst) (a : SSrc) (b : SrcB) (s : State) : Out := .next (bitOp (· ^^^ ·) h d a b s)
/-- ANDN (R103). -/
def execAndn (h : Hdr) (d : SDst) (a : SSrc) (b : SrcB) (s : State) : Out :=
  .next (bitOp (fun x y => x &&& ~~~y) h d a b s)
/-- SHL (R103). -/
def execShl (h : Hdr) (d : SDst) (a : SSrc) (b : SrcB) (s : State) : Out :=
  .next (bitOp (fun x y => x <<< shamt y) h d a b s)
/-- SHR (R103). -/
def execShr (h : Hdr) (d : SDst) (a : SSrc) (b : SrcB) (s : State) : Out :=
  .next (bitOp (fun x y => x >>> shamt y) h d a b s)
/-- SAR (R103). -/
def execSar (h : Hdr) (d : SDst) (a : SSrc) (b : SrcB) (s : State) : Out :=
  .next (bitOp (fun x y => x.sshiftRight (shamt y)) h d a b s)
/-- ROT (R103): rotated left. -/
def execRot (h : Hdr) (d : SDst) (a : SSrc) (b : SrcB) (s : State) : Out :=
  .next (bitOp (fun x y => (x <<< shamt y) ||| (x >>> (64 - shamt y))) h d a b s)
/-- CLZ (R103). -/
def execClz (h : Hdr) (d : SDst) (a : SSrc) (s : State) : Out := .next (bitOp1 leadingZeros h d a s)
/-- POPC (R103). -/
def execPopc (h : Hdr) (d : SDst) (a : SSrc) (s : State) : Out :=
  .next (bitOp1 (fun x => BitVec.ofNat 64 (onesBelow x.toNat 64)) h d a s)

/-! ## Selection and conditions (R104) -/

/-- SEL (R104). -/
def execSel (h : Hdr) (d : SDst) (a : CSrc) (b c : SSrc) (s : State) : Out :=
  let pc := s.bank.pc
  .next (s.issue ((Need.of h).c a |>.s b |>.s c |>.ds d 1) none fun s =>
    let (x, s) := s.readS b
    let (y, s) := s.readS c
    .ok (s.resultS d (if s.bank.readC a then x else y) 1 0 pc))

/-- A condition result of the word at `pc`. -/
def State.resultC (s : State) (d : Fin 8) (x : Bool) (lat : Nat) (f : FlagSet) (pc : BitVec 15) : State :=
  s.result (some (.reg (.c d))) (.cond x) lat f pc false

/-- CMP (R104). -/
def execCmp (h : Hdr) (ty : Fmt) (d : Fin 8) (a : SSrc) (b : SrcB) (k : Cond) (s : State) : Out :=
  let pc := s.bank.pc
  .next (s.issue ((Need.of h).s a |>.sb b |>.dc d 1) none fun s =>
    let (x, s) := s.readS a
    let (y, s) := s.readB immSext b
    .ok (s.resultC d (compareInt k (readInt ty x.toNat) (readInt ty y.toNat)) 1 0 pc))

/-- A word on conditions. -/
def condOp (f : Bool → Bool → Bool) (h : Hdr) (d : Fin 8) (a b : CSrc) (s : State) : State :=
  let pc := s.bank.pc
  s.issue ((Need.of h).c a |>.c b |>.dc d 1) none fun s =>
    .ok (s.resultC d (f (s.bank.readC a) (s.bank.readC b)) 1 0 pc)

/-- CAND (R104). -/
def execCand (h : Hdr) (d : Fin 8) (a b : CSrc) (s : State) : Out := .next (condOp (· && ·) h d a b s)
/-- COR (R104). -/
def execCor (h : Hdr) (d : Fin 8) (a b : CSrc) (s : State) : Out := .next (condOp (· || ·) h d a b s)
/-- CXOR (R104). -/
def execCxor (h : Hdr) (d : Fin 8) (a b : CSrc) (s : State) : Out := .next (condOp (· != ·) h d a b s)

/-! ## Constants and addresses (R105) -/

/-- MOVI (R105). -/
def execMovi (h : Hdr) (d : SDst) (a : SSrc) (v : BitVec 16) (sh : Fin 4) (s : State) : Out :=
  let pc := s.bank.pc
  .next (s.issue ((Need.of h).s a |>.ds d 1) none fun s =>
    let (x, s) := s.readS a
    .ok (s.resultS d (if sh = 0 then immSext v else x ||| (immZext v <<< (16 * sh.val))) 1 0 pc))

/-- LEA (R105). -/
def execLea (h : Hdr) (d : SDst) (mm : MemOp) (s : State) : Out :=
  let pc := s.bank.pc
  .next (s.issue ((Need.of h).addr mm |>.ds d 1) none fun s =>
    let (x, s) := s.readAddr mm
    .ok (s.resultS d x 1 0 pc))

/-- NOP (R113). -/
def execNop (h : Hdr) (s : State) : Out := .next (s.issue (Need.of h) none .ok)

/-! ## Floating point (R109 to R111) -/

/-- A floating value in a scalar register. -/
def Word.fval (t : Fmt) (w : Word) : FVal := FVal.ofBits t w.toNat

/-- A floating word of two sources. -/
def fltOp (f : RMode → FVal → FVal → FVal × FlagSet) (m : Option XmPair) (h : Hdr) (ty : Fmt) (d : SDst) (a : SSrc)
    (b : SrcB) (s : State) : State :=
  let pc := s.bank.pc
  s.issue ((Need.of h).s a |>.sb b |>.ds d 4) m fun s =>
    let (x, s) := s.readS a
    let (y, s) := s.readB (immFlt ty) b
    let (r, fl) := s.bank.finishF ty m (f (modeOf m) (adjF m 0 (Word.fval ty x)) (adjF m 1 (Word.fval ty y)))
    .ok (s.resultS d (toWord ty r) 4 fl pc)

/-- FADD. -/
def faddOp := fltOp FVal.add
/-- FMUL. -/
def fmulOp := fltOp (fun _ => FVal.mul)
/-- FMIN. -/
def fminOp := fltOp (fun _ => FVal.min)
/-- FMAX. -/
def fmaxOp := fltOp (fun _ => FVal.max)

/-- FADD (R109). -/
def execFadd (h : Hdr) (ty : Fmt) (d : SDst) (a : SSrc) (b : SrcB) (s : State) : Out := .next (faddOp none h ty d a b s)
/-- FMUL (R109). -/
def execFmul (h : Hdr) (ty : Fmt) (d : SDst) (a : SSrc) (b : SrcB) (s : State) : Out := .next (fmulOp none h ty d a b s)
/-- FMIN (R109). -/
def execFmin (h : Hdr) (ty : Fmt) (d : SDst) (a : SSrc) (b : SrcB) (s : State) : Out := .next (fminOp none h ty d a b s)
/-- FMAX (R109). -/
def execFmax (h : Hdr) (ty : Fmt) (d : SDst) (a : SSrc) (b : SrcB) (s : State) : Out := .next (fmaxOp none h ty d a b s)

/-- FFMA: x · y + z rounded once. -/
def ffmaOp (m : Option XmPair) (h : Hdr) (ty : Fmt) (d : SDst) (a b c : SSrc) (s : State) : State :=
  let pc := s.bank.pc
  s.issue ((Need.of h).s a |>.s b |>.s c |>.ds d 4) m fun s =>
    let (x, s) := s.readS a
    let (y, s) := s.readS b
    let (z, s) := s.readS c
    let (r, fl) := s.bank.finishF ty m (FVal.fma (modeOf m) (adjF m 0 (Word.fval ty x)) (adjF m 1 (Word.fval ty y))
      (adjF m 2 (Word.fval ty z)))
    .ok (s.resultS d (toWord ty r) 4 fl pc)

/-- FFMA (R109). -/
def execFfma (h : Hdr) (ty : Fmt) (d : SDst) (a b c : SSrc) (s : State) : Out := .next (ffmaOp none h ty d a b c s)

/-- A conversion between integer and floating formats (R30, R111). -/
def Bank.convert (b : Bank) (ty src : Fmt) (m : Option XmPair) (n : Nat) : Nat × FlagSet :=
  if src.isFlt then
    let x := adjF m 0 (FVal.ofBits src n)
    if ty.isFlt then b.finishF ty m (x, sigFlag [x])
    else
      let (r, f) := floatToInt ty (modeOf m) x
      (b.clamp ty m r, f)
  else
    let x := adjI m 0 (readInt src n)
    if ty.isFlt then b.finishF ty m (FVal.ofInt x, 0) else b.finishI ty m x

/-- FCVT. -/
def fcvtOp (m : Option XmPair) (h : Hdr) (ty src : Fmt) (d : SDst) (a : SSrc) (s : State) : State :=
  let pc := s.bank.pc
  s.issue ((Need.of h).s a |>.ds d 6) m fun s =>
    let (x, s) := s.readS a
    let (r, fl) := s.bank.convert ty src m x.toNat
    .ok (s.resultS d (toWord ty r) 6 fl pc)

/-- FCVT (R111). -/
def execFcvt (h : Hdr) (ty src : Fmt) (d : SDst) (a : SSrc) (s : State) : Out := .next (fcvtOp none h ty src d a s)

/-- FCMP (R110). -/
def execFcmp (h : Hdr) (ty : Fmt) (d : Fin 8) (a : SSrc) (b : SrcB) (k : Cond) (s : State) : Out :=
  let pc := s.bank.pc
  .next (s.issue ((Need.of h).s a |>.sb b |>.dc d 4) none fun s =>
    let (x, s) := s.readS a
    let (y, s) := s.readB (immFlt ty) b
    let (r, fl) := FVal.compare k (Word.fval ty x) (Word.fval ty y)
    .ok (s.resultC d r 4 fl pc))

/-! ## Logarithms (R112) -/

/-- FTOLOG (R112). -/
def execFtolog (h : Hdr) (ty src : Fmt) (d : SDst) (a b : SSrc) (s : State) : Out :=
  let pc := s.bank.pc
  .next (s.issue ((Need.of h).s a |>.s b |>.ds d 6) none fun s =>
    let (x, s) := s.readS a
    let (y, s) := s.readS b
    let (r, fl) := if b10AllZero y.toNat then (Fmt.lzero ty, 0) else linToLog ty (b10Scale y.toNat) (Word.fval src x)
    .ok (s.resultS d (toWord ty r) 6 fl pc))

/-- LogToLin rounded into a format, RNE (R37, R112). -/
def fromLog (ty src : Fmt) (code sc : Nat) : Nat × FlagSet :=
  let (v, f) := logToLin src code sc
  let (r, g) := roundVal ty .rne false v
  (r, f ||| g)

/-- FFROMLOG (R112). -/
def execFfromlog (h : Hdr) (ty src : Fmt) (d : SDst) (a b : SSrc) (s : State) : Out :=
  let pc := s.bank.pc
  .next (s.issue ((Need.of h).s a |>.s b |>.ds d 6) none fun s =>
    let (x, s) := s.readS a
    let (y, s) := s.readS b
    let (r, fl) := fromLog ty src x.toNat y.toNat
    .ok (s.resultS d (toWord ty r) 6 fl pc))

end Sys2Proof.Machine
end

