-- ==== Sys2Proof/Machine/Vector.lean ====
section
/-!
DEFINITION. The vector class without its local-memory words: lane-wise arithmetic, conversions, reductions, scans,
histograms, lane movement and masks (R126 to R147).
-/
namespace Sys2Proof.Machine

/-! ## Lane-wise results (R128) -/

/-- The number of a list of lanes of width w, lane 0 first. -/
def laneNat (w : Nat) : List Nat → Nat
  | [] => 0
  | x :: r => x % 2 ^ w + 2 ^ w * laneNat w r

/-- Lanes computed for a word: their values, the bits written, the union of their flags. -/
structure LaneOut where
  val : VecWord
  bits : VecWord
  flags : FlagSet

/-- The union of flags. -/
def orFlags (l : List FlagSet) : FlagSet := l.foldl (· ||| ·) 0

/-- Compute the active ones of `n` lanes of width w. -/
def lanesRun (w n : Nat) (act : Nat → Bool) (f : Nat → Nat × FlagSet) : LaneOut :=
  let rs := (List.range n).map (fun i => if act i then f i else (0, 0))
  { val := BitVec.ofNat 2048 (laneNat w (rs.map (·.1))), bits := laneBits w n act, flags := orFlags (rs.map (·.2)) }

/-- A word with a lane-wise result: the guard's bit i governs destination lane i. `dw` and `n` are the destination's
lane width and the lanes that can be written. -/
def laneOp (need : Need) (m : Option XmPair) (h : Hdr) (dw n : Nat) (d : VDst) (lat : Nat) (srcs : List VSrc)
    (f : State → Nat → Nat × FlagSet) (s : State) : State :=
  let pc := s.bank.pc
  s.issue (need.dv d lat) m fun s =>
    let g := s.bank.guardMask h
    let o := lanesRun dw n (fun i => g.getLsbD i) (f s)
    .ok ((s.advancePorts srcs).resultV d o.val o.bits lat o.flags pc)

/-- The latency of an arithmetic word by its type (R60). -/
def arithLat (ty : Fmt) (li lf : Nat) : Nat := if ty.isFlt then lf else li

/-- VADD, VSUB, VMUL, VMIN, VMAX (R131). -/
def vecArith (fi : Int → Int → Int) (ff : RMode → FVal → FVal → FVal × FlagSet) (li : Nat) (m : Option XmPair) (h : Hdr)
    (ty : Fmt) (d : VDst) (a : VSrc) (b : VSrcB) (s : State) : State :=
  laneOp ((Need.ofV h).v a |>.vb b) m h ty.width (Fmt.lanes ty) d (arithLat ty li 4) (a :: VSrcB.srcs b) (fun s =>
    let va := s.vec ty a
    let vb := s.vecB ty b
    fun i =>
      let x := laneOf ty.width va i
      let y := laneOf ty.width vb i
      if ty.isFlt then
        s.bank.finishF ty m (ff (modeOf m) (adjF m 0 (.ofBits ty x)) (adjF m 1 (.ofBits ty y)))
      else s.bank.finishI ty m (fi (adjI m 0 (readInt ty x)) (adjI m 1 (readInt ty y)))) s

/-- VADD. -/
def vaddOp := vecArith (· + ·) FVal.add 2
/-- VSUB. -/
def vsubOp := vecArith (· - ·) (fun md x y => FVal.add md x y.negate) 2
/-- VMUL. -/
def vmulOp := vecArith (· * ·) (fun _ => FVal.mul) 4
/-- VMIN. -/
def vminOp := vecArith (fun x y => if y < x then y else x) (fun _ => FVal.min) 2
/-- VMAX. -/
def vmaxOp := vecArith (fun x y => if x < y then y else x) (fun _ => FVal.max) 2

/-- VADD (R131). -/
def execVadd (h : Hdr) (ty : Fmt) (d : VDst) (a : VSrc) (b : VSrcB) (s : State) : Out := .next (vaddOp none h ty d a b s)
/-- VSUB (R131). -/
def execVsub (h : Hdr) (ty : Fmt) (d : VDst) (a : VSrc) (b : VSrcB) (s : State) : Out := .next (vsubOp none h ty d a b s)
/-- VMUL (R131). -/
def execVmul (h : Hdr) (ty : Fmt) (d : VDst) (a : VSrc) (b : VSrcB) (s : State) : Out := .next (vmulOp none h ty d a b s)
/-- VMIN (R131). -/
def execVmin (h : Hdr) (ty : Fmt) (d : VDst) (a : VSrc) (b : VSrcB) (s : State) : Out := .next (vminOp none h ty d a b s)
/-- VMAX (R131). -/
def execVmax (h : Hdr) (ty : Fmt) (d : VDst) (a : VSrc) (b : VSrcB) (s : State) : Out := .next (vmaxOp none h ty d a b s)

/-- VFMA. -/
def vfmaOp (m : Option XmPair) (h : Hdr) (ty : Fmt) (d : VDst) (a b c : VSrc) (s : State) : State :=
  laneOp ((Need.ofV h).v a |>.v b |>.v c) m h ty.width (Fmt.lanes ty) d 4 [a, b, c] (fun s =>
    let va := s.vec ty a
    let vb := s.vec ty b
    let vc := s.vec ty c
    fun i => s.bank.finishF ty m (FVal.fma (modeOf m) (adjF m 0 (.ofBits ty (laneOf ty.width va i)))
      (adjF m 1 (.ofBits ty (laneOf ty.width vb i))) (adjF m 2 (.ofBits ty (laneOf ty.width vc i))))) s

/-- VFMA (R131). -/
def execVfma (h : Hdr) (ty : Fmt) (d : VDst) (a b c : VSrc) (s : State) : Out := .next (vfmaOp none h ty d a b c s)

/-- The four functions of R132. -/
def vecFun (f : FVal → FVal × FlagSet) (m : Option XmPair) (h : Hdr) (ty : Fmt) (d : VDst) (a : VSrc) (s : State) : State :=
  laneOp ((Need.ofV h).v a) m h ty.width (Fmt.lanes ty) d 8 [a] (fun s =>
    let va := s.vec ty a
    fun i => s.bank.finishF ty m (f (adjF m 0 (.ofBits ty (laneOf ty.width va i))))) s

/-- VRCP. -/
def vrcpOp := vecFun FVal.recip
/-- VRSQ. -/
def vrsqOp := vecFun FVal.rsqrt
/-- VEXP2. -/
def vexp2Op := vecFun FVal.exp2
/-- VLOG2. -/
def vlog2Op := vecFun FVal.log2

/-- VRCP (R132). -/
def execVrcp (h : Hdr) (ty : Fmt) (d : VDst) (a : VSrc) (s : State) : Out := .next (vrcpOp none h ty d a s)
/-- VRSQ (R132). -/
def execVrsq (h : Hdr) (ty : Fmt) (d : VDst) (a : VSrc) (s : State) : Out := .next (vrsqOp none h ty d a s)
/-- VEXP2 (R132). -/
def execVexp2 (h : Hdr) (ty : Fmt) (d : VDst) (a : VSrc) (s : State) : Out := .next (vexp2Op none h ty d a s)
/-- VLOG2 (R132). -/
def execVlog2 (h : Hdr) (ty : Fmt) (d : VDst) (a : VSrc) (s : State) : Out := .next (vlog2Op none h ty d a s)

/-- The lane-wise bit words (R133); the type fixes w only. -/
def vecBits (f : Nat → Nat → Nat → Nat) (h : Hdr) (ty : Fmt) (d : VDst) (a : VSrc) (b : VSrcB) (s : State) : State :=
  laneOp ((Need.ofV h).v a |>.vb b) none h ty.width (Fmt.lanes ty) d 2 (a :: VSrcB.srcs b) (fun s =>
    let va := s.vec ty a
    let vb := s.vecB ty b
    fun i => (f ty.width (laneOf ty.width va i) (laneOf ty.width vb i), 0)) s

/-- VAND (R133). -/
def execVand (h : Hdr) (ty : Fmt) (d : VDst) (a : VSrc) (b : VSrcB) (s : State) : Out :=
  .next (vecBits (fun _ x y => x &&& y) h ty d a b s)
/-- VOR (R133). -/
def execVor (h : Hdr) (ty : Fmt) (d : VDst) (a : VSrc) (b : VSrcB) (s : State) : Out :=
  .next (vecBits (fun _ x y => x ||| y) h ty d a b s)
/-- VXOR (R133). -/
def execVxor (h : Hdr) (ty : Fmt) (d : VDst) (a : VSrc) (b : VSrcB) (s : State) : Out :=
  .next (vecBits (fun _ x y => x ^^^ y) h ty d a b s)
/-- VSHL (R133). -/
def execVshl (h : Hdr) (ty : Fmt) (d : VDst) (a : VSrc) (b : VSrcB) (s : State) : Out :=
  .next (vecBits (fun w x y => x * 2 ^ (y % w)) h ty d a b s)
/-- VSHR (R133). -/
def execVshr (h : Hdr) (ty : Fmt) (d : VDst) (a : VSrc) (b : VSrcB) (s : State) : Out :=
  .next (vecBits (fun w x y => x / 2 ^ (y % w)) h ty d a b s)
/-- VSAR (R133). -/
def execVsar (h : Hdr) (ty : Fmt) (d : VDst) (a : VSrc) (b : VSrcB) (s : State) : Out :=
  .next (vecBits (fun w x y => wrapTo w (sext w x / (2 ^ (y % w) : Nat))) h ty d a b s)

/-- VCMP (R134): bits of inactive lanes stay, bits L to 511 clear (R127). -/
def execVcmp (h : Hdr) (ty : Fmt) (d : Fin 16) (a : VSrc) (b : VSrcB) (k : Cond) (s : State) : Out :=
  let pc := s.bank.pc
  .next (s.issue ((Need.ofV h).v a |>.vb b |>.dm d (arithLat ty 2 2)) none fun s =>
    let va := s.vec ty a
    let vb := s.vecB ty b
    let g := s.bank.guardMask h
    let n := Fmt.lanes ty
    let rs := (List.range n).map (fun i =>
      if g.getLsbD i then
        let x := laneOf ty.width va i
        let y := laneOf ty.width vb i
        if ty.isFlt then FVal.compare k (.ofBits ty x) (.ofBits ty y) else (compareInt k (readInt ty x) (readInt ty y), 0)
      else (false, 0))
    let val : MaskWord := BitVec.ofNat 512 (laneNat 1 (rs.map (fun r => if r.1 then 1 else 0)))
    let keep : MaskWord := ~~~g &&& BitVec.ofNat 512 (2 ^ n - 1)
    let s' := s.advancePorts (a :: VSrcB.srcs b)
    .ok (s'.result (some (.reg (.m (s.bank.physM d)))) (.mask val (~~~keep)) 2 (orFlags (rs.map (·.2))) pc true))

/-- VSEL (R134). -/
def execVsel (h : Hdr) (ty : Fmt) (d : VDst) (a : MSrc) (b c : VSrc) (s : State) : Out :=
  .next (laneOp ((Need.ofV h).m a |>.v b |>.v c) none h ty.width (Fmt.lanes ty) d 2 [b, c] (fun s =>
    let mk := s.bank.readM a
    let vb := s.vec ty b
    let vc := s.vec ty c
    fun i => (laneOf ty.width (if mk.getLsbD i then vb else vc) i, 0)) s)

/-! ## Conversions (R135 to R140) -/

/-- The elements a conversion takes (R135). -/
def convCount (ty src : Fmt) : Nat := Nat.min (Fmt.lanes ty) (Fmt.lanes src)

/-- VCVT. -/
def vcvtOp (m : Option XmPair) (h : Hdr) (ty src : Fmt) (d : VDst) (a : VSrc) (s : State) : State :=
  laneOp ((Need.ofV h).v a) m h ty.width (convCount ty src) d 6 [a] (fun s =>
    let va := s.vec src a
    fun i => s.bank.convert ty src m (laneOf src.width va i)) s

/-- VCVT (R136). -/
def execVcvt (h : Hdr) (ty src : Fmt) (d : VDst) (a : VSrc) (s : State) : Out := .next (vcvtOp none h ty src d a s)

/-- A word that converts element j with a scale or header of lane j div 32 of vB. -/
def convOp (sw : Nat) (f : Nat → Nat → Nat × FlagSet) (h : Hdr) (ty src : Fmt) (d : VDst) (a b : VSrc) (s : State) : State :=
  laneOp ((Need.ofV h).v a |>.v b) none h ty.width (convCount ty src) d 6 [a, b] (fun s =>
    let va := s.vec src a
    let vb := s.vec (if sw = 16 then .n16 else .n32) b
    fun j => f (laneOf src.width va j) (laneOf sw vb (j / 32))) s

/-- VTOLOG (R137). -/
def execVtolog (h : Hdr) (ty src : Fmt) (d : VDst) (a b : VSrc) (s : State) : Out :=
  .next (convOp 16 (fun x sc =>
    if b10AllZero sc then (Fmt.lzero ty, 0) else linToLog ty (b10Scale sc) (.ofBits src x)) h ty src d a b s)

/-- VFROMLOG (R137). -/
def execVfromlog (h : Hdr) (ty src : Fmt) (d : VDst) (a b : VSrc) (s : State) : Out :=
  .next (convOp 16 (fromLog ty src) h ty src d a b s)

/-- A header whose reserved bits are not zero, among those that active elements use (R139). -/
def badHeader (g : MaskWord) (vb : VecWord) (n : Nat) : Bool :=
  (List.range n).any (fun j => g.getLsbD j && laneOf 32 vb (j / 32) / 2 ^ 24 != 0)

/-- A word of the half-step formats: its headers are checked before any lane is written (R139). -/
def headerOp (f : Nat → Nat → Nat × FlagSet) (h : Hdr) (ty src : Fmt) (d : VDst) (a b : VSrc) (s : State) : State :=
  let pc := s.bank.pc
  s.issue ((Need.ofV h).v a |>.v b |>.dv d 6) none fun s =>
    let va := s.vec src a
    let vb := s.vec .n32 b
    let g := s.bank.guardMask h
    let n := convCount ty src
    if badHeader g vb n then .fault (fault 0x0C)
    else
      let o := lanesRun ty.width n (fun i => g.getLsbD i) (fun j => f (laneOf src.width va j) (laneOf 32 vb (j / 32)))
      .ok ((s.advancePorts [a, b]).resultV d o.val o.bits 6 o.flags pc)

/-- VQNT (R139). -/
def execVqnt (h : Hdr) (ty src : Fmt) (d : VDst) (a b : VSrc) (s : State) : Out :=
  .next (headerOp (fun x hd => quantize ty.width (.ofBits src x) (.ofBits .f16 hd) (bits hd 23 16)) h ty src d a b s)

/-- VDQNT (R139). -/
def execVdqnt (h : Hdr) (ty src : Fmt) (d : VDst) (a b : VSrc) (s : State) : Out :=
  .next (headerOp (fun n hd =>
    let (v, f) := halfStepVal (.ofBits .f16 hd) n (bits hd 23 16)
    let (r, g) := roundVal ty .rne false v
    (r, f ||| g)) h ty src d a b s)

/-- VBSCALE (R138): guard bit b governs destination lane b; every element of a block takes part. -/
def execVbscale (h : Hdr) (ty tgt : Fmt) (d : VDst) (a : VSrc) (s : State) : Out :=
  .next (laneOp ((Need.ofV h).v a) none h 16 (Fmt.lanes ty / 32) d 6 [a] (fun s =>
    let va := s.vec ty a
    fun b => (blockScale tgt ((List.range 32).map (fun j => .ofBits ty (laneOf ty.width va (32 * b + j)))), 0)) s)

/-- The ordered key of a floating value (R140). -/
def orderKey (t : Fmt) (n : Nat) : Nat :=
  let w := t.width
  let n := match FVal.ofBits t n with
    | .nan _ => Fmt.nanBits t
    | .inf _ => n
    | .num d => if d.m = 0 then 0 else n
  if n < 2 ^ (w - 1) then n + 2 ^ (w - 1) else 2 ^ w - 1 - n

/-- VORD (R140). -/
def execVord (h : Hdr) (ty : Fmt) (d : VDst) (a : VSrc) (s : State) : Out :=
  .next (laneOp ((Need.ofV h).v a) none h ty.width (Fmt.lanes ty) d 6 [a] (fun s =>
    let va := s.vec ty a
    fun i => (orderKey ty (laneOf ty.width va i), 0)) s)

/-! ## Reductions and scans (R46, R141) -/

/-- The operations of a reduction. -/
inductive RedOp where
  | add | max | min
  deriving DecidableEq, Repr

/-- The operation of VSCAN's srcc (R89). -/
def RedOp.ofCode (k : Fin 3) : RedOp := match k with | 0 => .add | 1 => .max | 2 => .min

/-- A lane of a reduction: the code of a float, or the exact value of an integer, under the neg and abs of a pair (R64, R141). -/
def redLane (t : Fmt) (m : Option XmPair) (x : Nat) : Int :=
  if t.isFlt then
    match m, FVal.ofBits t x with
    | none, _ | some _, .nan _ => (x : Int)
    | some _, .inf n => ((roundVal t .rne false (adjF m 0 (.inf n))).1 : Int)
    | some _, .num d => ((roundVal t .rne false (adjF m 0 (.num d))).1 : Int)
  else adjI m 0 (readInt t x)

/-- One step of a reduction, rounded or wrapped in the element type. -/
def redStep (op : RedOp) (t : Fmt) (m : Option XmPair) (x y : Int) : Int × FlagSet :=
  if t.isFlt then
    let a := FVal.ofBits t x.toNat
    let b := FVal.ofBits t y.toNat
    let (r, f) := match op with
      | .add => FVal.add (modeOf m) a b
      | .max => FVal.max a b
      | .min => FVal.min a b
    let (v, g) := roundVal t (modeOf m) (satOf m) r
    (v, f ||| g)
  else
    let (v, g) := stepI t m (match op with
      | .add => x + y
      | .max => if x < y then y else x
      | .min => if y < x then y else x)
    (readInt t v, g)

/-- The result of a reduction with no active lane (R141). -/
def redEmpty (op : RedOp) (t : Fmt) : Int :=
  if t.isFlt then
    match op with
    | .add => 0
    | .max => Fmt.withSign t true (Fmt.infBits t)
    | .min => Fmt.infBits t
  else
    match op with
    | .add => 0
    | .max => intMin t
    | .min => intMax t

/-- A step on lanes that may be absent (R141). -/
def redPair (op : RedOp) (t : Fmt) (m : Option XmPair) : Option Int → Option Int → Option Int × FlagSet
  | none, y => (y, 0)
  | x, none => (x, 0)
  | some x, some y => let (r, f) := redStep op t m x y; (some r, f)

/-- One level of the tree: the lower half with the upper half. -/
def redLevel (op : RedOp) (t : Fmt) (m : Option XmPair) (l : List (Option Int)) : List (Option Int) × FlagSet :=
  let h := l.length / 2
  let rs := ((l.take h).zip (l.drop h)).map (fun p => redPair op t m p.1 p.2)
  (rs.map (·.1), orFlags (rs.map (·.2)))

/-- The tree of R46 over 2^k lanes. -/
def redTree (op : RedOp) (t : Fmt) (m : Option XmPair) : Nat → List (Option Int) → FlagSet → Option Int × FlagSet
  | 0, l, f => (l.headD none, f)
  | k + 1, l, f =>
    let (l', g) := redLevel op t m l
    redTree op t m k l' (f ||| g)

/-- Scale and clamp, once, on a result of a reduction or scan (R141). Without a pair a lane that no step has touched is delivered as it is
(log 17); under one it is rounded, wrapped or saturated as R64 does. -/
def Bank.redFinish (b : Bank) (t : Fmt) (m : Option XmPair) (x : Int) : Nat × FlagSet :=
  if t.isFlt then
    match m with
    | none => (x.toNat, 0)
    | some _ => b.finishF t m (.ofBits t x.toNat, 0)
  else b.finishI t m x

/-- VREDADD, VREDMAX and VREDMIN. -/
def redOp (op : RedOp) (m : Option XmPair) (h : Hdr) (ty : Fmt) (d : VDst) (a : VSrc) (s : State) : State :=
  let pc := s.bank.pc
  s.issue ((Need.ofV h).v a |>.dv d 12) m fun s =>
    let va := s.vec ty a
    let g := s.bank.guardMask h
    let n := Fmt.lanes ty
    let l := (List.range n).map (fun i => if g.getLsbD i then some (redLane ty m (laneOf ty.width va i)) else none)
    let (r, f) := redTree op ty m (Nat.log2 n) l 0
    let (y, f') := s.bank.redFinish ty m (r.getD (redEmpty op ty))
    .ok ((s.advancePorts [a]).resultV d (BitVec.ofNat 2048 (y % 2 ^ ty.width)) (BitVec.allOnes 2048) 12 (f ||| f') pc)

/-- VREDADD (R141). -/
def execVredadd (h : Hdr) (ty : Fmt) (d : VDst) (a : VSrc) (s : State) : Out := .next (redOp .add none h ty d a s)
/-- VREDMAX (R141). -/
def execVredmax (h : Hdr) (ty : Fmt) (d : VDst) (a : VSrc) (s : State) : Out := .next (redOp .max none h ty d a s)
/-- VREDMIN (R141). -/
def execVredmin (h : Hdr) (ty : Fmt) (d : VDst) (a : VSrc) (s : State) : Out := .next (redOp .min none h ty d a s)

/-- The running results of a scan over lanes that may be absent, with their flags: the first active lane receives its own value, in the type. -/
def scanList (op : RedOp) (t : Fmt) (m : Option XmPair) : Option Int → List (Option Int) → List (Option Int × FlagSet)
  | _, [] => []
  | acc, none :: r => (none, 0) :: scanList op t m acc r
  | none, some x :: r =>
    let (y, f) := if t.isFlt then (x, 0) else let (v, f) := stepI t m x; (readInt t v, f)
    (some y, f) :: scanList op t m (some y) r
  | some a, some x :: r =>
    let (y, f) := redStep op t m a x
    (some y, f) :: scanList op t m (some y) r

/-- VSCAN. -/
def vscanOp (m : Option XmPair) (h : Hdr) (ty : Fmt) (d : VDst) (a : VSrc) (k : Fin 3) (s : State) : State :=
  let pc := s.bank.pc
  s.issue ((Need.ofV h).v a |>.dv d 12) m fun s =>
    let va := s.vec ty a
    let g := s.bank.guardMask h
    let n := Fmt.lanes ty
    let l := (List.range n).map (fun i => if g.getLsbD i then some (redLane ty m (laneOf ty.width va i)) else none)
    let rs := scanList (RedOp.ofCode k) ty m none l
    let ys := rs.map (fun r => match r.1 with
      | none => (0, r.2)
      | some x => let (y, f) := s.bank.redFinish ty m x; (y, r.2 ||| f))
    .ok ((s.advancePorts [a]).resultV d (BitVec.ofNat 2048 (laneNat ty.width (ys.map (·.1))))
      (laneBits ty.width n (fun i => g.getLsbD i)) 12 (orFlags (ys.map (·.2))) pc)

/-- VSCAN (R141). -/
def execVscan (h : Hdr) (ty : Fmt) (d : VDst) (a : VSrc) (op : Fin 3) (s : State) : Out :=
  .next (vscanOp none h ty d a op s)

/-! ## Histogram, compression, movement (R142 to R146) -/

/-- A word that writes its whole destination. -/
def wholeOp (need : Need) (d : VDst) (lat : Nat) (srcs : List VSrc) (f : State → VecWord × State) (s : State) : State :=
  let pc := s.bank.pc
  s.issue (need.dv d lat) none fun s =>
    let (v, s) := f s
    .ok ((s.advancePorts srcs).resultV d v (BitVec.allOnes 2048) lat 0 pc)

/-- VHIST (R142). -/
def execVhist (h : Hdr) (ty : Fmt) (d : VDst) (a : VSrc) (b : SrcB) (s : State) : Out :=
  .next (wholeOp ((Need.ofV h).v a |>.sb b) d 8 [a] (fun s =>
    let va := s.vec ty a
    let (y, s) := s.readB immZext b
    let p := y.toNat % 64
    let g := s.bank.guardMask h
    let ds := (List.range (Fmt.lanes ty)).filterMap (fun i =>
      if g.getLsbD i then some ((laneOf ty.width va i / 2 ^ p) % 16) else none)
    (mkVec ty.width 16 (fun j => ds.count j), s)) s)

/-- VCMPRS (R143). -/
def execVcmprs (h : Hdr) (ty : Fmt) (d : VDst) (a : VSrc) (s : State) : Out :=
  .next (wholeOp ((Need.ofV h).v a) d 3 [a] (fun s =>
    let va := s.vec ty a
    let g := s.bank.guardMask h
    (BitVec.ofNat 2048 (laneNat ty.width ((List.range (Fmt.lanes ty)).filterMap (fun i =>
      if g.getLsbD i then some (laneOf ty.width va i) else none))), s)) s)

/-- VPERM (R144): within aligned groups of 16 lanes for the 4-bit types. -/
def execVperm (h : Hdr) (ty : Fmt) (d : VDst) (a b : VSrc) (s : State) : Out :=
  .next (laneOp ((Need.ofV h).v a |>.v b) none h ty.width (Fmt.lanes ty) d 3 [a, b] (fun s =>
    let va := s.vec ty a
    let vb := s.vec ty b
    fun i =>
      let x := laneOf ty.width vb i
      (laneOf ty.width va (if ty.width = 4 then 16 * (i / 16) + x else x % Fmt.lanes ty), 0)) s)

/-- A lane-wise word whose B# is a count or lane number in a scalar source (R130). -/
def countOp (need : Need) (h : Hdr) (ty : Fmt) (d : VDst) (b : SrcB) (srcs : List VSrc)
    (f : State → Nat → Nat → Nat) (act : Nat → Nat → Bool) (s : State) : State :=
  let pc := s.bank.pc
  s.issue ((need.sb b).dv d 3) none fun s =>
    let g := s.bank.guardMask h
    let (y, s) := s.readB immZext b
    let o := lanesRun ty.width (Fmt.lanes ty) (fun i => g.getLsbD i && act y.toNat i) (fun i => (f s y.toNat i, 0))
    .ok ((s.advancePorts srcs).resultV d o.val o.bits 3 0 pc)

/-- VSLIDE (R145). -/
def execVslide (h : Hdr) (ty : Fmt) (d : VDst) (a : VSrc) (b : SrcB) (down : Bool) (s : State) : Out :=
  .next (countOp ((Need.ofV h).v a) h ty d b [a] (fun s k i =>
    let va := s.vec ty a
    if down then (if i + k < Fmt.lanes ty then laneOf ty.width va (i + k) else 0)
    else if k ≤ i then laneOf ty.width va (i - k) else 0) (fun _ _ => true) s)

/-- VBCAST (R146). -/
def execVbcast (h : Hdr) (ty : Fmt) (d : VDst) (a : SSrc) (s : State) : Out :=
  let pc := s.bank.pc
  .next (s.issue ((Need.ofV h).s a |>.dv d 3) none fun s =>
    let g := s.bank.guardMask h
    let (x, s) := s.readS a
    .ok (s.resultV d (mkVec ty.width (Fmt.lanes ty) (fun _ => x.toNat))
      (laneBits ty.width (Fmt.lanes ty) (fun i => g.getLsbD i)) 3 0 pc))

/-- VEXT (R146). -/
def execVext (h : Hdr) (ty : Fmt) (d : SDst) (a : VSrc) (b : SrcB) (s : State) : Out :=
  let pc := s.bank.pc
  .next (s.issue ((Need.ofV h).v a |>.sb b |>.ds d 3) none fun s =>
    let va := s.vec ty a
    let (y, s) := s.readB immZext b
    .ok ((s.advancePorts [a]).resultS d (toWord ty (laneOf ty.width va (y.toNat % Fmt.lanes ty))) 3 0 pc))

/-- VINS (R146): its destination is read and written (R89), so that the other lanes keep what the register held at issue (R59). -/
def execVins (h : Hdr) (ty : Fmt) (d : Fin 64) (a : SSrc) (b : SrcB) (s : State) : Out :=
  let pc := s.bank.pc
  .next (s.issue ((Need.ofV h).v (.v d) |>.s a |>.sb b |>.dv (.v d) 3) none fun s =>
    let g := s.bank.guardMask h
    let old := s.vec ty (.v d)
    let (x, s) := s.readS a
    let (y, s) := s.readB immZext b
    let j := y.toNat % Fmt.lanes ty
    let lane := laneBits ty.width (Fmt.lanes ty) (fun i => i == j)
    let new := mkVec ty.width (Fmt.lanes ty) (fun _ => x.toNat)
    .ok (s.resultV (.v d) ((old &&& ~~~lane) ||| (new &&& lane)) (if g.getLsbD j then BitVec.allOnes 2048 else 0) 3 0 pc))

/-- VIOTA (R146). -/
def execViota (h : Hdr) (ty : Fmt) (d : VDst) (a : SSrc) (s : State) : Out :=
  let pc := s.bank.pc
  .next (s.issue ((Need.ofV h).s a |>.dv d 3) none fun s =>
    let g := s.bank.guardMask h
    let (x, s) := s.readS a
    let o := lanesRun ty.width (Fmt.lanes ty) (fun i => g.getLsbD i) (fun i =>
      if ty.isFlt then roundVal ty .rne false (FVal.ofInt (x.toInt + i)) else (wrapTo ty.width (x.toInt + i), 0))
    .ok (s.resultV d o.val o.bits 3 o.flags pc))

/-! ## Mask words (R147) -/

/-- A mask result of the word at `pc`, all 512 bits. -/
def State.resultM (s : State) (d : Fin 16) (w : MaskWord) (pc : BitVec 15) : State :=
  s.result (some (.reg (.m (s.bank.physM d)))) (.mask w (BitVec.allOnes 512)) 2 0 pc true

/-- MAND, MOR and MXOR. -/
def maskOp (f : MaskWord → MaskWord → MaskWord) (h : Hdr) (d : Fin 16) (a b : MSrc) (s : State) : State :=
  let pc := s.bank.pc
  s.issue ((Need.ofV h).m a |>.m b |>.dm d 2) none fun s =>
    .ok (s.resultM d (f (s.bank.readM a) (s.bank.readM b)) pc)

/-- MAND (R147). -/
def execMand (h : Hdr) (d : Fin 16) (a b : MSrc) (s : State) : Out := .next (maskOp (· &&& ·) h d a b s)
/-- MOR (R147). -/
def execMor (h : Hdr) (d : Fin 16) (a b : MSrc) (s : State) : Out := .next (maskOp (· ||| ·) h d a b s)
/-- MXOR (R147). -/
def execMxor (h : Hdr) (d : Fin 16) (a b : MSrc) (s : State) : Out := .next (maskOp (· ^^^ ·) h d a b s)
/-- MNOT (R147). -/
def execMnot (h : Hdr) (d : Fin 16) (a : MSrc) (s : State) : Out := .next (maskOp (fun x _ => ~~~x) h d a a s)

/-- The index of the lowest set bit below n, or n (R147). -/
def lowestSet (v : Nat) (n : Nat) : Nat := ((List.range n).find? (fun i => v.testBit i)).getD n

/-- MPOP and MFIRST. -/
def maskCount (f : Nat → Nat → Nat) (h : Hdr) (ty : Fmt) (d : SDst) (a : MSrc) (s : State) : State :=
  let pc := s.bank.pc
  s.issue ((Need.ofV h).m a |>.ds d 2) none fun s =>
    .ok (s.resultS d (BitVec.ofNat 64 (f (s.bank.readM a).toNat (Fmt.lanes ty))) 2 0 pc)

/-- MPOP (R147). -/
def execMpop (h : Hdr) (ty : Fmt) (d : SDst) (a : MSrc) (s : State) : Out := .next (maskCount onesBelow h ty d a s)
/-- MFIRST (R147). -/
def execMfirst (h : Hdr) (ty : Fmt) (d : SDst) (a : MSrc) (s : State) : Out := .next (maskCount lowestSet h ty d a s)

end Sys2Proof.Machine
end

