-- ==== Sys2Proof/Machine/Csr.lean ====
section
/-!
DEFINITION. The control and status registers of R96 and the two words that reach them (R108), with the writes that have
rules of their own: queue control words (R71), ksplit (R162), amax (R230).
-/
namespace Sys2Proof.Machine

/-! ## Queues of a bank -/

/-- The number of a queue (R92). -/
def QCode.idx : QCode → Fin 4
  | .anvil => 0
  | .copy0 => 1
  | .copy1 => 2
  | .coll => 3

/-- A queue of a bank. -/
def Bank.queue (b : Bank) (q : QCode) : Queue := b.queues[QCode.idx q]

/-- Replace a queue of a bank. -/
def Bank.setQueue (b : Bank) (q : QCode) (x : Queue) : Bank := { b with queues := b.queues.set (QCode.idx q) x }

/-- The engine that serves a queue (R12). -/
def QCode.engine : QCode → Eng
  | .anvil => .anvil
  | .copy0 => .copy
  | .copy1 => .copy
  | .coll => .coll

/-- An engine of a core. -/
def Core.engine (c : Core) : Eng → Engine
  | .anvil => c.anvil
  | .copy => c.copy
  | .coll => c.coll

/-- Replace an engine of a core. -/
def Core.setEngine (c : Core) (e : Eng) (x : Engine) : Core :=
  match e with
  | .anvil => { c with anvil := x }
  | .copy => { c with copy := x }
  | .coll => { c with coll := x }

/-- The element size of a queue in bytes (R71). -/
def Queue.esz (q : Queue) : Nat := 16 * 2 ^ q.esize.toNat

/-- The 64 bits of a queue control word (R71). -/
def Queue.word (q : Queue) : Word :=
  BitVec.ofNat 64 ((if q.en then 2 ^ 63 else 0) + (q.count % 2048) * 2 ^ 52 + (q.head % 1024) * 2 ^ 42
    + q.esize.toNat * 2 ^ 40 + (q.depthm1 % 1024) * 2 ^ 30 + q.base % 2 ^ 22)

/-- The layout a written word gives a queue, empty (R71). -/
def Queue.ofWord (v : Word) (en : Bool) : Queue :=
  { en := en, count := 0, head := 0, esize := v.extractLsb' 40 2, depthm1 := (v.extractLsb' 30 10).toNat
    base := (v.extractLsb' 0 22).toNat, hd := .waiting, closing := false, forks := [], since := 0 }

/-- The checks of a write that takes the layout (R71). -/
def Queue.layoutFault (v : Word) : Option TrapInfo :=
  let q := Queue.ofWord v false
  if q.esize = 3 then some (fault 0x01)
  else if q.base % q.esz ≠ 0 then some (faultAt 0x05 (BitVec.ofNat 64 q.base))
  else if q.base + (q.depthm1 + 1) * q.esz > localSize then some (faultAt 0x06 (BitVec.ofNat 64 q.base))
  else none

/-- A queue's head entry has faulted: it stays, but under a queue that was disabled after its start it is discarded like the others
(R71, R194). -/
def Queue.faulted (q : Queue) : Queue :=
  if q.closing then { q with count := 0, head := 0, hd := .waiting, closing := false, forks := [] } else { q with hd := .faulted }

/-- Disable a queue: entries not started are discarded; a started one is finished first (R71). Until then the word shows a count of 1 and
the entry's head (DESIGN CHOICE, log 21). -/
def Queue.disable (q : Queue) : Queue :=
  match q.hd with
  | .started => { q with en := false, count := Nat.min 1 q.count, closing := true, forks := q.forks.take 1 }
  | .waiting | .faulted => { q with en := false, count := 0, head := 0, hd := .waiting, forks := [] }

/-- CSRW to a disabled queue's control word: the layout is taken, and the queue starts where en = 1 (R71). -/
def Bank.configureQueue (b : Bank) (q : QCode) (v : Word) : Bank := b.setQueue q (.ofWord v (v.getLsbD 63))

/-- A CSRW to a queue control word (R71). A queue that is finishing its last entry takes a new layout afterwards: the
write waits (log 14). -/
def qcwWrite (q : QCode) (v : Word) (s : State) : Result :=
  let x := s.bank.queue q
  if x.closing then .stall
  else if !x.en then
    match Queue.layoutFault v with
    | some t => .fault t
    | none => .ok (s.modBank (fun b => b.configureQueue q v))
  else if v.getLsbD 63 then .ok s
  else .ok (s.modBank (fun b => b.setQueue q x.disable))

/-- Every queue of a bank is empty. -/
def Bank.queuesEmpty (b : Bank) : Bool := b.queues.toList.all (fun q => q.count == 0)

/-- A CSRW to ksplit (R162). -/
def ksplitWriteOp (v : Word) (s : State) : Result :=
  if (s.cur.bank !s.focus.bank).job.isSome then .fault (fault 0x1A)
  else if !(s.cur.bank0.queuesEmpty && s.cur.bank1.queuesEmpty) then .stall
  else .ok (s.modCur (fun c => { c with ksplit := v.getLsbD 0 }))

/-! ## amax (R229, R230) -/

/-- One update of amax with a candidate magnitude (R230). -/
def amaxUpdate (cur m : BitVec 32) : BitVec 32 :=
  match FVal.ofBits .f32 cur.toNat with
  | .nan _ => m
  | .inf n => if n then m else cur
  | .num d =>
    if cur.getLsbD 31 && d.m != 0 then m
    else if FVal.below false (.num d) (.ofBits .f32 m.toNat) then m else cur

/-- Apply an engine's update of amax, keeping it aside for an AMAXC of the same cycle (R230). -/
def Bank.updateAmax (b : Bank) (i : Fin 4) (m : BitVec 32) : Bank :=
  { b with amax := b.amax.set i (amaxUpdate b.amax[i] m)
           amaxNow := b.amaxNow.set i (some (match b.amaxNow[i] with
             | none => m
             | some x => amaxUpdate x m)) }

/-- A write of amax by AMAXC is applied before an update of the same cycle (R230). -/
def Bank.writeAmax (b : Bank) (i : Fin 4) (v : BitVec 32) : Bank :=
  { b with amax := b.amax.set i (match b.amaxNow[i] with
      | none => v
      | some m => amaxUpdate v m) }

/-! ## Reading (R96) -/

/-- tcause (R122). -/
def TrapRec.cause (t : TrapRec) : Word :=
  BitVec.ofNat 64 ((if t.act then 2 ^ 31 else 0) + t.src.toNat * 2 ^ 12 + (if t.imp then 256 else 0) + t.code.toNat)

/-- tinfo (R122). -/
def TrapRec.info (t : TrapRec) : Word :=
  BitVec.ofNat 64 (t.aflags.toNat * 2 ^ 48 + t.mpc.toNat * 2 ^ 32 + t.detail.toNat * 2 ^ 16 + t.rpc.toNat)

/-- The value of a CSR of a bank, or none where the number is not in R96. -/
def State.csr (s : State) (core : Nat) (bank : Bool) (n : BitVec 16) : Option Word :=
  let c := s.core core
  let b := c.bank bank
  match n.toNat with
  | 0x00 => some (b.arst.setWidth 64)
  | 0x01 => some (b.vrb.setWidth 64)
  | 0x02 => some (b.mrb.setWidth 64)
  | 0x03 => some (if b.check then 1 else 0)
  | 0x04 => some (s.die (dieOf core)).featmask
  | 0x08 => some (b.queue .anvil).word
  | 0x09 => some (b.queue .copy0).word
  | 0x0A => some (b.queue .copy1).word
  | 0x0B => some (b.queue .coll).word
  | 0x10 => some (b.amax[0].setWidth 64)
  | 0x11 => some (b.amax[1].setWidth 64)
  | 0x12 => some (b.amax[2].setWidth 64)
  | 0x13 => some (b.amax[3].setWidth 64)
  | 0x18 => some (c.pts.setWidth 64)
  | 0x19 => some (c.lease1.setWidth 64)
  | 0x1A => some (c.lease2.setWidth 64)
  | 0x1B => some (c.tick.setWidth 64)
  | 0x1C => some c.staleReads
  | 0x1D => some c.staleWindows
  | 0x20 => some b.trap.cause
  | 0x21 => some (b.trap.tpc.setWidth 64)
  | 0x22 => some b.trap.taddr
  | 0x23 => some (b.trap.name0.extractLsb' 0 64)
  | 0x24 => some (b.trap.name0.extractLsb' 64 64)
  | 0x25 => some (b.trap.name1.extractLsb' 0 64)
  | 0x26 => some (b.trap.name1.extractLsb' 64 64)
  | 0x27 => some b.trap.info
  | 0x28 => some (b.tvecHdlr.setWidth 64 ||| (if b.tvecEn then 0x8000 else 0))
  | 0x30 => some (if c.ksplit then 1 else 0)
  | 0x31 => some b.overrun
  | 0x32 => some c.msize
  | _ => none

/-- CSRR (R108): the value is sampled at the end of the cycle after issue. -/
def execCsrr (h : Hdr) (d : SDst) (n : BitVec 16) (s : State) : Out :=
  let pc := s.bank.pc
  .next (s.issue ((Need.of h).ds d 2) none fun s =>
    if (s.csr s.focus.core s.focus.bank n).isNone then .fault (fault 0x01)
    else .ok (s.result (some (SDst.rdst d)) (.sample (.csr n)) 2 0 pc false))

/-! ## Writing (R4, R96, R108) -/

/-- A privileged write: fault 0x04 without privilege (R108, R330). -/
def privWrite (s : State) (r : State) : Result := if s.bank.priv then .ok r else .fault (fault 0x04)

/-- A lease length: a write of 0 stores 1 (R308). -/
def leaseLen (v : Word) : BitVec 12 := if v.extractLsb' 0 12 = (0 : BitVec 12) then 1 else v.extractLsb' 0 12

/-- Replace the trap record. -/
def State.modTrap (s : State) (f : TrapRec → TrapRec) : State := s.modBank (fun b => { b with trap := f b.trap })

/-- A name with its low or high half replaced (R96). -/
def Name.half (n : Name) (hi : Bool) (v : Word) : Name :=
  if hi then v ++ n.extractLsb' 0 64 else n.extractLsb' 64 64 ++ v

/-- The effect of CSRW on a CSR, field by field by its access code. -/
def csrWrite (n : BitVec 16) (v : Word) (s : State) : Result :=
  match n.toNat with
  | 0x00 => .ok (s.modBank (fun b => b.writeArst v))
  | 0x01 => .ok (s.modBank (fun b => { b with vrb := v.setWidth 5 }))
  | 0x02 => .ok (s.modBank (fun b => { b with mrb := v.setWidth 3 }))
  | 0x03 => privWrite s (s.modBank (fun b => { b with check := v.getLsbD 0 }))
  | 0x08 => qcwWrite .anvil v s
  | 0x09 => qcwWrite .copy0 v s
  | 0x0A => qcwWrite .copy1 v s
  | 0x0B => qcwWrite .coll v s
  | 0x10 => .ok (s.modBank (fun b => { b with amax := b.amax.set 0 (v.setWidth 32) }))
  | 0x11 => .ok (s.modBank (fun b => { b with amax := b.amax.set 1 (v.setWidth 32) }))
  | 0x12 => .ok (s.modBank (fun b => { b with amax := b.amax.set 2 (v.setWidth 32) }))
  | 0x13 => .ok (s.modBank (fun b => { b with amax := b.amax.set 3 (v.setWidth 32) }))
  | 0x19 => privWrite s (s.modCur (fun c => { c with lease1 := leaseLen v }))
  | 0x1A => privWrite s (s.modCur (fun c => { c with lease2 := leaseLen v }))
  | 0x1B => privWrite s (s.modCur (fun c => { c with tick := v.setWidth 32, tickAt := s.cycle }))
  | 0x1C => .ok (s.modCur (fun c => { c with staleReads := c.staleReads &&& ~~~v }))
  | 0x1D => .ok (s.modCur (fun c => { c with staleWindows := c.staleWindows &&& ~~~v }))
  | 0x20 => .ok (s.modTrap (fun t =>
      { t with src := v.extractLsb' 12 4, imp := v.getLsbD 8, code := v.extractLsb' 0 8 }))
  | 0x21 => .ok (s.modTrap (fun t => { t with tpc := v.setWidth 15 }))
  | 0x22 => .ok (s.modTrap (fun t => { t with taddr := v }))
  | 0x23 => .ok (s.modTrap (fun t => { t with name0 := Name.half t.name0 false v }))
  | 0x24 => .ok (s.modTrap (fun t => { t with name0 := Name.half t.name0 true v }))
  | 0x25 => .ok (s.modTrap (fun t => { t with name1 := Name.half t.name1 false v }))
  | 0x26 => .ok (s.modTrap (fun t => { t with name1 := Name.half t.name1 true v }))
  | 0x27 => .ok (s.modTrap (fun t => { t with
      aflags := v.extractLsb' 48 8, mpc := v.extractLsb' 32 12, detail := v.extractLsb' 16 16, rpc := v.extractLsb' 0 15 }))
  | 0x28 => privWrite s (s.modBank (fun b => { b with tvecEn := v.getLsbD 15, tvecHdlr := v.setWidth 15 }))
  | 0x30 => if s.bank.priv then ksplitWriteOp v s else .fault (fault 0x04)
  | 0x31 => .ok (s.modBank (fun b => { b with overrun := b.overrun &&& ~~~v }))
  | 0x32 => .ok (s.modCur (fun c => { c with msize := c.msize &&& ~~~v }))
  | _ => .fault (fault 0x01)

/-- CSRW (R108): it is checked at issue and takes effect after the cycle. -/
def execCsrw (h : Hdr) (n : BitVec 16) (a : SSrc) (s : State) : Out :=
  .next (s.issue ((Need.of h).s a) none fun s =>
    let (v, s) := s.readS a
    match csrWrite n v s with
    | .stall => .stall
    | .fault t => .fault t
    | .ok _ => .ok (s.modBank (fun b => { b with csrws := b.csrws ++ [(n, v)] })))

/-- The CSR writes of a bank in a cycle take effect (R108). -/
def State.applyCsrws (s : State) (core : Nat) (bank : Bool) : State :=
  let l := (s.bankAt core bank).csrws
  if l.isEmpty then s
  else
    let f := s.focus
    let s := { s with focus := { core := core, bank := bank, eng := none } }.modBankAt core bank (fun b => { b with csrws := [] })
    let s := l.foldl (fun (s : State) x => match csrWrite x.1 x.2 s with
      | .ok t => t
      | .stall | .fault _ => s) s
    { s with focus := f }

/-! ## The side cases as steps of their own -/

/-- A result taken on the acting bank: a fault traps, a wait changes nothing. -/
def State.take (s : State) : Result → State
  | .stall => s
  | .fault t => s.trap t
  | .ok s' => s'

/-- QCW_CONFIGURE (R71): a write with en = 0 to a disabled queue. -/
def execQcwConfigure (q : QCode) (v : Word) (s : State) : Out :=
  .next (if (s.bank.queue q).en then s else s.take (qcwWrite q (v &&& 0x7FFFFFFFFFFFFFFF) s))

/-- QCW_ENABLE (R71): a write with en = 1 to a disabled queue. -/
def execQcwEnable (q : QCode) (v : Word) (s : State) : Out :=
  .next (if (s.bank.queue q).en then s else s.take (qcwWrite q (v ||| 0x8000000000000000) s))

/-- QCW_DISABLE (R71): a write with en = 0 to an enabled queue. -/
def execQcwDisable (q : QCode) (v : Word) (s : State) : Out :=
  .next (if (s.bank.queue q).en then s.take (qcwWrite q (v &&& 0x7FFFFFFFFFFFFFFF) s) else s)

/-- KSPLIT_WRITE (R162). -/
def execKsplitWrite (v : Word) (s : State) : Out := .next (s.take (ksplitWriteOp v s))

end Sys2Proof.Machine
end

