-- ==== Sys2Proof/Machine/LocalMem.lean ====
section
/-!
DEFINITION. The words that reach local memory: LD and ST (R106, R107), VLD and VST (R149), VGATH and VSCAT (R150),
PORTCFG (R153). Their accesses set out at issue and take their memory banks in the next cycle or later (R187).
-/
namespace Sys2Proof.Machine

/-- LD (R106, R187): the value lands 5 cycles later, or after that where others want its memory banks. -/
def execLd (h : Hdr) (ty : Fmt) (d : SDst) (mm : MemOp) (al : BitVec 4) (s : State) : Out :=
  .next (s.issue ((Need.of h).addr mm |>.dTag d 5 |>.tag al |>.local) none fun s =>
    let (a, s) := s.readAddr mm
    let n := ty.width / 8
    match windowFault a.toNat n with
    | some t => .fault t
    | none => .ok (s.loadLocal (s.newTag al [SDst.rdst d] ty 0 0 5) 4 true (loadMoves a.toNat n)))

/-- ST (R106). -/
def execSt (h : Hdr) (ty : Fmt) (mm : MemOp) (c : SSrc) (s : State) : Out :=
  .next (s.issue ((Need.of h).addr mm |>.s c |>.local) none fun s =>
    let (a, s) := s.readAddr mm
    let (v, s) := s.readS c
    let n := ty.width / 8
    match windowFault a.toNat n with
    | some t => .fault t
    | none => .ok (s.storeLocal a.toNat (leBytes n v.toNat)))

/-- The alignment and window rules of a 256-byte local vector (R149). -/
def vecWindow (a : Nat) : Option TrapInfo :=
  if a % 32 ≠ 0 then some (faultAt 0x05 (BitVec.ofNat 64 a)) else windowFault a 256

/-- The loads of the bytes that have a marked bit, in sectors that hold one (R149). -/
def maskedLoads (a : Nat) (m : List Byte) : List LMove :=
  (loadMoves a m.length).filter (fun x => m.getD x.off 0 != 0)

/-- The register of a tagged vector destination, if it is one. -/
def Bank.vecDst (b : Bank) : VDst → List RDst
  | .v r => [.reg (.v (b.physV r))]
  | .port _ => []

/-- An output port as a tagged destination: its store waits for the data in its place in issue order (R107, R154). -/
def State.tagPort (s : State) (al : BitVec 4) (d : VDst) (bits : VecWord) : State :=
  match d with
  | .v _ => s
  | .port o => s.toPort o 0 bits (fun s l => s.sendTagStore al l)

/-- A word with a tagged vector result: it writes its register under the tag, or needs its output port. -/
def Need.dvTag (n : Need) (d : VDst) (lat : Nat) : Need :=
  match d with
  | .v r => { n with tagDsts := n.tagDsts ++ [(d.code, .v r, lat)] }
  | .port o => { n with outPorts := n.outPorts ++ [o], mem := true }

/-- VLD (R149, R187). -/
def execVld (h : Hdr) (ty : Fmt) (d : VDst) (mm : MemOp) (al : BitVec 4) (s : State) : Out :=
  .next (s.issue ((Need.ofV h).addr mm |>.dvTag d 6 |>.tag al |>.local) none fun s =>
    let (a, s) := s.readAddr mm
    match vecWindow a.toNat with
    | some t => .fault t
    | none =>
      let m := laneBits ty.width (Fmt.lanes ty) (fun i => (s.bank.guardMask h).getLsbD i)
      .ok ((s.loadLocal (s.newTag al (s.bank.vecDst d) ty m 0 6) 5 true (maskedLoads a.toNat (vecBytes m))).tagPort al d m))

/-- VST (R149). -/
def execVst (h : Hdr) (ty : Fmt) (mm : MemOp) (c : VSrc) (s : State) : Out :=
  .next (s.issue ((Need.ofV h).addr mm |>.v c |>.local) none fun s =>
    let v := s.vec ty c
    let m := laneBits ty.width (Fmt.lanes ty) (fun i => (s.bank.guardMask h).getLsbD i)
    let (a, s) := s.readAddr mm
    match vecWindow a.toNat with
    | some t => .fault t
    | none => .ok ((s.advancePorts [c]).storeMasked a.toNat (vecBytes v) (vecBytes m)))

/-! ## Gather and scatter (R150) -/

/-- A 4-bit type is handled exactly as n8 (R150). -/
def gatherType (t : Fmt) : Fmt := if t.width = 4 then .n8 else t

/-- The addresses of the active lanes: lane and address modulo 2^64. -/
def gatherAddrs (t : Fmt) (base : Word) (vb : VecWord) (k : Nat) (g : MaskWord) : List (Nat × Nat) :=
  (List.range (Fmt.lanes t)).filterMap (fun i =>
    if g.getLsbD i then some (i, (base + (BitVec.ofNat 64 (laneOf t.width vb i) <<< k)).toNat) else none)

/-- What is wrong with a lane's address: alignment before the window. -/
def laneFault (n a : Nat) : Option TrapInfo :=
  if a % n ≠ 0 then some (faultAt 0x05 (BitVec.ofNat 64 a)) else windowFault a n

/-- The fault of the lowest offending address. -/
def gatherFault (n : Nat) : List (Nat × Nat) → Option TrapInfo
  | [] => none
  | (_, a) :: r =>
    match laneFault n a, gatherFault n r with
    | some t, some u => if u.taddr.toNat < t.taddr.toNat then some u else some t
    | some t, none => some t
    | none, u => u

/-- The most distinct 64-byte blocks that any one memory bank must serve (R150). -/
def gatherLoad (l : List (Nat × Nat)) : Nat :=
  let blocks := dedup (l.map (fun p => p.2 / 64))
  maxNat 1 ((List.range 32).map (fun k => (blocks.filter (fun b => unitOf b == k)).length))

/-- The loads of the lanes of a gather, lane by lane of `n` bytes. -/
def gatherMoves (n : Nat) (l : List (Nat × Nat)) : List LMove :=
  l.flatMap (fun p => (loadMoves p.2 n).map (fun m => { m with off := p.1 * n + m.off }))

/-- The stores of the lanes of a scatter. -/
def scatterMoves (n : Nat) (v : Nat → Nat) (l : List (Nat × Nat)) : List LMove :=
  l.flatMap (fun p => storeMoves p.2 0 (leBytes n (v p.1)) (List.replicate n 0xFF))

/-- VGATH (R150). -/
def execVgath (h : Hdr) (ty : Fmt) (d : VDst) (a : SSrc) (b : VSrc) (k : Fin 8) (al : BitVec 4) (s : State) : Out :=
  .next (s.issue ((Need.ofV h).s a |>.v b |>.dvTag d 8 |>.tag al |>.local) none fun s =>
    let t := gatherType ty
    let vb := s.vec t b
    let g := s.bank.guardMask h
    let (x, s) := s.readS a
    let l := gatherAddrs t x vb k.val g
    match gatherFault (t.width / 8) l with
    | some f => .fault f
    | none =>
      let s := s.advancePorts [b]
      let m := laneBits t.width (Fmt.lanes t) (fun i => g.getLsbD i)
      let r := s.newTag al (s.bank.vecDst d) t m 0 (7 + gatherLoad l)
      .ok ((s.loadLocal r 7 false (gatherMoves (t.width / 8) l)).tagPort al d m))

/-- VSCAT (R150): the highest-numbered lane's value stands where lanes meet. -/
def execVscat (h : Hdr) (ty : Fmt) (a : SSrc) (b : VSrc) (k : Fin 8) (c : VSrc) (s : State) : Out :=
  .next (s.issue ((Need.ofV h).s a |>.v b |>.v c |>.local) none fun s =>
    let t := gatherType ty
    let vb := s.vec t b
    let vc := s.vec t c
    let g := s.bank.guardMask h
    let (x, s) := s.readS a
    let l := gatherAddrs t x vb k.val g
    match gatherFault (t.width / 8) l with
    | some f => .fault f
    | none => .ok ((s.advancePorts [b, c]).sendStore (scatterMoves (t.width / 8) (laneOf t.width vc) l)))

/-! ## PORTCFG (R152, R153) -/

/-- A port descriptor as its 256 bits give it, with its first vector ready at a cycle. -/
def Port.ofDesc (v : Nat) (ready : Nat) : Port :=
  { base := bits v 21 0, csz := 32 * 2 ^ bits v 33 32
    counts := (List.range 4).map (fun i => bits v (79 + 16 * i) (64 + 16 * i))
    strides := (List.range 4).map (fun i => sext 32 (bits v (159 + 32 * i) (128 + 32 * i)))
    next := 0, readyAt := ready, ahead := [] }

/-- The descriptor of a port (R152). -/
def Port.desc (p : Port) : Nat :=
  p.base + (Nat.log2 (p.csz / 32)) * 2 ^ 32 + sumNat (p.counts.zipIdx.map (fun x => x.1 * 2 ^ (64 + 16 * x.2)))
    + sumNat (p.strides.zipIdx.map (fun x => (x.1 % 2 ^ 32).toNat * 2 ^ (128 + 32 * x.2)))

/-- The lowest byte offset and the highest chunk offset from base that a generator reaches. -/
def portReach : List Nat → List Int → Int × Int
  | n :: ns, d :: ds =>
    let (lo, hi) := portReach ns ds
    let x := ((n : Int) - 1) * d
    (lo + (if x < 0 then x else 0), hi + (if x > 0 then x else 0))
  | _, _ => (0, 0)

/-- The checks of R153 on a descriptor, after its own address. -/
def Port.check (v : Nat) (sa : Word) : Option TrapInfo :=
  let p := Port.ofDesc v 0
  if p.counts.contains 0 || bits v 63 34 != 0 || bits v 31 22 != 0 then some (faultAt 0x0C sa)
  else if p.base % p.csz != 0 || p.strides.any (fun d => d % (p.csz : Int) != 0) then
    some (faultAt 0x05 (BitVec.ofNat 64 p.base))
  else
    let (lo, hi) := portReach p.counts p.strides
    if (p.base : Int) + lo < 0 || (p.base : Int) + hi + p.csz > localSize then some (faultAt 0x06 (BitVec.ofNat 64 p.base))
    else none

/-- Earlier writes of a port's vectors are on their way: an output port is configured after them (R153). -/
def Core.portBusy (c : Core) (bank : Bool) : Bool := c.laccs.any (fun x => x.bank == bank && x.store && x.waits)

/-- PORTCFG (R153). -/
def execPortcfg (h : Hdr) (port : Fin 12) (a : SSrc) (s : State) : Out :=
  .next (s.issue ((Need.ofV h).s a |>.local) none fun s =>
    let (x, s) := s.readS a
    if x.toNat % 32 ≠ 0 then .fault (faultAt 0x05 x)
    else match windowFault x.toNat 32 with
      | some t => .fault t
      | none =>
        if s.cur.streamWaits s.focus.bank x.toNat 32 || (port.val ≥ 8 && s.cur.portBusy s.focus.bank) then .stall
        else
          let v := s.localNat x.toNat 32
          match Port.check v x with
          | some t => .fault t
          | none =>
            .ok ((s.touchLocal x.toNat 32).modBank (fun b =>
              { b with ports := b.ports.set port (some (Port.ofDesc v (s.cycle + 8))) })))

end Sys2Proof.Machine
end

