-- ==== Sys2Proof/Machine/Flow.lean ====
section
/-!
DEFINITION. Branches, rotation, TRAP and RETT (R61, R98, R114 to R119), the XM modifier (R63 to R65), and words that are no
instruction (R66).
-/
namespace Sys2Proof.Machine

/-! ## Transfers of control -/

/-- A taken branch: the target issues `gap` cycles later at the earliest (R61); a target beyond the last word is fault
0x01 with the bad address (R98). -/
def State.jump (s : State) (target : Word) (gap : Nat) : Result :=
  if target.toNat > lastWord then .fault (faultAt 0x01 target)
  else .ok (s.modBank (fun b => { b with pc := target.setWidth 15, bound := s.cycle + gap }))

/-- A branch that is not taken falls through (R61, R98). -/
def State.fallThrough (s : State) : Result :=
  if s.bank.pc.toNat > lastWord then .fault (faultAt 0x01 (s.bank.pc.setWidth 64)) else .ok s

/-- The target of an offset from a word's own address (R114). -/
def branchTarget (pc : BitVec 15) (off : BitVec 16) : Word := pc.setWidth 64 + immSext off

/-- BR (R115). -/
def execBr (h : Hdr) (off : BitVec 16) (s : State) : Out :=
  let target := branchTarget s.bank.pc off
  .next (s.issue (Need.of h).ends none fun s => s.jump target 3)

/-- BRC (R115): the operands are read as integers of the type. -/
def execBrc (h : Hdr) (ty : Fmt) (a b : SSrc) (k : Cond) (off : BitVec 16) (s : State) : Out :=
  let pc := s.bank.pc
  .next (s.issue ((Need.of h).s a |>.s b |>.ends) none fun s =>
    let (x, s) := s.readS a
    let (y, s) := s.readS b
    if compareInt k (readInt ty x.toNat) (readInt ty y.toNat) then s.jump (branchTarget pc off) 3 else s.fallThrough)

/-- A jump to the word address in a scalar source (R115). -/
def jumpOp (h : Hdr) (a : SSrc) (s : State) : State :=
  s.issue ((Need.of h).s a |>.ends) none fun s =>
    let (x, s) := s.readS a
    s.jump x 3

/-- JMPI (R115). -/
def execJmpi (h : Hdr) (a : SSrc) (s : State) : Out := .next (jumpOp h a s)

/-- RET (R115). -/
def execRet (h : Hdr) (a : SSrc) (s : State) : Out := .next (jumpOp h a s)

/-- CALL (R115): the address of the next word is the result. -/
def execCall (h : Hdr) (d : SDst) (off : BitVec 16) (s : State) : Out :=
  let pc := s.bank.pc
  .next (s.issue ((Need.of h).ds d 1 |>.ends) none fun s =>
    (s.resultS d (pc.setWidth 64 + 1) 1 0 pc).jump (branchTarget pc off) 3)

/-- Whether a target lies within the 32 words before a word (R61). -/
def nearBack (off : BitVec 16) : Bool := off.toInt < 0 && off.toInt ≥ -32

/-- A taken LOOP turns the rotation bases back by one (R116). -/
def Bank.rotate (b : Bank) : Bank := { b with vrb := b.vrb - 1, mrb := b.mrb - 1 }

/-- LOOP (R116). -/
def execLoop (h : Hdr) (a : Fin 64) (off : BitVec 16) (s : State) : Out :=
  let pc := s.bank.pc
  .next (s.issue ((Need.of h).s (.s a) |>.ds (.s a) 1 |>.ends) none fun s =>
    if a.val = 0 then .fault (fault 0x01)
    else
      let n := s.bank.getS a - 1
      let s := s.resultS (.s a) n 1 0 pc
      if n = 0 then s.fallThrough
      else (s.modBank Bank.rotate).jump (branchTarget pc off) (if nearBack off then 1 else 3))

/-- ROTSET (R117). -/
def execRotset (h : Hdr) (v : BitVec 5) (m : BitVec 3) (s : State) : Out :=
  .next (s.issue (Need.of h) none fun s => .ok (s.modBank (fun b => { b with vrb := v, mrb := m })))

/-- TRAP (R118). -/
def execTrap (h : Hdr) (code : BitVec 16) (s : State) : Out :=
  .next (s.issue (Need.of h).ends none fun _ => .fault { faultDetail 0x1F code with skip := true })

/-- RETT (R119). -/
def execRett (h : Hdr) (s : State) : Out :=
  .next (s.issue (Need.of h).ends none fun s =>
    if !s.bank.trap.act then .fault (fault 0x01)
    else (s.modBank Bank.returnTrap).jump (s.bank.trap.rpc.setWidth 64) 3)

/-! ## Words that are no instruction (R66, R98) -/

/-- The word at an address of a bank's half of the instruction store. -/
def Bank.word (b : Bank) (pc : Nat) : Word80 := (Sparse.find b.istore pc).getD 0

/-- Fault 0x01 at the word's turn, whatever its guard says: before any other check (R66, R67). -/
def illegalOp (h : Hdr) (src : BitVec 4) (addr : Word) (s : State) : State :=
  if s.cycle < s.bank.earliest (Need.of h) none || s.bank.tagWait (Need.of h) none then s
  else s.trap { faultAt 0x01 addr with src := src }

/-- ILLEGAL_OPCODE (R66): a word of the vector class reports the vector unit (R332). -/
def execIllegalOpcode (w : Word80) (s : State) : Out :=
  let f := Fields.ofWord w
  .next (illegalOp f.hdr (if f.cls = 1 then 1 else 0) 0 s)

/-! ## XM (R63 to R65) -/

/-- The header of an instruction that accepts an XM. -/
def xmHdr : Instr → Option Hdr
  | .add h _ _ _ _ | .sub h _ _ _ _ | .mul h _ _ _ _ | .mulh h _ _ _ _ | .div h _ _ _ _ | .rem h _ _ _ _
  | .min h _ _ _ _ | .max h _ _ _ _ | .fadd h _ _ _ _ | .fmul h _ _ _ _ | .ffma h _ _ _ _ _
  | .fmin h _ _ _ _ | .fmax h _ _ _ _ | .fcvt h _ _ _ _ | .vadd h _ _ _ _ | .vsub h _ _ _ _
  | .vmul h _ _ _ _ | .vfma h _ _ _ _ _ | .vmin h _ _ _ _ | .vmax h _ _ _ _ | .vrcp h _ _ _ | .vrsq h _ _ _
  | .vexp2 h _ _ _ | .vlog2 h _ _ _ | .vcvt h _ _ _ _ | .vredadd h _ _ _ | .vredmax h _ _ _ | .vredmin h _ _ _
  | .vscan h _ _ _ _ => some h
  | _ => none

/-- The meaning of an instruction under an XM, its destination type and the number of its sources. Negation and absolute value of source b
act on an immediate as on a register (DESIGN CHOICE, log 30). -/
def xmPair (m : XmPair) (i : Instr) : Option (Fmt × Nat × (State → State)) :=
  let m := some m
  match i with
  | .add h t d a b => some (t, 2, addOp m h t d a b)
  | .sub h t d a b => some (t, 2, subOp m h t d a b)
  | .mul h t d a b => some (t, 2, mulOp m h t d a b)
  | .mulh h t d a b => some (t, 2, mulhOp m h t d a b)
  | .div h t d a b => some (t, 2, divOp m h t d a b)
  | .rem h t d a b => some (t, 2, remOp m h t d a b)
  | .min h t d a b => some (t, 2, minOp m h t d a b)
  | .max h t d a b => some (t, 2, maxOp m h t d a b)
  | .fadd h t d a b => some (t, 2, faddOp m h t d a b)
  | .fmul h t d a b => some (t, 2, fmulOp m h t d a b)
  | .ffma h t d a b c => some (t, 3, ffmaOp m h t d a b c)
  | .fmin h t d a b => some (t, 2, fminOp m h t d a b)
  | .fmax h t d a b => some (t, 2, fmaxOp m h t d a b)
  | .fcvt h t u d a => some (t, 1, fcvtOp m h t u d a)
  | .vadd h t d a b => some (t, 2, vaddOp m h t d a b)
  | .vsub h t d a b => some (t, 2, vsubOp m h t d a b)
  | .vmul h t d a b => some (t, 2, vmulOp m h t d a b)
  | .vfma h t d a b c => some (t, 3, vfmaOp m h t d a b c)
  | .vmin h t d a b => some (t, 2, vminOp m h t d a b)
  | .vmax h t d a b => some (t, 2, vmaxOp m h t d a b)
  | .vrcp h t d a => some (t, 1, vrcpOp m h t d a)
  | .vrsq h t d a => some (t, 1, vrsqOp m h t d a)
  | .vexp2 h t d a => some (t, 1, vexp2Op m h t d a)
  | .vlog2 h t d a => some (t, 1, vlog2Op m h t d a)
  | .vcvt h t u d a => some (t, 1, vcvtOp m h t u d a)
  | .vredadd h t d a => some (t, 1, redOp .add m h t d a)
  | .vredmax h t d a => some (t, 1, redOp .max m h t d a)
  | .vredmin h t d a => some (t, 1, redOp .min m h t d a)
  | .vscan h t d a op => some (t, 1, vscanOp m h t d a op)
  | _ => none

/-- XM (R63 to R65): the pair is the modified word's meaning under the items; a pair that R65 forbids is fault 0x01 at
the XM's address, from the vector unit where the modified word is one of its words (R122, R332). -/
def execXm (pd : BitVec 4) (x : XmMod) (s : State) : Out :=
  let at_ := s.bank.pc.toNat + 1
  let w := s.bank.word at_
  let hx : Hdr := { guard := 0, pd := pd, usA := x.usC, usB := x.usD }
  let unit : BitVec 4 := if (Fields.ofWord w).cls = 1 then 1 else 0
  .next (
    if at_ > lastWord then illegalOp hx 0 (BitVec.ofNat 64 at_) s
    else match xmPair (pd, x) (decode80 w) with
      | none => illegalOp hx unit 0 s
      | some (t, n, f) =>
        if (Fields.ofWord w).pd = 0 && XmMod.fits x t n then f s else illegalOp hx unit 0 s)

end Sys2Proof.Machine
end

