-- ==== Sys2Proof/Machine/Sync.lean ====
section
/-!
DEFINITION. Queue words (R163 to R167), semaphore words (R168 to R171), barriers and fences (R172, R173), and the switching of
the control stream between two banks (R178, R339, R340).
-/
namespace Sys2Proof.Machine

/-! ## The stream's accesses -/

/-- Put an access on its way for a bank of a core, numbered after those before it. -/
def Core.addAccess (c : Core) (a : Access) : Core := { c with accs := c.accs ++ [{ a with seq := c.accSeq }], accSeq := c.accSeq + 1 }

/-- An access that waits for the stream's earlier accesses and carries a semaphore signal (R170). -/
def signalAccess (bank : Bool) (word : Nat) (k : BitVec 8) (operand : Option Word) (pc : BitVec 15) : Access :=
  { seq := 0, word := word, bank := bank, eng := none, op := .signal k operand pc, vaddr := 0, len := 0
    loc := { lo := 0, nd := 0, q := 0 }, target := .cell, cls := 0, acq := false, rel := true, scope := 0, state := .waiting
    tried := true, direct := false, publish := false, keyid := 0, carry := none, flags := 0, name := 0, detail := 0, upc := 0, half := none }

/-- Remove an access; a release of its agent that waited for it acts in the next cycle at the earliest (R170). -/
def Core.dropAccess (c : Core) (seq : Nat) : Core :=
  match c.accs.find? (fun a => a.seq == seq) with
  | none => c
  | some x => { c with accs := (c.accs.filter (fun a => a.seq != seq)).map (fun a =>
      if a.bank == x.bank && a.eng == x.eng && a.rel then { a with tried := true } else a) }

/-! ## Queue words (R164 to R167) -/

/-- The local address of the i-th entry of a queue, counted from its head (R71, R157). -/
def Queue.slotAddr (q : Queue) (i : Nat) : Nat := q.base + ((q.head + i) % (q.depthm1 + 1)) * q.esz

/-- Place one entry's image into a queue (R164); every access the stream has issued so far stands before it, the image's store among
them. -/
def State.pushEntry (s : State) (q : QCode) (image : List Byte) : State :=
  let x := s.bank.queue q
  let since := if x.count = 0 then s.cycle + 1 + s.delay else x.since
  let s := s.tick.storeLocal (x.slotAddr x.count) image
  s.modBank (fun b => b.setQueue q { x with count := x.count + 1, forks := x.forks ++ [s.cur.accSeq], since := since })

/-- EQPUSH (R164). -/
def execEqpush (h : Hdr) (q : QCode) (m : MemOp) (s : State) : Out :=
  .next (s.issue ((Need.of h).addr m |>.local) none fun s =>
    let x := s.bank.queue q
    if !x.en then .fault (faultDetail 0x01 (BitVec.ofNat 16 (QCode.idx q).val))
    else if x.count ≥ x.depthm1 + 1 then .stall
    else
      let (a, s) := s.readAddr m
      if a.toNat % 16 ≠ 0 then .fault (faultAt 0x05 a)
      else match windowFault a.toNat x.esz with
        | some t => .fault t
        | none =>
          if s.cur.streamWaits s.focus.bank a.toNat x.esz then .stall
          else .ok ((s.touchLocal a.toNat x.esz).pushEntry q (s.localBytes a.toNat x.esz)))

/-- EQPUSHV (R164). -/
def execEqpushv (h : Hdr) (q : QCode) (a : VSrc) (s : State) : Out :=
  .next (s.issue ((Need.of h).v a |>.local) none fun s =>
    let x := s.bank.queue q
    if !x.en then .fault (faultDetail 0x01 (BitVec.ofNat 16 (QCode.idx q).val))
    else if x.count ≥ x.depthm1 + 1 then .stall
    else
      let v := s.vec .i8 a
      .ok ((s.advancePorts [a]).pushEntry q ((vecBytes v).take x.esz)))

/-- FPUSH (R166). -/
def execFpush (h : Hdr) (a : SSrc) (s : State) : Out :=
  .next (s.issue ((Need.of h).s a) none fun s =>
    if s.cur.fq.length ≥ 16 then .stall
    else
      let (x, s) := s.readS a
      .ok (s.modCur (fun c => { c with fq := c.fq ++ [(x.setWidth 32, s.focus.bank)] })))

/-- QPUSH (R167): a write of code 72 + q. -/
def execQpush (h : Hdr) (q : Fin 4) (a : SSrc) (s : State) : Out :=
  let pc := s.bank.pc
  .next (s.issue ((Need.of h).s a |>.ds (.aq q) 1) none fun s =>
    let (x, s) := s.readS a
    .ok (s.resultS (.aq q) x 1 0 pc))

/-- A destination in a register file. -/
def RDst.isReg : RDst → Bool
  | .reg _ => true
  | .aq _ => false
  | .handle _ => true

/-- The entry of a bq register that a QPOP takes lands two cycles later under its tag (R167). -/
def Bank.landPop (b : Bank) (cycle : Nat) (t : BitVec 4) (x : Word) : Bank :=
  let dst := (b.tags.find? (fun r => r.tag == t)).bind (fun r => r.dst.head?)
  { b with
    tags := b.tags.map (fun r =>
      if r.tag == t then { r with dst := r.dst.filter RDst.isReg, ready := true } else r)
    writes := b.writes ++ [{ dst := dst, val := .word x, due := cycle + 1, flags := 0, pc := 0, vecUnit := false
                             interlock := false, tag := t }] }

/-- QPOP (R167). -/
def execQpop (h : Hdr) (d : SDst) (q : Fin 4) (al : BitVec 4) (s : State) : Out :=
  .next (s.issue ((Need.of h).dTag d 2 |>.tag al |>.local) none fun s =>
    let s := s.allocate (s.newTag al [SDst.rdst d] .i64 0 0 2)
    if s.bank.bq[q].isEmpty || s.bank.qpops.any (fun p => p.2 == q) then
      .ok (s.modBank (fun b => { b with qpops := b.qpops ++ [(al, q)] }))
    else
      let (x, s) := s.popBq q
      .ok (s.modBank (fun b => b.landPop s.cycle al x)))

/-- A push to a bq register: the oldest waiting QPOP takes it, else it stays in the queue (R167). -/
def Bank.pushBq (b : Bank) (cycle : Nat) (q : Fin 4) (x : Word) : Bank :=
  match b.qpops.find? (fun p => p.2 == q) with
  | none => { b with bq := b.bq.set q (b.bq[q] ++ [x]) }
  | some p => Bank.landPop { b with qpops := b.qpops.erase p } cycle p.1 x

/-- EQSTAT (R165). -/
def execEqstat (h : Hdr) (d : SDst) (q : QCode) (s : State) : Out :=
  let pc := s.bank.pc
  .next (s.issue ((Need.of h).ds d 2) none fun s =>
    .ok (s.result (some (SDst.rdst d)) (.sample (.eqstat q)) 2 0 pc false))

/-- QSTAT (R165). -/
def execQstat (h : Hdr) (d : SDst) (q : Fin 9) (s : State) : Out :=
  let pc := s.bank.pc
  .next (s.issue ((Need.of h).ds d 2) none fun s =>
    .ok (s.result (some (SDst.rdst d)) (.sample (.qstat q)) 2 0 pc false))

/-- ESTAT (R165). -/
def execEstat (h : Hdr) (d : SDst) (e : Eng) (s : State) : Out :=
  let pc := s.bank.pc
  .next (s.issue ((Need.of h).ds d 2) none fun s =>
    .ok (s.result (some (SDst.rdst d)) (.sample (.estat e)) 2 0 pc false))

/-- A job entry header (R70). -/
structure EntryHdr where
  wsem : BitVec 8
  ssem : BitVec 8
  wv : Bool
  sv : Bool
  reserved : BitVec 6
  count : Nat

/-- The fields of a header's 32 bits (R70). -/
def EntryHdr.of (w : BitVec 32) : EntryHdr :=
  { wsem := w.extractLsb' 24 8, ssem := w.extractLsb' 16 8, wv := w.getLsbD 15, sv := w.getLsbD 14
    reserved := w.extractLsb' 8 6, count := (w.extractLsb' 0 8).toNat }

/-- The header of the head entry of a queue. -/
def Core.headHdr (c : Core) (q : Queue) : BitVec 32 := BitVec.ofNat 32 (Memory.readNat c.mem (q.slotAddr 0) 4)

/-- EQSTAT's word (R165). -/
def Core.eqstatWord (c : Core) (bank : Bool) (qc : QCode) : Word :=
  let q := (c.bank bank).queue qc
  let h := EntryHdr.of (c.headHdr q)
  let started := q.count != 0 && q.hd != .waiting
  let blocked := q.en && q.count != 0 && q.hd == .waiting && h.wv && c.sem h.wsem == 0
  BitVec.ofNat 64 ((if q.en then 2 ^ 63 else 0) + (if blocked then 2 ^ 17 else 0) + (if started then 2 ^ 16 else 0) + q.count)

/-- QSTAT's word (R165). -/
def Core.qstatWord (c : Core) (bank : Bool) (q : Fin 9) : Word :=
  let b := c.bank bank
  BitVec.ofNat 64 (
    if q.val < 4 then b.aq[Fin.ofNat 4 q.val].length
    else if q.val < 8 then b.bq[Fin.ofNat 4 (q.val - 4)].length
    else c.fq.length)

/-- The µPC of a position; past a routine's last word it names that word (R197). -/
def WordPos.upc : WordPos → BitVec 12
  | .entry i => BitVec.ofNat 12 i
  | .routine _ off => BitVec.ofNat 12 (0x800 + Nat.min off 2047)

/-- The µPC of an entry: its position, or the micro address inside LAYER (R197, R220, R233). -/
def Entry.upc (n : Entry) : BitVec 12 :=
  match n.layer with
  | none => n.at_.upc
  | some (_, a) => BitVec.ofNat 12 (Nat.min a 4095)

/-- The queue code that ESTAT shows (R92). -/
def QCode.num (q : QCode) : Nat := (QCode.idx q).val

/-- ESTAT's word (R165). -/
def Core.estatWord (c : Core) (e : Eng) : Word :=
  let x := c.engine e
  match x.cur with
  | none => 0
  | some n => BitVec.ofNat 64 (2 ^ 63 + (if x.frozen then 2 ^ 62 else 0) + n.upc.toNat * 2 ^ 16
      + n.pstack.length * 2 ^ 8 + QCode.num n.q * 2 ^ 4 + (if n.bank then 1 else 0))

/-! ## Semaphore words (R168 to R171) -/

/-- SWAIT (R169): it acquires what its unit carries (R171, R319). -/
def execSwait (h : Hdr) (k : BitVec 8) (s : State) : Out :=
  .next (s.issue (Need.of h) none fun s =>
    if !s.cur.ownsSem s.focus.bank k then .fault (fault 0x04)
    else if s.cur.sem k = 0 then .stall
    else
      let (c, p) := s.cur.takeSem k
      let s := s.setCore s.focus.core c
      let s := s.modBank Bank.rereadPorts
      .ok (match p with
        | none => s
        | some p => s.bumpPts s.focus.core p))

/-- SSET (R169): its units carry nothing. -/
def execSset (h : Hdr) (k : BitVec 8) (a : SSrc) (s : State) : Out :=
  .next (s.issue ((Need.of h).s a) none fun s =>
    let (x, s) := s.readS a
    if !s.cur.ownsSem s.focus.bank k then .fault (fault 0x04)
    else if x.extractLsb' 16 48 != 0 then .fault (fault 0x23)
    else .ok (s.modCur (fun c =>
      { c.setSem k (x.setWidth 16) with semPts := Sparse.put c.semPts k.toNat (List.replicate (x.toNat % 65536) (0, false)) })))

/-- SREAD (R169): the count is sampled at the end of the cycle after issue. -/
def execSread (h : Hdr) (d : SDst) (k : BitVec 8) (al : BitVec 4) (s : State) : Out :=
  .next (s.issue ((Need.of h).ds d 2 |>.tag al |>.local) none fun s =>
    if !s.cur.ownsSem s.focus.bank k then .fault (fault 0x04)
    else .ok (s.resultTagged al (SDst.rdst d) (.sample (.sem k)) 2))

/-- SSIG (R170): to this core it faults at once where its semaphore stands at 65 535 (R161); the increment, or the
message, waits for the accesses before it. -/
def execSsig (h : Hdr) (k : BitVec 8) (a : Option SSrc) (s : State) : Out :=
  let pc := s.bank.pc
  .next (match a with
    | none => s.issue (Need.of h).local none fun s =>
      if !s.cur.ownsSem s.focus.bank k then .fault (fault 0x04)
      else if s.cur.sem k = 0xFFFF then .fault (fault 0x23)
      else .ok (s.modCur (fun c => c.addAccess (signalAccess s.focus.bank c.accSeq k none pc)))
    | some r => s.issue ((Need.of h).s r |>.local) none fun s =>
      let (x, s) := s.readS r
      if x &&& ~~~0x8FFF07FF != 0 then .fault (fault 0x01)
      else .ok (s.modCur (fun c => c.addAccess (signalAccess s.focus.bank c.accSeq k (some x) pc))))

/-- The key of a sequence of core-bound packets: the sending bank and the destination (R356). -/
def seqKey (bank : Bool) (dmod : BitVec 12) (dcore : BitVec 11) : Nat :=
  2 * (2048 * dmod.toNat + dcore.toNat) + if bank then 1 else 0

/-- The number of the next core-bound packet of a bank to a destination. -/
def Core.nextSeq (c : Core) (bank : Bool) (dmod : BitVec 12) (dcore : BitVec 11) : Nat :=
  (Sparse.find c.sendSeq (seqKey bank dmod dcore)).getD 0

/-- A core-bound packet has been numbered. -/
def Core.countSend (c : Core) (bank : Bool) (dmod : BitVec 12) (dcore : BitVec 11) : Core :=
  { c with sendSeq := Sparse.put c.sendSeq (seqKey bank dmod dcore) ((c.nextSeq bank dmod dcore + 1) % 2 ^ 32) }

/-- An empty packet from the acting core (R356). -/
def State.packet (s : State) (typ : BitVec 4) (dmod : BitVec 12) (dcore : BitVec 11) : Packet :=
  { jobtag := s.jobTag s.bank, smod := Config.moduleNumber, score := BitVec.ofNat 11 s.focus.core, dmod := dmod, dcore := dcore
    seq := BitVec.ofNat 32 (s.cur.nextSeq s.focus.bank dmod dcore), typ := typ, late := false, stepBit := false, arg := 0, raddr := 0, data := [], reserved := false
    pts := s.cur.pts, wordNo := 0, sbank := s.focus.bank }

/-- Whether a core operand names a core of this module (R170). -/
def hereModule (x : Word) : Bool := !x.getLsbD 31 || x.extractLsb' 16 12 == Config.moduleNumber

/-- A local SSIG's increment finds 65 535 (R161): a precise trap of that word, delivered at the next boundary like an arithmetic one, since
words behind it may have issued (log 23). -/
def State.lateOverflow (s : State) (pc : BitVec 15) : State :=
  s.modBank (fun b => { b with
    arith := b.arith ++ [{ pc := pc, aflags := 0, vecUnit := false, active := b.trap.act, sem := true }] })

/-- A signal leaves: to this core it counts at once, to another it travels with the sender's job tag and pts (R170,
R319). -/
def State.sendSignal (s : State) (k : BitVec 8) (operand : Option Word) (pc : BitVec 15) : State :=
  let core := s.focus.core
  let bank := s.focus.bank
  match operand with
  | none => match s.cur.incSem k s.cur.pts true with
    | some c => s.setCore core (c.wakeOwners k)
    | none => s.lateOverflow pc
  | some x =>
    let s := s.modCur (fun c => { c with sigs := c.sigs ++ [{ bank := bank, k := k, operand := x }] })
    let dcore := x.extractLsb' 0 11
    let target := dcore.toNat
    let dmod := if hereModule x then Config.moduleNumber else x.extractLsb' 16 12
    let p := { s.packet 2 dmod dcore with arg := k, data := leBytes 8 x.toNat }
    let s := s.modCur (fun c => c.countSend bank dmod dcore)
    if hereModule x then
      s.post (pathTime core target) (some (core, target, 0)) target false none
        (.remoteSignalApply core bank (s.jobTag s.bank) k x s.cur.pts)
    else { s with outbox := s.outbox ++ [p] }

/-- The bank of a core that holds the job with a tag (R170). -/
def State.bankOfTag (s : State) (core : Nat) (tag : BitVec 16) : Option Bool :=
  let holds (b : Bool) : Bool := (s.bankAt core b).job.isSome && s.jobTag (s.bankAt core b) == tag
  if holds false then some false else if holds true then some true else none

/-- A semaphore increment that reaches a core whose bank of the job is saved is held and counted under the job's tag
(R366), or discarded once CKRES has restored the job: none where no such record has the tag. -/
def State.holdIncrement (s : State) (tag : BitVec 16) (core : Nat) (k : BitVec 8) : Option State :=
  match s.resume.find? (fun r => r.tag == tag && r.state != 0) with
  | none => none
  | some r =>
    if r.state == 4 then some s
    else some { s with resume := s.resume.map (fun r =>
      if r.tag == tag then { r with held := r.held + 1, heldIncs := r.heldIncs ++ [(core, k)] } else r) }

/-- REMOTE_SIGNAL_APPLY (R170): the message is applied to the bank that holds the job, held for a saved job, or
discarded; its acknowledgement returns. -/
def execRemoteSignalApply (src : Nat) (sbank : Bool) (tag : BitVec 16) (k : BitVec 8) (operand : Word) (pts : BitVec 16)
    (s : State) : Out :=
  let core := s.focus.core
  let ack (s : State) (e : Option (BitVec 8)) : State :=
    s.post (pathTime core src) (some (core, src, 1)) src sbank none (.signalAck e k operand)
  .next (match s.bankOfTag core tag with
    | some b =>
      if !s.cur.ownsSem b k then ack s (some 0x04)
      else match s.cur.incSem k pts true with
        | some c => ack (s.setCore core (c.wakeOwners k)) none
        | none => ack s (some 0x23)
    | none => match s.holdIncrement tag core k with
      | some s => ack s none
      | none => ack s (some 0x04))

/-- SIGNAL_ACK (R170): the sender counts its signal as performed, and takes the fault of a signal that was discarded. -/
def execSignalAck (err : Option (BitVec 8)) (k : BitVec 8) (operand : Word) (s : State) : Out :=
  let bank := s.focus.bank
  if !s.cur.sigs.contains { bank := bank, k := k, operand := operand } then .next s else
  let s := s.modCur (fun c => { c with
    sigs := c.sigs.erase { bank := bank, k := k, operand := operand }
    accs := c.accs.map (fun a => if a.bank == bank && a.eng.isNone && a.rel then { a with tried := true } else a) })
  .next (match err with
    | none => s
    | some e => s.holdTrap s.focus.core bank
        { faultAt e operand with src := 5, detail := k.setWidth 16 })

/-! ## The control stream and its two banks (R178, R339 to R341) -/

/-- Whether a bank holds a job and can issue: not idle, not halted, not waiting at a switch point. -/
def Bank.runnable (b : Bank) : Bool :=
  match b.status with
  | .running => b.job.isSome && !b.stopEng
  | .vacant | .idle | .halted | .stopped _ | .atBar _ _ | .inStep _ | .held | .pageWait | .ended | .quenched => false

/-- The control stream goes from one bank of a core to the other: the results on their way are written first (R341), and
the other bank issues three cycles later at the earliest (R178). -/
def Core.switchStream (c : Core) (cycle : Nat) : Core :=
  let left := c.bank c.active
  let other := !c.active
  Core.modBank { c with active := other } other (fun b =>
    { b with bound := Nat.max b.bound (Nat.max cycle left.drained + 3), switchClaim := false })

/-- A bank that the control stream may leave: it neither issues nor waits within a word (R178). -/
def Bank.away (b : Bank) : Bool :=
  match b.status with
  | .running | .held => b.stopEng
  | .vacant | .idle | .halted | .stopped _ | .atBar _ _ | .inStep _ | .pageWait | .ended | .quenched => true

/-- The acting core's stream leaves its bank where the other bank can issue (R178). -/
def State.leaveBank (s : State) : State :=
  if (s.cur.bank !s.focus.bank).runnable && s.cur.active == s.focus.bank then
    s.modCur (fun c => c.switchStream s.cycle)
  else s

/-- YIELD (R178): a NOP where no switch is possible. -/
def execYield (h : Hdr) (s : State) : Out := .next (s.issue (Need.of h) none fun s => .ok s.leaveBank)

/-- BANKSW (R339): to the other bank if it holds a job and has not halted, waiting or not; it wakes an idle one (R340). -/
def execBanksw (h : Hdr) (s : State) : Out :=
  .next (s.issue (Need.of h).privileged none fun s =>
    let o := s.cur.bank !s.focus.bank
    let able := match o.status with
      | .running | .idle | .atBar _ _ | .inStep _ | .held | .pageWait => o.job.isSome
      | .vacant | .halted | .stopped _ | .ended | .quenched => false
    if able then
      .ok (s.modCur (fun c => (c.modBank (!s.focus.bank) (fun b => { b with woken := true })).switchStream s.cycle))
    else .ok s)

/-- IDLE (R340). -/
def execIdle (h : Hdr) (s : State) : Out :=
  .next (s.issue (Need.of h).privileged none fun s =>
    .ok (s.modBank (fun b => { b with status := .idle, woken := false })).leaveBank)

/-- IDLE_WAKE (R340): an idle bank that an event has woken issues again, and claims its return (R178). -/
def execIdleWake (s : State) : Out :=
  .next (if s.bank.status == .idle && s.bank.woken then
    s.modBank (fun b =>
      { b with
        status := .running, woken := false, bound := Nat.max b.bound (s.cycle + 1)
        switchClaim := s.cur.active != s.focus.bank })
  else s)

/-- BANK_RETURN (R178): the control stream returns to the acting bank, from a bank that cannot issue or at the other
bank's issue boundary for a claim. -/
def execBankReturn (s : State) : Out :=
  .next (if s.bank.runnable && s.cur.active != s.focus.bank
      && (s.bank.switchClaim || (s.cur.bank !s.focus.bank).away) then
    s.modCur (fun c => c.switchStream s.cycle)
  else s)

/-! ## Barriers (R172) and fences (R173) -/

/-- Every tagged load of a bank has landed; a QPOP waits for its queue and is no load. -/
def Bank.loadsLanded (b : Bank) : Bool := b.tags.all (fun t => b.qpops.any (fun p => p.1 == t.tag))

/-- The traps that are due at a boundary of the acting bank: an arithmetic trap first, then a held one while no trap is
active (R49, R124). -/
def State.deliverDue (s : State) : Option State :=
  if s.bank.arithDue.isSome then some s.deliverArithmetic
  else if !s.bank.imps.isEmpty && !s.bank.trap.act then some s.deliverImprecise
  else none

/-- IMPRECISE_TRAP_DELIVER (R124): the first held trap of the acting bank, unless one is active. -/
def execImpreciseTrapDeliver (s : State) : Out := .next s.deliverImprecise

/-- ARITHMETIC_TRAP (R49): the arithmetic trap that is due at the acting bank's boundary. -/
def execArithmeticTrap (s : State) : Out := .next s.deliverArithmetic

/-- A recorded guard touch becomes a held trap (R151). -/
def State.reportTouch (s : State) : State :=
  match s.bank.touch with
  | none => s
  | some (a, n) => (s.modBank (fun b => { b with touch := none })).holdTrap s.focus.core s.focus.bank (guardTrap a n)

/-- The other modules that run a job, as the runtime has placed it (R357, R362). -/
def State.otherModules (s : State) (job : Name) : List (BitVec 12) := ((s.spans.find? (fun p => p.1 == job)).map (fun p => p.2)).getD []

/-- The other modules that hold a part of a job's gang. -/
def State.farParts (s : State) (job : Nat) : List (BitVec 12) := ((s.job job).map (fun j => s.otherModules j.name)).getD []

/-- The cores and banks of this module that take part in a barrier or step of a job (R172). -/
def State.participants (s : State) (job : Nat) (stage : Option (BitVec 4)) : List (Nat × Bool) :=
  match s.job job with
  | none => []
  | some j => j.cores.filter (fun p => match stage with
    | none => true
    | some st => (s.bankAt p.1 p.2).stage == st)

/-- The largest of some logical times. -/
def ptsMaxList : List (BitVec 16) → BitVec 16
  | [] => 0
  | [p] => p
  | p :: r => ptsMax p (ptsMaxList r)

/-- The release of a barrier whose last participant here has just arrived: at each die in one cycle, at most 24 cycles later for each die hop
(R172); it carries the largest pts (R319). Where the gang spans modules it waits for theirs, who may never come (log 9). -/
def State.releaseBarrier (s : State) (job : Nat) (stage : Option (BitVec 4)) (inst : Nat) : State :=
  let parts := s.participants job stage
  let here := ptsMaxList (parts.map (fun p => (s.core p.1).pts))
  let far := s.farParts job
  let link := maxNat 0 (far.map (fun m => Config.evnovHops 0 (m.toNat + 1)))
  let send (late : Nat) (pts : BitVec 16) (s : State) : State := (dedup (parts.map (fun p => dieOf p.1))).foldl (fun s d =>
    let room := 24 * (dieDist d (dieOf s.focus.core) + link)
    s.tick.postAt (s.cycle + 1 + late + s.delay % (room + 1)) (d * 64) false none (.barrierRelease job d stage inst pts)) s
  if far.isEmpty then send 0 here s
  else match Config.peersArrive s.free with
    | none => s.tick
    | some (late, pts) => send late (ptsMax here pts) s.tick

/-- The acting bank arrives at a barrier (R172). -/
def State.arrive (s : State) (isStage : Bool) : State :=
  let inst := (if isStage then s.bank.barStage else s.bank.barGang) + 1
  let s := s.modBank (fun b => { b with
    status := .atBar isStage inst, lastBarStage := isStage
    barStage := if isStage then inst else b.barStage, barGang := if isStage then b.barGang else inst })
  match s.bank.job with
  | none => s
  | some id =>
    let stage := if isStage then some s.bank.stage else none
    let there (p : Nat × Bool) : Bool := (s.bankAt p.1 p.2).status == .atBar isStage inst
    (if (s.participants id stage).all there then s.releaseBarrier id stage inst else s).leaveBank

/-- BAR (R172). Traps held when its turn comes are delivered before it, the guard touch among them. A bank that a clean
quench waits for stops here (R362). -/
def execBar (h : Hdr) (isStage : Bool) (s : State) : Out :=
  let n := (Need.of h).local
  .next (match s.classify n none with
    | .go =>
      let s' := if s.bank.trap.act then s else s.reportTouch
      match s'.deliverDue with
      | some s' => s'
      | none => s.issue n none fun s =>
        if !s.bank.loadsLanded || s.cur.outstanding s.focus.bank != 0 then .stall
        else if s.bank.stopAtBar then .ok (s.modBank (fun b => { b with pc := b.pc - 1, status := .quenched }))
        else .ok (s.arrive isStage)
    | .stall | .ask _ | .off | .fault _ => s.issue n none fun s => .ok s)

/-- The bank after its barrier has released (R172, R174): the word after BAR issues in the next cycle or later. Instance 0 is the
implicit barrier of a communication step, which leaves the step-ready bit as it is. -/
def Bank.release (b : Bank) (cycle : Nat) (away : Bool) (inst : Nat) : Bank :=
  { b with status := .running, stepReady := b.stepReady || inst != 0, bound := Nat.max b.bound (cycle + 1), switchClaim := away }

/-- BARRIER_RELEASE (R172). -/
def execBarrierRelease (job die : Nat) (stage : Option (BitVec 4)) (inst : Nat) (pts : BitVec 16) (s : State) : Out :=
  .next ((s.participants job stage).foldl (fun s p =>
    if dieOf p.1 == die && (s.bankAt p.1 p.2).status == .atBar stage.isSome inst then
      (s.bumpPts p.1 pts).modCore p.1 (fun c => c.modBank p.2 (fun b => b.release s.cycle (c.active != p.2) inst))
    else s) s)

/-- FENCE (R173). -/
def execFence (h : Hdr) (scope : BitVec 3) (s : State) : Out :=
  .next (s.issue (Need.of h) none fun s => .ok (s.modBank (fun b => { b with fenced := some scope })))

end Sys2Proof.Machine
end

