-- ==== Sys2Proof/Machine/NameTable.lean ====
section
/-!
DEFINITION. Touchmarks: their fields and CRC (R238 to R240), their issue (R241), and their resolution through the caches and
the home table (R242 to R245).
-/
namespace Sys2Proof.Machine

/-! ## The name (R238 to R240) -/

/-- The ident of a name. -/
def Name.ident (n : Name) : BitVec 32 := n.extractLsb' 96 32
/-- The generation of a name. -/
def Name.gen (n : Name) : BitVec 24 := n.extractLsb' 72 24
/-- The counter of a name. -/
def Name.count (n : Name) : Nat := (n.extractLsb' 16 56).toNat
/-- The class code of a name. -/
def Name.cls (n : Name) : BitVec 8 := n.extractLsb' 8 8
/-- The CRC of a name. -/
def Name.crc (n : Name) : BitVec 8 := n.extractLsb' 0 8

/-- The classes of R239. -/
def Cls.tensor : BitVec 8 := 1
/-- PATCH. -/
def Cls.patch : BitVec 8 := 2
/-- JOB. -/
def Cls.job : BitVec 8 := 3
/-- CHECKPOINT. -/
def Cls.checkpoint : BitVec 8 := 4
/-- CELLSEG. -/
def Cls.cellseg : BitVec 8 := 5
/-- MICROCODE. -/
def Cls.microcode : BitVec 8 := 6
/-- SAVEAREA. -/
def Cls.savearea : BitVec 8 := 7
/-- ALIAS. -/
def Cls.aliasName : BitVec 8 := 8

/-- One bit of the CRC: polynomial 0x07. -/
def crcBit (r : BitVec 8) : BitVec 8 := if r.getLsbD 7 then (r <<< 1) ^^^ 7 else r <<< 1

/-- Eight bits of the CRC. -/
def crcByte (r b : BitVec 8) : BitVec 8 := crcBit (crcBit (crcBit (crcBit (crcBit (crcBit (crcBit (crcBit (r ^^^ b))))))))

/-- The CRC-8 of R240 over bytes in order. -/
def crc8 (l : List Byte) : BitVec 8 := l.foldl crcByte 0

/-- The fifteen bytes of bits 127:8, highest first. -/
def Name.body (n : Name) : List Byte := (List.range 15).map (fun i => n.extractLsb' (120 - 8 * i) 8)

/-- A name from its fields, with its CRC. -/
def Name.make (ident : BitVec 32) (gen : BitVec 24) (count : Nat) (cls : BitVec 8) : Name :=
  let n : Name := ident ++ gen ++ BitVec.ofNat 56 count ++ cls ++ (0 : BitVec 8)
  n ||| (crc8 (Name.body n)).setWidth 128

/-- The CRC holds and the class is one of R239. -/
def Name.formed (n : Name) : Bool := Name.crc n == crc8 (Name.body n) && Name.cls n != 0 && Name.cls n ≤ 8

/-! ## Issue (R241) -/

/-- Whether this module can issue names (R241, R247). -/
def State.canIssue (s : State) : Bool := s.gen != 0xFFFFFF && s.table.length < 2 ^ 30

/-- The next name of a class, and the state after its issue; the generation advances when the counter is used up. -/
def State.issueName (s : State) (cls : BitVec 8) : Name × State :=
  (Name.make s.ident s.gen s.mark cls,
    if s.mark + 1 < 2 ^ 56 then { s with mark := s.mark + 1 } else { s with mark := 0, gen := s.gen + 1 })

/-- The entry of a new name, of the acting bank's job. -/
def State.newEnt (s : State) (n : Name) (b : Binding) (keyid : BitVec 7) : NameEnt :=
  { name := n, bind := b, keyid := keyid, job := s.bank.job, resolvers := [], pts := 0 }

/-- Enter a name in the home table, for the acting bank's job. -/
def State.enterName (s : State) (n : Name) (b : Binding) (keyid : BitVec 7) : State := { s with table := s.table ++ [s.newEnt n b keyid] }

/-- Change the home tables, of this module and of the others. -/
def State.modTables (s : State) (f : List NameEnt → List NameEnt) : State :=
  { s with table := f s.table, peers := s.peers.map (fun p => { p with table := f p.table }) }

/-- Remove a name from its home's table. -/
def State.removeName (s : State) (n : Name) : State := s.modTables (fun l => l.filter (fun e => e.name != n))

/-- Change the entry of a name at its home. -/
def State.modEnt (s : State) (n : Name) (f : NameEnt → NameEnt) : State :=
  s.modTables (fun l => l.map (fun e => if e.name == n then f e else e))

/-! ## Homes on other modules (R242, log 9) -/

/-- Another module that is a name's home; none where this one is, or where the map lists no home. -/
def State.awayHome (s : State) (n : Name) : Option (BitVec 12) :=
  (s.homeMap.find? (fun p => p.1 == Name.ident n)).bind (fun p => if p.2 == s.moduleNo then none else some p.2)

/-- What is known of another module's home. -/
def State.peer (s : State) (m : BitVec 12) : Peer :=
  (s.peers.find? (fun p => p.module == m)).getD { module := m, ident := 0, records := [], table := [] }

/-- Put another module's home back. -/
def State.setPeer (s : State) (p : Peer) : State := { s with peers := s.peers.filter (fun q => q.module != p.module) ++ [p] }

/-- Another module issues a name from its own record (R241). -/
def Peer.issue (p : Peer) (cls : BitVec 8) : Name × Peer :=
  match p.records.find? (fun r => r.ident == p.ident) with
  | none => (0, p)
  | some r =>
    let next : Issue := if r.mark + 1 < 2 ^ 56 then { r with mark := r.mark + 1 } else { r with mark := 0, gen := r.gen + 1 }
    (Name.make p.ident r.gen r.mark cls, { p with records := p.records.map (fun x => if x.ident == p.ident then next else x) })

/-- Whether another module can issue names. -/
def Peer.canIssue (p : Peer) : Bool := p.records.any (fun r => r.ident == p.ident && r.gen != 0xFFFFFF) && p.table.length < 2 ^ 30

/-- The Evnov round trip to another module. -/
def evnovTrip (m : BitVec 12) : Nat := 96 * Config.evnovHops 0 (m.toNat + 1)

/-- The Evnov round trip to a name's home; 0 on this module. -/
def State.homeTrip (s : State) (n : Name) : Nat :=
  match s.awayHome n with
  | none => 0
  | some m => evnovTrip m

/-! ## Resolution (R242 to R245) -/

/-- What resolving a name comes to: a fault code, a dead name, or a live one. -/
inductive Resolved where
  | fault (code : BitVec 8)
  | gone
  | live (e : NameEnt)

/-- The entry of a name in its home's table. -/
def State.nameEnt (s : State) (n : Name) : Option NameEnt :=
  (match s.awayHome n with
    | none => s.table
    | some m => (s.peer m).table).find? (fun e => e.name == n)

/-- The issuance record with which a name's home compares it (R243). -/
def State.nameRecord (s : State) (n : Name) : BitVec 24 × Nat :=
  match s.awayHome n with
  | none =>
    if Name.ident n = s.ident then (s.gen, s.mark)
    else match s.foreign.find? (fun r => r.ident == Name.ident n) with
      | some r => (r.gen, r.mark)
      | none => (0, 0)
  | some m => match (s.peer m).records.find? (fun r => r.ident == Name.ident n) with
    | some r => (r.gen, r.mark)
    | none => (0, 0)

/-- Whether a name lies above the issuance mark of its ident (R244). -/
def State.aboveMark (s : State) (n : Name) : Bool :=
  let (g, m) := s.nameRecord n
  g < Name.gen n || (Name.gen n == g && Name.count n ≥ m)

/-- The checks of R244 at the home. -/
def State.resolveHome (s : State) (n : Name) : Resolved :=
  if n = 0 then .fault 0x17
  else if !Name.formed n then .fault 0x16
  else if !(s.homeMap.any (fun p => p.1 == Name.ident n)) then .fault 0x16
  else if s.aboveMark n then .fault 0x16
  else match s.nameEnt n with
    | some e => .live e
    | none => .gone

/-- The entry behind a cached name: at its home, or being shot down (R253). -/
def State.cachedEnt (s : State) (n : Name) : Option NameEnt :=
  match s.nameEnt n with
  | some e => some e
  | none => (s.dying.find? (fun d => d.ent.name == n)).map (fun d => d.ent)

/-- Put a name at the end of a cache of a given size, the oldest entry leaving where it is full. -/
def cacheName (size : Nat) (l : List Name) (n : Name) : List Name :=
  if l.contains n then l else (if l.length < size then l else l.tail) ++ [n]

/-- A home on another module records that this one has resolved a name (R248). -/
def State.noteResolver (s : State) (n : Name) : State :=
  match s.awayHome n with
  | none => s
  | some _ => s.modEnt n (fun e => if e.resolvers.contains s.moduleNo then e else { e with resolvers := e.resolvers ++ [s.moduleNo] })

/-- A core resolves a name: its cache, its die's cache, then the home, wherever it is; a name that is no alias enters both caches (R245).
The number is the least time from issue to landing. -/
def State.resolve (s : State) (core : Nat) (n : Name) : Resolved × Nat × State :=
  let c := s.core core
  let d := s.die (dieOf core)
  let cached (l : List Name) : Option NameEnt := if l.contains n then s.cachedEnt n else none
  let keep (s : State) : State :=
    (s.modCore core (fun c => { c with names := cacheName 64 c.names n })).modDie (dieOf core)
      (fun d => { d with names := cacheName 8192 d.names n })
  match cached c.names with
  | some e => (.live e, 4, s)
  | none => match cached d.names with
    | some e => (.live e, 20, keep s)
    | none => match s.resolveHome n with
      | .live e => (.live e, 150 + s.homeTrip n, (if Name.cls n = Cls.aliasName then s else keep s).noteResolver n)
      | r => (r, 150 + s.homeTrip n, s)

/-- Resolve a name that must be live and of given classes: the binding, or the fault of R244. -/
def State.resolveAs (s : State) (core : Nat) (classes : List (BitVec 8)) (n : Name) : Except TrapInfo NameEnt × Nat × State :=
  let (r, lat, s) := s.resolve core n
  (match r with
    | .fault c => .error (faultName c n)
    | .gone => .error (faultName 0x15 n)
    | .live e => if classes.contains (Name.cls n) then .ok e else .error (faultName 0x17 n), lat, s)

end Sys2Proof.Machine
end

