-- ==== Sys2Proof/Machine/Home.lean ====
section
/-!
DEFINITION. Global addresses, segments and homes (R282 to R288), device memory (R208, R285), tensors in storage (R190), and
the view of a patched byte (R257, R262, R264, R265).
-/
namespace Sys2Proof.Machine

/-! ## Addresses (R282) -/

/-- The kinds of address that a word can present. -/
inductive Space where
  | window | device | host | bad
  deriving DecidableEq, Repr

/-- The class of an address. The window and the hole are no global memory. -/
def spaceOf (a : Word) : Space :=
  if a.toNat < localSize then .window
  else if 0x100000000 ≤ a.toNat && a.toNat < 0x1000000000000 then .device
  else if a.extractLsb' 57 7 = 0x40 then .host
  else .bad

/-! ## Segments (R283 to R285) -/

/-- The bytes of a segment unit. -/
def segUnit : Nat := 0x200000

/-- The first of a module's dies: this one's are 0 to 31. -/
def moduleDies : Option (BitVec 12) → Nat
  | none => 0
  | some m => 32 * (m.toNat + 1)

/-- The stack set and die list of a segment: the first die and the number of dies (R285). -/
def Seg.dies (g : Seg) : Nat × Nat :=
  let d := moduleDies g.away
  if g.policy = 0 then (d, 32) else if g.policy = 1 then (d + g.dlo % 32, 1) else (d + g.dlo % 32, g.dhi + 1 - g.dlo)

/-- Whether a valid PATCHED or CELL entry holds an address. -/
def Seg.holds (g : Seg) (a : Nat) : Bool :=
  g.len != 0 && g.kind != 2 && g.vbase * segUnit ≤ a && a < (g.vbase + g.len) * segUnit

/-- The lowest-indexed entry that holds an address (R284). -/
def Bank.segOf (b : Bank) (a : Nat) : Option Seg := (b.segs.find? (fun p => p.2.holds a)).map (fun p => p.2)

/-- The physical byte of an address in a segment (R285). -/
def Seg.loc (g : Seg) (a : Nat) : Loc :=
  { lo := g.dies.1, nd := g.dies.2, q := g.pbase * segUnit + (a - g.vbase * segUnit) }

/-- A segment holds patched views. -/
def Seg.patched (g : Seg) : Bool := g.kind == 0

/-- The kind of target that an address of a segment is. -/
def Seg.target (g : Seg) : Target :=
  if g.patched then (if g.lease then .leaseView else .view) else (if g.lease then .leaseCell else .cell)

/-! ## Homes (R208, R285, R288) -/

/-- The home slice of a physical byte, as die · 64 + slice. -/
def Loc.home (l : Loc) : Nat :=
  let b := l.q / 512
  (l.lo + b % l.nd) * 64 + (b / l.nd) % 64

/-- The line of a physical byte. -/
def Loc.line (l : Loc) : Line := { lo := l.lo, nd := l.nd, no := l.q / 128 }

/-- The home of a line. -/
def Line.home (l : Line) : Nat := Loc.home { lo := l.lo, nd := l.nd, q := l.no * 128 }

/-- The die of a line's home. -/
def Line.homeDie (l : Line) : Nat := Line.home l / 64

/-- The slice number of a line, the same on every die (R288). -/
def Line.slice (l : Line) : Nat := Line.home l % 64

/-- The set of a line in a slice and in its snoop filter (R288, R305). -/
def Line.set (l : Line) : Nat := l.no % 1024

/-- Where a physical byte stands in the stacks: stack · 2^36 + offset (R208). -/
def Loc.key (l : Loc) : Nat :=
  let j := l.q / 256
  let m := 2 * l.nd
  (2 * l.lo + j % m) * 2 ^ 36 + (j / m) * 256 + l.q % 256

/-- A place in a stack (R208): channel and pseudo-channel, bank, DRAM row, column. -/
structure DramPlace where
  stack : Nat
  channel : Nat
  pseudo : Nat
  bank : Nat
  row : Nat
  column : Nat
  deriving DecidableEq, Repr

/-- The place of a 256-byte chunk of a stack by its index u there. -/
def DramPlace.ofChunk (stack u : Nat) : DramPlace :=
  let v := u / 60
  { stack := stack, channel := u % 60 / 2, pseudo := u % 60 % 2, bank := v / 4 % 64, row := v / 256, column := v % 4 * 256 }

/-- The place of the chunk that holds a physical byte (R208). -/
def Loc.dram (l : Loc) : DramPlace := .ofChunk (l.key / 2 ^ 36) (l.key % 2 ^ 36 / 256)

/-- A later byte of the same space. -/
def Loc.plus (l : Loc) (n : Nat) : Loc := { l with q := l.q + n }

/-- One byte of the stacks. -/
def State.hbmByte (s : State) (l : Loc) : Byte := Memory.read s.hbm l.key

/-- Bytes of the stacks. -/
def State.hbmBytes (s : State) (l : Loc) (n : Nat) : List Byte := (List.range n).map (fun i => s.hbmByte (l.plus i))

/-- Write bytes of the stacks. -/
def State.hbmWrite (s : State) : Loc → List Byte → State
  | _, [] => s
  | l, b :: r => State.hbmWrite { s with hbm := Memory.write s.hbm l.key b } (l.plus 1) r

/-- The 128 bytes of a line in the stacks. -/
def State.hbmLine (s : State) (l : Line) : BitVec 1024 :=
  BitVec.ofNat 1024 (leNat (s.hbmBytes { lo := l.lo, nd := l.nd, q := l.no * 128 } 128))

/-- Write a line to the stacks. -/
def State.hbmPutLine (s : State) (l : Line) (d : BitVec 1024) : State :=
  s.hbmWrite { lo := l.lo, nd := l.nd, q := l.no * 128 } (leBytes 128 d.toNat)

/-- The release stamp that a sector carries at its home (R319); one that no release has set follows the wrap steps (R328). -/
def State.stampAt (s : State) (l : Loc) : BitVec 16 := (Sparse.find s.stamps (l.key / 32)).getD s.blankStamp

/-- Raise the release stamp of a sector at its home. -/
def State.raiseStamp (s : State) (l : Loc) (p : BitVec 16) : State :=
  { s with stamps := Sparse.put s.stamps (l.key / 32) (ptsMax (s.stampAt l) p) }

/-- The four stamps of a line. -/
def State.lineStamps (s : State) (l : Line) : List (BitVec 16) :=
  (List.range 4).map (fun i => s.stampAt { lo := l.lo, nd := l.nd, q := l.no * 128 + 32 * i })

/-! ## Tensors in storage (R190, R257) -/

/-- The bytes of a row's elements. -/
def Tensor.rowBytes (t : Tensor) : Nat := (t.cols * t.fmt.width + 7) / 8

/-- The bytes of one aux container and the elements it serves: scales of L formats, group headers of H formats. -/
def Tensor.auxUnit (t : Tensor) : Nat × Nat :=
  if t.fmt.isLog then (2, 32) else if t.fmt.isHalfStep then (4, 16 * 2 ^ t.group) else (0, 1)

/-- The bytes of one row's scales or headers. -/
def Tensor.auxBytes (t : Tensor) : Nat := t.auxUnit.1 * ((t.cols + t.auxUnit.2 - 1) / t.auxUnit.2)

/-- The physical offset of an address of a tensor's segment. -/
def Tensor.phys (t : Tensor) (a : Nat) : Nat := (t.seg.loc a).q

/-- A place in a tensor's storage: the aux plane or not, the row, and the byte in the row. -/
structure Place where
  aux : Bool
  row : Nat
  off : Nat
  deriving DecidableEq, Repr

/-- Where an address stands in a tensor's storage (R257). -/
def Tensor.placeAt (t : Tensor) (a : Nat) : Option Place :=
  if t.base ≤ a && a - t.base < t.rows * t.pitch && (a - t.base) % t.pitch < t.rowBytes then
    some { aux := false, row := (a - t.base) / t.pitch, off := (a - t.base) % t.pitch }
  else if t.auxUnit.1 != 0 && t.aux ≤ a && a - t.aux < t.rows * t.auxpitch && (a - t.aux) % t.auxpitch < t.auxBytes then
    some { aux := true, row := (a - t.aux) / t.auxpitch, off := (a - t.aux) % t.auxpitch }
  else none

/-- The address of a place. -/
def Tensor.addr (t : Tensor) (p : Place) : Nat :=
  if p.aux then t.aux + p.row * t.auxpitch + p.off else t.base + p.row * t.pitch + p.off

/-- The virtual address, in a tensor's own segment, of a physical byte of its stack set; none outside the segment. -/
def Tensor.virt (t : Tensor) (l : Loc) : Option Nat :=
  if t.seg.dies == (l.lo, l.nd) && t.seg.pbase * segUnit ≤ l.q && l.q < (t.seg.pbase + t.seg.len) * segUnit then
    some (t.seg.vbase * segUnit + (l.q - t.seg.pbase * segUnit))
  else none

/-- Where a physical byte stands in a tensor's storage. -/
def Tensor.place (t : Tensor) (l : Loc) : Option Place := (t.virt l).bind t.placeAt

/-- The tensors of the home tables, with their names, and those whose destruction is under way: an access that resolved one before still
reads its view (R82, R253). -/
def State.tensors (s : State) : List (Name × Tensor) :=
  (s.table ++ s.dying.map (fun d => d.ent) ++ s.peers.flatMap (fun p => p.table)).filterMap (fun e => match e.bind with
    | .tensor t => some (e.name, t)
    | .patch | .job _ | .checkpoint _ _ | .cellseg _ | .microcode _ _ _ | .savearea _ | .aliasTo _ => none)

/-- The tensor whose storage covers a physical byte; where two do, the manual does not say which answers (log 8). -/
def State.tensorAt (s : State) (l : Loc) : Option (Name × Tensor × Place) :=
  match s.tensors.filterMap (fun p => (p.2.place l).map (fun x => (p.1, p.2, x))) with
  | [] => none
  | [x] => some x
  | x :: y :: r =>
    let all := x :: y :: r
    some (all.getD (Config.overlapPick l.key % all.length) x)

/-! ## Patches on a byte -/

/-- A patch by name. -/
def State.patch (s : State) (n : Name) : Option Patch := s.patches.find? (fun p => p.name == n)

/-- Change a patch. -/
def State.modPatch (s : State) (n : Name) (f : Patch → Patch) : State :=
  { s with patches := s.patches.map (fun p => if p.name == n then f p else p) }

/-- The half of a patch on a base. -/
def Patch.on (p : Patch) (base : Name) : Option PHalf :=
  if p.half.base = base then some p.half
  else match p.twin with
    | some t => if t.base = base then some t else none
    | none => none

/-- The chain of a sector, lowest first (R257). -/
def State.chain (s : State) (lo nd sec : Nat) : List Name :=
  match s.chains.find? (fun c => c.lo == lo && c.nd == nd && c.sec == sec) with
  | some c => c.names
  | none => []

/-- Replace a chain; an empty one is not listed. -/
def State.setChain (s : State) (lo nd sec : Nat) (names : List Name) : State :=
  let others := s.chains.filter (fun c => !(c.lo == lo && c.nd == nd && c.sec == sec))
  { s with chains := if names.isEmpty then others else others ++ [{ lo := lo, nd := nd, sec := sec, names := names }] }

/-- Whether a half covers the element of `w` bytes that begins at a byte: some byte of it, for masks are kept per byte, or its delta
(R257, R264). -/
def PHalf.covers (h : PHalf) (q w : Nat) : Bool :=
  (List.range w).any (fun i => (Sparse.find h.payload (q + i)).isSome) || (Sparse.find h.deltas q).isSome

/-- The SEALED patches of a chain on a base that cover an element of `w` bytes, lowest first; `limit` keeps those of a seal number
(R265). -/
def State.covering (s : State) (base : Name) (l : Loc) (w : Nat) (limit : Option Nat) : List (Patch × PHalf) :=
  (s.chain l.lo l.nd (l.q / 32)).filterMap (fun n =>
    match s.patch n with
    | none => none
    | some p => match p.on base with
      | none => none
      | some h =>
        let within := match limit with
          | none => true
          | some k => h.sealNo ≤ k
        if within && h.covers l.q w then some (p, h) else none)

/-- The highest REPL of a list, lowest first, and the ADDs that stand above it (R264). -/
def topRepl : List (Patch × PHalf) → Option (Patch × PHalf) × List (Patch × PHalf)
  | [] => (none, [])
  | x :: r =>
    match topRepl r with
    | (some y, a) => (some y, a)
    | (none, a) => if x.1.delta.isNone then (some x, a) else (none, x :: a)

/-- Insert by ascending name. -/
def insertPatch (x : Patch × PHalf) : List (Patch × PHalf) → List (Patch × PHalf)
  | [] => [x]
  | y :: r => if x.1.name.toNat < y.1.name.toNat then x :: y :: r else y :: insertPatch x r

/-- Sorted by ascending name (R264). -/
def sortPatches : List (Patch × PHalf) → List (Patch × PHalf)
  | [] => []
  | x :: r => insertPatch x (sortPatches r)

/-- Remove pairs of a patch and its inverse, one after another. -/
def cancelPairs : Nat → List (Patch × PHalf) → List (Patch × PHalf)
  | 0, l => l
  | k + 1, l =>
    match l.find? (fun y => l.any (fun x => y.1.inverseOf == some x.1.name)) with
    | none => l
    | some y => cancelPairs k (l.filter (fun x => x.1.name != y.1.name && y.1.inverseOf != some x.1.name))

/-! ## Arithmetic of deltas (R261, R264) -/

/-- RoundNE of a sum into f32. -/
def addF32 (x y : BitVec 32) : BitVec 32 × FlagSet :=
  let (v, f) := FVal.add .rne (FVal.ofBits .f32 x.toNat) (FVal.ofBits .f32 y.toNat)
  let (n, g) := roundVal .f32 .rne false v
  (BitVec.ofNat 32 n, f ||| g)

/-- A value of one format in another, RNE. -/
def recode (from_ to_ : Fmt) (n : Nat) : Nat × FlagSet := roundVal to_ .rne false (FVal.ofBits from_ n)

/-- A delta of a half at an element, as it counts: an inverse's is negated, exactly for an integer. -/
def deltaF (p : Patch) (d : BitVec 32) : BitVec 32 := if p.neg then d ^^^ 0x80000000 else d
/-- A delta of an integer base. -/
def deltaI (p : Patch) (d : BitVec 32) : Int := if p.neg then -d.toInt else d.toInt

/-- The delta at an element, 0 where it is not covered. -/
def PHalf.delta (h : PHalf) (q : Nat) : BitVec 32 := (Sparse.find h.deltas q).getD 0

/-- What each contributor of a shared patch has on a base, in contributor order (R80, R261, R274). -/
def Patch.partsOn (p : Patch) (base : Name) : List (Nat × Sparse (BitVec 32)) := if p.half.base = base then p.partials else p.twinPartials

/-- The partials of an element in contributor order; the deltas of a patch that is not shared are one. -/
def Patch.openDeltas (p : Patch) (base : Name) (q : Nat) : List (BitVec 32) :=
  if p.shared then (p.partsOn base).filterMap (fun c => Sparse.find c.2 q)
  else ((p.on base).bind (fun h => Sparse.find h.deltas q)).toList

/-- The combined partial of an OPEN patch at an element, in contributor order, where any contributor covers it (R80, R262). -/
def Patch.combinedF (p : Patch) (base : Name) (q : Nat) : Option (BitVec 32) :=
  match p.openDeltas base q with
  | [] => none
  | x :: r => some (r.foldl (fun a d => (addF32 a d).1) x)

/-- The same for an integer base. -/
def Patch.combinedI (p : Patch) (base : Name) (q : Nat) : Option Int :=
  match p.openDeltas base q with
  | [] => none
  | l => some (l.foldl (fun a d => a + d.toInt) 0)

/-! ## The view (R262, R264, R265) -/

/-- The OPEN shared ADD patches of a base, and one more that the reader writes, in ascending name order. -/
def State.openOn (s : State) (base : Name) (own : Option Name) : List Patch :=
  (sortPatches ((s.patches.filter (fun p => (p.shared || own == some p.name) && p.state == .opened && p.delta.isSome
    && (p.on base).isSome)).map (fun p => (p, p.half)))).map (fun x => x.1)

/-- The byte of the highest REPL that covers it, of a list that runs lowest first. -/
def topByte (l : List (Patch × PHalf)) (q : Nat) : Option Byte :=
  l.foldl (fun b x => match Sparse.find x.2.payload q with
    | some y => some y
    | none => b) none

/-- The stored value of an element of `w` bytes under some patches, lowest first: each byte of the highest REPL that covers it, or of the
stored base (R257, R264). -/
def State.stored (s : State) (l : Loc) (w : Nat) (c : List (Patch × PHalf)) : Nat :=
  leNat ((List.range w).map (fun i => (topByte c (l.q + i)).getD (s.hbmByte (l.plus i))))

/-- The view of the element of a floating base that begins at a byte, from its value and the ADDs above. -/
def viewF (t : Fmt) (v : Nat) (adds : List (Patch × PHalf)) (extra : List (BitVec 32)) (q : Nat) : Nat × FlagSet :=
  let acc := BitVec.ofNat 32 (recode t .f32 v).1
  let acc := adds.foldl (fun a x => (addF32 a (deltaF x.1 (x.2.delta q))).1) acc
  let acc := extra.foldl (fun a d => (addF32 a d).1) acc
  let (n, f) := recode .f32 t acc.toNat
  (n, f &&& Flag.ovf)

/-- The view of the element of an integer base. -/
def viewI (t : Fmt) (v : Nat) (adds : List (Patch × PHalf)) (extra : List Int) (q : Nat) : Nat × FlagSet :=
  let acc := adds.foldl (fun a x => a + deltaI x.1 (x.2.delta q)) (readInt t v)
  finishInt t true (extra.foldl (· + ·) acc)

/-- The view of the element of `w` bytes that begins at a byte of a base (R264). -/
def State.viewElem (s : State) (base : Name) (t : Fmt) (w : Nat) (l : Loc) (mode : ViewMode) : Nat × FlagSet :=
  let limit := match mode with
    | .plain | .opn | .own _ => none
    | .asof k => some k
  let c := s.covering base l w limit
  let above := (topRepl c).2
  let adds := cancelPairs above.length (sortPatches above)
  let v := s.stored l w c
  let opens := match mode with
    | .opn => s.openOn base none
    | .own n => s.openOn base (some n)
    | .plain | .asof _ => []
  if t.isFlt then
    let extra := opens.filterMap (fun p => p.combinedF base l.q)
    if adds.isEmpty && extra.isEmpty then (v, 0) else viewF t v adds extra l.q
  else
    let extra := opens.filterMap (fun p => p.combinedI base l.q)
    if adds.isEmpty && extra.isEmpty then (v, 0) else viewI t v adds extra l.q

/-- The view of one byte of a patched segment: of the element or aux byte of the tensor that covers it, else zero
(R293). -/
def State.viewByte (s : State) (l : Loc) (mode : ViewMode) : Byte × FlagSet :=
  match s.tensorAt l with
  | none => (0, 0)
  | some (n, t, p) =>
    let w := if p.aux || t.fmt.width < 8 then 1 else t.fmt.width / 8
    let first := l.q - p.off % w
    let (v, f) := s.viewElem n t.fmt w { l with q := first } mode
    (BitVec.ofNat 8 (v / 2 ^ (8 * (l.q - first))), f)

/-- The view of bytes, with the flags of each of them. -/
def State.viewBytes (s : State) (l : Loc) (n : Nat) (mode : ViewMode) : List Byte × List FlagSet :=
  let xs := (List.range n).map (fun i => s.viewByte (l.plus i) mode)
  (xs.map (fun x => x.1), xs.map (fun x => x.2))

/-- The depth of a sector's chain (R266). -/
def State.depth (s : State) (l : Loc) : Nat := (s.chain l.lo l.nd (l.q / 32)).length

/-- The view of a line. -/
def State.viewLine (s : State) (l : Line) : BitVec 1024 :=
  BitVec.ofNat 1024 (leNat (s.viewBytes { lo := l.lo, nd := l.nd, q := l.no * 128 } 128 .plain).1)

end Sys2Proof.Machine
end

