-- ==== Sys2Proof/Machine/Tile.lean ====
section
/-!
DEFINITION. Tiles in local memory (R193): their rows, their scales or headers, and their transpose (R201, R202).
-/
namespace Sys2Proof.Machine

/-- Round up to a multiple of 32. -/
def up32 (n : Nat) : Nat := (n + 31) / 32 * 32

/-- The bytes of a tile row in local memory (R193). -/
def tilePitch (t : Fmt) (cols : Nat) : Nat := (cols * t.width + 255) / 256 * 32

/-- The bytes of one scale container or header and the elements it serves; none for formats without (R34, R41). -/
def auxUnitOf (t : Fmt) (group : Nat) : Nat × Nat :=
  if t.isLog then (2, 32) else if t.isHalfStep then (4, 16 * 2 ^ group) else (0, 1)

/-- The bytes of a tile row's scales or headers in local memory (R193). -/
def auxPitch (t : Fmt) (group cols : Nat) : Nat :=
  let u := auxUnitOf t group
  up32 (u.1 * ((cols + u.2 - 1) / u.2))

/-- The bytes of a tile in local memory. -/
def tileBytes (t : Fmt) (group rows cols : Nat) : Nat := rows * (tilePitch t cols + auxPitch t group cols)

/-- Element (i, j) of a tile's image. -/
def tileElem (t : Fmt) (cols : Nat) (img : List Byte) (i j : Nat) : Nat :=
  let at_ := i * tilePitch t cols
  if t.width < 8 then (img.getD (at_ + j / 2) 0).toNat / (if j % 2 = 0 then 1 else 16) % 16
  else leNat ((img.drop (at_ + j * (t.width / 8))).take (t.width / 8))

/-- The scale of block b of row i of an L tile's image. -/
def tileScale (t : Fmt) (rows cols : Nat) (img : List Byte) (i b : Nat) : Nat :=
  leNat ((img.drop (rows * tilePitch t cols + i * auxPitch t 0 cols + 2 * b)).take 2) % 1024

/-- A row of a tile from its elements. -/
def tileRow (t : Fmt) (cols : Nat) (f : Nat → Nat) : List Byte :=
  leBytes (tilePitch t cols) (sumNat ((List.range cols).map (fun j => f j % 2 ^ t.width * 2 ^ (t.width * j))))

/-- The flags that a transposition of an L format reports (R202). -/
def logFlags (f : FlagSet) : FlagSet := f &&& (Flag.lsat ||| Flag.luf ||| Flag.nar)

/-- One block of 32 elements along a new row: its scale, its codes and the flags (R202). -/
def reblock (t : Fmt) (xs : List (FVal × FlagSet)) : Nat × List Nat × FlagSet :=
  let c := blockScale t (xs.map (fun x => x.1))
  let ys := xs.map (fun x => linToLog t (b10Scale c) x.1)
  (c, ys.map (fun y => y.1), logFlags ((xs.map (fun x => x.2) ++ ys.map (fun y => y.2)).foldl (· ||| ·) 0))

/-- The transpose of a tile's image, of `cols` rows and `rows` columns (R202); `live` tells the rows whose elements take part
in the new blocks, the others counting as zero. -/
def transposeTile (t : Fmt) (rows cols : Nat) (live : Nat → Bool) (img : List Byte) : List Byte × FlagSet :=
  if t.isLog then
    let lin (i j : Nat) : FVal × FlagSet :=
      if live i then logToLin t (tileElem t cols img i j) (tileScale t rows cols img i (j / 32)) else (FVal.ofInt 0, 0)
    let blocks (j : Nat) : List (Nat × List Nat × FlagSet) :=
      (List.range (rows / 32)).map (fun b => reblock t ((List.range 32).map (fun k => lin (32 * b + k) j)))
    let out := (List.range cols).map blocks
    let codes (x : List (Nat × List Nat × FlagSet)) : List Nat := x.flatMap (fun y => y.2.1)
    (out.flatMap (fun x => tileRow t rows (fun i => (codes x).getD i 0))
      ++ out.flatMap (fun x => leBytes (auxPitch t 0 rows) (sumNat (x.zipIdx.map (fun y => y.1.1 * 2 ^ (16 * y.2))))),
      out.foldl (fun f x => x.foldl (fun f y => f ||| y.2.2) f) 0)
  else ((List.range cols).flatMap (fun j => tileRow t rows (fun i => tileElem t cols img i j)), 0)

end Sys2Proof.Machine
end

