-- ==== Sys2Proof/Machine/Coherence.lean ====
section
/-!
DEFINITION. Cached lines and their coherence: L1s, slices, snoop filters, MOESI (R287 to R290, R303 to R307, R324, R325, R390),
and the delivery of what an access returns. The steps of one die's slice on the L1s of its die are part of the slice's
own step (log 16).
-/
namespace Sys2Proof.Machine

/-! ## Bytes of a line -/

/-- `n` bytes of a line from an offset. -/
def lineGet (d : BitVec 1024) (off n : Nat) : List Byte := (List.range n).map (fun i => d.extractLsb' (8 * (off + i)) 8)

/-- Overwrite those bytes of a line that are given, from an offset. -/
def linePut (d : BitVec 1024) (off : Nat) : List (Option Byte) → BitVec 1024
  | [] => d
  | none :: r => linePut d (off + 1) r
  | some b :: r =>
    linePut ((d &&& ~~~((0xFF : BitVec 1024) <<< (8 * off))) ||| ((b.setWidth 1024) <<< (8 * off))) (off + 1) r

/-- What a masked store writes over old bytes: bytes with a marked bit, their unmarked bits kept. -/
def merged (old v m : List Byte) : List (Option Byte) :=
  (old.zip (v.zip m)).map (fun (o, x, k) => if k = 0 then none else some ((o &&& ~~~k) ||| (x &&& k)))

/-! ## Travel times (R286, R297) -/

/-- A request from a core to a slice, half of the load's 30 + 2h + 96·dd. -/
def reqTime (core home : Nat) : Nat := 15 + meshDist core home + 48 * dieDist (dieOf core) (home / 64)

/-- The crossing between two dies. -/
def hopTime (a b : Nat) : Nat := 48 * dieDist a b

/-! ## What an access returns -/

/-- The access of a number. -/
def Core.access (c : Core) (seq : Nat) : Option Access := c.accs.find? (fun a => a.seq == seq)

/-- Change an access. -/
def Core.modAccess (c : Core) (seq : Nat) (f : Access → Access) : Core :=
  { c with accs := c.accs.map (fun a => if a.seq == seq then f a else a) }

/-- The tag that an access returns its value under. -/
def AccOp.tag : AccOp → Option (BitVec 4)
  | .load _ (.tag t _) => some t
  | .rmw _ _ _ _ t | .row _ _ _ _ _ _ t | .patchAdd _ _ _ t | .patchRow _ _ _ _ _ _ _ t | .dcas _ _ _ _ _ _ _ t | .move _ _ _ t | .pin t =>
    if t = 0 then none else some t
  | .load _ _ | .store _ _ | .patchStore _ _ _ _ _ _ | .stage _ _ _ _ | .writeBack _ | .dropCopies _ | .prefetch _ | .unpin
  | .signal _ _ _ => none

/-- Change the record of a tag. -/
def Bank.modTag (b : Bank) (t : BitVec 4) (f : TagRec → TagRec) : Bank :=
  { b with tags := b.tags.map (fun r => if r.tag == t then f r else r) }

/-- Everything a tag waits for has come: its value lands when its least latency is over (R62, R297). -/
def State.tagReady (s : State) (core : Nat) (bank : Bool) (t : BitVec 4) : State :=
  match (s.bankAt core bank).tags.find? (fun r => r.tag == t) with
  | none => s
  | some r =>
    let s := s.modBankAt core bank (fun b => b.modTag t (fun r => { r with ready := true }))
    s.post (Nat.max 1 (r.issued + r.minLat - s.cycle)) none core bank none (.loadLand t)

/-- The last sector of a local load has been read: its tag lands (R187). -/
def State.localDone (s : State) (core : Nat) (x : LAcc) : State :=
  let s := s.modBankAt core x.bank (fun b => b.modTag x.tag (fun r => { r with ready := true }))
  if x.exact && s.cycle == x.ready then s.postAt (s.cycle + x.lat) core x.bank none (.loadLand x.tag)
  else s.post x.lat none core x.bank none (.loadLand x.tag)

/-- One sector of a stream's local access is performed, in one piece (R106, R149, R150). -/
def State.performSector (s : State) (core : Nat) (x : LAcc) (p : List LMove) : State :=
  let s := s.modCore core (fun c => (c.take (x.grant p)).dropPiece x.no p)
  if x.store then s.modCore core (fun c => { c with mem := writeMoves c.mem p })
  else
    let mem := (s.core core).mem
    let s := s.modBankAt core x.bank (fun b => b.modTag x.tag (fun r =>
      { r with data := r.data ++ p.map (fun m => (m.off, Memory.read mem m.addr)) }))
    if (s.core core).laccs.any (fun y => y.no == x.no) then s else s.localDone core x

/-- An access is over: it leaves its core, and its tag is ready where no other access of it remains. -/
def State.finish (s : State) (core : Nat) (a : Access) : State :=
  let s := s.modCore core (fun c => c.dropAccess a.seq)
  match a.op.tag with
  | none => s
  | some t =>
    if (s.core core).accs.any (fun x => x.bank == a.bank && x.op.tag == some t) then s else s.tagReady core a.bank t

/-- The least latency of a tag rises. -/
def State.atLeast (s : State) (core : Nat) (a : Access) (lat : Nat) : State :=
  match a.op.tag with
  | none => s
  | some t => s.modBankAt core a.bank (fun b => b.modTag t (fun r => { r with minLat := Nat.max r.minLat lat }))

/-- A tag's value does not come before a cycle. -/
def State.notBefore (s : State) (core : Nat) (a : Access) (cycle : Nat) : State :=
  match a.op.tag with
  | none => s
  | some t => s.modBankAt core a.bank (fun b => b.modTag t (fun r => { r with minLat := Nat.max r.minLat (cycle - r.issued) }))

/-- Sectors of an access: the physical bytes they begin at. -/
def Access.sectors (a : Access) : List Loc :=
  dedup ((List.range a.len).map (fun i => { a.loc with q := (a.loc.q + i) / 32 * 32 }))

/-- The narrowest scope that covers both of two banks (R315). -/
def reach (core : Nat) (bank : Bool) (core2 : Nat) (bank2 : Bool) : Nat :=
  if core = core2 then (if bank == bank2 then 1 else 2)
  else if core / 8 = core2 / 8 then 3
  else if core / 64 = core2 / 64 then 4
  else 5

/-- The narrowest scope with which a bank's read acquires from one of the releases that some sectors carry, among those whose own scope
covers the bank; none where no release's does (R315). -/
def State.edgeScope (s : State) (core : Nat) (bank : Bool) (sectors : List Loc) : Option Nat :=
  let keys := sectors.map (fun l => l.key / 32)
  s.releasers.foldl (fun m r =>
    let n := reach core bank r.2.1 r.2.2.1
    if keys.contains r.1 && n ≤ r.2.2.2 then some (match m with
      | none => n
      | some k => Nat.min k n)
    else m) none

/-- A stamp that the next FENCE of a scope takes (R313). -/
def Bank.noteStamp (b : Bank) (n : Nat) (p : BitVec 16) : Bank :=
  match b.readStamp.find? (fun x => x.1 == n) with
  | none => { b with readStamp := b.readStamp ++ [(n, p)] }
  | some x => { b with readStamp := b.readStamp.map (fun y => if y.1 == n then (n, ptsMax x.2 p) else y) }

/-- A read of a stamped sector acquires: at once under .acq, else at the next FENCE, where the scopes of the release and of the acquire
cover each other's banks (R313, R315, R319). -/
def State.readStamp (s : State) (core : Nat) (a : Access) (p : BitVec 16) : State :=
  match s.edgeScope core a.bank a.sectors with
  | none => s
  | some n =>
    if a.acq && n ≤ a.scope.toNat then s.bumpPts core p
    else if a.eng.isNone then s.modBankAt core a.bank (fun b => b.noteStamp n p)
    else s

/-- Flags of a memory response merge into a bank's arst; an enabled one raises an imprecise trap (R48, R49). -/
def State.memFlags (s : State) (core : Nat) (bank : Bool) (f : FlagSet) : State := s.mergeFlags core bank f 5 0 0

/-- A local write of an engine, sector by sector, from a cycle on (R79). -/
def Core.localWrites (c : Core) (e : Eng) (bank : Bool) (addr : Nat) (bytes : List Byte) (due cmd : Nat) : Core :=
  let rec cut : Nat → Nat → List Byte → List LWrite
    | 0, _, _ => []
    | fuel + 1, a, bs =>
      if bs.isEmpty then []
      else
        let n := 32 - a % 32
        { eng := e, bank := bank, addr := a, bytes := bs.take n, due := due, cmd := cmd } :: cut fuel (a + n) (bs.drop n)
  { c with lwrites := c.lwrites ++ cut (bytes.length / 32 + 2) addr bytes }

/-- Bytes on their way to local memory for an engine's access (R79). -/
def State.arriveLocal (s : State) (core : Nat) (a : Access) (addr : Nat) (bytes : List Byte) (min : Nat) : State :=
  s.modCore core (fun c => c.localWrites (a.eng.getD .copy) a.bank addr bytes (s.cycle + min) 0)

/-- The code of an engine in tcause.from (R122). -/
def Eng.src : Eng → BitVec 4
  | .anvil => 2
  | .copy => 3
  | .coll => 4

/-- The detail of an engine's fault (R122, R220): the entry's index, its queue code, and whether it arose inside LAYER. -/
def Entry.detail (n : Entry) : BitVec 16 :=
  BitVec.ofNat 16 (n.slot * 64 + QCode.num n.q * 16 + if n.layer.isSome then 8 else 0)

/-- A fault of an access as its bank or engine receives it: the engine's tells where its word stands (R122, R194). -/
def Access.report (a : Access) (code : BitVec 8) (addr : Word) : TrapInfo :=
  match a.eng with
  | none => { faultAt code addr with src := 5 }
  | some e => { faultAt code addr with src := Eng.src e, detail := a.detail, mpc := a.upc }

/-- An engine's imprecise report about an entry, to the bank that owns it (R122, R124). -/
def State.engTrap (s : State) (core : Nat) (e : Eng) (n : Entry) (t : TrapInfo) : State :=
  let t := { t with src := Eng.src e, detail := t.detail ||| n.detail, mpc := if t.mpc = 0 then n.upc else t.mpc }
  let s := if loggedCode t.code then
      s.addLog { code := t.code, lost := false, core := BitVec.ofNat 16 core, module := Config.moduleNumber, bank := n.bank
                 keyid := s.keyId (s.bankAt core n.bank), addr := t.taddr, jobtag := s.jobTag (s.bankAt core n.bank)
                 part := (s.die (dieOf core)).part, time := s.cycle }
    else s
  s.holdTrap core n.bank t

/-- The entry in an engine stays at its queue's head and the engine is free; an entry of a communication step has no queue, and the step
goes on with the next one (R68, R194, R220). -/
def State.stopEntry (s : State) (core : Nat) (e : Eng) : State :=
  match ((s.core core).engine e).cur with
  | none => s
  | some n =>
    let s := s.modCore core (fun c => c.setEngine e { c.engine e with cur := none, tried := true })
    if n.fromStep.isSome then s
    else s.modBankAt core n.bank (fun b => b.setQueue n.q (b.queue n.q).faulted)

/-- An entry of an engine faults: it is reported, and goes no further. -/
def State.engFault (s : State) (core : Nat) (e : Eng) (t : TrapInfo) : State :=
  match ((s.core core).engine e).cur with
  | none => s
  | some n => (s.engTrap core e n t).stopEntry core e

/-- A TXPOSE has its whole tile: the transpose goes to local memory (R202). -/
def State.finishXpose (s : State) (core word : Nat) : State :=
  match (s.core core).xposes.find? (fun x => x.word == word) with
  | none => s
  | some x =>
    let (out, f) := transposeTile x.fmt x.rows x.cols (fun _ => true) x.image
    (s.modCore core (fun c => { c.localWrites .copy x.bank x.laddr out (s.cycle + 1) 0 with
      xposes := c.xposes.filter (fun y => y.word != word) })).mergeFlags core x.bank f (Eng.src .copy) x.detail x.upc

/-- Replace the high half of the last byte. -/
def putHigh (hi : Option (BitVec 4)) : List Byte → List Byte
  | [] => []
  | [b] => [match hi with
    | none => b
    | some h => h ++ b.extractLsb' 0 4]
  | b :: r => b :: putHigh hi r

/-- Put bytes into a buffer. -/
def putBytes (l : List Byte) (off : Nat) (bs : List Byte) : List Byte := l.take off ++ bs ++ l.drop (off + bs.length)

/-- The flags of the bytes that a load returns from an offset in its tag: of a masked vector load, those of its active lanes (R264). -/
def TagRec.flagsOf (r : TagRec) (off : Nat) (l : List FlagSet) : FlagSet :=
  l.zipIdx.foldl (fun f x => if r.bits = 0 || r.bits.extractLsb' (8 * (off + x.2)) 8 != 0 then f ||| x.1 else f) 0

/-- Bytes come back to a load, with the flags that the view of each of them sets (R49, R264). -/
def State.deliver (s : State) (core : Nat) (a : Access) (bytes : List Byte) (marks : List FlagSet) : State :=
  let flags := marks.foldl (fun f x => f ||| x) 0
  match a.op with
  | .load _ (.tag t off) =>
    s.modBankAt core a.bank (fun b => b.modTag t (fun r =>
      { r with data := r.data ++ bytes.zipIdx.map (fun x => (off + x.2, x.1)), flags := r.flags ||| r.flagsOf off marks }))
  | .load _ (.nameReg d) =>
    s.modBankAt core a.bank (fun b => { b with writes := b.writes ++
      [{ dst := some (.reg (.n d)), val := .name (BitVec.ofNat 128 (leNat bytes)), due := s.cycle + 11, flags := 0, pc := 0
         vecUnit := false, interlock := true, tag := 0 }] })
  | .load _ (.toLocal addr hi) =>
    (s.arriveLocal core a addr (putHigh hi bytes) (30 + 2 * meshDist core (Line.home (Loc.line a.loc)))).memFlags core a.bank flags
  | .load _ (.headers addr) =>
    if bytes.zipIdx.any (fun x => x.2 % 4 == 3 && x.1 != 0) then
      match a.eng with
      | none => s
      | some e => (s.holdTrap core a.bank (a.report 0x0C 0)).stopEntry core e
    else (s.arriveLocal core a addr bytes (30 + 2 * meshDist core (Line.home (Loc.line a.loc)))).memFlags core a.bank flags
  | .load _ (.xpose off hi) =>
    let s := s.modCore core (fun c => { c with xposes := c.xposes.map (fun (x : Xpose) =>
      if x.word == a.word then { x with image := putBytes x.image off (putHigh hi bytes) } else x) })
    let s := s.memFlags core a.bank flags
    if (s.core core).accs.any (fun x => x.word == a.word && x.seq != a.seq) then s else s.finishXpose core a.word
  | _ => s

/-! ## Lines of an L1 (R287) -/

/-- A core's copy of a line. -/
def Core.l1Line (c : Core) (l : Line) : Option L1Line := c.l1.find? (fun x => x.line == l && x.st != .i)

/-- Change a core's copy of a line. -/
def Core.modL1 (c : Core) (l : Line) (f : L1Line → L1Line) : Core :=
  { c with l1 := c.l1.map (fun x => if x.line == l then f x else x) }

/-- Drop a core's copy of a line. -/
def Core.dropL1 (c : Core) (l : Line) : Core := { c with l1 := c.l1.filter (fun x => x.line != l) }

/-- A dirty copy. -/
def L1Line.dirtyData (x : L1Line) : Option (BitVec 1024) :=
  if !x.lease && !x.view && (x.st == .m || x.st == .o) then some x.data else none

/-! ## Lines of a slice (R288 to R290) -/

/-- A slice's copy of a line. -/
def Slice.line (x : Slice) (l : Line) : Option SLine := x.lines.find? (fun y => y.line == l)

/-- Change a slice's copy of a line. -/
def Slice.modLine (x : Slice) (l : Line) (f : SLine → SLine) : Slice :=
  { x with lines := x.lines.map (fun y => if y.line == l then f y else y) }

/-- Drop a slice's copy of a line. -/
def Slice.dropLine (x : Slice) (l : Line) : Slice := { x with lines := x.lines.filter (fun y => y.line != l) }

/-- The slice of a die that holds a line (R288). -/
def State.sliceOf (s : State) (die : Nat) (l : Line) : Slice := s.slice die (Line.slice l)

/-- Change the slice of a die that holds a line. -/
def State.modSliceOf (s : State) (die : Nat) (l : Line) (f : Slice → Slice) : State := s.modSlice die (Line.slice l) f

/-- The home slice of a line. -/
def State.homeSlice (s : State) (l : Line) : Slice := s.sliceOf (Line.homeDie l) l

/-- Change the home slice of a line. -/
def State.modHome (s : State) (l : Line) (f : Slice → Slice) : State := s.modSliceOf (Line.homeDie l) l f

/-- The quota of a class (R289). -/
def Slice.quota (x : Slice) (c : BitVec 2) : Nat :=
  (if c = 0 then x.qoth else if c = 1 then x.qwt else if c = 2 then x.qact else x.qkv).toNat

/-- The staging ways of a slice (R209, R289). -/
def Slice.staged (x : Slice) : Nat := x.stg.toNat

/-- The cache ways of a slice. -/
def Slice.ways (x : Slice) : Nat := 16 - x.staged

/-- The lines of a set. -/
def Slice.inSet (x : Slice) (n : Nat) : List SLine := x.lines.filter (fun y => Line.set y.line == n)

/-- The least recently used of some lines. -/
def oldest : List SLine → Option SLine
  | [] => none
  | y :: r => match oldest r with
    | none => some y
    | some z => if z.lru < y.lru then some z else some y

/-- A line in the middle of a transaction. -/
def Slice.isBusy (x : Slice) (l : Line) : Bool :=
  x.busy.any (fun t => t.line == l || t.evicts.contains l || t.awaits.any (fun p => p.1 == l))

/-- The victim of a fill of a class into a full set (R290). -/
def Slice.victim (x : Slice) (n : Nat) (c : BitVec 2) : Option SLine :=
  let all := x.inSet n
  let free := all.filter (fun y => y.pin.isNone)
  let held (k : BitVec 2) : Nat := (all.filter (fun y => y.cls == k)).length
  let above := free.filter (fun y => held y.cls > x.quota y.cls)
  let same := free.filter (fun y => y.cls == c)
  match (if held c < x.quota c then oldest above else none) with
  | some y => some y
  | none => match oldest same with
    | some y => some y
    | none => oldest free

/-! ## Dropping and taking copies -/

/-- The copies of a die: its L1s' are dropped; what is dirty comes back. -/
def State.dropL1s (s : State) (l : Line) : List Nat → State × Option (BitVec 1024)
  | [] => (s, none)
  | c :: r =>
    let d := ((s.core c).l1Line l).bind L1Line.dirtyData
    let (s, e) := (s.modCore c (fun x => x.dropL1 l)).dropL1s l r
    (s, match d with
      | some d => some d
      | none => e)

/-- A die gives up every copy of a line that is not homed there, or its L1 copies of a line that is; dirty data comes
back (R304: its L1 copies are invalidated first). -/
def State.dropDie (s : State) (die : Nat) (l : Line) : State × Option (BitVec 1024) :=
  match (s.sliceOf die l).line l with
  | none => (s, none)
  | some y =>
    let (s, d) := s.dropL1s l y.cores
    if die = Line.homeDie l then
      (s.modSliceOf die l (fun x => x.modLine l (fun y =>
        { y with cores := [], owner := none, ost := .i, data := d.getD y.data, dirty := y.dirty || d.isSome })), d)
    else
      (s.modSliceOf die l (fun x => x.dropLine l), match d with
        | some d => some d
        | none => if y.dirty then some y.data else none)

/-- Put data into the home copy, or into the stacks where the home holds no copy. -/
def State.homePut (s : State) (l : Line) (d : BitVec 1024) : State :=
  match (s.homeSlice l).line l with
  | some _ => s.modHome l (fun x => x.modLine l (fun y => { y with data := d, dirty := true }))
  | none => s.hbmPutLine l d

/-- The data the home has: its copy, or the stacks. -/
def State.homeData (s : State) (l : Line) : BitVec 1024 :=
  match (s.homeSlice l).line l with
  | some y => y.data
  | none => s.hbmLine l

/-- The snoop-filter entry of a line. -/
def Slice.sfEntry (x : Slice) (l : Line) : Option SfEntry := x.sf.find? (fun e => e.line == l)

/-- Remove a line from a snoop filter. -/
def Slice.sfDrop (x : Slice) (l : Line) : Slice := { x with sf := x.sf.filter (fun e => e.line != l) }

/-- Change a line's snoop-filter entry; an entry that marks no die is removed. -/
def Slice.sfMod (x : Slice) (l : Line) (f : SfEntry → SfEntry) : Slice :=
  { x with sf := (x.sf.map (fun e => if e.line == l then f e else e)).filter (fun e => e.dies != 0 || e.owner.isSome) }

/-- The dies that a vector marks. -/
def diesOf (v : BitVec 32) : List Nat := (List.range 32).filter (fun d => v.getLsbD d)

/-- Every copy of a line in the module outside its home slice is dropped and dirty data merged at the home: what a GetM by
the home itself comes to (R307, R383), taken as one step (log 16). -/
def State.recall (s : State) (l : Line) : State :=
  let dies := match (s.homeSlice l).sfEntry l with
    | none => []
    | some e => diesOf (e.dies ||| (match e.owner with
      | some o => 1 <<< o
      | none => 0))
  let s := dies.foldl (fun s d =>
    let (s, x) := s.dropDie d l
    match x with
    | some x => s.homePut l x
    | none => s) s
  let (s, _) := s.dropDie (Line.homeDie l) l
  s.modHome l (fun x => x.sfDrop l)

/-- A line leaves its home slice: written back if dirty; a leased line's rts raises the slice's mark (R309). -/
def State.evictHome (s : State) (l : Line) : State :=
  let s := s.recall l
  match (s.homeSlice l).line l with
  | none => s
  | some y =>
    let s := if y.dirty && !y.view then s.hbmPutLine l y.data else s
    s.modHome l (fun x => { x.dropLine l with mts := if y.lease then ptsMax x.mts y.rts else x.mts })

/-- A line leaves a slice: a proxy's tells the home by its state (R304). -/
def State.evictLine (s : State) (die : Nat) (y : SLine) : State :=
  if die = Line.homeDie y.line then s.evictHome y.line
  else
    let l := y.line
    let (s, d) := s.dropDie die l
    if y.lease then s
    else
      let home := Line.home l
      let data := d.getD y.data
      let ev : Instr := match y.st with
        | .m => .putm l die data
        | .o => .puto l die data
        | .e => if d.isSome then .putm l die data else .pute l die
        | .s | .i => .puts l die
      s.post (hopTime die (home / 64)) (some (die * 64 + Line.slice l, home, 2)) home false none ev

/-- A fill of a line into a slice waits: the victim of its full set is in the middle of a transaction. -/
def State.fillWaits (s : State) (die : Nat) (l : Line) (cls : BitVec 2) : Bool :=
  let x := s.sliceOf die l
  if (x.line l).isSome || (x.inSet (Line.set l)).length < x.ways then false
  else (x.victim (Line.set l) cls).any (fun v => x.isBusy v.line)

/-- Fill a line into a slice (R290). -/
def State.fill (s : State) (die : Nat) (y : SLine) : State :=
  let x := s.sliceOf die y.line
  let put (s : State) : State := s.modSliceOf die y.line (fun x => { x with lines := x.lines ++ [y] })
  if (x.line y.line).isSome then s.modSliceOf die y.line (fun x => x.modLine y.line (fun _ => y))
  else if (x.inSet (Line.set y.line)).length < x.ways then put s
  else match x.victim (Line.set y.line) y.cls with
    | none => put s
    | some v => put (s.evictLine die v)

/-- A new slice line. -/
def SLine.new (l : Line) (d : BitVec 1024) (view lease : Bool) (cls : BitVec 2) (now : Nat) : SLine :=
  { line := l, st := .e, data := d, valid := 15, dirty := false, view := view, lease := lease, cls := cls, pin := none, cores := []
    owner := none, ost := .i, wts := 0, rts := 0, stamps := [], marks := [], lru := now }

/-- The flags that reading each byte of a line of views sets (R264). -/
def State.viewMarks (s : State) (l : Line) : Sparse (BitVec 8) :=
  (List.range 128).filterMap (fun i =>
    let f := (s.viewByte { lo := l.lo, nd := l.nd, q := l.no * 128 + i } .plain).2
    if f = 0 then none else some (i, f))

/-- The home holds a copy of a line, read from the stacks or computed as a view where it did not, or not with every sector (R288, R307,
R309). -/
def State.ensureHome (s : State) (l : Line) (view lease : Bool) (cls : BitVec 2) : State :=
  match (s.homeSlice l).line l with
  | some y =>
    if y.valid = 15 then s.modHome l (fun x => x.modLine l (fun y => { y with lru := s.cycle }))
    else s.modHome l (fun x => x.modLine l (fun y =>
      { y with data := s.viewLine l, valid := 15, stamps := s.lineStamps l, marks := s.viewMarks l, lru := s.cycle }))
  | none =>
    let d := if view then s.viewLine l else s.hbmLine l
    let m := (s.homeSlice l).mts
    s.fill (Line.homeDie l) { SLine.new l d view lease cls s.cycle with
      wts := m, rts := m, stamps := s.lineStamps l, marks := if view then s.viewMarks l else [] }

/-- A die's slice loses the L1 copy of a core, which may have been its owner; dirty data goes into the slice's copy. -/
def State.leaveL1 (s : State) (core : Nat) (x : L1Line) : State :=
  let die := dieOf core
  if x.lease then s
  else
    s.modSliceOf die x.line (fun z => z.modLine x.line (fun y =>
      { y with cores := y.cores.filter (fun c => c != core)
               owner := if y.owner = some core then none else y.owner
               ost := if y.owner = some core then .i else y.ost
               st := if x.st == .m && y.st == .e then .m else y.st
               data := x.dirtyData.getD y.data, dirty := y.dirty || x.dirtyData.isSome }))

/-- Fill a line into a core's L1: 8 lines of a set, the least recently used one leaving (R287). -/
def State.fillL1 (s : State) (core : Nat) (x : L1Line) : State :=
  let c := s.core core
  let put (s : State) : State := s.modCore core (fun c => { c with l1 := c.l1 ++ [x] })
  let rec least : List L1Line → Option L1Line
    | [] => none
    | y :: r => match least r with
      | none => some y
      | some z => if z.lru < y.lru then some z else some y
  if c.l1.any (fun y => y.line == x.line) then s.modCore core (fun c => c.modL1 x.line (fun _ => x))
  else
    let here := c.l1.filter (fun y => y.set == x.set)
    if here.length < 8 then put s
    else match least here with
      | none => put s
      | some v => put ((s.modCore core (fun c => c.dropL1 v.line)).leaveL1 core v)

/-! ## Applying accesses to an L1 copy (R390) -/

/-- The offset of an access in its line. -/
def Access.off (a : Access) : Nat := a.loc.q % 128

/-- The sectors of a line that some bytes touch, as valid bits (R287). -/
def sectorMask (off n : Nat) : BitVec 4 :=
  (List.range 4).foldl (fun (m : BitVec 4) i => if i * 32 < off + n && off < i * 32 + 32 then m ||| (1 <<< i) else m) 0

/-- The sectors that an access wants of its line; a prefetch wants them all. -/
def Access.wants (a : Access) : BitVec 4 :=
  match a.op with
  | .load _ _ | .store _ _ => sectorMask a.off a.len
  | _ => 15

/-- A copy holds the sectors that an access wants. -/
def serves (valid : BitVec 4) (a : Access) : Bool := a.wants &&& ~~~valid == 0

/-- The accesses of a core that wait for a line. -/
def Core.waitingFor (c : Core) (l : Line) : List Access := c.accs.filter (fun a => a.state == .sent && Loc.line a.loc == l && !a.direct)

/-- A line goes into the L1 of the core that asked for it, unless only prefetches into the die's slice did (R292). -/
def Core.wantsL1 (c : Core) (l : Line) : Bool :=
  let w := c.waitingFor l
  w.isEmpty || w.any (fun a => a.op != .prefetch true)

/-- The flags that reading each of `n` bytes of a copy from an offset sets. -/
def marksOf (m : Sparse (BitVec 8)) (off n : Nat) : List FlagSet := (List.range n).map (fun i => (Sparse.find m (off + i)).getD 0)

/-- The largest stamp of the sectors that an access touches. -/
def stampsOf (l : List (BitVec 16)) (off n : Nat) : BitVec 16 :=
  ptsMaxList ((List.range 4).filterMap (fun i => if i * 32 < off + n && off < i * 32 + 32 then some (l.getD i 0) else none))

/-- A read served from a copy of a MOESI line. -/
def State.readCopy (s : State) (core : Nat) (a : Access) (x : L1Line) : State :=
  let s := s.modCore core (fun c => c.modL1 x.line (fun x => { x with lru := s.cycle }))
  let stamp := ptsMaxList (a.sectors.map s.stampAt)
  let s := if x.view then s.bumpPts core stamp else s.readStamp core a stamp
  (s.deliver core a (lineGet x.data a.off a.len) (marksOf x.marks a.off a.len)).finish core a

/-- A store is acknowledged after it has been performed (R390): the access remains until then. -/
def State.ackStore (s : State) (core : Nat) (a : Access) (min : Nat) : State :=
  let s := s.modCore core (fun c => c.modAccess a.seq (fun a => { a with state := .performed, tried := true }))
  s.post min none core a.bank a.eng (.storeAck a.seq)

/-- A sector carries a release of a bank at a scope. -/
def State.noteRelease (s : State) (l : Loc) (core : Nat) (bank : Bool) (scope : Nat) : State :=
  let r := (l.key / 32, core, bank, scope)
  if s.releasers.contains r then s else { s with releasers := s.releasers ++ [r] }

/-- A release store stamps its sectors with the releaser's pts (R319). -/
def State.publishStamps (s : State) (core : Nat) (a : Access) : State :=
  if a.publish then a.sectors.foldl (fun s l => (s.raiseStamp l (s.core core).pts).noteRelease l core a.bank a.scope.toNat) s else s

/-- A store that the core's copy in M takes. -/
def State.writeCopy (s : State) (core : Nat) (a : Access) (v m : List Byte) : State :=
  let s := s.modCore core (fun c => c.modL1 (Loc.line a.loc) (fun x =>
    { x with st := .m, data := linePut x.data a.off (merged (lineGet x.data a.off a.len) v m), dirty := true, lru := s.cycle }))
  (s.publishStamps core a).ackStore core a 12

/-- Apply the access that waited for a line, now that the core's copy allows it. -/
def State.applyLine (s : State) (core : Nat) (a : Access) : State :=
  let again := s.modCore core (fun c => c.modAccess a.seq (fun a => { a with state := .waiting }))
  match a.op with
  | .prefetch _ => s.finish core a
  | _ => match (s.core core).l1Line (Loc.line a.loc) with
    | none => again
    | some x => match a.op with
      | .store v m => if x.st == .m || x.st == .e then s.writeCopy core a v m else again
      | .load _ _ => if serves x.valid a then s.readCopy core a x else again
      | _ => s

/-- Apply every access of a core that waited for a line. -/
def State.applyWaiting (s : State) (core : Nat) (l : Line) : State :=
  ((s.core core).waitingFor l).foldl (fun s a => s.applyLine core a) s

/-! ## Granting within a die (R303, R304) -/

/-- The index of the L1 set of the address that a core asked a line for (R287). -/
def State.l1Set (s : State) (core : Nat) (l : Line) : Nat :=
  match (s.core core).accs.find? (fun a => Loc.line a.loc == l) with
  | some a => (a.vaddr / 128) % 256
  | none => l.no % 256

/-- The owner of a line on a die gives its data for a reader: E becomes S and M becomes O (R304); of a line that the die itself owns
dirty and another die reads, the owning L1 takes the die's new state O (R324). -/
def State.shareOwner (s : State) (die : Nat) (l : Line) (owned : Bool) : State :=
  match (s.sliceOf die l).line l with
  | none => s
  | some y => match y.owner with
    | none => s
    | some o => match (s.core o).l1Line l with
      | none => s
      | some x =>
        let dirty := owned || x.st == .m || x.st == .o
        let s := s.modCore o (fun c => c.modL1 l (fun x => { x with st := if dirty then .o else .s }))
        s.modSliceOf die l (fun z => z.modLine l (fun y =>
          { y with owner := if dirty then some o else none, ost := if dirty then .o else .i
                   data := if x.view then y.data else x.data, dirty := y.dirty || dirty }))

/-- Install a line in a core's L1 from its die's slice, with a state. -/
def State.install (s : State) (core : Nat) (l : Line) (st : Moesi) : State :=
  let die := dieOf core
  match (if (s.core core).wantsL1 l then (s.sliceOf die l).line l else none) with
  | none => s
  | some y =>
    let s := s.modSliceOf die l (fun z => z.modLine l (fun y =>
      { y with cores := y.cores.filter (fun c => c != core) ++ [core]
               owner := if st == .e || st == .m then some core else y.owner
               ost := if st == .e || st == .m then st else y.ost, lru := s.cycle }))
    s.fillL1 core { line := l, set := s.l1Set core l, view := y.view, lease := false, st := st, data := y.data, valid := y.valid
                    dirty := false, wts := 0, rts := 0, hits := 0, stamps := [], marks := y.marks, lru := s.cycle }

/-- The other cores of a die give up their copies of a line; dirty data goes into the slice's copy. -/
def State.dropOthers (s : State) (die : Nat) (l : Line) (keep : Nat) : State :=
  match (s.sliceOf die l).line l with
  | none => s
  | some y =>
    let (s, d) := s.dropL1s l (y.cores.filter (fun c => c != keep))
    s.modSliceOf die l (fun z => z.modLine l (fun y =>
      { y with cores := y.cores.filter (fun c => c == keep)
               owner := if y.owner = some keep then some keep else none, ost := if y.owner = some keep then y.ost else .i
               data := d.getD y.data, dirty := y.dirty || d.isSome }))

/-- The state in which a slice grants a line to a core that reads it, after the owner has shared it. -/
def SLine.readGrant (y : SLine) : Moesi :=
  if y.cores.isEmpty && (y.st == .e || y.st == .m) then .e else .s

/-- The kind of a request. -/
inductive ReqKind where
  | gets | getm | upg
  deriving DecidableEq, Repr

/-- The step of a request. -/
def ReqKind.instr (k : ReqKind) (r : CohReq) : Instr :=
  match k with
  | .gets => .gets r
  | .getm => .getm r
  | .upg => .upg r

/-- A request travels from its core to its die's slice, or from that slice to the home (R286). -/
def State.sendReq (s : State) (k : ReqKind) (r : CohReq) (min : Nat) : State :=
  let near := dieOf r.core * 64 + Line.slice r.line
  let chan := if r.home && dieOf r.core ≠ Line.homeDie r.line then (near, Line.home r.line, 0) else (r.core, near, 0)
  s.post min (some chan) r.core false none (k.instr r)

/-! ## The snoop filter (R305, R306) -/

/-- The entries of a snoop-filter set in use: two compressed lines of one pair share one. -/
def Slice.sfUsed (x : Slice) (n : Nat) : Nat :=
  let here := x.sf.filter (fun e => Line.set e.line == n)
  (here.filter (fun e => e.pair.isNone)).length + (dedup (here.filterMap (fun e => e.pair))).length

/-- The snoop-filter ways in use (R289). -/
def Slice.sfWays (x : Slice) : Nat := if x.sfways = 0 || x.sfways.toNat > 8 then 8 else x.sfways.toNat

/-- The least recently used entry of some. -/
def sfOldest : List SfEntry → Option SfEntry
  | [] => none
  | e :: r => match sfOldest r with
    | none => some e
    | some f => if f.lru < e.lru then some f else some e

/-- The dies of every group that a vector marks (R305). -/
def groupMask (v : BitVec 32) : BitVec 32 :=
  (List.range 8).foldl (fun m g => if v.extractLsb' (4 * g) 4 != 0 then m ||| ((0xF : BitVec 32) <<< (4 * g)) else m) 0

/-- Compress two entries without an owner into one pair (R305): the two least recently used; none where there are not
two. -/
def Slice.compress (x : Slice) (n : Nat) : Option Slice :=
  let free := x.sf.filter (fun e => Line.set e.line == n && e.pair.isNone && e.owner.isNone && !x.isBusy e.line)
  match sfOldest free with
  | none => none
  | some a => match sfOldest (free.filter (fun e => e.line != a.line)) with
    | none => none
    | some b =>
      let id := maxNat 0 (x.sf.filterMap (fun e => e.pair)) + 1
      some { x with sf := x.sf.map (fun e =>
        if e.line == a.line || e.line == b.line then { e with dies := groupMask e.dies, pair := some id } else e) }

/-- The lines that share a compressed entry with one, itself among them. -/
def Slice.sfGroup (x : Slice) (e : SfEntry) : List SfEntry := if e.pair.isNone then [e] else x.sf.filter (fun f => f.pair == e.pair)

/-- The lines that leave with the least recently used entry of a set, of which none is in the middle of a transaction. -/
def Slice.sfVictim (x : Slice) (n : Nat) : List SfEntry :=
  match sfOldest (x.sf.filter (fun e => Line.set e.line == n && !(x.sfGroup e).any (fun f => x.isBusy f.line))) with
  | none => []
  | some e => match e.pair with
    | none => [e]
    | some p => x.sf.filter (fun f => f.pair == some p)

/-- Whether a line has an entry that a request can use or can be given one at once: a read leaves a compressed entry as it is, and
an ownership request needs a precise one (R305, R306). -/
def Slice.sfRoom (x : Slice) (l : Line) (owns : Bool) : Bool :=
  match x.sfEntry l with
  | none => x.sfUsed (Line.set l) < x.sfWays
  | some e =>
    if e.pair.isNone || !owns then true
    else
      let alone : Slice := { x with sf := x.sf.map (fun f => if f.line == l then { f with pair := none } else f) }
      alone.sfUsed (Line.set l) ≤ x.sfWays

/-- The dies an entry marks, its owner among them. -/
def SfEntry.marked (e : SfEntry) : List Nat :=
  diesOf (e.dies ||| (match e.owner with
    | some o => 1 <<< o
    | none => 0))

/-- A die of a compressed entry has taken a copy: the entry stays compressed (R306). -/
def Slice.sfJoin (x : Slice) (l : Line) (die now : Nat) : Slice :=
  { x with sf := x.sf.map (fun f => if f.line == l then { f with dies := groupMask (f.dies ||| 1 <<< die), lru := now } else f) }

/-- The entry of a line after a die has taken a copy, a precise one (R306). -/
def Slice.sfSet (x : Slice) (l : Line) (dies : BitVec 32) (owner : Option Nat) (ost : Moesi) (now : Nat) : Slice :=
  let e : SfEntry := { line := l, dies := dies, owner := owner, ost := ost, pair := none, lru := now }
  if (x.sfEntry l).isSome then { x with sf := x.sf.map (fun f => if f.line == l then e else f) } else { x with sf := x.sf ++ [e] }

/-! ## The home (R304, R325, R390) -/

/-- The transaction on a line. -/
def Slice.txn (x : Slice) (l : Line) : Option Txn := x.busy.find? (fun t => t.line == l)

/-- Change the transaction on a line. -/
def Slice.modTxn (x : Slice) (l : Line) (f : Txn → Txn) : Slice :=
  { x with busy := x.busy.map (fun t => if t.line == l then f t else t) }

/-- Whether the requests of a line belong to a patched or a leased segment, and its class: from the access that asks. -/
def State.lineKind (s : State) (core : Nat) (l : Line) : Bool × Bool × BitVec 2 :=
  match (s.core core).accs.find? (fun a => Loc.line a.loc == l) with
  | some a => (a.target == .view || a.target == .leaseView, a.target == .leaseCell || a.target == .leaseView, a.cls)
  | none => (false, false, 0)

/-- Data or a grant leaves the home for the requester (R304, R297). -/
def State.grantFrom (s : State) (from_ : Nat) (r : CohReq) (st : Moesi) (d : Option (BitVec 1024)) (extra : Nat) : State :=
  s.post (hopTime from_ (dieOf r.core) + 15 + meshDist r.core (Line.home r.line) + extra)
    (some (from_ * 64 + Line.slice r.line, dieOf r.core * 64 + Line.slice r.line, 3)) r.core false none
    (.coherenceData r.line r.core st d)

/-- What a read that the home's slice misses takes longer: the stacks, and for a view its chain (R266, R297). -/
def State.missTime (s : State) (l : Line) (view : Bool) : Nat :=
  if ((s.homeSlice l).line l).any (fun y => y.valid = 15) then 0
  else
    let deep := maxNat 0 ((List.range 4).map (fun i => s.depth { lo := l.lo, nd := l.nd, q := l.no * 128 + 32 * i }))
    120 + (if view then (deep + 3) / 4 else 0)

/-- The home answers a read (R304): the entry is set, and data goes out; an owner elsewhere forwards it. -/
def State.homeRead (s : State) (r : CohReq) : State :=
  let l := r.line
  let hd := Line.homeDie l
  let e := dieOf r.core
  let (view, lease, cls) := s.lineKind r.core l
  let extra := s.missTime l view
  let s := s.ensureHome l view lease cls
  let sf := (s.homeSlice l).sfEntry l
  match sf.bind (fun x => if x.pair.isNone then x.owner else none) with
  | some o =>
    if o = e then s.grantFrom hd r .s (some (s.homeData l)) 0
    else s.post (hopTime hd o) (some (Line.home l, o * 64 + Line.slice l, 1)) (o * 64) false none (.forward l o false)
  | none =>
    let s := s.shareOwner hd l false
    let local_ := match (s.homeSlice l).line l with
      | some y => !(y.cores.filter (fun c => c != r.core)).isEmpty
      | none => false
    let dies := (match sf with
      | some x => x.dies
      | none => 0) &&& ~~~((1 : BitVec 32) <<< e)
    let st : Moesi := if local_ || dies != 0 then .s else .e
    let s := if e = hd then s
      else if sf.any (fun x => x.pair.isSome) then s.modHome l (fun x => x.sfJoin l e s.cycle)
      else s.modHome l (fun x => x.sfSet l (dies ||| 1 <<< e) (if st == .e then some e else none)
        (if st == .e then .e else .i) s.cycle)
    s.grantFrom hd r st (some (s.homeData l)) extra

/-- The home gives up its die's own copies of a line for a new owner and records it (R304, R306). -/
def State.takeOwner (s : State) (r : CohReq) : State :=
  let l := r.line
  let hd := Line.homeDie l
  let e := dieOf r.core
  if e = hd then (s.dropOthers hd l r.core).modHome l (fun x => x.sfDrop l)
  else ((s.dropDie hd l).1).modHome l (fun x => x.sfSet l (1 <<< e) (some e) .m s.cycle)

/-- The home answers an ownership request once every other copy is gone (R304). -/
def State.homeOwn (s : State) (r : CohReq) (data : Bool) : State :=
  let l := r.line
  let hd := Line.homeDie l
  let (view, lease, cls) := s.lineKind r.core l
  let extra := s.missTime l view
  let s := (s.ensureHome l view lease cls).takeOwner r
  s.grantFrom hd r .m (if data then some (s.homeData l) else none) (if data then extra else 0)

/-- An ownership request after every invalidation has been acknowledged: a forward to the owner, or the grant (R304,
R325). -/
def State.ownNext (s : State) (r : CohReq) (upgrade : Bool) (fwd : Option Nat) : State :=
  let l := r.line
  match fwd with
  | some o => s.post (hopTime (Line.homeDie l) o) (some (Line.home l, o * 64 + Line.slice l, 1)) (o * 64) false none
      (.forward l o true)
  | none => s.homeOwn r !upgrade

/-- The dies that must give up their copies before an ownership request is answered, and the owner to forward to
afterwards (R304, R325). -/
def State.others (s : State) (r : CohReq) (upgrade : Bool) : List Nat × Option Nat :=
  let e := dieOf r.core
  match (s.homeSlice r.line).sfEntry r.line with
  | none => ([], none)
  | some x =>
    let dies := x.marked.filter (fun d => d != e)
    match x.owner with
    | some o => if upgrade || o = e then (dies, none) else (dies.filter (fun d => d != o), some o)
    | none => (dies, none)

/-- Whether the requester of an upgrade still has its copy (R304). -/
def State.stillSharer (s : State) (r : CohReq) : Bool :=
  let e := dieOf r.core
  if e = Line.homeDie r.line then ((s.core r.core).l1Line r.line).isSome
  else match (s.sliceOf e r.line).line r.line with
    | some y => y.st != .i && (match (s.homeSlice r.line).sfEntry r.line with
      | some x => x.dies.getLsbD e || x.owner == some e
      | none => false)
    | none => false

/-- Invalidations go to dies (R304, R324). -/
def State.sendInvalidations (s : State) (l : Line) (back : Bool) : List Nat → State
  | [] => s
  | d :: r =>
    (s.post (hopTime (Line.homeDie l) d) (some (Line.home l, d * 64 + Line.slice l, 1)) (d * 64) false none
      (if back then .backInvalidate l d else .invalidate l d)).sendInvalidations l back r

/-- A transaction's first action once its evictions are done. -/
def State.startTxn (s : State) (r : CohReq) (k : ReqKind) : State :=
  match k with
  | .gets => s.homeRead r
  | .getm | .upg =>
    let up := k == .upg && s.stillSharer r
    let (dies, fwd) := s.others r up
    let s := s.modHome r.line (fun x => x.modTxn r.line (fun t =>
      { t with excl := true, upgrade := up, awaits := dies.map (fun d => (r.line, d)), fwd := fwd, evicts := [] }))
    if dies.isEmpty then s.ownNext r up fwd else s.sendInvalidations r.line false dies

/-- The kind of request that a transaction serves. -/
def Txn.kind (t : Txn) : ReqKind := if !t.excl then .gets else if t.upgrade then .upg else .getm

/-- A new transaction. -/
def Txn.new (r : CohReq) (k : ReqKind) : Txn :=
  { line := r.line, req := r, excl := k != .gets, upgrade := k == .upg, awaits := [], fwd := none, evicts := [] }

/-- A request waits at a slice for a line that is in the middle of a transaction. -/
def State.waitAt (s : State) (die : Nat) (k : ReqKind) (r : CohReq) : State :=
  s.modSliceOf die r.line (fun x => { x with waitq := x.waitq ++ [k.instr r] })

/-- The requests that waited at a slice are looked at again. -/
def State.drainWait (s : State) (die : Nat) (l : Line) : State :=
  let q := (s.sliceOf die l).waitq
  let s := s.modSliceOf die l (fun x => { x with waitq := [] })
  q.foldl (fun s i => s.postAt s.cycle (die * 64) false none i) s

/-- A request at the home (R304, R305, R325): it waits for the transaction before it; a die that has no snoop-filter
entry to go into gets one by compression or by eviction first. -/
def State.requestHome (s : State) (k : ReqKind) (r : CohReq) : State :=
  let l := r.line
  let hd := Line.homeDie l
  let x := s.homeSlice l
  let begin_ (s : State) : State := (s.modHome l (fun x => { x with busy := x.busy ++ [Txn.new r k] })).startTxn r k
  if x.isBusy l || s.fillWaits hd l (s.lineKind r.core l).2.2 then s.waitAt hd k r
  else if dieOf r.core = hd || x.sfRoom l (k != .gets) then begin_ s
  else match x.compress (Line.set l) with
    | some y => begin_ (s.modHome l (fun _ => y))
    | none =>
      let vs := x.sfVictim (Line.set l)
      if vs.isEmpty then s.waitAt hd k r
      else
        let t := { Txn.new r k with
          evicts := vs.map (fun e => e.line), awaits := vs.flatMap (fun e => e.marked.map (fun d => (e.line, d))) }
        let s := s.modHome l (fun x => { x with busy := x.busy ++ [t] })
        vs.foldl (fun s e => s.sendInvalidations e.line true e.marked) s

/-- A write-back of a die's copy that is on its way to the home, and the state without it. -/
def State.takePut (s : State) (die : Nat) (l : Line) : Option (BitVec 1024) × State :=
  let data (i : Instr) : Option (Option (BitVec 1024)) := match i with
    | .putm l' d x | .puto l' d x => if l' == l && d == die then some (some x) else none
    | .puts l' d | .pute l' d => if l' == l && d == die then some none else none
    | _ => none
  match s.flights.find? (fun f => (data f.ev).isSome) with
  | none => (none, s)
  | some f => ((data f.ev).join, { s with flights := s.flights.erase f })

/-- A die's notice of an eviction of a line is still on its way to the home. -/
def State.putPending (s : State) (die : Nat) (l : Line) : Bool :=
  s.flights.any (fun f => match f.ev with
    | .putm l' d _ | .puto l' d _ | .puts l' d | .pute l' d => l' == l && d == die
    | _ => false)

/-- A request at its own die's slice, which is no home (R303, R304): served from the proxy copy where that allows it, else
sent on; it waits for the die's own write-back of the line. A copy without the sectors that are wanted leaves first (R287, R307). -/
def State.requestProxy (s : State) (k : ReqKind) (r : CohReq) : State :=
  let l := r.line
  let d := dieOf r.core
  let x := s.sliceOf d l
  let forward_ (s : State) (k : ReqKind) : State :=
    (s.modSliceOf d l (fun x => { x with busy := x.busy ++ [Txn.new r k] })).sendReq k { r with home := true }
      (hopTime d (Line.homeDie l))
  if x.isBusy l then s.waitAt d k r
  else if s.putPending d l then s.postAt (s.cycle + 1) r.core false none (k.instr r)
  else match k, x.line l with
    | .gets, some y =>
      if ((s.core r.core).waitingFor l).any (fun a => !serves y.valid a) then
        (s.evictLine d y).postAt (s.cycle + 1) r.core false none (k.instr r)
      else
      let s := s.shareOwner d l false
      let st := match (s.sliceOf d l).line l with
        | some y => y.readGrant
        | none => .s
      (s.install r.core l st).applyWaiting r.core l
    | .gets, none => forward_ s .gets
    | _, some y =>
      if y.st == .e || y.st == .m then
        let s := (s.dropOthers d l r.core).modSliceOf d l (fun x => x.modLine l (fun y => { y with st := .m }))
        (s.install r.core l .m).applyWaiting r.core l
      else forward_ s .upg
    | _, none => forward_ s .getm

/-- A coherence request reaches a slice. -/
def State.request (s : State) (k : ReqKind) (r : CohReq) : State :=
  if r.home || dieOf r.core = Line.homeDie r.line then s.requestHome k { r with home := true } else s.requestProxy k r

/-- GETS (R304). -/
def execGets (r : CohReq) (s : State) : Out := .next (s.request .gets r)
/-- GETM (R304). -/
def execGetm (r : CohReq) (s : State) : Out := .next (s.request .getm r)
/-- UPG (R304): of a die that is a sharer no longer, as GETM. -/
def execUpg (r : CohReq) (s : State) : Out := .next (s.request .upg r)

/-! ## Write-backs and eviction notices (R304) -/

/-- A die leaves the snoop-filter entry of a line; an owner's dirty copy that others share stays S, else I. -/
def State.leaveHome (s : State) (l : Line) (die : Nat) : State :=
  s.modHome l (fun x => x.sfMod l (fun e =>
    if e.pair.isSome then e
    else { e with dies := e.dies &&& ~~~((1 : BitVec 32) <<< die)
                  owner := if e.owner = some die then none else e.owner
                  ost := if e.owner = some die then .i else e.ost }))

/-- A dirty write-back: into the home copy, or the stacks where the home has none. -/
def State.putBack (s : State) (l : Line) (die : Nat) (d : BitVec 1024) : State := (s.homePut l d).leaveHome l die

/-- PUTM (R304). -/
def execPutm (l : Line) (die : Nat) (d : BitVec 1024) (s : State) : Out := .next (s.putBack l die d)
/-- PUTO (R304). -/
def execPuto (l : Line) (die : Nat) (d : BitVec 1024) (s : State) : Out := .next (s.putBack l die d)
/-- PUTS (R304). -/
def execPuts (l : Line) (die : Nat) (s : State) : Out := .next (s.leaveHome l die)
/-- PUTE (R304). -/
def execPute (l : Line) (die : Nat) (s : State) : Out := .next (s.leaveHome l die)

/-! ## Forwards, invalidations and grants (R304, R306, R324, R325) -/

/-- A compressed entry's probe of a die in another partition stops at the boundary guard (R306, R351). -/
def State.guarded (s : State) (l : Line) (die : Nat) : Bool :=
  (s.die die).part != (s.die (Line.homeDie l)).part &&
    match (s.homeSlice l).sfEntry l with
    | some e => e.pair.isSome
    | none => false

/-- A die gives up its copies of a line, or what it has written back and is still on its way. -/
def State.surrender (s : State) (die : Nat) (l : Line) : State × Option (BitVec 1024) :=
  match s.takePut die l with
  | (some d, s) => ((s.dropDie die l).1, some d)
  | (none, s) => s.dropDie die l

/-- A die answers an invalidation after its L1 copies are invalidated. -/
def State.answer (s : State) (l : Line) (die : Nat) : State :=
  let ack (s : State) (d : Option (BitVec 1024)) : State :=
    s.post (hopTime die (Line.homeDie l)) (some (die * 64 + Line.slice l, Line.home l, 2)) (Line.home l) false none
      (.invalidationAck l die d)
  if s.guarded l die then
    ack (s.modDie die (fun d => { d with guardCount := d.guardCount + 1 })) none
  else
    let (s, d) := s.surrender die l
    ack s d

/-- INVALIDATE (R304, R324). -/
def execInvalidate (l : Line) (die : Nat) (s : State) : Out := .next (s.answer l die)
/-- BACK_INVALIDATE (R305). -/
def execBackInvalidate (l : Line) (die : Nat) (s : State) : Out := .next (s.answer l die)

/-- The owner gives its data to a reader and to the home (R304); an owner that has written the line back has left it. -/
def State.forwardShared (s : State) (l : Line) (die : Nat) (r : CohReq) : State :=
  let owned := ((s.sliceOf die l).line l).any (fun y => y.dirty || y.st == .m || y.st == .o)
  let s := s.shareOwner die l owned
  match (s.sliceOf die l).line l with
  | none =>
    let (d, s) := s.takePut die l
    let s := match d with
      | some d => s.homePut l d
      | none => s
    (s.leaveHome l die).homeRead r
  | some y =>
    let dirty := y.dirty || y.st == .m || y.st == .o
    let s := s.modSliceOf die l (fun x => x.modLine l (fun y => { y with st := if dirty then .o else .s }))
    let s := if dirty then s.homePut l y.data else s
    let e := dieOf r.core
    let bit : BitVec 32 := if e = Line.homeDie l then 0 else 1 <<< e
    let s := s.modHome l (fun x => x.sfMod l (fun f =>
      { f with dies := f.dies ||| bit ||| 1 <<< die, owner := if dirty then some die else none
               ost := if dirty then .o else .i, lru := s.cycle }))
    s.grantFrom die r .s (some (if y.view then s.viewLine l else y.data)) 0

/-- The owner gives its data to a writer and the home, and gives up its copies (R304). -/
def State.forwardOwned (s : State) (l : Line) (die : Nat) (r : CohReq) : State :=
  let held := ((s.sliceOf die l).line l).map (fun y => y.data)
  let (s, d) := s.surrender die l
  let s := match d with
    | some d => s.homePut l d
    | none => s
  let data := match d with
    | some d => d
    | none => held.getD (s.homeData l)
  (s.takeOwner r).grantFrom die r .m (some data) 0

/-- FORWARD (R304, R324). -/
def execForward (l : Line) (die : Nat) (excl : Bool) (s : State) : Out :=
  .next (match (s.homeSlice l).txn l with
    | none => s
    | some t => if excl then s.forwardOwned l die t.req else s.forwardShared l die t.req)

/-- The transaction that awaits a die's acknowledgement of a line. -/
def Slice.awaiting (x : Slice) (l : Line) (die : Nat) : Option Txn := x.busy.find? (fun t => t.awaits.contains (l, die))

/-- INVALIDATION_ACK (R304, R305, R325): dirty data goes into the home copy; after the last acknowledgement of an evicted
entry it is removed, and after the last of all the request is served on. -/
def execInvalidationAck (l : Line) (die : Nat) (d : Option (BitVec 1024)) (s : State) : Out :=
  let s := match d with
    | some d => s.homePut l d
    | none => s
  .next (match (s.homeSlice l).awaiting l die with
    | none => s
    | some t =>
      let left := t.awaits.erase (l, die)
      let s := s.modHome l (fun x => x.modTxn t.line (fun t => { t with awaits := left }))
      let s := if t.evicts.contains l && !left.any (fun p => p.1 == l) then s.modHome l (fun x => x.sfDrop l) else s
      if !left.isEmpty then s
      else if !t.evicts.isEmpty then
        (s.modHome l (fun x => x.modTxn t.line (fun t => { t with evicts := [] }))).startTxn t.req t.kind
      else s.ownNext t.req t.upgrade t.fwd)

/-- COHERENCE_DATA (R304): the requester's die installs the data or the grant, the access that waited is performed, and
the completion notice leaves for the home (R390). -/
def execCoherenceData (l : Line) (core : Nat) (st : Moesi) (d : Option (BitVec 1024)) (s : State) : Out :=
  let die := dieOf core
  let hd := Line.homeDie l
  let (view, lease, cls) := s.lineKind core l
  if die ≠ hd && s.fillWaits die l cls then .next (s.postAt (s.cycle + 1) core false none (.coherenceData l core st d)) else
  let s :=
    if die = hd then s
    else match (s.sliceOf die l).line l, d with
      | some _, none => (s.dropOthers die l core).modSliceOf die l (fun x => x.modLine l (fun y => { y with st := st }))
      | _, _ => (s.dropDie die l).1.fill die { SLine.new l (d.getD (s.homeData l)) view lease cls s.cycle with
          st := st, marks := if view then s.viewMarks l else [] }
  let s := if die = hd then s
    else s.modSliceOf die l (fun x => { x with busy := x.busy.filter (fun t => t.line != l) })
  let s := ((s.install core l st).applyWaiting core l)
  let s := if die = hd then s else s.drainWait die l
  .next (s.post (hopTime die hd) (some (die * 64 + Line.slice l, Line.home l, 4)) (Line.home l) false none (.completionNotice l))

/-- COMPLETION_NOTICE (R390): the transaction is complete, and the home serves the next request. -/
def execCompletionNotice (l : Line) (s : State) : Out :=
  let s := s.modHome l (fun x => { x with busy := x.busy.filter (fun t => t.line != l) })
  .next (s.drainWait (Line.homeDie l) l)

end Sys2Proof.Machine
end

