-- ==== Sys2Proof/Machine/Lease.lean ====
section
/-!
DEFINITION. Leased lines (R309, R310, R318, R319, R327), the ticks of logical time (R308, R326) and the wrap step (R311, R328).
-/
namespace Sys2Proof.Machine

/-- The stamps of a line after a release of pts p on some sectors of it. -/
def raiseStamps (l : List (BitVec 16)) (off n : Nat) (p : BitVec 16) : List (BitVec 16) :=
  (List.range 4).map (fun i =>
    if i * 32 < off + n && off < i * 32 + 32 then ptsMax (l.getD i 0) p else l.getD i 0)

/-- A read of a leased copy: it returns the copy's bytes, not before they have come, and the reader's pts is at least its wts
(R297, R309, R318, R319). -/
def State.readLease (s : State) (core : Nat) (a : Access) (x : L1Line) : State :=
  let s := (s.bumpPts core x.wts).notBefore core a x.ready
  let stamp := stampsOf x.stamps a.off a.len
  let s := if x.view then s.bumpPts core stamp else s.readStamp core a stamp
  let s := match a.op with
    | .load _ _ => s.deliver core a (lineGet x.data a.off a.len) (marksOf x.marks a.off a.len)
    | _ => s
  s.finish core a

/-- A hit on a leased copy (R309, R310). -/
def State.hitLease (s : State) (core : Nat) (a : Access) (x : L1Line) : State :=
  (s.modCore core (fun c => c.modL1 x.line (fun x => { x with hits := x.hits + 1, lru := s.cycle }))).readLease core a x

/-- Add to a counter that holds at its largest value (R310). -/
def holdAdd (w : Word) (n : Nat) : Word := BitVec.ofNat 64 (Nat.min (2 ^ 64 - 1) (w.toNat + n))

/-- A core takes a leased copy with data that can come at `ready`, and times; a renewal that finds newer data counts the superseded copy (R310). -/
def State.takeLease (s : State) (core : Nat) (l : Line) (y : SLine) (rts : BitVec 16) (ready : Nat) : State :=
  let c := s.core core
  if !c.wantsL1 l then s else
  let s := match c.l1.find? (fun x => x.line == l) with
    | none => s
    | some x =>
      if x.wts = y.wts then s
      else s.modCore core (fun c => { c with
        staleReads := holdAdd c.staleReads x.hits, staleWindows := holdAdd c.staleWindows 1 })
  s.fillL1 core { line := l, set := s.l1Set core l, view := y.view, lease := true, st := .s, data := y.data, valid := 15
                  dirty := false, wts := y.wts, rts := rts, hits := 0, stamps := y.stamps, marks := y.marks, lru := s.cycle
                  ready := ready }

/-- The earlier of two logical times. -/
def ptsMin (x y : BitVec 16) : BitVec 16 := if ptsLe x y then x else y

/-- The home's rts of a line rises. -/
def State.extend (s : State) (l : Line) (p : BitVec 16) : State :=
  s.modHome l (fun x => x.modLine l (fun y => { y with rts := ptsMax y.rts p }))

/-- The loads that wait for a leased line are served from the new copy. -/
def State.serveLease (s : State) (core : Nat) (l : Line) : State :=
  ((s.core core).accs.filter (fun a => a.state == .sent && Loc.line a.loc == l && !a.direct)).foldl
    (fun s a => match a.op with
      | .prefetch _ => s.finish core a
      | .load _ _ => match (s.core core).l1Line l with
        | none => s
        | some x => s.readLease core a x
      | _ => s) s

/-- LEASE_RENEW (R309): a core without a valid copy takes one from the home on its die, or from the proxy, which renews
itself first where it is not valid at the core's pts. -/
def execLeaseRenew (l : Line) (core : Nat) (s : State) : Out :=
  let die := dieOf core
  let hd := Line.homeDie l
  let p := (s.core core).pts
  let l1 := p + (s.core core).lease1.setWidth 16
  let l2 := p + (s.core core).lease2.setWidth 16
  let (view, _, cls) := s.lineKind core l
  let far := 30 + 2 * meshDist core (Line.home l) + 96 * dieDist die hd
  let slow (s : State) (lat : Nat) : State :=
    ((s.core core).accs.filter (fun a => a.state == .sent && Loc.line a.loc == l)).foldl (fun s a => s.atLeast core a lat) s
  let missLat := s.missTime l view
  let back := 15 + meshDist core (Line.home l)
  .next (
    if s.fillWaits hd l cls || s.fillWaits die l cls then s.postAt (s.cycle + 1) core false none (.leaseRenew l core)
    else if die = hd then
      let s := (slow s (far + missLat)).ensureHome l view true cls
      let s := s.extend l l1
      match (s.homeSlice l).line l with
      | none => s
      | some y =>
        let ready := Nat.max y.ready (s.cycle + missLat)
        ((s.modHome l (fun x => x.modLine l (fun y => { y with ready := ready }))).takeLease core l y l1 (ready + back)).serveLease core l
    else
      let fresh := match (s.sliceOf die l).line l with
        | some y => ptsLe p y.rts
        | none => false
      let s := if fresh then s
        else
          let s := (slow s (far + missLat)).ensureHome l view true cls
          let s := s.extend l l2
          match (s.homeSlice l).line l with
          | none => s
          | some y =>
            let ready := Nat.max y.ready (s.cycle + missLat)
            (s.modHome l (fun x => x.modLine l (fun y => { y with ready := ready }))).fill die { y with
              st := .s, dirty := false, pin := none, cores := [], owner := none, ost := .i, lru := s.cycle
              ready := ready + 96 * dieDist die hd }
      match (s.sliceOf die l).line l with
      | none => s
      | some y => (s.takeLease core l y (ptsMin l1 y.rts) (Nat.max y.ready s.cycle + back)).serveLease core l)

/-- A write at the home of a leased line: its new wts, which the writer's L1 takes with the line's data; the proxy on the
writer's die drops its copy (R309). -/
def State.leaseWrite (s : State) (core : Nat) (l : Line) : BitVec 16 × State :=
  let die := dieOf core
  let back := 15 + meshDist core (Line.home l) + 48 * dieDist die (Line.homeDie l)
  match (s.homeSlice l).line l with
  | none => (0, s)
  | some y =>
    let w := ptsMax (s.core core).pts (y.rts + 1)
    let s := s.modHome l (fun x => x.modLine l (fun y => { y with wts := w, rts := w }))
    let s := s.fillL1 core { line := l, set := s.l1Set core l, view := false, lease := true, st := .s, data := y.data, valid := 15
                             dirty := false, wts := w, rts := w, hits := 0, stamps := y.stamps, marks := [], lru := s.cycle
                             ready := Nat.max y.ready s.cycle + back }
    (w, if die = Line.homeDie l then s else s.modSliceOf die l (fun x => x.dropLine l))

/-- The bytes of a line that an access touches: first offset and length. -/
def Access.span (a : Access) (l : Line) : Nat × Nat :=
  let lo := Nat.max a.loc.q (l.no * 128)
  let hi := Nat.min (a.loc.q + a.len) (l.no * 128 + 128)
  (lo - l.no * 128, hi - lo)

/-- The stamps of the home copy of a leased line after a publishing write (R319). -/
def State.stampLease (s : State) (core : Nat) (a : Access) (l : Line) : State :=
  if a.publish then
    (s.publishStamps core a).modHome l (fun x => x.modLine l (fun y =>
      { y with stamps := raiseStamps y.stamps (a.span l).1 (a.span l).2 (s.core core).pts }))
  else s

/-- LEASE_WRITE_THROUGH (R309): the store is applied at the home as one write of the line (R327), and is acknowledged with
its wts (R390). -/
def execLeaseWriteThrough (core seq : Nat) (s : State) : Out :=
  .next (match (s.core core).access seq with
    | none => s
    | some a =>
      let l := Loc.line a.loc
      if s.fillWaits (Line.homeDie l) l a.cls then s.postAt (s.cycle + 1) core a.bank a.eng (.leaseWriteThrough core seq) else
      match a.op with
      | .store v m =>
        let miss := s.missTime l false
        let s := s.ensureHome l false true a.cls
        let d := s.homeData l
        let s := s.homePut l (linePut d a.off (merged (lineGet d a.off a.len) v m))
        let s := s.stampLease core a l
        let (w, s) := s.leaseWrite core l
        let s := s.modCore core (fun c => c.modAccess seq (fun a => { a with carry := some w }))
        s.ackStore core a (15 + meshDist core (Line.home l) + 48 * dieDist (dieOf core) (Line.homeDie l) + miss)
      | _ => s)

/-! ## Ticks (R308, R326) -/

/-- PTS_TICK (R308): the focused core's pts advances at the end of its tick period; untouched cores advance together
(log 2). -/
def execPtsTick (untouched : Bool) (s : State) : Out :=
  .next (
    if untouched then
      let v := s.blank.pts + 1
      let s := { s with blank := { s.blank with pts := v, tickAt := s.cycle } }
      if quarterOf v = quarterOf (v - 1) || s.quarter = quarterOf v then s
      else { s.postAt s.cycle 0 false none (.wrapStep (quarterOf v)) with quarter := quarterOf v }
    else
      let i := s.focus.core
      let s := s.modCore i (fun c => { c with tickAt := s.cycle })
      s.setPts i ((s.core i).pts + 1))

/-- PTS_CONFIG_WRITE (R308, R326): the value at a set of cores, and at every slice's mark; it makes no wrap step and sets the record of
the quarter. -/
def execPtsConfigWrite (mask : BitVec 2048) (v : BitVec 16) (s : State) : Out :=
  let chosen := (List.range 2048).filter (fun i => mask.getLsbD i)
  let s := chosen.foldl (fun s i => s.modCore i (fun c => { c with pts := v, tickAt := s.cycle })) s
  .next { s with
    slices := Sparse.mapVals (fun x => { x with mts := v }) s.slices
    blankSlice := { s.blankSlice with mts := v }, quarter := quarterOf v }

/-! ## The wrap step (R311, R328) -/

/-- A logical time of quarter Q − 2 moves to floor. -/
def floorTime (q : BitVec 2) (p : BitVec 16) : BitVec 16 :=
  if quarterOf p = q - 2 then (q - 1).setWidth 16 <<< 14 else p

/-- The wrap step on a core: its pts, its leased copies, and the times its semaphores and banks carry. -/
def Core.wrap (c : Core) (q : BitVec 2) : Core :=
  let f := floorTime q
  let bank (b : Bank) : Bank := { b with readStamp := b.readStamp.map (fun x => (x.1, f x.2)) }
  { c with
    pts := f c.pts, bank0 := bank c.bank0, bank1 := bank c.bank1
    semPts := Sparse.mapVals (fun l => l.map (fun x => (f x.1, x.2))) c.semPts
    l1 := (c.l1.filter (fun x => !(x.lease && quarterOf x.rts = q - 2))).map (fun x =>
      { x with stamps := x.stamps.map f })
    accs := c.accs.map (fun a => { a with carry := a.carry.map f }) }

/-- The wrap step on a slice: leased proxies of quarter Q − 2 are invalidated, home lines and the mark move to floor. -/
def Slice.wrap (x : Slice) (die : Nat) (q : BitVec 2) : Slice :=
  let f := floorTime q
  { x with
    mts := f x.mts
    lines := (x.lines.filter (fun y => !(y.lease && die != Line.homeDie y.line && quarterOf y.rts = q - 2))).map (fun y =>
      if die = Line.homeDie y.line then { y with wts := f y.wts, rts := f y.rts, stamps := y.stamps.map f }
      else { y with stamps := y.stamps.map f }) }

/-- The times that messages on their way carry follow the wrap step (R319). -/
def wrapEvent (q : BitVec 2) (i : Instr) : Instr :=
  match i with
  | .remoteSignalApply a b c d e p => .remoteSignalApply a b c d e (floorTime q p)
  | .barrierRelease a b c d p => .barrierRelease a b c d (floorTime q p)
  | .putPacketApply p => .putPacketApply { p with pts := floorTime q p.pts }
  | .reducePacketApply p => .reducePacketApply { p with pts := floorTime q p.pts }
  | .broadcastPacketApply p => .broadcastPacketApply { p with pts := floorTime q p.pts }
  | .signalPacketApply p => .signalPacketApply { p with pts := floorTime q p.pts }
  | i => i

/-- WRAP_STEP (R311): complete at every core and slice in this one step, before any pts leaves quarter Q. -/
def execWrapStep (q : BitVec 2) (s : State) : Out :=
  let f := floorTime q
  .next { s with
    cores := Sparse.mapVals (fun c => c.wrap q) s.cores, blank := s.blank.wrap q
    slices := s.slices.map (fun p => (p.1, p.2.wrap (p.1 / 64) q)), blankSlice := { s.blankSlice with mts := f s.blankSlice.mts }
    stamps := Sparse.mapVals f s.stamps, blankStamp := f s.blankStamp, sealPts := s.sealPts.map (fun x => (x.1, f x.2))
    patches := s.patches.map (fun p => { p with pts := f p.pts })
    table := s.table.map (fun e => { e with pts := f e.pts }), gone := s.gone.map (fun g => (g.1, f g.2))
    jobs := s.jobs.map (fun j => { j with pts := j.pts.map f })
    flights := s.flights.map (fun x => { x with ev := wrapEvent q x.ev }) }

end Sys2Proof.Machine
end

