-- ==== Sys2Proof/Machine/PatchWrite.lean ====
section
/-!
DEFINITION. Writing into an OPEN patch (R256 to R261, R279).
-/
namespace Sys2Proof.Machine

/-- What a checked write puts into a patch: payload bytes, or values added at the elements that begin at physical bytes. -/
inductive PWrite where
  | bytes (l : List (Nat × Byte))
  | adds (l : List (Nat × Nat))
  deriving DecidableEq, Repr

/-- A tensor by name. -/
def State.tensor (s : State) (n : Name) : Option Tensor := (s.tensors.find? (fun p => p.1 == n)).map (fun p => p.2)

/-- The number of a bank as a contributor: in the order die, cluster, core, bank (R80). -/
def contributor (core : Nat) (bank : Bool) : Nat := 2 * core + (if bank then 1 else 0)

/-- The numbers of contributors whose banks are saved begin here. -/
def savedBase : Nat := 4096

/-- The number of a core that no place is in: that of a bank that is saved. -/
def savedCore : Nat := 4096

/-- The number of a job's place as a contributor: its bank's, or while it is saved one of its own by job and rank. -/
def placeNumber (id rank : Nat) (p : Nat × Bool) : Nat := if p.1 = savedCore then savedBase + id * 2048 + rank else contributor p.1 p.2

/-- A patch of which a contributor has another number now: its ownership and its partials go with the bank (R258, R261). -/
def Patch.renumber (p : Patch) (old new : Nat) : Patch :=
  let move (x : Nat) : Nat := if x = old then new else x
  let parts (l : Sparse (Sparse (BitVec 32))) : Sparse (Sparse (BitVec 32)) := match Sparse.find l old with
    | none => l
    | some v => Sparse.put (Sparse.erase l old) new v
  { p with opener := move p.opener, partials := parts p.partials, twinPartials := parts p.twinPartials, collected := p.collected.map move }

/-- The kinds of patch that a base accepts (R256). -/
def kindAllowed (base : Fmt) (delta : Option Fmt) : Bool :=
  match delta with
  | none => true
  | some d =>
    match base with
    | .f16 | .bf16 | .f32 => d == .f32 || d == .bf16
    | .i8 | .i16 | .i32 | .n8 | .n16 | .n32 => d == .i32
    | .i64 | .n64 | .l4 | .l8 | .l16 | .h4 | .h8 => false

/-- A contributor's partial has been taken by a seal (R261). -/
def Patch.taken (p : Patch) (who : Nat) : Bool := p.collected.contains who

/-- Whether a bank may write a patch (R258): it is OPEN, and shared or opened by that bank. -/
def Patch.writable (p : Patch) (who : Nat) : Bool := p.state == .opened && (p.shared || p.opener == who) && !p.taken who

/-- A write of bytes into a REPL patch: the base's own type, whole containers in the aux plane (R257, R259). -/
def replWrite (t : Tensor) (at_ : Nat → Loc) (addr : Word) (bytes : List (Option Byte)) (ty : Fmt) : Except TrapInfo PWrite :=
  let act := bytes.zipIdx.filterMap (fun x => x.1.map (fun b => (x.2, b)))
  let bad := faultAt 0x0C addr
  let unit := t.auxUnit.1
  let auxType : Fmt := if unit = 2 then .n16 else .n32
  let ok (x : Nat × Byte) : Bool :=
    match t.place (at_ x.1) with
    | none => false
    | some p =>
      if p.aux then
        ty == auxType && (List.range unit).all (fun u => act.any (fun y =>
          t.place (at_ y.1) == some { p with off := p.off / unit * unit + u }))
      else ty == t.fmt
  if act.all ok then .ok (.bytes (act.map (fun x => ((at_ x.1).q, x.2)))) else .error bad

/-- A write of values into an ADD patch: lane j goes to the j-th element along the row from the addressed one (R259,
R279). -/
def addWrite (t : Tensor) (first : Loc) (addr : Word) (bytes : List (Option Byte)) (ty : Fmt) : Except TrapInfo PWrite :=
  let wb := t.fmt.width / 8
  let fw := ty.width / 8
  match t.place first with
  | none => .error (faultAt 0x0C addr)
  | some p =>
    if p.aux then .error (faultAt 0x0C addr)
    else if p.off % wb ≠ 0 then .error (faultAt 0x05 addr)
    else if (if t.fmt.isFlt then ty != .f32 && ty != .bf16 else ty != .i32) then .error (faultAt 0x0C addr)
    else
      let lane (j : Nat) : List (Option Byte) := (bytes.drop (j * fw)).take fw
      let act := (List.range (bytes.length / fw)).filter (fun j => (lane j).any Option.isSome)
      if act.any (fun j => p.off + j * wb ≥ t.rowBytes) then .error (faultAt 0x0C addr)
      else .ok (.adds (act.map (fun j => (t.phys (t.addr { p with off := p.off + j * wb }), leNat ((lane j).map (·.getD 0))))))

/-- Cut an extent of whole containers at sectors: each container goes with the sector of its first byte. -/
def cutWhole (unit : Nat) : Nat → Nat → Nat → List (Nat × Nat)
  | 0, _, _ => []
  | fuel + 1, a, e =>
    if a ≥ e then []
    else
      let next := Nat.min e (a + ((a / 32 + 1) * 32 - a + unit - 1) / unit * unit)
      (a, next - a) :: cutWhole unit fuel next e

/-- The checks of a write into a patch (R258, R259): state, format, region. `at_ i` is where byte i of the access stands. -/
def State.checkWrite (s : State) (n : Name) (twin : Bool) (who : Nat) (at_ : Nat → Loc) (addr : Word)
    (bytes : List (Option Byte)) (ty : Fmt) : Except TrapInfo PWrite :=
  match s.patch n with
  | none => .error { faultAt 0x15 addr with name0 := n }
  | some p =>
    if !p.writable who then .error (faultAt 0x14 addr)
    else
      let base := match p.twin with
        | some h => if twin then h.base else p.half.base
        | none => p.half.base
      match s.tensor base with
      | none => .error { faultAt 0x15 addr with name0 := base }
      | some t => if p.delta.isNone then replWrite t at_ addr bytes ty else addWrite t (at_ 0) addr bytes ty

/-- Add values to accumulated deltas, an element not yet covered beginning at 0 (R259). -/
def accumulate (int : Bool) (ty : Fmt) (m : Sparse (BitVec 32)) : List (Nat × Nat) → Sparse (BitVec 32) × FlagSet
  | [] => (m, 0)
  | (q, x) :: r =>
    let part := (Sparse.find m q).getD 0
    let (v, f) :=
      if int then finishInt .i32 true (part.toInt + readInt .i32 x)
      else
        let (y, f) := FVal.add .rne (FVal.ofBits .f32 part.toNat) (FVal.ofBits ty x)
        let (z, g) := roundVal .f32 .rne false y
        (z, f ||| g)
    let (m, g) := accumulate int ty (Sparse.put m q (BitVec.ofNat 32 v)) r
    (m, f ||| g)

/-- Put bytes into a payload; a later write wins. -/
def putPayload (m : Sparse Byte) (l : List (Nat × Byte)) : Sparse Byte := l.foldl (fun m x => Sparse.put m x.1 x.2) m

/-- A half after a write of its own opener. -/
def PHalf.write (h : PHalf) (int : Bool) (ty : Fmt) : PWrite → PHalf × FlagSet
  | .bytes l => ({ h with payload := putPayload h.payload l }, 0)
  | .adds l =>
    let (m, f) := accumulate int ty h.deltas l
    ({ h with deltas := m }, f)

/-- A patch after a write by a contributor: a shared patch keeps each one's partial apart (R261). -/
def Patch.write (p : Patch) (twin : Bool) (who : Nat) (int : Bool) (ty : Fmt) (w : PWrite) : Patch × FlagSet :=
  match p.shared, w with
  | true, .adds l =>
    let old := if twin then p.twinPartials else p.partials
    let (m, f) := accumulate int ty ((Sparse.find old who).getD []) l
    (if twin then { p with twinPartials := Sparse.put old who m } else { p with partials := Sparse.put old who m }, f)
  | _, w =>
    if twin then
      match p.twin with
      | some h =>
        let (h, f) := h.write int ty w
        ({ p with twin := some h }, f)
      | none => (p, 0)
    else
      let (h, f) := p.half.write int ty w
      ({ p with half := h }, f)

/-- Whether a patch's base is an integer tensor. -/
def State.intBase (s : State) (p : Patch) : Bool :=
  match s.tensor p.half.base with
  | some t => !t.fmt.isFlt
  | none => p.delta == some .i32

/-- A checked write enters a patch; the flags of the accumulation (R48, R259). -/
def State.patchWrite (s : State) (n : Name) (twin : Bool) (who : Nat) (ty : Fmt) (w : PWrite) : FlagSet × State :=
  match s.patch n with
  | none => (0, s)
  | some p =>
    let (p, f) := p.write twin who (s.intBase p) ty w
    (f, s.modPatch n (fun _ => p))

end Sys2Proof.Machine
end

