-- ==== Sys2Proof/Machine/Access.lean ====
section
/-!
DEFINITION. From an address to accesses: translation by the segment table (R282 to R285, R295) and by the host walkers (R346,
R347), and how each access is performed when its turn comes (R287, R292, R294, R297, R309, R312, R390).
-/
namespace Sys2Proof.Machine

/-! ## Translation by the segment table (R284, R295) -/

/-- A permission of a segment by its bit (R283): 0 read, 1 write, 2 atomic, 3 patch. -/
def Seg.allows (g : Seg) (perm : Nat) : Bool := g.perm.getLsbD perm

/-- A translated piece of an extent: its first address, its bytes, and its segment; none for the host window. -/
structure Piece where
  addr : Nat
  len : Nat
  seg : Option Seg
  deriving DecidableEq, Repr

/-- Translate from an address up to an end, segment by segment; the first failure decides the fault. -/
def Bank.pieces (b : Bank) (perm : Nat) : Nat → Nat → Nat → Except TrapInfo (List Piece)
  | 0, _, _ => .ok []
  | fuel + 1, a, e =>
    if a ≥ e then .ok []
    else match spaceOf (BitVec.ofNat 64 a) with
      | .host =>
        if spaceOf (BitVec.ofNat 64 (e - 1)) = .host then .ok [{ addr := a, len := e - a, seg := none }]
        else .error (faultAt 0x07 (BitVec.ofNat 64 (a / 2 ^ 57 * 2 ^ 57 + 2 ^ 57)))
      | .window | .bad => .error (faultAt 0x07 (BitVec.ofNat 64 a))
      | .device => match b.segOf a with
        | none => .error (faultAt 0x07 (BitVec.ofNat 64 a))
        | some g =>
          if !g.allows perm then .error (faultAt 0x08 (BitVec.ofNat 64 a))
          else
            let next := Nat.min e ((g.vbase + g.len) * segUnit)
            match b.pieces perm fuel next e with
            | .error t => .error t
            | .ok r => .ok ({ addr := a, len := next - a, seg := some g } :: r)

/-- The PASID of a bank's job (R382). -/
def State.pasidOf (s : State) (b : Bank) : Option (BitVec 20) :=
  (b.job.bind s.job).bind (fun j => j.pasid)

/-- The fields of a PASID table entry (R378). -/
def PasidEnt.parse (x : BitVec 128) : PasidEnt :=
  { pasid := x.extractLsb' 0 20, valid := x.getLsbD 31, depth := (x.extractLsb' 32 8).toNat, root := (x.extractLsb' 76 40).toNat * 4096 }

/-- The PASID table entry of a PASID, if valid (R378, R382). -/
def State.pasidEnt (s : State) (p : BitVec 20) : Option PasidEnt :=
  (s.pasids.map (fun x => PasidEnt.parse x.2)).find? (fun e => e.pasid == p && e.valid)

/-- Host addresses that no walk reaches: of a queue without PASID, or not canonical under 4 levels (R346, R382). -/
def State.hostFault (s : State) (b : Bank) (a : Nat) : Option TrapInfo :=
  match s.pasidOf b with
  | none => some (faultAt 0x07 (BitVec.ofNat 64 a))
  | some p => match s.pasidEnt p with
    | none => none
    | some e =>
      let top := a / 2 ^ 47 % 1024
      if e.depth = 4 && top ≠ 0 && top ≠ 1023 then some (faultAt 0x07 (BitVec.ofNat 64 a)) else none

/-- Translate the whole extent of an access of a bank (R295). -/
def State.translate (s : State) (b : Bank) (perm : Nat) (a : Word) (n : Nat) : Except TrapInfo (List Piece) :=
  match b.pieces perm 2048 a.toNat (a.toNat + Nat.max n 1) with
  | .error t => .error t
  | .ok l => match firstFault (fun p => if p.seg.isNone then s.hostFault b p.addr else none) l with
    | some t => .error t
    | none => .ok l

/-- Whether every piece is in segments of patched views. -/
def allPatched (l : List Piece) : Bool := l.all (fun p => match p.seg with
  | some g => g.patched
  | none => false)

/-- Whether no piece is in a segment of patched views. -/
def nonePatched (l : List Piece) : Bool := l.all (fun p => match p.seg with
  | some g => !g.patched
  | none => true)

/-- Where the byte at an offset of a translated extent stands. -/
def locAt (l : List Piece) (a : Nat) : Loc :=
  match l.find? (fun p => p.addr ≤ a && a < p.addr + p.len) with
  | some p => match p.seg with
    | some g => g.loc a
    | none => { lo := 0, nd := 0, q := a }
  | none => { lo := 0, nd := 0, q := a }

/-- Cut an extent at multiples of a unit. -/
def cutAt (unit : Nat) : Nat → Nat → Nat → List (Nat × Nat)
  | 0, _, _ => []
  | fuel + 1, a, e =>
    if a ≥ e then []
    else
      let next := Nat.min e ((a / unit + 1) * unit)
      (a, next - a) :: cutAt unit fuel next e

/-- The single-copy units of a piece: sectors, and lines of a LEASE segment (R327). -/
def Piece.units (p : Piece) : List (Nat × Nat) :=
  match p.seg with
  | none => cutAt 32 (p.len / 32 + 2) p.addr (p.addr + p.len)
  | some g => cutAt (if g.lease then 128 else 32) (p.len / 32 + 2) p.addr (p.addr + p.len)

/-- What all the accesses of one word share. -/
structure Kind where
  bank : Bool
  eng : Option Eng
  acq : Bool
  rel : Bool
  scope : Scope
  direct : Bool
  publish : Bool
  name : Name
  detail : BitVec 16 := 0
  upc : BitVec 12 := 0

/-- An access of a kind to a unit of a piece. -/
def Kind.access (k : Kind) (word : Nat) (p : Piece) (u : Nat × Nat) (op : AccOp) : Access :=
  { seq := 0, word := word, bank := k.bank, eng := k.eng, op := op, vaddr := u.1, len := u.2
    loc := match p.seg with
      | some g => g.loc u.1
      | none => { lo := 0, nd := 0, q := u.1 }
    target := match p.seg with
      | some g => g.target
      | none => .host
    cls := match p.seg with
      | some g => g.cls
      | none => 0
    acq := k.acq, rel := k.rel, scope := k.scope, state := .waiting, tried := true, half := none, direct := k.direct, publish := k.publish
    keyid := match p.seg with
      | some g => g.keyid
      | none => 0
    carry := none, flags := 0, name := k.name, detail := k.detail, upc := k.upc }

/-- Put the accesses of one word on their way for a core. -/
def Core.addAll (c : Core) (l : List (Nat → Access)) : Core :=
  let w := c.accSeq
  l.foldl (fun c f => c.addAccess (f w)) c

/-! ## Host translation (R346, R347) -/

/-- One walk of the host's page tables from a level down: the leaf, or none for a host page fault. -/
def walkFrom (mem : List Host.Cell) (pasid : BitVec 20) (va : Nat) (store : Bool) : Nat → Nat → Bool → Option TlbEnt
  | 0, _, _ => none
  | lv + 1, table, writable =>
    let shift := 12 + 9 * lv
    let e := Memory.readNat mem (table + 8 * (va / 2 ^ shift % 512)) 8
    let bit (i : Nat) : Bool := e.testBit i
    let frame := bits e 51 12 * 4096
    let w := writable && bit 1
    if !bit 0 || !bit 2 || !bit 5 || (store && !w) then none
    else if lv = 0 || bit 7 then
      if lv > 2 || frame % 2 ^ shift ≠ 0 || (store && !bit 6) then none
      else some { pasid := pasid, level := lv + 1, vpage := va / 2 ^ shift, frame := frame, writable := w && bit 6 }
    else walkFrom mem pasid va store lv frame w

/-- The bytes of an entry's page. -/
def TlbEnt.shift (e : TlbEnt) : Nat := 12 + 9 * (e.level - 1)

/-- An entry covers a host address of a PASID. -/
def TlbEnt.covers (e : TlbEnt) (pasid : BitVec 20) (va : Nat) : Bool := e.pasid == pasid && va / 2 ^ e.shift == e.vpage

/-- The entry of the smallest page among some. -/
def smallestPage : List TlbEnt → Option TlbEnt
  | [] => none
  | e :: r => match smallestPage r with
    | none => some e
    | some f => if f.level < e.level then some f else some e

/-- The host address behind a host virtual address for a core, and the state after the lookup; none is a host page
fault. -/
def State.hostAddr (s : State) (core : Nat) (pasid : BitVec 20) (va : Nat) (store : Bool) : Option Nat × State :=
  let found := (s.die (dieOf core)).tlb.filter (fun e => e.covers pasid va)
  let sizes := (dedup (found.map (fun e => e.level))).length
  let s := if sizes > 1 then s.modCore core (fun c => { c with msize := holdAdd c.msize 1 }) else s
  let ans (e : TlbEnt) : Option Nat :=
    if store && !e.writable then none else some (e.frame + va % 2 ^ e.shift)
  match smallestPage found with
  | some e => (ans e, s)
  | none => match s.pasidEnt pasid with
    | none => (none, s)
    | some p => match walkFrom s.hostMem pasid va store p.depth p.root true with
      | none => (none, s)
      | some e => (ans e, s.modDie (dieOf core) (fun d =>
          { d with tlb := (if d.tlb.length < 8192 then d.tlb else d.tlb.tail) ++ [e] }))

/-- Translate every 4 KiB page of a host extent; the first page that fails is reported. -/
def State.hostPieces (s : State) (core : Nat) (pasid : BitVec 20) (store : Bool) :
    List (Nat × Nat) → Except Nat (List (Nat × Nat)) × State
  | [] => (.ok [], s)
  | (a, n) :: r =>
    match s.hostAddr core pasid a store with
    | (none, s) => (.error a, s)
    | (some p, s) => match s.hostPieces core pasid store r with
      | (.ok l, s) => (.ok ((p, n) :: l), s)
      | (.error a, s) => (.error a, s)

/-! ## Which accesses can be performed (R312 to R317) -/

/-- An access to the same sector, or the same line of a lease. -/
def Access.meets (x y : Access) : Bool :=
  let two (a : Access) : List Loc := a.sectors ++ (match a.op with
    | .dcas _ l _ _ _ _ _ _ | .move _ l _ _ => [{ l with q := l.q / 32 * 32 }]
    | _ => [])
  (x.target == .host) == (y.target == .host) && (two x).any (fun l => (two y).contains l)

/-- A write to the host window. -/
def Access.hostWrite (a : Access) : Bool :=
  a.target == .host && match a.op with
    | .store _ _ | .rmw _ _ _ _ _ | .row _ _ _ _ _ _ _ => true
    | _ => false

/-- Whether an access waits for others of its agent: those before it to the same sector, an acquiring one, of host writes those of earlier
words, which leave in issue order (R321), and for a
release every one before it; a control stream's release waits for its remote signals too (R170, R314). -/
def Core.mayPerform (c : Core) (a : Access) : Bool :=
  let before := c.accs.filter (fun x => x.seq < a.seq && x.bank == a.bank && x.eng == a.eng)
  if a.rel then
    before.isEmpty && (a.eng.isSome || !(c.sigs.any (fun x => x.bank == a.bank) || c.localBefore a.bank a.seq))
  else
    before.all (fun x => x.state == .performed || !(x.meets a || (x.acq && a.eng.isNone) || (x.hostWrite && a.hostWrite && x.word != a.word)))

/-! ## Performing at a home -/

/-- An access is over with its value in hand (a status, old values). -/
def State.finishWith (s : State) (core : Nat) (a : Access) (vals : List RVal) (flags : FlagSet) : State :=
  let s := match a.op.tag with
    | none => s
    | some t => s.modBankAt core a.bank (fun b => b.modTag t (fun r => { r with vals := vals, flags := r.flags ||| flags }))
  s.finish core a

/-- The time of a load from a line's home (R297). -/
def homeTime (core : Nat) (l : Line) : Nat := 30 + 2 * meshDist core (Line.home l) + 96 * dieDist (dieOf core) (Line.homeDie l)

/-- The latest data of a MOESI line comes to the home copy, its owner keeping it shared: what a GetS by the home itself comes
to (log 16). -/
def State.share (s : State) (l : Line) : State :=
  let s := s.shareOwner (Line.homeDie l) l false
  match ((s.homeSlice l).sfEntry l).bind (fun e => e.owner) with
  | none => s
  | some o =>
    let s := s.shareOwner o l (((s.sliceOf o l).line l).any (fun y => y.dirty || y.st == .m || y.st == .o))
    match (s.sliceOf o l).line l with
    | none => s
    | some y =>
      let dirty := y.dirty || y.st == .m || y.st == .o
      let s := s.modSliceOf o l (fun x => x.modLine l (fun y => { y with st := if dirty then .o else .s }))
      let s := if dirty then s.homePut l y.data else s
      s.modHome l (fun x => x.sfMod l (fun f =>
        { f with dies := f.dies ||| 1 <<< o, owner := if dirty then some o else none, ost := if dirty then .o else .i }))

/-- The lines that an access touches. -/
def Access.lines (a : Access) : List Line :=
  let last := { a.loc with q := a.loc.q + (Nat.max a.len 1 - 1) }
  (List.range ((last.q / 128) + 1 - a.loc.q / 128)).map (fun i => { Loc.line a.loc with no := a.loc.q / 128 + i })

/-- Whether any line is in the middle of a transaction at its home. -/
def State.anyBusy (s : State) (l : List Line) : Bool :=
  l.any (fun x => (s.homeSlice x).isBusy x || s.flights.any (fun f => match f.ev with
    | .putm y _ _ | .puto y _ _ => y == x
    | _ => false))

/-- A byte as the home has it: its copy, or the stacks. -/
def State.homeByte (s : State) (l : Loc) : Byte :=
  match (s.homeSlice (Loc.line l)).line (Loc.line l) with
  | some y => y.data.extractLsb' (8 * (l.q % 128)) 8
  | none => s.hbmByte l

/-- Bytes as the home has them. -/
def State.homeBytes (s : State) (l : Loc) (n : Nat) : List Byte := (List.range n).map (fun i => s.homeByte (l.plus i))

/-- Write those bytes that are given at the home. -/
def State.homeStore (s : State) (l : Loc) : List (Option Byte) → State
  | [] => s
  | b :: r =>
    let s := match b with
      | none => s
      | some b => s.homePut (Loc.line l) (linePut (s.homeData (Loc.line l)) (l.q % 128) [some b])
    s.homeStore (l.plus 1) r

/-- Every line of an access is made the home's alone: of MOESI lines as a GetM would, of leased lines by having them at the
home (R298). -/
def State.takeLines (s : State) (view lease : Bool) (cls : BitVec 2) (l : List Line) : State :=
  l.foldl (fun s x => (if lease then s else s.recall x).ensureHome x view lease cls) s

/-- After a write at the home: leased lines take their new wts, whose largest the writer will learn (R309). -/
def State.afterWrite (s : State) (core : Nat) (a : Access) (lease : Bool) (ls : List Line) : Option (BitVec 16) × State :=
  if lease then
    ls.foldl (fun (p, s) l =>
      let (w, s) := (s.stampLease core a l).leaseWrite core l
      (some (match p with
        | none => w
        | some x => ptsMax x w), s)) (none, s)
  else (none, s.publishStamps core a)

end Sys2Proof.Machine
end

