-- ==== Sys2Proof/Machine/Serve.lean ====
section
/-!
DEFINITION. Performing an access: at a core's L1, at a home, or at the host (R287 to R302, R309, R342, R343, R390), and what
comes back: landing, acknowledgement and refusal (R48, R49, R62, R333).
-/
namespace Sys2Proof.Machine

/-! ## What comes back -/

/-- The bytes that a tag has collected, in order. -/
def TagRec.bytes (r : TagRec) (n : Nat) : List Byte :=
  (List.range n).map (fun i => match r.data.find? (fun x => x.1 == i) with
    | some x => x.2
    | none => 0)

/-- The values that a tag writes: those given, or the bytes it has collected, as its type says (R101, R126). -/
def TagRec.values (r : TagRec) : List RVal :=
  if !r.vals.isEmpty then r.vals
  else match r.dst with
    | .reg (.v _) :: _ => [.vec (bytesVec (r.bytes 256)) r.bits]
    | .reg (.n _) :: _ => [.name (BitVec.ofNat 128 (leNat (r.bytes 16)))]
    | _ => [.word (toWord r.fmt (leNat (r.bytes (r.fmt.width / 8))))]

/-- The data of an output port's store has come under its tag; of a refused access nothing is stored (R154, R333). -/
def Core.fillStores (c : Core) (bank : Bool) (cycle : Nat) (r : TagRec) : Core :=
  let bytes := r.bytes 256
  let fill (x : LAcc) : LAcc :=
    { x with waits := false, ready := cycle + 1, pieces := x.pieces.map (fun p => p.map (fun m => { m with val := bytes.getD m.off 0 })) }
  let mine (x : LAcc) : Bool := x.waits && x.bank == bank && x.tag == r.tag
  { c with laccs := if r.failed then c.laccs.filter (fun x => !mine x) else c.laccs.map (fun x => if mine x then fill x else x) }

/-- LOAD_LAND (R62, R87): the value is written to its registers, and the tag is free; of a refused access nothing is
written (R333). -/
def execLoadLand (t : BitVec 4) (s : State) : Out :=
  let core := s.focus.core
  let bank := s.focus.bank
  .next (match s.bank.tags.find? (fun r => r.tag == t) with
    | none => s
    | some r =>
      if !r.ready then s
      else
        let s := s.modBank (fun b => { b with tags := b.tags.filter (fun x => x.tag != t) })
        let s := s.modCur (fun c => c.fillStores bank s.cycle r)
        if r.failed then s
        else
          let s := s.modBank (fun b => (r.dst.zip r.values).foldl (fun b x => b.put x.1 x.2) b)
          s.memFlags core bank r.flags)

/-- The control stream's word that a patch store belongs to: its pc, and whether it is a vector word (R259). -/
def Access.storeWord (a : Access) : Option (BitVec 15 × Bool) :=
  match a.op with
  | .patchStore _ _ _ _ pc vec => if a.eng.isNone then some (pc, vec) else none
  | .load _ _ | .store _ _ | .rmw _ _ _ _ _ | .row _ _ _ _ _ _ _ | .patchAdd _ _ _ _ | .patchRow _ _ _ _ _ _ _ _
  | .dcas _ _ _ _ _ _ _ _ | .move _ _ _ _ | .stage _ _ _ _ | .writeBack _ | .dropCopies _ | .prefetch _ | .pin _ | .unpin
  | .signal _ _ _ => none

/-- The flags that an acknowledgement brings (R48, R49): an atomic's merge as a memory response; those of an engine's word, or of a
stream's store into a patch, when the last access of the word is over. -/
def State.wordFlags (s : State) (core : Nat) (a : Access) : State :=
  if a.eng.isNone && a.storeWord.isNone then s.memFlags core a.bank a.flags
  else match (s.core core).accs.find? (fun x => x.word == a.word && x.seq != a.seq) with
    | some x => s.modCore core (fun c => c.modAccess x.seq (fun y => { y with flags := y.flags ||| a.flags }))
    | none => match a.eng, a.storeWord with
      | some e, _ => s.mergeFlags core a.bank a.flags (Eng.src e) a.detail a.upc
      | none, some (pc, vec) => s.modBankAt core a.bank (fun b => b.completeFlags a.flags pc vec)
      | none, none => s

/-- STORE_ACK (R390): the core learns that an access has been performed; the acknowledgement of a leased line's write carries
its wts (R309). -/
def execStoreAck (seq : Nat) (s : State) : Out :=
  let core := s.focus.core
  .next (match s.cur.access seq with
    | none => s
    | some a =>
      let s := match a.carry with
        | none => s
        | some w => s.bumpPts core w
      (s.wordFlags core a).finish core a)

/-- A request is refused away from its core (R333): its tag lands without a value, its bank or engine receives the fault, and
the event log a record; an engine's entry stays at its queue's head (R194). -/
def State.refuse (s : State) (core : Nat) (a : Access) (code : BitVec 8) : State :=
  let b := s.bankAt core a.bank
  let s := s.addLog { code := code, lost := false, core := BitVec.ofNat 16 core, module := Config.moduleNumber, bank := a.bank
                      keyid := a.keyid, addr := BitVec.ofNat 64 a.vaddr, jobtag := s.jobTag b, part := (s.die (dieOf core)).part
                      time := s.cycle }
  let s := match a.op.tag with
    | none => s
    | some t => s.modBankAt core a.bank (fun b => b.modTag t (fun r => { r with failed := true }))
  let s := (s.finish core a).holdTrap core a.bank (a.report code (BitVec.ofNat 64 a.vaddr))
  match a.eng with
  | none => s
  | some e => s.stopEntry core e

/-- ERROR_RESPONSE (R333). -/
def execErrorResponse (code : BitVec 8) (seq : Nat) (s : State) : Out :=
  .next (match s.cur.access seq with
    | none => s
    | some a => s.refuse s.focus.core a code)

/-! ## Atomics at the home (R299 to R301) -/

/-- The new value and flags of a read-modify-write (R299). -/
def rmwValue (k : Rmw) (t : Fmt) (old x cmp : Nat) : Nat × FlagSet :=
  match k with
  | .add =>
    if t.isFlt then
      let (v, f) := FVal.add .rne (FVal.ofBits t old) (FVal.ofBits t x)
      let (n, g) := roundVal t .rne false v
      (n, f ||| g)
    else ((old + x) % 2 ^ t.width, 0)
  | .min => (if readInt t x < readInt t old then x else old, 0)
  | .max => (if readInt t old < readInt t x then x else old, 0)
  | .and => (old &&& x, 0)
  | .or => (old ||| x, 0)
  | .xor => (old ^^^ x, 0)
  | .xchg => (x, 0)
  | .cas => (if old = cmp then x else old, 0)

/-- One element of a row operation on CELL data (R300). -/
def rowValue (mx : Bool) (t : Fmt) (old x : Nat) : Nat × FlagSet :=
  if mx then
    let (v, f) := FVal.max (FVal.ofBits t old) (FVal.ofBits t x)
    let (n, g) := roundVal t .rne false v
    (n, f ||| g)
  else rmwValue .add t old x 0

/-- Element i of a row's operand. -/
def rowLane (t : Fmt) (x x2 : VecWord) (i : Nat) : Nat :=
  let n := Fmt.lanes t
  if i < n then laneOf t.width x i else laneOf t.width x2 (i - n)

/-- The elements of a row that a guard leaves active. -/
def rowActive (t : Fmt) (pair : Bool) (lanes : MaskWord) : List Nat :=
  (List.range (if pair then 2 * Fmt.lanes t else Fmt.lanes t)).filter (fun i => lanes.getLsbD i)

/-- The values of a `.ret` row for its one or two registers, from the elements' values. -/
def rowResult (t : Fmt) (pair : Bool) (lanes : MaskWord) (f : Nat → Nat) : List RVal :=
  let n := Fmt.lanes t
  let half (base : Nat) : RVal :=
    .vec (mkVec t.width n (fun i => if lanes.getLsbD (base + i) then f (base + i) else 0))
      (laneBits t.width n (fun i => lanes.getLsbD (base + i)))
  if pair then [half 0, half n] else [half 0]

/-- A performed atomic answers with its old values, and the core learns of it later (R297, R390). -/
def State.answerAtomic (s : State) (core : Nat) (a : Access) (vals : List RVal) (flags : FlagSet) (w : Option (BitVec 16))
    (min : Nat) : State :=
  let s := match a.op.tag with
    | none => s.modCore core (fun c => c.modAccess a.seq (fun a => { a with flags := flags }))
    | some t => s.modBankAt core a.bank (fun b => b.modTag t (fun r => { r with vals := vals, flags := flags }))
  (s.modCore core (fun c => c.modAccess a.seq (fun a => { a with carry := w }))).ackStore core a min

/-- A read of leased lines at their homes, without a copy for the core: each lease is extended, and the reader's pts is at least every
line's wts (R309). -/
def State.readLeaseHome (s : State) (core : Nat) (ls : List Line) (view : Bool) (cls : BitVec 2) : State :=
  let p := (s.core core).pts + (s.core core).lease1.setWidth 16
  let s := ls.foldl (fun (s : State) l => (s.ensureHome l view true cls).extend l p) s
  ls.foldl (fun (s : State) l => match (s.homeSlice l).line l with
    | none => s
    | some y => s.bumpPts core y.wts) s

/-- The stamps that an acquiring atomic reads (R319). -/
def State.acquireStamps (s : State) (core : Nat) (a : Access) : State :=
  s.readStamp core a (ptsMaxList (a.sectors.map s.stampAt))

/-- A value and its tensor's format at a place of a view with OPEN contributions (R262, R300). -/
def State.openValue (s : State) (mode : ViewMode) (l : Loc) : Nat × Fmt :=
  match s.tensorAt l with
  | none => (0, .f32)
  | some (n, t, p) =>
    let w := if p.aux || t.fmt.width < 8 then 1 else t.fmt.width / 8
    ((s.viewElem n t.fmt w l mode).1, t.fmt)

/-- The bytes of an element at a place of a view. -/
def State.elemBytes (s : State) (l : Loc) : Nat :=
  match s.tensorAt l with
  | some (_, t, _) => t.fmt.width / 8
  | none => 1

/-- A write that reaches a patch after its seal or its end is dropped, with imprecise fault 0x14 at its sector (R206, R260, R261). -/
def State.dropLate (s : State) (core : Nat) (a : Access) : State :=
  s.holdTrap core a.bank (a.report 0x14 (BitVec.ofNat 64 (a.vaddr / 32 * 32)))

/-- The stream's write of the acting bank comes too late for a patch. -/
def State.dropHere (s : State) (addr : Word) : State :=
  s.holdTrap s.focus.core s.focus.bank { faultAt 0x14 (addr / 32 * 32) with src := 5 }

/-- A contribution of the acting bank to a shared patch comes after its partial was taken (R261). -/
def State.tooLate (s : State) (n : Name) : Bool :=
  match s.patch n with
  | none => false
  | some p => p.taken (contributor s.focus.core s.focus.bank)

/-- LATE_PATCH_WRITE (R206, R260): the acting engine's write to an address through a patch that is no longer OPEN. -/
def execLatePatchWrite (addr : Word) (s : State) : Out :=
  .next (match s.focus.eng.bind (fun e => (s.cur.engine e).cur.map (fun n => (e, n))) with
    | none => s.dropHere addr
    | some (e, n) => s.engTrap s.focus.core e n (faultAt 0x14 (addr / 32 * 32)))

/-- A write into a patch reaches it: it enters the payload or the contributor's partial, or comes too late and is dropped (R206, R259 to
R261); the flags of the accumulation. -/
def State.contribute (s : State) (core : Nat) (a : Access) (n : Name) (twin : Bool) (bytes : List (Option Byte)) (ty : Fmt) :
    FlagSet × State :=
  let who := contributor core a.bank
  match s.checkWrite n twin who (fun i => a.loc.plus i) (BitVec.ofNat 64 a.vaddr) bytes ty with
  | .error _ => (0, s.dropLate core a)
  | .ok w => s.patchWrite n twin who ty w

/-- What a contributor has accumulated at an element of a patch's plain half. -/
def Patch.partOf (p : Patch) (who q : Nat) : BitVec 32 :=
  if p.shared then (Sparse.find ((Sparse.find p.partials who).getD []) q).getD 0 else p.half.delta q

/-- Set what a contributor has accumulated there. -/
def Patch.setPart (p : Patch) (who q : Nat) (d : BitVec 32) : Patch :=
  if p.shared then { p with partials := Sparse.put p.partials who (Sparse.put ((Sparse.find p.partials who).getD []) q d) }
  else { p with half := { p.half with deltas := Sparse.put p.half.deltas q d } }

/-- ARMAX into a patch (R300): each active element's partial gains what x has over the open value; the comparison is an ordered one (R29).
The row is held from the read to the write: this is one step. -/
def State.patchMax (s : State) (who : Nat) (a : Access) (patch : Name) (ty : Fmt) (x x2 : VecWord) : List Nat → State × FlagSet
  | [] => (s, 0)
  | i :: r =>
    let l := a.loc.plus (i * s.elemBytes a.loc)
    let (w, wt) := s.openValue .opn l
    let xv := FVal.ofBits ty (rowLane ty x x2 i)
    let wv := FVal.ofBits wt w
    let nan := xv.isNan || wv.isNan
    let (d, f) := if !nan && FVal.below false wv xv then FVal.add .rne xv wv.negate else (FVal.ofInt 0, Flag.when nan Flag.inv)
    let part := match s.patch patch with
      | none => 0
      | some p => p.partOf who l.q
    let (y, g) := FVal.add .rne (FVal.ofBits .f32 part.toNat) d
    let (n, k) := roundVal .f32 .rne false y
    let s := s.modPatch patch (fun p => p.setPart who l.q (BitVec.ofNat 32 n))
    let (s, z) := s.patchMax who a patch ty x x2 r
    (s, f ||| g ||| k ||| z)

/-- The bytes of the active elements of a row operand. -/
def rowBytes (ty : Fmt) (pair : Bool) (x x2 : VecWord) (act : List Nat) : List (Option Byte) :=
  let wb := ty.width / 8
  (List.range (if pair then 2 * Fmt.lanes ty else Fmt.lanes ty)).flatMap (fun i =>
    if act.contains i then (leBytes wb (rowLane ty x x2 i)).map some else List.replicate wb none)

/-- An atomic on device memory, in one step at its home (R298 to R301, R316). -/
def State.deviceAtomic (s : State) (core : Nat) (a : Access) : State :=
  let lease := a.target == .leaseCell
  let ls := a.lines
  let back := 15 + meshDist core (Loc.home a.loc) + hopTime (dieOf core) (Line.homeDie (Loc.line a.loc))
    + maxNat 0 (ls.map (fun l => s.missTime l false))
  match a.op with
  | .rmw k ty x cmp _ =>
    let s := s.takeLines false lease a.cls ls
    let n := ty.width / 8
    let old := leNat (s.homeBytes a.loc n)
    let (v, f) := rmwValue k ty old (x.toNat % 2 ^ ty.width) (cmp.toNat % 2 ^ ty.width)
    let s := (s.acquireStamps core a).homeStore a.loc ((leBytes n v).map some)
    let (w, s) := s.afterWrite core a lease ls
    s.answerAtomic core a [.word (toWord ty old)] f w back
  | .row mx ty x x2 lanes pair _ =>
    let s := s.takeLines false lease a.cls ls
    let wb := ty.width / 8
    let old := s.homeBytes a.loc a.len
    let at_ (i : Nat) : Nat := leNat ((old.drop (i * wb)).take wb)
    let act := rowActive ty pair lanes
    let new := act.map (fun i => (i, rowValue mx ty (at_ i) (rowLane ty x x2 i)))
    let s := new.foldl (fun s p => s.homeStore (a.loc.plus (p.1 * wb)) ((leBytes wb p.2.1).map some)) (s.acquireStamps core a)
    let (w, s) := s.afterWrite core a lease ls
    s.answerAtomic core a (rowResult ty pair lanes at_) (new.foldl (fun f p => f ||| p.2.2) 0) w back
  | .patchAdd patch ty x _ =>
    let (f, s) := s.contribute core a patch false ((leBytes (ty.width / 8) x.toNat).map some) ty
    let (v, et) := s.openValue (.own patch) a.loc
    s.answerAtomic core a [.word (toWord et v)] f none back
  | .patchRow mx patch ty x x2 lanes pair _ =>
    let who := contributor core a.bank
    let act := rowActive ty pair lanes
    let (f, s) :=
      if !mx then s.contribute core a patch false (rowBytes ty pair x x2 act) ty
      else if (s.patch patch).any (fun p => p.writable who) then
        let (s, f) := s.patchMax who a patch ty x x2 act
        (f, s)
      else (0, s.dropLate core a)
    s.answerAtomic core a (rowResult ty pair lanes (fun i => (s.openValue (.own patch) (a.loc.plus (i * s.elemBytes a.loc))).1)) f none
      back
  | .dcas _ loc2 lease2 e1 e2 w1 w2 _ =>
    let l2 := Loc.line loc2
    let s := (s.takeLines false lease a.cls ls).takeLines false lease2 a.cls [l2]
    let o1 := leNat (s.homeBytes a.loc 8)
    let o2 := leNat (s.homeBytes loc2 8)
    let vals : List RVal := [.word (BitVec.ofNat 64 o1), .word (BitVec.ofNat 64 o2)]
    let s := (s.acquireStamps core a).acquireStamps core { a with loc := loc2 }
    let s := if o1 = e1.toNat && o2 = e2.toNat then
        (s.homeStore a.loc ((leBytes 8 w1.toNat).map some)).homeStore loc2 ((leBytes 8 w2.toNat).map some)
      else s
    let (x, s) := s.afterWrite core a lease ls
    let (y, s) := s.afterWrite core { a with loc := loc2 } lease2 [l2]
    s.answerAtomic core a vals 0 (match x, y with
      | some x, some y => some (ptsMax x y)
      | some x, none => some x
      | none, y => y) back
  | .move ty loc2 lease2 _ =>
    let n := ty.width / 8
    let s := (s.takeLines false lease a.cls ls).takeLines false lease2 a.cls [Loc.line loc2]
    let old := leNat (s.homeBytes a.loc n)
    let vals : List RVal := [.word (toWord ty old)]
    let s := (s.acquireStamps core a).acquireStamps core { a with loc := loc2 }
    let s := if lease2 then s.readLeaseHome core [Loc.line loc2] false a.cls else s
    let s := s.homeStore a.loc ((s.homeBytes loc2 n).map some)
    let (w, s) := s.afterWrite core a lease ls
    s.answerAtomic core a vals 0 w back
  | .load _ _ | .store _ _ | .patchStore _ _ _ _ _ _ | .stage _ _ _ _ | .writeBack _ | .dropCopies _ | .prefetch _ | .pin _ | .unpin
  | .signal _ _ _ => s

/-! ## The host window (R302, R321, R342, R343) -/

/-- The pages of a host extent, as virtual addresses under a PASID. -/
def hostPages (a n : Nat) : List (Nat × Nat) := cutAt 4096 512 (a % 2 ^ 57) (a % 2 ^ 57 + n)

/-- Bytes of the host at translated pieces. -/
def State.hostBytes (s : State) (l : List (Nat × Nat)) : List Byte := l.flatMap (fun p => Memory.readBytes s.hostMem p.1 p.2)

/-- Write those bytes that are given at translated pieces of the host. -/
def State.hostWrite (s : State) : List (Nat × Nat) → List (Option Byte) → State
  | [], _ => s
  | (a, n) :: r, bs => State.hostWrite { s with hostMem := Memory.writeSome s.hostMem a (bs.take n) } r (bs.drop n)

/-- Whether an access stores, for a walk (R346). -/
def AccOp.stores : AccOp → Bool
  | .load _ _ | .prefetch _ | .pin _ | .unpin | .signal _ _ _ => false
  | .store _ _ | .patchStore _ _ _ _ _ _ | .rmw _ _ _ _ _ | .row _ _ _ _ _ _ _ | .patchAdd _ _ _ _ | .patchRow _ _ _ _ _ _ _ _
  | .dcas _ _ _ _ _ _ _ _ | .move _ _ _ _ | .stage _ _ _ _ | .writeBack _ | .dropCopies _ => true

/-- An atomic that the host's root port performs itself (R302). -/
def AccOp.native : AccOp → Bool
  | .rmw k ty _ _ _ => (k == .add || k == .xchg || k == .cas) && !ty.isFlt && (ty.width == 32 || ty.width == 64) && Config.rootPortAtomicOps
  | _ => false

/-- The 128-byte lines of the host that translated pieces touch. -/
def hostLines (l : List (Nat × Nat)) : List Nat := l.flatMap (fun p => (List.range ((p.1 + p.2 - 1) / 128 + 1 - p.1 / 128)).map (fun i => p.1 / 128 + i))

/-- A split atomic of this module holds a host line between its two halves (R302). -/
def State.hostLineHeld (s : State) (l : List (Nat × Nat)) : Bool :=
  s.cores.any (fun p => p.2.accs.any (fun x => x.half.any (fun h => (hostLines h.pieces).any (fun k => (hostLines l).contains k))))

/-- An atomic at the host writes what comes of the old bytes (R299, R300, R302). -/
def State.hostAtomic (s : State) (core : Nat) (a : Access) (l : List (Nat × Nat)) (old : List Byte) : State :=
  match a.op with
  | .rmw k ty x cmp _ =>
    let o := leNat old
    let (v, f) := rmwValue k ty o (x.toNat % 2 ^ ty.width) (cmp.toNat % 2 ^ ty.width)
    (s.hostWrite l ((leBytes (ty.width / 8) v).map some)).answerAtomic core a [.word (toWord ty o)] f none 1
  | .row mx ty x x2 lanes pair _ =>
    let wb := ty.width / 8
    let at_ (i : Nat) : Nat := leNat ((old.drop (i * wb)).take wb)
    let new := (List.range (a.len / wb)).map (fun i =>
      if lanes.getLsbD i then rowValue mx ty (at_ i) (rowLane ty x x2 i) else (at_ i, 0))
    (s.hostWrite l ((new.flatMap (fun p => leBytes wb p.1)).map some)).answerAtomic core a (rowResult ty pair lanes at_)
      (new.foldl (fun f p => f ||| p.2) 0) none 1
  | _ => s.finish core a

/-- An access to the host window: translated whole, then performed at the host, or a host page fault (R295, R342). An atomic
is one step there where it is native, else a read and later a write, between which no other access of this module reaches its lines (R302). -/
def State.hostServe (s : State) (core : Nat) (a : Access) : State :=
  match a.half with
  | some h => (s.modCore core (fun c => c.modAccess a.seq (fun a => { a with half := none }))).hostAtomic core { a with half := none } h.pieces h.old
  | none =>
  match s.pasidOf (s.bankAt core a.bank) with
  | none => s.refuse core a 0x07
  | some pasid =>
    match s.hostPieces core pasid a.op.stores (hostPages a.vaddr a.len) with
    | (.error _, s) =>
      (s.modCore core (fun c => c.modAccess a.seq (fun a => { a with state := .sent }))).postAt s.cycle core a.bank a.eng
        (.hostPageFault a.seq)
    | (.ok l, s) =>
      let old := s.hostBytes l
      let later : State := s.postAt (s.cycle + 1) core a.bank a.eng (.homeAtomic core a.seq)
      match a.op with
      | .load _ _ =>
        if s.hostLineHeld l then s.modCore core (fun c => c.modAccess a.seq (fun a => { a with tried := true }))
        else (s.deliver core a old []).finish core a
      | .store v m =>
        if s.hostLineHeld l then s.modCore core (fun c => c.modAccess a.seq (fun a => { a with tried := true }))
        else (s.hostWrite l (merged old v m)).ackStore core a 1
      | .rmw _ _ _ _ _ | .row _ _ _ _ _ _ _ =>
        if s.hostLineHeld l then later
        else if a.op.native then s.hostAtomic core a l old
        else (s.modCore core (fun c => c.modAccess a.seq (fun a => { a with half := some { pieces := l, old := old } }))).post 1 none core
          a.bank a.eng (.homeAtomic core a.seq)
      | .patchStore _ _ _ _ _ _ | .patchAdd _ _ _ _ | .patchRow _ _ _ _ _ _ _ _ | .dcas _ _ _ _ _ _ _ _ | .move _ _ _ _ | .stage _ _ _ _ | .writeBack _
      | .dropCopies _ | .prefetch _ | .pin _ | .unpin | .signal _ _ _ => s.finish core a

/-- HOME_ATOMIC (R298, R316): served when no transaction on its lines is under way. -/
def execHomeAtomic (core seq : Nat) (s : State) : Out :=
  .next (match (s.core core).access seq with
    | none => s
    | some a =>
      let more := match a.op with
        | .dcas _ l _ _ _ _ _ _ | .move _ l _ _ => [Loc.line l]
        | _ => []
      if a.target == .host then s.hostServe core a
      else if s.anyBusy (a.lines ++ more) || (a.lines ++ more).any (fun l => s.fillWaits (Line.homeDie l) l a.cls) then s.postAt (s.cycle + 1) core a.bank a.eng (.homeAtomic core seq)
      else s.deviceAtomic core a)

/-! ## Host bias (R353, R383, R384) -/

/-- The 4 KiB page of a physical byte in its set's space. -/
def Loc.page (l : Loc) : Nat := l.q / 4096

/-- Whether a page is in the middle of a bias flip. -/
def State.flipping (s : State) (l : Loc) : Bool :=
  match s.flip with
  | none => false
  | some f => f.pages.contains ((l.lo * 64 + l.nd) * 2 ^ 36 + l.page)

/-- The home of a host-biased page obtains a line over CXL.cache, shared for a load and owned for a write (R383). -/
def State.obtain (s : State) (l : Loc) (own : Bool) : State :=
  if s.bias.any (fun b => b.1 == l.lo && b.2.1 == l.nd && b.2.2.1 == l.page && !b.2.2.2) then
    let line := Loc.line l
    let st : Moesi := if own then .m else match s.hostHeld.find? (fun h => h.1 == line) with
      | some h => h.2
      | none => .s
    { s with hostHeld := (s.hostHeld.filter (fun h => h.1 != line)) ++ [(line, st)] }
  else s

/-! ## Pins and maintenance (R291, R292) -/

/-- Pin a line into its home's set, or refuse (R291). -/
def State.pin (s : State) (l : Line) (view lease : Bool) (cls : BitVec 2) (job : Nat) : Bool × State :=
  let x := s.homeSlice l
  let pinned := (x.inSet (Line.set l)).filter (fun y => y.pin.isSome)
  match x.line l with
  | some y => if y.pin.isSome then (true, s) else
      if pinned.length + 1 ≥ x.ways || (pinned.filter (fun y => y.cls == cls)).length + 1 > x.quota cls then (false, s)
      else (true, s.modHome l (fun x => x.modLine l (fun y => { y with pin := some job })))
  | none =>
    if pinned.length + 1 ≥ x.ways || (pinned.filter (fun y => y.cls == cls)).length + 1 > x.quota cls then (false, s)
    else (true, (s.ensureHome l view lease cls).modHome l (fun x => x.modLine l (fun y => { y with pin := some job })))

/-- CWB.l1 (R292): a dirty L1 copy goes to the die's slice and stays, clean. -/
def State.cleanL1 (s : State) (core : Nat) (l : Line) : State :=
  match (s.core core).l1Line l with
  | none => s
  | some x => match x.dirtyData with
    | none => s
    | some d =>
      let st : Moesi := if x.st == .m then .e else .s
      let s := s.modCore core (fun c => c.modL1 l (fun x => { x with st := st, dirty := false }))
      s.modSliceOf (dieOf core) l (fun z => z.modLine l (fun y =>
        { y with data := d, dirty := true, st := if y.st == .e then .m else y.st
                 owner := if st == .e then some core else none, ost := if st == .e then .e else .i }))

/-- CINV.l1 (R292): the core's L1 copy is dropped, after a write-back if it is dirty. -/
def State.invalidateL1 (s : State) (core : Nat) (l : Line) : State :=
  match (s.core core).l1Line l with
  | none => s
  | some x => (s.modCore core (fun c => c.dropL1 l)).leaveL1 core x

/-- CWB.l2 (R292): every dirty copy in the module reaches the stacks; the copies stay, clean. -/
def State.cleanAll (s : State) (l : Line) : State :=
  let s := s.share l
  let clean (st : Moesi) : Moesi := match st with
    | .o | .m => .s
    | .i | .s | .e => st
  let s := match (s.homeSlice l).line l with
    | none => s
    | some y => if y.view then s else s.hbmPutLine l y.data
  let s := s.modHome l (fun x => (x.modLine l (fun y => { y with dirty := false, owner := none, ost := .i })).sfMod l (fun e =>
    { e with owner := none, ost := .i }))
  { s with
    slices := s.slices.map (fun (p : Nat × Slice) =>
      if p.1 / 64 = Line.homeDie l then p
      else (p.1, p.2.modLine l (fun y => { y with dirty := false, st := clean y.st, owner := none, ost := .i })))
    cores := Sparse.mapVals (fun c => c.modL1 l (fun x => { x with st := clean x.st, dirty := false })) s.cores }

/-- CINV.l2 (R292): every copy in the module is dropped after dirty data is written back; a pinned home copy stays. -/
def State.invalidateAll (s : State) (l : Line) : State :=
  let s := s.recall l
  let s := { s with
    cores := Sparse.mapVals (fun c => c.dropL1 l) s.cores
    slices := s.slices.map (fun (p : Nat × Slice) => if p.1 / 64 = Line.homeDie l then p else (p.1, p.2.dropLine l)) }
  match (s.homeSlice l).line l with
  | none => s
  | some y =>
    if y.pin.isSome then
      if y.dirty && !y.view then
        (s.hbmPutLine l y.data).modHome l (fun x => x.modLine l (fun y => { y with dirty := false }))
      else s
    else s.evictHome l

/-! ## Serving an access -/

/-- The logical times of the seals that a read's view includes (R278, R319): what its sectors carry, or under `.asof` what the patches up to
the named seal carry (R265). -/
def State.viewTimes (s : State) (a : Access) (mode : ViewMode) : List (BitVec 16) :=
  match mode with
  | .plain | .opn | .own _ => a.sectors.map s.stampAt
  | .asof k => a.sectors.flatMap (fun l => match s.tensorAt l with
    | none => []
    | some (base, _, _) => (s.chain l.lo l.nd (l.q / 32)).filterMap (fun n => (s.patch n).bind (fun p =>
      if (p.on base).any (fun h => h.sealNo ≤ k) then some p.pts else none)))

/-- The reads that a home serves without a copy: `.row`, `.open` and `.asof` loads and engines' reads (R262, R265, R293). -/
def State.directRead (s : State) (core : Nat) (a : Access) (mode : ViewMode) : State :=
  let ls := a.lines
  let far := homeTime core (Loc.line a.loc)
  match a.target with
  | .cell =>
    let miss := maxNat 0 (ls.map (fun l => s.missTime l false))
    let s := ls.foldl (fun s l => s.share l) s
    let s := s.readStamp core a (ptsMaxList (a.sectors.map s.stampAt))
    ((s.atLeast core a (far + miss)).deliver core a (s.homeBytes a.loc a.len) []).finish core a
  | .leaseCell =>
    let miss := maxNat 0 (ls.map (fun l => s.missTime l false))
    let s := (s.readLeaseHome core ls false a.cls).readStamp core a (ptsMaxList (a.sectors.map s.stampAt))
    ((s.atLeast core a (far + miss)).deliver core a (s.homeBytes a.loc a.len) []).finish core a
  | .view | .leaseView =>
    let deep := maxNat 0 (a.sectors.map s.depth)
    let s := if a.target == .leaseView then s.readLeaseHome core ls true a.cls else s
    let (bytes, f) := s.viewBytes a.loc a.len mode
    let s := (s.viewTimes a mode).foldl (fun (s : State) p => s.bumpPts core p) s
    ((s.atLeast core a (far + 120 + (deep + 3) / 4)).deliver core a bytes f).finish core a
  | .host | .staging => s.finish core a

/-- A load through the caches (R287, R297, R303, R309). -/
def State.cachedRead (s : State) (core : Nat) (a : Access) : State :=
  let l := Loc.line a.loc
  let die := dieOf core
  let near := 30 + 2 * meshDist core (Line.home l)
  let sent (s : State) : State :=
    (s.atLeast core a near).modCore core (fun c => c.modAccess a.seq (fun a => { a with state := .sent }))
  let here := if a.op == .prefetch true then none else (s.core core).l1Line l
  if !((s.core core).waitingFor l).isEmpty then
    s.modCore core (fun c => c.modAccess a.seq (fun a => { a with tried := true }))
  else if a.target == .leaseCell || a.target == .leaseView then
    match here with
    | some x =>
      if ptsLe (s.core core).pts x.rts then s.hitLease core a x
      else (sent s).post (15 + meshDist core (Line.home l)) (some (core, die * 64 + Line.slice l, 0)) core false none (.leaseRenew l core)
    | none => (sent s).post (15 + meshDist core (Line.home l)) (some (core, die * 64 + Line.slice l, 0)) core false none (.leaseRenew l core)
  else match here with
    | some x =>
      if !serves x.valid a then (sent ((s.modCore core (fun c => c.dropL1 l)).leaveL1 core x)).sendReq .gets
        { line := l, core := core, home := die = Line.homeDie l } (15 + meshDist core (Line.home l))
      else match a.op with
        | .prefetch _ => s.finish core a
        | _ => s.readCopy core a x
    | none => (sent s).sendReq .gets { line := l, core := core, home := die = Line.homeDie l } (15 + meshDist core (Line.home l))

/-- A store through the caches (R303, R304, R309). -/
def State.cachedWrite (s : State) (core : Nat) (a : Access) (v m : List Byte) : State :=
  let l := Loc.line a.loc
  let die := dieOf core
  let near := 15 + meshDist core (Line.home l)
  let sent (s : State) : State := s.modCore core (fun c => c.modAccess a.seq (fun a => { a with state := .sent }))
  if !((s.core core).waitingFor l).isEmpty then
    s.modCore core (fun c => c.modAccess a.seq (fun a => { a with tried := true }))
  else if a.target == .leaseCell then
    (sent s).post (near + hopTime die (Line.homeDie l)) (some (core, Line.home l, 5)) core a.bank a.eng (.leaseWriteThrough core a.seq)
  else match (s.core core).l1Line l with
    | some x =>
      if x.st == .m || x.st == .e then s.writeCopy core a v m
      else (sent s).sendReq .upg { line := l, core := core, home := die = Line.homeDie l } near
    | none => (sent s).sendReq .getm { line := l, core := core, home := die = Line.homeDie l } near

/-- A store of an engine, served at the home (R205, R227). -/
def State.directWrite (s : State) (core : Nat) (a : Access) (v m : List Byte) : State :=
  let lease := a.target == .leaseCell
  let miss := maxNat 0 (a.lines.map (fun l => s.missTime l false))
  let s := s.takeLines false lease a.cls a.lines
  let s := s.homeStore a.loc (merged (s.homeBytes a.loc a.len) v m)
  let (w, s) := s.afterWrite core a lease a.lines
  (s.modCore core (fun c => c.modAccess a.seq (fun a => { a with carry := w }))).ackStore core a
    (homeTime core (Loc.line a.loc) + miss)

/-- A store into a patch reaches it (R206, R259). -/
def State.directPatch (s : State) (core : Nat) (a : Access) (n : Name) (twin : Bool) (bytes : List (Option Byte)) (ty : Fmt) :
    State :=
  let (f, s) := s.contribute core a n twin bytes ty
  (s.modCore core (fun c => c.modAccess a.seq (fun a => { a with flags := a.flags ||| f }))).ackStore core a 1

/-- One sector between a slice's staging ways and local memory (R209, R210). -/
def State.serveStage (s : State) (core : Nat) (a : Access) (store : Bool) (slice off laddr : Nat) : State :=
  let die := slice / 64
  let sl := slice % 64
  let time := 36 + 2 * meshDist core slice + 96 * dieDist (dieOf core) die
  if store then
    let bytes := Memory.readBytes (s.core core).mem laddr a.len
    (s.modSlice die sl (fun x => { x with staging := Memory.writeBytes x.staging off bytes })).ackStore core a time
  else
    let bytes := Memory.readBytes (s.slice die sl).staging off a.len
    (s.arriveLocal core a laddr bytes (time - 1)).finish core a

/-- The die of the home that an access goes to; none for the host and for what stays in the core. -/
def Access.homeDie (a : Access) : Option Nat :=
  match a.target with
  | .cell | .leaseCell | .view | .leaseView => match a.op with
    | .signal _ _ _ => none
    | _ => some (Line.homeDie (Loc.line a.loc))
  | .staging => match a.op with
    | .stage _ slice _ _ => some (slice / 64)
    | _ => none
  | .host => none

/-- An access waits for a transaction on a line, or for the end of a bias flip. -/
def State.mustWait (s : State) (a : Access) : Bool :=
  let full := a.lines.any (fun l => s.fillWaits (Line.homeDie l) l a.cls)
  match a.op with
  | .signal _ _ _ | .stage _ _ _ _ | .patchStore _ _ _ _ _ _ => false
  | .load _ _ | .store _ _ => s.flipping a.loc && a.target != .host || (a.direct && a.target != .host && (full || s.anyBusy a.lines))
  | .writeBack _ | .dropCopies _ | .pin _ | .unpin | .prefetch _ => a.target != .host && (full || s.anyBusy a.lines)
  | .rmw _ _ _ _ _ | .row _ _ _ _ _ _ _ | .patchAdd _ _ _ _ | .patchRow _ _ _ _ _ _ _ _ | .dcas _ _ _ _ _ _ _ _ | .move _ _ _ _ =>
    s.flipping a.loc && a.target != .host

/-- Perform an access whose turn has come (R390). A request of a core in another partition than the home's is refused at the
boundary guard (R351). -/
def State.serve (s : State) (core : Nat) (a : Access) : State :=
  let l := Loc.line a.loc
  let view := a.target == .view || a.target == .leaseView
  let lease := a.target == .leaseCell || a.target == .leaseView
  let job := ((s.bankAt core a.bank).job).getD 0
  let foreign_ := match a.homeDie with
    | some d => d < 32 && (s.die d).part != (s.die (dieOf core)).part
    | none => false
  if foreign_ then (match a.op with
    | .prefetch _ => s.finish core a
    | _ => s.refuse core a 0x1A)
  else if s.mustWait a then s.modCore core (fun c => c.modAccess a.seq (fun a => { a with tried := true }))
  else
    let s := if a.target == .host then s else s.obtain a.loc a.op.stores
    match a.op with
    | .signal k operand pc =>
      let s : State := { s with focus := { core := core, bank := a.bank, eng := none } }
      (s.modCur (fun c => c.dropAccess a.seq)).sendSignal k operand pc
    | .load mode _ =>
      if a.target == .host then s.hostServe core a
      else if a.direct then s.directRead core a mode else s.cachedRead core a
    | .store v m =>
      if a.target == .host then s.hostServe core a
      else if a.direct then s.directWrite core a v m else s.cachedWrite core a v m
    | .patchStore n twin bytes ty _ _ => s.directPatch core a n twin bytes ty
    | .rmw _ _ _ _ _ | .row _ _ _ _ _ _ _ | .patchAdd _ _ _ _ | .patchRow _ _ _ _ _ _ _ _ | .dcas _ _ _ _ _ _ _ _ | .move _ _ _ _ =>
      (s.modCore core (fun c => c.modAccess a.seq (fun a => { a with state := .sent }))).post
        (15 + meshDist core (Loc.home a.loc) + hopTime (dieOf core) (Line.homeDie l)) none core a.bank a.eng (.homeAtomic core a.seq)
    | .stage store slice off laddr => s.serveStage core a store slice off laddr
    | .writeBack l2 =>
      if view then s.finish core a
      else (if l2 then s.cleanAll l else s.cleanL1 core l).ackStore core a (if l2 then homeTime core l else 12)
    | .dropCopies l2 =>
      (if l2 then s.invalidateAll l else s.invalidateL1 core l).ackStore core a (if l2 then homeTime core l else 12)
    | .prefetch _ => s.cachedRead core a
    | .pin _ =>
      let (ok, s) := s.pin l view lease a.cls job
      s.answerAtomic core a [.word (if ok then 0 else 1)] 0 none (homeTime core l)
    | .unpin =>
      (s.modHome l (fun x => x.modLine l (fun y => { y with pin := none }))).ackStore core a (homeTime core l)

/-! ## Host page faults (R342, R343) -/

/-- The first page of a host access that its walk does not find, with the access's lowest address in it. -/
def State.faultingPage (s : State) (core : Nat) (a : Access) : Option (BitVec 20 × Nat) :=
  match s.pasidOf (s.bankAt core a.bank) with
  | none => none
  | some p => match (s.hostPieces core p a.op.stores (hostPages a.vaddr a.len)).1 with
    | .error x => some (p, x)
    | .ok _ => none

/-- HOST_PAGE_FAULT (R342): the access freezes; its bank issues no more, or its engine stops at its µPC (R194); a page request
goes to the host, one for each page. -/
def execHostPageFault (seq : Nat) (s : State) : Out :=
  let core := s.focus.core
  .next (match s.cur.access seq with
    | none => s
    | some a =>
      match s.faultingPage core a with
      | none => s.modCur (fun c => c.modAccess seq (fun a => { a with state := .waiting }))
      | some (p, x) =>
        let s := if s.pageReqs.contains (p, x / 4096) then s
          else
            let s := { s with pageReqs := s.pageReqs ++ [(p, x / 4096)] }
            if s.pageTimeoutUs = 0 then s
            else s.postIn (s.pageTimeoutUs * microUnits) core a.bank none (.pageRequestTimeout p (x / 4096))
        match a.eng with
        | none => s.modBankAt core a.bank (fun b => if b.status == .running then { b with status := .pageWait } else b)
        | some e => s.modCur (fun c => c.setEngine e { c.engine e with frozen := true }))

end Sys2Proof.Machine
end

