-- ==== Sys2Proof/Machine/Global.lean ====
section
/-!
DEFINITION. The global words: loads and stores, prefetch, atomics, pins and cache maintenance (R291 to R302).
-/
namespace Sys2Proof.Machine

/-! ## Operands -/

/-- The order of a modifier code acquires (R86). -/
def acquires (m : Mmc) : Bool := m.order.getLsbD 0
/-- The order of a modifier code releases. -/
def releases (m : Mmc) : Bool := m.order.getLsbD 1

/-- The scope of an access: the one its word names, or that of the FENCE that makes a plain store a release (R313, R315). -/
def State.kindScope (s : State) (m : Mmc) : Scope :=
  match s.bank.relStores with
  | none => m.scope
  | some f => if m.scope.toNat < f.toNat then f else m.scope

/-- The accesses of a word of the acting bank under a modifier code; a store that follows a FENCE releases too (R313). -/
def State.kind (s : State) (m : Mmc) (direct : Bool) : Kind :=
  { bank := s.focus.bank, eng := none, acq := acquires m, rel := releases m, scope := s.kindScope m, direct := direct
    publish := releases m || s.bank.relStores.isSome, name := 0 }

/-- No modifier (R86). -/
def plainMmc : Mmc := { scope := 0, order := 0, row := false, opn := false }

/-- The modifier code of a load; `.asof` stands in its place. -/
def loadMmc : LdMod → Mmc
  | .mmc m => m
  | .asof _ => plainMmc

/-- The name that `.asof` reads. -/
def Need.ldMod (n : Need) : LdMod → Need
  | .mmc _ => n
  | .asof x => n.n x

/-- The patch register that a store names. -/
def Need.stDst (n : Need) : StDst → Need
  | .mmc _ => n
  | .patch p => n.p (.p p)

/-- The tensor that holds an address of a bank's segments. -/
def State.tensorHere (s : State) (l : Loc) : Option Name := (s.tensorAt l).map (fun x => x.1)

/-- The view that a load reads (R262, R265): a fault of the `.asof` name, or the mode, the time its resolution takes, and the
state after it. -/
def State.loadMode (s : State) (o : LdMod) (a : Word) (first : Loc) : Except TrapInfo (ViewMode × Nat × State) :=
  match o with
  | .mmc m => .ok (if m.opn then .opn else .plain, 1, s)
  | .asof n =>
    let x := s.bank.readN n
    match s.resolveAs s.focus.core [Cls.patch] x with
    | (.error t, _, _) => .error { t with taddr := a }
    | (.ok _, lat, s') => match s.patch x, s.tensorHere first with
      | some p, some b => match p.on b with
        | some h => if p.state == .sealed then .ok (.asof h.sealNo, lat, s') else .error (faultAt 0x14 a)
        | none => .error (faultAt 0x14 a)
      | _, _ => .error (faultAt 0x14 a)

/-- The checks of a load of `n` bytes: translation, the extent of a `.row`, the kind of target, the name (R293, R295). -/
def State.loadCheck (s : State) (a : Word) (n : Nat) (o : LdMod) : Except TrapInfo (List Piece × ViewMode × Nat × State) :=
  match s.translate s.bank 0 a n with
  | .error t => .error t
  | .ok l =>
    let m := loadMmc o
    let asof := match o with
      | .asof _ => true
      | .mmc _ => false
    if m.row && a.toNat / 512 ≠ (a.toNat + n - 1) / 512 then .error (faultAt 0x05 a)
    else if (m.row || m.opn || asof) && !allPatched l then .error (faultAt 0x18 a)
    else match s.loadMode o a (locAt l a.toNat) with
      | .error t => .error t
      | .ok (mode, lat, s) => .ok (l, mode, lat, s)

/-- Whether any byte of a unit is active. -/
def anyActive (active : Nat → Bool) (off n : Nat) : Bool := (List.range n).any (fun i => active (off + i))

/-- The loads of a word of the acting bank go on their way under a tag; without an active byte the tag just lands. -/
def State.issueLoad (s : State) (l : List Piece) (a n : Nat) (mode : ViewMode) (m : Mmc) (asof : Bool) (r : TagRec)
    (active : Nat → Bool) : State :=
  let k := s.kind m (m.row || m.opn || asof)
  let units : List (Piece × (Nat × Nat)) :=
    if m.row then l.map (fun p => (p, (p.addr, p.len))) else l.flatMap (fun p => p.units.map (fun u => (p, u)))
  let units := units.filter (fun x => anyActive active (x.2.1 - a) x.2.2)
  if units.isEmpty || n = 0 then (s.allocate { r with ready := true }).postHere 1 (.loadLand r.tag)
  else (s.allocate r).modCur (fun c => c.addAll (units.map (fun x w => k.access w x.1 x.2 (.load mode (.tag r.tag (x.2.1 - a))))))

/-- The least time of a load: in the host window R297 gives none. -/
def landTime (l : List Piece) : Nat := if l.all (fun p => p.seg.isNone) then 1 else 12

/-- A load is `.asof`. -/
def isAsof : LdMod → Bool
  | .asof _ => true
  | .mmc _ => false

/-! ## Loads and stores (R293 to R295) -/

/-- LDG (R293). -/
def execLdg (h : Hdr) (ty : Fmt) (d : SDst) (mm : MemOp) (o : LdMod) (al : BitVec 4) (s : State) : Out :=
  .next (s.issue ((Need.of h).addr mm |>.ldMod o |>.dTag d 30 |>.tag al |>.globalMem) none fun s =>
    let (a, s) := s.readAddr mm
    let n := ty.width / 8
    match s.loadCheck a n o with
    | .error t => .fault t
    | .ok (l, mode, lat, s) =>
      .ok (s.issueLoad l a.toNat n mode (loadMmc o) (isAsof o)
        (s.newTag al [SDst.rdst d] ty 0 0 (Nat.max lat (landTime l))) (fun _ => true)))

/-- VLDG (R293): its active lanes land; sectors without one are not read (R55). -/
def execVldg (h : Hdr) (ty : Fmt) (d : VDst) (mm : MemOp) (o : LdMod) (al : BitVec 4) (s : State) : Out :=
  .next (s.issue ((Need.ofV h).addr mm |>.ldMod o |>.dvTag d 30 |>.tag al |>.globalMem) none fun s =>
    let (a, s) := s.readAddr mm
    if a.toNat % 32 ≠ 0 then .fault (faultAt 0x05 a)
    else match s.loadCheck a 256 o with
      | .error t => .fault t
      | .ok (l, mode, lat, s) =>
        let m := laneBits ty.width (Fmt.lanes ty) (fun i => (s.bank.guardMask h).getLsbD i)
        let mb := vecBytes m
        .ok ((s.issueLoad l a.toNat 256 mode (loadMmc o) (isAsof o)
          (s.newTag al (s.bank.vecDst d) ty m 0 (Nat.max lat (landTime l))) (fun i => mb.getD i 0 != 0)).tagPort al d m))

/-- The stores of a word of the acting bank go on their way: those units that hold a marked bit. -/
def State.issueStore (s : State) (l : List Piece) (a : Nat) (m : Mmc) (v mk : List Byte) : State :=
  let k := s.kind m false
  let units := (l.flatMap (fun p => p.units.map (fun u => (p, u)))).filter (fun x =>
    anyActive (fun i => mk.getD i 0 != 0) (x.2.1 - a) x.2.2)
  s.modCur (fun c => c.addAll (units.map (fun x w => k.access w x.1 x.2
    (.store ((v.drop (x.2.1 - a)).take x.2.2) ((mk.drop (x.2.1 - a)).take x.2.2)))))

/-- The type in which a store's lanes enter the patch of a register: the patch's delta type, once the word's own is one that it takes
(R259, R279). -/
def State.laneType (s : State) (p : Fin 4) (ty : Fmt) : Fmt :=
  match (s.bank.p[p].bind s.patch).bind (fun x => x.delta) with
  | none => ty
  | some d => if (if d == .i32 then ty == .i32 else ty == .f32 || ty == .bf16) then d else ty

/-- The bytes in which a store's lanes are counted: those of an element, or one for the two lanes of a 4-bit format. -/
def Fmt.laneBytes (t : Fmt) : Nat := Nat.max 1 (t.width / 8)

/-- The bytes of one element that a store into the patch of a register covers: a base element under a delta (R279). -/
def State.laneStep (s : State) (p : Fin 4) (ty : Fmt) : Nat :=
  match s.bank.p[p].bind s.patch with
  | none => Fmt.laneBytes ty
  | some x => if x.delta.isNone then Fmt.laneBytes ty else match s.tensor x.half.base with
    | none => Fmt.laneBytes ty
    | some t => t.fmt.width / 8

/-- A store of elements into a patch sets out, sector by sector (R259, R279): lanes of `fw` bytes go to elements of `wb` bytes. -/
def State.sendPatch (s : State) (n : Name) (l : List Piece) (a : Word) (bytes : List (Option Byte)) (fw wb : Nat) (ty : Fmt)
    (pc : BitVec 15) (vec : Bool) : State :=
  let k := { s.kind plainMmc false with publish := false }
  let units := l.flatMap (fun p => (cutWhole (Nat.max 1 wb) (p.len + 1) p.addr (p.addr + p.len)).map (fun u =>
    (p, u, (bytes.drop ((u.1 - a.toNat) * fw / wb)).take (u.2 * fw / wb))))
  s.modCur (fun c => c.addAll ((units.filter (fun x => x.2.2.any Option.isSome)).map (fun x w =>
    k.access w x.1 x.2.1 (.patchStore n false x.2.2 ty pc vec))))

/-- A store through a patch register (R258, R259, R294): checked whole, and then on its way to the patch; where the seal has taken the
bank's partial, it is late (R261). -/
def State.storePatch (s : State) (p : Fin 4) (l : List Piece) (a : Word) (v mk : List Byte) (ty : Fmt) (pc : BitVec 15) (vec : Bool) :
    Result :=
  match s.bank.p[p] with
  | none => .fault (match s.bank.pGone[p] with
    | some n => { faultAt 0x15 a with name0 := n }
    | none => faultAt 0x14 a)
  | some n =>
    if ((s.patch n).bind (fun x => x.twin)).isSome then .fault { faultAt 0x17 a with name0 := n }
    else if mk.any (fun k => k != 0 && k != 0xFF) then .fault (faultAt 0x0C a)
    else if s.tooLate n then .ok (s.dropHere a)
    else
      let bytes := (v.zip mk).map (fun (x, k) => if k = 0 then none else some x)
      match s.checkWrite n false (contributor s.focus.core s.focus.bank) (fun i => locAt l (a.toNat + i)) a bytes ty with
      | .error t => .fault t
      | .ok _ =>
        let wb := s.laneStep p ty
        .ok (s.sendPatch n l a bytes (Fmt.laneBytes ty) wb ty pc vec)

/-- The effect of a global store of a value, given with the bits it marks for each type that its lanes can have (R279, R294). -/
def State.globalStore (s : State) (a : Word) (val : Fmt → List Byte × List Byte) (ty : Fmt) (o : StDst) (pc : BitVec 15) (vec : Bool) :
    Result :=
  match o with
  | .mmc m =>
    let (v, ms) := val ty
    match s.translate s.bank 1 a v.length with
    | .error t => .fault t
    | .ok l => if nonePatched l then .ok (s.issueStore l a.toNat m v ms) else .fault (faultAt 0x18 a)
  | .patch p =>
    let ty := s.laneType p ty
    let (v, ms) := val ty
    match s.translate s.bank 1 a (v.length * s.laneStep p ty / Fmt.laneBytes ty) with
    | .error t => .fault t
    | .ok l => if allPatched l then s.storePatch p l a v ms ty pc vec else .fault (faultAt 0x18 a)

/-- STG (R294). -/
def execStg (h : Hdr) (ty : Fmt) (mm : MemOp) (c : SSrc) (o : StDst) (s : State) : Out :=
  let pc := s.bank.pc
  .next (s.issue ((Need.of h).addr mm |>.s c |>.stDst o |>.globalMem) none fun s =>
    let (a, s) := s.readAddr mm
    let (x, s) := s.readS c
    s.globalStore a (fun t => (leBytes (t.width / 8) x.toNat, List.replicate (t.width / 8) 0xFF)) ty o pc false)

/-- VSTG (R294). -/
def execVstg (h : Hdr) (ty : Fmt) (mm : MemOp) (c : VSrc) (o : StDst) (s : State) : Out :=
  let pc := s.bank.pc
  .next (s.issue ((Need.ofV h).addr mm |>.v c |>.stDst o |>.globalMem) none fun s =>
    let v := s.vec ty c
    let g := s.bank.guardMask h
    let (a, s) := s.readAddr mm
    if a.toNat % 32 ≠ 0 then .fault (faultAt 0x05 a)
    else (s.advancePorts [c]).globalStore a
      (fun t => (vecBytes v, vecBytes (laneBits t.width (Fmt.lanes t) (fun i => g.getLsbD i)))) ty o pc true)

/-! ## Pins and maintenance (R291, R292) -/

/-- The access of a maintenance word or pin to the line of an address. -/
def State.lineAccess (s : State) (g : Seg) (a : Word) (op : AccOp) : State :=
  let at_ := a.toNat / 128 * 128
  let k := s.kind plainMmc false
  s.modCur (fun c => c.addAll [fun w => k.access w { addr := at_, len := 128, seg := some g } (at_, 128) op])

/-- PREFG (R292): it raises no fault. -/
def execPrefg (h : Hdr) (mm : MemOp) (l2 : Bool) (s : State) : Out :=
  .next (s.issue ((Need.of h).addr mm |>.globalMem) none fun s =>
    let (a, s) := s.readAddr mm
    match s.bank.segOf a.toNat with
    | none => .ok s
    | some g =>
      if spaceOf a = .device && g.allows 0 then .ok (s.lineAccess g a (.prefetch l2)) else .ok s)

/-- CPIN (R291): a refusal is no fault. -/
def execCpin (h : Hdr) (d : SDst) (mm : MemOp) (al : BitVec 4) (s : State) : Out :=
  .next (s.issue ((Need.of h).addr mm |>.dTag d 1 |>.tag al |>.globalMem) none fun s =>
    let (a, s) := s.readAddr mm
    if spaceOf a = .host then .ok (s.landLater al [SDst.rdst d] [.word 1] 1)
    else match s.translate s.bank 0 a 1 with
    | .error t => .fault t
    | .ok l => match l.head?.bind (fun p => p.seg) with
      | none => .ok (s.landLater al [SDst.rdst d] [.word 1] 1)
      | some g => .ok ((s.allocate (s.newTag al [SDst.rdst d] .i64 0 0 12)).lineAccess g a (.pin al)))

/-- CUNPIN (R291). -/
def execCunpin (h : Hdr) (mm : MemOp) (s : State) : Out :=
  .next (s.issue ((Need.of h).addr mm |>.globalMem) none fun s =>
    let (a, s) := s.readAddr mm
    match s.translate s.bank 0 a 1 with
    | .error t => .fault t
    | .ok l => match l.head?.bind (fun p => p.seg) with
      | none => .ok s
      | some g => .ok (s.lineAccess g a .unpin))

/-- A maintenance word on a translated line; on the host window it does nothing (R292). -/
def State.maintain (s : State) (h : Hdr) (mm : MemOp) (op : AccOp) : State :=
  s.issue ((Need.of h).addr mm |>.globalMem) none fun s =>
    let (a, s) := s.readAddr mm
    if spaceOf a = .host then .ok s
    else match s.bank.pieces 0 1 a.toNat (a.toNat + 1) with
      | .error t => if t.code = 0x08 then (match s.bank.segOf a.toNat with
          | some g => .ok (s.lineAccess g a op)
          | none => .fault t)
        else .fault t
      | .ok l => match l.head?.bind (fun p => p.seg) with
        | none => .ok s
        | some g => .ok (s.lineAccess g a op)

/-- CWB (R292). -/
def execCwb (h : Hdr) (mm : MemOp) (l2 : Bool) (s : State) : Out := .next (s.maintain h mm (.writeBack l2))

/-- CINV (R292). -/
def execCinv (h : Hdr) (mm : MemOp) (l2 : Bool) (s : State) : Out := .next (s.maintain h mm (.dropCopies l2))

/-! ## Atomics (R298 to R302) -/

/-- The accesses of an atomic of the acting bank. -/
def State.atomicAccess (s : State) (p : Piece) (a : Word) (n : Nat) (m : Mmc) (op : AccOp) : State :=
  let k := s.kind m false
  s.modCur (fun c => c.addAll [fun w => k.access w p (a.toNat, n) op])

/-- A tag for the old value of an atomic, if it returns one. -/
def State.retTag (s : State) (al : BitVec 4) (dst : List RDst) (ty : Fmt) (bits : VecWord) : State :=
  if al = 0 then s else s.allocate (s.newTag al dst ty bits 0 12)

/-- The scalar register that a returning atomic writes: its source. -/
def retDst : SSrc → List RDst
  | .s r => [.reg (.s r)]
  | .bq _ | .zero | .pts | .cycle => []

/-- An atomic on CELL or host targets (R299, R302): alignment, translation, the kind of target. -/
def State.cellAtomic (s : State) (k : Rmw) (ty : Fmt) (a x cmp : Word) (m : Mmc) (al : BitVec 4) (dst : List RDst) : Result :=
  let n := ty.width / 8
  if a.toNat % n ≠ 0 then .fault (faultAt 0x05 a)
  else match s.translate s.bank 2 a n with
    | .error t => .fault t
    | .ok l => match l with
      | [] => .ok s
      | p :: _ =>
        if !nonePatched l then .fault (faultAt 0x18 a)
        else .ok ((s.retTag al dst ty 0).atomicAccess p a n m (.rmw k ty x cmp al))

/-- The atomics of R299 on one address. -/
def atomicOp (k : Rmw) (h : Hdr) (ty : Fmt) (mm : MemOp) (c : SSrc) (o : Mmc) (al : BitVec 4) (s : State) : State :=
  s.issue ((Need.of h).addr mm |>.s c |>.tag al |>.globalMem) none fun s =>
    let (a, s) := s.readAddr mm
    let (x, s) := s.readS c
    s.cellAtomic k ty a x 0 o al (retDst c)

/-- The patch that an atomic names (R298): no patch, a REPL patch, a patch of another tensor; a paired patch takes no atomic (R259). -/
def State.atomicPatch (s : State) (p : Fin 4) (l : List Piece) (a : Word) : Except TrapInfo Name :=
  if !allPatched l then .error (faultAt 0x18 a)
  else match s.bank.p[p] with
    | none => .error (match s.bank.pGone[p] with
      | some n => { faultAt 0x15 a with name0 := n }
      | none => faultAt 0x14 a)
    | some n => match s.patch n with
      | none => .error { faultAt 0x15 a with name0 := n }
      | some x =>
        if x.delta.isNone then .error (faultAt 0x18 a)
        else if x.twin.isSome then .error { faultAt 0x17 a with name0 := n }
        else .ok n

/-- The checks of an atomic's write into a patch; where the seal has taken the bank's partial they are past, and the write is late (R261). -/
def State.atomicCheck (s : State) (n : Name) (l : List Piece) (a : Word) (bytes : List (Option Byte)) (ty : Fmt) : Option TrapInfo :=
  if s.tooLate n then none
  else match s.checkWrite n false (contributor s.focus.core s.focus.bank) (fun i => locAt l (a.toNat + i)) a bytes ty with
    | .error t => some t
    | .ok _ => none

/-- AADD (R299): through a patch it is one PatchWrite of one element, and `.ret` returns the open value after it. -/
def execAadd (h : Hdr) (ty : Fmt) (mm : MemOp) (c : SSrc) (o : StDst) (al : BitVec 4) (s : State) : Out :=
  .next (match o with
    | .mmc m => atomicOp .add h ty mm c m al s
    | .patch p => s.issue ((Need.of h).addr mm |>.s c |>.stDst o |>.tag al |>.globalMem) none fun s =>
      let (a, s) := s.readAddr mm
      let (x, s) := s.readS c
      let n := ty.width / 8
      if a.toNat % n ≠ 0 then .fault (faultAt 0x05 a)
      else match s.translate s.bank 2 a n with
        | .error t => .fault t
        | .ok l => match s.atomicPatch p l a with
          | .error t => .fault t
          | .ok name => match l, s.atomicCheck name l a ((leBytes n x.toNat).map some) ty with
            | _, some t => .fault t
            | [], none => .ok s
            | q :: _, none => .ok ((s.retTag al (retDst c) ty 0).atomicAccess q a n plainMmc (.patchAdd name ty x al)))

/-- AMIN (R299). -/
def execAmin (h : Hdr) (ty : Fmt) (mm : MemOp) (c : SSrc) (o : Mmc) (al : BitVec 4) (s : State) : Out :=
  .next (atomicOp .min h ty mm c o al s)
/-- AMAX (R299). -/
def execAmax (h : Hdr) (ty : Fmt) (mm : MemOp) (c : SSrc) (o : Mmc) (al : BitVec 4) (s : State) : Out :=
  .next (atomicOp .max h ty mm c o al s)
/-- AAND (R299). -/
def execAand (h : Hdr) (ty : Fmt) (mm : MemOp) (c : SSrc) (o : Mmc) (al : BitVec 4) (s : State) : Out :=
  .next (atomicOp .and h ty mm c o al s)
/-- AOR (R299). -/
def execAor (h : Hdr) (ty : Fmt) (mm : MemOp) (c : SSrc) (o : Mmc) (al : BitVec 4) (s : State) : Out :=
  .next (atomicOp .or h ty mm c o al s)
/-- AXOR (R299). -/
def execAxor (h : Hdr) (ty : Fmt) (mm : MemOp) (c : SSrc) (o : Mmc) (al : BitVec 4) (s : State) : Out :=
  .next (atomicOp .xor h ty mm c o al s)
/-- AXCHG (R299). -/
def execAxchg (h : Hdr) (ty : Fmt) (mm : MemOp) (c : SSrc) (o : Mmc) (al : BitVec 4) (s : State) : Out :=
  .next (atomicOp .xchg h ty mm c o al s)

/-- ACAS (R299): sD carries the expected value in and the old value out. -/
def execAcas (h : Hdr) (ty : Fmt) (d : Fin 64) (mm : MemOp) (c : SSrc) (al : BitVec 4) (s : State) : Out :=
  .next (s.issue ((Need.of h).addr mm |>.s c |>.s (.s d) |>.tag al |>.globalMem) none fun s =>
    let (a, s) := s.readAddr mm
    let (x, s) := s.readS c
    s.cellAtomic .cas ty a x (s.bank.getS d) plainMmc al [.reg (.s d)])

/-- Register 2p and 2p + 1 of a pair. -/
def pairRegs (p : Fin 32) : Fin 64 × Fin 64 := (⟨2 * p.val, by omega⟩, ⟨2 * p.val + 1, by omega⟩)

/-- ADCAS (R301). -/
def execAdcas (h : Hdr) (_ty : Fmt) (d : Fin 32) (a b : SSrc) (c : Fin 32) (al : BitVec 4) (s : State) : Out :=
  let (d0, d1) := pairRegs d
  let (c0, c1) := pairRegs c
  .next (s.issue ((Need.of h).s a |>.s b |>.s (.s d0) |>.s (.s d1) |>.s (.s c0) |>.s (.s c1) |>.tag al |>.globalMem) none fun s =>
    let (x, s) := s.readS a
    let (y, s) := s.readS b
    if x.toNat % 8 ≠ 0 then .fault (faultAt 0x05 x)
    else if y.toNat % 8 ≠ 0 || x = y then .fault (faultAt 0x05 y)
    else match s.translate s.bank 2 x 8, s.translate s.bank 2 y 8 with
      | .error t, .error u => .fault (if u.taddr.toNat < t.taddr.toNat then u else t)
      | .error t, _ => .fault t
      | _, .error t => .fault t
      | .ok l, .ok l2 => match l.head?.bind (fun p => p.seg), l2.head?.bind (fun p => p.seg) with
        | some g, some g2 =>
          if g.patched then .fault (faultAt 0x18 x)
          else if g2.patched then .fault (faultAt 0x18 y)
          else
            let b := s.bank
            .ok ((s.retTag al [.reg (.s d0), .reg (.s d1)] .n64 0).atomicAccess { addr := x.toNat, len := 8, seg := some g } x 8 plainMmc
              (.dcas .n64 (g2.loc y.toNat) g2.lease (b.getS d0) (b.getS d1) (b.getS c0) (b.getS c1) al))
        | none, _ => .fault (faultAt 0x18 x)
        | _, none => .fault (faultAt 0x18 y))

/-- AMOVE (R301). -/
def execAmove (h : Hdr) (ty : Fmt) (d : SDst) (a b : SSrc) (al : BitVec 4) (s : State) : Out :=
  .next (s.issue ((Need.of h).s a |>.s b |>.dTag d 30 |>.tag al |>.globalMem) none fun s =>
    let (x, s) := s.readS a
    let (y, s) := s.readS b
    let n := ty.width / 8
    if x.toNat % n ≠ 0 then .fault (faultAt 0x05 x)
    else if y.toNat % n ≠ 0 then .fault (faultAt 0x05 y)
    else match s.translate s.bank 2 x n, s.translate s.bank 2 y n with
      | .error t, .error u => .fault (if u.taddr.toNat < t.taddr.toNat then u else t)
      | .error t, _ => .fault t
      | _, .error t => .fault t
      | .ok l, .ok l2 => match l.head?.bind (fun p => p.seg), l2.head?.bind (fun p => p.seg) with
        | some g, some g2 =>
          if g.patched then .fault (faultAt 0x18 x)
          else if g2.patched then .fault (faultAt 0x18 y)
          else .ok ((s.retTag al [SDst.rdst d] ty 0).atomicAccess { addr := x.toNat, len := n, seg := some g } x n plainMmc
            (.move ty (g2.loc y.toNat) g2.lease al))
        | none, _ => .fault (faultAt 0x18 x)
        | _, none => .fault (faultAt 0x18 y))

/-- The vector registers of a row: one, or a pair. -/
def rowRegs (b : Bank) (c : VSrc) (pair : Bool) : List (Fin 64) :=
  match c with
  | .v r => if pair then [b.physV r, b.physV ⟨(r.val + 1) % 64, by omega⟩] else [b.physV r]
  | .port _ | .zero | .lane | .pts | .cycle => []

/-- What a row atomic needs: a pair reads the next vector register too (R300). -/
def rowNeed (h : Hdr) (a : SSrc) (pair : Bool) (c : VSrc) (o : StDst) (al : BitVec 4) : Need :=
  let n := (Need.ofV h).s a |>.v c |>.stDst o |>.tag al |>.globalMem
  match c, pair with
  | .v r, true => n.v (.v ⟨(r.val + 1) % 64, by omega⟩)
  | _, _ => n

/-- A row atomic (R300): its alignment, its target, and its destinations. -/
def rowAtomic (mx : Bool) (h : Hdr) (ty : Fmt) (a : SSrc) (off : BitVec 16) (pair : Bool) (c : VSrc) (o : StDst)
    (al : BitVec 4) (s : State) : State :=
  s.issue (rowNeed h a pair c o al) none fun s =>
    let x := s.vec ty c
    let x2 := match c, pair with
      | .v r, true => s.vec ty (.v ⟨(r.val + 1) % 64, by omega⟩)
      | _, _ => 0
    let lanes := s.bank.guardMask h
    let regs := (rowRegs s.bank c pair).map (fun r => RDst.reg (.v r))
    let (y, s) := s.readS a
    let ad := y + immSext off
    let n := if pair then 512 else 256
    if ad.toNat % n ≠ 0 then .fault (faultAt 0x05 ad)
    else match s.translate s.bank 2 ad n with
      | .error t => .fault t
      | .ok l => match l with
        | [] => .ok s
        | p :: _ =>
          let s := s.advancePorts [c]
          match o with
          | .mmc m =>
            if !nonePatched l then .fault (faultAt 0x18 ad)
            else .ok ((s.retTag al regs ty 0).atomicAccess p ad n m (.row mx ty x x2 lanes pair al))
          | .patch q => match s.atomicPatch q l ad with
            | .error t => .fault t
            | .ok name => match s.atomicCheck name l ad (rowBytes ty pair x x2 (rowActive ty pair lanes)) ty with
              | some t => .fault t
              | none => .ok ((s.retTag al regs ty 0).atomicAccess p ad n plainMmc (.patchRow mx name ty x x2 lanes pair al))

/-- ARADD (R300). -/
def execAradd (h : Hdr) (ty : Fmt) (a : SSrc) (off : BitVec 16) (pair : Bool) (c : VSrc) (o : StDst) (al : BitVec 4) (s : State) :
    Out := .next (rowAtomic false h ty a off pair c o al s)

/-- ARMAX (R300). -/
def execArmax (h : Hdr) (ty : Fmt) (a : SSrc) (off : BitVec 16) (pair : Bool) (c : VSrc) (o : StDst) (al : BitVec 4) (s : State) :
    Out := .next (rowAtomic true h ty a off pair c o al s)

end Sys2Proof.Machine
end

