-- ==== Sys2Proof/Machine/Names.lean ====
section
/-!
DEFINITION. The name words (R246 to R253), descriptors (R190), shoot-downs (R248), and the words that wait for a report from
outside the core (R276, R331).
-/
namespace Sys2Proof.Machine

/-! ## Words that hold their bank (R276, R331) -/

/-- A word whose completion is reported no earlier than `min` cycles after issue: the bank issues nothing until then. The word
is the one before the pc. -/
def State.hold (s : State) (min : Nat) (pc : BitVec 15) (t : Option TrapInfo) (writes : List (Reg × RVal)) : State :=
  let trap := t.map (fun t => t.held s.cycle)
  (s.modBank (fun b => { b with status := .held, holdWord := some { pc := pc, trap := trap, writes := writes, flags := 0 } })).postHere min
    .baseHomeReport

/-- The flags that a held word will raise when it completes (R48). -/
def Bank.holdFlags (b : Bank) (f : FlagSet) : Bank :=
  { b with holdWord := b.holdWord.map (fun (w : HeldWord) => ({ w with flags := w.flags ||| f } : HeldWord)) }

/-- A bank that was held goes on in the next cycle or later. -/
def Bank.resume (b : Bank) (cycle : Nat) : Bank :=
  { b with status := .running, holdWord := none, bound := Nat.max b.bound (cycle + 1) }

/-- A held word completes: its precise fault, or its interlocked destinations. -/
def State.report (s : State) : State :=
  match s.bank.holdWord with
  | none => s
  | some w =>
    let s := s.modBank (fun b => b.resume s.cycle)
    match w.trap with
    | some t =>
      let s := if loggedCode t.code then s.logHere t.code t.taddr (s.keyId s.bank) else s
      (s.modBank (fun b => { b with pc := w.pc }.takeTrap s.cycle false w.pc w.pc t.info)).afterTrap
    | none => s.modBank (fun b => (w.writes.foldl (fun b x => b.put (.reg x.1) x.2) b).completeFlags w.flags w.pc false)

/-- BASE_HOME_REPORT (R276): not before the journal records that the word waits for are durable (R373). -/
def execBaseHomeReport (s : State) : Out :=
  .next (if s.journalWaits.any (fun w => w.2.1 == s.focus.core && w.2.2.1 == s.focus.bank) then
    s.postAt (s.cycle + 1) s.focus.core s.focus.bank none .baseHomeReport
  else s.report)

/-! ## The name journal (R373) -/

/-- Some job on the module has an active checkpoint series. -/
def State.journaling (s : State) : Bool :=
  s.ckpts.any (fun c => match s.job c.job with
    | some j => j.state == .running
    | none => false)

/-- A record of the acting bank goes to the journal; what waits for it goes on once it is durable. -/
def State.journalRecord (s : State) (high : Option Nat) : State :=
  let id := s.journalNo
  ({ s with journalNo := id + 1, journalWaits := s.journalWaits ++ [(id, s.focus.core, s.focus.bank, high)] }).postHere 1
    (.journalDurable id)

/-- The death of a name at this home is journalled. -/
def State.journalDeath (s : State) (n : Name) : State :=
  if s.journaling && (s.awayHome n).isNone then { s with journal := s.journal ++ [n] }.journalRecord none else s

/-- The number of counters that a journalled high mark reserves. -/
def reserveStep : Nat := 2 ^ 20

/-- An issue at or above the journalled high mark waits for a new one. -/
def State.journalIssue (s : State) : State :=
  if s.journaling && s.mark ≥ s.journalMark then s.journalRecord (some (s.mark + reserveStep)) else s

/-- Whether the home of a base can issue a name. -/
def State.canIssueAt (s : State) (base : Name) : Bool :=
  match s.awayHome base with
  | none => s.canIssue
  | some m => (s.peer m).canIssue

/-- The home of a base issues a name and enters it (R241, R247). -/
def State.issueAt (s : State) (base : Name) (cls : BitVec 8) (b : Binding) : Name × State :=
  match s.awayHome base with
  | none =>
    let (n, s) := s.journalIssue.issueName cls
    (n, s.enterName n b (s.keyId s.bank))
  | some m =>
    let (n, p) := (s.peer m).issue cls
    (n, s.setPeer { p with table := p.table ++ [s.newEnt n b (s.keyId s.bank)] })

/-- JOURNAL_DURABLE (R373): what waited for the record goes on. -/
def execJournalDurable (id : Nat) (s : State) : Out :=
  .next (match s.journalWaits.find? (fun w => w.1 == id) with
    | none => s
    | some w =>
      let s := { s with journalWaits := s.journalWaits.filter (fun x => x.1 != id) }
      match w.2.2.2 with
      | none => s
      | some h => { s with journalMark := Nat.max s.journalMark h })

/-! ## Descriptors (R190) -/

/-- A little-endian field of a descriptor. -/
def field (d : List Byte) (lo n : Nat) : Nat := leNat ((d.drop lo).take n)

/-- The tensor that a descriptor gives under a bank's segments, if it breaks no rule of R190. -/
def Bank.tensorOf (b : Bank) (addr : Nat) (loc : Loc) (d : List Byte) : Option Tensor :=
  let fmt := Fmt.ofCode (BitVec.ofNat 4 (field d 24 1))
  let group := field d 25 1
  let flags := field d 26 1
  match b.segOf (field d 0 8) with
  | none => none
  | some g =>
    let t : Tensor :=
      { desc := addr, descLoc := loc, base := field d 0 8, rows := field d 8 4, cols := field d 12 4, pitch := field d 16 8
        fmt := fmt, group := group, autosquash := flags.testBit 0, pre := flags.testBit 1, paired := flags.testBit 2
        pad := BitVec.ofNat 32 (field d 28 4), aux := field d 32 8, auxpitch := field d 40 8
        twin := BitVec.ofNat 128 (field d 48 16), seg := g }
    let segEnd := (g.vbase + g.len) * segUnit
    let hasAux := fmt.isLog || fmt.isHalfStep
    let ok := field d 24 1 < 16 && field d 27 1 == 0 && flags < 8 && g.patched
      && (if fmt.isHalfStep then 1 ≤ group && group ≤ 3 else group == 0)
      && t.base % 256 == 0 && t.rows ≥ 1 && t.cols ≥ 1 && t.pitch % 32 == 0 && t.pitch ≥ t.rowBytes
      && t.base + (t.rows - 1) * t.pitch + t.rowBytes ≤ segEnd
      && (if hasAux then t.aux != 0 && t.auxpitch % 32 == 0 && g.vbase * segUnit ≤ t.aux
            && t.aux + (t.rows - 1) * t.auxpitch + t.auxBytes ≤ segEnd
          else t.aux == 0)
    if ok then some t else none

/-- Every view copy of a tensor's storage leaves the caches, when the tensor comes or goes. -/
def State.dropViews (s : State) (t : Tensor) : State :=
  let inside (l : Line) : Bool := (List.range 128).any (fun i => (t.place { lo := l.lo, nd := l.nd, q := l.no * 128 + i }).isSome)
  let lines := dedup ((s.slices.flatMap (fun p => p.2.lines)).filterMap (fun y => if y.view && inside y.line then some y.line else none))
  lines.foldl (fun s l => s.evictHome l) s

/-- The latest bytes of a CELL extent, brought to their homes; none while a transaction is under way. -/
def State.latest (s : State) (g : Seg) (a n : Nat) : Option (List Byte × State) :=
  let l := g.loc a
  let ls := (List.range ((l.q + n - 1) / 128 + 1 - l.q / 128)).map (fun i => ({ Loc.line l with no := l.q / 128 + i } : Line))
  if s.anyBusy ls then none
  else
    let s := if g.lease then s else ls.foldl (fun s x => s.share x) s
    some (s.homeBytes l n, s)

/-- Accesses of the acting bank's stream to an extent that are not yet performed. -/
def State.pendingOn (s : State) (l : Loc) (n : Nat) : Bool :=
  s.cur.accs.any (fun a => a.bank == s.focus.bank && a.eng.isNone && a.state != .performed && a.loc.lo == l.lo && a.loc.nd == l.nd
    && a.loc.q < l.q + n && l.q < a.loc.q + a.len)

/-! ## NNEW (R247) -/

/-- Issue a name for the acting bank and bind it: the result is written interlocked, 150 cycles later at the earliest; a
refused issue leaves the null name. -/
def State.newName (s : State) (d : Fin 16) (cls : BitVec 8) (b : Binding) (pc : BitVec 15) : State :=
  if !s.canIssue then
    let lat := 150 + s.delay
    s.tick.resultLocked (.reg (.n d)) (.name 0) lat
  else
    let waits := s.journaling && s.mark ≥ s.journalMark
    let s := s.journalIssue
    let (n, s) := s.issueName cls
    let s := s.enterName n b (s.keyId s.bank)
    if waits then s.hold 150 pc none [(.n d, .name n)]
    else
      let lat := 150 + s.delay
      s.tick.resultLocked (.reg (.n d)) (.name n) lat

/-- The CELL segment that begins at an address (R247). -/
def Bank.cellBase (b : Bank) (a : Word) : Bool :=
  match b.segOf a.toNat with
  | none => false
  | some g => !g.patched && g.vbase * segUnit == a.toNat

/-- NNEW (R247). -/
def execNnew (h : Hdr) (d : Fin 16) (f : NNewForm) (s : State) : Out :=
  let pc := s.bank.pc
  .next (match f with
    | .tensor a => s.issue ((Need.of h).s a |>.globalMem) none fun s =>
      let (x, s) := s.readS a
      if x.toNat % 64 ≠ 0 then .fault (faultAt 0x05 x)
      else if spaceOf x = .host then .fault (faultAt 0x18 x)
      else match s.bank.pieces 0 1 x.toNat (x.toNat + 64) with
        | .error t => .fault (match s.bank.segOf x.toNat with
          | some g => if g.patched then faultAt 0x18 x else t
          | none => t)
        | .ok l => match l.head?.bind (fun p => p.seg) with
          | none => .fault (faultAt 0x07 x)
          | some g =>
            if g.patched then .fault (faultAt 0x18 x)
            else if s.pendingOn (g.loc x.toNat) 64 then .stall
            else match s.latest g x.toNat 64 with
              | none => .stall
              | some (bytes, s) => match s.bank.tensorOf x.toNat (g.loc x.toNat) bytes with
                | none => .fault (faultAt 0x0C x)
                | some t => .ok ((s.dropViews t).newName d Cls.tensor (.tensor t) pc)
    | .cellseg a => s.issue ((Need.of h).s a) none fun s =>
      let (x, s) := s.readS a
      if s.bank.cellBase x then .ok (s.newName d Cls.cellseg (.cellseg x.toNat) pc) else .fault (faultAt 0x0C x)
    | .aliasName a => s.issue ((Need.of h).n a) none fun s =>
      let x := s.bank.readN a
      match s.resolveAs s.focus.core [Cls.tensor] x with
      | (.error t, _, _) => .fault t
      | (.ok _, _, s) => .ok (s.newName d Cls.aliasName (.aliasTo x) pc))

/-! ## NDEST (R248) -/

/-- The patches of a base, either half. -/
def State.patchesOf (s : State) (n : Name) : List Patch := s.patches.filter (fun p => (p.on n).isSome)

/-- Remove a patch from every chain. -/
def State.unchain (s : State) (n : Name) : State :=
  { s with chains := (s.chains.map (fun c => { c with names := c.names.filter (fun x => x != n) })).filter (fun c => !c.names.isEmpty) }

/-- The registers of a bank that hold a patch, or are to take it when a held word completes, are empty (R258). -/
def Bank.emptyReg (b : Bank) (n : Name) : Bank :=
  { b with
    p := b.p.map (fun x => if x == some n then none else x)
    holdWord := b.holdWord.map (fun (w : HeldWord) =>
      ({ w with writes := w.writes.filter (fun x => x.2 != .patchReg (some n)) } : HeldWord)) }

/-- Every register that holds a patch becomes empty, in every bank of every core (R258). -/
def State.emptyRegs (s : State) (n : Name) : State :=
  { s with cores := Sparse.mapVals (fun c => { c with bank0 := c.bank0.emptyReg n, bank1 := c.bank1.emptyReg n }) s.cores }

/-- A patch is DEAD (R255): its name is gone and no p register holds it. -/
def State.killPatch (s : State) (n : Name) : State :=
  let s := ((s.unchain n).removeName n).emptyRegs n
  { s with patches := s.patches.filter (fun p => p.name != n) }

/-- The registers of a bank that hold a patch, or are to take it, will meet a GONE name (R261). -/
def Bank.meetGone (b : Bank) (n : Name) : Bank :=
  let pending (d : Fin 4) : Bool := (b.holdWord.map (fun (w : HeldWord) => w.writes.contains (.p d, .patchReg (some n)))).getD false
  { b with pGone := Vector.ofFn (fun d => if b.p[d] == some n || pending d then some n else b.pGone[d]) }

/-- The joiners of a patch that its opener discards will meet a GONE name (R261); the opener's own registers are just empty. -/
def State.leaveGone (s : State) (n : Name) : State :=
  let s := s.modBank (fun b => b.emptyReg n)
  { s with cores := Sparse.mapVals (fun c => { c with bank0 := c.bank0.meetGone n, bank1 := c.bank1.meetGone n }) s.cores }

/-- A job has retired or failed. -/
def State.jobEnded (s : State) (j : Nat) : Bool :=
  match s.job j with
  | none => true
  | some x => x.state == .retired || x.state == .failed

/-- The largest grid distance from a die to any die of the module (R9). -/
def farthest (d : Nat) : Nat := maxNat 0 ((List.range 32).map (fun e => dieDist d e))

/-- The other modules to which a shoot-down goes (R248): those that have resolved the name where the home recorded them all, up to
eight, else every module of the map; and, seen from here, the home itself where that is another module. -/
def State.shootModules (s : State) (e : NameEnt) : List (BitVec 12) :=
  let l := if e.resolvers.length ≤ 8 then e.resolvers else s.homeMap.map (fun p => p.2)
  (dedup ((s.awayHome e.name).toList ++ l)).filter (fun m => m != s.moduleNo)

/-- The names of a TENSOR's sealed patches die with it (R248); what they contribute to its view stays until no access can read it. -/
def State.buryPatches (s : State) (e : NameEnt) : State :=
  match e.bind with
  | .tensor _ => (s.patchesOf e.name).foldl (fun (s : State) p => s.removeName p.name) s
  | .patch | .job _ | .checkpoint _ _ | .cellseg _ | .microcode _ _ _ | .savearea _ | .aliasTo _ => s

/-- A name dies at its home: the entry is removed, with the names of a TENSOR's sealed patches, and the shoot-down goes to every die of
this module and to the other modules (R248, R253). -/
def State.destroyName (s : State) (e : NameEnt) : State :=
  let n := e.name
  let home := Config.nameHomeDie n.toNat % 32
  let trip := s.homeTrip n
  let far := s.shootModules e
  let s := ((s.buryPatches e).removeName n).journalDeath n
  let early := s.cycle + 150 + 96 * farthest home + (far.map evnovTrip).sum
  let s := { s with dying := s.dying ++
    [{ ent := e, awaits := List.range 32 ++ far.map (fun m => 32 + m.toNat), waiter := some (s.focus.core, s.focus.bank), earliest := early }] }
  let s := (List.range 32).foldl (fun (s : State) d =>
    s.post (75 + trip + 48 * dieDist home d) none (d * 64) false none (.nameInvalidate n d)) s
  far.foldl (fun (s : State) m => s.postHere (150 + evnovTrip m) (.nameInvalidateAck n (32 + m.toNat))) s

/-- NDEST is complete: nothing can read a TENSOR's view any more, and its patches and the copies of its views are gone (R248, R253). -/
def State.endTensor (s : State) (e : NameEnt) : State :=
  match e.bind with
  | .tensor t => ((s.patchesOf e.name).foldl (fun (s : State) p => s.killPatch p.name) s).dropViews t
  | .patch | .job _ | .checkpoint _ _ | .cellseg _ | .microcode _ _ _ | .savearea _ | .aliasTo _ => s

/-- NDEST (R248): the bank waits for the shoot-down. -/
def execNdest (h : Hdr) (a : NSrc) (s : State) : Out :=
  let pc := s.bank.pc
  .next (s.issue ((Need.of h).n a) none fun s =>
    let x := s.bank.readN a
    match s.resolveAs s.focus.core [Cls.tensor, Cls.cellseg, Cls.aliasName] x with
    | (.error t, _, _) => .fault t
    | (.ok e, _, s') => match s.nameEnt x with
      | none => .fault (faultName 0x15 x)
      | some _ =>
        if e.keyid != s.keyId s.bank then
          .ok ((s.logHere 0x04 0 (s.keyId s.bank)).modBank (fun b => { b with pc := pc }) |>.trap (fault 0x04))
        else if (s.patchesOf x).any (fun p => p.state == .opened) then .fault (fault 0x14)
        else .ok ((s'.destroyName e).modBank (fun b =>
          { b with status := .held, holdWord := some { pc := pc, trap := none, writes := [], flags := 0 } })))

/-- NAME_INVALIDATE (R248): the name leaves a die's caches; the die acknowledges once every access made through the name is
performed. One that another module's home sends first says that it has removed the name (R242, R253). -/
def execNameInvalidate (n : Name) (die : Nat) (s : State) : Out :=
  let s : State := match s.awayHome n, s.nameEnt n with
    | some _, some e => { (s.buryPatches e).removeName n with
        dying := s.dying ++ [{ ent := e, awaits := List.range 32, waiter := none, earliest := s.cycle }] }
    | _, _ => s
  let here (p : Nat × Core) : Bool := p.1 / 64 == die
  let s := { s.modDie die (fun d => { d with names := d.names.filter (fun x => x != n) }) with
    cores := s.cores.map (fun (p : Nat × Core) => if here p then (p.1, { p.2 with names := p.2.names.filter (fun x => x != n) }) else p) }
  .next (if s.cores.any (fun p => here p && p.2.accs.any (fun a => a.name == n && a.state != .performed)) then
    s.postAt (s.cycle + 1) (die * 64) false none (.nameInvalidate n die)
  else s.post (75 + s.homeTrip n + 48 * dieDist (Config.nameHomeDie n.toNat % 32) die) none (die * 64) false none (.nameInvalidateAck n die))

/-- NAME_INVALIDATE_ACK (R248): with the last acknowledgement, and no sooner than its least time, the NDEST completes. -/
def execNameInvalidateAck (n : Name) (die : Nat) (s : State) : Out :=
  let s := { s with dying := s.dying.map (fun (d : Dying) => if d.ent.name == n then { d with awaits := d.awaits.filter (fun x => x != die) } else d) }
  .next (match s.dying.find? (fun d => d.ent.name == n && d.awaits.isEmpty) with
    | none => s
    | some d =>
      if s.cycle < d.earliest then s.postAt d.earliest (die * 64) false none (.nameInvalidateAck n die)
      else if s.journalWaits.any (fun w => d.waiter == some (w.2.1, w.2.2.1)) then
        s.postAt (s.cycle + 1) (die * 64) false none (.nameInvalidateAck n die)
      else
        let s := s.endTensor d.ent
        let s := { s with dying := s.dying.filter (fun x => x.ent.name != n) }
        match d.waiter with
        | none => s
        | some (core, bank) =>
          { s.modBankAt core bank (fun b => b.resume s.cycle) with gone := s.gone ++ [(n, (s.core core).pts)] })

/-! ## NRES, NCAS, NMOV, NCMP (R249 to R252) -/

/-- A tagged name or condition result that lands `min` cycles after issue or later. -/
def State.landReg (s : State) (al : BitVec 4) (r : Reg) (v : RVal) (min : Nat) : State := s.landLater al [.reg r] [v] min

/-- NRES (R249): what it resolves acquires an NCAS before it, or the end of an NDEST (R313, R319). -/
def execNres (h : Hdr) (d : Fin 16) (a : NSrc) (al : BitVec 4) (s : State) : Out :=
  .next (s.issue ((Need.of h).n a |>.dnTag d 4 |>.tag al |>.local) none fun s =>
    let x := s.bank.readN a
    let (r, lat, s) := s.resolve s.focus.core x
    match r with
    | .fault c => .fault (faultName c x)
    | .gone =>
      let s := match s.gone.find? (fun g => g.1 == x) with
        | none => s
        | some g => s.bumpPts s.focus.core g.2
      .ok (s.landReg al (.n d) (.name 0) lat)
    | .live e => match e.bind with
      | .aliasTo n => .ok ((s.bumpPts s.focus.core e.pts).landReg al (.n d) (.name n) lat)
      | .tensor _ | .patch | .job _ | .checkpoint _ _ | .cellseg _ | .microcode _ _ _ | .savearea _ =>
        .ok (s.landReg al (.n d) (.name x) lat))

/-- NCAS (R250). -/
def execNcas (h : Hdr) (d : Fin 8) (a b c : NSrc) (al : BitVec 4) (s : State) : Out :=
  .next (s.issue ((Need.of h).n a |>.n b |>.n c |>.dcTag d 4 |>.tag al |>.local) none fun s =>
    let x := s.bank.readN a
    let y := s.bank.readN b
    let z := s.bank.readN c
    match s.resolveAs s.focus.core [Cls.aliasName] x with
    | (.error t, _, _) => .fault t
    | (.ok e, lat, s) =>
      if z ≠ 0 && !Name.formed z then .fault (faultName 0x16 z)
      else if z ≠ 0 && Name.cls z ≠ Cls.tensor then .fault (faultName 0x17 z)
      else
        let ok := e.bind == .aliasTo y
        let p := s.cur.pts
        let s := if ok then s.modEnt x (fun f => { f with bind := .aliasTo z, pts := ptsMax f.pts p }) else s
        .ok (s.landReg al (.c d) (.cond ok) lat))

/-- NCMP (R252). -/
def execNcmp (h : Hdr) (d : Fin 8) (a b : NSrc) (s : State) : Out :=
  .next (s.issue ((Need.of h).n a |>.n b) none fun s =>
    .ok (s.resultLocked (.reg (.c d)) (.cond (s.bank.readN a == s.bank.readN b)) 1))

/-- The words of a name move between n registers, p registers and scalar pairs (R251). -/
def nmovReg (h : Hdr) (n : Need → Need) (f : State → State) (s : State) : State := s.issue (n (Need.of h)) none fun s => .ok (f s)

/-- The global target of NMOV.ld or NMOV.st: a CELL segment (R251). -/
def State.nameTarget (s : State) (perm : Nat) (a : Word) : Except TrapInfo Piece :=
  match s.translate s.bank perm a 16 with
  | .error t => .error t
  | .ok l => match l with
    | [] => .error (faultAt 0x07 a)
    | p :: _ => match p.seg with
      | none => .error (faultAt 0x18 a)
      | some g => if g.patched then .error (faultAt 0x18 a) else .ok p

/-- NMOV (R251); .row and .open read PATCHED segments only, which .ld does not take (R293; DEDUCED, log 22). A global load holds the bank's reads of nD until it lands, under a tag number that no program names. -/
def execNmov (h : Hdr) (f : NMovForm) (s : State) : Out :=
  .next (match f with
    | .nn d a => nmovReg h (fun n => n.n a) (fun s => s.resultLocked (.reg (.n d)) (.name (s.bank.readN a)) 1) s
    | .np d a => nmovReg h (fun n => n.p a) (fun s => s.resultLocked (.reg (.n d)) (.name ((s.bank.readP a).getD 0)) 1) s
    | .ns d a =>
      let (lo, hi) := pairRegs a
      nmovReg h (fun n => n.s (.s lo) |>.s (.s hi)) (fun s =>
        s.resultLocked (.reg (.n d)) (.name (s.bank.getS hi ++ s.bank.getS lo)) 1) s
    | .sn d a =>
      let (lo, hi) := pairRegs d
      nmovReg h (fun n => n.n a) (fun s =>
        let x := s.bank.readN a
        (s.resultLocked (.reg (.s lo)) (.word (x.extractLsb' 0 64)) 1).resultLocked (.reg (.s hi)) (.word (x.extractLsb' 64 64)) 1) s
    | .h slot a => nmovReg h (fun n => n.n a) (fun s => s.resultLocked (.handle slot) (.name (s.bank.readN a)) 1) s
    | .ld d mm o => s.issue ((Need.of h).addr mm |>.globalMem) none fun s =>
      let (a, s) := s.readAddr mm
      if a.toNat % 16 ≠ 0 then .fault (faultAt 0x05 a)
      else if spaceOf a = .window then
        match windowFault a.toNat 16 with
        | some t => .fault t
        | none =>
          let lat := 5 + s.delay
          if o.row || o.opn then .fault (faultAt 0x18 a)
          else if s.cur.streamWaits s.focus.bank a.toNat 16 then .stall
          else .ok ((s.touchLocal a.toNat 16).tick.resultLocked (.reg (.n d)) (.name (BitVec.ofNat 128 (s.localNat a.toNat 16))) lat)
      else match s.nameTarget 0 a with
        | .error t => .fault t
        | .ok p =>
          if o.row || o.opn then .fault (faultAt 0x18 a) else
          let k := s.kind o false
          .ok (s.modCur (fun c => c.addAll [fun w => k.access w p (a.toNat, 16) (.load .plain (.nameReg d))]))
    | .st mm c o => s.issue ((Need.of h).addr mm |>.n c |>.globalMem) none fun s =>
      let (a, s) := s.readAddr mm
      let bytes := leBytes 16 (s.bank.readN c).toNat
      if a.toNat % 16 ≠ 0 then .fault (faultAt 0x05 a)
      else if spaceOf a = .window then
        match windowFault a.toNat 16 with
        | some t => .fault t
        | none => .ok (s.storeLocal a.toNat bytes)
      else match s.nameTarget 1 a with
        | .error t => .fault t
        | .ok p => .ok (s.issueStore [{ p with len := 16 }] a.toNat o bytes (List.replicate 16 0xFF)))

end Sys2Proof.Machine
end

