-- ==== Sys2Proof/Machine/Patches.lean ====
section
/-!
DEFINITION. The patch words (R254 to R278): opening and joining, the seal, the chain operations, the fold, and the query.
-/
namespace Sys2Proof.Machine

/-! ## Sides, elements and sectors -/

/-- One half of a patch with the tensor it stands on. -/
structure Side where
  base : Name
  t : Tensor
  h : PHalf

/-- The halves of a patch whose bases live: the plain one, then the twin's. -/
def State.sides (s : State) (p : Patch) : List Side :=
  (p.half :: p.twin.toList).filterMap (fun h => (s.tensor h.base).map (fun t => { base := h.base, t := t, h := h }))

/-- A byte of a tensor's stack set. -/
def Tensor.at (t : Tensor) (q : Nat) : Loc := { lo := t.seg.dies.1, nd := t.seg.dies.2, q := q }

/-- The bytes of a row's unit that views and masks treat whole: an element, or one byte of the aux plane and of a 4-bit
format. -/
def Tensor.unitAt (t : Tensor) (q : Nat) : Nat :=
  match t.place (t.at q) with
  | none => 1
  | some p => if p.aux || t.fmt.width < 8 then 1 else t.fmt.width / 8

/-- Where the unit of a byte begins. -/
def Tensor.unitStart (t : Tensor) (q : Nat) : Nat :=
  match t.place (t.at q) with
  | none => q
  | some p => q - p.off % t.unitAt q

/-- The bytes or element starts that a half covers, rising. -/
def PHalf.keys (h : PHalf) : List Nat := h.payload.map (fun p => p.1) ++ h.deltas.map (fun p => p.1)

/-- The units that a half covers, by their first byte. -/
def Side.units (x : Side) : List Nat := dedup (x.h.keys.map x.t.unitStart)

/-- The sectors that a half covers, by their number, rising. -/
def Side.sectors (x : Side) : List Nat := dedup (x.h.keys.map (fun q => q / 32))

/-- The address at which a sector of a side's base begins. -/
def Side.addr (x : Side) (sec : Nat) : Nat := (x.t.virt (x.t.at (sec * 32))).getD 0

/-- Of some findings with their addresses, that of the lowest. -/
def lowest {α : Type} (l : List (Nat × α)) : Option α :=
  (l.foldl (fun (m : Option (Nat × α)) x => match m with
    | none => some x
    | some y => if x.1 < y.1 then some x else some y) none).map (fun x => x.2)

/-- The chain of a sector of a tensor's stack set. -/
def State.chainOf (s : State) (t : Tensor) (sec : Nat) : List Name := s.chain t.seg.dies.1 t.seg.dies.2 sec

/-- Replace the chain of a sector of a tensor's stack set. -/
def State.setChainOf (s : State) (t : Tensor) (sec : Nat) (l : List Name) : State :=
  s.setChain t.seg.dies.1 t.seg.dies.2 sec l

/-- The lines of some sectors. -/
def Tensor.linesOf (t : Tensor) (secs : List Nat) : List Line := dedup (secs.map (fun c => Loc.line (t.at (c * 32))))

/-- The names above one in a chain, lowest first. -/
def above (n : Name) : List Name → List Name
  | [] => []
  | x :: r => if x == n then r else above n r

/-- Whether a patch covers a unit of a base. -/
def State.coversUnit (s : State) (n base : Name) (u : Nat) : Bool :=
  match s.patch n with
  | none => false
  | some p => (s.sides p).any (fun x => x.base == base && x.units.contains u)

/-- A patch of a name is an ADD. -/
def State.isAdd (s : State) (n : Name) : Bool := ((s.patch n).bind (fun p => p.delta)).isSome

/-! ## What the words check first (R276, R277) -/

/-- The least completion time of a word served at a base home: each die hop costs 48 cycles each way (R276). -/
def State.atHome (s : State) (t : Tensor) (n : Nat) : Nat :=
  n + 96 * dieDist (dieOf s.focus.core) (Loc.home t.descLoc / 64)

/-- The first of some bases whose segment the bank may not patch (R277, R284). -/
def State.patchPerm (s : State) (l : List Tensor) : Option TrapInfo :=
  (l.find? (fun t => match s.bank.segOf t.base with
    | none => true
    | some g => !g.perm.getLsbD 3)).map (fun t => { faultAt 0x08 (BitVec.ofNat 64 t.base) with src := 5 })

/-- A fault decided away from the core (R276, R280): its names are the clashing pair of 0x10, the patch of 0x11 or the offending name of
0x15 to 0x17, and otherwise null (R122, R263). -/
def homeFault (code : BitVec 8) (a b : Name) : TrapInfo := { fault code with src := 5, name0 := a, name1 := b }

/-- A word that ends in a fault at its base home: the bank waits for the report (R276). -/
def State.homeTrap (s : State) (t : Tensor) (n : Nat) (pc : BitVec 15) (f : TrapInfo) : Result :=
  .ok (s.hold (s.atHome t n) pc (some { f with src := 5 }) [])

/-- Resolve a name operand that must be a live tensor (R244). -/
def State.asTensor (s : State) (n : Name) : Except TrapInfo Tensor × State :=
  let (r, _, s) := s.resolveAs s.focus.core [Cls.tensor] n
  (match r with
    | .error t => .error { t with src := 5 }
    | .ok e => match e.bind with
      | .tensor t => .ok t
      | .patch | .job _ | .checkpoint _ _ | .cellseg _ | .microcode _ _ _ | .savearea _ | .aliasTo _ =>
        .error (homeFault 0x17 n 0), s)

/-- Resolve a name operand that must be a live patch (R244). -/
def State.asPatch (s : State) (n : Name) : Except TrapInfo Patch × State :=
  let (r, _, s) := s.resolveAs s.focus.core [Cls.patch] n
  (match r with
    | .error t => .error { t with src := 5 }
    | .ok _ => match s.patch n with
      | none => .error (homeFault 0x15 n 0)
      | some p => .ok p, s)

/-- Some patches, on which a seal collects, hold a chain operation back. -/
def Patch.busy (p : Patch) : Bool := p.sealer.isSome

/-- The accesses that a chain operation waits for: the stream's own (R278), and transactions on the lines it changes. -/
def State.chainWaits (s : State) (ls : List Line) : Bool := s.cur.outstanding s.focus.bank != 0 || s.anyBusy ls

/-! ## Coherence of changed views (R307, R309, R319) -/

/-- Some sectors of a line's MOESI view copies are invalid, in every L1 and slice (R287, R307). -/
def State.spoilViews (s : State) (l : Line) (m : BitVec 4) : State :=
  { s with
    cores := Sparse.mapVals (fun c => c.modL1 l (fun x => if x.view && !x.lease then { x with valid := x.valid &&& ~~~m } else x)) s.cores
    slices := Sparse.mapVals (fun z => z.modLine l (fun y => if y.view && !y.lease then { y with valid := y.valid &&& ~~~m } else y)) s.slices }

/-- The sectors of a view change: MOESI view copies are invalidated, a leased copy takes its new times and leaves its slice;
the sectors carry the logical time of the bank that acts, whose pts rises to the new times, and with a seal that of the base's earlier
seals (R278). -/
def State.changeViews (s : State) (t : Tensor) (secs : List Nat) (core : Nat) (earlier : Option (BitVec 16)) : State :=
  let p := (s.core core).pts
  let s := (t.linesOf secs).foldl (fun (s : State) l =>
    if t.seg.lease then
      let x := s.homeSlice l
      let rts := match x.line l with
        | none => x.mts
        | some y => y.rts
      let w := ptsMax p (rts + 1)
      ((s.evictHome l).modHome l (fun x => { x with mts := ptsMax x.mts w })).bumpPts core w
    else s.spoilViews l ((secs.filter (fun c => Loc.line (t.at (c * 32)) == l)).foldl (fun m c => m ||| (1 <<< (c % 4))) 0)) s
  let carried := match earlier with
    | none => (s.core core).pts
    | some e => ptsMax (s.core core).pts e
  secs.foldl (fun s c => s.raiseStamp (t.at (c * 32)) carried) s

/-! ## Opening (R255, R256, R261, R274) -/

/-- The delta type, sharing and pre flag of an opening form. -/
def pkParts : PKind → Option Fmt × Bool × Bool
  | .repl => (none, false, false)
  | .replPre => (none, false, true)
  | .add d => (some d, false, false)
  | .sharedAdd d => (some d, true, false)

/-- An empty half. -/
def PHalf.empty (base : Name) : PHalf := { base := base, payload := [], deltas := [], pre := none, sealNo := 0 }

/-- A patch with nothing in it. -/
def Patch.blank (n base : Name) (twin : Option Name) (delta : Option Fmt) (shared pre : Bool) (who job : Nat) : Patch :=
  { name := n, delta := delta, shared := shared, preFlag := pre, state := .opened, opener := who, job := job
    half := .empty base, twin := twin.map PHalf.empty, partials := [], twinPartials := [], sealer := none, awaits := [], collected := []
    inverseOf := none, neg := false, pts := 0, inexact := false, foldinx := false }

/-- Create an OPEN patch for the acting bank, named in pD when the base home reports; no name can be issued, and pD stays
empty, where R247 refuses one. -/
def State.openPatch (s : State) (d : Fin 4) (base : Name) (twin : Option Name) (t : Tensor) (pre : Bool) (k : PKind)
    (pc : BitVec 15) : State :=
  let lat := s.atHome t 150
  if !s.canIssueAt base then s.hold lat pc none [(.p d, .patchReg none)]
  else
    let (delta, shared, pre') := pkParts k
    let (n, s) := s.issueAt base Cls.patch .patch
    let p := Patch.blank n base twin delta shared (pre' || (pre && delta.isNone)) (contributor s.focus.core s.focus.bank)
      (s.bank.job.getD 0)
    ({ s with patches := s.patches ++ [p] }).hold lat pc none [(.p d, .patchReg (some n))]

/-- A patch register that holds a patch cannot take another (R258). -/
def State.fullReg (s : State) (d : Fin 4) : Option TrapInfo := s.bank.p[d].map (fun n => faultName 0x14 n)

/-- PBEGIN (R255, R256, R275). -/
def execPbegin (h : Hdr) (d : Fin 4) (a : NSrc) (k : PKind) (s : State) : Out :=
  let pc := s.bank.pc
  .next (s.issue ((Need.of h).n a |>.p (.p d)) none fun s =>
    let x := s.bank.readN a
    match s.asTensor x with
    | (.error t, _) => .fault t
    | (.ok t, s) => match s.patchPerm [t] with
      | some f => .fault f
      | none => match s.fullReg d with
        | some f => .fault f
        | none =>
          if !kindAllowed t.fmt (pkParts k).1 then s.homeTrap t 150 pc (homeFault 0x13 0 0)
          else .ok (s.openPatch d x none t t.pre k pc))

/-- PPAIR (R274). -/
def execPpair (h : Hdr) (d : Fin 4) (a b : NSrc) (k : PKind) (s : State) : Out :=
  let pc := s.bank.pc
  .next (s.issue ((Need.of h).n a |>.n b |>.p (.p d)) none fun s =>
    let x := s.bank.readN a
    let y := s.bank.readN b
    match s.asTensor x with
    | (.error f, _) => .fault f
    | (.ok t, s) => match s.asTensor y with
      | (.error f, _) => .fault f
      | (.ok u, s) => match s.patchPerm [t, u] with
        | some f => .fault f
        | none => match s.fullReg d with
          | some f => .fault f
          | none =>
            let delta := (pkParts k).1
            if !kindAllowed t.fmt delta then s.homeTrap t 150 pc (homeFault 0x13 0 0)
            else if !kindAllowed u.fmt delta then s.homeTrap t 150 pc (homeFault 0x13 0 0)
            else if !(t.paired && u.paired && t.twin == y && u.twin == x && t.fmt == u.fmt) then
              s.homeTrap t 150 pc (homeFault 0x0C 0 0)
            else .ok (s.openPatch d x (some y) t (t.pre || u.pre) k pc))

/-- PJOIN (R261). -/
def execPjoin (h : Hdr) (d : Fin 4) (a : NSrc) (s : State) : Out :=
  let pc := s.bank.pc
  .next (s.issue ((Need.of h).n a |>.p (.p d)) none fun s =>
    let x := s.bank.readN a
    match s.asPatch x with
    | (.error f, _) => .fault f
    | (.ok p, s) => match s.patchPerm ((s.sides p).map (fun y => y.t)) with
      | some f => .fault f
      | none => match s.fullReg d with
        | some f => .fault f
        | none => match (s.sides p).head? with
          | none => .fault (homeFault 0x15 x 0)
          | some y =>
            if p.busy then .stall
            else if p.state != .opened || !p.shared || s.bank.p.toList.contains (some x) then
              s.homeTrap y.t 40 pc (homeFault 0x14 0 0)
            else .ok (s.hold (s.atHome y.t 40) pc none [(.p d, .patchReg (some x))]))

/-! ## The seal (R263) -/

/-- A job has a checkpoint series under way on this module (R370). -/
def State.inSeries (s : State) (job : Nat) : Bool := s.ckpts.any (fun c => c.job == job)

/-- Round a delta into its type; the flags are the seal's (R263). -/
def roundDelta (delta : Option Fmt) (d : BitVec 32) : BitVec 32 × FlagSet :=
  match delta with
  | some .bf16 =>
    let (n, f) := recode .f32 .bf16 d.toNat
    (BitVec.ofNat 32 (recode .bf16 .f32 n).1, f)
  | some _ | none => (d, 0)

/-- Round every delta of a half. -/
def PHalf.rounded (h : PHalf) (delta : Option Fmt) : PHalf × FlagSet :=
  ({ h with deltas := h.deltas.map (fun x => (x.1, (roundDelta delta x.2).1)) },
    h.deltas.foldl (fun f x => f ||| (roundDelta delta x.2).2) 0)

/-- The partials of one half of a shared patch combined in contributor order, with the flags of an integer's saturation (R80, R261). -/
def State.combineHalf (s : State) (p : Patch) (h : PHalf) : PHalf × FlagSet :=
  let qs := dedup ((p.partsOn h.base).flatMap (fun c => c.2.map (fun x => x.1)))
  let one (q : Nat) : BitVec 32 × FlagSet :=
    if s.intBase p then
      let (n, f) := finishInt .i32 true ((p.combinedI h.base q).getD 0)
      (BitVec.ofNat 32 n, f)
    else ((p.combinedF h.base q).getD 0, 0)
  ({ h with deltas := qs.foldl (fun (m : Sparse (BitVec 32)) q => Sparse.put m q (one q).1) h.deltas },
    qs.foldl (fun f q => f ||| (one q).2) 0)

/-- A shared patch with its partials combined in both halves (R80, R261, R274). -/
def State.combine (s : State) (p : Patch) : Patch × FlagSet :=
  let (h, f) := s.combineHalf p p.half
  match p.twin with
  | none => ({ p with half := h }, f)
  | some t =>
    let (u, g) := s.combineHalf p t
    ({ p with half := h, twin := some u }, f ||| g)

/-- The logical time that the seals of a base carry so far (R278, R319). -/
def State.sealTime (s : State) (base : Name) : Option (BitVec 16) := (s.sealPts.find? (fun x => x.1 == base)).map (fun x => x.2)

/-- The later of two times, of which any may be absent. -/
def laterOf (x y : Option (BitVec 16)) : Option (BitVec 16) :=
  match x, y with
  | some a, some b => some (ptsMax a b)
  | some a, none => some a
  | none, y => y

/-- A seal of a base carries a time from now on. -/
def State.raiseSealTime (s : State) (base : Name) (p : BitVec 16) : State :=
  { s with sealPts := s.sealPts.filter (fun x => x.1 != base) ++ [(base, p)] }

/-- The last seal number of a base. -/
def State.lastSeal (s : State) (base : Name) : Nat := ((s.seals.find? (fun x => x.1 == base)).map (fun x => x.2)).getD 0

/-- Give a base its next seal number (R254). -/
def State.takeSeal (s : State) (base : Name) : Nat × State :=
  let n := s.lastSeal base + 1
  (n, { s with seals := s.seals.filter (fun x => x.1 != base) ++ [(base, n)] })

/-- The view of every byte that a half covers, as it stands (R263). -/
def State.preImage (s : State) (x : Side) : Sparse Byte :=
  x.h.payload.map (fun p => (p.1, (s.viewByte (x.t.at p.1) .plain).1))

/-! ## The fold (R270, R372) -/

/-- The chains with no patches but some. -/
def State.only (s : State) (names : List Name) : State :=
  { s with chains := s.chains.map (fun c => { c with names := c.names.filter (fun n => names.contains n) }) }

/-- Whether a fold of ADDs rounds an element inexactly (R270). -/
def State.foldRounds (s : State) (x : Side) (u : Nat) : Bool :=
  if !x.t.fmt.isFlt then false
  else
    let c := s.covering x.base (x.t.at u) (x.t.unitAt u) none
    let up := (topRepl c).2
    let adds := cancelPairs up.length (sortPatches up)
    let start := recode x.t.fmt .f32 (s.stored (x.t.at u) (x.t.unitAt u) c)
    let (v, f) := adds.foldl (fun (a : BitVec 32 × FlagSet) y =>
      let (z, g) := addF32 a.1 (deltaF y.1 (y.2.delta u))
      (z, a.2 ||| g)) (BitVec.ofNat 32 start.1, start.2)
    !adds.isEmpty && (f ||| (recode .f32 x.t.fmt v.toNat).2) &&& Flag.inx != 0

/-- The last durable mark of a job for a base (R372). -/
def State.durableMark (s : State) (job : Nat) (base : Name) : Nat :=
  (s.ckpts.filter (fun c => c.job == job && c.durable)).foldl (fun m c =>
    c.marks.foldl (fun m x => if x.1 == base then Nat.max m x.2 else m) m) 0

/-- A fold of the base waits for a checkpoint shard that is still being written (R270). -/
def State.shardBusy (s : State) (base : Name) : Bool :=
  s.ckpts.any (fun c => !c.durable && c.marks.any (fun x => x.1 == base))

/-- The sealed patches of a base up to a seal number, in ascending seal number. -/
def State.upTo (s : State) (base : Name) (k : Nat) : List Patch :=
  (s.patchesOf base).filter (fun p => p.state == .sealed && match p.on base with
    | none => false
    | some h => h.sealNo ≤ k)

/-- Write the folded values of one side's units, from a state whose chains hold the folded patches alone. -/
def State.foldSide (s from_ : State) (x : Side) : State :=
  let s := x.units.foldl (fun (s : State) u =>
    let w := x.t.unitAt u
    s.hbmWrite (x.t.at u) (leBytes w (from_.viewElem x.base x.t.fmt w (x.t.at u) .plain).1)) s
  { s with dirtyPages := dedup (s.dirtyPages ++ x.sectors.map (fun c => (x.t.seg.dies.1, x.t.seg.dies.2, c / 128))) }

/-- A patch that a fold would pass: in the lowest-addressed such sector a folded patch, and the lowest patch outside the fold that stands
below it, covers an element of it and does not commute with it. On the base itself there is none (R270); the twin's chain can hold one
(R274). -/
def State.foldClash (s : State) (ps : List Patch) : Option (Name × Name) :=
  let names := ps.map (fun p => p.name)
  lowest (ps.flatMap (fun p => (s.sides p).flatMap (fun x => x.sectors.filterMap (fun c =>
    let us := x.units.filter (fun u => u / 32 == c)
    (((s.chainOf x.t c).takeWhile (fun n => n != p.name)).find? (fun n => !names.contains n && !(p.delta.isSome && s.isAdd n)
      && us.any (fun u => s.coversUnit n x.base u))).map (fun n => (x.addr c, p.name, n))))))

/-- Fold some sealed patches for a core, both halves of a paired one, into their bases' stored values: the number of sectors folded. -/
def State.foldPatches (s : State) (core : Nat) (base : Name) (ps : List Patch) : Nat × State :=
  let names := ps.map (fun p => p.name)
  let sides := ps.flatMap s.sides
  let secs (x : Side) : List (Nat × Nat × Nat) := x.sectors.map (fun c => (x.t.seg.dies.1, x.t.seg.dies.2, c))
  let all := dedup (sides.flatMap secs)
  let keep := ps.any (fun p => s.inSeries p.job && match p.on base with
    | none => false
    | some h => h.sealNo > s.durableMark p.job base)
  let undo : Undo :=
    { covered := none, base := base
      prior := all.flatMap (fun c => (List.range 32).map (fun i =>
        let l : Loc := { lo := c.1, nd := c.2.1, q := c.2.2 * 32 + i }
        (l, s.hbmByte l)))
      chains := s.chains.filter (fun c => all.contains (c.lo, c.nd, c.sec))
      patches := ps }
  let before := s.only names
  let s := sides.foldl (fun (s : State) x => s.changeViews x.t x.sectors core none) s
  let s := sides.foldl (fun (s : State) x => s.foldSide before x) s
  let freed (h : PHalf) : PHalf := { h with payload := [], pre := none }
  let rounds (p : Patch) : Bool := p.delta.isSome && (s.sides p).any (fun x => x.units.any (before.foldRounds x))
  let s := names.foldl (fun (s : State) n => s.unchain n) s
  (all.length, { s with
    undos := if keep then s.undos ++ [undo] else s.undos
    patches := s.patches.map (fun p =>
      if names.contains p.name then
        { p with state := .squashed, half := freed p.half, twin := p.twin.map freed, foldinx := rounds p }
      else p) })

/-- The full sectors that a half would be placed above (R263). -/
def State.fullSectors (s : State) (x : Side) : List Nat := x.sectors.filter (fun c => (s.chainOf x.t c).length ≥ 255)

/-- Whether folding a base's patches up to a seal number leaves room in every full sector. -/
def State.leavesRoom (s : State) (x : Side) (k : Nat) : Bool :=
  let gone := (s.upTo x.base k).map (fun p => p.name)
  (s.fullSectors x).all (fun c => ((s.chainOf x.t c).filter (fun n => !gone.contains n)).length ≤ 254)

/-- Insert a number in rising order. -/
def insertNat (x : Nat) : List Nat → List Nat
  | [] => [x]
  | y :: r => if x < y then x :: y :: r else y :: insertNat x r

/-- Numbers in rising order. -/
def sortNat : List Nat → List Nat
  | [] => []
  | x :: r => insertNat x (sortNat r)

/-- The seal numbers of a base's sealed patches, rising. -/
def State.sealNos (s : State) (base : Name) : List Nat :=
  sortNat ((s.patchesOf base).filterMap (fun p => if p.state == .sealed then (p.on base).map (fun h => h.sealNo) else none))

/-- Autosquash (R263): the shortest prefix of seals whose fold leaves room; none where a chain is full and stays full, or a paired patch
of the prefix cannot be folded on its twin (R274). -/
def State.makeRoom (s : State) (core : Nat) (x : Side) : Option State :=
  if (s.fullSectors x).isEmpty then some s
  else if !x.t.autosquash then none
  else match (s.sealNos x.base).find? (fun k => s.leavesRoom x k) with
    | none => none
    | some k =>
      let ps := s.upTo x.base k
      if (s.foldClash ps).isSome then none else some (s.foldPatches core x.base ps).2

/-- Room above every side of a patch. -/
def State.makeRooms (s : State) (core : Nat) : List Side → Option State
  | [] => some s
  | x :: r => match s.makeRoom core x with
    | none => none
    | some s => s.makeRooms core r

/-- The lines that sealing a patch may change: its own, and where a chain is full those of every patch of the base. -/
def State.sealLines (s : State) (sides : List Side) : List Line :=
  sides.flatMap (fun x => x.t.linesOf x.sectors ++
    if (s.fullSectors x).isEmpty then []
    else ((s.patchesOf x.base).flatMap s.sides).flatMap (fun y => y.t.linesOf y.sectors))

/-- A seal that must fold waits for a checkpoint shard (R270). -/
def State.sealWaits (s : State) (sides : List Side) : Bool :=
  sides.any (fun x => !(s.fullSectors x).isEmpty && x.t.autosquash && s.shardBusy x.base)

/-- Place a half at the head of the chain of each sector it covers. -/
def State.append (s : State) (n : Name) (x : Side) : State :=
  x.sectors.foldl (fun (s : State) c => s.setChainOf x.t c (s.chainOf x.t c ++ [n])) s

/-- Seal a patch whose payload is gathered, for a core: room, pre-image, number, state and chains (R263). None where a chain
is full. -/
def State.sealPatch (s : State) (p : Patch) (core : Nat) : Option State :=
  match s.makeRooms core (s.sides p) with
  | none => none
  | some s =>
    let takes := p.delta.isNone && (p.preFlag || s.inSeries p.job)
    let image (h : PHalf) : PHalf := match (s.sides p).find? (fun x => x.base == h.base) with
      | none => h
      | some x => if takes then { h with pre := some (s.preImage x) } else h
    let sides := s.sides p
    let p := { p with half := image p.half, twin := p.twin.map image }
    let s := sides.foldl (fun (s : State) x => s.changeViews x.t x.sectors core
      (sides.foldl (fun e y => laterOf e (s.sealTime y.base)) none)) s
    let carried := sides.foldl (fun e y => laterOf e (s.sealTime y.base)) (some (s.core core).pts)
    let time := carried.getD (s.core core).pts
    let s := sides.foldl (fun (s : State) x => s.raiseSealTime x.base time) s
    let (k, s) := s.takeSeal p.half.base
    let (k2, s) := match p.twin with
      | none => (0, s)
      | some h => s.takeSeal h.base
    let p := { p with
      state := .sealed, half := { p.half with sealNo := k }, twin := p.twin.map (fun h => { h with sealNo := k2 })
      partials := [], twinPartials := [], sealer := none, awaits := [], collected := [], pts := time }
    let s := sides.foldl (fun (s : State) x => s.append p.name x) s
    some ((if (s.patch p.name).isSome then s.modPatch p.name (fun _ => p) else { s with patches := s.patches ++ [p] }).emptyRegs
      p.name)

/-- The sectors that a patch covers. -/
def State.coverage (s : State) (p : Patch) : Nat := ((s.sides p).map (fun x => x.sectors.length)).sum

/-- A patch with its deltas rounded, and the flags. -/
def Patch.rounded (p : Patch) : Patch × FlagSet :=
  let (h, f) := p.half.rounded p.delta
  match p.twin with
  | none => ({ p with half := h }, f)
  | some x =>
    let (y, g) := x.rounded p.delta
    ({ p with half := h, twin := some y }, f ||| g)

/-- Report the end of a seal to its bank, with fault 0x11 where a chain was full. -/
def State.sealReport (s : State) (core : Nat) (bank : Bool) (full : Option Name) (min : Nat) : State :=
  let s := match full with
    | none => s
    | some n =>
      let t : ImpTrap := { code := 0x11, src := 5, taddr := 0, detail := 0, mpc := 0, aflags := 0, name0 := n, name1 := 0
                           arrived := s.cycle }
      s.modBankAt core bank (fun b => { b with holdWord := b.holdWord.map (fun (w : HeldWord) => ({ w with trap := some t } : HeldWord)) })
  s.post min none core bank none .baseHomeReport

/-- PARTIAL_COLLECT (R261): a contributor's partial is taken as it stands; with the last one the seal is performed. -/
def execPartialCollect (n : Name) (c : Nat) (s : State) : Out :=
  .next (match s.patch n with
    | none => s
    | some p => match p.sealer with
      | none => s
      | some (core, bank) =>
        if !p.awaits.contains c then s
        else
          let s := s.modPatch n (fun p => { p with awaits := p.awaits.filter (fun x => x != c), collected := p.collected ++ [c] })
          if p.awaits.any (fun x => x != c) then s
          else
            let (q, f) := s.combine p
            let (q, g) := q.rounded
            if s.anyBusy (s.sealLines (s.sides q)) || s.sealWaits (s.sides q) then
              (s.modPatch n (fun p => { p with awaits := [c], collected := p.collected.filter (fun x => x != c) })).postAt
                (s.cycle + 1) s.focus.core s.focus.bank none (.partialCollect n c)
            else match s.sealPatch q core with
              | none =>
                let s := s.modPatch n (fun p => { p with sealer := none, awaits := [], collected := [] })
                (if s.jobEnded p.job then s.killPatch n else s).sealReport core bank (some n) 1
              | some s => (s.modBankAt core bank (fun b => b.holdFlags (f ||| g))).sealReport core bank none (1 + (s.coverage q + 3) / 4))

/-- PSEAL (R263): the seal of a shared patch first collects the partials; the bank waits for the report (R276). -/
def execPseal (h : Hdr) (a : PSrc) (s : State) : Out :=
  let pc := s.bank.pc
  .next (s.issue ((Need.of h).p a) none fun s =>
    match (s.bank.readP a).bind s.patch with
    | none => .fault (faultName 0x14 0)
    | some p => match s.patchPerm ((s.sides p).map (fun y => y.t)) with
      | some f => .fault f
      | none => match (s.sides p).head? with
        | none => .fault (homeFault 0x15 p.name 0)
        | some y =>
          if p.state != .opened then s.homeTrap y.t 40 pc (homeFault 0x14 0 0)
          else if p.shared then
            if p.busy || s.cur.outstanding s.focus.bank != 0 then .stall
            else
              let cs := dedup (contributor s.focus.core s.focus.bank :: (p.partials ++ p.twinPartials).map (fun x => x.1))
              let s := s.modPatch p.name (fun p => { p with sealer := some (s.focus.core, s.focus.bank), awaits := cs })
              let s := s.modBank (fun b => { b with status := .held, holdWord := some { pc := pc, trap := none, writes := [], flags := 0 } })
              .ok (cs.foldl (fun (s : State) c =>
                if c < savedBase then s.post (s.atHome y.t 39) none (c / 2) (c % 2 == 1) none (.partialCollect p.name c)
                else s.postHere (s.atHome y.t 39) (.partialCollect p.name c)) s)
          else
            let (q, f) := p.rounded
            if s.chainWaits (s.sealLines (s.sides q)) || s.sealWaits (s.sides q) then .stall
            else
              let lat := s.atHome y.t (40 + (s.coverage q + 3) / 4)
              match s.sealPatch q s.focus.core with
              | none => s.homeTrap y.t 40 pc (homeFault 0x11 p.name 0)
              | some s => .ok ((s.hold lat pc none []).modBank (fun b => b.holdFlags f)))

/-! ## PABORT (R261, R272) -/

/-- PABORT: the opener discards the patch, a joiner withdraws its partial. -/
def execPabort (h : Hdr) (a : PSrc) (s : State) : Out :=
  let pc := s.bank.pc
  .next (s.issue ((Need.of h).p a) none fun s =>
    match (s.bank.readP a).bind s.patch with
    | none => .fault (faultName 0x14 0)
    | some p => match s.patchPerm ((s.sides p).map (fun y => y.t)) with
      | some f => .fault f
      | none => match (s.sides p).head? with
        | none => .fault (homeFault 0x15 p.name 0)
        | some y =>
          let who := contributor s.focus.core s.focus.bank
          let lat := s.atHome y.t 40
          if p.busy || s.chainWaits [] then .stall
          else if p.opener == who then .ok (((s.leaveGone p.name).killPatch p.name).hold lat pc none [])
          else
            let s := s.modPatch p.name (fun p =>
              { p with partials := Sparse.erase p.partials who, twinPartials := Sparse.erase p.twinPartials who })
            let s := s.modBank (fun b => b.emptyReg p.name)
            .ok (s.hold lat pc none []))

/-- Patches that a job's end leaves OPEN become DEAD (R255); one whose seal has begun is sealed first, or dies where that seal fails. -/
def State.killOpenOf (s : State) (job : Nat) : State :=
  (s.patches.filter (fun p => p.state == .opened && p.job == job && !p.busy)).foldl (fun (s : State) p => s.killPatch p.name) s

/-! ## PCOMM (R267) -/

/-- The first of two conflicts in a sector: a patch that stands between, or overlap of patches that are not both ADD. -/
def State.commClash (s : State) (x y : Side) (p q : Patch) (sec : Nat) : Option (Name × Name) :=
  let c := s.chainOf x.t sec
  let up := above p.name c
  let between := if up.contains q.name then up.takeWhile (fun n => n != q.name)
    else (above q.name c).takeWhile (fun n => n != p.name)
  match between with
  | n :: _ => some (p.name, n)
  | [] =>
    let inSec (u : Nat) : Bool := u / 32 == sec
    if (x.units.filter inSec).any (fun u => y.units.contains u) && !(p.delta.isSome && q.delta.isSome) then some (p.name, q.name)
    else none

/-- The sectors that two sides share, rising. -/
def shared (x y : Side) : List Nat := sortNat (x.sectors.filter (fun c => y.sectors.contains c))

/-- The first element of a list with a value. -/
def firstSome {α β : Type} (f : α → Option β) : List α → Option β
  | [] => none
  | x :: r => match f x with
    | some y => some y
    | none => firstSome f r

/-- The pairs of sides of two patches on one base. -/
def State.sidePairs (s : State) (p q : Patch) : List (Side × Side) :=
  (s.sides p).flatMap (fun x => ((s.sides q).filter (fun y => y.base == x.base)).map (fun y => (x, y)))

/-- Exchange two names. -/
def swapNames (a b n : Name) : Name := if n == a then b else if n == b then a else n

/-- PCOMM (R267). -/
def execPcomm (h : Hdr) (a b : NSrc) (s : State) : Out :=
  let pc := s.bank.pc
  .next (s.issue ((Need.of h).n a |>.n b) none fun s =>
    match s.asPatch (s.bank.readN a) with
    | (.error f, _) => .fault f
    | (.ok p, s) => match s.asPatch (s.bank.readN b) with
      | (.error f, _) => .fault f
      | (.ok q, s) => match s.patchPerm ((s.sides p ++ s.sides q).map (fun y => y.t)) with
        | some f => .fault f
        | none => match (s.sides p).head? with
          | none => .fault (homeFault 0x15 p.name 0)
          | some z =>
            let pairs := s.sidePairs p q
            if p.busy || q.busy || s.chainWaits [] then .stall
            else if p.state != .sealed then s.homeTrap z.t 40 pc (homeFault 0x14 0 0)
            else if q.state != .sealed || pairs.isEmpty then s.homeTrap z.t 40 pc (homeFault 0x14 0 0)
            else if p.name == q.name then .ok (s.hold (s.atHome z.t 40) pc none [])
            else match lowest (pairs.flatMap (fun z => (shared z.1 z.2).filterMap (fun c =>
                (s.commClash z.1 z.2 p q c).map (fun m => (z.1.addr c, m))))) with
              | some (m, n) => s.homeTrap z.t 40 pc (homeFault 0x10 m n)
              | none =>
                let swap (s : State) (x : Side) (c : Nat) : State :=
                  (s.setChainOf x.t c ((s.chainOf x.t c).map (swapNames p.name q.name))).raiseStamp (x.t.at (c * 32)) s.cur.pts
                let s := pairs.foldl (fun (s : State) z => (shared z.1 z.2).foldl (fun (s : State) c => swap s z.1 c) s) s
                .ok (s.hold (s.atHome z.t 40) pc none []))

/-! ## PINV (R268) -/

/-- The lowest patch above one, of a kind, that covers a unit it covers: the lowest-addressed sector decides. -/
def State.coverAbove (s : State) (p : Patch) (sides : List Side) (bad : Name → Bool) : Option Name :=
  lowest (sides.flatMap (fun x => x.sectors.filterMap (fun c =>
    let us := x.units.filter (fun u => u / 32 == c)
    ((above p.name (s.chainOf x.t c)).find? (fun n => bad n && us.any (fun u => s.coversUnit n x.base u))).map (fun n => (x.addr c, n)))))

/-- An inverse of a patch that is not DEAD. -/
def State.inverse (s : State) (n : Name) : Option Patch := s.patches.find? (fun p => p.inverseOf == some n)

/-- What keeps a patch from having an inverse now (R268). -/
def State.invClash (s : State) (p : Patch) : Option TrapInfo :=
  if p.state == .opened || (s.inverse p.name).isSome then some (homeFault 0x14 0 0)
  else match p.delta, p.state with
    | none, .sealed =>
      if (p.half :: p.twin.toList).any (fun h => h.pre.isNone) then some (homeFault 0x12 0 0)
      else (s.coverAbove p (s.sides p) (fun _ => true)).map (fun n => homeFault 0x10 p.name n)
    | none, _ => some (homeFault 0x12 0 0)
    | some _, .sealed =>
      (s.coverAbove p (s.sides p) (fun n => !s.isAdd n)).map (fun n => homeFault 0x10 p.name n)
    | some _, _ => none

/-- The inverse of a patch under a name, not yet sealed (R268). -/
def Patch.inverted (p : Patch) (n : Name) (who job : Nat) : Patch :=
  let flip (h : PHalf) : PHalf := { h with payload := if p.delta.isNone then h.pre.getD [] else [], pre := none, sealNo := 0 }
  { p with
    name := n, shared := false, preFlag := true, state := .opened, opener := who, job := job, half := flip p.half
    twin := p.twin.map flip, partials := [], twinPartials := [], inverseOf := some p.name, neg := !p.neg
    inexact := p.delta.isSome && p.state == .squashed, foldinx := false }

/-- A chain is full where a half is to be placed, and cannot be squashed (R263). -/
def State.stuckFull (s : State) (sides : List Side) : Bool := (s.makeRooms s.focus.core sides).isNone

/-- A patch that a word creates already sealed takes its name and place; nD is written when the home reports. -/
def State.createSealed (s : State) (d : Fin 16) (make : Name → Patch) (base : Name) (t : Tensor) (pc : BitVec 15) : State :=
  let lat := s.atHome t 150
  if !s.canIssueAt base then s.hold lat pc none [(.n d, .name 0)]
  else
    let (n, s) := s.issueAt base Cls.patch .patch
    ((s.sealPatch (make n) s.focus.core).getD s).hold lat pc none [(.n d, .name n)]

/-- PINV (R268). -/
def execPinv (h : Hdr) (d : Fin 16) (a : NSrc) (s : State) : Out :=
  let pc := s.bank.pc
  .next (s.issue ((Need.of h).n a) none fun s =>
    match s.asPatch (s.bank.readN a) with
    | (.error f, _) => .fault f
    | (.ok p, s) => match s.patchPerm ((s.sides p).map (fun y => y.t)) with
      | some f => .fault f
      | none => match (s.sides p).head? with
        | none => .fault (homeFault 0x15 p.name 0)
        | some z =>
          let lines := s.sealLines (s.sides p)
          if p.busy || s.chainWaits lines || s.sealWaits (s.sides p) then .stall
          else match s.invClash p with
            | some f => s.homeTrap z.t 150 pc f
            | none =>
              if s.stuckFull (s.sides p) then s.homeTrap z.t 150 pc (homeFault 0x11 p.name 0)
              else
                let make (n : Name) : Patch := p.inverted n (contributor s.focus.core s.focus.bank) (s.bank.job.getD 0)
                let s := s.createSealed d make z.base z.t pc
                .ok (if p.state == .squashed && p.foldinx then s.modBank (fun b => b.holdFlags Flag.inx) else s))

/-! ## PXPL (R269) -/

/-- A byte or element start of one tensor moved to another by a row and a column offset; none outside it. -/
def moveUnit (t u : Tensor) (dr dc : Int) (add : Bool) (q : Nat) : Option Nat :=
  match t.place (t.at q) with
  | none => none
  | some p =>
    let row := (p.row : Int) + dr
    let (off, lim) : Int × Nat :=
      if p.aux then ((p.off : Int) + dc / (t.auxUnit.2 : Int) * (t.auxUnit.1 : Int), u.auxBytes)
      else if add then
        (((p.off / (t.fmt.width / 8) : Nat) + dc) * ((u.fmt.width / 8 : Nat) : Int), u.rowBytes)
      else ((p.off : Int) + dc * (t.fmt.width : Int) / 8, u.rowBytes)
    if row < 0 || off < 0 || row.toNat ≥ u.rows || off.toNat ≥ lim then none
    else some (u.phys (u.addr { aux := p.aux, row := row.toNat, off := off.toNat }))

/-- A list moved whole, or none. -/
def moveAll {α : Type} (f : Nat → Option Nat) : Sparse α → Option (Sparse α)
  | [] => some []
  | (q, x) :: r => match f q, moveAll f r with
    | some y, some m => some (Sparse.put m y x)
    | _, _ => none

/-- The column offset fits the format's blocks (R269). -/
def colFits (t : Tensor) (dc : Int) : Bool :=
  if t.fmt.isHalfStep then dc % (t.auxUnit.2 : Int) == 0 && (t.fmt.width != 4 || dc % 2 == 0)
  else if t.fmt.isLog then dc % 32 == 0
  else true

/-- The half that a transplant puts on its new base; none where the region does not fit. -/
def PHalf.moved (h : PHalf) (t u : Tensor) (base : Name) (dr dc : Int) : Option PHalf :=
  match moveAll (moveUnit t u dr dc false) h.payload, moveAll (moveUnit t u dr dc true) h.deltas with
  | some m, some d => some { base := base, payload := m, deltas := d, pre := none, sealNo := 0 }
  | _, _ => none

/-- The lowest patch above one in any of its sectors that does not commute with it. -/
def State.fixed (s : State) (p : Patch) (x : Side) : Option Name :=
  s.coverAbove p [x] (fun n => !(p.delta.isSome && s.isAdd n))

/-- PXPL (R269). -/
def execPxpl (h : Hdr) (d : Fin 16) (a b : NSrc) (c : SSrc) (mv : Bool) (s : State) : Out :=
  let pc := s.bank.pc
  .next (s.issue ((Need.of h).n a |>.n b |>.s c) none fun s =>
    let y := s.bank.readN b
    let (w, s) := s.readS c
    let dr := (w.extractLsb' 32 32).toInt
    let dc := (w.extractLsb' 0 32).toInt
    match s.asPatch (s.bank.readN a) with
    | (.error f, _) => .fault f
    | (.ok p, s) => match s.asTensor y with
      | (.error f, _) => .fault f
      | (.ok u, s) => match s.patchPerm ((s.sides p).map (fun z => z.t) ++ [u]) with
        | some f => .fault f
        | none => match (s.sides p).head? with
          | none => .fault (homeFault 0x15 p.name 0)
          | some z =>
            let lat := if dieDist (dieOf s.focus.core) (Loc.home z.t.descLoc / 64)
              < dieDist (dieOf s.focus.core) (Loc.home u.descLoc / 64) then u else z.t
            if p.busy then .stall
            else if p.state != .sealed || p.twin.isSome || (mv && ((s.inverse p.name).isSome || p.inverseOf.isSome)) then
              s.homeTrap lat 150 pc (homeFault 0x14 0 0)
            else if !kindAllowed u.fmt p.delta then s.homeTrap lat 150 pc (homeFault 0x13 0 0)
            else if p.delta.isNone && (u.fmt != z.t.fmt || u.group != z.t.group) then
              s.homeTrap lat 150 pc (homeFault 0x0C 0 0)
            else match (if colFits u dc then p.half.moved z.t u y dr dc else none) with
              | none => s.homeTrap lat 150 pc (homeFault 0x0C 0 0)
              | some half =>
                let sides : List Side := [{ base := y, t := u, h := half }]
                let lines := s.sealLines sides ++ (if mv then z.t.linesOf z.sectors else [])
                if s.chainWaits lines || s.sealWaits sides then .stall
                else match (if mv then s.fixed p z else none) with
                  | some n => s.homeTrap lat 150 pc (homeFault 0x10 p.name n)
                  | none =>
                    if s.stuckFull sides then s.homeTrap lat 150 pc (homeFault 0x11 p.name 0)
                    else
                      let make (n : Name) : Patch := { p with
                        name := n, shared := false, preFlag := p.half.pre.isSome || u.pre, state := .opened
                        opener := contributor s.focus.core s.focus.bank, job := s.bank.job.getD 0, half := half, twin := none
                        inverseOf := none, inexact := false, foldinx := false }
                      let can := s.canIssueAt y
                      let s := s.createSealed d make y lat pc
                      .ok (if mv && can then
                        ((s.changeViews z.t z.sectors s.focus.core none).killPatch p.name).journalDeath p.name
                      else s))

/-! ## PSQUASH (R270) -/

/-- A run or a pair of an element that a fold of some patches would split (R270): the folded patch of the highest seal number,
and the lowest patch outside. -/
def State.splits (s : State) (x : Side) (names : List Name) (u : Nat) : Option (Name × Name) :=
  let up := (topRepl (s.covering x.base (x.t.at u) (x.t.unitAt u) none)).2
  let run := cancelPairs up.length (sortPatches up)
  let split (l : List (Patch × PHalf)) : Option (Name × Name) :=
    let inside := l.filter (fun y => names.contains y.1.name)
    let top := inside.foldl (fun (m : Option (Patch × PHalf)) y => match m with
      | none => some y
      | some z => if z.2.sealNo < y.2.sealNo then some y else some z) none
    match top, up.find? (fun y => l.any (fun z => z.1.name == y.1.name) && !names.contains y.1.name) with
    | some t, some o => some (t.1.name, o.1.name)
    | _, _ => none
  match split run with
  | some y => some y
  | none => firstSome (fun (y : Patch × PHalf) => match y.1.inverseOf with
      | none => none
      | some n => if up.any (fun z => z.1.name == n) then split (up.filter (fun z => z.1.name == n || z.1.name == y.1.name)) else none) up

/-- PSQUASH (R270). -/
def execPsquash (h : Hdr) (a b : NSrc) (x : Bool) (s : State) : Out :=
  let pc := s.bank.pc
  .next (s.issue ((Need.of h).n a |>.n b) none fun s =>
    let base := s.bank.readN a
    match s.asTensor base with
    | (.error f, _) => .fault f
    | (.ok t, s) => match s.asPatch (s.bank.readN b) with
      | (.error f, _) => .fault f
      | (.ok p, s) => match s.patchPerm (t :: (s.sides p).map (fun y => y.t)) with
        | some f => .fault f
        | none => match (if p.state == .sealed then p.on base else none) with
          | none => if p.busy then .stall else s.homeTrap t 40 pc (homeFault 0x14 0 0)
          | some half =>
            let ps := s.upTo base half.sealNo
            let names := ps.map (fun q => q.name)
            let sides := ps.flatMap s.sides
            let lines := sides.flatMap (fun y => y.t.linesOf y.sectors)
            if s.chainWaits lines || s.shardBusy base then .stall
            else match (match (if x then firstSome (fun (y : Side) => firstSome (s.splits y names) y.units) sides else none) with
                | some c => some c
                | none => s.foldClash ps) with
              | some (m, n) => s.homeTrap t 40 pc (homeFault 0x10 m n)
              | none =>
                let (n, s) := s.foldPatches s.focus.core base ps
                .ok (s.hold (s.atHome t (40 + n)) pc none []))

/-! ## PDROP and PQUERY (R271, R273) -/

/-- The lowest patch above one in the lowest-addressed sector where it is not at the head. -/
def State.notHead (s : State) (p : Patch) : Option Name :=
  lowest ((s.sides p).flatMap (fun x => x.sectors.filterMap (fun c =>
    (above p.name (s.chainOf x.t c)).head?.map (fun n => (x.addr c, n)))))

/-- PDROP (R271). -/
def execPdrop (h : Hdr) (a : NSrc) (s : State) : Out :=
  let pc := s.bank.pc
  .next (s.issue ((Need.of h).n a) none fun s =>
    match s.asPatch (s.bank.readN a) with
    | (.error f, _) => .fault f
    | (.ok p, s) => match s.patchPerm ((s.sides p).map (fun y => y.t)) with
      | some f => .fault f
      | none => match (s.sides p).head? with
        | none => .fault (homeFault 0x15 p.name 0)
        | some z =>
          let lat := s.atHome z.t 40
          let lines := (s.sides p).flatMap (fun y => y.t.linesOf y.sectors)
          if p.busy || s.chainWaits lines then .stall
          else match p.state with
            | .opened => s.homeTrap z.t 40 pc (homeFault 0x14 0 0)
            | .squashed => .ok (((s.killPatch p.name).journalDeath p.name).hold lat pc none [])
            | .sealed => match s.notHead p with
              | some n => s.homeTrap z.t 40 pc (homeFault 0x10 p.name n)
              | none =>
                let s := (s.sides p).foldl (fun (s : State) y => s.changeViews y.t y.sectors s.focus.core none) s
                .ok (((s.killPatch p.name).journalDeath p.name).hold lat pc none []))

/-- The state word of a patch (R273). -/
def State.queryWord (s : State) (p : Patch) : Word :=
  let bit (b : Bool) (i : Nat) : Nat := if b then 2 ^ i else 0
  let sealed := p.state == .sealed
  let q := if p.shared && p.state == .opened then (s.combine p).1 else p
  let secs := match (s.sides q).head? with
    | none => []
    | some x => x.sectors.map (fun c => s.chainOf x.t c)
  let st := match p.state with
    | .opened => 0
    | .sealed => 1
    | .squashed => 2
  let delta := match p.delta with
    | none => 0
    | some .f32 => 1
    | some .bf16 => 2
    | some _ => 3
  let up := if sealed then maxNat 0 (secs.map (fun c => (above p.name c).length)) else 0
  let deep := if p.state == .squashed then 0 else maxNat 0 (secs.map (fun c => c.length))
  BitVec.ofNat 64 (st * 2 ^ 62 + bit p.delta.isSome 61 + delta * 2 ^ 59 + bit p.shared 58 + bit p.twin.isSome 57
    + bit p.half.pre.isSome 56 + bit (s.inverse p.name).isSome 55
    + bit p.inverseOf.isSome 54 + bit p.inexact 53 + bit p.foldinx 52 + up * 2 ^ 40 + deep * 2 ^ 32 + p.half.sealNo % 2 ^ 32)

/-- PQUERY (R273): the one patch word that does not hold its bank. -/
def execPquery (h : Hdr) (d : SDst) (a : NSrc) (al : BitVec 4) (s : State) : Out :=
  .next (s.issue ((Need.of h).n a |>.tag al |>.dTag d 1 |>.local) none fun s =>
    let x := s.bank.readN a
    let land (s : State) (w : Word) (min : Nat) : Result := .ok (s.landLater al [SDst.rdst d] [.word w] min)
    let (r, lat, s) := s.resolve s.focus.core x
    match r with
    | .fault c => .fault (homeFault c x 0)
    | .gone => if Name.cls x != Cls.patch then .fault (homeFault 0x17 x 0) else land s (BitVec.ofNat 64 (3 * 2 ^ 62)) (Nat.max 40 lat)
    | .live _ => match s.asPatch x with
      | (.error f, _) => .fault f
      | (.ok p, s) => match s.patchPerm ((s.sides p).map (fun y => y.t)) with
        | some f => .fault f
        | none => land s (s.queryWord p) (match (s.sides p).head? with
          | none => 40
          | some y => s.atHome y.t 40))

end Sys2Proof.Machine
end

