-- ==== Sys2Proof/Machine/EngineCommon.lean ====
section
/-!
DEFINITION. What every engine does (R68 to R70, R157 to R160, R195 to R198): entries, positions and stacks, the common words,
faults of an engine, and the start and completion of an entry. The acting agent is the engine of the focus.
-/
namespace Sys2Proof.Machine

/-! ## The acting engine -/

/-- The engine of the focus; a focus without one names the Anvil. -/
def State.engCode (s : State) : Eng := s.focus.eng.getD .anvil

/-- The acting engine. -/
def State.engine (s : State) : Engine := s.cur.engine s.engCode

/-- Change the acting engine. -/
def State.modEngine (s : State) (f : Engine → Engine) : State := s.modCur (fun c => c.setEngine s.engCode (f (c.engine s.engCode)))

/-- The accesses of an engine that are not yet over. -/
def Core.engAccs (c : Core) (e : Eng) : List Access := c.accs.filter (fun a => a.eng == some e)

/-- ZACC is no tile command (R219). -/
def AnvilCmd.isZacc (k : AnvilCmd) : Bool :=
  match k.kind with
  | .zacc _ => true
  | .lstat | .go _ | .drain _ => false

/-- Everything that an engine's words have asked for is done: accesses, local writes, transposes, tile commands and transfers (R158,
R198, R228, R359). -/
def Core.engDone (c : Core) (e : Eng) : Bool :=
  (c.engAccs e).isEmpty && !(c.lwrites.any (fun w => w.eng == e)) && (e != .copy || c.xposes.isEmpty) && (e != .anvil || c.cmds.all AnvilCmd.isZacc)
    && (e != .coll || c.sends.all (fun x => x.left == 0))

/-- Where a load puts its bytes in local memory. -/
def AccOp.localRange (op : AccOp) (len : Nat) : Option (Nat × Nat) :=
  match op with
  | .load _ (.toLocal a _) | .load _ (.headers a) => some (a, len)
  | .stage _ _ _ a => some (a, len)
  | .load _ _ | .store _ _ | .patchStore _ _ _ _ _ _ | .rmw _ _ _ _ _ | .row _ _ _ _ _ _ _ | .patchAdd _ _ _ _ | .patchRow _ _ _ _ _ _ _ _
  | .dcas _ _ _ _ _ _ _ _ | .move _ _ _ _ | .writeBack _ | .dropCopies _ | .prefetch _ | .pin _ | .unpin | .signal _ _ _ => none

/-- Two byte ranges meet. -/
def rangesMeet (a n b m : Nat) : Bool := a < b + m && b < a + n

/-- Some access or write of an engine that is on its way touches local bytes (R205): a later word on them waits. -/
def Core.engTouches (c : Core) (e : Eng) (a n : Nat) : Bool :=
  (c.engAccs e).any (fun x => match x.op.localRange x.len with
    | none => false
    | some (b, m) => rangesMeet a n b m)
  || c.lwrites.any (fun w => w.eng == e && rangesMeet a n w.addr w.bytes.length)
  || (e == .copy && c.xposes.any (fun x => rangesMeet a n x.laddr (tileBytes x.fmt 0 x.cols x.rows)))

/-! ## Entries (R70, R157, R158) -/

/-- The header of an entry. -/
def Entry.header (n : Entry) : EntryHdr := EntryHdr.of n.hdr

/-- The local address of an entry: its slot, or its place in a schedule (R157, R174). -/
def Core.entryAddr (c : Core) (n : Entry) : Nat :=
  match n.fromStep with
  | some a => a
  | none => let q := (c.bank n.bank).queue n.q; q.base + n.slot * q.esz

/-- An entry moves on to its next word, or micro-operation; after its last counted word it is done (R70, R233). -/
def Entry.advance (n : Entry) : Entry :=
  let n : Entry := { n with src := [], want := [] }
  match n.layer with
  | some (k, a) => { n with layer := some (k, a + 1), stripe := false }
  | none => match n.at_ with
    | .entry i => { n with at_ := .entry (i + 1), done := n.done || i + 1 ≥ n.header.count }
    | .routine b off => { n with at_ := .routine b (off + 1) }

/-- What an engine word comes to: it waits, faults (in a state that keeps what it consumed), goes on with the entry's new
stacks, or jumps where it set the position. -/
inductive EngResult where
  | wait
  | fault (t : TrapInfo)
  | faultIn (t : TrapInfo) (s : State)
  | ok (n : Entry) (s : State)
  | jump (n : Entry) (s : State)
  /-- it has read some sectors of local memory and has others still to read -/
  | more (src : List (Nat × List Byte)) (want : List (Nat × Nat)) (s : State)

/-- Perform a word of the acting engine's entry. -/
def State.engWord (s : State) (body : Entry → State → EngResult) : State :=
  match s.engine.cur with
  | none => s
  | some n => match body n (s.modEngine (fun x => { x with tried := true })) with
    | .wait => s.modEngine (fun x => { x with tried := true })
    | .fault t => s.engFault s.focus.core s.engCode t
    | .faultIn t s => s.engFault s.focus.core s.engCode t
    | .ok n s => s.modEngine (fun x => { x with cur := some n.advance })
    | .jump n s => s.modEngine (fun x => { x with cur := some n })
    | .more src want s => s.modEngine (fun x => { x with cur := x.cur.map (fun m => { m with src := src, want := want }) })

/-! ## The parameter stack (R68) -/

/-- Push a value; none where eight entries stand there. -/
def Entry.push (n : Entry) (x : StackWord) : Option Entry :=
  if n.pstack.length < 8 then some { n with pstack := x :: n.pstack } else none

/-- Pop `k` values, the deepest first as stack effects write them; none where there are fewer. -/
def Entry.pop (n : Entry) (k : Nat) : Option (List StackWord × Entry) :=
  if k ≤ n.pstack.length then some ((n.pstack.take k).reverse, { n with pstack := n.pstack.drop k }) else none

/-- The stack fault (R68). -/
def stackFault : TrapInfo := fault 0x0E

/-- Pop `k` values or fault. -/
def Entry.popped (n : Entry) (k : Nat) (f : List Nat → Entry → EngResult) : EngResult :=
  match n.pop k with
  | none => .fault stackFault
  | some (l, n) => f (l.map BitVec.toNat) n

/-- Push values, the last one on top, or fault. -/
def Entry.pushed (n : Entry) (l : List StackWord) (s : State) : EngResult :=
  match l.foldl (fun (n : Option Entry) x => n.bind (fun n => n.push x)) (some n) with
  | none => .fault stackFault
  | some n => .ok n s

/-! ## What an engine reads from local memory (R79, R83, R148) -/

/-- The sectors of some local ranges. -/
def sectorsOf (l : List (Nat × Nat)) : List (Nat × Nat) := l.flatMap (fun r => cutAt 32 (r.2 / 32 + 2) r.1 (r.1 + r.2))

/-- What reading a local sector for an engine asks of its memory bank. -/
def Eng.readGrant (e : Eng) (a : Nat) : Grant := { who := Eng.asker e, no := 1, block := a / 64 }

/-- An engine reads one sector for a bank. -/
def Core.readSector (c : Core) (e : Eng) (bank : Bool) (x : Nat × Nat) : (Nat × List Byte) × Core :=
  ((x.1, Memory.readBytes c.mem x.1 x.2), (c.take (Eng.readGrant e x.1)).touch bank x.1 x.2)

/-- An engine reads some of the sectors that it wants, by free values, as the memory banks allow. -/
def Core.readFree (c : Core) (e : Eng) (bank : Bool) (free : Nat) : List (Nat × Nat) → List (Nat × List Byte) × Core
  | [] => ([], c)
  | x :: r =>
    if c.mayTake (Eng.readGrant e x.1) && Config.choice free % 2 = 0 then
      let (y, c) := c.readSector e bank x
      let (l, c) := c.readFree e bank (free + 1) r
      (y :: l, c)
    else c.readFree e bank (free + 1) r

/-- An engine reads some of the sectors that it wants: at least one where a memory bank is free. -/
def Core.readSome (c : Core) (e : Eng) (bank : Bool) (free : Nat) (l : List (Nat × Nat)) : List (Nat × List Byte) × Core :=
  match c.readFree e bank free l with
  | ([], _) => match l.find? (fun x => c.mayTake (Eng.readGrant e x.1)) with
    | none => ([], c)
    | some x =>
      let (y, c) := c.readSector e bank x
      ([y], c)
  | r => r

/-- The sectors of a list that are not among those read. -/
def unread (l : List (Nat × Nat)) (src : List (Nat × List Byte)) : List (Nat × Nat) := l.filter (fun x => !src.any (fun y => y.1 == x.1))

/-- Bytes of local memory as some sectors were read. -/
def srcBytes (src : List (Nat × List Byte)) (a n : Nat) : List Byte :=
  (List.range n).map (fun i => match src.find? (fun y => y.1 ≤ a + i && a + i < y.1 + y.2.length) with
    | none => 0
    | some y => y.2.getD (a + i - y.1) 0)

/-- The number of some free values is used up. -/
def State.skip (s : State) (n : Nat) : State := { s with free := s.free + n }

/-- A word that reads local ranges, sector by sector: each sector at a time of its own (R79, R83, R148). The word takes effect once it has
them all. -/
def withSource (ranges : List (Nat × Nat)) (f : (Nat → Nat → List Byte) → Entry → State → EngResult) (n : Entry) (s : State) : EngResult :=
  let l := unread (sectorsOf ranges) n.src
  let (got, c) := s.cur.readSome s.engCode n.bank s.free l
  let s := (s.skip l.length).setCore s.focus.core c
  let src := n.src ++ got
  if (unread l got).isEmpty then f (srcBytes src) n s
  else .more src (unread l got) s

/-- The blocks of local memory that an engine still has to read. -/
def Core.sourceWants (c : Core) (e : Eng) : List Nat :=
  let cmds := if e == .anvil then c.cmds.flatMap (fun k => k.want) else []
  let entry := match (c.engine e).cur with
    | none => []
    | some n => n.want
  (cmds ++ entry).map (fun x => x.1 / 64)

/-! ## The common words (R68, R195 to R198) -/

/-- LIT (R68). -/
def execLit (v : BitVec 15) (s : State) : Out := .next (s.engWord fun n s => n.pushed [v.signExtend 48] s)

/-- EXT (R68). -/
def execExt (v : BitVec 14) (s : State) : Out :=
  .next (s.engWord fun n s => match n.pop 1 with
    | some ([x], n) => n.pushed [(x <<< 14) ||| v.setWidth 48] s
    | _ => .fault stackFault)

/-- A word that is none of its engine's, or a routine that has run past its last word (R68, R69, R197). -/
def execEngineIllegalWord (_ : EngWord) (s : State) : Out :=
  .next (s.engWord fun n _ => match n.at_ with
    | .routine b off =>
      if n.layer.isNone && off < 2048 && b + 2 * off ≥ localSize then .fault (faultAt 0x07 (BitVec.ofNat 64 (b + 2 * off))) else .fault (fault 0x0D)
    | .entry _ => .fault (fault 0x0D))

/-- END (R70, R197). -/
def execEndw (s : State) : Out := .next (s.engWord fun n s => .jump { n with done := true } s)

/-- NOPW (R196). -/
def execNopw (s : State) : Out := .next (s.engWord fun n s => .ok n s)

/-- DUP (R195). -/
def execDup (s : State) : Out :=
  .next (s.engWord fun n s => match n.pop 1 with
    | some ([x], n) => n.pushed [x, x] s
    | _ => .fault stackFault)

/-- DROP (R195). -/
def execDrop (s : State) : Out :=
  .next (s.engWord fun n s => match n.pop 1 with
    | some (_, n) => .ok n s
    | none => .fault stackFault)

/-- SWAP (R195). -/
def execSwap (s : State) : Out :=
  .next (s.engWord fun n s => match n.pop 2 with
    | some ([x, y], n) => n.pushed [y, x] s
    | _ => .fault stackFault)

/-- OVER (R195). -/
def execOver (s : State) : Out :=
  .next (s.engWord fun n s => match n.pop 2 with
    | some ([x, y], n) => n.pushed [x, y, x] s
    | _ => .fault stackFault)

/-- POPQ (R160, R196). -/
def execPopq (a : Fin 4) (s : State) : Out :=
  .next (s.engWord fun n s =>
    let core := s.focus.core
    match n.push 0 with
    | none => .fault stackFault
    | some _ => match (s.bankAt core n.bank).aq[a] with
      | [] => .wait
      | x :: r => n.pushed [x.setWidth 48] (s.modBankAt core n.bank (fun b => { b with aq := b.aq.set a r })))

/-- PUSHB (R160, R167, R196). -/
def execPushb (a : Fin 4) (s : State) : Out :=
  .next (s.engWord fun n s =>
    let core := s.focus.core
    let b := s.bankAt core n.bank
    match n.pop 1 with
    | some ([x], n) =>
      if b.bq[a].length ≥ 8 && !(b.qpops.any (fun p => p.2 == a)) then .wait
      else .ok n (s.modBankAt core n.bank (fun b => b.pushBq s.cycle a (x.setWidth 64)))
    | _ => .fault stackFault)

/-- CALLW (R197). -/
def execCallw (s : State) : Out :=
  .next (s.engWord fun n s => n.popped 1 fun l n =>
    let a := l.headD 0
    if a % 2 = 1 then .fault (faultAt 0x05 (BitVec.ofNat 64 a))
    else if a ≥ localSize then .fault (faultAt 0x07 (BitVec.ofNat 64 a))
    else if n.rstack.length ≥ 4 then .fault stackFault
    else .jump { n with rstack := n.advance.at_ :: n.rstack, at_ := .routine a 0 } s)

/-- RETW (R197): a return point behind the entry's last counted word ends the entry. -/
def execRetw (s : State) : Out :=
  .next (s.engWord fun n s => match n.rstack with
    | [] => .fault stackFault
    | p :: r => .jump { n with rstack := r, at_ := p, done := match p with
        | .entry i => i ≥ n.header.count
        | .routine _ _ => false } s)

/-- WAITK (R198): an acquire of what its unit carries (R171, R319). -/
def execWaitk (k : BitVec 8) (s : State) : Out :=
  .next (s.engWord fun n s =>
    if !s.cur.ownsSem n.bank k then .fault (fault 0x04)
    else if s.cur.sem k = 0 then .wait
    else
      let (c, p) := s.cur.takeSem k
      let s := s.setCore s.focus.core c
      .ok n (match p with
        | none => s
        | some p => s.bumpPts s.focus.core p))

/-- Increment a semaphore from an engine; an overflow is reported and nothing stops (R161). -/
def State.engSignal (s : State) (n : Entry) (k : BitVec 8) : State :=
  match s.cur.incSem k s.cur.pts true with
  | some c => s.setCore s.focus.core (c.wakeOwners k)
  | none => s.engTrap s.focus.core s.engCode n (fault 0x23)

/-- Every global access that the stream issued before an entry's push is performed (R164): the fork edge, which every access of the entry
and every increment that releases it waits for. Local ones are performed before it starts. -/
def Core.forked (c : Core) (n : Entry) : Bool :=
  !c.accs.any (fun a => a.eng.isNone && a.bank == n.bank && decide (a.seq < n.fork) && a.state != .performed)

/-- SIGK (R198): after everything the entry has asked for so far. -/
def execSigk (k : BitVec 8) (s : State) : Out :=
  .next (s.engWord fun n s =>
    if !s.cur.ownsSem n.bank k then .fault (fault 0x04)
    else if !s.cur.engDone s.engCode || !s.cur.forked n then .wait
    else .ok n (s.engSignal n k))

/-! ## Start and completion (R158, R159) -/

/-- The queues of an engine in its cyclic order (R159). -/
def engOrder : Eng → List (Bool × QCode)
  | .anvil => [(false, .anvil), (true, .anvil)]
  | .copy => [(false, .copy0), (true, .copy0), (false, .copy1), (true, .copy1)]
  | .coll => [(false, .coll), (true, .coll)]

/-- A cyclic order from the position after a given one. -/
def cycleFrom (l : List (Bool × QCode)) (last : Nat) : List (Nat × Bool × QCode) :=
  let x := l.zipIdx.map (fun p => (p.2, p.1))
  x.filter (fun p => p.1 > last) ++ x.filter (fun p => p.1 ≤ last)

/-- The fault of a header at its queue's head (R70). -/
def EntryHdr.fault (h : EntryHdr) (c : Core) (bank : Bool) (capacity : Nat) : Option TrapInfo :=
  if h.count = 0 || h.count > capacity || h.reserved != 0 then some (Machine.fault 0x0D)
  else if (h.wv && !c.ownsSem bank h.wsem) || (h.sv && !c.ownsSem bank h.ssem) then some (Machine.fault 0x04)
  else none

/-- The engine words that a queue element can hold (R70). -/
def Queue.capacity (q : Queue) : Nat := q.esz / 2 - 2

/-- Whether a queue's head calls for the engine: startable, or faulty at the head (R70, R158). -/
def Core.headCalls (c : Core) (cycle : Nat) (bank : Bool) (qc : QCode) : Bool :=
  let q := (c.bank bank).queue qc
  let h := EntryHdr.of (c.headHdr q)
  q.en && q.count != 0 && q.since ≤ cycle && q.hd == .waiting && !c.localBefore bank (q.forks.headD 0) && !(c.bank bank).stopEng && (c.bank bank).status != .halted && !(c.bank bank).isStopped && ((h.fault c bank q.capacity).isSome || !h.wv || c.sem h.wsem != 0)

/-- The first queue in an engine's order whose head calls for it (R159). -/
def Core.nextQueue (c : Core) (cycle : Nat) (e : Eng) : Option (Nat × Bool × QCode) :=
  (cycleFrom (engOrder e) (c.engine e).last).find? (fun p => c.headCalls cycle p.2.1 p.2.2)

/-- The first entry of a restored bank that waits for an engine (R234, R338). -/
def Core.resuming (c : Core) (e : Eng) : Option (Eng × Entry × Option Name) :=
  c.resumes.find? (fun x => x.1 == e && !(c.bank x.2.1.bank).stopEng)

/-- Whether an idle engine has an entry to start: its earlier accesses are over, it is not frozen, and a restored entry waits for
it, its communication step has an entry left, or a queue's head calls for it (R158, R174, R205, R234). -/
def Core.canStart (c : Core) (cycle : Nat) (e : Eng) : Bool :=
  let x := c.engine e
  x.cur.isNone && !x.frozen && c.engDone e && ((c.resuming e).isSome || match x.sched with
    | none => (c.nextQueue cycle e).isSome
    | some sc => sc.next < sc.count && sc.t0 ≤ cycle && !(c.bank sc.bank).stopEng)

/-- An interruptible boundary of an entry (R234): inside an update sequence only after a stripe. -/
def Entry.boundary (n : Entry) : Bool :=
  match n.layer with
  | some (k, _) => k.val != 3 || n.stripe
  | none => true

/-- An engine holds its entry at a boundary while its bank is stopped (R234, R337, R362); a TREE whose levels have begun goes on. -/
def Core.engHeld (c : Core) (e : Eng) : Bool :=
  match (c.engine e).cur with
  | none => false
  | some n => (c.bank n.bank).stopEng && n.boundary && !(e == .copy && c.treeAt.any (fun t => t.level != 0))

/-- An entry as it starts. -/
def Entry.begin (bank : Bool) (q : QCode) (slot : Nat) (hdr : BitVec 32) (fork : Nat) (fromStep : Option Nat) : Entry :=
  { bank := bank, q := q, slot := slot, hdr := hdr, fork := fork, fromStep := fromStep, at_ := .entry 0, pstack := []
    rstack := [], layer := none, stripe := false, pad := none, done := false, src := [], want := [] }

/-- The next entry of a communication step starts: it may not wait on a semaphore, and a faulty one is passed over (R174). -/
def State.startStep (s : State) (sc : Sched) : State :=
  let e := s.engCode
  let core := s.focus.core
  let at_ := sc.base + sc.next * sc.esize
  let w := BitVec.ofNat 32 (Memory.readNat s.cur.mem at_ 4)
  let h := EntryHdr.of w
  let n := Entry.begin sc.bank .coll sc.next w 0 (some at_)
  let s := s.modEngine (fun x => { x with sched := some { sc with next := sc.next + 1 }, tried := true })
  match h.fault s.cur sc.bank (sc.esize / 2 - 2) with
  | some t => s.engTrap core e n t
  | none => if h.wv then s.engTrap core e n (fault 0x0D) else s.modEngine (fun x => { x with cur := some n })

/-- A restored entry goes on at its boundary, the Anvil's only under the microcode image that it was saved under (R234). -/
def State.resumeEntry (s : State) (x : Eng × Entry × Option Name) : State :=
  let e := s.engCode
  let s := s.modCur (fun c => { c with resumes := c.resumes.erase x })
  let s := s.modEngine (fun y => { y with cur := some x.2.1, tried := true })
  if e == .anvil && s.cur.ucodeName != x.2.2 then s.engFault s.focus.core e (fault 0x22) else s

/-- ENTRY_START (R158, R159, R174): the engine takes a restored entry, the next entry of its communication step, or the first
startable head; a start decrements wsem and acquires. -/
def execEntryStart (s : State) : Out :=
  let e := s.engCode
  let core := s.focus.core
  .next (if !s.cur.canStart s.cycle e then s
    else match s.cur.resuming e with
    | some x => s.resumeEntry x
    | none => match s.engine.sched with
    | some sc => s.startStep sc
    | none => match s.cur.nextQueue s.cycle e with
      | none => s
      | some (pos, bank, qc) =>
        let q := (s.cur.bank bank).queue qc
        let w := s.cur.headHdr q
        let h := EntryHdr.of w
        let n := Entry.begin bank qc q.head w (q.forks.headD 0) none
        match h.fault s.cur bank q.capacity with
        | some t =>
          (s.engTrap core e n t).modCore core (fun c =>
            (c.modBank bank (fun b => b.setQueue qc (b.queue qc).faulted)).setEngine e
              { c.engine e with tried := true })
        | none =>
          let (c, p) := if h.wv then s.cur.takeSem h.wsem else (s.cur, none)
          let s := s.setCore core c
          let s := match p with
            | none => s
            | some p => s.bumpPts core p
          s.modCore core (fun c => (c.modBank bank (fun b => b.setQueue qc { b.queue qc with hd := .started })).setEngine e
            { c.engine e with last := pos, cur := some n }))

/-- A queue whose head entry has completed (R71, R158). -/
def Queue.complete (q : Queue) : Queue :=
  if q.closing then { q with count := 0, head := 0, hd := .waiting, closing := false, forks := [] }
  else { q with count := q.count - 1, head := (q.head + 1) % (q.depthm1 + 1), hd := .waiting, forks := q.forks.tail }

/-- Whether an engine's entry is over: its words are done and everything they asked for is performed. -/
def Core.canComplete (c : Core) (e : Eng) : Bool :=
  match (c.engine e).cur with
  | none => false
  | some n => n.done && c.engDone e && c.forked n

/-- ENTRY_COMPLETE (R158): ssem is incremented, a release of the entry's accesses (R171), and the entry leaves its queue. -/
def execEntryComplete (s : State) : Out :=
  let e := s.engCode
  let core := s.focus.core
  .next (if !s.cur.canComplete e then s
    else match s.engine.cur with
      | none => s
      | some n =>
        let s := if n.header.sv then s.engSignal n n.header.ssem else s
        let s := if n.fromStep.isSome then s
          else s.modBankAt core n.bank (fun b => b.setQueue n.q (b.queue n.q).complete)
        s.modEngine (fun x => { x with cur := none, tried := true }))

end Sys2Proof.Machine
end

