-- ==== Sys2Proof/Machine/Anvil.lean ====
section
/-!
DEFINITION. The Anvil's own words and the micro-operations of LAYER (R211 to R234), with the arithmetic of R43 to R45. A tile
command reads its sectors of local memory one by one while it is in progress, and changes planes and accumulators when it completes; no
word that could tell the difference executes before that (R79, R227).
-/
namespace Sys2Proof.Machine

/-! ## The format word (R72, R213) -/

/-- The fields of an accepted format word. -/
structure FmtWord where
  a : Fmt
  b : Fmt
  o : Fmt
  group : Nat
  zpm : Bool
  arnd : RMode
  sat : Bool
  sparse : Bool
  asel : Fin 4
  deriving DecidableEq, Repr

/-- A format word read and checked (R72); none where it breaks a rule. -/
def FmtWord.of (w : BitVec 32) : Option FmtWord :=
  let f : FmtWord := { a := Fmt.ofCode (w.extractLsb' 28 4), b := Fmt.ofCode (w.extractLsb' 24 4), o := Fmt.ofCode (w.extractLsb' 20 4)
                       group := (w.extractLsb' 18 2).toNat, zpm := w.getLsbD 17, arnd := RMode.ofCode (w.extractLsb' 15 2)
                       sat := w.getLsbD 14, sparse := w.getLsbD 12, asel := Fin.ofNat 4 (w.extractLsb' 10 2).toNat }
  let h := f.b.isHalfStep
  if (f.a.isLog || f.a == .f16 || f.a == .bf16) && (f.b.isLog || h) && (f.o.isFlt || f.o.isLog) && f.group != 3
      && (f.group == 0 || h) && (!f.zpm || h) && !w.getLsbD 13 && w.extractLsb' 0 10 == 0
  then some f else none

/-- The word needs L16 mode (R72). -/
def FmtWord.l16 (f : FmtWord) : Bool := f.a == .l16 || f.b == .l16
/-- The word needs the L4 double rate (R72). -/
def FmtWord.l4 (f : FmtWord) : Bool := f.a == .l4 && f.b == .l4
/-- The resolution g of the array (R43, R213). -/
def FmtWord.res (f : FmtWord) : Nat := if f.l16 then 8 else 4
/-- Cycles per streamed row (R213). -/
def FmtWord.cyc (f : FmtWord) : Nat := if f.l16 then 4 else 1
/-- Stored weights per plane row (R213). -/
def FmtWord.stored (f : FmtWord) : Nat := if f.l4 then 256 else 128
/-- Logical k per streamed row (R213). -/
def FmtWord.kp (f : FmtWord) : Nat := if f.sparse then 2 * f.stored else f.stored
/-- The record of a plane (R211). -/
def FmtWord.rcd (f : FmtWord) : Fmt × Fmt × Bool := (f.a, f.b, f.sparse)

/-- A die's features suffice for the word (R72, R349). -/
def FmtWord.featured (f : FmtWord) (m : Word) : Bool :=
  (!f.l16 || m.getLsbD 2) && (!f.sparse || m.getLsbD 1) && (!f.l4 || m.getLsbD 0)

/-! ## Local addresses (R220) -/

/-- The fault of the lowest of some offending addresses. -/
def lowestOf : List (Int × TrapInfo) → Option (Int × TrapInfo)
  | [] => none
  | x :: r => match lowestOf r with
    | none => some x
    | some y => some (if y.1 < x.1 then y else x)

/-- Addresses that are no multiple of `m` (R215, R216). -/
def misaligned (code : BitVec 8) (m : Nat) (l : List Int) : List (Int × TrapInfo) :=
  (l.filter (fun a => a % (m : Int) != 0)).map (fun a => (a, faultAt code (BitVec.ofInt 64 a)))

/-- Ranges that break the window rules of R106; an address below zero lies outside the window. -/
def outOfWindow (l : List (Int × Nat)) : List (Int × TrapInfo) :=
  l.filterMap (fun x => if x.1 < 0 then some (x.1, faultAt 0x07 (BitVec.ofInt 64 x.1))
    else (windowFault x.1.toNat x.2).map (fun t => (x.1, t)))

/-- Step 6 of R220: stream alignment, other alignment, the window. -/
def addrFault (stream : List (Int × TrapInfo)) (other : List (Int × TrapInfo)) (ranges : List (Int × Nat)) : Option TrapInfo :=
  match lowestOf stream, lowestOf other, lowestOf (outOfWindow ranges) with
  | some x, _, _ => some x.2
  | none, some x, _ => some x.2
  | none, none, x => x.map (fun y => y.2)

/-- Lay one pending write over bytes that begin at an address (R228). -/
def LWrite.layOver (w : LWrite) (a : Nat) (l : List Byte) : List Byte :=
  if rangesMeet a l.length w.addr w.bytes.length then
    l.zipIdx.map (fun x => if w.addr ≤ a + x.2 then w.bytes.getD (a + x.2 - w.addr) x.1 else x.1)
  else l

/-- Local bytes as a command of the Anvil reads them: after the writes of the commands before it (R228). -/
def Core.anvilBytes (c : Core) (id a n : Nat) : List Byte :=
  (c.lwrites.filter (fun w => w.eng == .anvil && decide (w.cmd < id))).foldl (fun l w => w.layOver a l) (Memory.readBytes c.mem a n)

/-! ## Commands (R220, R227) -/

/-- Some command of a kind is still in progress. -/
def Core.cmdWaits (c : Core) (f : AnvilCmd → Bool) : Bool := c.cmds.any f

/-- A bank owns an accumulator set (R212). -/
def Core.ownsSet (c : Core) (bank : Bool) (a : Fin 4) : Bool := !c.ksplit || (decide (a.val ≥ 2) == bank)

/-- A command of an entry that enters and completes at given cycles, with nothing to read. -/
def AnvilCmd.new (n : Entry) (kind : AnvilKind) (entered due : Nat) (flags : FlagSet) : AnvilCmd :=
  { id := 0, bank := n.bank, kind := kind, entered := entered, due := due, flags := flags, detail := n.detail, upc := n.upc, word := 0
    plane := .unloaded, rows := [], src := [], want := [] }

/-- Put a command on its way and post its completion. -/
def State.startCmd (s : State) (k : AnvilCmd) : State :=
  let id := s.cur.cmdNo
  let s := s.modCur (fun c => { c with cmdNo := id + 1, cmds := c.cmds ++ [{ k with id := id }] })
  s.postAt k.due s.focus.core k.bank (some .anvil) (.anvilCommandComplete id)

/-- A command reads a sector. -/
def Core.readForCmd (c : Core) (k : AnvilCmd) (x : Nat × Nat) : Core :=
  let y := (x.1, c.anvilBytes k.id x.1 x.2)
  let c := (c.take (Eng.readGrant .anvil x.1)).touch k.bank x.1 x.2
  { c with cmds := c.cmds.map (fun m => if m.id == k.id then { m with src := m.src ++ [y], want := m.want.erase x } else m) }

/-- A command reads those of some sectors whose memory banks can serve it now. -/
def Core.readForCmdAll (c : Core) (k : AnvilCmd) (l : List (Nat × Nat)) : Core :=
  l.foldl (fun c x => if c.mayTake (Eng.readGrant .anvil x.1) then c.readForCmd k x else c) c

/-- The sectors that a command must read in a cycle to be complete in time: of a memory bank with as many blocks to read as cycles are
left, the first block (R227). -/
def AnvilCmd.urgent (k : AnvilCmd) (cycle : Nat) : List (Nat × Nat) :=
  let blocks := dedup (k.want.map (fun x => x.1 / 64))
  (List.range 32).flatMap (fun u =>
    let here := blocks.filter (fun b => unitOf b == u)
    if here.length > k.due - cycle then k.want.filter (fun x => some (x.1 / 64) == here.head?) else [])

/-- The commands of a core read some of what they want at the end of a cycle, by free values, and what is urgent (R79, R148). -/
def State.cmdReads (s : State) (core : Nat) : State :=
  (s.core core).cmds.foldl (fun (s : State) k =>
    let some_ := (k.want.zipIdx.filter (fun x => Config.choice (s.free + x.2) % 2 = 0)).map (fun x => x.1)
    (s.skip k.want.length).modCore core (fun c =>
      let c := c.readForCmdAll k (k.urgent s.cycle)
      match c.cmds.find? (fun m => m.id == k.id) with
      | none => c
      | some m => c.readForCmdAll m (some_.filter m.want.contains))) s

/-- What earlier commands have still to read of bytes that a later one will write is read first (R228). -/
def Core.readFirst (c : Core) (a n : Nat) : Core :=
  c.cmds.foldl (fun c k => (k.want.filter (fun x => rangesMeet x.1 x.2 a n)).foldl (fun c x => c.readForCmd k x) c) c

/-- A tile command pops its format word and checks it (R220, steps 1 to 3). -/
def tileCommand (n : Entry) (f : FmtWord → BitVec 32 → State → EngResult) (s : State) : EngResult :=
  if !s.cur.forked n then .wait
  else match s.cur.fq with
  | [] => .fault (fault 0x0B)
  | (w, _) :: r =>
    let s := s.modCur (fun c => { c with fq := r })
    match FmtWord.of w with
    | none => .faultIn (fault 0x0C) s
    | some x => if x.featured (s.die (dieOf s.focus.core)).featmask then f x w s else .faultIn (fault 0x02) s

/-! ## SETL, SETB, SWAPP, ZACC, AMAXC (R217, R218, R222, R223, R226) -/

/-- Change the Anvil registers of an entry's bank. -/
def State.modAnvil (s : State) (n : Entry) (f : AnvilBank → AnvilBank) : State :=
  s.modBankAt s.focus.core n.bank (fun b => { b with anvil := f b.anvil })

/-- Set a loop level (R217). -/
def setLoop (a : Fin 6) (count : Nat) (stride : Int) (n : Entry) (s : State) : EngResult :=
  if count = 0 || count > 65535 || stride < -(2 ^ 31 : Nat) || stride ≥ (2 ^ 31 : Nat) then .fault (fault 0x0C)
  else .ok n (s.modAnvil n (fun x => { x with loops := x.loops.set a (count, stride) }))

/-- Set a base register (R217). -/
def setBase (a : Fin 8) (v : StackWord) (n : Entry) (s : State) : EngResult :=
  .ok n (s.modAnvil n (fun x => { x with b := x.b.set a v }))

/-- Exchange the planes of a bank (R222, R227). -/
def swapPlanes (n : Entry) (s : State) : EngResult :=
  if s.cur.cmdWaits (fun k => k.bank == n.bank && (match k.kind with
      | .lstat => true
      | .go _ => s.cycle ≤ k.entered
      | .zacc _ | .drain _ => false)) then .wait
  else .ok n (s.modAnvil n (fun x => { x with stat := x.shadow, shadow := x.stat }))

/-- The key of an accumulator. -/
def accKey (a : Fin 4) (row n : Nat) : Nat := a.val * 16384 + row * 64 + n

/-- Whether an accumulator key lies in a set. -/
def inSet (a : Fin 4) (k : Nat) : Bool := k / 16384 == a.val

/-- An accumulator set at +0 with its marks clear (R211, R223). -/
def Core.clearSet (c : Core) (a : Fin 4) : Core :=
  { c with acc := c.acc.filter (fun x => !inSet a x.1), marks := c.marks.filter (fun k => !inSet a k) }

/-- Clear a set (R223, R227). -/
def zeroSet (a : Fin 4) (n : Entry) (s : State) : EngResult :=
  if s.cur.cmdWaits (fun k => k.kind == .go a || k.kind == .drain a) then .wait
  else if !s.cur.ownsSet n.bank a then .fault (fault 0x04)
  else .ok n ((s.modCur (fun c => c.clearSet a)).startCmd (.new n (.zacc a) s.cycle (s.cycle + 3) 0))

/-- Clear an amax register (R226, R227). -/
def clearAmax (a : Fin 4) (n : Entry) (s : State) : EngResult :=
  if s.cur.cmdWaits (fun k => match k.kind with
      | .drain _ => true
      | .lstat | .zacc _ | .go _ => false) then .wait
  else .ok n (s.modBankAt s.focus.core n.bank (fun b => b.writeAmax a 0))

/-! ## LSTAT (R214, R221) -/

/-- The bytes of a weight row (R214). -/
def FmtWord.tp (f : FmtWord) : Nat := tilePitch f.b f.stored
/-- The bytes of a row of 2:4 metadata (R214). -/
def FmtWord.mp (f : FmtWord) : Nat := 32 * ((f.kp + 255) / 256)
/-- The bytes of a stationary tile (R214). -/
def FmtWord.tile (f : FmtWord) : Nat := 64 * f.tp + 2048 + if f.sparse then 64 * f.mp else 0

/-- The nibble of logical group q of row n (R214). -/
def FmtWord.nibble (f : FmtWord) (img : List Byte) (n q : Nat) : Nat :=
  (img.getD (64 * f.tp + 2048 + n * f.mp + q / 2) 0).toNat / (if q % 2 = 0 then 1 else 16) % 16

/-- A nibble's order is wrong (R214). -/
def badNibble (x : Nat) : Bool := x % 4 ≥ x / 4

/-- The logical k of stored weight i of row n (R214). -/
def FmtWord.place (f : FmtWord) (img : List Byte) (n i : Nat) : Nat :=
  if f.sparse then
    let x := f.nibble img n (i / 2)
    4 * (i / 2) + (if i % 2 = 0 then x % 4 else x / 4)
  else i

/-- The header of stored weight i of row n (R41, R214). -/
def FmtWord.header (f : FmtWord) (img : List Byte) (n i : Nat) : Nat :=
  leNat ((img.drop (64 * f.tp + n * 32 + 4 * (i / (32 * 2 ^ f.group)))).take 4)

/-- An effective log brought to the array's resolution (R34, R43). -/
def FmtWord.toRes (f : FmtWord) (t : Fmt) (x : Int) : Int := if f.l16 && t != .l16 then 16 * x else x

/-- An L-format code under a scale, at the array's resolution (R43). -/
def FmtWord.logOf (f : FmtWord) (t : Fmt) (code sc : Nat) : LogVal × FlagSet :=
  if b10AllZero sc then (.zero, 0)
  else match LogVal.ofCode t code with
    | .zero => (.zero, 0)
    | .nar => (.nar, Flag.nar)
    | .val neg q => (.val neg (f.toRes t (effLog t q (b10Scale sc))), 0)

/-- Stored weight i of row n (R43, R221). -/
def FmtWord.weight (f : FmtWord) (img : List Byte) (n i : Nat) : LogVal × FlagSet :=
  let code := tileElem f.b f.stored img n i
  if f.b.isHalfStep then
    let h := f.header img n i
    let z := if f.zpm then 2 ^ (f.b.width - 1) else h / 65536 % 256
    let (v, g) := halfStepVal (.ofBits .f16 (h % 65536)) code z
    match boundedLog 4 v with
    | (.val neg q, fl) => (.val neg (f.toRes f.b q), g ||| fl)
    | (x, fl) => (x, g ||| fl)
  else f.logOf f.b code (leNat ((img.drop (64 * f.tp + n * 32 + 2 * (i / 32))).take 2) % 1024)

/-- A header of the tile has a non-zero bit 31:24 (R42, R221). -/
def FmtWord.badHeader (f : FmtWord) (img : List Byte) : Bool :=
  f.b.isHalfStep && (List.range 64).any (fun n =>
    (List.range (f.stored / (32 * 2 ^ f.group))).any (fun j => f.header img n (32 * 2 ^ f.group * j) ≥ 2 ^ 24))

/-- The plane of a tile and its flags. -/
def FmtWord.fillPlane (f : FmtWord) (img : List Byte) : Plane × FlagSet :=
  let ws := (List.range 64).flatMap (fun n => (List.range f.stored).map (fun i => (n * 512 + f.place img n i, f.weight img n i)))
  ({ rcd := some f.rcd, weights := (ws.filter (fun x => x.2.1 != .zero)).map (fun x => (x.1, x.2.1)) },
    ws.foldl (fun g x => g ||| x.2.2) 0)

/-- The part of a tile that decides whether it is accepted: headers of an H format and 2:4 metadata, which are read when the command
executes (R220, R221). -/
def FmtWord.checked (f : FmtWord) (base : Nat) : List (Nat × Nat) :=
  (if f.b.isHalfStep then [(base + 64 * f.tp, 2048)] else []) ++ (if f.sparse then [(base + 64 * f.tp + 2048, 64 * f.mp)] else [])

/-- LSTAT reads a stationary tile into the shadow plane (R221). -/
def loadStationary (n : Entry) (s : State) : EngResult :=
  if s.cur.cmdWaits (fun k => k.bank == n.bank && k.kind == .lstat) then .wait
  else tileCommand n (fun f w s =>
    let base := (s.bankAt s.focus.core n.bank).anvil.b[4].toNat
    let id := s.cur.cmdNo
    let inside := (windowFault base f.tile).isNone
    let src := if inside then (sectorsOf (f.checked base)).map (fun x => (x.1, s.cur.anvilBytes id x.1 x.2)) else []
    let img := if inside then List.replicate (64 * f.tp) 0 ++ srcBytes src (base + 64 * f.tp) (f.tile - 64 * f.tp) else []
    if f.sparse && f.b.isHalfStep then .faultIn (fault 0x0C) s
    else if f.sparse && inside && (List.range 64).any (fun r =>
        (List.range (f.kp / 4)).any (fun q => badNibble (f.nibble img r q))) then .faultIn (fault 0x0C) s
    else if f.badHeader img then .faultIn (fault 0x0C) s
    else match addrFault [] (misaligned 0x05 32 [(base : Int)]) [((base : Int), f.tile)] with
      | some t => .faultIn t s
      | none =>
        let s := s.modCur (fun c => src.foldl (fun (c : Core) x => (c.take (Eng.readGrant .anvil x.1)).touch n.bank x.1 x.2.length) c)
        .ok n (s.startCmd { AnvilCmd.new n .lstat s.cycle (s.cycle + 7 + (f.tile + 255) / 256) 0 with
          word := w, rows := [(base, 0)], src := src, want := unread (sectorsOf [(base, f.tile)]) src })) s

/-- A stationary tile has been read: it fills the shadow plane (R211, R221). -/
def State.finishLstat (s : State) (core : Nat) (k : AnvilCmd) (f : FmtWord) : FlagSet × State :=
  let base := (k.rows.headD (0, 0)).1
  let (p, fl) := f.fillPlane (srcBytes k.src base f.tile)
  (fl, s.modBankAt core k.bank (fun b => { b with anvil := { b.anvil with shadow := p } }))

/-! ## GO (R44, R45, R215, R224) -/

/-- The product of the six counts (R215). -/
def AnvilBank.rows (x : AnvilBank) : Nat := x.loops.toList.foldl (fun p y => p * y.1) 1

/-- The slot of streamed row t, the first level varying fastest (R215). -/
def slotOf : List (Nat × Int) → Nat → Int
  | [], _ => 0
  | (c, st) :: r, t => ((t % c : Nat) : Int) * st + slotOf r (t / c)

/-- The data and scale addresses of streamed row t (R215). -/
def AnvilBank.streamAt (x : AnvilBank) (t : Nat) : Int × Int :=
  let r := slotOf x.loops.toList t
  ((x.b[0].toNat : Int) + r * (x.b[1].toNat : Int), (x.b[2].toNat : Int) + r * (x.b[3].toNat : Int))

/-- Logical element k of a streamed row whose data and scale bytes are given (R43, R215). -/
def FmtWord.streamed (f : FmtWord) (data scales : List Byte) (k : Nat) : LogVal × FlagSet :=
  let w := f.a.width
  let code := if w < 8 then (data.getD (k / 2) 0).toNat / (if k % 2 = 0 then 1 else 16) % 16
    else leNat ((data.drop (k * (w / 8))).take (w / 8))
  if f.a.isLog then f.logOf f.a code (leNat ((scales.drop (2 * (k / 32))).take 2) % 1024)
  else boundedLog f.res (.ofBits f.a code)

/-- The product of two logs as a value (R44). -/
def FmtWord.product (f : FmtWord) : LogVal → LogVal → Dy
  | .val s x, .val t y => tableVal f.res (s != t) (x + y)
  | .val _ _, .zero | .val _ _, .nar | .zero, _ | .nar, _ => { neg := false, m := 0, e := 0 }

/-- The value of a block of products, exact, with an exact zero positive; none where it is marked (R44, R45, R224). `xs` are
the streamed values of the block and `ws` the weights that stand in it. -/
def FmtWord.blockSum (f : FmtWord) (xs : List LogVal) (ws : List (Nat × LogVal)) : Option Dy :=
  if xs.contains .nar || ws.any (fun w => w.2 == .nar) then none
  else
    let sum := ws.foldl (fun d w => Dy.add .rne d (f.product (xs.getD w.1 .zero) w.2)) { neg := false, m := 0, e := 0 }
    some (if sum.m = 0 then { sum with neg := false } else sum)

/-- Add a block's value into an accumulator under the rounding mode of the format word (R45). -/
def FmtWord.accumulate (f : FmtWord) (acc : BitVec 32) (d : Dy) : BitVec 32 × FlagSet :=
  let (r, f1) := roundVal .f32 .rne false (.num d)
  let (v, f2) := FVal.add f.arnd (.ofBits .f32 acc.toNat) (.ofBits .f32 r)
  let (y, f3) := roundVal .f32 f.arnd false v
  (BitVec.ofNat 32 y, f1 ||| f2 ||| f3)

/-- The accumulators, marks and flags of a GO as it works. -/
structure GoState where
  acc : Sparse (BitVec 32)
  marks : List Nat
  flags : FlagSet

/-- Write an accumulator; +0 is not listed. -/
def putAcc (m : Sparse (BitVec 32)) (k : Nat) (v : BitVec 32) : Sparse (BitVec 32) :=
  if v = 0 then Sparse.erase m k else Sparse.put m k v

/-- One output of one streamed row: its blocks in ascending order (R224). -/
def FmtWord.goOutput (f : FmtWord) (key : Nat) (xs : List LogVal) (ws : List (Nat × LogVal)) (g : GoState) : GoState :=
  (List.range (f.kp / 32)).foldl (fun (g : GoState) blk =>
    let here := (ws.filter (fun w => w.1 / 32 == blk)).map (fun w => (w.1 % 32, w.2))
    match f.blockSum ((xs.drop (32 * blk)).take 32) here with
    | none => { g with marks := if g.marks.contains key then g.marks else g.marks ++ [key], flags := g.flags ||| Flag.nar }
    | some d =>
      let (y, fl) := f.accumulate ((Sparse.find g.acc key).getD 0) d
      { g with acc := putAcc g.acc key y, flags := g.flags ||| fl }) g

/-- One streamed row against the 64 outputs of the stationary plane. -/
def FmtWord.goRow (f : FmtWord) (a : Fin 4) (t : Nat) (p : Plane) (data scales : List Byte) (g : GoState) : GoState :=
  let xs := (List.range f.kp).map (f.streamed data scales)
  let g := { g with flags := xs.foldl (fun fl x => fl ||| x.2) g.flags }
  (List.range 64).foldl (fun g n => f.goOutput (accKey a t n) (xs.map (fun x => x.1))
    ((p.weights.filter (fun w => w.1 / 512 == n)).map (fun w => (w.1 % 512, w.2))) g) g

/-- The bytes of a streamed row's data. -/
def FmtWord.rowBytes (f : FmtWord) : Nat := f.kp * f.a.width / 8
/-- The bytes of a streamed row's scales. -/
def FmtWord.scaleBytes (f : FmtWord) : Nat := if f.a.isLog then f.kp / 16 else 0

/-- Stream and accumulate (R224, R227). -/
def stream (a : Fin 4) (n : Entry) (s : State) : EngResult :=
  if s.cur.cmdWaits (fun k => k.kind == .zacc a || k.kind == .drain a) then .wait
  else tileCommand n (fun f w s =>
    let x := (s.bankAt s.focus.core n.bank).anvil
    let rows := x.rows
    if !s.cur.ownsSet n.bank a then .faultIn (fault 0x04) s
    else if x.stat.rcd != some f.rcd || rows > 256 then .faultIn (fault 0x0C) s
    else
      let at_ := (List.range rows).map x.streamAt
      let scales := if f.a.isLog then at_.map (fun y => y.2) else []
      match addrFault (misaligned 0x0C (4 * f.a.width) (at_.map (fun y => y.1))) (misaligned 0x05 2 scales)
          (at_.map (fun y => (y.1, f.rowBytes)) ++ scales.map (fun y => (y, f.scaleBytes))) with
      | some t => .faultIn t s
      | none =>
        let first := Nat.max (s.cycle + 4) (s.cur.lastRow + f.cyc)
        let last := first + f.cyc * (rows - 1)
        let places := at_.map (fun y => (y.1.toNat, y.2.toNat))
        let ranges := places.map (fun y => (y.1, f.rowBytes)) ++ places.map (fun y => (y.2, f.scaleBytes))
        let s := s.modCur (fun c => { c with lastRow := last })
        .ok n (s.startCmd { AnvilCmd.new n (.go a) last (last + 15) 0 with
          word := w, plane := x.stat, rows := places, want := dedup (sectorsOf ranges) })) s

/-- The rows of a GO have been read: they are accumulated (R224). -/
def State.finishGo (s : State) (core : Nat) (k : AnvilCmd) (a : Fin 4) (f : FmtWord) : FlagSet × State :=
  let c := s.core core
  let g := k.rows.zipIdx.foldl (fun g y =>
      f.goRow a y.2 k.plane (srcBytes k.src y.1.1 f.rowBytes) (srcBytes k.src y.1.2 f.scaleBytes) g)
    { acc := c.acc, marks := c.marks, flags := 0 }
  (g.flags, s.setCore core { c with acc := g.acc, marks := g.marks })

/-- ANVIL_COMMAND_COMPLETE (R48, R224, R227): a command that has read everything takes effect, and its flags merge into the owning bank;
while its memory banks serve others it is late (R148). -/
def execAnvilCommandComplete (id : Nat) (s : State) : Out :=
  let core := s.focus.core
  .next (match s.cur.cmds.find? (fun c => c.id == id) with
    | none => s
    | some k0 =>
      let s := if k0.want.isEmpty then s else s.modCur (fun c => c.readForCmdAll k0 k0.want)
      let k := (s.cur.cmds.find? (fun c => c.id == id)).getD k0
      if !k.want.isEmpty then
        let s := s.modCur (fun c => { c with cmds := c.cmds.map (fun m => if m.id == id then { m with due := s.cycle + 1 } else m) })
        s.postAt (s.cycle + 1) core k.bank (some .anvil) (.anvilCommandComplete id)
      else
        let (fl, s) := match k.kind, FmtWord.of k.word with
          | .lstat, some f => s.finishLstat core k f
          | .go a, some f => s.finishGo core k a f
          | _, _ => (k.flags, s)
        s.mergeFlags core k.bank fl (Eng.src .anvil) k.detail k.upc)

/-! ## DRAIN (R216, R225, R230) -/

/-- The values of a row of a set, marked ones as none. -/
def Core.accRow (c : Core) (a : Fin 4) (t : Nat) : List (Option (BitVec 32)) :=
  (List.range 64).map (fun n =>
    let k := accKey a t n
    if c.marks.contains k then none else some ((Sparse.find c.acc k).getD 0))

/-- A drained value, marked ones as a NaN (R225). -/
def drainVal : Option (BitVec 32) → FVal
  | none => .nan false
  | some v => .ofBits .f32 v.toNat

/-- One element drained under a block's scale code (R225). -/
def FmtWord.drained (f : FmtWord) (sc : Nat) (v : Option (BitVec 32)) : Nat × FlagSet :=
  match v with
  | none => (if f.o.isLog then Fmt.lnar f.o else Fmt.nanBits f.o, Flag.nar)
  | some v =>
    let x : FVal := .ofBits .f32 v.toNat
    if f.o.isLog then (if b10AllZero sc then (Fmt.lzero f.o, 0) else linToLog f.o (b10Scale sc) x)
    else roundVal f.o .rne f.sat x

/-- The bytes of an output row, of its scales, and its flags (R216, R225). -/
def FmtWord.drainRow (f : FmtWord) (b7 : StackWord) (row : List (Option (BitVec 32))) : List Byte × List Byte × FlagSet :=
  let block (j : Nat) : Nat × List (Nat × FlagSet) :=
    let vs := (row.drop (32 * j)).take 32
    let sc := if !f.o.isLog then 0 else if b7.getLsbD 10 then blockScale f.o (vs.map drainVal) else b7.toNat % 1024
    (sc, vs.map (f.drained sc))
  let lo := block 0
  let hi := block 1
  let out := lo.2 ++ hi.2
  let w := f.o.width
  (leBytes (8 * w) (sumNat (out.zipIdx.map (fun x => x.1.1 % 2 ^ w * 2 ^ (w * x.2)))), leBytes 32 (lo.1 + 65536 * hi.1),
    out.foldl (fun g x => g ||| x.2) 0)

/-- The amax candidate of a row: the largest magnitude of its unmarked values that are no NaN (R230). -/
def amaxCandidate (row : List (Option (BitVec 32))) : Option (BitVec 32) :=
  row.foldl (fun (m : Option (BitVec 32)) v => match v with
    | none => m
    | some v =>
      let x := v &&& 0x7FFFFFFF
      if x.toNat > Fmt.infBits .f32 then m else some (match m with
        | none => x
        | some y => if x.toNat > y.toNat then x else y)) none

/-- The drain scale word breaks a rule (R216). -/
def badDrainScale (b7 : StackWord) : Bool := b7.toNat ≥ 2048 || (!b7.getLsbD 10 && b7.toNat % 1024 == 0x200)

/-- Drain a set (R225, R227, R230). -/
def drainSet (a : Fin 4) (n : Entry) (s : State) : EngResult :=
  if s.cur.cmdWaits (fun k => k.kind == .zacc a || k.kind == .go a) then .wait
  else tileCommand n (fun f w s =>
    let x := (s.bankAt s.focus.core n.bank).anvil
    let rows := x.rows
    let lf := f.o.isLog
    if !s.cur.ownsSet n.bank a then .faultIn (fault 0x04) s
    else if rows > 256 || (lf && badDrainScale x.b[7]) || (f.sparse && f.b.isHalfStep) then .faultIn (fault 0x0C) s
    else
      let out := x.b[5].toNat
      let sc := x.b[6].toNat
      let op := 8 * f.o.width
      match addrFault [] (misaligned 0x05 32 ((out : Int) :: (if lf then [(sc : Int)] else [])))
          ((List.range rows).map (fun t => (((out + t * op : Nat) : Int), op))
            ++ (if lf then (List.range rows).map (fun t => (((sc + t * 32 : Nat) : Int), 32)) else [])) with
      | some t => .faultIn t s
      | none =>
        let c := s.cur.readFirst out (rows * op)
        let c := if lf then c.readFirst sc (rows * 32) else c
        let id := c.cmdNo
        let lines := (List.range rows).map (fun t => (t, c.accRow a t))
        let done := lines.map (fun y => (y.1, f.drainRow x.b[7] y.2))
        let flags := done.foldl (fun g y => g ||| y.2.2.2) 0
        let c := done.foldl (fun (c : Core) y =>
          let c := c.localWrites .anvil n.bank (out + y.1 * op) y.2.1 (s.cycle + 8 + y.1) id
          if lf then c.localWrites .anvil n.bank (sc + y.1 * 32) y.2.2.1 (s.cycle + 8 + y.1) id else c) c
        let ups := lines.filterMap (fun y => (amaxCandidate y.2).map (fun m =>
          ({ bank := n.bank, reg := f.asel, val := m, due := s.cycle + 8 + y.1 } : AmaxUpd)))
        let s := s.setCore s.focus.core { c with amaxUpds := c.amaxUpds ++ ups }
        .ok n (s.startCmd { AnvilCmd.new n (.drain a) s.cycle (s.cycle + 7 + rows) flags with word := w })) s

/-! ## The words (R219) -/

/-- SETL (R217). -/
def execSetl (a : Fin 6) (s : State) : Out :=
  .next (s.engWord fun n s => n.popped 2 fun l n => setLoop a (l.getD 0 0) (sext 48 (l.getD 1 0)) n s)
/-- SETB (R217). -/
def execSetb (a : Fin 8) (s : State) : Out :=
  .next (s.engWord fun n s => n.popped 1 fun l n => setBase a (BitVec.ofNat 48 (l.getD 0 0)) n s)
/-- LSTAT (R221). -/
def execLstat (s : State) : Out := .next (s.engWord loadStationary)
/-- SWAPP (R222). -/
def execSwapp (s : State) : Out := .next (s.engWord swapPlanes)
/-- ZACC (R223). -/
def execZacc (a : Fin 4) (s : State) : Out := .next (s.engWord (zeroSet a))
/-- GO (R224). -/
def execGo (a : Fin 4) (s : State) : Out := .next (s.engWord (stream a))
/-- DRAIN (R225). -/
def execDrain (a : Fin 4) (s : State) : Out := .next (s.engWord (drainSet a))
/-- AMAXC (R226). -/
def execAmaxc (a : Fin 4) (s : State) : Out := .next (s.engWord (clearAmax a))

/-- LAYER (R231, R233): the entry goes on in the microcode store. -/
def execLayer (a : Fin 4) (s : State) : Out :=
  .next (s.engWord fun n s => n.popped 1 fun l n =>
    if s.cur.ucodeName.isNone then .fault (fault 0x22)
    else if l.headD 0 ≥ 4096 then .fault (fault 0x0D)
    else .jump { n with layer := some (a, l.headD 0), stripe := false } s)

/-! ## Micro-operations (R232) -/

/-- A micro-operation of the Anvil's entry; outside a LAYER sequence no step executes one. -/
def State.microOp (s : State) (body : Entry → State → EngResult) : State :=
  s.engWord fun n s => if n.layer.isNone then .wait else body n s

/-- uend: the entry goes on with the word after LAYER. -/
def execUend (s : State) : Out := .next (s.microOp fun n s => .ok { n with layer := none, stripe := false } s)
/-- usetl. -/
def execUsetl (a : Fin 6) (count : BitVec 16) (stride : BitVec 32) (s : State) : Out :=
  .next (s.microOp (setLoop a count.toNat stride.toInt))
/-- usetb. -/
def execUsetb (a : Fin 8) (x : BitVec 48) (s : State) : Out := .next (s.microOp (setBase a x))
/-- uaddb. -/
def execUaddb (a : Fin 8) (d : BitVec 48) (s : State) : Out :=
  .next (s.microOp fun n s => setBase a ((s.bankAt s.focus.core n.bank).anvil.b[a] + d) n s)
/-- ulstat. -/
def execUlstat (s : State) : Out := .next (s.microOp loadStationary)
/-- uswapp. -/
def execUswapp (s : State) : Out := .next (s.microOp swapPlanes)
/-- uzacc. -/
def execUzacc (a : Fin 4) (s : State) : Out := .next (s.microOp (zeroSet a))
/-- ugo. -/
def execUgo (a : Fin 4) (s : State) : Out := .next (s.microOp (stream a))
/-- udrain. -/
def execUdrain (a : Fin 4) (s : State) : Out := .next (s.microOp (drainSet a))
/-- uamaxc. -/
def execUamaxc (a : Fin 4) (s : State) : Out := .next (s.microOp (clearAmax a))
/-- usetlc. -/
def execUsetlc (a : Fin 4) (v : BitVec 16) (s : State) : Out :=
  .next (s.microOp fun n s => .ok n (s.modAnvil n (fun x => { x with lc := x.lc.set a v })))
/-- uloop. -/
def execUloop (a : Fin 4) (target : BitVec 12) (s : State) : Out :=
  .next (s.microOp fun n s =>
    let v := (s.bankAt s.focus.core n.bank).anvil.lc[a] - 1
    let s := s.modAnvil n (fun x => { x with lc := x.lc.set a v })
    if v = 0 then .ok n s
    else .jump { n with layer := n.layer.map (fun y => (y.1, target.toNat)), stripe := false } s)
/-- ustripe: an interruptible boundary of kind 3 (R234). -/
def execUstripe (s : State) : Out := .next (s.microOp fun n s => .jump { n.advance with stripe := true } s)

end Sys2Proof.Machine
end

