-- ==== Sys2Proof/Machine/Collective.lean ====
section
/-!
DEFINITION. Core-bound packets, the collective engine's own words, the communication step of COMM, and what becomes of packets of a
quenched job (R174, R175, R355 to R360, R363, R366, R367).
-/
namespace Sys2Proof.Machine

/-! ## Packets of a quenched job (R363, R366, R367) -/

/-- The resume record of a job tag. -/
def State.resumeOf (s : State) (tag : BitVec 16) : Option ResumeRec := s.resume.find? (fun r => r.tag == tag)

/-- Change the resume record of a job tag. -/
def State.modResume (s : State) (tag : BitVec 16) (f : ResumeRec → ResumeRec) : State :=
  { s with resume := s.resume.map (fun r => if r.tag == tag then f r else r) }

/-- The save area of a job tag. -/
def State.saveArea (s : State) (tag : BitVec 16) : Option SaveArea := s.saveAreas.find? (fun a => a.tag == tag)

/-- Change the save area of a job tag. -/
def State.modSaveArea (s : State) (tag : BitVec 16) (f : SaveArea → SaveArea) : State :=
  { s with saveAreas := s.saveAreas.map (fun a => if a.tag == tag then f a else a) }

/-- The bytes that packets take in a save area: a header flit and their data flits (R355). -/
def packetSize (p : Packet) : Nat := 64 + (p.data.length + 63) / 64 * 64

/-- A core-bound packet is stored whole in arrival order; where the area would overflow, 0x1C is logged and the quench is aborted
(R363). -/
def State.savePacket (s : State) (p : Packet) : State :=
  match s.saveArea p.jobtag with
  | none => s
  | some a =>
    if sumNat ((a.packets ++ [p]).map packetSize) > s.saveReserveMiB * 2 ^ 20 then
      if (s.resumeOf p.jobtag).any (fun r => r.state == 3) then s
      else (s.logNobody 0x1C 0 p.jobtag).modResume p.jobtag (fun r => { r with state := 3 })
    else (s.modSaveArea p.jobtag (fun a => { a with packets := a.packets ++ [p] })).modResume p.jobtag
      (fun r => { r with npkt := r.npkt + 1 })

/-- A core-bound packet after its save area has closed: logged as 0x1B, and appended late while the area is held; otherwise it is
discarded and the record becomes lossy, unless CKRES has restored the job (R367, R374). -/
def State.latePacket (s : State) (p : Packet) : State :=
  let s := s.addLog { code := 0x1B, lost := false, core := p.score.setWidth 16, module := p.smod, bank := p.sbank, keyid := 0
                      addr := BitVec.ofNat 64 (p.dmod.toNat * 2 ^ 48 + p.dcore.toNat * 2 ^ 32 + p.seq.toNat), jobtag := p.jobtag
                      part := 0, time := s.cycle }
  match s.saveArea p.jobtag with
  | some _ => s.savePacket { p with late := true }
  | none => { s with discarded := s.discarded + 1 }.modResume p.jobtag (fun r =>
      if r.state == 4 then r else { r with state := 2 })

/-- The job of a tag is off this module: its area is open, or its record stands in a state other than running. -/
def State.isQuenchedTag (s : State) (tag : BitVec 16) : Bool :=
  (s.saveArea tag).isSome || match s.resumeOf tag with
    | none => false
    | some r => r.state != 0

/-- A core-bound packet that finds its job quenched goes into the open save area, or is late. -/
def State.divertPacket (s : State) (p : Packet) : State :=
  match s.saveArea p.jobtag with
  | some a => if a.closed then s.latePacket p else s.savePacket p
  | none => s.latePacket p

/-! ## Sending (R356, R359) -/

/-- The step that applies a packet. -/
def packetEvent (p : Packet) : Instr :=
  match p.typ.toNat with
  | 1 => .reducePacketApply p
  | 2 => .signalPacketApply p
  | 3 => .broadcastPacketApply p
  | _ => .putPacketApply p

/-- An empty packet of the acting engine's entry. -/
def State.entryPacket (s : State) (n : Entry) (typ : BitVec 4) (dmod : BitVec 12) (dcore : BitVec 11) : Packet :=
  { s.packet typ dmod dcore with
    jobtag := s.jobTag (s.bankAt s.focus.core n.bank), sbank := n.bank, stepBit := n.fromStep.isSome, wordNo := s.cur.sendNo
    seq := BitVec.ofNat 32 (s.cur.nextSeq n.bank dmod dcore) }

/-- A packet leaves: to a core of this module it travels on the pair's channel, to another module on an Evnov link. -/
def State.sendPacket (s : State) (p : Packet) : State :=
  let core := s.focus.core
  let s := s.modCur (fun c => c.countSend p.sbank p.dmod p.dcore)
  if p.dmod == Config.moduleNumber then
    s.post (Nat.max 1 (pathTime core p.dcore.toNat)) (some (core, p.dcore.toNat, 0)) p.dcore.toNat false none (packetEvent p)
  else { s with outbox := s.outbox ++ [p] }

/-- The 1024-byte pieces of a transfer. -/
def piecesOf (k : Nat) : List (Nat × Nat) := (List.range ((k + 1023) / 1024)).map (fun i => (1024 * i, Nat.min 1024 (k - 1024 * i)))

/-- Note a transfer of so many packets. -/
def State.noteSend (s : State) (n : Entry) (count : Nat) : State :=
  s.modCur (fun c => { c with sendNo := c.sendNo + 1, sends := if count = 0 then c.sends else c.sends ++
    [{ no := c.sendNo, bank := n.bank, left := count, judged := n.fromStep.isSome, doneAt := s.cycle, limit := none }] })

/-- Send bytes to some cores (R359). -/
def State.transfer (s : State) (n : Entry) (typ : BitVec 4) (arg : BitVec 8) (targets : List (BitVec 12 × BitVec 11))
    (raddr : Nat) (bytes : List Byte) : State :=
  let k := bytes.length
  let word := s.cur.sendNo
  let s := s.noteSend n (targets.length * (piecesOf k).length)
  targets.foldl (fun s d => (piecesOf k).foldl (fun (s : State) x =>
    s.sendPacket { s.entryPacket n typ d.1 d.2 with
      arg := arg, raddr := BitVec.ofNat 22 (raddr + x.1), data := (bytes.drop x.1).take x.2, wordNo := word }) s) s

/-! ## The words (R358 to R360) -/

/-- A core operand holds a bit that no field has. -/
def badCoreOperand (x : Nat) : Bool := x % 2 ^ 11 != x % 2 ^ 16 || x / 2 ^ 28 % 4 != 0 || x ≥ 2 ^ 32

/-- The module and core that a core operand names (R170, R358). -/
def State.operandCore (s : State) (x : Nat) : BitVec 12 × BitVec 11 :=
  if x / 2 ^ 30 % 2 = 1 then (Config.moduleNumber, BitVec.ofNat 11 s.focus.core)
  else (if x / 2 ^ 31 % 2 = 1 then BitVec.ofNat 12 (x / 2 ^ 16) else Config.moduleNumber, BitVec.ofNat 11 x)

/-- The rules of a transfer's addresses and length (R358). -/
def transferFault (raddr laddr k : Nat) : Option TrapInfo :=
  match [laddr, raddr, k].find? (fun x => x % 32 ≠ 0) with
  | some x => some (faultAt 0x05 (BitVec.ofNat 64 x))
  | none =>
    if k = 0 || k > 2 ^ 20 then some (fault 0x0C)
    else if laddr + k > localSize then some (faultAt 0x06 (BitVec.ofNat 64 laddr))
    else if raddr + k > localSize then some (faultAt 0x06 (BitVec.ofNat 64 raddr))
    else none

/-- A transfer of local bytes, once the accesses before the entry's push are performed (R164): its sectors are read each at a time of its
own (R79, R83). -/
def sendFrom (typ : BitVec 4) (arg : BitVec 8) (targets : List (BitVec 12 × BitVec 11)) (raddr laddr k : Nat) (n : Entry) (s : State) :
    EngResult :=
  if !s.cur.forked n then .wait
  else withSource [(laddr, k)] (fun get n s => .ok n (s.transfer n typ arg targets raddr (get laddr k))) n s

/-- CPUT and CRED: one destination. -/
def putWord (typ : BitVec 4) (arg : BitVec 8) (n : Entry) (s : State) : EngResult :=
  n.popped 4 fun l n =>
    let x := l.getD 0 0
    if badCoreOperand x then .fault (fault 0x0D)
    else match transferFault (l.getD 1 0) (l.getD 2 0) (l.getD 3 0) with
      | some t => .fault t
      | none => sendFrom typ arg [s.operandCore x] (l.getD 1 0) (l.getD 2 0) (l.getD 3 0) n s

/-- CPUT (R359). -/
def execCput (s : State) : Out := .next (s.engWord (putWord 0 0))
/-- CRED (R359). -/
def execCred (a : Fin 4) (s : State) : Out := .next (s.engWord (putWord 1 (BitVec.ofNat 8 a.val)))

/-- The cores of a broadcast group but the sender (R359). -/
def State.groupCores (s : State) (bank : Bool) (g : Nat) : List Nat :=
  let core := s.focus.core
  match (s.bankAt core bank).job.bind s.job with
  | none => []
  | some j => (j.cores.map (fun p => p.1)).filter (fun c => c != core && match g with
    | 0 => c / 8 == core / 8
    | 1 => dieOf c == dieOf core
    | 2 => true
    | _ => (s.bankAt c bank).stage.toNat == (s.bankAt core bank).stage.toNat + 1)

/-- CBCAST (R359). -/
def execCbcast (s : State) : Out :=
  .next (s.engWord fun n s => n.popped 3 fun l n =>
    let g := l.getD 0 0
    if g > 3 then .fault (fault 0x0C)
    else match transferFault (l.getD 1 0) (l.getD 1 0) (l.getD 2 0) with
      | some t => .fault t
      | none => sendFrom 3 0 ((s.groupCores n.bank g).map (fun c => (Config.moduleNumber, BitVec.ofNat 11 c)))
          (l.getD 1 0) (l.getD 1 0) (l.getD 2 0) n s)

/-- CSIG (R162, R359): after the entry's earlier transfers have been applied. -/
def execCsig (k : BitVec 8) (s : State) : Out :=
  .next (s.engWord fun n s => n.popped 1 fun l n =>
    let x := l.headD 0
    let here := x / 2 ^ 30 % 2 = 1
    if badCoreOperand x then .fault (fault 0x0D)
    else if here && !s.cur.ownsSem n.bank k then .fault (fault 0x04)
    else if s.cur.sends.any (fun y => y.left != 0) || !s.cur.forked n then .wait
    else if here then .ok n (s.engSignal n k)
    else
      let (dmod, dcore) := s.operandCore x
      let p := { s.entryPacket n 2 dmod dcore with arg := k }
      .ok n ((s.noteSend n 1).sendPacket p))

/-- The transfers of a bank take the start of the next slot as their limit; without one they are not judged. -/
def limitSends (bank : Bool) (d : Option Nat) (l : List Send) : List Send :=
  l.map (fun (x : Send) => if x.bank == bank && x.judged && x.limit.isNone then { x with limit := d, judged := d.isSome } else x)

/-- CSLOT (R174, R360): it holds the later words until its step time, and judges the transfers of the slot before. -/
def execCslot (s : State) : Out :=
  .next (s.engWord fun n s => n.popped 1 fun l n =>
    match n.fromStep, s.cur.coll.sched with
    | some _, some sc =>
      let start := sc.t0 + l.headD 0
      if s.cycle < start then .wait
      else
        let s := s.modCur (fun c => { c with sends := limitSends n.bank (some start) c.sends })
        .ok n (if s.cur.sends.any (fun y => y.bank == n.bank && y.limit.isSome) then
          s.postAt s.cycle s.focus.core n.bank (some .coll) .slotOverrun else s)
    | _, _ => .fault (fault 0x0D))

/-! ## Slot overruns (R174, R175) -/

/-- A transfer has missed the start of the next slot. -/
def Send.missed (x : Send) : Bool :=
  match x.limit with
  | none => false
  | some d => x.left != 0 || x.doneAt > d

/-- The transfers of a bank that have been judged are over, or on their way without further judgement. -/
def judgedSends (bank : Bool) (l : List Send) : List Send :=
  let hit (x : Send) : Send := if x.bank == bank && x.judged && x.limit.isSome then { x with judged := false } else x
  (l.map hit).filter (fun x => x.left != 0 || x.judged)

/-- The transfers of a bank that have a limit are judged: each one that missed it counts once. -/
def Core.judge (c : Core) (bank : Bool) : Core :=
  let k := (c.sends.filter (fun x => x.bank == bank && x.judged && x.missed)).length
  let c := c.modBank bank (fun b => { b with overrun := BitVec.ofNat 64 (Nat.min (b.overrun.toNat + k) (2 ^ 64 - 1)) })
  { c with sends := judgedSends bank c.sends }

/-- SLOT_OVERRUN (R174). -/
def execSlotOverrun (s : State) : Out := .next (s.modCur (fun c => c.judge s.focus.bank))

/-! ## Arrival (R356, R359, R360) -/

/-- One packet of a transfer has been applied; a transfer that is over and that no step judges is forgotten. -/
def landSend (no : Nat) (bank : Bool) (cycle : Nat) (l : List Send) : List Send :=
  let hit (x : Send) : Send := if x.no == no && x.bank == bank then { x with left := x.left - 1, doneAt := cycle } else x
  (l.map hit).filter (fun x => x.left != 0 || x.judged)

/-- An acknowledgement leaves for the sender of a packet on another module, with a fault's code or 0 (R170, R359). -/
def State.ackOut (s : State) (p : Packet) (code : BitVec 8) : State := { s with acksOut := s.acksOut ++ [(p, code)] }

/-- The sender learns that a packet has been applied or discarded; a discard is a fault of its engine (R359). -/
def State.delivered (s : State) (p : Packet) (err : Bool) : State :=
  if p.smod != Config.moduleNumber then s.ackOut p (if err then 0x04 else 0)
  else
    let src := p.score.toNat
    let s := s.modCore src (fun c => { c with sends := landSend p.wordNo p.sbank s.cycle c.sends })
    if !err then s
    else match (s.core src).coll.cur with
      | none => s.holdTrap src p.sbank { fault 0x04 with src := 4 }
      | some n => if n.bank == p.sbank then s.engFault src .coll (fault 0x04) else s.holdTrap src p.sbank { fault 0x04 with src := 4 }

/-- Apply a packet in one step to the bank that holds its job; one for a core of another module only tells its sender. -/
def State.applyPacket (s : State) (p : Packet) (f : Nat → Bool → State → State) : State :=
  let core := p.dcore.toNat
  if p.dmod != Config.moduleNumber then s.delivered p false
  else match s.bankOfTag core p.jobtag with
    | some b => (f core b s).delivered p false
    | none => if s.isQuenchedTag p.jobtag then s.divertPacket p else s.delivered p true

/-- Write the bytes of a put (R359). -/
def putBytesOf (p : Packet) (core : Nat) (bank : Bool) (s : State) : State :=
  s.modCore core (fun c => c.storeLocal bank p.raddr.toNat p.data)

/-- PUT_PACKET_APPLY (R359). -/
def execPutPacketApply (p : Packet) (s : State) : Out := .next (s.applyPacket p (putBytesOf p))
/-- BROADCAST_PACKET_APPLY (R359). -/
def execBroadcastPacketApply (p : Packet) (s : State) : Out := .next (s.applyPacket p (putBytesOf p))

/-- One element of a reduction (R359). -/
def combineElem (op : Nat) (x y : Nat) : Nat × FlagSet :=
  match op with
  | 0 => let (v, f) := FVal.add .rne (.ofBits .f32 x) (.ofBits .f32 y)
         let (r, g) := roundVal .f32 .rne false v
         (r, f ||| g)
  | 1 => let (v, f) := FVal.max (.ofBits .f32 x) (.ofBits .f32 y)
         let (r, g) := roundVal .f32 .rne false v
         (r, f ||| g)
  | 2 => let (v, f) := FVal.add .rne (.ofBits .bf16 x) (.ofBits .bf16 y)
         let (r, g) := roundVal .bf16 .rne false v
         (r, f ||| g)
  | _ => ((x + y) % 2 ^ 32, 0)

/-- Combine a reduce packet into the receiver's memory; its flags merge into the receiving bank (R48, R359). -/
def combineBytes (p : Packet) (core : Nat) (bank : Bool) (s : State) : State :=
  let op := p.arg.toNat % 4
  let w := if op = 2 then 2 else 4
  let a := p.raddr.toNat
  let old := Memory.readBytes (s.core core).mem a p.data.length
  let z := (List.range (p.data.length / w)).map (fun i =>
    combineElem op (leNat ((old.drop (w * i)).take w)) (leNat ((p.data.drop (w * i)).take w)))
  let f := z.foldl (fun f v => f ||| v.2) 0
  (s.modCore core (fun c => c.storeLocal bank a (z.flatMap (fun v => leBytes w v.1)))).mergeFlags core bank f (Eng.src .coll) 0 0

/-- The stage argument of the participants of a bank's last barrier (R172, R174). -/
def Bank.stepStage (b : Bank) : Option (BitVec 4) := if b.lastBarStage then some b.stage else none

/-- A reduce packet waits for the end of a step: its sender's step takes in the receiver, or the receiver is in a step (R360). -/
def State.inStepOf (s : State) (p : Packet) (core : Nat) (bank : Bool) : Bool :=
  p.stepBit && ((match (s.bankAt core bank).status with
    | .inStep _ => true
    | .vacant | .running | .idle | .halted | .stopped _ | .atBar _ _ | .held | .pageWait | .ended | .quenched => false)
    || (p.smod == Config.moduleNumber && match (s.bankAt core bank).job with
      | none => false
      | some j => (s.participants j (s.bankAt p.score.toNat p.sbank).stepStage).contains (core, bank)))

/-- REDUCE_PACKET_APPLY (R359, R360). -/
def execReducePacketApply (p : Packet) (s : State) : Out :=
  .next (s.applyPacket p fun core bank s =>
    if s.inStepOf p core bank then s.modCore core (fun c => { c with reduces := c.reduces ++ [p] })
    else combineBytes p core bank s)

/-- SIGNAL_PACKET_APPLY (R359): a CSIG's increment, held for a saved job (R366). -/
def execSignalPacketApply (p : Packet) (s : State) : Out :=
  let core := p.dcore.toNat
  .next (if p.dmod != Config.moduleNumber then s.delivered p false
  else match s.bankOfTag core p.jobtag with
    | none => match s.holdIncrement p.jobtag core p.arg with
      | some s => s.delivered p false
      | none => s.delivered p true
    | some b =>
      let c := s.core core
      if !c.ownsSem b p.arg then s.delivered p true
      else match c.incSem p.arg p.pts true with
        | some c => (s.setCore core (c.wakeOwners p.arg)).delivered p false
        | none =>
          let src := p.score.toNat
          if p.smod != Config.moduleNumber then s.ackOut p 0x23
          else
            let s := s.delivered p false
            match (s.core src).coll.cur with
            | some n => s.engTrap src .coll n (fault 0x23)
            | none => s.holdTrap src p.sbank { fault 0x23 with src := 4 })

/-! ## The communication step (R174) -/

/-- A participant is in the step. -/
def State.inStep (s : State) (stage : Bool) (p : Nat × Bool) : Bool := (s.bankAt p.1 p.2).status == .inStep stage

/-- COMM (R174); the schedule that its stream has just stored is there before the step begins. -/
def execComm (h : Hdr) (m : MemOp) (s : State) : Out :=
  .next (s.issue ((Need.of h).addr m |>.local) none fun s =>
    if !s.bank.stepReady then .fault (faultDetail 0x01 1)
    else if s.cur.coll.sched.isSome || s.cur.localBusy s.focus.bank then .stall
    else
      let (x, s) := s.readAddr m
      let a := x.toNat
      if a % 16 ≠ 0 then .fault (faultAt 0x05 x)
      else match windowFault a 16 with
        | some t => .fault t
        | none =>
          let w := s.localNat a 16
          let esize := 16 * 2 ^ bits w 45 44
          let count := bits w 42 32
          if bits w 127 46 ≠ 0 || bits w 43 43 ≠ 0 || bits w 45 44 = 3 || count > 1024 then .fault (fault 0x0C)
          else match windowFault a (16 + count * esize) with
            | some t => .fault t
            | none =>
              let isStage := s.bank.lastBarStage
              let s := (s.touchLocal a (16 + count * esize)).modBank (fun b => { b with stepReady := false, status := .inStep isStage })
              let sc : Sched := { bank := s.focus.bank, base := a + 16, esize := esize, count := count, next := 0, tend := bits w 31 0
                                  t0 := s.cycle + 1 }
              let s := s.modCur (fun c => { c with coll := { c.coll with sched := some sc } })
              let s := match s.bank.job with
                | none => s
                | some id =>
                  let stage := s.bank.stepStage
                  if (s.participants id stage).all (s.inStep isStage) then
                    s.postAt (s.cycle + 1) s.focus.core s.focus.bank none (.commStepEnd id stage)
                  else s
              .ok s.leaveBank)

/-- A participant's schedule has completed, and every byte it sent has been written (R174). -/
def Core.stepDone (c : Core) (bank : Bool) : Bool :=
  (match c.coll.sched with
    | none => false
    | some sc => sc.bank == bank && sc.next ≥ sc.count)
  && (match c.coll.cur with
    | none => true
    | some n => n.fromStep.isNone)
  && c.sends.all (fun x => x.bank != bank || x.left == 0)

/-- Insert a packet by the order of R360: sender module, sender core, the sender's word order. -/
def insertPacket (p : Packet) : List Packet → List Packet
  | [] => [p]
  | q :: r =>
    let key (x : Packet) : Nat := ((x.smod.toNat * 2048 + x.score.toNat) * 2 ^ 64 + x.wordNo) * 2 ^ 32 + x.seq.toNat
    if key p < key q then p :: q :: r else q :: insertPacket p r

/-- One participant's step ends: its last slot is judged, and its reduce packets are combined (R174, R360). -/
def State.endStep (s : State) (p : Nat × Bool) : State :=
  let c := s.core p.1
  let last : Option Nat := match c.coll.sched with
    | none => none
    | some sc => if sc.tend = 0 then none else some (sc.t0 + sc.tend)
  let c : Core := { c with sends := limitSends p.2 last c.sends, coll := { c.coll with sched := none } }
  let tag := s.jobTag (c.bank p.2)
  let mine := (c.reduces.filter (fun x => x.jobtag == tag)).foldl (fun l x => insertPacket x l) []
  let s := s.setCore p.1 { c.judge p.2 with reduces := c.reduces.filter (fun x => x.jobtag != tag) }
  mine.foldl (fun s x => combineBytes x p.1 p.2 s) s

/-- The participants on other modules are through as well (log 9). -/
def State.peersThrough (s : State) : Bool := (Config.peersArrive s.free).any (fun x => x.1 == 0)

/-- COMM_STEP_END (R174): once every participant is through, the reductions are combined and the implicit barrier releases. -/
def execCommStepEnd (job : Nat) (stage : Option (BitVec 4)) (s : State) : Out :=
  let parts := s.participants job stage
  .next (if parts.isEmpty || !parts.all (s.inStep stage.isSome) then s
  else if !parts.all (fun p => (s.core p.1).stepDone p.2) || (!(s.farParts job).isEmpty && !s.peersThrough) then
    s.tick.postAt (s.cycle + 1) s.focus.core s.focus.bank none (.commStepEnd job stage)
  else
    let s := parts.foldl State.endStep s
    let s := parts.foldl (fun (s : State) p => s.modBankAt p.1 p.2 (fun b => { b with status := .atBar stage.isSome 0 })) s
    s.releaseBarrier job stage 0)

/-! ## Packets from outside (R356, R363, R366, R367) -/

/-- INVALID_PACKET_DISCARD (R356). -/
def execInvalidPacketDiscard (_ : Packet) (s : State) : Out := .next { s with discarded := s.discarded + 1 }
/-- FLIT_RETRY (R355): the link sends the flit again; no program sees it. -/
def execFlitRetry (_ : Fin 64) (_ : Nat) (s : State) : Out := .next s
/-- SAVE_AREA_PACKET (R363). -/
def execSaveAreaPacket (p : Packet) (s : State) : Out := .next (s.savePacket p)
/-- LATE_PACKET (R367). -/
def execLatePacket (p : Packet) (s : State) : Out := .next (s.latePacket p)
/-- HELD_INCREMENT (R366): an increment of a restored job is discarded where CKRES restored it. -/
def execHeldIncrement (tag : BitVec 16) (core : Nat) (k : BitVec 8) (s : State) : Out :=
  .next ((s.holdIncrement tag core k).getD s)

end Sys2Proof.Machine
end

