-- ==== Sys2Proof/Machine/Segments.lean ====
section
/-!
DEFINITION. Segment tables: reading their 1024 entries, and the checks of SEGLD (R283, R344).
-/
namespace Sys2Proof.Machine

/-- A segment table entry from its 32 bytes (R283). A STAGING entry keeps its slices in `vbase`. -/
def Seg.parse (d : List Byte) : Seg :=
  let k := field d 12 1
  { vbase := field d 0 4, len := field d 4 4, pbase := field d 8 4, kind := BitVec.ofNat 2 k, lease := k.testBit 2
    cls := BitVec.ofNat 2 (k / 8), policy := BitVec.ofNat 2 (k / 32), dlo := field d 13 1, dhi := field d 14 1
    keyid := BitVec.ofNat 7 (field d 15 1), perm := BitVec.ofNat 4 (field d 16 1), hostVisible := (field d 17 1).testBit 0
    devBias := (field d 17 1).testBit 1 }

/-- A reserved field or bit of an entry is not zero (R283). -/
def segReserved (d : List Byte) : Bool :=
  (if field d 12 1 % 4 = 2 then field d 2 2 != 0 else field d 0 4 ≥ 2 ^ 27)
    || (field d 12 1).testBit 7 || (field d 15 1).testBit 7 || field d 16 1 ≥ 16 || field d 17 1 ≥ 4 || field d 18 14 != 0

/-- The units of a stack set's physical space: 32 768 for each stack (R344). -/
def Seg.spaceUnits (g : Seg) : Nat := 32768 * (2 * g.dies.2)

/-- The fields of an entry break a rule (R344, first two rows); ranges count for a valid entry. -/
def Seg.badFields (g : Seg) (d : List Byte) : Bool :=
  segReserved d || g.kind == 3 || g.policy == 3 || ((g.kind == 2 || g.policy == 2) && g.dhi < g.dlo)
    || (g.kind != 2 && g.policy == 2 && (g.dlo > 31 || g.dhi > 31))
    || (g.len != 0 && g.kind != 2 && (g.vbase + g.len > 2 ^ 27 || g.pbase + g.len > g.spaceUnits))

/-- Two valid PATCHED or CELL entries overlap (R344). -/
def Seg.overlaps (g h : Seg) : Bool :=
  g.len != 0 && h.len != 0 && g.kind != 2 && h.kind != 2 && g.vbase < h.vbase + h.len && h.vbase < g.vbase + g.len

/-- The dies that an entry reaches (R209, R285). -/
def Seg.dieList (g : Seg) : List Nat :=
  if g.kind = 2 then (List.range 256).filter (fun d => g.dlo ≤ d && d ≤ g.dhi)
  else (List.range g.dies.2).map (fun i => g.dies.1 + i)

/-- The partition to which a key slot is bound (R352). -/
def State.keyPart (s : State) (k : BitVec 7) : Option (BitVec 4) :=
  (s.sec.bound.find? (fun x => x.1.val == k.toNat)).map (fun x => x.2)

/-- An entry reaches beyond the partition of the job's dies (R344). -/
def State.outside (s : State) (part : BitVec 4) (g : Seg) : Bool :=
  g.len != 0 && (g.dieList.any (fun d => d ≥ 32 || (s.die d).part != part) || s.keyPart g.keyid != some part)

/-- The fault code of one entry after those before it (R344). `part` is the job's partition where partitions are checked. -/
def State.segCode (s : State) (part : Option (BitVec 4)) (before : List Seg) (d : List Byte) : Option (BitVec 8) :=
  let g := Seg.parse d
  let cells := sumNat ((before ++ [g]).map (fun h => if h.kind == 1 then h.len else 0))
  if g.badFields d || before.any g.overlaps || (g.kind == 1 && cells > 32768) then some 0x0C
  else match part with
    | none => none
    | some p => if s.outside p g then some 0x1A else none

/-- The entries of a table from its bytes. -/
def segEntries (bytes : List Byte) : List (List Byte) := (List.range 1024).map (fun i => (bytes.drop (32 * i)).take 32)

/-- The first entry of a list that a check of it after those before it refuses: its index and fault code. -/
def firstBad (check : List Seg → List Byte → Option (BitVec 8)) : List Seg → Nat → List (List Byte) → Option (Nat × BitVec 8)
  | _, _, [] => none
  | before, i, d :: r => match check before d with
    | some c => some (i, c)
    | none => firstBad check (before ++ [Seg.parse d]) (i + 1) r

/-- The first failure of a table, in entry order: its index and fault code (R344). -/
def State.segFault (s : State) (part : Option (BitVec 4)) (before : List Seg) (i : Nat) (l : List (List Byte)) : Option (Nat × BitVec 8) :=
  firstBad (s.segCode part) before i l

/-- A table as a bank holds it: its valid entries by index. -/
def segTable (bytes : List Byte) : Sparse Seg :=
  ((segEntries bytes).zipIdx.map (fun x => (x.2, Seg.parse x.1))).filter (fun x => x.2.len != 0)

/-- The 32 bytes of an entry (R283). -/
def Seg.bytes (g : Seg) : List Byte :=
  leBytes 4 g.vbase ++ leBytes 4 g.len ++ leBytes 4 g.pbase
    ++ leBytes 1 (g.kind.toNat + (if g.lease then 4 else 0) + 8 * g.cls.toNat + 32 * g.policy.toNat)
    ++ leBytes 1 g.dlo ++ leBytes 1 g.dhi ++ leBytes 1 g.keyid.toNat ++ leBytes 1 g.perm.toNat
    ++ leBytes 1 ((if g.hostVisible then 1 else 0) + if g.devBias then 2 else 0) ++ List.replicate 14 0

/-- The 4 KiB pages of a segment's physical bytes. -/
def Seg.pages (g : Seg) : List Nat := (List.range (g.len * 512)).map (fun i => g.pbase * 512 + i)

/-- The pages of the host-visible segments of a table take their initial bias the first time (R383). -/
def State.startBias (s : State) (t : Sparse Seg) : State :=
  t.foldl (fun (s : State) x =>
    let g := x.2
    if !g.hostVisible || g.kind == 2 then s
    else g.pages.foldl (fun (s : State) p =>
      if s.bias.any (fun b => b.1 == g.dies.1 && b.2.1 == g.dies.2 && b.2.2.1 == p) then s
      else { s with bias := s.bias ++ [(g.dies.1, g.dies.2, p, g.devBias)] }) s) s

/-- Read device and host bytes of a translated extent, MOESI lines brought to their homes; none where a walk fails. -/
def State.readPieces (s : State) (core : Nat) (pasid : Option (BitVec 20)) : List Piece → Option (List Byte) × State
  | [] => (some [], s)
  | p :: r =>
    let (x, s) : Option (List Byte) × State := match p.seg with
      | some g =>
        let l := g.loc p.addr
        let lines := (List.range ((l.q + p.len - 1) / 128 + 1 - l.q / 128)).map (fun i =>
          ({ Loc.line l with no := l.q / 128 + i } : Line))
        let s := if g.lease then s else lines.foldl (fun s x => s.share x) s
        (some (s.homeBytes l p.len), s)
      | none => match pasid with
        | none => (none, s)
        | some id => match s.hostPieces core id false (cutAt 4096 512 (p.addr % 2 ^ 57) (p.addr % 2 ^ 57 + p.len)) with
          | (.error _, s) => (none, s)
          | (.ok l, s) => (some (l.flatMap (fun q => Memory.readBytes s.hostMem q.1 q.2)), s)
    match x with
    | none => (none, s)
    | some bs => match s.readPieces core pasid r with
      | (none, s) => (none, s)
      | (some cs, s) => (some (bs ++ cs), s)

end Sys2Proof.Machine
end

