-- ==== Sys2Proof/Machine/Loader.lean ====
section
/-!
DEFINITION. The loader (R157, R176, R177, R236): overlays into a bank, EXIT, and a bank that is cleared for a job or vacated
(R161, R181, R211).
-/
namespace Sys2Proof.Machine

/-- An overlay serves a stage (R176). -/
def Trailer.serves (t : Trailer) (stage : BitVec 4) : Bool := t.slo ≤ stage && stage ≤ t.shi

/-- The program image at an address. -/
def State.image (s : State) (addr : Nat) : Option ProgImage := (s.progs.find? (fun p => p.1 == addr)).map (fun p => p.2)

/-! ## Placing an overlay (R157, R176, R236) -/

/-- The fields of a trailer slot (R176). -/
def Trailer.ofSlot (w : Word80) : Trailer :=
  { words := (w.extractLsb' 16 15).toNat, shi := w.extractLsb' 12 4, slo := w.extractLsb' 8 4, last := w.getLsbD 4, mask := w.extractLsb' 0 4 }

/-- The least multiple of a step at or above a number. -/
def roundUp (step n : Nat) : Nat := (n + step - 1) / step * step

/-- The bytes an allocation asks for; a queue's are those of its elements (R157). -/
def Alloc.bytes (a : Alloc) : Nat :=
  match a.queue with
  | none => a.size
  | some (_, w) => let q := Queue.ofWord w false
                   (q.depthm1 + 1) * q.esz

/-- Where an allocation starts, above the first free granule and its leading guard, at its alignment (R157). -/
def Alloc.start (a : Alloc) (free : Nat) : Nat := roundUp (Nat.lcm (Nat.max a.align 1) 256) (free + 256)

/-- The starts of the allocations in the order of their directives, and the first free granule after the last one's trailing guard. -/
def placeAllocs (free : Nat) : List Alloc → List Nat × Nat
  | [] => ([], free)
  | a :: l =>
    let b := a.start free
    let r := placeAllocs (b + roundUp 256 a.bytes + 256) l
    (b :: r.1, r.2)

/-- Put a value into a field of a list of bytes, counted in bits from the first byte's lowest. -/
def fillBits (bytes : List Byte) (lo width v : Nat) : List Byte :=
  bytes.zipIdx.map (fun x => (List.range 8).foldl (fun (b : Byte) i =>
    let k := x.2 * 8 + i
    if lo ≤ k && k < lo + width then if v.testBit (k - lo) then b ||| 1#8 <<< i else b &&& ~~~(1#8 <<< i) else b) x.1)

/-- Put a value into a field of a word. -/
def fillWord (w : Word80) (lo width v : Nat) : Word80 :=
  let m : Word80 := BitVec.ofNat 80 ((2 ^ width - 1) * 2 ^ lo)
  (w &&& ~~~m) ||| BitVec.ofNat 80 (v % 2 ^ width * 2 ^ lo)

/-- The number of bits of a field. -/
def Reloc.width (r : Reloc) : Nat := sumNat (r.parts.map (fun p => p.2.2))

/-- Fill the runs of bits of a field with an address, lowest bits first, in the data section and the words. -/
def Reloc.fill (r : Reloc) (v : Nat) (x : List Byte × List Word80) : List Byte × List Word80 :=
  (r.parts.foldl (fun (y : (List Byte × List Word80) × Nat) p => (match p.1 with
    | none => (fillBits y.1.1 p.2.1 p.2.2 y.2, y.1.2)
    | some i => (y.1.1, y.1.2.set i (fillWord (y.1.2.getD i 0) p.2.1 p.2.2 y.2)), y.2 / 2 ^ p.2.2)) (x, v)).1

/-- An overlay placed at a local base: its data section, its allocations with their guard granules above it, and every field that names a
label filled. None where it does not fit in the bank's room or a field cannot hold its address (R157, R236). -/
def OverlayObj.place (o : OverlayObj) (lb room : Nat) : Option Overlay :=
  let free := if o.data.isEmpty then lb else roundUp 256 (lb + o.data.length)
  let (starts, limit) := placeAllocs free o.allocs
  let addr (r : Reloc) : Nat := r.add + (match r.label with
    | .data k => lb + k
    | .alloc i => starts.getD i 0)
  if limit > lb + room || o.relocs.any (fun r => addr r > r.limit || addr r ≥ 2 ^ r.width) then none
  else
    let (data, words) := o.relocs.foldl (fun x r => r.fill (addr r) x) (o.data, o.words)
    let allocs := o.allocs.zip starts
    let guards (x : Alloc × Nat) : List Nat := [x.2 / 256 - 1, (x.2 + roundUp 256 x.1.bytes) / 256]
    some { words := words.take (Trailer.ofSlot o.slot).words
           data := data.zipIdx.map (fun x => (lb + x.2, x.1))
           guards := allocs.flatMap guards
           runs := (if o.data.isEmpty then [] else [(lb, roundUp 256 o.data.length)])
                     ++ allocs.map (fun x => (x.2 - 256, roundUp 256 x.1.bytes + 512))
           persist := (allocs.filter (fun x => x.1.persist)).map (fun x => (x.2, x.1.bytes))
           queues := allocs.filterMap (fun x => x.1.queue.map (fun q => (q.1, q.2 ||| BitVec.ofNat 64 x.2)))
           trapEntry := o.trapEntry
           trailer := Trailer.ofSlot o.slot }

/-- The local base and the room of a bank of a job (R236). -/
def bankRoom (bank whole : Bool) : Nat × Nat :=
  if whole then (0, localSize) else if bank then (localSize / 2, localSize / 2) else (0, localSize / 2)

/-- The overlays of an image as they are placed in a bank of a job (R236); none where one of them cannot be loaded there. -/
def ProgImage.placed (g : ProgImage) (bank whole : Bool) : Option (List Overlay) :=
  let r := bankRoom bank whole
  g.overlays.mapM (fun o => o.place r.1 r.2)

/-- The first overlay at or after an index that serves a stage. -/
def overlayFrom (l : List Overlay) (start : Nat) (stage : BitVec 4) : Option (Overlay × Nat) :=
  (l.zipIdx.drop start).find? (fun x => x.1.trailer.serves stage)

/-- Whether a granule lies in a bank's room (R236). -/
def Core.inRoom (c : Core) (bank : Bool) (g : Nat) : Bool := !c.ksplit || decide (g ≥ 8192) == bank

/-- Load an overlay into a bank: its data, words, guards, handler, trailer and queues; pc 0 (R121, R177). -/
def Core.loadOverlay (c : Core) (bank : Bool) (o : Overlay) (index : Nat) : Core :=
  let c : Core := { c with guards := c.guards.filter (fun g => !c.inRoom bank g) ++ o.guards
                           mem := o.data.foldl (fun m x => Memory.write m x.1 x.2) c.mem }
  c.modBank bank (fun (b : Bank) =>
    let words : Sparse Word80 := o.words.zipIdx.map (fun x => (x.2, x.1))
    let b : Bank := { b with istore := words, tvecEn := o.trapEntry.isSome, tvecHdlr := o.trapEntry.getD 0
                             trailer := o.trailer, runs := o.runs, persist := o.persist, overlay := index, pc := 0 }
    o.queues.foldl (fun (b : Bank) q => b.configureQueue q.1 q.2) b)

/-- The semaphores that a bank owns. -/
def Core.ownedSems (c : Core) (bank : Bool) : List (BitVec 8) :=
  ((List.range 256).map (fun k => BitVec.ofNat 8 k)).filter (fun k => c.ownsSem bank k)

/-- What the core holds for a bank is cleared for a new job: its semaphores, format words, accumulator sets, guards and packet
numbers (R161, R181, R211, R356). -/
def Core.clearFor (c : Core) (bank : Bool) : Core :=
  let c := (c.ownedSems bank).foldl (fun (c : Core) k => { c.setSem k 0 with semPts := Sparse.erase c.semPts k.toNat }) c
  let owned (k : Nat) : Bool := c.ownsSet bank (Fin.ofNat 4 (k / 16384))
  { c with fq := c.fq.filter (fun x => x.2 != bank), acc := c.acc.filter (fun x => !owned x.1), marks := c.marks.filter (fun k => !owned k)
           guards := c.guards.filter (fun g => !c.inRoom bank g)
           sendSeq := c.sendSeq.filter (fun x => decide (x.1 % 2 = 1) != bank) }

/-- A bank that holds no job any more: what its engines were doing for it is over, and its format words are discarded (R160). -/
def Core.vacate (c : Core) (bank : Bool) : Core :=
  let drop (e : Engine) : Engine :=
    { e with cur := e.cur.filter (fun n => n.bank != bank), sched := e.sched.filter (fun x => x.bank != bank) }
  let c := c.setBank bank .reset
  { c with anvil := drop c.anvil, copy := drop c.copy, coll := drop c.coll, fq := c.fq.filter (fun x => x.2 != bank), resumes := c.resumes.filter (fun x => x.2.1.bank != bank)
           laccs := c.laccs.filter (fun x => x.bank != bank), sends := c.sends.filter (fun x => x.bank != bank), sigs := c.sigs.filter (fun x => x.bank != bank) }

/-- A job takes the whole core (R179). -/
def LaunchRec.whole (r : LaunchRec) : Bool := r.policy.getLsbD 15

/-- The overlays of a job as one of its banks takes them. -/
def Job.placed (j : Job) (g : ProgImage) (bank : Bool) : List Overlay := (g.placed bank j.rcd.whole).getD []

/-- The next overlay for the acting bank's stage after the current one, unless the current one is its last (R177). -/
def State.nextOverlay (s : State) : Option (Overlay × Nat) :=
  let b := s.bank
  if b.trailer.last then none
  else match b.job.bind s.job, s.image b.image with
    | some j, some g => overlayFrom (j.placed g s.focus.bank) (b.overlay + 1) b.stage
    | _, _ => none

/-- The queues that an EXIT waits for are empty. -/
def Bank.queuesDone (b : Bank) (all : Bool) : Bool :=
  [QCode.anvil, .copy0, .copy1, .coll].all (fun q => (b.queue q).count == 0 || !(all || b.trailer.mask.getLsbD (QCode.idx q).val))

/-- Every part of a job has ended and its queues are empty (R182). -/
def State.jobOver (s : State) (j : Job) : Bool :=
  j.cores.all (fun p => let b := s.bankAt p.1 p.2; b.status == .ended && b.queuesEmpty)

/-- Nothing that a bank has asked of memory or of another core is on its way any more. -/
def Core.drained (c : Core) (bank : Bool) : Bool := !c.accs.any (fun a => a.bank == bank) && !c.sigs.any (fun x => x.bank == bank)

/-- The effect of EXIT once what it waits for has come (R177). -/
def State.exitTask (s : State) : State :=
  match s.nextOverlay with
  | some _ => (s.modBank (fun b => { b with status := .held, holdWord := none })).postHere 1 .overlayLoad
  | none =>
    let s := (s.modBank (fun b => { b with status := .ended })).leaveBank
    match s.bank.job.bind s.job with
    | none => s
    | some j => if s.jobOver j then s.post 1 none s.focus.core s.focus.bank none (.jobRetire j.id) else s

/-- EXIT (R177). Traps held when its turn comes are delivered before it, the guard touch among them. -/
def execExit (h : Hdr) (s : State) : Out :=
  let n := (Need.of h).ends
  .next (match s.classify n none with
    | .go =>
      let s' := if s.bank.trap.act then s else s.reportTouch
      match s'.deliverDue with
      | some s' => s'
      | none => s.issue n none fun s =>
        let b := s.bank
        if !b.loadsLanded || s.cur.localBusy s.focus.bank || !b.queuesDone (b.trailer.last || s.nextOverlay.isNone) then .stall
        else .ok s.exitTask
    | .stall | .ask _ | .off | .fault _ => s.issue n none fun s => .ok s)

/-- A queue is protected from an overlay: it holds entries, and the overlay writes its control word or bytes of its storage
(R177). -/
def Queue.protected (q : Queue) (o : Overlay) (declared : Bool) : Bool :=
  q.count != 0 && (declared || o.data.any (fun x => q.base ≤ x.1 && x.1 < q.base + (q.depthm1 + 1) * q.esz))

/-- OVERLAY_LOAD (R177): the loader loads the next overlay once no protected queue holds an entry. -/
def execOverlayLoad (s : State) : Out :=
  let b := s.bank
  .next (if b.status != .held || b.holdWord.isSome then s
  else match s.nextOverlay with
    | none => s
    | some (o, i) =>
      if b.stopEng || [QCode.anvil, .copy0, .copy1, .coll].any (fun q => (b.queue q).protected o (o.queues.any (fun x => x.1 == q))) then
        s.postAt (s.cycle + 1) s.focus.core s.focus.bank none .overlayLoad
      else (s.modCur (fun c => c.loadOverlay s.focus.bank o i)).modBank (fun b =>
        { b.resume s.cycle with switchClaim := s.cur.active != s.focus.bank }))

end Sys2Proof.Machine
end

