-- ==== Sys2Proof/Machine/BankImage.lean ====
section
/-!
DEFINITION. Saving a bank and loading it again (R234, R336 to R338). An image is bytes of device memory; the entries in progress, the
replay records and what belongs to no part of it are kept beside it.
-/
namespace Sys2Proof.Machine

/-! ## A bank at rest (R337) -/

/-- A host access that is frozen on a page fault (R342). -/
def State.frozen (s : State) (core : Nat) (a : Access) : Bool :=
  a.target == .host && a.state == .sent && !(s.flights.any (fun f => match f.ev with
    | .homeAtomic c q => c == core && q == a.seq
    | _ => false))

/-- The engines. -/
def allEngines : List Eng := [.anvil, .copy, .coll]

/-- A TREE of a bank waits for the other participants. -/
def Core.treeWaits (c : Core) (bank : Bool) : Bool := (c.copy.cur.map (fun (n : Entry) => n.bank)) == some bank && c.treeAt.isSome

/-- Everything that a bank and its engines have under way is over, but for frozen host accesses, and its engines stand at
boundaries; its core-bound traffic too where that is asked for. -/
def State.bankQuiet (s : State) (core : Nat) (bank : Bool) (traffic : Bool) : Bool :=
  let c := s.core core
  let b := c.bank bank
  let mine := c.accs.filter (fun a => a.bank == bank)
  mine.all (s.frozen core) && (b.status != .held || b.holdWord.isNone)
    && b.tags.all (fun t => b.qpops.any (fun p => p.1 == t.tag) || mine.any (fun a => a.op.tag == some t.tag))
    && b.writes.isEmpty && c.laccs.all (fun x => x.bank != bank || (x.waits && mine.any (fun a => a.op.tag == some x.tag)))
    && !(c.lwrites.any (fun w => w.bank == bank)) && !(c.cmds.any (fun k => k.bank == bank))
    && !(c.amaxUpds.any (fun u => u.bank == bank)) && !(c.xposes.any (fun x => x.bank == bank))
    && allEngines.all (fun e => match (c.engine e).cur with
      | none => true
      | some n => n.bank != bank || n.boundary)
    && !(c.treeWaits bank && c.treeAt.any (fun t => t.level != 0))
    && !(s.patches.any (fun p => p.awaits.contains (contributor core bank)))
    && (!traffic || (!(c.sends.any (fun x => x.bank == bank && x.left != 0)) && !(c.sigs.any (fun x => x.bank == bank))))

/-! ## Saving -/

/-- An entry in progress as its engine stops it. -/
def Core.entriesOf (c : Core) (bank : Bool) : List (Eng × Entry) :=
  allEngines.filterMap (fun e => match (c.engine e).cur with
    | none => none
    | some n => if n.bank == bank then some (e, n) else none)
  ++ (c.resumes.filter (fun x => x.2.1.bank == bank)).map (fun x => (x.1, x.2.1))

/-- A bank's registers as they are saved: it will issue again, and a TREE that was waiting will arrive again. -/
def Core.bankForSave (c : Core) (bank : Bool) : Bank :=
  let b := c.bank bank
  let fresh (p : Port) : Port := { p with ahead := [] }
  { b with ports := b.ports.map (fun (p : Option Port) => p.map fresh), stopEng := false, stopAtBar := false
           status := match b.status with
             | .quenched => .running
             | .pageWait => .running
             | x => x }

/-- A bank as it is saved (R336, R337). A step's schedule keeps its step time. -/
def State.saveBank (s : State) (core : Nat) (bank : Bool) (addr : Nat) : SavedBank :=
  let c := s.core core
  let b := c.bankForSave bank
  let owned (k : Nat) : Bool := c.ownsSet bank (Fin.ofNat 4 (k / 16384))
  let inRun (g : Nat) : Bool := b.runs.any (fun r => r.1 ≤ g * 256 && g * 256 < r.1 + r.2)
  { addr := addr, core := core, bank := b
    sems := (c.ownedSems bank).map (fun k => (k.toNat, c.sem k, (Sparse.find c.semPts k.toNat).getD []))
    fq := (c.fq.filter (fun x => x.2 == bank)).map (fun x => x.1)
    sets := (List.range 4).filter (fun a => c.ownsSet bank (Fin.ofNat 4 a)), acc := c.acc.filter (fun x => owned x.1)
    marks := c.marks.filter owned
    runBytes := b.runs.map (fun r => (r.1, Memory.readBytes c.mem r.1 r.2)), guards := c.guards.filter inRun
    entries := c.entriesOf bank
    sched := (c.coll.sched.filter (fun x => x.bank == bank)).map (fun x => { x with t0 := s.cycle - x.t0 })
    replays := c.accs.filter (fun a => a.bank == bank)
    sigs := c.sigs.filter (fun x => x.bank == bank), sends := c.sends.filter (fun x => x.bank == bank)
    reduces := c.reduces.filter (fun p => p.jobtag == s.jobTag b)
    sendSeq := c.sendSeq.filter (fun x => decide (x.1 % 2 = 1) == bank), ucodeName := c.ucodeName
    treeCount := if c.treeWaits bank then c.treeCount - 1 else c.treeCount
    stores := c.laccs.filter (fun x => x.bank == bank) }

/-- The job's place of a rank becomes a bank, or none while it is saved; what it owns in patches goes with it (R258). -/
def State.movePart (s : State) (id rank : Nat) (at_ : Nat × Bool) : State :=
  let renumber (s : State) (old : Nat × Bool) : State := { s with patches := s.patches.map (fun (p : Patch) =>
    if p.job == id then p.renumber (placeNumber id rank old) (placeNumber id rank at_) else p) }
  match (s.job id).bind (fun j => j.cores[rank]?) with
  | none => s
  | some old => (renumber s old).modJob id (fun j => { j with cores := j.cores.set rank at_ })

/-- The p registers of a saved bank as it returns: one whose patch is no longer OPEN is empty, and a joiner whose opener has discarded it
will meet a GONE name (R258, R261). -/
def State.freshRegs (s : State) (b : Bank) : Bank :=
  let still (n : Name) : Bool := (s.patch n).any (fun p => p.state == .opened)
  let gone (d : Fin 4) : Option Name := match b.p[d] with
    | none => b.pGone[d]
    | some n => if (s.patch n).isNone then some n else none
  { b with p := b.p.map (fun x => x.filter still), pGone := Vector.ofFn gone }

/-- Vacate a bank that has been saved (R337). -/
def State.vacateSaved (s : State) (core : Nat) (bank : Bool) : State :=
  let c := s.core core
  let tag := s.jobTag (c.bank bank)
  let b := c.bank bank
  let unfreeze (e : Engine) : Engine := if (e.cur.map (fun (n : Entry) => n.bank)) == some bank then { e with frozen := false } else e
  let c := { c with accs := c.accs.filter (fun a => a.bank != bank), laccs := c.laccs.filter (fun x => x.bank != bank), reduces := c.reduces.filter (fun p => p.jobtag != tag)
                    treeAt := if c.treeWaits bank then none else c.treeAt, treeCount := if c.treeWaits bank then c.treeCount - 1 else c.treeCount
                    anvil := unfreeze c.anvil, copy := unfreeze c.copy, coll := unfreeze c.coll }
  let s := s.setCore core ((c.clearFor bank).vacate bank)
  match b.job with
  | none => s
  | some id => s.movePart id b.gangRank (savedCore, bank)

/-! ## Loading -/

/-- A saved bank into a core: semaphores by the current split, format words after those already there, entries that wait for their
engines, and frozen accesses to be made again (R338). -/
def Core.loadBank (c : Core) (bank : Bool) (v : SavedBank) (cycle : Nat) : Core :=
  let c := c.setBank bank { v.bank with bound := cycle + 1, switchClaim := c.active != bank }
  let c := v.sems.foldl (fun (c : Core) x =>
    let k := BitVec.ofNat 8 x.1
    if c.ownsSem bank k then { c.setSem k x.2.1 with semPts := Sparse.put c.semPts x.1 x.2.2 } else c) c
  let owned (k : Nat) : Bool := c.ownsSet bank (Fin.ofNat 4 (k / 16384))
  let mine := (List.range 4).filter (fun a => c.ownsSet bank (Fin.ofNat 4 a))
  let place (k : Nat) : Option Nat :=
    ((if v.sets.isEmpty then mine else v.sets).idxOf? (k / 16384)).bind (fun i => mine[i]?.map (fun a => a * 16384 + k % 16384))
  let acc := v.acc.foldl (fun m x => match place x.1 with
    | none => m
    | some k => putAcc m k x.2) (c.acc.filter (fun x => !owned x.1))
  let mem := v.runBytes.foldl (fun m x => Memory.writeBytes m x.1 x.2) c.mem
  let inRun (g : Nat) : Bool := v.runBytes.any (fun r => r.1 ≤ g * 256 && g * 256 < r.1 + r.2.length)
  let entries := v.entries.map (fun x => (x.1, ({ x.2 with bank := bank } : Entry), v.ucodeName))
  let sends := v.sends.map (fun (x : Send) => { x with bank := bank })
  let sigs := v.sigs.map (fun (x : SigOut) => { x with bank := bank })
  let seqs := v.sendSeq.map (fun x => (x.1 / 2 * 2 + (if bank then 1 else 0), x.2))
  let sched : Option Sched := match v.sched with
    | none => c.coll.sched
    | some x => some { x with bank := bank, t0 := cycle - x.t0 }
  let c := { c with fq := c.fq ++ v.fq.map (fun w => (w, bank)), acc := acc, marks := c.marks.filter (fun k => !owned k) ++ v.marks.filterMap place, treeCount := v.treeCount, mem := mem
                    guards := c.guards.filter (fun g => !inRun g) ++ v.guards, resumes := c.resumes ++ entries
                    coll := { c.coll with sched := sched }, sends := c.sends ++ sends, sigs := c.sigs ++ sigs
                    reduces := c.reduces ++ v.reduces, sendSeq := c.sendSeq ++ seqs
                    sendNo := maxNat c.sendNo (v.sends.map (fun x => x.no + 1)) }
  let c := v.replays.foldl (fun (c : Core) a => c.addAccess { a with bank := bank, state := .waiting, tried := true }) c
  v.stores.foldl (fun (c : Core) x =>
    { c with laccs := c.laccs ++ [{ x with bank := bank, no := c.accSeq }], accSeq := c.accSeq + 1 }) c

/-- A core has room for a saved bank. -/
def Core.hasRoom (c : Core) (v : SavedBank) : Bool :=
  c.fq.length + v.fq.length ≤ 16 && (v.sched.isNone || c.coll.sched.isNone)

/-! ## Images in device memory (R336) -/

/-- Bytes of an image to which the manual gives no meaning: free values. -/
def freeBytes (k n : Nat) : List Byte := (List.range n).map (fun i => (Config.freeWord (k + i)).setWidth 8)

/-- One item of an image: its offset and size, its value in a saved bank, and the saved bank with another value. -/
structure ImageSlot where
  off : Nat
  size : Nat
  get : SavedBank → Nat
  set : Nat → SavedBank → SavedBank

/-- An item of the bank's own registers. -/
def bankSlot (off size : Nat) (get : Bank → Nat) (set : Nat → Bank → Bank) : ImageSlot :=
  { off := off, size := size, get := fun v => get v.bank, set := fun x v => { v with bank := set x v.bank } }

/-- A list of words behind their number. -/
def packList (w : Nat) (l : List Nat) : Nat := l.length + 2 ^ 64 * sumNat (l.zipIdx.map (fun x => x.1 * 2 ^ (w * x.2)))

/-- The words of a packed list, of at most so many. -/
def unpackList (w most x : Nat) : List Nat := (List.range (Nat.min most (x % 2 ^ 64))).map (fun i => x / 2 ^ 64 / 2 ^ (w * i) % 2 ^ w)

/-- The registers and flags of the part at 0x40, in the order in which R336 names them; the CSRs follow R96. -/
def statusSlots : List ImageSlot :=
  (List.finRange 64).map (fun (i : Fin 64) => bankSlot (0x40 + 8 * i.val) 8 (fun b => b.s[i].toNat) (fun x b => { b with s := b.s.set i (BitVec.ofNat 64 x) }))
  ++ (List.finRange 8).map (fun (i : Fin 8) => bankSlot (0x240 + i.val) 1 (fun b => if b.c[i] then 1 else 0) (fun x b => { b with c := b.c.set i (x.testBit 0) }))
  ++ [bankSlot 0x248 8 (fun b => b.pc.toNat) (fun x b => { b with pc := BitVec.ofNat 15 x }),
      bankSlot 0x250 8 (fun b => b.arst.toNat) (fun x b => { b with arst := BitVec.ofNat 16 x }),
      bankSlot 0x258 8 (fun b => b.vrb.toNat) (fun x b => { b with vrb := BitVec.ofNat 5 x }),
      bankSlot 0x260 8 (fun b => b.mrb.toNat) (fun x b => { b with mrb := BitVec.ofNat 3 x }),
      bankSlot 0x268 8 (fun b => if b.check then 1 else 0) (fun x b => { b with check := x.testBit 0 })]
  ++ [QCode.anvil, .copy0, .copy1, .coll].map (fun q => bankSlot (0x270 + 8 * (QCode.idx q).val) 8 (fun b => (b.queue q).word.toNat)
    (fun x b => b.setQueue q { b.queue q with en := x.testBit 63, count := bits x 62 52, head := bits x 51 42, esize := BitVec.ofNat 2 (bits x 41 40)
                                              depthm1 := bits x 39 30, base := bits x 21 0 }))
  ++ [bankSlot 0x290 8 (fun b => b.trap.cause.toNat) (fun x b => { b with trap := { b.trap with
        act := x.testBit 31, src := BitVec.ofNat 4 (bits x 15 12), imp := x.testBit 8, code := BitVec.ofNat 8 x } }),
      bankSlot 0x298 8 (fun b => b.trap.tpc.toNat) (fun x b => { b with trap := { b.trap with tpc := BitVec.ofNat 15 x } }),
      bankSlot 0x2A0 8 (fun b => b.trap.taddr.toNat) (fun x b => { b with trap := { b.trap with taddr := BitVec.ofNat 64 x } }),
      bankSlot 0x2A8 16 (fun b => b.trap.name0.toNat) (fun x b => { b with trap := { b.trap with name0 := BitVec.ofNat 128 x } }),
      bankSlot 0x2B8 16 (fun b => b.trap.name1.toNat) (fun x b => { b with trap := { b.trap with name1 := BitVec.ofNat 128 x } }),
      bankSlot 0x2C8 8 (fun b => b.trap.info.toNat) (fun x b => { b with trap := { b.trap with
        aflags := BitVec.ofNat 8 (bits x 55 48), mpc := BitVec.ofNat 12 (bits x 43 32), detail := BitVec.ofNat 16 (bits x 31 16)
        rpc := BitVec.ofNat 15 x } }),
      bankSlot 0x2D0 8 (fun b => b.tvecHdlr.toNat + if b.tvecEn then 0x8000 else 0) (fun x b =>
        { b with tvecHdlr := BitVec.ofNat 15 x, tvecEn := x.testBit 15 }),
      bankSlot 0x2D8 8 (fun b => b.overrun.toNat) (fun x b => { b with overrun := BitVec.ofNat 64 x }),
      bankSlot 0x2E0 8 (fun b => if b.stepReady then 1 else 0) (fun x b => { b with stepReady := x.testBit 0 }),
      bankSlot 0x2E8 8 (fun b => b.barGang) (fun x b => { b with barGang := x }),
      bankSlot 0x2F0 8 (fun b => b.barStage) (fun x b => { b with barStage := x })]
  ++ (List.finRange 12).map (fun (i : Fin 12) => bankSlot (0x2F8 + 40 * i.val) 40
    (fun b => match b.ports[i] with
      | none => 0
      | some p => p.desc + p.next * 2 ^ 256 + 2 ^ 319)
    (fun x b =>
      let ready := ((b.ports[i]).map (fun (p : Port) => p.readyAt)).getD 0
      let p : Option Port := if x.testBit 319 then some { Port.ofDesc (x % 2 ^ 256) ready with next := bits x 318 256 } else none
      { b with ports := b.ports.set i p }))
  ++ [bankSlot 0x4D8 16 (fun b => match b.touch with
        | none => 0
        | some (a, n) => 2 ^ 127 + n * 2 ^ 64 + a)
      (fun x b => { b with touch := if x.testBit 127 then some (x % 2 ^ 64, bits x 126 64) else none })]

/-- The register files, names and patch registers. -/
def fileSlots : List ImageSlot :=
  (List.finRange 64).map (fun (i : Fin 64) => bankSlot (0x1000 + 256 * i.val) 256 (fun b => b.v[i].toNat) (fun x b => { b with v := b.v.set i (BitVec.ofNat 2048 x) }))
  ++ (List.finRange 16).map (fun (i : Fin 16) => bankSlot (0x5000 + 64 * i.val) 64 (fun b => b.m[i].toNat) (fun x b => { b with m := b.m.set i (BitVec.ofNat 512 x) }))
  ++ (List.finRange 16).map (fun (i : Fin 16) => bankSlot (0x5400 + 16 * i.val) 16 (fun b => b.n[i].toNat) (fun x b => { b with n := b.n.set i (BitVec.ofNat 128 x) }))
  ++ (List.finRange 16).map (fun (i : Fin 16) => bankSlot (0x5500 + 16 * i.val) 16 (fun b => b.h[i].toNat) (fun x b => { b with h := b.h.set i (BitVec.ofNat 128 x) }))
  ++ (List.finRange 4).map (fun (i : Fin 4) => bankSlot (0x5600 + 16 * i.val) 16 (fun b => (b.p[i].getD 0).toNat)
    (fun x b => { b with p := b.p.set i (if x = 0 then none else some (BitVec.ofNat 128 x)) }))

/-- Queue registers, format words and semaphores at 0x5800. -/
def queueSlots : List ImageSlot :=
  (List.finRange 4).map (fun (i : Fin 4) => bankSlot (0x5800 + 72 * i.val) 72 (fun b => packList 64 (b.aq[i].map BitVec.toNat))
    (fun x b => { b with aq := b.aq.set i ((unpackList 64 8 x).map (BitVec.ofNat 64)) }))
  ++ (List.finRange 4).map (fun (i : Fin 4) => bankSlot (0x5920 + 72 * i.val) 72 (fun b => packList 64 (b.bq[i].map BitVec.toNat))
    (fun x b => { b with bq := b.bq.set i ((unpackList 64 8 x).map (BitVec.ofNat 64)) }))
  ++ [{ off := 0x5A40, size := 72, get := fun v => packList 32 (v.fq.map BitVec.toNat)
        set := fun x v => { v with fq := (unpackList 32 16 x).map (BitVec.ofNat 32) } }]
  ++ (List.range 256).map (fun k =>
    { off := 0x5A88 + 2 * k, size := 2, get := fun v => ((v.sems.find? (fun x => x.1 == k)).map (fun x => x.2.1.toNat)).getD 0
      set := fun x v => { v with sems := if v.sems.any (fun y => y.1 == k) then v.sems.map (fun y => if y.1 == k then (k, BitVec.ofNat 16 x, y.2.2) else y)
        else if x = 0 then v.sems else v.sems ++ [(k, BitVec.ofNat 16 x, [])] } })

/-- A plane's record. -/
def Plane.record (p : Plane) : Nat :=
  match p.rcd with
  | none => 0
  | some (a, w, sp) => 2 ^ 63 + (if sp then 256 else 0) + w.code.toNat * 16 + a.code.toNat

/-- A plane with the record of a word. -/
def Plane.withRecord (p : Plane) (x : Nat) : Plane :=
  { p with rcd := if x.testBit 63 then some (Fmt.ofCode (BitVec.ofNat 4 x), Fmt.ofCode (BitVec.ofNat 4 (x / 16)), x.testBit 8) else none }

/-- A stored weight with its logical place: bits 8:0 the place, bit 9 present, bit 10 NaR, bit 11 sign, bits 31:12 the effective log. -/
def weightWord (k : Nat) : LogVal → Nat
  | .zero => 0
  | .nar => k + 0x600
  | .val neg log => k + 0x200 + (if neg then 0x800 else 0) + (log % 2 ^ 20).toNat * 2 ^ 12

/-- The stored weights of one row of a plane, in ascending order. -/
def Plane.row (p : Plane) (n : Nat) : Nat :=
  sumNat (((p.weights.filter (fun x => x.1 / 512 == n)).take 256).zipIdx.map (fun x => weightWord (x.1.1 % 512) x.1.2 * 2 ^ (32 * x.2)))

/-- A plane with the stored weights of a row. -/
def Plane.withRow (p : Plane) (n x : Nat) : Plane :=
  let words := (List.range 256).map (fun i => x / 2 ^ (32 * i) % 2 ^ 32)
  let put (m : Sparse LogVal) (w : Nat) : Sparse LogVal :=
    if !w.testBit 9 then m
    else Sparse.put m (n * 512 + w % 512) (if w.testBit 10 then .nar else .val (w.testBit 11) (sext 20 (w / 2 ^ 12)))
  { p with weights := words.foldl put (p.weights.filter (fun y => y.1 / 512 != n)) }

/-- The two planes of a bank. -/
def AnvilBank.planeOf (a : AnvilBank) (shadow : Bool) : Plane := if shadow then a.shadow else a.stat

/-- Change one of the two planes of a bank. -/
def Bank.modPlane (b : Bank) (shadow : Bool) (f : Plane → Plane) : Bank :=
  { b with anvil := if shadow then { b.anvil with shadow := f b.anvil.shadow } else { b.anvil with stat := f b.anvil.stat } }

/-- The Anvil's bank registers at 0xE000, the planes and the accumulators. -/
def anvilSlots (sets : List Nat) : List ImageSlot :=
  (List.finRange 8).map (fun (i : Fin 8) => bankSlot (0xE000 + 8 * i.val) 8 (fun b => b.anvil.b[i].toNat)
    (fun x b => { b with anvil := { b.anvil with b := b.anvil.b.set i (BitVec.ofNat 48 x) } }))
  ++ (List.finRange 6).map (fun (i : Fin 6) => bankSlot (0xE040 + 8 * i.val) 8 (fun b => b.anvil.loops[i].1 + (b.anvil.loops[i].2 % 2 ^ 32).toNat * 2 ^ 32)
    (fun x b => { b with anvil := { b.anvil with loops := b.anvil.loops.set i (x % 2 ^ 32, sext 32 (x / 2 ^ 32)) } }))
  ++ (List.finRange 4).map (fun (i : Fin 4) => bankSlot (0xE070 + 8 * i.val) 8 (fun b => b.anvil.lc[i].toNat)
    (fun x b => { b with anvil := { b.anvil with lc := b.anvil.lc.set i (BitVec.ofNat 16 x) } }))
  ++ (List.finRange 4).map (fun (i : Fin 4) => bankSlot (0xE090 + 8 * i.val) 8 (fun b => b.amax[i].toNat) (fun x b => { b with amax := b.amax.set i (BitVec.ofNat 32 x) }))
  ++ [false, true].map (fun p => bankSlot (0xE0B0 + if p then 8 else 0) 8 (fun b => (b.anvil.planeOf p).record) (fun x b => b.modPlane p (fun y => y.withRecord x)))
  ++ [{ off := 0xE0C0, size := 16, get := fun v => (v.ucodeName.getD 0).toNat
        set := fun x v => { v with ucodeName := if x = 0 then none else some (BitVec.ofNat 128 x) } }]
  ++ [false, true].flatMap (fun p => (List.range 64).map (fun n => bankSlot (0x50000 + (if p then 0x10000 else 0) + 1024 * n) 1024
    (fun b => (b.anvil.planeOf p).row n) (fun x b => b.modPlane p (fun y => y.withRow n x))))
  ++ sets.zipIdx.flatMap (fun y =>
    let at_ := 0x70000 + 0x10800 * y.2
    (List.range 256).map (fun r =>
      let key := y.1 * 16384 + r * 64
      { off := at_ + 256 * r, size := 256
        get := fun v => sumNat ((v.acc.filter (fun x => key ≤ x.1 && x.1 < key + 64)).map (fun x => x.2.toNat * 2 ^ (32 * (x.1 - key))))
        set := fun x v => { v with acc := (List.range 64).foldl (fun m i => putAcc m (key + i) (BitVec.ofNat 32 (x / 2 ^ (32 * i)))) v.acc } })
    ++ [{ off := at_ + 0x10000, size := 0x800
          get := fun v => sumNat ((v.marks.filter (fun k => k / 16384 == y.1)).map (fun k => 2 ^ (k % 16384)))
          set := fun x v => { v with marks := v.marks.filter (fun k => k / 16384 != y.1)
            ++ ((List.range 16384).filter (fun i => x.testBit i)).map (fun i => y.1 * 16384 + i) } }])

/-- The bytes of a part of an image: its items, and free values between them. -/
def packSlots (free : Nat) (v : SavedBank) (lo hi : Nat) (l : List ImageSlot) : List Byte :=
  let r := l.foldl (fun (x : List (List Byte) × Nat) y =>
    (leBytes y.size (y.get v % 2 ^ (8 * y.size)) :: freeBytes (free + x.2) (y.off - x.2) :: x.1, y.off + y.size)) ([], lo)
  r.1.reverse.flatten ++ freeBytes (free + r.2) (hi - r.2)

/-- A saved bank with the values of some items of an image. -/
def unpackSlots (img : List Byte) (v : SavedBank) (l : List ImageSlot) : SavedBank := l.foldl (fun v y => y.set (field img y.off y.size) v) v

/-- The local bytes that a bank's runs hold. -/
def Bank.runSize (b : Bank) : Nat := sumNat (b.runs.map (fun r => r.2))

/-- The bytes of the guard bits of so many local bytes (R336). -/
def guardSize (l : Nat) : Nat := 8 * ((l + 16383) / 16384)

/-- The bytes of an image. -/
def Bank.imageSize (b : Bank) : Nat := 0x100000 + 512 + b.runSize + guardSize b.runSize

/-- The granules of some runs, in order. -/
def runGranules (l : List (Nat × Nat)) : List Nat := l.flatMap (fun r => (List.range (r.2 / 256)).map (fun i => r.1 / 256 + i))

/-- The guard bits of some granules, packed from bit 0 of the first byte (R336). -/
def guardBytes (gs guards : List Nat) (n : Nat) : List Byte :=
  leBytes n (sumNat (gs.zipIdx.map (fun x => if guards.contains x.1 then 2 ^ x.2 else 0)))

/-- The image of a saved bank (R336). Where the manual names the contents of a part and not their places, they stand in its order at their
natural sizes (DESIGN CHOICE, log 24); entries in progress and replay records are only kept beside the image. -/
def State.imageBytes (s : State) (v : SavedBank) (name : Name) (needs : Word) : List Byte :=
  let b := v.bank
  let l := b.runSize
  let pad (n : Nat) (x : List Byte) : List Byte := x ++ List.replicate (n - x.length) 0
  let seg (i : Nat) : List Byte := match Sparse.find b.segs i with
    | some g => g.bytes
    | none => List.replicate 32 0
  let word (i : Nat) : List Byte := leBytes 10 ((Sparse.find b.istore i).getD 0).toNat
  let (anvilRegs, anvilMemory) := (anvilSlots v.sets).partition (fun x => x.off < 0x10000)
  leBytes 4 0x4B4E4142 ++ leBytes 4 1 ++ leBytes 16 name.toNat ++ leBytes 8 needs.toNat ++ leBytes 4 l ++ leBytes 2 v.core
    ++ leBytes 2 Config.moduleNumber.toNat ++ leBytes 1 (if v.addr % 2 = 1 then 1 else 0) ++ leBytes 1 b.stage.toNat ++ leBytes 22 0
    ++ packSlots s.free v 0x40 0x6000 (statusSlots ++ fileSlots ++ queueSlots)
    ++ (List.range 1024).flatMap seg
    ++ packSlots s.free v 0xE000 0x10000 anvilRegs
    ++ pad 0x40000 ((List.range 26214).flatMap word)
    ++ packSlots s.free v 0x50000 0xB2000 anvilMemory
    ++ List.replicate 0x4E000 0
    ++ pad 512 (b.runs.flatMap (fun r => leBytes 8 (r.1 + r.2 * 2 ^ 22)))
    ++ v.runBytes.flatMap (fun x => x.2)
    ++ guardBytes (runGranules b.runs) v.guards (guardSize l)

/-- The free values that an image takes. -/
def imageFree : Nat := 0xB2000

/-- The lines of a translated extent. -/
def Piece.lines (p : Piece) : List Line :=
  match p.seg with
  | none => []
  | some g =>
    let l := g.loc p.addr
    (List.range ((l.q + p.len - 1) / 128 + 1 - l.q / 128)).map (fun i => { Loc.line l with no := l.q / 128 + i })

/-- Write a translated extent at its homes, every copy of its lines taken back. -/
def State.writePieces (s : State) : List Piece → List Byte → State
  | [], _ => s
  | p :: r, bs =>
    let s := match p.seg with
      | none => s
      | some g => (s.takeLines g.patched g.lease g.cls p.lines).homeStore (g.loc p.addr) ((bs.take p.len).map some)
    s.writePieces r (bs.drop p.len)

/-- The rules of an image's extent (R337). -/
def State.imageExtent (s : State) (perm : Nat) (a : Word) (n : Nat) : Except TrapInfo (List Piece) :=
  if a.toNat % 4096 ≠ 0 then .error (faultAt 0x05 a)
  else if spaceOf a = .host then .error (faultAt 0x18 a)
  else match s.translate s.bank perm a n with
    | .error t => .error t
    | .ok l => match l.find? (fun p => p.seg.isNone) with
      | some p => .error (faultAt 0x18 (BitVec.ofNat 64 p.addr))
      | none => .ok l

/-- The physical key of an extent's first byte. -/
def extentKey (l : List Piece) : Nat :=
  match l.head?.bind (fun p => p.seg.map (fun g => g.loc p.addr)) with
  | some x => x.key
  | none => 0

/-! ## The words (R337, R338) -/

/-- The checks of BANKSAVE. -/
def State.saveCheck (s : State) (bank : Bool) (a : Word) : Except TrapInfo (List Piece) :=
  let o := s.cur.bank bank
  if bank == s.focus.bank then .error (faultDetail 0x01 2)
  else if o.job.isNone then .error (faultDetail 0x01 3)
  else s.imageExtent 1 a o.imageSize

/-- BANKSAVE (R337): the other bank is stopped, and once everything of it is at rest, its image is written and it is vacated. -/
def execBanksave (h : Hdr) (bank : Bool) (m : MemOp) (s : State) : Out :=
  let n := (Need.of h).addr m |>.privileged |>.globalMem
  let body (s : State) : Result :=
    let (a, s) := s.readAddr m
    match s.saveCheck bank a with
    | .error t => .fault t
    | .ok l =>
      let core := s.focus.core
      if !(s.cur.bank bank).stopEng || !s.bankQuiet core bank true || s.anyBusy (l.flatMap Piece.lines) then .stall
      else
        let key := extentKey l
        let v := s.saveBank core bank (2 * key + if bank then 1 else 0)
        let j := (s.cur.bank bank).job.bind s.job
        let bytes := s.imageBytes v ((j.map (fun j => j.name)).getD 0) ((j.map (fun j => j.rcd.needs)).getD 0)
        let s := { s.writePieces l bytes with free := s.free + imageFree
                                              savedBanks := s.savedBanks.filter (fun (x : SavedBank) => x.addr / 2 != key) ++ [v] }
        .ok (s.vacateSaved core bank)
  .next (match s.classify n none with
    | .go =>
      let (a, _) := s.readAddr m
      match s.saveCheck bank a with
      | .error _ => s.issue n none body
      | .ok _ =>
        if (s.cur.bank bank).stopEng then s.issue n none body
        else s.modCur (fun c => c.modBank bank (fun b => { b with stopEng := true }))
    | .stall | .ask _ | .off | .fault _ => s.issue n none body)

/-- The run table of an image (R336). -/
def imageRuns (img : List Byte) : List (Nat × Nat) :=
  ((List.range 64).map (fun i => let w := field img (0x100000 + 8 * i) 8; (w % 2 ^ 22, w / 2 ^ 22 % 2 ^ 22))).filter (fun r => r.2 != 0)

/-- A saved bank read back: what R336 lays out from the image's bytes, the rest as it was saved. -/
def SavedBank.reread (v : SavedBank) (img : List Byte) : SavedBank :=
  let runs := imageRuns img
  let total := sumNat (runs.map (fun r => r.2))
  let starts (i : Nat) : Nat := sumNat ((runs.take i).map (fun r => r.2))
  let body := img.drop 0x100200
  let gbits := leNat ((body.drop total).take (guardSize total))
  let words : List (Nat × Word80) := (List.range 26214).map (fun i => (i, BitVec.ofNat 80 (field img (0x10000 + 10 * i) 10)))
  let v := unpackSlots img v (statusSlots ++ fileSlots ++ queueSlots ++ anvilSlots v.sets)
  { v with
    runBytes := runs.zipIdx.map (fun x => (x.1.1, (body.drop (starts x.2)).take x.1.2))
    guards := ((runGranules runs).zipIdx.filter (fun x => gbits.testBit x.2)).map (fun x => x.1)
    bank := { v.bank with
      runs := runs
      segs := segTable ((img.drop 0x6000).take 0x8000)
      istore := words.filter (fun x => x.2 != 0) } }

/-- A bank of which nothing but an image is known: an image that was made elsewhere. -/
def SavedBank.blank (job : Option Nat) (stage : BitVec 4) : SavedBank :=
  { addr := 0, core := 0, bank := { Bank.reset with job := job, status := .running, stage := stage }, sems := [], fq := [], sets := [], acc := []
    marks := [], runBytes := [], guards := [], entries := [], sched := none, replays := [], sigs := [], sends := [], reduces := []
    sendSeq := [], ucodeName := none, treeCount := 0, stores := [] }

/-- A needs word is covered by a featmask (R350). -/
def covers (mask needs : Word) : Bool :=
  (needs &&& 0x1F) &&& ~~~mask == 0 && (needs.extractLsb' 8 7).toNat ≤ (mask.extractLsb' 8 7).toNat

/-- The runs of two banks share a byte. -/
def runsOverlap (a b : List (Nat × Nat)) : Bool := b.any (fun y => a.any (fun x => rangesMeet x.1 x.2 y.1 y.2))

/-- The saved bank that an image gives: its side record, or a bank of which nothing but the image is known (R338). -/
def State.loadedBank (s : State) (hd img : List Byte) (key : Nat) : SavedBank :=
  let job : Option Nat := match s.nameEnt (BitVec.ofNat 128 (field hd 8 16)) with
    | some e => (match e.bind with
      | .job id => some id
      | _ => none)
    | none => none
  ((s.savedBanks.find? (fun x => x.addr / 2 == key)).getD (SavedBank.blank job (BitVec.ofNat 4 (field hd 41 1)))).reread img

/-- BANKLOAD (R338). -/
def execBankload (h : Hdr) (bank : Bool) (m : MemOp) (s : State) : Out :=
  .next (s.issue ((Need.of h).addr m |>.privileged |>.globalMem) none fun s =>
    let (a, s) := s.readAddr m
    let o := s.cur.bank bank
    let core := s.focus.core
    if bank == s.focus.bank then .fault (faultDetail 0x01 2)
    else if o.job.isSome then .fault (faultDetail 0x01 4)
    else match s.imageExtent 0 a 64 with
      | .error t => .fault t
      | .ok l => if s.anyBusy (l.flatMap Piece.lines) then .stall else match s.readPieces core none l with
        | (none, _) => .fault (faultAt 0x07 a)
        | (some hd, s) =>
          let size := field hd 32 4
          match s.imageExtent 0 a (0x100000 + 512 + size + guardSize size) with
          | .error t => .fault t
          | .ok l => if s.anyBusy (l.flatMap Piece.lines) then .stall else match s.readPieces core none l with
            | (none, _) => .fault (faultAt 0x07 a)
            | (some img, s) =>
              if field hd 0 4 ≠ 0x4B4E4142 || field hd 4 4 ≠ 1 || field hd 42 22 ≠ 0 then .fault (faultAt 0x0C a)
              else if !covers (s.die (dieOf core)).featmask (BitVec.ofNat 64 (field hd 24 8)) then .fault (fault 0x02)
              else if runsOverlap (imageRuns img) s.bank.runs then .fault (faultAt 0x0C a)
              else
                let v := s.loadedBank hd img (extentKey l)
                if !s.cur.hasRoom v then .stall
                else
                  let v : SavedBank := { v with bank := s.freshRegs v.bank }
                  let s := s.modCur (fun c => c.loadBank bank v s.cycle)
                  .ok (match v.bank.job with
                    | none => s
                    | some id => s.movePart id v.bank.gangRank (core, bank)))

end Sys2Proof.Machine
end

