-- ==== Sys2Proof/Machine/Bellows.lean ====
section
/-!
DEFINITION. Launch records and LAUNCH (R179, R180), and the Bellows: placement, launch state, selection, retirement and failure
(R181 to R184, R391).
-/
namespace Sys2Proof.Machine

/-! ## Launch records (R179) -/

/-- The size of a launch record. -/
def recordSize : Nat := 128

/-- The fields of a launch record's 128 bytes. -/
def LaunchRec.parse (d : List Byte) : LaunchRec :=
  { image := field d 16 8, params := field d 24 8, segtab := field d 32 8, needs := BitVec.ofNat 64 (field d 40 8)
    lqgrant := BitVec.ofNat 64 (field d 48 8), shape := BitVec.ofNat 32 (field d 56 4), policy := BitVec.ofNat 32 (field d 60 4)
    preds := (List.range 4).map (fun i => BitVec.ofNat 128 (field d (64 + 16 * i) 16)) }

/-- Dies for each stage. -/
def LaunchRec.dies (r : LaunchRec) : Nat := (r.shape.extractLsb' 27 5).toNat + 1
/-- Clusters on each die. -/
def LaunchRec.clusters (r : LaunchRec) : Nat := (r.shape.extractLsb' 24 3).toNat + 1
/-- Cores in each cluster. -/
def LaunchRec.cores (r : LaunchRec) : Nat := (r.shape.extractLsb' 21 3).toNat + 1
/-- Stages. -/
def LaunchRec.stages (r : LaunchRec) : Nat := (r.shape.extractLsb' 17 4).toNat + 1
/-- Predecessors. -/
def LaunchRec.npred (r : LaunchRec) : Nat := (r.shape.extractLsb' 14 3).toNat
/-- The launch queue. -/
def LaunchRec.lq (r : LaunchRec) : Fin 64 := (r.shape.extractLsb' 8 6).toFin
/-- Pre-emptible. -/
def LaunchRec.pre (r : LaunchRec) : Bool := r.shape.getLsbD 7
/-- The priority. -/
def LaunchRec.prio (r : LaunchRec) : Nat := (r.shape.extractLsb' 0 7).toNat
/-- The submission sequence number. -/
def LaunchRec.seq (r : LaunchRec) : BitVec 16 := r.policy.extractLsb' 16 16
/-- The aging cap. -/
def LaunchRec.cap (r : LaunchRec) : Nat := (r.policy.extractLsb' 0 7).toNat
/-- The key id of the job's segments. -/
def LaunchRec.keyid (r : LaunchRec) : BitVec 7 := r.policy.extractLsb' 8 7
/-- The cores of one stage. -/
def LaunchRec.perStage (r : LaunchRec) : Nat := r.dies * r.clusters * r.cores

/-- A record is invalid (R179). -/
def recordInvalid (d : List Byte) : Bool :=
  let r := LaunchRec.parse d
  r.stages * r.dies > 32 || r.npred > 4 || r.cap > 126 || (r.preds.drop r.npred).any (fun n => n != 0)
    || r.needs &&& ~~~0x7F1F != 0 || field d 0 16 != 0

/-- The effective priority of a job (R184). -/
def Job.level (j : Job) : Nat := if j.rcd.prio ≥ j.rcd.cap then j.rcd.prio else Nat.min j.rcd.cap (j.rcd.prio + j.aged)

/-! ## Acceptance (R180, R381) -/

/-- Send a step that is not on its way yet. -/
def State.postOnce (s : State) (min : Nat) (ev : Instr) : State :=
  if s.flights.any (fun f => f.ev == ev) then s else s.post min none s.focus.core s.focus.bank none ev

/-- Issue a name where the module can; else the null name. -/
def State.issueOr (s : State) (cls : BitVec 8) : Name × State := if s.canIssue then s.issueName cls else (0, s)

/-- A record is accepted into a launch queue: the job's name is issued, and the Bellows considers it. Where the module can issue no name the
job is accepted under the null name (DESIGN CHOICE, log 26). -/
def State.accept (s : State) (r : LaunchRec) (segs : Sparse Seg) (pts : Option (BitVec 16)) : Name × State :=
  let q := s.lqueues[r.lq]
  let id := s.jobs.length
  let (n, s) := s.issueOr Cls.job
  let s := if n = 0 then s else s.enterName n (.job id) r.keyid
  let j : Job := { id := id, name := n, rcd := r, lq := r.lq.val, priv := false, pasid := if q.pasidValid then some q.pasid else none
                   state := .waiting, accepted := s.cycle, started := 0, aged := 0, tag := 0, cores := [], report := none
                   lastCkpt := none, reserved := [], pts := pts, segs := segs, params := [], evictFor := none }
  let s := { s with jobs := s.jobs ++ [j] }
  (n, (s.postHere 1 (.jobPlace id)).postIn (1000 * microUnits) s.focus.core s.focus.bank none (.priorityAging id))

/-- A launch queue holds as many waiting jobs as it has slots (R180). -/
def State.queueFull (s : State) (q : Fin 64) : Bool :=
  (s.jobs.filter (fun j => j.lq == q.val && j.state == .waiting && j.evictFor.isNone)).length ≥ (s.lqueues[q]).depth

/-- The fault of a record's predecessors (R180). -/
def State.predFault (s : State) (r : LaunchRec) : Option TrapInfo :=
  firstFault (fun n =>
    if n = 0 then some (faultName 0x17 0)
    else if Name.crc n ≠ crc8 (Name.body n) || s.aboveMark n then some (faultName 0x16 n)
    else if Name.cls n ≠ Cls.job then some (faultName 0x17 n) else none) (r.preds.take r.npred)

/-- LAUNCH (R180). -/
def execLaunch (h : Hdr) (m : MemOp) (s : State) : Out :=
  let pc := s.bank.pc
  .next (s.issue ((Need.of h).addr m |>.local) none fun s =>
    let (x, s) := s.readAddr m
    let a := x.toNat
    if a % 64 ≠ 0 then .fault (faultAt 0x05 x)
    else match windowFault a recordSize with
      | some t => .fault t
      | none =>
        let d := s.localBytes a recordSize
        let r := LaunchRec.parse d
        if recordInvalid d then .fault (faultAt 0x0C x)
        else if !s.bank.lqgrant.getLsbD r.lq.val then .fault (fault 0x04)
        else match s.predFault r with
          | some t => .fault t
          | none =>
            if s.queueFull r.lq || s.cur.outstanding s.focus.bank != 0 then .stall
            else
              let waits := s.journaling && s.mark ≥ s.journalMark
              let s := (s.touchLocal a recordSize).journalIssue
              let (n, s) := s.accept r s.bank.segs (some s.cur.pts)
              let s := s.storeLocal a (leBytes 16 n.toNat)
              .ok (if waits then s.hold 1 pc none [] else s))

/-! ## Placement (R183, R391) -/

/-- How the banks are held: by nobody, or by a job that takes the whole core or does not. -/
abbrev Holding := Nat → Bool → Option Bool

/-- The banks as they are held, were some jobs gone. -/
def State.holding (s : State) (without : List Nat) : Holding := fun core bank =>
  match (s.bankAt core bank).job with
  | none => none
  | some id => if without.contains id then none else some (match s.job id with
    | some j => j.rcd.whole
    | none => false)

/-- A job can take a bank of a core, some banks being barred (R183). -/
def LaunchRec.takes (r : LaunchRec) (h : Holding) (barred : List (Nat × Bool)) (bank : Bool) (core : Nat) : Bool :=
  (h core bank).isNone && !barred.contains (core, bank)
    && (if r.whole then (h core !bank).isNone && !barred.contains (core, !bank) else (h core !bank) != some true)

/-- The first `n` of a list for which there is a value. -/
def firstN {α β : Type} (n : Nat) (f : α → Option β) (l : List α) : Option (List β) :=
  let r := (l.filterMap f).take n
  if r.length = n then some r else none

/-- The place of a job in a cluster: its lowest cores that can be taken. -/
def LaunchRec.inCluster (r : LaunchRec) (ok : Nat → Bool) (die cl : Nat) : Option (List Nat) :=
  firstN r.cores (fun k => let c := die * 64 + cl * 8 + k
                           if ok c then some c else none) (List.range 8)

/-- The place of a job on a die. -/
def LaunchRec.onDie (r : LaunchRec) (ok : Nat → Bool) (die : Nat) : Option (List Nat) :=
  (firstN r.clusters (r.inCluster ok die) (List.range 8)).map List.flatten

/-- The place of a gang in the order of R391: its cores by gang rank. -/
def LaunchRec.place (r : LaunchRec) (able : Nat → Bool) (ok : Nat → Bool) : Option (List Nat) :=
  (firstN (r.stages * r.dies) (fun d => if able d then r.onDie ok d else none) (List.range 32)).map List.flatten

/-- A die that a job may use: ready, with its features, in its tenant's partition (R183, R387). A key id that is bound to no partition counts
as partition 0's (DESIGN CHOICE, log 25). -/
def State.dieAble (s : State) (r : LaunchRec) (d : Nat) : Bool :=
  s.ready[0].getLsbD d && covers (s.die d).featmask r.needs && (s.die d).part == (s.keyPart r.keyid).getD 0

/-- Every overlay of a job's image can be loaded in a bank, and each of its stages has one (R177, R183, R236). An image that is not
there fails at placement. -/
def State.loadable (s : State) (r : LaunchRec) (bank : Bool) : Bool :=
  match s.image r.image with
  | none => true
  | some g =>
    match g.placed bank r.whole with
    | none => false
    | some l => (List.range r.stages).all (fun i => (overlayFrom l 0 (BitVec.ofNat 4 i)).isSome)

/-- The record of a job that is to be restored on this module. -/
def State.savedJob (s : State) (j : Job) : Option ResumeRec := s.resume.find? (fun r => r.job == j.name && !r.banks.isEmpty)

/-- The banks that a job may be put into, in the order of their choice: a restored job goes back into its own half. -/
def State.banksFor (s : State) (j : Job) : List Bool :=
  match (s.savedJob j).bind (fun r => r.banks.head?) with
  | some v => [v.addr % 2 == 1]
  | none => [false, true].filter (s.loadable j.rcd)

/-- The first placement of a job that fits (R183, R391). -/
def State.fit (s : State) (j : Job) (h : Holding) (barred : List (Nat × Bool)) : Option (Bool × List Nat) :=
  (s.banksFor j).findSome? (fun b => (j.rcd.place (s.dieAble j.rcd) (j.rcd.takes h barred b)).map (fun l => (b, l)))

/-- Put a value into a list that is ordered by cost, after those of its cost. -/
def insertCost {β : Type} (x : Nat × β) : List (Nat × β) → List (Nat × β)
  | [] => [x]
  | y :: r => if y.1 ≤ x.1 then y :: insertCost x r else x :: y :: r

/-- The `n` cheapest of a list, the first among equals, with their cost. -/
def cheapest {β : Type} (n : Nat) (l : List (Nat × β)) : Option (Nat × List β) :=
  let r := (l.foldl (fun m x => insertCost x m) []).take n
  if r.length = n then some (sumNat (r.map (fun x => x.1)), r.map (fun x => x.2)) else none

/-- The best placement of a job were none running: the fewest of its banks held, the first of R391 among equals (R184). -/
def State.best (s : State) (j : Job) : List (Nat × Bool) :=
  let r := j.rcd
  let h := s.holding []
  match s.banksFor j with
  | [] => []
  | b :: _ =>
    let held (core : Nat) (bank : Bool) : Nat := if (h core bank).isSome then 1 else 0
    let cost (core : Nat) : Nat := held core b + if r.whole then held core !b else 0
    let cluster (d cl : Nat) : Option (Nat × List Nat) :=
      cheapest r.cores ((List.range 8).map (fun k => (cost (d * 64 + cl * 8 + k), d * 64 + cl * 8 + k)))
    let die (d : Nat) : Option (Nat × List Nat) :=
      if s.dieAble r d then (cheapest r.clusters ((List.range 8).filterMap (cluster d))).map (fun x => (x.1, x.2.flatten)) else none
    match cheapest (r.stages * r.dies) ((List.range 32).filterMap die) with
    | none => []
    | some (_, l) => l.flatten.flatMap (fun c => if r.whole then [(c, false), (c, true)] else [(c, b)])

/-! ## Selection (R182, R184) -/

/-- How a predecessor stands: it has retired, it has failed, or neither. -/
def State.predState (s : State) (n : Name) : Option Bool :=
  match s.resolveHome n with
  | .live e => match e.bind with
    | .job id => match s.job id with
      | some j => if j.state == .failed then some false else none
      | none => some true
    | .tensor _ | .patch | .checkpoint _ _ | .cellseg _ | .microcode _ _ _ | .savearea _ | .aliasTo _ => none
  | .gone => some true
  | .fault _ => none

/-- The predecessors of a job. -/
def Job.predNames (j : Job) : List Name := j.rcd.preds.take j.rcd.npred

/-- A waiting job whose predecessors have all retired. -/
def State.candidate (s : State) (j : Job) : Bool := j.state == .waiting && j.predNames.all (fun n => s.predState n == some true)

/-- The head of a level: the candidate accepted first. -/
def State.headOf (s : State) (level : Nat) : Option Job :=
  (s.jobs.filter (fun j => s.candidate j && j.level == level)).foldl (fun (m : Option Job) j => match m with
    | none => some j
    | some x => if j.accepted < x.accepted then some j else some x) none

/-- The levels from the highest down: the first head that fits outside the reservations above it, and the reservations that are
then held. -/
def State.choose (s : State) : List Nat → List (Nat × Bool) → Option (Job × Bool × List Nat) × List (Nat × List (Nat × Bool))
  | [], _ => (none, [])
  | l :: r, barred => match s.headOf l with
    | none => s.choose r barred
    | some j => match s.fit j (s.holding []) barred with
      | some p => (some (j, p), [])
      | none =>
        let mine := if j.reserved.isEmpty then s.best j else j.reserved
        let (x, m) := s.choose r (barred ++ mine)
        (x, (j.id, mine) :: m)

/-- A job stands at the head of its level. -/
def State.isHead (s : State) (j : Job) : Bool := ((s.headOf j.level).map (fun x => x.id)) == some j.id

/-- The Bellows' choice now, with the reservations kept by the heads that do not fit; a head that has one keeps it while others start. -/
def State.select (s : State) : Option (Job × Bool × List Nat) × State :=
  let (x, m) := s.choose (List.range 128).reverse []
  (x, { s with jobs := s.jobs.map (fun j => match m.find? (fun p => p.1 == j.id) with
    | some p => { j with reserved := p.2 }
    | none => if s.isHead j then j else { j with reserved := [] }) })

/-- The Bellows looks at every waiting job again. -/
def State.kick (s : State) : State :=
  s.jobs.foldl (fun s j => if j.state == .waiting then s.postOnce 1 (.jobPlace j.id) else s) s

/-! ## Starting a job (R181) -/

/-- A bank that stands for a job before it is placed, with the table that its record's addresses are read through. -/
def Job.reader (j : Job) : Bank := { Bank.reset with job := some j.id, segs := j.segs }

/-- Read an extent that a job's record names: a fault where it cannot be read (R180). -/
def State.readFor (s : State) (j : Job) (a n : Nat) : Except TrapInfo (List Byte) × State :=
  match s.translate j.reader 0 (BitVec.ofNat 64 a) n with
  | .error t => (.error t, s)
  | .ok l => match s.readPieces s.focus.core j.pasid l with
    | (none, s) => (.error (faultAt 0x07 (BitVec.ofNat 64 a)), s)
    | (some b, s) => (.ok b, s)

/-- Some line that a job's record names is in the middle of a transaction. -/
def State.recordBusy (s : State) (j : Job) : Bool :=
  [(j.rcd.params, 96), (j.rcd.segtab, 32768), (j.rcd.image, 1)].any (fun x =>
    match s.translate j.reader 0 (BitVec.ofNat 64 x.1) x.2 with
    | .error _ => false
    | .ok l => s.anyBusy (l.flatMap Piece.lines))

/-- A job fails with a report. -/
def State.failJob (s : State) (id : Nat) (r : Report) : State :=
  (s.modJob id (fun j => if j.report.isNone then { j with report := some r } else j)).postOnce 1 (.jobFail id)

/-- A report of a code and an address. -/
def Report.of (code : BitVec 8) (addr : Word) : Report := { code := code, pc := 0, addr := addr, second := none, pred := 0, rcd := none }

/-- The lowest job tag that no job on the module holds (R357). -/
def State.freeTag (s : State) : BitVec 16 :=
  let held (t : Nat) : Bool := s.jobs.any (fun j => (j.state == .running || j.state == .quenched) && j.tag.toNat == t)
  BitVec.ofNat 16 (((List.range 65535).map (fun i => i + 1)).find? (fun t => !held t) |>.getD 0)

/-- The launch state of a bank (R181). -/
def Job.launchBank (j : Job) (params : List Byte) (segs : Sparse Seg) (rank cycle : Nat) : Bank :=
  let w (i : Nat) : Word :=
    if 1 ≤ i && i ≤ 12 then BitVec.ofNat 64 (field params (8 * (i - 1)) 8)
    else if i = 13 then BitVec.ofNat 64 (rank / j.rcd.perStage)
    else if i = 14 then BitVec.ofNat 64 (rank % j.rcd.perStage)
    else if i = 15 then BitVec.ofNat 64 rank else 0
  { Bank.reset with job := some j.id, status := .running, priv := j.priv, stage := BitVec.ofNat 4 (rank / j.rcd.perStage)
                    stageRank := rank % j.rcd.perStage, gangRank := rank, lqgrant := j.rcd.lqgrant, image := j.rcd.image
                    s := Vector.ofFn (fun (i : Fin 64) => w i.val), check := j.rcd.policy.getLsbD 7, segs := segs
                    bound := cycle + 1 }

/-- The core takes a bank of a job: where both banks were vacant the split of its semaphores follows the job (R162), nothing of an earlier
job is left in the bank, and the control stream stands at it where the other bank holds no job. -/
def Core.takeIn (c : Core) (bank whole : Bool) : Core :=
  let c := if (c.bank !bank).job.isSome then c else { c with ksplit := !whole, active := bank }
  c.clearFor bank

/-- The logical times that reach a job at its start: its launcher's, and those of its predecessors' retirements (R319). A record from
the host carries none. -/
def State.ptsInto (s : State) (j : Job) : List (BitVec 16) :=
  j.pts.toList ++ (s.jobs.filter (fun d => j.predNames.contains d.name && d.state == .retired)).filterMap (fun d => d.pts)

/-- A core acquires some logical times. -/
def State.bumpAll (s : State) (core : Nat) (l : List (BitVec 16)) : State := l.foldl (fun s p => s.bumpPts core p) s

/-- One core of a gang starts. -/
def State.startCore (s : State) (j : Job) (g : ProgImage) (params : List Byte) (segs : Sparse Seg) (bank : Bool) (rank core : Nat) :
    State :=
  let b := j.launchBank params segs rank s.cycle
  match overlayFrom (j.placed g bank) 0 b.stage with
  | none => s
  | some (o, i) =>
    (s.modCore core (fun c => ((c.takeIn bank j.rcd.whole).setBank bank b).loadOverlay bank o i)).bumpAll core (s.ptsInto j)

/-- Start a job on its cores, or fail it where its record names what cannot be read (R180, R181). -/
def State.startJob (s : State) (j : Job) (bank : Bool) (cores : List Nat) : State :=
  let fail (t : TrapInfo) (s : State) : State := s.failJob j.id (.of t.code t.taddr)
  match s.readFor j j.rcd.image 1 with
  | (.error t, s) => fail t s
  | (.ok _, s) => match s.image j.rcd.image with
    | none => fail (faultAt 0x07 (BitVec.ofNat 64 j.rcd.image)) s
    | some g => match s.readFor j j.rcd.params 96 with
      | (.error t, s) => fail t s
      | (.ok params, s) => match s.readFor j j.rcd.segtab 32768 with
        | (.error t, s) => fail t s
        | (.ok tab, s) => match s.segFault none [] 0 (segEntries tab) with
          | some (i, c) => fail (faultAt c (BitVec.ofNat 64 (j.rcd.segtab + 32 * i))) s
          | none =>
            let segs := segTable tab
            let j : Job := { j with priv := s.privq.getLsbD j.lq, tag := if j.tag = 0 then s.freeTag else j.tag, state := .running
                                    cores := cores.map (fun c => (c, bank)), started := s.cycle, reserved := [], segs := segs, params := params }
            let s := (s.modJob j.id (fun _ => j)).startBias segs
            cores.zipIdx.foldl (fun s x => s.startCore j g params segs bank x.2 x.1) s

/-! ## Starting a saved job again (R185, R368) -/

/-- Where the core of a number stands now, by the ranks of the saved banks. -/
def newCore (banks : List SavedBank) (cores : List Nat) (old : Nat) : Nat :=
  match banks.find? (fun v => v.core == old) with
  | none => old
  | some v => cores.getD v.bank.gangRank old

/-- A packet of the save area with the cores of this module as they stand now. -/
def movedPacket (banks : List SavedBank) (cores : List Nat) (bank : Bool) (p : Packet) : Packet :=
  let move (m : BitVec 12) (c : BitVec 11) : BitVec 11 :=
    if m == Config.moduleNumber then BitVec.ofNat 11 (newCore banks cores c.toNat) else c
  { p with score := move p.smod p.score, dcore := move p.dmod p.dcore, sbank := if p.smod == Config.moduleNumber then bank else p.sbank }

/-- Insert a packet by source, destination and number (R368). -/
def insertSeq (p : Packet) : List Packet → List Packet
  | [] => [p]
  | q :: r =>
    let key (x : Packet) : Nat := ((x.smod.toNat * 2048 + x.score.toNat) * 2048 + x.dcore.toNat) * 2 ^ 32 + x.seq.toNat
    if key p < key q then p :: q :: r else q :: insertSeq p r

/-- The step that a packet out of a save area takes: a core's signal by SSIG carries its operand (R170). -/
def reinject (p : Packet) : Instr :=
  if p.typ == 2 && !p.data.isEmpty then
    .remoteSignalApply p.score.toNat p.sbank p.jobtag p.arg (BitVec.ofNat 64 (leNat p.data)) p.pts
  else packetEvent p

/-- A step that arrives now at a core, after those before it from the same core. -/
def State.arriveNow (s : State) (src core : Nat) (ev : Instr) : State :=
  { s with flights := s.flights ++ [{ due := s.cycle, chan := some (src, core, 0), core := core, bank := false, eng := none, ev := ev }] }

/-- A restored bank takes up what it was waiting for. -/
def State.rewait (s : State) (id : Nat) (p : Nat × Bool) : State :=
  let b := s.bankAt p.1 p.2
  let stage (x : Bool) : Option (BitVec 4) := if x then some b.stage else none
  match b.status with
  | .held => if b.holdWord.isNone then s.post 1 none p.1 p.2 none .overlayLoad else s
  | .atBar st inst =>
    if (s.participants id (stage st)).head? == some p && (s.participants id (stage st)).all (fun q => (s.bankAt q.1 q.2).status == b.status)
    then s.releaseBarrier id (stage st) inst else s
  | .inStep st =>
    if (s.participants id (stage st)).head? == some p then s.post 1 none p.1 p.2 none (.commStepEnd id (stage st)) else s
  | .vacant | .running | .idle | .halted | .stopped _ | .pageWait | .ended | .quenched => s

/-- Apply a held increment at its core's new place (R366). -/
def State.applyHeld (s : State) (tag : BitVec 16) (core : Nat) (k : BitVec 8) : State :=
  match s.bankOfTag core tag with
  | none => s
  | some b => s.incSem core k (s.core core).pts (core, b) { fault 0x23 with src := 5 }

/-- Every bank of a quenched job is loaded into its core, the packets of the save area are delivered and the held increments applied,
the area is released and the job goes on (R366, R368). -/
def State.restart (s : State) (j : Job) (r : ResumeRec) (bank : Bool) (cores : List Nat) : State :=
  let j : Job := { j with state := .running, cores := cores.map (fun c => (c, bank)), started := s.cycle, reserved := [], evictFor := none }
  let s := r.banks.foldl (fun (s : State) v => s.movePart j.id v.bank.gangRank (cores.getD v.bank.gangRank 0, bank)) s
  let s := s.modJob j.id (fun _ => j)
  let remap (k : Nat) : Nat :=
    let x := k / 2
    if x / 2048 = Config.moduleNumber.toNat then 2 * (x / 2048 * 2048 + newCore r.banks cores (x % 2048)) + k % 2 else k
  let s := r.banks.foldl (fun (s : State) v =>
    let core := cores.getD v.bank.gangRank 0
    let v : SavedBank := { v with bank := s.freshRegs v.bank, sendSeq := v.sendSeq.map (fun x => (remap x.1, x.2)) }
    s.modCore core (fun c => (c.takeIn bank j.rcd.whole).loadBank bank v s.cycle)) s
  let area := ((s.saveArea r.tag).map (fun a => a.packets)).getD []
  let s := s.removeName r.savearea
  let s := s.modResume r.tag (fun r => { r with state := 0, banks := [], heldIncs := [], held := 0, npkt := 0, nbank := 0, savearea := 0 })
  let s := { s with saveAreas := s.saveAreas.filter (fun a => a.tag != r.tag) }
  let packets := (area.map (movedPacket r.banks cores bank)).foldl (fun l p => insertSeq p l) []
  let s := packets.foldl (fun (s : State) p => s.arriveNow p.score.toNat p.dcore.toNat (reinject p)) s
  let s := r.heldIncs.foldl (fun (s : State) x => s.applyHeld r.tag (newCore r.banks cores x.1) x.2) s
  j.cores.foldl (fun s p => s.rewait j.id p) s

/-- The cores of a placement have room for what a saved job brings. -/
def State.roomFor (s : State) (r : ResumeRec) (cores : List Nat) : Bool :=
  r.banks.all (fun v => (s.core (cores.getD v.bank.gangRank 0)).hasRoom v)

/-! ## The Bellows' steps -/

/-- JOB_PLACE (R183): the job starts where it is the Bellows' choice; one that may evict others and does not fit asks to (R185), and
one whose predecessor has failed fails (R182). -/
def execJobPlace (id : Nat) (s : State) : Out :=
  .next (match s.job id with
  | none => s
  | some j =>
    if j.state != .waiting then s
    else match j.predNames.find? (fun n => s.predState n == some false) with
      | some n => s.failJob id { Report.of 0 0 with pred := n }
      | none =>
        if !s.candidate j then s
        else match s.select with
          | (some (x, b, l), s) =>
            if x.id != id then
              let s := if j.level ≥ s.threshold.toNat then s.postOnce 1 (.preempt id) else s
              s.postOnce 1 (.jobPlace x.id)
            else match s.savedJob j with
              | some r => if s.roomFor r l then (s.restart j r b l).kick else s.postOnce 1 (.jobPlace id)
              | none => if s.recordBusy j then s.postOnce 1 (.jobPlace id) else (s.startJob j b l).kick
          | (none, s) => if j.level ≥ s.threshold.toNat then s.postOnce 1 (.preempt id) else s)

/-- What is still on its way to a bank that its job leaves is dropped: landings, reports, and host accesses that are frozen, with those
behind them. -/
def State.forgetBank (s : State) (p : Nat × Bool) : State :=
  let mine (f : Flight) : Bool := f.core == p.1 && f.bank == p.2 && match f.ev with
    | .loadLand _ | .baseHomeReport | .overlayLoad => true
    | _ => false
  let s := { s with flights := s.flights.filter (fun f => !mine f) }
  s.modCore p.1 (fun c => { c with accs := c.accs.filter (fun a => a.bank != p.2) })

/-- Some access of a bank can still be performed or acknowledged: it is not frozen at the host, nor held behind one that is. -/
def State.inFlight (s : State) (p : Nat × Bool) : Bool :=
  let c := s.core p.1
  c.accs.any (fun a => a.bank == p.2 && !s.frozen p.1 a && (a.state != .waiting || c.mayPerform a))

/-- A job leaves the banks it holds. -/
def State.vacateJob (s : State) (j : Job) : State :=
  j.cores.foldl (fun s p =>
    if (s.bankAt p.1 p.2).job == some j.id then (s.forgetBank p).modCore p.1 (fun c => c.vacate p.2) else s) s

/-- A name leaves the home table and every cache at once, and resolves GONE from now on. -/
def State.endName (s : State) (n : Name) (pts : BitVec 16) : State :=
  let s := s.removeName n
  { s with cores := Sparse.mapVals (fun c => { c with names := c.names.filter (fun x => x != n) }) s.cores
           dies := s.dies.map (fun d => { d with names := d.names.filter (fun x => x != n) }), gone := s.gone ++ [(n, pts)] }

/-- A job's pins are cleared when it retires or fails (R291). -/
def State.clearPins (s : State) (id : Nat) : State :=
  let free (y : SLine) : SLine := if y.pin == some id then { y with pin := none } else y
  { s with slices := Sparse.mapVals (fun x => { x with lines := x.lines.map free }) s.slices }

/-- JOB_RETIRE (R182): its name is destroyed, after the journal has it (R373), and its dependants may start. Everything the job did in
memory happens before (R313), so that it waits for the accesses that are on their way. -/
def execJobRetire (id : Nat) (s : State) : Out :=
  .next (match s.job id with
  | none => s
  | some j =>
    if j.state != .running || !s.jobOver j then s
    else if j.cores.any (fun p => !(s.core p.1).drained p.2) then s.postAt (s.cycle + 1) s.focus.core s.focus.bank none (.jobRetire id)
    else if s.journaling && !s.journal.contains j.name then (s.journalDeath j.name).postHere 1 (.jobRetire id)
    else if s.journalWaits.any (fun w => w.2.1 == s.focus.core && w.2.2.1 == s.focus.bank) then
      s.postAt (s.cycle + 1) s.focus.core s.focus.bank none (.jobRetire id)
    else
      let pts := ptsMaxList (j.cores.map (fun p => (s.core p.1).pts))
      let s := (((s.vacateJob j).killOpenOf id).clearPins id).endName j.name pts
      (s.modJob id (fun j => { j with state := .retired, reserved := [], pts := some pts })).kick)

/-- An engine executes an entry of a bank. -/
def Core.serving (c : Core) (bank : Bool) : Bool :=
  allEngines.any (fun e => (c.engine e).cur.any (fun n => n.bank == bank && !(c.engine e).frozen))
    || c.accs.any (fun a => a.bank == bank && a.state != .performed && a.target != .host) || c.lwrites.any (fun w => w.bank == bank)
    || c.laccs.any (fun x => x.bank == bank && !x.waits)

/-- JOB_FAIL (R121, R182): its banks stop, its engines finish the entries they have started, and the dispatcher ends it; each job that
depends on it fails in turn. -/
def execJobFail (id : Nat) (s : State) : Out :=
  .next (match s.job id with
  | none => s
  | some j =>
    if j.state == .retired || j.state == .failed then s
    else
      let mine (p : Nat × Bool) : Bool := (s.bankAt p.1 p.2).job == some id
      let stop (b : Bank) : Bank := if b.isStopped || b.status == .halted then b else { b with status := .stopped none }
      let parts := j.cores.filter mine
      let s := parts.foldl (fun (s : State) p => s.modBankAt p.1 p.2 stop) s
      if parts.any (fun p => (s.core p.1).serving p.2 || s.inFlight p) then s.postAt (s.cycle + 1) s.focus.core s.focus.bank none (.jobFail id)
      else
        let s := (((s.vacateJob j).killOpenOf id).clearPins id).modJob id (fun j => { j with state := .failed, reserved := [] })
        let s := s.jobs.foldl (fun s d => if d.state == .waiting && d.predNames.contains j.name then
          s.failJob d.id { Report.of 0 0 with pred := j.name } else s) s
        s.kick)

/-- PRIORITY_AGING (R184): a waiting job gains a level with each millisecond. -/
def execPriorityAging (id : Nat) (s : State) : Out :=
  .next (match s.job id with
  | none => s
  | some j =>
    if j.state == .retired || j.state == .failed then s
    else (s.modJob id (fun j => { j with aged := j.aged + 1 })).kick.postIn (1000 * microUnits) s.focus.core s.focus.bank none
      (.priorityAging id))

end Sys2Proof.Machine
end

