-- ==== Sys2Proof/Machine/Quench.lean ====
section
/-!
DEFINITION. Quench and resume (R361 to R368) and pre-emption (R185). A quench goes on by itself: `quenchTick` moves it on at the end
of every cycle.
-/
namespace Sys2Proof.Machine

/-! ## A quench on this module (R362 to R366) -/

/-- Change the quench of a job. -/
def State.modQuench (s : State) (id : Nat) (f : Quench → Quench) : State :=
  { s with quenches := s.quenches.map (fun q => if q.id == id then f q else q) }

/-- The banks of a job on this module. -/
def State.parts (s : State) (id : Nat) : List (Nat × Bool) :=
  match s.job id with
  | none => []
  | some j => j.cores.filter (fun p => (s.bankAt p.1 p.2).job == some id)

/-- A bank that a clean quench need not wait for: it has stopped at its BAR, or it waits in one that cannot release (R362). -/
def Bank.atRest (b : Bank) : Bool :=
  match b.status with
  | .quenched | .atBar _ _ | .ended | .halted | .stopped _ => true
  | .vacant | .running | .idle | .inStep _ | .held | .pageWait => false

/-- Every bank of a job stands at its barrier, and no release is on its way. -/
def State.atBarriers (s : State) (id : Nat) : Bool :=
  (s.parts id).all (fun p => (s.bankAt p.1 p.2).atRest)
    && !(s.flights.any (fun f => match f.ev with
      | .barrierRelease j _ _ _ _ => j == id
      | _ => false))

/-- Start a quench of a running job, or join one that is under way (R366). -/
def State.startQuench (s : State) (j : Job) (now : Bool) (issuer : Option (Nat × Bool)) (remote requeue : Bool) : State :=
  if s.quenches.any (fun q => q.id == j.id) then
    s.modQuench j.id (fun q => { q with now := q.now || now, issuers := q.issuers ++ issuer.toList, requeue := q.requeue && requeue })
  else
    let others := if remote || requeue then [] else s.otherModules j.name
    let s := (s.parts j.id).foldl (fun (s : State) p => s.modBankAt p.1 p.2 (fun b => { b with stopAtBar := true })) s
    let s := { s with quenches := s.quenches ++
      [{ job := j.name, id := j.id, tag := j.tag, now := now, issuers := issuer.toList, phase := 0, waiting := others, absent := []
         markers := [], requeue := requeue, remote := remote }] }
    if others.isEmpty then s
    else s.postIn (s.quenchDeadlineUs * microUnits) s.focus.core s.focus.bank none (.quenchDeadline j.name)

/-- A word that a service holds is over. -/
def State.letGo (s : State) (p : Nat × Bool) : State :=
  s.modBankAt p.1 p.2 (fun b => if b.status == .held then { b.resume s.cycle with switchClaim := (s.core p.1).active != p.2 } else b)

/-- A CKPT whose cores have not all arrived is withdrawn: the cores that wait in it will issue it again. -/
def State.withdraw (s : State) (id : Nat) : State :=
  let back (b : Bank) : Bank := match b.holdWord with
    | none => b
    | some w => { b.resume s.cycle with pc := w.pc }
  let s := (s.ckpts.filter (fun c => c.job == id && c.name == 0)).foldl (fun (s : State) c =>
    c.arrived.foldl (fun (s : State) p => s.modBankAt p.1 p.2 back) s) s
  { s with ckpts := s.ckpts.filter (fun c => c.job != id || c.name != 0) }

/-- Phase 1: the banks of the job issue nothing further and their engines stop at boundaries. An issuer that belongs to the job has
completed its word. -/
def State.stopParts (s : State) (q : Quench) : State :=
  let ps := s.parts q.id
  let s := s.withdraw q.id
  let s := (q.issuers.filter ps.contains).foldl State.letGo s
  ps.foldl (fun (s : State) p => s.modBankAt p.1 p.2 (fun b => { b with stopEng := true })) s

/-- A name can be issued now: not while a new high mark has still to be journalled (R373). -/
def State.mayIssue (s : State) : Bool × State :=
  if !s.journaling || s.mark < s.journalMark then (true, s)
  else (false, if s.journalWaits.any (fun w => w.2.2.2.isSome) then s else s.journalIssue)

/-- Phase 2 begins: the save area, its name and the job's record (R363, R365). -/
def State.openArea (s : State) (q : Quench) (keyid : BitVec 7) : State :=
  let (n, s) := s.issueOr Cls.savearea
  let s := if n = 0 then s else s.enterName n (.savearea q.tag) keyid
  let r : ResumeRec := { tag := q.tag, job := q.job, banks := [], savearea := n, state := 0, nbank := 0, npkt := 0, step := 0, images := 0
                         held := 0, heldIncs := [], absent := [], remote := q.remote }
  { s with saveAreas := s.saveAreas.filter (fun a => a.tag != q.tag) ++ [{ tag := q.tag, packets := [], closed := false }]
           resume := s.resume.filter (fun x => x.tag != q.tag) ++ [r] }

/-- Every Evnov link that is ready, and does not come from an absent module, has delivered its nine markers (R363, R364). -/
def State.swept (s : State) (q : Quench) : Bool :=
  (List.finRange 64).all (fun l => !(s.ready[2].getLsbD l.val) || q.absent.contains (Config.linkPeer l.val)
    || (List.finRange 9).all (fun c => q.markers.contains (l, c)))

/-- The packet that a flight carries, if it is core-bound and of a job. -/
def flightPacket (f : Flight) : Option Packet :=
  match f.ev with
  | .putPacketApply p | .reducePacketApply p | .broadcastPacketApply p | .signalPacketApply p => some p
  | .remoteSignalApply src bank tag k x pts =>
    some { jobtag := tag, smod := Config.moduleNumber, score := BitVec.ofNat 11 src, dmod := Config.moduleNumber
           dcore := BitVec.ofNat 11 f.core, seq := 0, typ := 2, late := false, stepBit := false, arg := k, raddr := 0
           data := leBytes 8 x.toNat, reserved := false, pts := pts, wordNo := 0, sbank := bank }
  | _ => none

/-- A flight carries a packet of a tag. -/
def carries (tag : BitVec 16) (f : Flight) : Bool := ((flightPacket f).map (fun (p : Packet) => p.jobtag)) == some tag

/-- The sweep: every packet of the job that is still on its way goes into the save area, which then closes (R362, R363). -/
def State.sweep (s : State) (q : Quench) : State :=
  let mine := s.flights.filter (carries q.tag)
  let s := { s with flights := s.flights.filter (fun f => !carries q.tag f) }
  (mine.filterMap flightPacket |>.foldl State.savePacket s).modSaveArea q.tag (fun a => { a with closed := true })

/-- Phase 3: the banks are saved by rank and vacated (R336, R362). -/
def State.saveParts (s : State) (q : Quench) : State :=
  let ps := s.parts q.id
  let saved := ps.map (fun p => s.saveBank p.1 p.2 (if p.2 then 1 else 0))
  let s := ps.foldl (fun s p => s.vacateSaved p.1 p.2) s
  let images := (Config.freeWord s.free).toNat
  s.tick.modResume q.tag (fun r => { r with banks := saved, nbank := saved.length, images := images })

/-- The quench is complete: the record shows it, unless it was aborted, and the words that waited for it go on (R364, R365). A job that
the Bellows removed waits again (R185). -/
def State.endQuench (s : State) (q : Quench) : State :=
  let s := s.modResume q.tag (fun r => { r with state := if r.state == 3 then 3 else 1, absent := q.absent })
  let s := s.modJob q.id (fun j => { j with state := if q.requeue then .waiting else .quenched, evictFor := none })
  let s := q.issuers.foldl State.letGo s
  { s with quenches := s.quenches.filter (fun x => x.id != q.id) }.kick

/-- A module all of whose links have left the ready map is counted absent (R364). -/
def State.cutOff (s : State) (m : BitVec 12) : Bool :=
  let links := (List.range 64).filter (fun l => Config.linkPeer l == m)
  !links.isEmpty && links.all (fun l => !(s.ready[2].getLsbD l))

/-- One quench moves on by at most one phase. -/
def State.quenchStep (s : State) (q : Quench) : State :=
  let gone := q.waiting.filter s.cutOff
  let q := { q with waiting := q.waiting.filter (fun m => !s.cutOff m), absent := q.absent ++ gone }
  let s := s.modQuench q.id (fun _ => q)
  let next (s : State) : State := s.modQuench q.id (fun q => { q with phase := q.phase + 1 })
  match s.job q.id with
  | none => { s with quenches := s.quenches.filter (fun x => x.id != q.id) }
  | some j =>
    if j.state != .running then { q.issuers.foldl State.letGo s with quenches := s.quenches.filter (fun x => x.id != q.id) }
    else match q.phase with
    | 0 => if q.now || s.atBarriers q.id then next (s.stopParts q) else s
    | 1 =>
      if (s.parts q.id).all (fun p => s.bankQuiet p.1 p.2 false) then
        match s.mayIssue with
        | (true, s) => next (s.openArea q j.rcd.keyid)
        | (false, s) => s
      else s
    | 2 => if s.swept q then next (s.sweep q) else s
    | 3 => next (s.saveParts q)
    | _ => if q.waiting.isEmpty then s.endQuench q else s

/-- Every quench moves on. -/
def State.quenchTick (s : State) : State := s.quenches.foldl State.quenchStep s

/-! ## The words (R361, R366, R368) -/

/-- QUENCH (R362): at once where the job has no bank here to save, or is quenched already (R366). -/
def execQuench (h : Hdr) (a : NSrc) (now : Bool) (s : State) : Out :=
  let pc := s.bank.pc
  .next (s.issue ((Need.of h).n a |>.privileged) none fun s =>
    let x := s.bank.readN a
    match s.resolveAs s.focus.core [Cls.job] x with
    | (.error t, _, _) => .fault t
    | (.ok e, _, s) => match e.bind with
      | .job id => match s.job id with
        | none => .ok s
        | some j =>
          if j.state != .running || s.resume.any (fun r => r.job == x && r.state != 0) then .ok s
          else .ok ((s.startQuench j now (some (s.focus.core, s.focus.bank)) false false).modBank (fun b =>
            { b with status := .held, holdWord := some { pc := pc, trap := none, writes := [], flags := 0 } }))
      | .tensor _ | .patch | .checkpoint _ _ | .cellseg _ | .microcode _ _ _ | .savearea _ | .aliasTo _ => .ok s)

/-- The checks of the records that QRESUME makes (R368): tinfo.detail of the fault, if any. -/
def State.resumeDetail (s : State) (r : Option ResumeRec) (name : Name) : Option (BitVec 16) :=
  let peers : Nat := if (s.otherModules name).isEmpty then 0 else (Config.peerRecords s.free).val
  match r with
  | none => some 1
  | some r =>
    if r.state == 2 || r.state == 3 || (r.state == 1 && !r.absent.isEmpty) || peers = 2 then some 2
    else if r.state == 0 || peers = 1 then some 1 else none

/-- QRESUME (R368). -/
def execQresume (h : Hdr) (a : NSrc) (s : State) : Out :=
  .next (s.issue ((Need.of h).n a |>.privileged) none fun s =>
    let x := s.bank.readN a
    match s.resolveAs s.focus.core [Cls.job] x with
    | (.error t, _, _) => .fault t
    | (.ok _, _, s) =>
      let r := s.resume.find? (fun r => r.job == x)
      match s.resumeDetail r x with
      | some d => .fault (faultDetail 0x0C d)
      | none => match r, s.jobs.find? (fun j => j.name == x) with
        | some r, some j => match s.fit j (s.holding []) [] with
          | none => .fault (faultName 0x02 x)
          | some (b, l) =>
            if !(s.otherModules x).isEmpty && !Config.peersFit s.free then .fault (faultName 0x02 x)
            else if !s.roomFor r l then .stall else .ok (s.tick.restart j r b l)
        | _, _ => .fault (faultDetail 0x0C 1))

/-- QUENCH_ORDER (R362): an order from another module. -/
def execQuenchOrder (job : Name) (now : Bool) (s : State) : Out :=
  .next (match s.jobs.find? (fun j => j.name == job && j.state == .running) with
  | none => s
  | some j => s.startQuench j now none true false)

/-- SWEEP_DONE_MARKER (R362). -/
def execSweepDoneMarker (tag : BitVec 16) (link : Fin 64) (chan : Fin 9) (s : State) : Out :=
  .next { s with quenches := s.quenches.map (fun (q : Quench) => if q.tag == tag then { q with markers := dedup (q.markers ++ [(link, chan)]) } else q) }

/-- QUENCH_REPORT (R364): a participating module has completed its phases. To a participating module its issuer names those that were counted
absent, for its record. -/
def execQuenchReport (job : Name) (m : BitVec 12) (s : State) : Out :=
  let note (q : Quench) : Quench :=
    if q.job != job then q
    else if q.remote then { q with absent := q.absent ++ [m] }
    else { q with waiting := q.waiting.filter (fun x => x != m) }
  let list (r : ResumeRec) : ResumeRec := if r.job == job && r.remote && r.state == 1 then { r with absent := r.absent ++ [m] } else r
  .next { s with quenches := s.quenches.map note, resume := s.resume.map list }

/-- QUENCH_DEADLINE (R364): the modules that have not reported are counted absent. -/
def execQuenchDeadline (job : Name) (s : State) : Out :=
  .next { s with quenches := s.quenches.map (fun (q : Quench) =>
    if q.job == job then { q with absent := q.absent ++ q.waiting, waiting := [] } else q) }

/-! ## Pre-emption (R185) -/

/-- Insert a victim: the lowest level first, among equals the most recently started. -/
def insertVictim (j : Job) : List Job → List Job
  | [] => [j]
  | x :: r => if j.level < x.level || (j.level == x.level && j.started > x.started) then j :: x :: r else x :: insertVictim j r

/-- The jobs that a job may evict, in the order in which they are taken. -/
def State.victims (s : State) (h : Job) : List Job :=
  (s.jobs.filter (fun j => j.state == .running && j.rcd.pre && j.level < h.level && !(s.quenches.any (fun q => q.id == j.id)))).foldl
    (fun l j => insertVictim j l) []

/-- The shortest run of victims without which a job fits. -/
def State.enough (s : State) (h : Job) : List Nat → List Job → Option (List Nat)
  | ids, [] => if (s.fit h (s.holding ids) []).isSome then some ids else none
  | ids, v :: r => if (s.fit h (s.holding ids) []).isSome then some ids else s.enough h (ids ++ [v.id]) r

/-- A victim is asked to stop at its next barrier, and has the grace time for it. -/
def State.askVictim (s : State) (h : Nat) (id : Nat) : State :=
  let s := s.modJob id (fun j => { j with evictFor := some h })
  let s := (s.parts id).foldl (fun (s : State) p => s.modBankAt p.1 p.2 (fun b => { b with stopAtBar := true })) s
  s.postIn (s.graceUs * microUnits) s.focus.core s.focus.bank none (.graceTimeExpiry id)

/-- PREEMPT (R185): nothing is evicted where no set of victims suffices. -/
def execPreempt (id : Nat) (s : State) : Out :=
  .next (match s.job id with
  | none => s
  | some j =>
    if !s.candidate j || j.level < s.threshold.toNat || s.jobs.any (fun v => v.evictFor == some id) then s
    else match s.enough j [] (s.victims j) with
      | none => s
      | some ids => ids.foldl (fun s v => s.askVictim id v) s)

/-- A victim goes on where it stands, and its grace time runs no longer. -/
def State.spare (s : State) (id : Nat) : State :=
  let s : State := { s with flights := s.flights.filter (fun f => f.ev != .graceTimeExpiry id) }
  let go (p : Nat × Bool) (s : State) : State := s.modBankAt p.1 p.2 (fun b =>
    if b.status == .quenched then { b with stopAtBar := false, status := .running, bound := s.cycle + 1, switchClaim := (s.core p.1).active != p.2 }
    else { b with stopAtBar := false })
  (s.parts id).foldl (fun s p => go p s) (s.modJob id (fun j => { j with evictFor := none }))

/-- Every core of a job's gang has a free partner bank. -/
def State.partnersFree (s : State) (v : Job) : Bool := (s.parts v.id).all (fun p => (s.bankAt p.1 !p.2).job.isNone)

/-- Where a victim stands (R185): at its barriers it stays resident where every partner bank is free and the job for which it stopped can
take its place there, else it is removed. A job that has come to fit otherwise evicts nobody; where that job no longer waits the victim
goes on. -/
def State.evictStep (s : State) (v : Job) : State :=
  match v.evictFor.bind s.job with
  | none => s
  | some h =>
    if v.state != .running || s.quenches.any (fun q => q.id == v.id) then s
    else if h.state != .waiting then s.spare v.id
    else if !s.atBarriers v.id then s
    else if (s.fit h (s.holding []) []).isSome then
      let s := s.postOnce 1 (.jobPlace h.id)
      if s.partnersFree v then s.spare v.id else s
    else s.startQuench v false none false true

/-- Every victim is looked at. -/
def State.evictTick (s : State) : State := s.jobs.foldl (fun s v => if v.evictFor.isSome then s.evictStep v else s) s

/-- GRACE_TIME_EXPIRY (R185): a victim that has not reached its barriers is saved in the middle of its superstep. -/
def execGraceTimeExpiry (id : Nat) (s : State) : Out :=
  .next (match s.job id with
  | none => s
  | some v =>
    if v.evictFor.isNone || v.state != .running then s
    else s.startQuench v true none false true)

end Sys2Proof.Machine
end

