-- ==== Sys2Proof/Machine/Ckpt.lean ====
section
/-!
DEFINITION. Checkpoints and restore (R369 to R376). What a checkpoint holds is kept as data; the bytes of its shards have no layout in
the manual.
-/
namespace Sys2Proof.Machine

/-! ## The snapshot (R370, R371) -/

/-- Change the checkpoint of a job whose cores still arrive. -/
def State.modGather (s : State) (id : Nat) (f : Ckpt → Ckpt) : State :=
  { s with ckpts := s.ckpts.map (fun c => if c.job == id && c.name == 0 then f c else c) }

/-- A physical page of a stack set, or a tensor's first byte, lies in a PATCHED segment of a bank. -/
def Bank.mapsView (b : Bank) (lo nd q : Nat) : Bool :=
  b.segs.any (fun x => x.2.patched && x.2.dies == (lo, nd) && x.2.pbase * segUnit ≤ q && q < (x.2.pbase + x.2.len) * segUnit)

/-- Some bank of a job maps a physical byte as a view. -/
def State.jobMaps (s : State) (id lo nd q : Nat) : Bool := (s.parts id).any (fun p => (s.bankAt p.1 p.2).mapsView lo nd q)

/-- The high mark of every base that a job's segments hold. -/
def State.highMarks (s : State) (id : Nat) : List (Name × Nat) :=
  s.table.filterMap (fun e => match e.bind with
    | .tensor t =>
      let l := t.seg.loc t.base
      if s.jobMaps id l.lo l.nd l.q then some (e.name, s.lastSeal e.name) else none
    | .patch | .job _ | .checkpoint _ _ | .cellseg _ | .microcode _ _ _ | .savearea _ | .aliasTo _ => none)

/-- The mark of a base in a checkpoint. -/
def Ckpt.markOf (c : Ckpt) (base : Name) : Nat := ((c.marks.find? (fun x => x.1 == base)).map (fun x => x.2)).getD 0

/-- A half lies at or below a checkpoint's mark for its base. -/
def Ckpt.within (c : Ckpt) (p : Patch) : Bool := decide (p.half.sealNo ≤ c.markOf p.half.base)

/-- A page as it stands and as it stood before the folds that no checkpoint covers yet. -/
def State.pageRecord (s : State) (lo nd page : Nat) : Loc × List Byte × List Byte :=
  let l : Loc := { lo := lo, nd := nd, q := page * 4096 }
  let now := s.hbmBytes l 4096
  let fresh := (s.undos.filter (fun u => u.covered.isNone)).reverse
  let prior := fresh.foldl (fun (m : Sparse Byte) u => u.prior.foldl (fun m x =>
    if x.1.lo == lo && x.1.nd == nd && x.1.q / 4096 == page then Sparse.put m (x.1.q % 4096) x.2 else m) m) []
  (l, now, now.zipIdx.map (fun x => (Sparse.find prior x.2).getD x.1))

/-- The bytes of a bank's persist allocations. -/
def State.persistOf (s : State) (p : Nat × Bool) : List Host.Cell :=
  (s.bankAt p.1 p.2).persist.flatMap (fun r => (List.range r.2).map (fun i => (r.1 + i, Memory.read (s.core p.1).mem (r.1 + i))))

/-- The key of a durable write of a checkpoint: the module's own copy, or a buddy's slice. -/
def ckptKey (n : Name) (j : Nat) : Nat := n.toNat * 16 + j

/-- The number of durable writes that a shard waits for: its own copy and eight slices (R371). -/
def shardAcks : Nat := 9

/-- The shard goes to the module's flacon and its slices to the buddies (R371). -/
def State.writeShard (s : State) (n : Name) (tag : BitVec 16) : State :=
  let slice (j : Nat) : Packet :=
    { jobtag := tag, smod := Config.moduleNumber, score := 0, dmod := s.buddies.toList.getD j 0, dcore := 0, seq := BitVec.ofNat 32 j, typ := 7
      late := false, stepBit := false, arg := 0, raddr := 0, data := [], reserved := false, pts := 0, wordNo := 0, sbank := false }
  let s := { s with outbox := s.outbox ++ (List.range 8).map slice }
  (List.range shardAcks).foldl (fun (s : State) j => s.post 1 none s.focus.core s.focus.bank none (.flaconWriteAck (ckptKey n j))) s

/-- The last core has arrived: the snapshot is taken, the name issued, and each core goes on once its persist bytes are read. -/
def State.snapshot (s : State) (j : Job) (c : Ckpt) : State :=
  let (n, s) := s.issueOr Cls.checkpoint
  let s := if n = 0 then s else s.enterName n (.checkpoint j.id c.step) j.rcd.keyid
  let mine := s.dirtyPages.filter (fun p => s.jobMaps j.id p.1 p.2.1 (p.2.2 * 4096))
  let marks := s.highMarks j.id
  let before (base : Name) : Nat := ((s.ckpts.find? (fun x => x.name == c.prev)).map (fun x => x.markOf base)).getD 0
  let fresh (p : Patch) : Bool := p.job == j.id && p.state == .sealed && p.half.sealNo > before p.half.base
  let pages := mine.map (fun p => s.pageRecord p.1 p.2.1 p.2.2)
  let done : Ckpt := { c with
    name := n, marks := marks, names := s.table.map (fun e => e.name), persist := c.arrived.map (fun p => (2 * p.1 + (if p.2 then 1 else 0), s.persistOf p))
    pcs := c.arrived.map (fun p => (p.1, p.2, (s.bankAt p.1 p.2).pc, (s.bankAt p.1 p.2).overlay))
    dirty := pages, patches := s.patches.filter fresh, chains := s.chains, pendingAcks := shardAcks }
  let s := { s with ckpts := s.ckpts.map (fun (x : Ckpt) => if x.job == j.id && x.name == 0 then done else x)
                    dirtyPages := s.dirtyPages.filter (fun p => !mine.contains p)
                    undos := s.undos.map (fun (u : Undo) => if u.covered.isNone then { u with covered := some n } else u) }
  let s := s.modJob j.id (fun j => { j with lastCkpt := some (n, c.step) })
  let name (w : HeldWord) : HeldWord := { w with writes := w.writes.map (fun x => (x.1, RVal.name n)) }
  let s := c.arrived.foldl (fun (s : State) p =>
    (s.modBankAt p.1 p.2 (fun b => { b with holdWord := b.holdWord.map name })).post 1 none p.1 p.2 none .baseHomeReport) s
  s.writeShard n j.tag

/-- The name that a CKPT must be given: the job's last checkpoint, or its own for the first (R370). -/
def Job.ckptArg (j : Job) : Name := match j.lastCkpt with
  | some (n, _) => n
  | none => j.name

/-- CKPT (R370). -/
def execCkpt (h : Hdr) (a : Fin 16) (b : SSrc) (k : BitVec 8) (s : State) : Out :=
  let pc := s.bank.pc
  .next (s.issue ((Need.of h).n (.n a) |>.s b |>.privileged) none fun s =>
    let x := s.bank.n[a]
    let (step, s) := s.readS b
    if !s.bank.stepReady then .fault (faultDetail 0x01 5)
    else match s.resolveAs s.focus.core [Cls.job, Cls.checkpoint] x with
      | (.error t, _, _) => .fault t
      | (.ok _, _, s) => match s.bank.job.bind s.job with
        | none => .ok s
        | some j =>
          let low (n : Nat) : Nat := n % 2 ^ 32
          let g := s.ckpts.find? (fun c => c.job == j.id && c.name == 0)
          let agrees : Bool := match g with
            | none => true
            | some c => c.prev == x && low c.step == low step.toNat
          let rises : Bool := match j.lastCkpt with
            | none => true
            | some (_, n) => decide (step.toNat > n)
          if x != j.ckptArg || !agrees || !rises then .fault (fault 0x0C)
          else if !s.cur.ownsSem s.focus.bank k then .fault (fault 0x04)
          else
            let waits := s.journaling && s.mark ≥ s.journalMark
            let here := (s.focus.core, s.focus.bank)
            let start : Ckpt := { name := 0, prev := x, job := j.id, step := step.toNat, marks := [], names := [], persist := [], pcs := []
                                  dirty := [], patches := [], chains := [], sems := [], arrived := [], durable := false, pendingAcks := 0 }
            let s := if g.isSome then s else { s with ckpts := s.ckpts ++ [start] }
            let s := s.modGather j.id (fun c =>
              { c with arrived := c.arrived ++ [here], sems := c.sems ++ [(s.focus.core, s.focus.bank, k)] })
            let s := s.modBank (fun b => { b with status := .held, holdWord := some { pc := pc, trap := none, writes := [(.n a, .name 0)], flags := 0 } })
            match s.ckpts.find? (fun c => c.job == j.id && c.name == 0) with
            | none => .ok s
            | some c =>
              if (s.parts j.id).all c.arrived.contains then .ok ((if waits then s.journalIssue else s).snapshot j c) else .ok s)

/-- FLACON_WRITE_ACK (R371, R388): the own copy waits for the flacon's ready bit (R387); with the last one the checkpoint is durable. -/
def execFlaconWriteAck (key : Nat) (s : State) : Out :=
  .next (match s.ckpts.find? (fun c => c.name.toNat == key / 16 && c.pendingAcks != 0) with
  | none => s
  | some c =>
    if key % 16 = 0 && !(s.ready[0].getLsbD 36) then
      s.postAt (s.cycle + 1) s.focus.core s.focus.bank none (.flaconWriteAck key)
    else
      let s := { s with ckpts := s.ckpts.map (fun (x : Ckpt) => if x.name == c.name then { x with pendingAcks := x.pendingAcks - 1 } else x) }
      if c.pendingAcks = 1 then s.postHere 1 (.checkpointDurable c.name) else s)

/-- A checkpoint's completion signal to one of its cores: held where the job is saved (R366, R370). -/
def State.ckptSignal (s : State) (j : Job) (x : Nat × Bool × BitVec 8) : State :=
  if (s.bankAt x.1 x.2.1).job == some j.id then
    s.incSem x.1 x.2.2 (s.core x.1).pts (x.1, x.2.1) { fault 0x23 with src := 5 }
  else (s.holdIncrement j.tag x.1 x.2.2).getD s

/-- The names whose deaths a durable checkpoint leaves in the journal: those it still lists, or all while another job, or another module of
this one, is not known to be past them (R373). -/
def State.journalKept (s : State) (j : Job) (c : Ckpt) : List Name :=
  let others := s.jobs.any (fun k => k.id != j.id && k.lastCkpt.isSome && k.state != .retired && k.state != .failed)
  if others || !(s.farParts j.id).isEmpty then s.journal else s.journal.filter c.names.contains

/-- CHECKPOINT_DURABLE (R370 to R373): the cores are told, and what only an older step needs is discarded. -/
def execCheckpointDurable (n : Name) (s : State) : Out :=
  .next (match s.ckpts.find? (fun c => c.name == n && !c.durable) with
  | none => s
  | some c => match s.job c.job with
    | none => s
    | some j =>
      let older (x : Ckpt) : Bool := x.job == c.job && x.step < c.step && x.name != 0
      let s := { s with journal := s.journalKept j c, undos := s.undos.filter (fun u => u.covered != some n)
                        ckpts := s.ckpts.map (fun (x : Ckpt) => if x.name == n then { x with durable := true }
                          else if older x then { x with dirty := x.dirty.map (fun p => (p.1, p.2.1, [])) } else x) }
      c.sems.foldl (fun s x => s.ckptSignal j x) s)

/-- CHECKPOINT_SLICE (R371): another module's slice, or a part of its name journal, is written to this flacon. -/
def execCheckpointSlice (key : Nat) (bytes : List Byte) (s : State) : Out :=
  .next { s with flacon := s.flacon.filter (fun (x : Nat × List Byte) => x.1 != key) ++ [(key, bytes)] }

/-! ## Rollback and restore (R374, R375) -/

/-- A bank of a job as CKRES leaves it: as at launch in its recorded overlay at the word after its CKPT, with the step in s16 and its
persist bytes. -/
def ckptBank (j : Job) (g : ProgImage) (c : Ckpt) (rank : Nat) (p : Nat × Bool × BitVec 15 × Nat) : SavedBank :=
  let bank := p.2.1
  let start : Core := { Core.reset with ksplit := !j.rcd.whole }
  let b := j.launchBank j.params j.segs rank 0
  let core : Core := match (j.placed g bank)[p.2.2.2]? with
    | none => start.setBank bank b
    | some o => (start.setBank bank b).loadOverlay bank o p.2.2.2
  let cells := ((c.persist.find? (fun x => x.1 == 2 * p.1 + if bank then 1 else 0)).map (fun x => x.2)).getD []
  let mem := cells.foldl (fun m x => Memory.write m x.1 x.2) core.mem
  let b := core.bank bank
  let b : Bank := { b with pc := p.2.2.1, s := b.s.set 16 (BitVec.ofNat 64 c.step) }
  { addr := if bank then 1 else 0, core := p.1, bank := b, sems := [], fq := [], sets := [], acc := [], marks := []
    runBytes := b.runs.map (fun r => (r.1, Memory.readBytes mem r.1 r.2)), guards := core.guards, entries := [], sched := none
    replays := [], sigs := [], sends := [], reduces := [], sendSeq := [], ucodeName := none, treeCount := 0, stores := [] }

/-- The banks of a job as a checkpoint leaves them; none where its image is not there. -/
def State.ckptBanks (s : State) (j : Job) (c : Ckpt) : List SavedBank :=
  match s.image j.rcd.image with
  | none => []
  | some g => c.pcs.zipIdx.map (fun x => ckptBank j g c ((j.cores.findIdx? (fun q => q == (x.1.1, x.1.2.1))).getD x.2) x.1)

/-- Undo a fold: the sectors take their prior bytes, and the folded patches at or below the checkpoint's marks their places. -/
def State.undoFold (s : State) (c : Ckpt) (u : Undo) : State :=
  let back := u.patches.filter c.within
  let names := back.map (fun p => p.name)
  let lost := (u.patches.filter (fun p => !c.within p)).map (fun p => p.name)
  let s := (dedup (u.prior.map (fun x => Loc.line x.1))).foldl (fun (s : State) l => s.evictHome l) s
  let s := u.prior.foldl (fun (s : State) x => s.hbmWrite x.1 [x.2]) s
  let again (p : Patch) : Patch := (back.find? (fun q => q.name == p.name)).getD p
  let merge (x : Chain) : Chain := match u.chains.find? (fun y => y.lo == x.lo && y.nd == x.nd && y.sec == x.sec) with
    | none => x
    | some y => { x with names := y.names.filter (fun n => names.contains n || x.names.contains n) ++ x.names.filter (fun n => !y.names.contains n) }
  let have_ (y : Chain) : Bool := s.chains.any (fun x => y.lo == x.lo && y.nd == x.nd && y.sec == x.sec)
  let added := (u.chains.filter (fun y => !have_ y)).map (fun (y : Chain) => { y with names := y.names.filter names.contains })
  { s with patches := (s.patches.filter (fun p => !lost.contains p.name)).map again
           chains := (s.chains.map merge ++ added).filter (fun x => !x.names.isEmpty) }

/-- Insert a patch in descending seal number. -/
def insertFalling (p : Patch) : List Patch → List Patch
  | [] => [p]
  | q :: r => if p.half.sealNo > q.half.sealNo then p :: q :: r else q :: insertFalling p r

/-- A name that a rollback destroys: issued by the job since the checkpoint. -/
def NameEnt.since (e : NameEnt) (id : Nat) (c : Ckpt) : Bool :=
  e.job == some id && !c.names.contains e.name && e.name != c.name && match e.bind with
    | .tensor _ | .patch | .cellseg _ | .aliasTo _ | .checkpoint _ _ => true
    | .job _ | .microcode _ _ _ | .savearea _ => false

/-- Rollback (R374): patches sealed since and OPEN ones are discarded, folds undone newest first, names issued since destroyed, the
save area discarded, and the banks left at the checkpoint. -/
def State.rollback (s : State) (j : Job) (c : Ckpt) (r : ResumeRec) : State :=
  let mine := (s.patches.filter (fun p => p.job == j.id && p.state == .sealed && !c.within p)).foldl (fun l p => insertFalling p l) []
  let s := mine.foldl (fun (s : State) p => s.killPatch p.name) (s.killOpenOf j.id)
  let later (u : Undo) : Bool := match u.covered with
    | none => true
    | some n => match s.ckpts.find? (fun x => x.name == n) with
      | none => false
      | some x => x.job == j.id && x.step > c.step
  let s := (s.undos.filter later).reverse.foldl (fun (s : State) u => s.undoFold c u) s
  let s := { s with undos := s.undos.filter (fun u => !later u) }
  let dead := s.table.filter (fun e => e.since j.id c)
  let s := dead.foldl (fun (s : State) e =>
    ((s.patchesOf e.name).foldl (fun (s : State) p => s.killPatch p.name) (s.killPatch e.name)).endName e.name 0) s
  let banks := s.ckptBanks j c
  let s := (s.removeName r.savearea).modJob j.id (fun j => { j with lastCkpt := some (c.name, c.step) })
  { s with saveAreas := s.saveAreas.filter (fun a => a.tag != r.tag)
           ckpts := s.ckpts.filter (fun x => x.job != j.id || x.step ≤ c.step)
           resume := s.resume.map (fun (x : ResumeRec) => if x.tag == r.tag then
             { x with state := 4, step := BitVec.ofNat 64 c.step, banks := banks, npkt := 0, savearea := 0, held := 0, heldIncs := [], absent := [] }
             else x) }

/-- Restore (R374): the tables, patches, sectors and banks of another module's checkpoint come to this module, less the deaths of its
name journal. -/
def State.restoreFrom (s : State) (x : RemoteCkpt) : State :=
  let id := s.jobs.length
  let c : Ckpt := { x.ckpt with job := id, durable := true }
  let q := s.lqueues[x.rcd.lq]
  let owner (e : NameEnt) : NameEnt := { e with job := some id, bind := match e.bind with
    | .job _ => .job id
    | .checkpoint _ n => .checkpoint id n
    | b => b }
  let live (n : Name) : Bool := !x.dead.contains n
  let j : Job := { id := id, name := x.jobName, rcd := x.rcd, lq := x.rcd.lq.val, priv := x.priv, pasid := if q.pasidValid then some q.pasid else none, state := .quenched
                   accepted := s.cycle, started := 0, aged := 0, tag := x.tag, cores := c.pcs.map (fun p => (savedCore, p.2.1)), report := none
                   lastCkpt := some (c.name, c.step), reserved := [], pts := none, segs := x.segs, params := x.params, evictFor := none }
  let patches := (c.patches.filter (fun p => live p.name)).map (fun (p : Patch) => { p with job := id })
  let chains := (c.chains.map (fun (y : Chain) => { y with names := y.names.filter (fun n => live n && patches.any (fun p => p.name == n)) })).filter
    (fun y => !y.names.isEmpty)
  let rcd : Issue := { ident := Name.ident c.name, gen := x.gen, mark := x.high.getD x.mark }
  let s := c.dirty.foldl (fun (s : State) p => s.hbmWrite p.1 p.2.1) s
  let s := { s with jobs := s.jobs ++ [j], ckpts := s.ckpts ++ [c], patches := s.patches ++ patches, chains := s.chains ++ chains
                    table := s.table ++ (x.table.filter (fun (e : NameEnt) => live e.name)).map owner
                    foreign := s.foreign.filter (fun (f : Issue) => f.ident != rcd.ident) ++ [rcd]
                    seals := s.seals ++ c.marks }
  let banks := s.ckptBanks j c
  { s with resume := s.resume ++
      [{ tag := x.tag, job := x.jobName, banks := banks, savearea := 0, state := 4, nbank := 0, npkt := 0, step := BitVec.ofNat 64 c.step
         images := 0, held := 0, heldIncs := [], absent := [], remote := false }] }

/-- A restore that finds shards it cannot bring to the step: logged as 0x1D, the name is written null, nothing is changed (R375). -/
def State.mixedSteps (s : State) (d : Fin 16) (addr : Word) : State := (s.logNobody 0x1D addr 0).resultLocked (.reg (.n d)) (.name 0) 1

/-- CKRES (R374, R375). -/
def execCkres (h : Hdr) (a : Fin 16) (s : State) : Out :=
  .next (s.issue ((Need.of h).n (.n a) |>.privileged) none fun s =>
    let x := s.bank.n[a]
    let bad : Word := 0x8000000000000000
    if x = 0 then .fault (faultName 0x17 x)
    else if !Name.formed x then .fault (faultName 0x16 x)
    else if Name.cls x ≠ Cls.checkpoint then .fault (faultName 0x17 x)
    else
      let done (s : State) : Result := .ok (s.resultLocked (.reg (.n a)) (.name x) 1)
      let ck := s.ckpts.find? (fun c => c.name == x)
      let j := ck.bind (fun c => s.job c.job)
      match ck, j, j.bind (fun j => s.resume.find? (fun r => r.job == j.name)) with
      | some c, some j, some r =>
        if r.state == 1 || r.state == 2 || r.state == 3 then
          done (s.rollback j c r)
        else .fault (faultDetail 0x0C 3)
      | _, _, _ =>
        if !(s.homeMap.any (fun p => p.1 == Name.ident x && p.2 == s.moduleNo)) || ck.isSome then .fault (faultDetail 0x0C 3)
        else match s.remoteCkpts.find? (fun y => y.ckpt.name == x) with
          | none => .ok (s.mixedSteps a bad)
          | some y =>
            if s.resume.any (fun r => r.job == y.jobName) then .fault (faultDetail 0x0C 3)
            else if !y.valid then .ok (s.mixedSteps a bad)
            else match y.mixed with
              | some i => .ok (s.mixedSteps a (BitVec.ofNat 64 i))
              | none => done (s.restoreFrom y))

end Sys2Proof.Machine
end

