-- ==== Sys2Proof/Machine/Copy.lean ====
section
/-!
DEFINITION. The copy engine's own words (R190 to R210): tiles, gathers, local copies, staging, and the cluster reduction.
-/
namespace Sys2Proof.Machine

/-! ## Slots and descriptors (R190, R191) -/

/-- The tensor of a live name: itself, or the base of a patch. -/
def State.tensorOfName (s : State) (n : Name) : Option (Name × Tensor) :=
  match s.patch n with
  | some p => (s.tensor p.half.base).map (fun t => (p.half.base, t))
  | none => (s.tensor n).map (fun t => (n, t))

/-- The descriptor of a tensor as it stands, parsed under a bank's segments; the bound one where the segment of the base has
gone, which translation then reports. -/
def State.reread (s : State) (b : Bank) (t : Tensor) : Except TrapInfo Tensor :=
  let d := s.homeBytes t.descLoc 64
  match b.tensorOf t.desc t.descLoc d with
  | some u => .ok u
  | none => if (b.segOf (field d 0 8)).isNone then .ok t else .error (faultAt 0x0C (BitVec.ofNat 64 t.desc))

/-- The line of a descriptor, brought to its home. -/
def State.fetchDesc (s : State) (t : Tensor) : State := s.share (Loc.line t.descLoc)

/-- Resolve the name in a slot of an entry's bank for a word that takes given classes (R191). -/
def State.slotName (s : State) (n : Entry) (slot : Fin 16) (classes : List (BitVec 8)) : Except TrapInfo Name × State :=
  let x := (s.bankAt s.focus.core n.bank).h[slot]
  let (r, _, s) := s.resolveAs s.focus.core classes x
  (match r with
    | .error t => .error t
    | .ok _ => .ok x, s)

/-- What a copy word on global data waits for: the stream's accesses before the entry's push (R164), and room for requests. -/
def Core.copyWaits (c : Core) (n : Entry) : Bool := c.requests ≥ 2048 || !c.forked n

/-- A word on a slot's tensor: wait, pop, test the feature that it needs (R195, R349), resolve, read the descriptor. -/
def onTensor (slot : Fin 16) (feature : Option Nat) (f : List Nat → Entry → Name → Tensor → State → EngResult) (n : Entry) (s : State) :
    EngResult :=
  if s.cur.copyWaits n then .wait
  else n.popped 3 fun l n =>
    if feature.any (fun i => !(s.die (dieOf s.focus.core)).featmask.getLsbD i) then .fault (fault 0x02)
    else match s.slotName n slot [Cls.tensor, Cls.patch] with
    | (.error t, _) => .fault t
    | (.ok x, s) => match s.tensorOfName x with
      | none => .fault (faultName 0x15 x)
      | some (_, t) =>
        if s.anyBusy [Loc.line t.descLoc] then .wait
        else
          let s := s.fetchDesc t
          match s.reread (s.bankAt s.focus.core n.bank) t with
          | .error t => .fault t
          | .ok t => f l n x t s

/-! ## Tile requests (R192, R193) -/

/-- A tile: its first row and column, and its rows and columns. -/
structure TileReq where
  row : Int
  rows : Nat
  col : Int
  cols : Nat

/-- The two tile words (R192). -/
def TileReq.of (row col : Nat) : TileReq :=
  { row := sext 32 row, rows := row / 2 ^ 32, col := sext 32 col, cols := col / 2 ^ 32 }

/-- The tile with rows and columns exchanged. -/
def TileReq.flip (q : TileReq) : TileReq := { row := q.col, rows := q.cols, col := q.row, cols := q.rows }

/-- A tile fits a format's blocks, groups and packing (R193). -/
def TileReq.aligned (q : TileReq) (t : Tensor) : Bool :=
  let u : Nat := (auxUnitOf t.fmt t.group).2
  q.rows != 0 && q.cols != 0 && q.col % (u : Int) == 0 && q.cols % u == 0
    && (t.fmt.width != 4 || (q.col % 2 == 0 && q.cols % 2 == 0))

/-- The rules of a local range (R106). -/
def localFault (a n : Nat) : Option TrapInfo :=
  if n = 0 then none else if a ≥ localSize then some (faultAt 0x07 (BitVec.ofNat 64 a)) else windowFault a n

/-- The rules of a tile and its place (R192, R193). -/
def TileReq.fault (q : TileReq) (t : Tensor) (laddr : Nat) : Option TrapInfo :=
  if !q.aligned t then some (Machine.fault 0x0C)
  else if laddr % 32 ≠ 0 then some (faultAt 0x05 (BitVec.ofNat 64 laddr))
  else localFault laddr (tileBytes t.fmt t.group q.rows q.cols)

/-- A run of bytes of a tile row that lies in the tensor: where it begins in the tensor's row and in the tile's row, its
bytes, and the pad of a last high half out of bounds. -/
structure Run where
  addr : Nat
  off : Nat
  len : Nat
  hi : Option (BitVec 4)
  /-- the bytes of one container of the aux plane, 0 for a run of elements -/
  unit : Nat

/-- The in-bounds columns of a tile. -/
def TileReq.colsIn (q : TileReq) (t : Tensor) : Nat × Nat := (q.col.toNat, (min (q.col + q.cols) (t.cols : Int)).toNat)

/-- Whether row i of a tile lies in the tensor. -/
def TileReq.rowIn (q : TileReq) (t : Tensor) (i : Nat) : Bool := 0 ≤ q.row + i && q.row + i < t.rows

/-- The elements of row i that lie in the tensor. -/
def TileReq.run (q : TileReq) (t : Tensor) (pad : BitVec 4) (i : Nat) : Option Run :=
  let (lo, hi) := q.colsIn t
  if !q.rowIn t i || lo ≥ hi then none
  else
    let w := t.fmt.width
    some { addr := t.base + (q.row + i).toNat * t.pitch + lo * w / 8, off := ((lo : Int) - q.col).toNat * w / 8
           len := (hi * w + 7) / 8 - lo * w / 8, hi := if w = 4 && hi % 2 = 1 then some pad else none, unit := 0 }

/-- The blocks of row i, from first to last, that lie in the tensor's aux plane. -/
def TileReq.auxRun (q : TileReq) (t : Tensor) (i : Nat) : Option Run :=
  let (unit, per) := t.auxUnit
  let lo := q.col.toNat / per
  let hi := Nat.min ((q.col + q.cols).toNat / per) ((t.cols + per - 1) / per)
  if unit = 0 || !q.rowIn t i || lo ≥ hi then none
  else some { addr := t.aux + (q.row + i).toNat * t.auxpitch + lo * unit, off := (lo - q.col / per).toNat * unit
              len := (hi - lo) * unit, hi := none, unit := unit }

/-- The runs of a tile with the offsets of their rows in the tile's image, elements first. -/
def TileReq.runs (q : TileReq) (t : Tensor) (pad : BitVec 4) : List (Nat × Run) :=
  let tp := tilePitch t.fmt q.cols
  let ap := auxPitch t.fmt t.group q.cols
  (List.range q.rows).filterMap (fun i => (q.run t pad i).map (fun r => (i * tp, r)))
    ++ (List.range q.rows).filterMap (fun i => (q.auxRun t i).map (fun r => (q.rows * tp + i * ap, r)))

/-- The element bits of pads. -/
def padBits (w : Nat) (pad : Nat) (n : Nat) : List Byte :=
  leBytes ((n * w + 7) / 8) (sumNat ((List.range n).map (fun i => pad % 2 ^ w * 2 ^ (w * i))))

/-- The pad code of a tile request (R190, R199). -/
def Entry.padCode (n : Entry) (t : Tensor) : Nat :=
  (match n.pad with
    | some x => x.toNat
    | none => t.pad.toNat) % 2 ^ t.fmt.width

/-- What a load writes beside the runs: pads, and zeros up to the pitch (R192, R193). Each item is an offset in the image and
its bytes. -/
def TileReq.pads (q : TileReq) (t : Tensor) (pad : Nat) : List (Nat × List Byte) :=
  let tp := tilePitch t.fmt q.cols
  let ap := auxPitch t.fmt t.group q.cols
  let w := t.fmt.width
  let (unit, per) := t.auxUnit
  let rowBytes := (q.cols * w + 7) / 8
  let elems (i : Nat) : List (Nat × List Byte) :=
    let full := padBits w pad q.cols ++ List.replicate (tp - rowBytes) 0
    match q.run t 0 i with
    | none => [(i * tp, full)]
    | some r => [(i * tp, full.take r.off), (i * tp + r.off + r.len, full.drop (r.off + r.len))]
  let scale : Nat := if t.fmt.isLog && pad == Fmt.lzero t.fmt then 0x200 else 0
  let aux (i : Nat) : List (Nat × List Byte) :=
    if unit = 0 then []
    else
      let n := q.cols / per
      let full := leBytes (unit * n) (sumNat ((List.range n).map (fun k => scale * 2 ^ (8 * unit * k))))
        ++ List.replicate (ap - unit * n) 0
      let at_ := q.rows * tp + i * ap
      match q.auxRun t i with
      | none => [(at_, full)]
      | some r => [(at_, full.take r.off), (at_ + r.off + r.len, full.drop (r.off + r.len))]
  ((List.range q.rows).flatMap elems ++ (List.range q.rows).flatMap aux).filter (fun x => !x.2.isEmpty)

/-! ## Translation (R194) -/

/-- The fault of the lowest address among two. -/
def lowerFault (a b : TrapInfo) : TrapInfo := if b.taddr.toNat < a.taddr.toNat then b else a

/-- Translate some extents whole: the pieces of each, or the fault of the lowest address. -/
def State.translateAll (s : State) (b : Bank) (perm : Nat) : List (Nat × Nat) → Except TrapInfo (List (List Piece))
  | [] => .ok []
  | (a, n) :: r =>
    match s.translate b perm (BitVec.ofNat 64 a) n, s.translateAll b perm r with
    | .ok l, .ok m => .ok (l :: m)
    | .error t, .ok _ => .error t
    | .ok _, .error t => .error t
    | .error t, .error u => .error (lowerFault t u)

/-- The accesses of an entry's word. -/
def copyKind (n : Entry) (name : Name) : Kind :=
  { bank := n.bank, eng := some .copy, acq := false, rel := false, scope := 0, direct := true, publish := false, name := name
    detail := n.detail, upc := n.upc }

/-- Where a load of a run puts a byte in local memory: headers of an H format are looked at on the way (R42). -/
def Run.dst (r : Run) (t : Tensor) (a : Nat) (hi : Option (BitVec 4)) : LoadDst :=
  if r.unit != 0 && t.fmt.isHalfStep then .headers a else .toLocal a hi

/-- The accesses of a load of one run, each unit going where `dst` says from its offset in the run. -/
def loadRun (k : Kind) (r : Run) (whole : Bool) (dst : Nat → Option (BitVec 4) → LoadDst) (l : List Piece) : List (Nat → Access) :=
  let cut (p : Piece) : List (Nat × Nat) :=
    if whole then [(p.addr, p.len)]
    else if r.unit = 0 then p.units else cutWhole r.unit (p.len + 1) p.addr (p.addr + p.len)
  l.flatMap (fun p => (cut p).map (fun u => fun w =>
    k.access w p u (.load .plain (dst (u.1 - r.addr) (if u.1 + u.2 = r.addr + r.len then r.hi else none)))))

/-! ## TLOAD, TXPOSE, EGATH (R200, R202, R203) -/

/-- TLOAD (R200). -/
def execTload (slot : Fin 16) (s : State) : Out :=
  .next (s.engWord fun n s => onTensor slot none (fun l n x t s =>
    let q := TileReq.of (l.getD 0 0) (l.getD 1 0)
    let laddr := l.getD 2 0
    match q.fault t laddr with
    | some f => .fault f
    | none =>
      let core := s.focus.core
      let pad := n.padCode t
      let size := tileBytes t.fmt t.group q.rows q.cols
      if s.cur.engTouches .copy laddr size then .wait
      else
        let runs := q.runs t (BitVec.ofNat 4 pad)
        match s.translateAll (s.bankAt core n.bank) 0 (runs.map (fun r => (r.2.addr, r.2.len))) with
        | .error f => .fault f
        | .ok ps =>
          let k := copyKind n x
          let accs := (runs.zip ps).flatMap (fun y =>
            loadRun k y.1.2 false (fun off hi => y.1.2.dst t (laddr + y.1.1 + y.1.2.off + off) hi) y.2)
          let s := s.modCur (fun c => (q.pads t pad).foldl (fun (c : Core) y =>
            c.localWrites .copy n.bank (laddr + y.1) y.2 (s.cycle + 1) 0) c)
          .ok n (s.modCur (fun c => c.addAll accs))) n s)

/-- TXPOSE (R202): the tile is collected and its transpose written when it is whole. -/
def execTxpose (slot : Fin 16) (s : State) : Out :=
  .next (s.engWord fun n s => onTensor slot (some 4) (fun l n x t s =>
      let q := TileReq.of (l.getD 0 0) (l.getD 1 0)
      let laddr := l.getD 2 0
      if t.fmt.isHalfStep || (t.fmt.isLog && q.rows % 32 != 0) then .fault (fault 0x0C)
      else if !q.aligned t then .fault (fault 0x0C)
      else if laddr % 32 ≠ 0 then .fault (faultAt 0x05 (BitVec.ofNat 64 laddr))
      else match localFault laddr (tileBytes t.fmt t.group q.cols q.rows) with
        | some f => .fault f
        | none =>
          let core := s.focus.core
          let pad := n.padCode t
          if s.cur.engTouches .copy laddr (tileBytes t.fmt t.group q.cols q.rows) then .wait
          else
            let runs := q.runs t (BitVec.ofNat 4 pad)
            match s.translateAll (s.bankAt core n.bank) 0 (runs.map (fun r => (r.2.addr, r.2.len))) with
            | .error f => .fault f
            | .ok ps =>
              let image := (q.pads t pad).foldl (fun l y => putBytes l y.1 y.2)
                (List.replicate (tileBytes t.fmt t.group q.rows q.cols) 0)
              let word := s.cur.accSeq
              let k := copyKind n x
              let accs := (runs.zip ps).flatMap (fun y =>
                loadRun k y.1.2 false (fun off hi => .xpose (y.1.1 + y.1.2.off + off) hi) y.2)
              let s := s.modCur (fun c => { c.addAll accs with xposes := c.xposes ++
                [{ word := word, bank := n.bank, image := image, rows := q.rows, cols := q.cols, fmt := t.fmt, laddr := laddr
                   detail := n.detail, upc := n.upc }] })
              .ok n (if accs.isEmpty then s.finishXpose core word else s)) n s)

/-- EGATH (R203): each row is one access, so a seal shows in all of it or in none. -/
def execEgath (slot : Fin 16) (s : State) : Out :=
  .next (s.engWord fun n s => onTensor slot (some 3) (fun l n x t s =>
      let idx := l.getD 0 0
      let count := l.getD 1 0
      let laddr := l.getD 2 0
      let core := s.focus.core
      let size := tileBytes t.fmt t.group count t.cols
      if count > 4096 || t.rowBytes > 512 || t.pitch % 512 ≠ 0 then .fault (fault 0x0C)
      else if idx % 4 ≠ 0 then .fault (faultAt 0x05 (BitVec.ofNat 64 idx))
      else if laddr % 32 ≠ 0 then .fault (faultAt 0x05 (BitVec.ofNat 64 laddr))
      else match localFault idx (4 * count), localFault laddr size with
        | some f, _ => .fault f
        | none, some f => .fault f
        | none, none =>
          if s.cur.engTouches .copy idx (4 * count) || s.cur.engTouches .copy laddr size then .wait
          else
            withSource [(idx, 4 * count)] (fun index n s =>
            let pad := n.padCode t
            let tp := tilePitch t.fmt t.cols
            let ap := auxPitch t.fmt t.group t.cols
            let req (i : Nat) : TileReq :=
              { row := (leNat (index (idx + 4 * i) 4) : Int), rows := 1, col := 0
                cols := (t.cols + t.auxUnit.2 - 1) / t.auxUnit.2 * t.auxUnit.2 }
            let row (i : Nat) : TileReq := { req i with cols := t.cols }
            let runs := (List.range count).filterMap (fun i => ((row i).run t 0 0).map (fun r => (i, i * tp, r)))
              ++ (List.range count).filterMap (fun i => ((req i).auxRun t 0).map (fun r => (i, count * tp + i * ap, r)))
            match s.translateAll (s.bankAt core n.bank) 0 (runs.map (fun r => (r.2.2.addr, r.2.2.len))) with
            | .error f => .fault f
            | .ok ps =>
              let k := copyKind n x
              let accs := (runs.zip ps).flatMap (fun y =>
                loadRun k y.1.2.2 true (fun off hi => y.1.2.2.dst t (laddr + y.1.2.1 + off) hi) y.2)
              let outside (i : Nat) : Bool := !(row i).rowIn t 0
              let tail := tp - t.rowBytes
              let fill := (List.range count).flatMap (fun i =>
                (if outside i then [(i * tp, padBits t.fmt.width pad t.cols)] else [])
                  ++ (if tail = 0 then [] else [(i * tp + t.rowBytes, List.replicate tail (0 : Byte))])
                  ++ (if t.auxUnit.1 = 0 then []
                    else
                      let scale : Nat := if t.fmt.isLog && pad == Fmt.lzero t.fmt then 0x200 else 0
                      let m := t.auxBytes / t.auxUnit.1
                      (if outside i then [(count * tp + i * ap,
                        leBytes t.auxBytes (sumNat ((List.range m).map (fun b => scale * 2 ^ (8 * t.auxUnit.1 * b)))))] else [])
                        ++ [(count * tp + i * ap + t.auxBytes, List.replicate (ap - t.auxBytes) (0 : Byte))]))
              let s := s.modCur (fun c => (fill.filter (fun y => !y.2.isEmpty)).foldl (fun (c : Core) y =>
                c.localWrites .copy n.bank (laddr + y.1) y.2 (s.cycle + 1) 0) c)
              .ok n (s.modCur (fun c => c.addAll accs))) n s) n s)

/-! ## TSTORE and TPAIR (R200, R201, R206) -/

/-- The stores of one run into a half of a patch: each sector of payload, with whole containers, is one access (R206). -/
def storeRun (k : Kind) (patch : Name) (twin : Bool) (ty : Fmt) (bytes : List Byte) (r : Run) (l : List Piece) :
    List (Nat → Access) :=
  l.flatMap (fun p => (cutWhole (Nat.max 1 (ty.width / 8)) (p.len + 1) p.addr (p.addr + p.len)).map (fun u => fun w =>
    k.access w p u (.patchStore patch twin (((bytes.drop (u.1 - r.addr)).take u.2).map some) ty 0 false)))

/-- The runs of a store with the bytes each takes from an image, and the type it writes with (R259). -/
def TileReq.stores (q : TileReq) (t : Tensor) (image : List Byte) : List (Run × List Byte × Fmt) :=
  let tp := tilePitch t.fmt q.cols
  let ap := auxPitch t.fmt t.group q.cols
  let take (at_ : Nat) (r : Run) : List Byte := (image.drop (at_ + r.off)).take r.len
  (List.range q.rows).filterMap (fun i => (q.run t 0 i).map (fun r => (r, take (i * tp) r, t.fmt)))
    ++ (List.range q.rows).filterMap (fun i => (q.auxRun t i).map (fun r =>
      (r, take (q.rows * tp + i * ap) r, if t.fmt.isLog then .n16 else .n32)))

/-- The first fault of a list of runs as writes into a patch (R258, R259). -/
def State.storeFault (s : State) (who : Nat) (patch : Name) (twin : Bool) (l : List ((Run × List Byte × Fmt) × List Piece)) :
    Option TrapInfo :=
  firstFault (fun y => match s.checkWrite patch twin who (fun i => locAt y.2 (y.1.1.addr + i)) (BitVec.ofNat 64 y.1.1.addr)
      (y.1.2.1.map some) y.1.2.2 with
    | .error t => some t
    | .ok _ => none) l

/-- The stores of an image of a tile: translated and checked whole, or the fault (R194, R259). -/
def State.tileStores (s : State) (n : Entry) (patch : Name) (twin : Bool) (q : TileReq) (t : Tensor) (image : List Byte) :
    Except TrapInfo (List (Nat → Access)) :=
  let core := s.focus.core
  let runs := q.stores t image
  match s.translateAll (s.bankAt core n.bank) 1 (runs.map (fun r => (r.1.addr, r.1.len))) with
  | .error f => .error f
  | .ok ps => if t.fmt.isHalfStep && runs.any (fun r => r.1.unit != 0 && r.2.1.zipIdx.any (fun x => x.2 % 4 == 3 && x.1 != 0)) then
      .error (fault 0x0C)
    else match s.storeFault (contributor core n.bank) patch twin (runs.zip ps) with
    | some f => .error f
    | none => .ok ((runs.zip ps).flatMap (fun y => storeRun (copyKind n patch) patch twin y.1.2.2 y.1.2.1 y.1.1 y.2))

/-- The accesses of a word of the copy engine set out; its own flags merge when the last of them is over, or at once where it has none
(R48). -/
def State.sendWord (s : State) (n : Entry) (l : List (Nat → Access)) (f : FlagSet) : State :=
  match l with
  | [] => s.mergeFlags s.focus.core n.bank f (Eng.src .copy) n.detail n.upc
  | a :: r => s.modCur (fun c => c.addAll ((fun w => { a w with flags := f }) :: r))

/-- A store word on a slot: the OPEN patch in it and its base (R191). -/
def onPatch (slot : Fin 16) (f : List Nat → Entry → Patch → Tensor → State → EngResult) (n : Entry) (s : State) : EngResult :=
  if s.cur.copyWaits n then .wait
  else n.popped 3 fun l n =>
    match s.slotName n slot [Cls.patch] with
    | (.error t, _) => .fault t
    | (.ok x, s) => match s.patch x with
      | none => .fault (faultName 0x15 x)
      | some p =>
        if p.state != .opened then .fault (fault 0x14)
        else match s.tensor p.half.base with
          | none => .fault (faultName 0x15 p.half.base)
          | some t =>
            if s.anyBusy [Loc.line t.descLoc] then .wait
            else
              let s := s.fetchDesc t
              match s.reread (s.bankAt s.focus.core n.bank) t with
              | .error t => .fault t
              | .ok t => f l n p t s

/-- TSTORE (R200). -/
def execTstore (slot : Fin 16) (s : State) : Out :=
  .next (s.engWord fun n s => onPatch slot (fun l n p t s =>
    let q := TileReq.of (l.getD 0 0) (l.getD 1 0)
    let laddr := l.getD 2 0
    let size := tileBytes t.fmt t.group q.rows q.cols
    if p.twin.isSome then .fault (faultName 0x17 p.name)
    else match q.fault t laddr with
      | some f => .fault f
      | none =>
        if s.cur.engTouches .copy laddr size then .wait
        else withSource [(laddr, size)] (fun bytes n s => match s.tileStores n p.name false q t (bytes laddr size) with
          | .error f => .fault f
          | .ok accs => .ok n (s.modCur (fun c => c.addAll accs))) n s) n s)

/-- TPAIR (R201): the transposed image goes into the twin half; rows of the tile outside the tensor give no element of it. -/
def execTpair (slot : Fin 16) (s : State) : Out :=
  .next (s.engWord fun n s => onPatch slot (fun l n p t s =>
    let q := TileReq.of (l.getD 0 0) (l.getD 1 0)
    let laddr := l.getD 2 0
    let size := tileBytes t.fmt t.group q.rows q.cols
    match p.twin.bind (fun h => s.tensor h.base) with
    | none => .fault (faultName 0x17 p.name)
    | some u =>
      if t.fmt.isHalfStep then .fault (fault 0x0C)
      else match q.fault t laddr with
        | some f => .fault f
        | none =>
          if !q.flip.aligned u then .fault (fault 0x0C)
          else if s.cur.engTouches .copy laddr size then .wait
          else withSource [(laddr, size)] (fun bytes n s =>
            let image := bytes laddr size
            let (flipped, f) := transposeTile t.fmt q.rows q.cols (q.rowIn t) image
            let z : TileReq := q.flip
            -- only elements that the plain tile has in bounds have an image
            let (lo, hi) := q.colsIn t
            let rlo := q.row.toNat
            let rhi := (min (q.row + q.rows) (t.rows : Int)).toNat
            let u' : Tensor := { u with rows := Nat.min u.rows hi, cols := Nat.min u.cols rhi }
            match s.tileStores n p.name false q t image, s.tileStores n p.name true z u' flipped with
            | .error f, .error g => .fault (lowerFault f g)
            | .error f, .ok _ => .fault f
            | .ok _, .error f => .fault f
            | .ok a, .ok b =>
              let all := if lo < hi && rlo < rhi then a ++ b else a
              .ok n (s.sendWord n all f)) n s) n s)

/-! ## TPAD, LCOPY, staging (R199, R204, R209, R210) -/

/-- TPAD (R199). -/
def execTpad (s : State) : Out :=
  .next (s.engWord fun n s => match n.pop 1 with
    | some ([x], n) => .ok { n with pad := some x } s
    | _ => .fault stackFault)

/-- LCOPY (R204): the whole source is read before the destination is written, sector by sector. -/
def execLcopy (s : State) : Out :=
  .next (s.engWord fun n s => n.popped 3 fun l n =>
    let dst := l.getD 0 0
    let src := l.getD 1 0
    let k := l.getD 2 0
    match [dst, src, k].find? (fun x => x % 32 ≠ 0) with
    | some x => .fault (faultAt 0x05 (BitVec.ofNat 64 x))
    | none => match localFault src k, localFault dst k with
      | some f, _ => .fault f
      | none, some f => .fault f
      | none, none =>
        if !s.cur.forked n || s.cur.engTouches .copy src k || s.cur.engTouches .copy dst k then .wait
        else withSource [(src, k)] (fun bytes n s =>
          .ok n (s.modCur (fun c => c.localWrites .copy n.bank dst (bytes src k) (s.cycle + 1) 0))) n s)

/-- A bank holds a staging grant of a slice for reads or writes (R209, R283, R284). -/
def Bank.stagingGrant (b : Bank) (perm die sl : Nat) : Bool :=
  b.segs.any (fun p => p.2.len != 0 && p.2.kind == 2 && p.2.allows perm && p.2.dlo ≤ die && die ≤ p.2.dhi
    && p.2.vbase % 256 ≤ sl && sl ≤ p.2.vbase / 256 % 256)

/-- SLOAD and SSTORE (R209): `store` is the way to the slice. -/
def stageWord (store : Bool) (s : State) : State :=
  s.engWord fun n s =>
    if s.cur.copyWaits n then .wait
    else n.popped 4 fun l n =>
    let slice := l.getD 0 0
    let off := l.getD 1 0
    let laddr := l.getD 2 0
    let k := l.getD 3 0
    let core := s.focus.core
    let die := if slice / 2048 = 0 then dieOf core else slice / 64 % 32
    let sl := slice % 64
    if slice ≥ 4096 || (slice / 2048 = 0 && slice / 64 % 32 ≠ 0) then .fault (fault 0x0D)
    else match [off, laddr, k].find? (fun x => x % 32 ≠ 0) with
      | some x => .fault (faultAt 0x05 (BitVec.ofNat 64 x))
      | none =>
        if k = 0 || k > 2 ^ 20 then .fault (fault 0x0C)
        else match localFault laddr k with
          | some f => .fault f
          | none =>
            if off + k > (s.slice die sl).staged * 131072 then .fault (faultAt 0x07 (BitVec.ofNat 64 off))
            else if !(s.bankAt core n.bank).stagingGrant (if store then 1 else 0) die sl then
              .fault (faultAt 0x08 (BitVec.ofNat 64 off))
            else if s.cur.engTouches .copy laddr k then .wait
            else
              let kind := copyKind n 0
              let units := (cutAt 32 (k / 32 + 1) 0 k).map (fun u => fun w =>
                { kind.access w { addr := off + u.1, len := u.2, seg := none } (off + u.1, u.2)
                    (.stage store (die * 64 + sl) (off + u.1) (laddr + u.1)) with
                  target := .staging, loc := { lo := die * 64 + sl, nd := 0, q := off + u.1 } })
              .ok n (s.modCur (fun c => (if store then c.touch n.bank laddr k else c).addAll units))

/-- SLOAD (R209, R210). -/
def execSload (s : State) : Out := .next (stageWord false s)
/-- SSTORE (R209, R210). -/
def execSstore (s : State) : Out := .next (stageWord true s)

/-! ## TREE (R207) -/

/-- The cores of a cluster that a job's gang holds in a bank. -/
def State.clusterGang (s : State) (core : Nat) (bank : Bool) : List Nat :=
  match (s.bankAt core bank).job.bind s.job with
  | none => [core]
  | some j => (List.range 8).filterMap (fun k =>
      let c := core / 8 * 8 + k
      if j.cores.contains (c, bank) then some c else none)

/-- The TREE of a core that takes part in an instance under a bank. -/
def State.treeOf (s : State) (bank : Bool) (inst core : Nat) : Option TreeWord :=
  let c := s.core core
  if (c.copy.cur.map (fun n => n.bank)) == some bank then c.treeAt.filter (fun t => t.inst == inst) else none

/-- A core's TREE comes to a level. -/
def Core.atLevel (c : Core) (j : Nat) : Core := { c with treeAt := c.treeAt.map (fun t => { t with level := j }) }

/-- The writes of a core's copy engine have landed. -/
def Core.copyLanded (c : Core) : Bool := !c.lwrites.any (fun w => w.eng == .copy)

/-- The element by element sum of two buffers of FP32 values, with its flags (R207). -/
def sumBuffers (count : Nat) (x y : List Byte) : List Byte × FlagSet :=
  let z := (List.range count).map (fun i =>
    addF32 (BitVec.ofNat 32 (leNat ((x.drop (4 * i)).take 4))) (BitVec.ofNat 32 (leNat ((y.drop (4 * i)).take 4))))
  (z.flatMap (fun v => leBytes 4 v.1.toNat), z.foldl (fun f v => f ||| v.2) 0)

/-- The core reads its own buffer and its partner's, sector by sector, each sector at a time of its own; once it has them it writes the
sums over its buffer, and the partner has no level left. Sectors of the partner stand behind the local window among those read. -/
def State.treeAdd (s : State) (n : Entry) (t : TreeWord) (partner : Nat) : EngResult :=
  let l := sectorsOf [(t.laddr, 4 * t.count)]
  let mine := unread l n.src
  let (got, c) := s.cur.readSome .copy n.bank s.free mine
  let s := (s.skip l.length).setCore s.focus.core c
  let theirs := l.filter (fun x => !n.src.any (fun y => y.1 == localSize + x.1))
  let (got2, c) := (s.core partner).readSome .copy n.bank s.free theirs
  let s := (s.skip l.length).setCore partner c
  let src := n.src ++ got ++ got2.map (fun y => (localSize + y.1, y.2))
  let left := unread mine got
  if left.isEmpty && got2.length == theirs.length then
    let (z, f) := sumBuffers t.count (srcBytes src t.laddr (4 * t.count)) (srcBytes src (localSize + t.laddr) (4 * t.count))
    let s := s.modCore partner (fun c => c.atLevel 4)
    let s := s.modCur (fun c => (c.localWrites .copy n.bank t.laddr z (s.cycle + 1) 0).atLevel (t.level + 1))
    .jump { n with src := [], want := [] } (s.mergeFlags s.focus.core n.bank f (Eng.src .copy) n.detail n.upc)
  else .jump { n with src := src, want := left } s

/-- What a core does at a level of its TREE (R207). -/
def State.treeLevel (s : State) (n : Entry) (parts : List Nat) (t : TreeWord) : EngResult :=
  let core := s.focus.core
  let step := 2 ^ (t.level - 1)
  if core % 8 % (2 * step) = 0 then
    let partner := core + step
    if !parts.contains partner then .jump n (s.modCur (fun c => c.atLevel (t.level + 1)))
    else match s.treeOf n.bank t.inst partner with
      | some u =>
        if u.level = t.level && s.cur.copyLanded && (s.core partner).copyLanded then s.treeAdd n t partner else .wait
      | none => .wait
  else if parts.contains (core - step) then .wait
  else .jump n (s.modCur (fun c => c.atLevel 4))

/-- TREE (R207): a core arrives with its operands; the first to see every participant compares them, and reports a mismatch to every
one; then each core does its levels. -/
def execTree (s : State) : Out :=
  .next (match s.engine.cur with
  | none => s
  | some n0 =>
    let core := s.focus.core
    s.engWord fun _ s => n0.popped 2 fun l n1 =>
      let laddr := l.getD 0 0
      let count := l.getD 1 0
      if count % 64 ≠ 0 || count < 64 || count > 262144 || laddr % 256 ≠ 0 then .fault (fault 0x0C)
      else match localFault laddr (4 * count) with
        | some f => .fault f
        | none => match s.cur.treeAt with
          | none =>
            if !s.cur.forked n0 || s.cur.engTouches .copy laddr (4 * count) then .wait
            else
              let i := s.cur.treeCount + 1
              .jump n0 (s.modCur (fun c =>
                { c with treeCount := i, treeAt := some { inst := i, laddr := laddr, count := count, level := 0 } }))
          | some t =>
            let parts := s.clusterGang core n0.bank
            if t.level = 0 then
              let all := parts.map (fun c => s.treeOf n0.bank t.inst c)
              if all.any Option.isNone then .wait
              else
                let args := all.map (fun x => x.map (fun t => (t.laddr, t.count)))
                if args.any (fun x => x != args.headD none) then
                  let others := parts.filter (fun c => c != core)
                  .faultIn (fault 0x0C) (others.foldl (fun (s : State) c =>
                    (s.engFault c .copy (fault 0x0C)).modCore c (fun x => { x with treeAt := none })) (s.modCur (fun c => { c with treeAt := none })))
                else .jump n0 (parts.foldl (fun (s : State) c => s.modCore c (fun x => x.atLevel 1)) s)
            else if t.level < 4 then s.treeLevel n0 parts t
            else if s.cur.copyLanded then .ok n1 (s.modCur (fun c => { c with treeAt := none }))
            else .wait)

end Sys2Proof.Machine
end

