-- ==== Sys2Proof/Machine/System.lean ====
section
/-!
DEFINITION. The system words on segments, translation, microcode, tenants and bias, HALT, host page responses, and errors in memory
(R330 to R354, R383, R384).
-/
namespace Sys2Proof.Machine

/-! ## Segment tables (R344, R345) -/

/-- A tenant table's size. -/
def segTableSize : Nat := 32768

/-- SEGLD (R344): it completes 512 cycles after issue at the earliest. -/
def execSegld (h : Hdr) (m : MemOp) (s : State) : Out :=
  .next (s.issue ((Need.of h).addr m |>.privileged |>.globalMem) none fun s =>
    let (a, s) := s.readAddr m
    if a.toNat % 256 ≠ 0 then .fault (faultAt 0x05 a)
    else if spaceOf a = .host then .fault (faultAt 0x18 a)
    else match s.translate s.bank 0 a segTableSize with
      | .error t => .fault t
      | .ok l => match l.find? (fun p => p.seg.isNone) with
        | some p => .fault (faultAt 0x18 (BitVec.ofNat 64 p.addr))
        | none =>
          if !s.bank.queuesEmpty || s.anyBusy (l.flatMap Piece.lines) then .stall
          else match s.readPieces s.focus.core none l with
            | (none, _) => .fault (faultAt 0x07 a)
            | (some tab, s) => match s.segFault (some (s.die (dieOf s.focus.core)).part) [] 0 (segEntries tab) with
              | some (i, c) => .fault (faultAt c (a + BitVec.ofNat 64 (32 * i)))
              | none =>
                let segs := segTable tab
                .ok ((s.startBias segs).modBank (fun b => { b with segs := segs, bound := s.cycle + 512 })))

/-- SEGINV (R345). -/
def execSeginv (h : Hdr) (a : SSrc) (s : State) : Out :=
  .next (s.issue ((Need.of h).s a |>.privileged) none fun s =>
    let (x, s) := s.readS a
    if x.extractLsb' 10 54 != 0 then .fault (fault 0x0C)
    else if !s.bank.queuesEmpty then .stall
    else .ok (s.modBank (fun b => { b with segs := Sparse.erase b.segs (x.toNat % 1024) })))

/-! ## Host translation (R348) -/

/-- HTLBINV (R348): the entries leave every die's TLB, and the word waits for the dies' acknowledgements. -/
def execHtlbinv (h : Hdr) (a b : SSrc) (all : Bool) (s : State) : Out :=
  let pc := s.bank.pc
  .next (s.issue ((Need.of h).s a |>.s b |>.privileged) none fun s =>
    let (x, s) := s.readS a
    let (y, s) := s.readS b
    if x.extractLsb' 20 44 != 0 then .fault (fault 0x0C)
    else
      let pasid := x.setWidth 20
      let va : Option Nat := if all then none else some (y.toNat % 2 ^ 57)
      let hit (e : TlbEnt) : Bool := match va with
        | none => e.pasid == pasid
        | some v => e.covers pasid v
      let inv : HtlbInv := { core := s.focus.core, bank := s.focus.bank, pasid := pasid, addr := va, dies := List.range 32 }
      let s := { s with dies := s.dies.map (fun (d : Die) => { d with tlb := d.tlb.filter (fun e => !hit e) }), htlbInv := s.htlbInv ++ [inv] }
      let s := s.modBank (fun b => { b with status := .held, holdWord := some { pc := pc, trap := none, writes := [], flags := 0 } })
      let here := dieOf s.focus.core
      .ok ((List.range 32).foldl (fun (s : State) d => s.post (1 + 96 * dieDist here d) none (d * 64) false none .hostTlbInvalidateAck) s))

/-- A host access of a PASID that has been translated on a die and is not performed. -/
def State.hostInFlight (s : State) (die : Nat) (pasid : BitVec 20) : Bool :=
  s.cores.any (fun p => p.1 / 64 == die && p.2.accs.any (fun a =>
    a.target == .host && a.state == .sent && !s.frozen p.1 a && s.pasidOf (p.2.bank a.bank) == some pasid))

/-- HOST_TLB_INVALIDATE_ACK (R348). -/
def execHostTlbInvalidateAck (s : State) : Out :=
  let die := dieOf s.focus.core
  .next (match s.htlbInv.find? (fun x => x.dies.contains die) with
  | none => s
  | some x =>
    if s.hostInFlight die x.pasid then s.postAt (s.cycle + 1) s.focus.core s.focus.bank none .hostTlbInvalidateAck
    else
      let y : HtlbInv := { x with dies := x.dies.filter (fun d => d != die) }
      if y.dies.isEmpty then
        { s with htlbInv := s.htlbInv.erase x }.modBankAt x.core x.bank (fun b => b.resume s.cycle)
      else { s with htlbInv := s.htlbInv.replace x y })

/-! ## Microcode (R231, R354) -/

/-- Where a microcode image stands: a physical byte of the space of all stacks. -/
def imageLoc (addr : Nat) : Loc := { lo := 0, nd := 32, q := addr }

/-- The words of a microcode image. -/
def State.microWords (s : State) (addr words : Nat) : List Byte := s.homeBytes (imageLoc addr) (8 * words)

/-- UCLOAD (R231, R354): the store is replaced in one step, while no LAYER executes. -/
def execUcload (h : Hdr) (a : NSrc) (s : State) : Out :=
  .next (s.issue ((Need.of h).n a |>.privileged) none fun s =>
    let x := s.bank.readN a
    match s.resolveAs s.focus.core [Cls.microcode] x with
    | (.error t, _, _) => .fault t
    | (.ok e, _, s) => match e.bind with
      | .microcode addr words digest =>
        let bytes := s.microWords addr words
        if Config.sha3_512 bytes != digest then .fault (fault 0x22)
        else if (s.cur.anvil.cur.bind (fun n => n.layer)).isSome then .stall
        else
          let w (i : Nat) : MicroWord := BitVec.ofNat 64 (field bytes (8 * i) 8)
          let store : Sparse MicroWord := ((List.range (Nat.min words 4096)).map (fun i => (i, w i))).filter (fun p => p.2 != 0)
          .ok (s.modCur (fun c => { c with ucode := store, ucodeName := some x }))
      | .tensor _ | .patch | .job _ | .checkpoint _ _ | .cellseg _ | .savearea _ | .aliasTo _ => .fault (faultName 0x17 x))

/-! ## Tenants and keys (R351, R352) -/

/-- Every segment that a loaded table holds, with the partition of the job's die. -/
def State.loadedSegs (s : State) : List (BitVec 4 × Seg) :=
  s.cores.flatMap (fun p => [false, true].flatMap (fun b =>
    let k := p.2.bank b
    if k.job.isNone then [] else k.segs.map (fun x => ((s.die (dieOf p.1)).part, x.2))))

/-- KEYBIND (R352). -/
def execKeybind (h : Hdr) (a b : SSrc) (s : State) : Out :=
  .next (s.issue ((Need.of h).s a |>.s b |>.privileged) none fun s =>
    let (x, s) := s.readS a
    let (y, s) := s.readS b
    let slot : Fin 128 := (x.extractLsb' 0 7).toFin
    let part : BitVec 4 := y.extractLsb' 0 4
    if x.extractLsb' 7 57 != 0 || y.extractLsb' 4 59 != 0 || !s.sec.keys.contains slot then .fault (fault 0x0C)
    else
      let free := s.sec.bound.filter (fun p => p.1 != slot)
      if y.getLsbD 63 then
        if s.loadedSegs.any (fun g => g.2.keyid.toNat == slot.val) then .fault (fault 0x1A)
        else .ok { s with sec := { s.sec with bound := free } }
      else if s.sec.bound.any (fun p => p.1 == slot && p.2 != part) then .fault (fault 0x1A)
      else .ok { s with sec := { s.sec with bound := free ++ [(slot, part)] } })

/-- A die holds a job. -/
def State.dieHoldsJob (s : State) (d : Nat) : Bool :=
  s.cores.any (fun p => p.1 / 64 == d && (p.2.bank0.job.isSome || p.2.bank1.job.isSome))

/-- PARTSET (R351). -/
def execPartset (h : Hdr) (a b : SSrc) (s : State) : Out :=
  .next (s.issue ((Need.of h).s a |>.s b |>.privileged) none fun s =>
    let (x, s) := s.readS a
    let (y, s) := s.readS b
    let part : BitVec 4 := y.extractLsb' 0 4
    let named := (List.range 32).filter (fun d => x.getLsbD d)
    if x.extractLsb' 32 32 != 0 || y.extractLsb' 4 60 != 0 then .fault (fault 0x0C)
    else if named.any s.dieHoldsJob || s.loadedSegs.any (fun g => g.1 != part && g.2.len != 0 && g.2.dieList.any named.contains) then
      .fault (fault 0x1A)
    else .ok (named.foldl (fun (s : State) d => s.modDie d (fun x => { x with part := part })) s))

/-! ## Bias flips (R353, R384) -/

/-- The number of a page of a stack set among all pages. -/
def pageKey (lo nd page : Nat) : Nat := (lo * 64 + nd) * 2 ^ 36 + page

/-- The page of an address, where its segment is host-visible. -/
def Bank.visiblePage (b : Bank) (a : Nat) : Option Nat :=
  match b.segOf a with
  | none => none
  | some g => if g.hostVisible then some (pageKey g.dies.1 g.dies.2 (g.loc a).page) else none

/-- The bias of a page is set. -/
def State.setBias (s : State) (pages : List Nat) (dev : Bool) : State :=
  { s with bias := s.bias.map (fun x => if pages.contains (pageKey x.1 x.2.1 x.2.2.1) then (x.1, x.2.1, x.2.2.1, dev) else x) }

/-- The page of a line. -/
def Line.pageKey (l : Line) : Nat := Machine.pageKey l.lo l.nd (l.no / 32)

/-- The device writes back and drops its copies of some pages, and the host's. -/
def State.dropPages (s : State) (pages : List Nat) : State :=
  let lines := dedup ((s.slices.flatMap (fun p => p.2.lines)).filterMap (fun y => if pages.contains (Line.pageKey y.line) then some (y.line, y.lease) else none))
  let s := lines.foldl (fun (s : State) x => (if x.2 then s else s.recall x.1).evictHome x.1) s
  { s with hostHeld := s.hostHeld.filter (fun h => !pages.contains (Line.pageKey h.1)) }

/-- BIASFLIP (R353): one flip at a time; pages already in the bias asked for are passed over. -/
def execBiasflip (h : Hdr) (a b : SSrc) (dev : Bool) (s : State) : Out :=
  let pc := s.bank.pc
  .next (s.issue ((Need.of h).s a |>.s b |>.privileged) none fun s =>
    let (x, s) := s.readS a
    let (y, s) := s.readS b
    if x.toNat % 4096 ≠ 0 || y.toNat % 4096 ≠ 0 || y.toNat < 4096 || y.toNat > 2 ^ 30 then .fault (fault 0x0C)
    else
      let addrs := (List.range (y.toNat / 4096)).map (fun i => x.toNat + 4096 * i)
      match addrs.find? (fun p => (s.bank.visiblePage p).isNone) with
      | some p => .fault (faultAt 0x08 (BitVec.ofNat 64 p))
      | none =>
        let keys := addrs.filterMap s.bank.visiblePage
        let same (k : Nat) : Bool := s.bias.any (fun z => pageKey z.1 z.2.1 z.2.2.1 == k && z.2.2.2 == dev)
        let pages := keys.filter (fun k => !same k)
        if pages.isEmpty then .ok s
        else if s.flip.isSome then .stall
        else
          let s := s.dropPages pages
          let f : Flip := { id := s.flipNo + 1, dev := dev, base := keys.headD 0 % 2 ^ 32, len := keys.length, pages := pages, core := s.focus.core, bank := s.focus.bank }
          .ok ({ s with flip := some f, flipNo := s.flipNo + 1, msix := s.msix ++ [1] }.modBank (fun b =>
            { b with status := .held, holdWord := some { pc := pc, trap := none, writes := [], flags := 0 } })))

/-- FLIP_ACKNOWLEDGE (R384): one with a wrong id is ignored. -/
def execFlipAcknowledge (id : BitVec 32) (s : State) : Out :=
  .next (match s.flip with
  | none => s
  | some f =>
    if f.id != id then s
    else ({ s.setBias f.pages f.dev with flip := none }).modBankAt f.core f.bank (fun b => b.resume s.cycle))

/-! ## HALT (R340) -/

/-- HALT (R340): the dispatcher ends the job as failed, with code 0 and the word's address. -/
def execHalt (h : Hdr) (s : State) : Out :=
  let pc := s.bank.pc
  .next (s.issue ((Need.of h).privileged |>.ends) none fun s =>
    let s := (s.modBank (fun b => { b with status := .halted })).leaveBank
    .ok (match s.bank.job with
    | none => s
    | some id => s.failJob id { Report.of 0 0 with pc := pc }))

/-! ## Host page responses (R343) -/

/-- The frozen host accesses whose extent meets a page of a PASID, with their cores. -/
def State.onPage (s : State) (pasid : BitVec 20) (page : Nat) : List (Nat × Access) :=
  s.cores.flatMap (fun p => (p.2.accs.filter (fun a =>
    s.frozen p.1 a && s.pasidOf (p.2.bank a.bank) == some pasid && (hostPages a.vaddr a.len).any (fun x => x.1 / 4096 == page))).map
      (fun a => (p.1, a)))

/-- A bank or engine goes on once none of its host accesses is frozen. -/
def State.thaw (s : State) (core : Nat) (a : Access) : State :=
  let still := (s.core core).accs.any (fun x => x.bank == a.bank && x.eng == a.eng && s.frozen core x)
  match a.eng with
  | some e => if still then s else s.modCore core (fun c => c.setEngine e { c.engine e with frozen := false })
  | none =>
    if still then s
    else s.modCore core (fun c => c.modBank a.bank (fun b => if b.status == .pageWait then
      { b with status := .running, bound := Nat.max b.bound (s.cycle + 1), switchClaim := c.active != a.bank } else b))

/-- The failed service of one access: its tag lands with its destination unchanged, and its bank takes fault 0x09 precisely, or its
engine's entry faults (R343). -/
def State.failPage (s : State) (core : Nat) (a : Access) (page : Nat) : State :=
  let addr := BitVec.ofNat 64 (Nat.max a.vaddr (a.vaddr / 2 ^ 57 * 2 ^ 57 + page * 4096))
  let s := match a.op.tag with
    | none => s
    | some t => s.modBankAt core a.bank (fun b => b.modTag t (fun r => { r with failed := true }))
  let s := (s.finish core a).thaw core a
  match a.eng with
  | some e => s.engFault core e (faultAt 0x09 addr)
  | none =>
    let s : State := { s with focus := { core := core, bank := a.bank, eng := none } }
    let s := s.modBank (fun b => if b.status == .pageWait then { b with status := .running } else b)
    s.trap (faultAt 0x09 addr)

/-- No more page request for a page is pending, and its time no longer runs. -/
def State.endRequest (s : State) (pasid : BitVec 20) (page : Nat) : State :=
  { s with pageReqs := s.pageReqs.filter (fun r => r != (pasid, page)), flights := s.flights.filter (fun f => f.ev != .pageRequestTimeout pasid page) }

/-- A page request has failed. -/
def State.failRequest (s : State) (pasid : BitVec 20) (page : Nat) : State :=
  (s.onPage pasid page).foldl (fun s x => s.failPage x.1 x.2 page) (s.endRequest pasid page)

/-- PAGE_RESPONSE (R343): after a success the translations of the page are dropped and its accesses re-execute whole. -/
def execPageResponse (pasid : BitVec 20) (page : Nat) (ok : Bool) (s : State) : Out :=
  .next (if !ok then s.failRequest pasid page
  else
    let l := s.onPage pasid page
    let s := { s.endRequest pasid page with dies := s.dies.map (fun (d : Die) => { d with tlb := d.tlb.filter (fun e => !e.covers pasid (page * 4096)) }) }
    let s := l.foldl (fun (s : State) x => s.modCore x.1 (fun c => c.modAccess x.2.seq (fun a => { a with state := .waiting, tried := false }))) s
    l.foldl (fun (s : State) x => s.thaw x.1 x.2) s)

/-- PAGE_REQUEST_TIMEOUT (R343). -/
def execPageRequestTimeout (pasid : BitVec 20) (page : Nat) (s : State) : Out :=
  .next (if s.pageReqs.contains (pasid, page) then s.failRequest pasid page else s)

/-! ## Errors in memory (R335) and the log (R334) -/

/-- A byte of the stacks lies in a segment. -/
def Seg.holdsKey (g : Seg) (key : Nat) : Bool :=
  let stack := key / 2 ^ 36
  let off := key % 2 ^ 36
  let m := 2 * g.dies.2
  let q := (off / 256 * m + (stack - 2 * g.dies.1)) * 256 + off % 256
  g.len != 0 && g.kind != 2 && 2 * g.dies.1 ≤ stack && stack < 2 * g.dies.1 + m && g.pbase * segUnit ≤ q && q < (g.pbase + g.len) * segUnit

/-- A job's access to a byte never lands: it and its tag are gone. -/
def State.poison (s : State) (id key : Nat) : State :=
  (s.parts id).foldl (fun (s : State) p => s.modCore p.1 (fun c =>
    let hit (a : Access) : Bool := a.bank == p.2 && a.target != .host && a.loc.key ≤ key && key < a.loc.key + Nat.max a.len 1
    let tags := (c.accs.filter hit).filterMap (fun a => a.op.tag)
    { c with accs := c.accs.filter (fun a => !hit a) }.modBank p.2 (fun b => { b with tags := b.tags.filter (fun t => !tags.contains t.tag) }))) s

/-- A job is quenched at once so that the runtime can return it to its checkpoint; its access to a byte of the stacks never lands. -/
def State.quenchForError (s : State) (id : Nat) (key : Option Nat) : State :=
  match s.job id with
  | none => s
  | some j =>
    let s := match key with
      | none => s
      | some k => s.poison id k
    if j.state == .running then s.startQuench j true none false false else s

/-- The jobs whose loaded segment tables map a byte of the stacks. -/
def State.jobsMapping (s : State) (key : Nat) : List Nat :=
  dedup (s.cores.flatMap (fun p => [false, true].filterMap (fun b =>
    if (p.2.bank b).segs.any (fun x => x.2.holdsKey key) then (p.2.bank b).job else none)))

/-- An error that a bank found is logged as that bank's (R334). -/
def State.logBank (s : State) (core : Nat) (bank : Bool) (addr : Word) : State :=
  let here : State := { s with focus := { core := core, bank := bank, eng := none } }
  { here.logHere 0x19 addr (here.keyId here.bank) with focus := s.focus }

/-- UNCORRECTABLE_ERROR (R335) at a byte of the stacks, or in an array of a core: of the job that asked for the data, or of every job whose
loaded segment table maps the address. A job that the Bellows was to place fails (R180). -/
def execUncorrectableError (addr : Nat) (finder : ErrFinder) (s : State) : Out :=
  let a := BitVec.ofNat 64 addr
  .next (match finder with
  | .access core bank => match (s.bankAt core bank).job with
    | some id => (s.logBank core bank a).quenchForError id (some addr)
    | none => s.logBank core bank a
  | .store core bank => match (s.bankAt core bank).job with
    | some id => (s.logBank core bank a).quenchForError id none
    | none => s.logBank core bank a
  | .placement id => match s.job id with
    | some j => if s.candidate j then (s.logNobody 0x19 a j.tag).failJob id (.of 0x19 a) else s
    | none => s
  | .scrub => (s.jobsMapping addr).foldl (fun s id => s.quenchForError id (some addr)) (s.logNobody 0x19 a 0))

/-- EVENT_LOG_CLEAR (R378). -/
def execEventLogClear (s : State) : Out := .next { s with log := [] }

end Sys2Proof.Machine
end

