-- ==== Sys2Proof/Machine/HostSide.lean ====
section
/-!
DEFINITION. What the host and the board do to the machine (R241, R378 to R389): launch queues, configuration space, device memory through
HDM ranges, the security block, readiness, power.
-/
namespace Sys2Proof.Machine

/-! ## Launch queues (R379 to R382) -/

/-- Change a launch queue. -/
def State.modLq (s : State) (q : Fin 64) (f : LQueue → LQueue) : State := { s with lqueues := s.lqueues.set q (f s.lqueues[q]) }

/-- The spacing of a launch queue's re-reads: 160 ns (R381). -/
def rereadTime : Nat := 160 * microUnits / 1000

/-- The reads of a slot begin, once the expected record has been announced (R381). -/
def State.startReads (s : State) (q : Fin 64) : State :=
  let x := s.lqueues[q]
  if x.reading || !x.pending.contains x.expect then s
  else (s.modLq q (fun x => { x with reading := true })).postHere 1 (.notifyReread q 1)

/-- A notify (R381). -/
def State.notify (s : State) (q : Fin 64) (n : BitVec 16) : State :=
  let x := s.lqueues[q]
  if !x.enabled || (n - x.expect).toNat ≥ x.depth then s.logNobody 0x20 (n.setWidth 64) 0
  else (s.modLq q (fun x => { x with pending := if x.pending.contains n then x.pending else x.pending ++ [n] })).startReads q

/-- SUBMISSION_NOTIFY (R380, R381). -/
def execSubmissionNotify (v : Word) (s : State) : Out :=
  .next (s.notify (v.extractLsb' 0 6).toFin (v.extractLsb' 16 16))

/-- The offset of a queue's head slot in the launch-queue store. -/
def LQueue.slot (x : LQueue) : Nat := x.offset + x.head * recordSize

/-- NOTIFY_REREAD (R381): the read of the head slot of the given number. -/
def execNotifyReread (q : Fin 64) (tries : Nat) (s : State) : Out :=
  let x := s.lqueues[q]
  let d := Memory.readBytes s.lqSlots x.slot recordSize
  let r := LaunchRec.parse d
  let done (s : State) : State := s.modLq q (fun x => { x with reading := false, pending := x.pending.erase x.expect })
  .next (if !x.reading then s
  else if LaunchRec.seq r != x.expect then
    if tries < 64 then s.postIn rereadTime s.focus.core s.focus.bank none (.notifyReread q (tries + 1))
    else (done s).logNobody 0x20 (BitVec.ofNat 64 x.slot) 0
  else if recordInvalid d then (done s).logNobody 0x20 (BitVec.ofNat 64 x.slot) 0
  else match s.mayIssue with
    | (false, s) => s.postHere 1 (.notifyReread q tries)
    | (true, s) =>
      let (n, s) := s.accept r s.rtSegs none
      let s := s.modJob (s.jobs.length - 1) (fun j => { j with lq := q.val, pasid := if x.pasidValid then some x.pasid else none })
      let s := { done s with lqSlots := Memory.writeBytes s.lqSlots x.slot (leBytes 16 n.toNat) }
      (s.modLq q (fun x => { x with head := (x.head + 1) % x.depth, expect := x.expect + 1 })).startReads q)

/-- LAUNCH_QUEUE_DESCRIPTOR_WRITE (R379). -/
def execLaunchQueueDescriptorWrite (q : Fin 64) (d : List Byte) (s : State) : Out :=
  let flags := field d 6 1
  .next (s.modLq q (fun x =>
    let x : LQueue := { x with offset := field d 0 4, depth := field d 4 2, enabled := flags.testBit 0, pasidValid := flags.testBit 1
                               pasid := BitVec.ofNat 20 (field d 8 4) }
    if x.enabled then { x with head := 0, expect := 0 } else x))

/-- LAUNCH_RECORD_WRITE (R320, R381): one write of a slot. -/
def execLaunchRecordWrite (q : Fin 64) (slot : Nat) (d : List Byte) (s : State) : Out :=
  .next { s with lqSlots := Memory.writeBytes s.lqSlots ((s.lqueues[q]).offset + slot * recordSize) (d.take recordSize) }

/-! ## Device memory through HDM ranges (R383) -/

/-- A segment that maps a physical byte, among the loaded tables and the runtime's. -/
def State.segAt (s : State) (l : Loc) : Option Seg :=
  (s.loadedSegs.map (fun x => x.2) ++ s.rtSegs.map (fun x => x.2)).find? (fun g =>
    g.len != 0 && g.kind != 2 && g.dies == (l.lo, l.nd) && g.pbase * segUnit ≤ l.q && l.q < (g.pbase + g.len) * segUnit)

/-- The host meets a page in the middle of a flip (R353). -/
def State.hostConflict (s : State) (l : Loc) : State :=
  { s.logNobody 0x21 (BitVec.ofNat 64 l.key) 0 with errResponses := s.errResponses ++ [l.key] }

/-- HOST_MEMORY_WRITE (R383): of a patched segment the stored bytes change; a leased view's next copies carry a time after every rts that
was given out, and other view copies of the sectors are invalid. -/
def execHostMemoryWrite (line : Line) (off : Fin 128) (bytes : List Byte) (s : State) : Out :=
  let l : Loc := { lo := line.lo, nd := line.nd, q := line.no * 128 + off.val }
  let bs := bytes.take (128 - off.val)
  .next (if s.flipping l then s.hostConflict l
  else if s.anyBusy [line] then s
  else match s.segAt l with
    | some g =>
      if g.patched then
        let s := if g.lease then
            let x := s.homeSlice line
            let rts := match x.line line with
              | none => x.mts
              | some y => y.rts
            (s.evictHome line).modHome line (fun x => { x with mts := ptsMax x.mts (rts + 1) })
          else s.spoilViews line (sectorMask off.val bs.length)
        s.hbmWrite l bs
      else if g.lease then
        let s := (s.ensureHome line false true g.cls).modHome line (fun x => x.modLine line (fun y =>
          let w := ptsMax y.wts (y.rts + 1)
          { y with wts := w, rts := w }))
        s.homeStore l (bs.map some)
      else (s.recall line).homeStore l (bs.map some)
    | none => (s.recall line).homeStore l (bs.map some))

/-- HOST_MEMORY_READ (R383): a patched byte reads as its view. -/
def execHostMemoryRead (line : Line) (off : Fin 128) (len : Fin 129) (s : State) : Out :=
  let l : Loc := { lo := line.lo, nd := line.nd, q := line.no * 128 + off.val }
  let n := Nat.min len.val (128 - off.val)
  .next (if s.flipping l then s.hostConflict l
  else if s.anyBusy [line] then s
  else match s.segAt l with
    | some g =>
      if g.patched then { s with hostReads := s.hostReads ++ [(s.viewBytes l n .plain).1] }
      else
        let s := if g.lease then s else s.share line
        { s with hostReads := s.hostReads ++ [s.homeBytes l n] }
    | none =>
      let s := s.share line
      { s with hostReads := s.hostReads ++ [s.homeBytes l n] })

/-- HOST_SNOOP (R383): the device home's hold on a line ends, its data written back. -/
def execHostSnoop (line : Line) (s : State) : Out :=
  .next (if s.anyBusy [line] then s
  else
    let lease := match s.segAt { lo := line.lo, nd := line.nd, q := line.no * 128 } with
      | some g => g.lease
      | none => false
    let s := (if lease then s else s.recall line).evictHome line
    { s with hostHeld := s.hostHeld.filter (fun h => h.1 != line) })

/-! ## The configuration space (R378) -/

/-- JOB_TAG_ASSIGN (R357). -/
def execJobTagAssign (tag : BitVec 16) (job : Name) (s : State) : Out :=
  .next { s with jobs := s.jobs.map (fun (j : Job) => if j.name == job then { j with tag := tag } else j) }

/-- A module number of the home map takes an ident (R242, R378): the ident points there from now on, beside those that do already, as a
spare's own; 0 takes every ident from it. -/
def State.mapHome (s : State) (i : Nat) (ident : BitVec 32) : State :=
  let m := BitVec.ofNat 12 i
  { s with homeMap := if ident = 0 then s.homeMap.filter (fun p => p.2 != m) else s.homeMap.filter (fun p => p.1 != ident) ++ [(ident, m)] }

/-- A slice's control word is written (R289): lines in ways that become staging leave. -/
def State.writeScw (s : State) (i : Nat) (v : Word) : State :=
  let die := i / 64
  let s := s.modSlice die (i % 64) (fun x =>
    { x with sfways := v.extractLsb' 36 4, qkv := v.extractLsb' 28 4, qact := v.extractLsb' 24 4, qwt := v.extractLsb' 20 4
             qoth := v.extractLsb' 16 4, stg := v.extractLsb' 0 4 })
  (s.slice die (i % 64)).lines.foldl (fun (s : State) y =>
    let x := s.slice die (i % 64)
    let set := x.inSet (Line.set y.line)
    if set.length > x.ways then
      match oldest (set.filter (fun z => z.pin.isNone)) with
      | none => s
      | some z => s.evictLine die z
    else s) s

/-- CONFIG_WRITE (R378): a 64-bit write; reserved and read-only offsets ignore it. -/
def execConfigWrite (off : Nat) (v : Word) (s : State) : Out :=
  if off = 0 then execSubmissionNotify v s
  else if off = 8 then .next { s with privq := v }
  else if off = 0x10 then .next { s with pageTimeoutUs := v.toNat }
  else if off = 0x20 then execFlipAcknowledge (v.setWidth 32) s
  else if 0x3000 ≤ off && off < 0x13000 && off % 8 = 0 then
    let i := (off - 0x3000) / 16
    let old := (Sparse.find s.pasids i).getD 0
    let new : BitVec 128 := if off % 16 = 0 then old.extractLsb' 64 64 ++ v else v ++ old.extractLsb' 0 64
    .next { s with pasids := Sparse.put s.pasids i new }
  else if off = 0x100000 + 4096 * 32 then execEventLogClear s
  else if off = 0x200000 then .next { s with threshold := v.setWidth 7 }
  else if off = 0x200008 then .next { s with graceUs := v.toNat }
  else if off = 0x200010 then .next { s with saveReserveMiB := v.toNat }
  else if off = 0x200018 then .next { s with quenchDeadlineUs := v.toNat }
  else if 0x300000 ≤ off && off < 0x304000 && off % 8 = 0 then
    let i := (off - 0x300000) / 4
    .next ((s.mapHome i (v.setWidth 32)).mapHome (i + 1) (v.extractLsb' 32 32))
  else if 0x304000 ≤ off && off < 0x304010 && off % 8 = 0 then
    let i := (off - 0x304000) / 2
    .next { s with buddies := Vector.ofFn (fun (k : Fin 8) =>
      if i ≤ k.val && k.val < i + 4 then v.extractLsb' (16 * (k.val - i)) 12 else s.buddies[k]) }
  else if 0x310000 ≤ off && off < 0x310000 + 8 * 2048 && off % 8 = 0 then .next (s.writeScw ((off - 0x310000) / 8) v)
  else .next s

/-! ### Reads (R4, R378) -/

/-- The bytes of a launch queue's descriptor (R379). -/
def LQueue.bytes (x : LQueue) : List Byte :=
  leBytes 4 x.offset ++ leBytes 2 x.depth ++ leBytes 1 ((if x.enabled then 1 else 0) + if x.pasidValid then 2 else 0) ++ [0]
    ++ leBytes 4 x.pasid.toNat ++ leBytes 2 x.head ++ leBytes 2 x.expect.toNat ++ List.replicate 16 0

/-- The 32 bytes of an event-log record (R334). -/
def LogRec.bytes (r : LogRec) : List Byte :=
  leBytes 1 r.code.toNat ++ leBytes 1 (if r.lost then 1 else 0) ++ leBytes 2 r.core.toNat ++ leBytes 2 r.module.toNat
    ++ leBytes 1 (if r.bank then 1 else 0) ++ leBytes 1 r.keyid.toNat ++ leBytes 8 r.addr.toNat ++ leBytes 2 r.jobtag.toNat
    ++ leBytes 1 r.part.toNat ++ List.replicate 5 0 ++ leBytes 8 r.time

/-- The 256 bytes of a resume record (R365). -/
def ResumeRec.bytes (r : ResumeRec) : List Byte :=
  let some_ := (sortNat (r.absent.map BitVec.toNat)).take 32
  leBytes 16 r.job.toNat ++ leBytes 16 r.savearea.toNat ++ leBytes 1 r.state.toNat ++ [0] ++ leBytes 2 r.nbank ++ leBytes 4 r.npkt
    ++ leBytes 8 r.step.toNat ++ leBytes 8 r.images ++ leBytes 8 r.held ++ leBytes 2 r.absent.length ++ some_.flatMap (leBytes 2)
    ++ List.replicate (2 * (32 - some_.length) + 126) 0

/-- The flip record, one register of 128 bits (R384). -/
def State.flipRecord (s : State) : BitVec 128 :=
  match s.flip with
  | none => 0
  | some f => BitVec.ofNat 128 (f.id.toNat * 2 ^ 96 + (if f.dev then 2 ^ 64 else 0) + f.len * 2 ^ 32 + f.base)

/-- The control word of a slice (R289). -/
def Slice.scw (x : Slice) : Word :=
  BitVec.ofNat 64 (x.sfways.toNat * 2 ^ 36 + x.qkv.toNat * 2 ^ 28 + x.qact.toNat * 2 ^ 24 + x.qwt.toNat * 2 ^ 20 + x.qoth.toNat * 2 ^ 16
    + x.stg.toNat)

/-- The ident that the home map lists last for a module number. -/
def State.homeIdent (s : State) (i : Nat) : BitVec 32 :=
  ((s.homeMap.filter (fun p => p.2.toNat == i)).getLast?.map (fun p => p.1)).getD 0

/-- A word of some bytes. -/
def wordAt (d : List Byte) (off : Nat) : Word := BitVec.ofNat 64 (field d off 8)

/-- A 64-bit read of the configuration space (R4, R378): write-only registers, reserved offsets and reserved fields read zero. -/
def State.configRead (s : State) (off : Nat) : Word :=
  if off % 8 ≠ 0 then 0
  else if off = 8 then s.privq
  else if off = 0x10 then BitVec.ofNat 64 s.pageTimeoutUs
  else if off = 0x18 then s.flipRecord.setWidth 64
  else if 0x1000 ≤ off && off < 0x1800 then
    wordAt (s.lqueues[((off - 0x1000) / 32) % 64]'(Nat.mod_lt _ (by decide))).bytes (off % 32)
  else if 0x2000 ≤ off && off < 0x2020 then s.ready[((off - 0x2000) / 8) % 4]'(Nat.mod_lt _ (by decide))
  else if 0x3000 ≤ off && off < 0x13000 then
    let e := (Sparse.find s.pasids ((off - 0x3000) / 16)).getD 0
    if off % 16 = 0 then e.setWidth 64 else e.extractLsb' 64 64
  else if 0x100000 ≤ off && off < 0x120000 then
    match s.log[(off - 0x100000) / 32]? with
    | some r => wordAt r.bytes (off % 32)
    | none => 0
  else if off = 0x120000 then BitVec.ofNat 64 s.log.length
  else if off = 0x120008 then BitVec.ofNat 64 s.logLost
  else if off = 0x200000 then s.threshold.setWidth 64
  else if off = 0x200008 then BitVec.ofNat 64 s.graceUs
  else if off = 0x200010 then BitVec.ofNat 64 s.saveReserveMiB
  else if off = 0x200018 then BitVec.ofNat 64 s.quenchDeadlineUs
  else if 0x300000 ≤ off && off < 0x304000 then
    let i := (off - 0x300000) / 4
    s.homeIdent (i + 1) ++ s.homeIdent i
  else if 0x304000 ≤ off && off < 0x304010 then
    let i := (off - 0x304000) / 2
    BitVec.ofNat 64 (leNat ((List.range 4).flatMap (fun k => leBytes 2 (s.buddies.toList.getD (i + k) 0).toNat)))
  else if 0x310000 ≤ off && off < 0x310000 + 8 * 2048 then (s.slice ((off - 0x310000) / 512) ((off - 0x310000) / 8 % 64)).scw
  else if 0x1000000 ≤ off && off < 0x2000000 then
    match s.resume.find? (fun r => r.tag.toNat == (off - 0x1000000) / 256) with
    | some r => wordAt r.bytes (off % 256)
    | none => 0
  else 0

/-! ## The security block (R354, R385, R386) -/

/-- A measurement register is extended (R385). The register of index i is number i + 1. -/
def State.measure (s : State) (i : Fin 6) (digest : BitVec 512) : State :=
  let m := Config.sha3_512 (leBytes 64 (s.sec.meas[i]).toNat ++ leBytes 64 digest.toNat)
  { s with sec := { s.sec with meas := s.sec.meas.set i m } }

/-- The security block is ready (R387). -/
def State.secReady (s : State) : Bool := s.ready[0].getLsbD 37

/-- SPDM_GET_MEASUREMENTS (R385, R386): the answer holds the six registers; its signature is not kept. A session can be established after
it. -/
def execSpdmGetMeasurements (s : State) : Out :=
  .next (if s.secReady then { s with spdmOut := s.spdmOut ++ [s.sec.meas.toList], sec := { s.sec with attested := true } } else s)

/-- KEY_POLICY_LOAD (R385): once, before any key. -/
def execKeyPolicyLoad (digest : BitVec 512) (s : State) : Out :=
  .next (if !s.secReady || s.sec.policy.isSome || !s.sec.keys.isEmpty then s
  else
    let s := s.measure 5 digest
    { s with sec := { s.sec with policy := some digest } })

/-- KEY_RELEASE (R24, R386): refused outside a session that follows a signed GET_MEASUREMENTS, and unless the loaded policy admits
registers 1, 2, 4 and 5. -/
def execKeyRelease (slot : Fin 128) (s : State) : Out :=
  .next (match s.sec.policy with
  | none => s
  | some p =>
    let m := s.sec.meas
    if s.secReady && s.sec.attested && Config.policyAdmits p [m[0], m[1], m[3], m[4]] then
      { s with sec := { s.sec with keys := if s.sec.keys.contains slot then s.sec.keys else s.sec.keys ++ [slot] } }
    else s)

/-- MICROCODE_IMAGE_VERIFY (R354, R385): the image's digest extends register 3 and a MICROCODE name is issued for it. -/
def execMicrocodeImageVerify (addr words : Nat) (signature : List Byte) (s : State) : Out :=
  .next (
    let digest := Config.sha3_512 (s.microWords addr words)
    if !s.secReady || words > 4096 || !Config.mlDsaVerify digest signature || !s.canIssue then s
    else
      let s := s.measure 2 digest
      let (n, s) := s.journalIssue.issueName Cls.microcode
      let s := s.enterName n (.microcode addr words digest) 0
      { s with sec := { s.sec with verified := s.sec.verified ++ [(addr, words, digest)] } })

/-! ## Readiness and power (R241, R387 to R389) -/

/-- A ready bit that can change to a value: its field is not reserved, and a compute die reports only once both of its stacks are ready (R387). -/
def State.readyCan (s : State) (map : Fin 4) (bit : Fin 64) (up : Bool) : Bool :=
  let hbm := s.ready[1].getLsbD (2 * bit.val) && s.ready[1].getLsbD (2 * bit.val + 1)
  match map.val with
  | 0 => bit.val < 38 && (!up || bit.val ≥ 32 || hbm)
  | 3 => bit.val < 4
  | _ => true

/-- READY_MAP_CHANGE (R387). -/
def execReadyMapChange (map : Fin 4) (bit : Fin 64) (up : Bool) (s : State) : Out :=
  let one : Word := 1#64 <<< bit.val
  let old := s.ready[map]
  .next (if !s.readyCan map bit up || old.getLsbD bit.val == up then s
  else { s with ready := s.ready.set map (if up then old ||| one else old &&& ~~~one), msix := s.msix ++ [0] }.kick)

/-- The arithmetic clock changes. What is due at a time in seconds follows the reference clock (R389). -/
def State.setClock (s : State) (mhz : Nat) : State := { s with clockMHz := mhz }

/-- A cap of so many steps of 125 MHz below 2 GHz. -/
def State.cap (s : State) (steps : Fin 16) : State := s.setClock (2000 - 125 * steps.val)

/-- POWER_CAP (R389). -/
def execPowerCap (steps : Fin 16) (s : State) : Out := .next (s.cap steps)
/-- THERMAL_CAP (R389). -/
def execThermalCap (steps : Fin 16) (s : State) : Out := .next (s.cap steps)

/-- What the module's own flacon holds of a job's last durable checkpoint (R371, R374). -/
def State.ownShard (s : State) (j : Job) : Option RemoteCkpt :=
  let mine := s.ckpts.filter (fun c => c.job == j.id && c.durable)
  match mine.getLast? with
  | none => none
  | some c =>
    let ck : Ckpt := { c with dirty := mine.flatMap (fun x => x.dirty), patches := mine.flatMap (fun x => x.patches) }
    some { valid := true, mixed := none, ckpt := ck, jobName := j.name, rcd := j.rcd, tag := j.tag, priv := j.priv, params := j.params
           segs := j.segs, gen := s.gen, mark := s.mark
           table := s.table.filter (fun e => c.names.contains e.name || e.name == c.name), dead := s.journal, high := some s.journalMark }

/-- The module without power: acknowledged flacon writes, the generation counter and what lies outside the module are all that is left
(R388). -/
def State.powerOff (s : State) : State :=
  { State.reset with
    free := s.free, gen := s.gen, mark := s.mark, flacon := s.flacon, remoteCkpts := s.remoteCkpts ++ s.jobs.filterMap s.ownShard
    hostMem := s.hostMem, progs := s.progs, rtSegs := s.rtSegs, spans := s.spans, peers := s.peers, ecc := s.ecc, outbox := s.outbox, acksOut := s.acksOut, msix := s.msix
    spdmOut := s.spdmOut, hostReads := s.hostReads, errResponses := s.errResponses, inputs := s.inputs }

/-- THERMAL_SHUTDOWN (R389). -/
def execThermalShutdown (s : State) : Out := .next s.powerOff
/-- LOSS_OF_POWER (R388). -/
def execLossOfPower (s : State) : Out := .next s.powerOff

/-- COLD_BOOT (R241, R385, R386): a new generation with mark 0, empty key slots, and the first measurements. -/
def execColdBoot (s : State) : Out :=
  let s := { s.powerOff with gen := if s.gen = 0xFFFFFF then s.gen else s.gen + 1, mark := 0 }
  .next ((((s.measure 0 (Config.bootDigest 1)).measure 1 (Config.bootDigest 2)).measure 3 (Config.bootDigest 4)).measure 4 (Config.bootDigest 5))

end Sys2Proof.Machine
end

