-- ==== Sys2Proof/Machine/Dispatch.lean ====
section
/-!
DEFINITION. One arm for each row of the opcode table.
-/
namespace Sys2Proof.Machine

def exec (i : Instr) (s : State) : Host.Outcome State Fault Refusal :=
  match i with
  | .nop h => Sys2Proof.Machine.execNop h s
  | .add h ty d a b => Sys2Proof.Machine.execAdd h ty d a b s
  | .sub h ty d a b => Sys2Proof.Machine.execSub h ty d a b s
  | .mul h ty d a b => Sys2Proof.Machine.execMul h ty d a b s
  | .mulh h ty d a b => Sys2Proof.Machine.execMulh h ty d a b s
  | .div h ty d a b => Sys2Proof.Machine.execDiv h ty d a b s
  | .rem h ty d a b => Sys2Proof.Machine.execRem h ty d a b s
  | .min h ty d a b => Sys2Proof.Machine.execMin h ty d a b s
  | .max h ty d a b => Sys2Proof.Machine.execMax h ty d a b s
  | .and h d a b => Sys2Proof.Machine.execAnd h d a b s
  | .or h d a b => Sys2Proof.Machine.execOr h d a b s
  | .xor h d a b => Sys2Proof.Machine.execXor h d a b s
  | .andn h d a b => Sys2Proof.Machine.execAndn h d a b s
  | .shl h d a b => Sys2Proof.Machine.execShl h d a b s
  | .shr h d a b => Sys2Proof.Machine.execShr h d a b s
  | .sar h d a b => Sys2Proof.Machine.execSar h d a b s
  | .rot h d a b => Sys2Proof.Machine.execRot h d a b s
  | .clz h d a => Sys2Proof.Machine.execClz h d a s
  | .popc h d a => Sys2Proof.Machine.execPopc h d a s
  | .sel h d a b c => Sys2Proof.Machine.execSel h d a b c s
  | .cmp h ty d a b k => Sys2Proof.Machine.execCmp h ty d a b k s
  | .movi h d a v sh => Sys2Proof.Machine.execMovi h d a v sh s
  | .lea h d m => Sys2Proof.Machine.execLea h d m s
  | .ld h ty d m al => Sys2Proof.Machine.execLd h ty d m al s
  | .st h ty m c => Sys2Proof.Machine.execSt h ty m c s
  | .csrr h d csr => Sys2Proof.Machine.execCsrr h d csr s
  | .csrw h csr a => Sys2Proof.Machine.execCsrw h csr a s
  | .cand h d a b => Sys2Proof.Machine.execCand h d a b s
  | .cor h d a b => Sys2Proof.Machine.execCor h d a b s
  | .cxor h d a b => Sys2Proof.Machine.execCxor h d a b s
  | .fadd h ty d a b => Sys2Proof.Machine.execFadd h ty d a b s
  | .fmul h ty d a b => Sys2Proof.Machine.execFmul h ty d a b s
  | .ffma h ty d a b c => Sys2Proof.Machine.execFfma h ty d a b c s
  | .fcvt h ty src d a => Sys2Proof.Machine.execFcvt h ty src d a s
  | .fcmp h ty d a b k => Sys2Proof.Machine.execFcmp h ty d a b k s
  | .fmin h ty d a b => Sys2Proof.Machine.execFmin h ty d a b s
  | .fmax h ty d a b => Sys2Proof.Machine.execFmax h ty d a b s
  | .ftolog h ty src d a b => Sys2Proof.Machine.execFtolog h ty src d a b s
  | .ffromlog h ty src d a b => Sys2Proof.Machine.execFfromlog h ty src d a b s
  | .vadd h ty d a b => Sys2Proof.Machine.execVadd h ty d a b s
  | .vsub h ty d a b => Sys2Proof.Machine.execVsub h ty d a b s
  | .vmul h ty d a b => Sys2Proof.Machine.execVmul h ty d a b s
  | .vfma h ty d a b c => Sys2Proof.Machine.execVfma h ty d a b c s
  | .vmin h ty d a b => Sys2Proof.Machine.execVmin h ty d a b s
  | .vmax h ty d a b => Sys2Proof.Machine.execVmax h ty d a b s
  | .vrcp h ty d a => Sys2Proof.Machine.execVrcp h ty d a s
  | .vrsq h ty d a => Sys2Proof.Machine.execVrsq h ty d a s
  | .vexp2 h ty d a => Sys2Proof.Machine.execVexp2 h ty d a s
  | .vlog2 h ty d a => Sys2Proof.Machine.execVlog2 h ty d a s
  | .vand h ty d a b => Sys2Proof.Machine.execVand h ty d a b s
  | .vor h ty d a b => Sys2Proof.Machine.execVor h ty d a b s
  | .vxor h ty d a b => Sys2Proof.Machine.execVxor h ty d a b s
  | .vshl h ty d a b => Sys2Proof.Machine.execVshl h ty d a b s
  | .vshr h ty d a b => Sys2Proof.Machine.execVshr h ty d a b s
  | .vsar h ty d a b => Sys2Proof.Machine.execVsar h ty d a b s
  | .vcmp h ty d a b k => Sys2Proof.Machine.execVcmp h ty d a b k s
  | .vsel h ty d a b c => Sys2Proof.Machine.execVsel h ty d a b c s
  | .vcvt h ty src d a => Sys2Proof.Machine.execVcvt h ty src d a s
  | .vtolog h ty src d a b => Sys2Proof.Machine.execVtolog h ty src d a b s
  | .vfromlog h ty src d a b => Sys2Proof.Machine.execVfromlog h ty src d a b s
  | .vqnt h ty src d a b => Sys2Proof.Machine.execVqnt h ty src d a b s
  | .vdqnt h ty src d a b => Sys2Proof.Machine.execVdqnt h ty src d a b s
  | .vbscale h ty tgt d a => Sys2Proof.Machine.execVbscale h ty tgt d a s
  | .vredadd h ty d a => Sys2Proof.Machine.execVredadd h ty d a s
  | .vredmax h ty d a => Sys2Proof.Machine.execVredmax h ty d a s
  | .vredmin h ty d a => Sys2Proof.Machine.execVredmin h ty d a s
  | .vscan h ty d a op => Sys2Proof.Machine.execVscan h ty d a op s
  | .vhist h ty d a b => Sys2Proof.Machine.execVhist h ty d a b s
  | .vcmprs h ty d a => Sys2Proof.Machine.execVcmprs h ty d a s
  | .vperm h ty d a b => Sys2Proof.Machine.execVperm h ty d a b s
  | .vslide h ty d a b down => Sys2Proof.Machine.execVslide h ty d a b down s
  | .vbcast h ty d a => Sys2Proof.Machine.execVbcast h ty d a s
  | .vext h ty d a b => Sys2Proof.Machine.execVext h ty d a b s
  | .vins h ty d a b => Sys2Proof.Machine.execVins h ty d a b s
  | .viota h ty d a => Sys2Proof.Machine.execViota h ty d a s
  | .vld h ty d m al => Sys2Proof.Machine.execVld h ty d m al s
  | .vst h ty m c => Sys2Proof.Machine.execVst h ty m c s
  | .vgath h ty d a b k al => Sys2Proof.Machine.execVgath h ty d a b k al s
  | .vscat h ty a b k c => Sys2Proof.Machine.execVscat h ty a b k c s
  | .portcfg h port a => Sys2Proof.Machine.execPortcfg h port a s
  | .mand h d a b => Sys2Proof.Machine.execMand h d a b s
  | .mor h d a b => Sys2Proof.Machine.execMor h d a b s
  | .mxor h d a b => Sys2Proof.Machine.execMxor h d a b s
  | .mnot h d a => Sys2Proof.Machine.execMnot h d a s
  | .mpop h ty d a => Sys2Proof.Machine.execMpop h ty d a s
  | .mfirst h ty d a => Sys2Proof.Machine.execMfirst h ty d a s
  | .vord h ty d a => Sys2Proof.Machine.execVord h ty d a s
  | .ldg h ty d m o al => Sys2Proof.Machine.execLdg h ty d m o al s
  | .stg h ty m c o => Sys2Proof.Machine.execStg h ty m c o s
  | .vldg h ty d m o al => Sys2Proof.Machine.execVldg h ty d m o al s
  | .vstg h ty m c o => Sys2Proof.Machine.execVstg h ty m c o s
  | .prefg h m l2 => Sys2Proof.Machine.execPrefg h m l2 s
  | .aadd h ty m c o al => Sys2Proof.Machine.execAadd h ty m c o al s
  | .amin h ty m c o al => Sys2Proof.Machine.execAmin h ty m c o al s
  | .amax h ty m c o al => Sys2Proof.Machine.execAmax h ty m c o al s
  | .aand h ty m c o al => Sys2Proof.Machine.execAand h ty m c o al s
  | .aor h ty m c o al => Sys2Proof.Machine.execAor h ty m c o al s
  | .axor h ty m c o al => Sys2Proof.Machine.execAxor h ty m c o al s
  | .axchg h ty m c o al => Sys2Proof.Machine.execAxchg h ty m c o al s
  | .acas h ty d m c al => Sys2Proof.Machine.execAcas h ty d m c al s
  | .adcas h ty d a b c al => Sys2Proof.Machine.execAdcas h ty d a b c al s
  | .amove h ty d a b al => Sys2Proof.Machine.execAmove h ty d a b al s
  | .aradd h ty a off pair c o al => Sys2Proof.Machine.execAradd h ty a off pair c o al s
  | .armax h ty a off pair c o al => Sys2Proof.Machine.execArmax h ty a off pair c o al s
  | .pbegin h d a k => Sys2Proof.Machine.execPbegin h d a k s
  | .ppair h d a b k => Sys2Proof.Machine.execPpair h d a b k s
  | .pjoin h d a => Sys2Proof.Machine.execPjoin h d a s
  | .pseal h a => Sys2Proof.Machine.execPseal h a s
  | .pabort h a => Sys2Proof.Machine.execPabort h a s
  | .psquash h a b x => Sys2Proof.Machine.execPsquash h a b x s
  | .pinv h d a => Sys2Proof.Machine.execPinv h d a s
  | .pcomm h a b => Sys2Proof.Machine.execPcomm h a b s
  | .pxpl h d a b c mv => Sys2Proof.Machine.execPxpl h d a b c mv s
  | .pdrop h a => Sys2Proof.Machine.execPdrop h a s
  | .pquery h d a al => Sys2Proof.Machine.execPquery h d a al s
  | .nnew h d f => Sys2Proof.Machine.execNnew h d f s
  | .ndest h a => Sys2Proof.Machine.execNdest h a s
  | .nres h d a al => Sys2Proof.Machine.execNres h d a al s
  | .ncas h d a b c al => Sys2Proof.Machine.execNcas h d a b c al s
  | .nmov h f => Sys2Proof.Machine.execNmov h f s
  | .ncmp h d a b => Sys2Proof.Machine.execNcmp h d a b s
  | .cpin h d m al => Sys2Proof.Machine.execCpin h d m al s
  | .cunpin h m => Sys2Proof.Machine.execCunpin h m s
  | .cwb h m l2 => Sys2Proof.Machine.execCwb h m l2 s
  | .cinv h m l2 => Sys2Proof.Machine.execCinv h m l2 s
  | .br h off => Sys2Proof.Machine.execBr h off s
  | .brc h ty a b k off => Sys2Proof.Machine.execBrc h ty a b k off s
  | .jmpi h a => Sys2Proof.Machine.execJmpi h a s
  | .call h d off => Sys2Proof.Machine.execCall h d off s
  | .ret h a => Sys2Proof.Machine.execRet h a s
  | .loop h a off => Sys2Proof.Machine.execLoop h a off s
  | .rotset h v m => Sys2Proof.Machine.execRotset h v m s
  | .trap h code => Sys2Proof.Machine.execTrap h code s
  | .rett h => Sys2Proof.Machine.execRett h s
  | .swait h k => Sys2Proof.Machine.execSwait h k s
  | .ssig h k a => Sys2Proof.Machine.execSsig h k a s
  | .sset h k a => Sys2Proof.Machine.execSset h k a s
  | .sread h d k al => Sys2Proof.Machine.execSread h d k al s
  | .bar h stage => Sys2Proof.Machine.execBar h stage s
  | .comm h m => Sys2Proof.Machine.execComm h m s
  | .fence h scope => Sys2Proof.Machine.execFence h scope s
  | .launch h m => Sys2Proof.Machine.execLaunch h m s
  | .yield h => Sys2Proof.Machine.execYield h s
  | .exit h => Sys2Proof.Machine.execExit h s
  | .eqpush h q m => Sys2Proof.Machine.execEqpush h q m s
  | .eqpushv h q a => Sys2Proof.Machine.execEqpushv h q a s
  | .eqstat h d q => Sys2Proof.Machine.execEqstat h d q s
  | .fpush h a => Sys2Proof.Machine.execFpush h a s
  | .qpop h d q al => Sys2Proof.Machine.execQpop h d q al s
  | .qpush h q a => Sys2Proof.Machine.execQpush h q a s
  | .qstat h d q => Sys2Proof.Machine.execQstat h d q s
  | .estat h d e => Sys2Proof.Machine.execEstat h d e s
  | .xm pd x => Sys2Proof.Machine.execXm pd x s
  | .illegalOpcode w => Sys2Proof.Machine.execIllegalOpcode w s
  | .segld h m => Sys2Proof.Machine.execSegld h m s
  | .seginv h a => Sys2Proof.Machine.execSeginv h a s
  | .htlbinv h a b all => Sys2Proof.Machine.execHtlbinv h a b all s
  | .banksw h => Sys2Proof.Machine.execBanksw h s
  | .banksave h bank m => Sys2Proof.Machine.execBanksave h bank m s
  | .bankload h bank m => Sys2Proof.Machine.execBankload h bank m s
  | .ucload h a => Sys2Proof.Machine.execUcload h a s
  | .quench h a now => Sys2Proof.Machine.execQuench h a now s
  | .qresume h a => Sys2Proof.Machine.execQresume h a s
  | .ckpt h a b k => Sys2Proof.Machine.execCkpt h a b k s
  | .ckres h a => Sys2Proof.Machine.execCkres h a s
  | .keybind h a b => Sys2Proof.Machine.execKeybind h a b s
  | .biasflip h a b dev => Sys2Proof.Machine.execBiasflip h a b dev s
  | .idle h => Sys2Proof.Machine.execIdle h s
  | .halt h => Sys2Proof.Machine.execHalt h s
  | .partset h a b => Sys2Proof.Machine.execPartset h a b s
  | .lit v => Sys2Proof.Machine.execLit v s
  | .ext v => Sys2Proof.Machine.execExt v s
  | .engineIllegalWord w => Sys2Proof.Machine.execEngineIllegalWord w s
  | .popq a => Sys2Proof.Machine.execPopq a s
  | .pushb a => Sys2Proof.Machine.execPushb a s
  | .waitk k => Sys2Proof.Machine.execWaitk k s
  | .sigk k => Sys2Proof.Machine.execSigk k s
  | .setl a => Sys2Proof.Machine.execSetl a s
  | .setb a => Sys2Proof.Machine.execSetb a s
  | .zacc a => Sys2Proof.Machine.execZacc a s
  | .go a => Sys2Proof.Machine.execGo a s
  | .drain a => Sys2Proof.Machine.execDrain a s
  | .amaxc a => Sys2Proof.Machine.execAmaxc a s
  | .layer a => Sys2Proof.Machine.execLayer a s
  | .tload src => Sys2Proof.Machine.execTload src s
  | .tstore src => Sys2Proof.Machine.execTstore src s
  | .tpair src => Sys2Proof.Machine.execTpair src s
  | .egath src => Sys2Proof.Machine.execEgath src s
  | .txpose src => Sys2Proof.Machine.execTxpose src s
  | .cred a => Sys2Proof.Machine.execCred a s
  | .csig k => Sys2Proof.Machine.execCsig k s
  | .usetl a count stride => Sys2Proof.Machine.execUsetl a count stride s
  | .usetb a x => Sys2Proof.Machine.execUsetb a x s
  | .uaddb a d => Sys2Proof.Machine.execUaddb a d s
  | .uzacc a => Sys2Proof.Machine.execUzacc a s
  | .ugo a => Sys2Proof.Machine.execUgo a s
  | .udrain a => Sys2Proof.Machine.execUdrain a s
  | .uamaxc a => Sys2Proof.Machine.execUamaxc a s
  | .usetlc a n => Sys2Proof.Machine.execUsetlc a n s
  | .uloop a target => Sys2Proof.Machine.execUloop a target s
  | .anvilCommandComplete id => Sys2Proof.Machine.execAnvilCommandComplete id s
  | .loadLand tag => Sys2Proof.Machine.execLoadLand tag s
  | .storeAck seq => Sys2Proof.Machine.execStoreAck seq s
  | .remoteSignalApply src sbank jobtag k operand pts => Sys2Proof.Machine.execRemoteSignalApply src sbank jobtag k operand pts s
  | .signalAck err k operand => Sys2Proof.Machine.execSignalAck err k operand s
  | .barrierRelease job die stage inst pts => Sys2Proof.Machine.execBarrierRelease job die stage inst pts s
  | .commStepEnd job stage => Sys2Proof.Machine.execCommStepEnd job stage s
  | .jobPlace job => Sys2Proof.Machine.execJobPlace job s
  | .jobRetire job => Sys2Proof.Machine.execJobRetire job s
  | .jobFail job => Sys2Proof.Machine.execJobFail job s
  | .priorityAging job => Sys2Proof.Machine.execPriorityAging job s
  | .preempt job => Sys2Proof.Machine.execPreempt job s
  | .wrapStep quarter => Sys2Proof.Machine.execWrapStep quarter s
  | .gets r => Sys2Proof.Machine.execGets r s
  | .getm r => Sys2Proof.Machine.execGetm r s
  | .upg r => Sys2Proof.Machine.execUpg r s
  | .putm line die data => Sys2Proof.Machine.execPutm line die data s
  | .puto line die data => Sys2Proof.Machine.execPuto line die data s
  | .puts line die => Sys2Proof.Machine.execPuts line die s
  | .pute line die => Sys2Proof.Machine.execPute line die s
  | .forward line die excl => Sys2Proof.Machine.execForward line die excl s
  | .invalidate line die => Sys2Proof.Machine.execInvalidate line die s
  | .invalidationAck line die data => Sys2Proof.Machine.execInvalidationAck line die data s
  | .coherenceData line core grant data => Sys2Proof.Machine.execCoherenceData line core grant data s
  | .completionNotice line => Sys2Proof.Machine.execCompletionNotice line s
  | .backInvalidate line die => Sys2Proof.Machine.execBackInvalidate line die s
  | .leaseRenew line core => Sys2Proof.Machine.execLeaseRenew line core s
  | .leaseWriteThrough core seq => Sys2Proof.Machine.execLeaseWriteThrough core seq s
  | .homeAtomic core seq => Sys2Proof.Machine.execHomeAtomic core seq s
  | .nameInvalidate name die => Sys2Proof.Machine.execNameInvalidate name die s
  | .nameInvalidateAck name die => Sys2Proof.Machine.execNameInvalidateAck name die s
  | .hostPageFault seq => Sys2Proof.Machine.execHostPageFault seq s
  | .pageRequestTimeout pasid page => Sys2Proof.Machine.execPageRequestTimeout pasid page s
  | .putPacketApply p => Sys2Proof.Machine.execPutPacketApply p s
  | .reducePacketApply p => Sys2Proof.Machine.execReducePacketApply p s
  | .broadcastPacketApply p => Sys2Proof.Machine.execBroadcastPacketApply p s
  | .signalPacketApply p => Sys2Proof.Machine.execSignalPacketApply p s
  | .quenchDeadline job => Sys2Proof.Machine.execQuenchDeadline job s
  | .flaconWriteAck key => Sys2Proof.Machine.execFlaconWriteAck key s
  | .checkpointDurable ckpt => Sys2Proof.Machine.execCheckpointDurable ckpt s
  | .journalDurable mark => Sys2Proof.Machine.execJournalDurable mark s
  | .notifyReread q tries => Sys2Proof.Machine.execNotifyReread q tries s
  | .graceTimeExpiry job => Sys2Proof.Machine.execGraceTimeExpiry job s
  | .partialCollect patch contributor => Sys2Proof.Machine.execPartialCollect patch contributor s
  | .qcwConfigure q v => Sys2Proof.Machine.execQcwConfigure q v s
  | .qcwEnable q v => Sys2Proof.Machine.execQcwEnable q v s
  | .qcwDisable q v => Sys2Proof.Machine.execQcwDisable q v s
  | .ksplitWrite v => Sys2Proof.Machine.execKsplitWrite v s
  | .ptsTick untouched => Sys2Proof.Machine.execPtsTick untouched s
  | .latePatchWrite addr => Sys2Proof.Machine.execLatePatchWrite addr s
  | .pageResponse pasid page ok => Sys2Proof.Machine.execPageResponse pasid page ok s
  | .uncorrectableError addr finder => Sys2Proof.Machine.execUncorrectableError addr finder s
  | .errorResponse code seq => Sys2Proof.Machine.execErrorResponse code seq s
  | .invalidPacketDiscard p => Sys2Proof.Machine.execInvalidPacketDiscard p s
  | .flitRetry link seq => Sys2Proof.Machine.execFlitRetry link seq s
  | .quenchOrder job now => Sys2Proof.Machine.execQuenchOrder job now s
  | .sweepDoneMarker tag link chan => Sys2Proof.Machine.execSweepDoneMarker tag link chan s
  | .saveAreaPacket p => Sys2Proof.Machine.execSaveAreaPacket p s
  | .quenchReport job module => Sys2Proof.Machine.execQuenchReport job module s
  | .latePacket p => Sys2Proof.Machine.execLatePacket p s
  | .heldIncrement tag core k => Sys2Proof.Machine.execHeldIncrement tag core k s
  | .checkpointSlice key bytes => Sys2Proof.Machine.execCheckpointSlice key bytes s
  | .submissionNotify v => Sys2Proof.Machine.execSubmissionNotify v s
  | .launchQueueDescriptorWrite q bytes => Sys2Proof.Machine.execLaunchQueueDescriptorWrite q bytes s
  | .flipAcknowledge id => Sys2Proof.Machine.execFlipAcknowledge id s
  | .hostMemoryWrite line off bytes => Sys2Proof.Machine.execHostMemoryWrite line off bytes s
  | .hostMemoryRead line off len => Sys2Proof.Machine.execHostMemoryRead line off len s
  | .ptsConfigWrite mask v => Sys2Proof.Machine.execPtsConfigWrite mask v s
  | .jobTagAssign tag job => Sys2Proof.Machine.execJobTagAssign tag job s
  | .configWrite off v => Sys2Proof.Machine.execConfigWrite off v s
  | .keyRelease slot => Sys2Proof.Machine.execKeyRelease slot s
  | .microcodeImageVerify addr words signature => Sys2Proof.Machine.execMicrocodeImageVerify addr words signature s
  | .readyMapChange map bit up => Sys2Proof.Machine.execReadyMapChange map bit up s
  | .powerCap steps => Sys2Proof.Machine.execPowerCap steps s
  | .thermalCap steps => Sys2Proof.Machine.execThermalCap steps s
  | .hostSnoop line => Sys2Proof.Machine.execHostSnoop line s
  | .launchRecordWrite q slot bytes => Sys2Proof.Machine.execLaunchRecordWrite q slot bytes s
  | .keyPolicyLoad digest => Sys2Proof.Machine.execKeyPolicyLoad digest s
  | .endw => Sys2Proof.Machine.execEndw s
  | .nopw => Sys2Proof.Machine.execNopw s
  | .dup => Sys2Proof.Machine.execDup s
  | .drop => Sys2Proof.Machine.execDrop s
  | .swap => Sys2Proof.Machine.execSwap s
  | .over => Sys2Proof.Machine.execOver s
  | .callw => Sys2Proof.Machine.execCallw s
  | .retw => Sys2Proof.Machine.execRetw s
  | .lstat => Sys2Proof.Machine.execLstat s
  | .swapp => Sys2Proof.Machine.execSwapp s
  | .tpad => Sys2Proof.Machine.execTpad s
  | .lcopy => Sys2Proof.Machine.execLcopy s
  | .sload => Sys2Proof.Machine.execSload s
  | .sstore => Sys2Proof.Machine.execSstore s
  | .tree => Sys2Proof.Machine.execTree s
  | .cslot => Sys2Proof.Machine.execCslot s
  | .cput => Sys2Proof.Machine.execCput s
  | .cbcast => Sys2Proof.Machine.execCbcast s
  | .uend => Sys2Proof.Machine.execUend s
  | .ulstat => Sys2Proof.Machine.execUlstat s
  | .uswapp => Sys2Proof.Machine.execUswapp s
  | .ustripe => Sys2Proof.Machine.execUstripe s
  | .entryStart => Sys2Proof.Machine.execEntryStart s
  | .entryComplete => Sys2Proof.Machine.execEntryComplete s
  | .impreciseTrapDeliver => Sys2Proof.Machine.execImpreciseTrapDeliver s
  | .arithmeticTrap => Sys2Proof.Machine.execArithmeticTrap s
  | .slotOverrun => Sys2Proof.Machine.execSlotOverrun s
  | .overlayLoad => Sys2Proof.Machine.execOverlayLoad s
  | .bankReturn => Sys2Proof.Machine.execBankReturn s
  | .idleWake => Sys2Proof.Machine.execIdleWake s
  | .eventLogClear => Sys2Proof.Machine.execEventLogClear s
  | .spdmGetMeasurements => Sys2Proof.Machine.execSpdmGetMeasurements s
  | .coldBoot => Sys2Proof.Machine.execColdBoot s
  | .thermalShutdown => Sys2Proof.Machine.execThermalShutdown s
  | .lossOfPower => Sys2Proof.Machine.execLossOfPower s
  | .baseHomeReport => Sys2Proof.Machine.execBaseHomeReport s
  | .hostTlbInvalidateAck => Sys2Proof.Machine.execHostTlbInvalidateAck s

end Sys2Proof.Machine
end

