-- ==== Sys2Proof/Machine/Cycle.lean ====
section
/-!
DEFINITION. Which steps can happen next, which of them does, and what the end of a cycle brings (R58 to R61, R108, R124, R148, R155,
R161, R178, R286, R308, R390). Where the manual leaves an order open a free value chooses (log 1).
-/
namespace Sys2Proof.Machine

/-- What can act. -/
inductive Agent where
  /-- a control stream, or an event of a bank -/
  | stream (core : Nat) (bank : Bool) (i : Instr)
  /-- an engine's next word, start or completion, for a bank -/
  | engine (core : Nat) (bank : Bool) (e : Eng) (i : Instr)
  /-- an access whose turn has come -/
  | access (core : Nat) (a : Access)
  /-- a sector of a stream's local access that takes its memory bank -/
  | sector (core : Nat) (x : LAcc) (p : List LMove)
  /-- a local write of an engine that lands -/
  | lwrite (core : Nat) (w : LWrite)
  /-- an amax update that lands -/
  | amax (core : Nat) (u : AmaxUpd)
  /-- a message or timed event that arrives -/
  | flight (f : Flight)
  /-- what the world outside does next -/
  | input (x : Focus) (i : Instr)
  deriving DecidableEq, Repr

/-! ## Streams (R58, R124, R178) -/

/-- The state in which a control stream takes its turn: it is the acting agent, and does not act again in this cycle. -/
def State.turn (s : State) (core : Nat) (bank : Bool) : State :=
  { s with focus := { core := core, bank := bank, eng := none } }.modCore core (fun c => { c with tried := true })

/-- The word at a bank's pc. -/
def Bank.instr (b : Bank) : Instr := decode80 (b.word b.pc.toNat)

/-- A bank's word would issue, fault or be passed over in this cycle: its turn would change the bank. -/
def State.atBoundary (s : State) (core : Nat) (bank : Bool) (i : Instr) : Bool :=
  match exec i (s.turn core bank) with
  | .next t => t.bankAt core bank != s.bankAt core bank
  | .fault _ | .refused _ => false

/-- What the active bank of a core does: at an issue boundary a trap that is due comes first (R49, R124), then a claimed return of the
other bank (R178); a bank that cannot issue yields to one that can. -/
def State.streamTurn (s : State) (core : Nat) (c : Core) : List Agent :=
  let bank := c.active
  let b := c.bank bank
  let o := c.bank !bank
  if b.runnable then
    if c.tried then []
    else
      let i := b.instr
      let due := b.arithDue.isSome || (!b.imps.isEmpty && !b.trap.act)
      let claim := o.switchClaim && o.runnable
      if !due && !claim then [.stream core bank i]
      else if !s.atBoundary core bank i then [.stream core bank i]
      else if b.arithDue.isSome then [.stream core bank .arithmeticTrap]
      else if due then [.stream core bank .impreciseTrapDeliver]
      else [.stream core (!bank) .bankReturn]
  else if b.away && o.runnable then [.stream core (!bank) .bankReturn] else []

/-- The idle banks of a core that an event has woken (R340). -/
def streamWakes (core : Nat) (c : Core) : List Agent :=
  [false, true].filterMap (fun b => if (c.bank b).status == .idle && (c.bank b).woken then some (.stream core b .idleWake) else none)

/-! ## Engines (R68, R197, R233) -/

/-- The engine word at a local address. -/
def Core.engWordAt (c : Core) (e : Eng) (a : Nat) : Instr := decode16 e (BitVec.ofNat 16 (Memory.readNat c.mem a 2))

/-- The next word or micro-operation of an entry. -/
def Core.engInstr (c : Core) (e : Eng) (n : Entry) : Instr :=
  match n.layer with
  | some (_, a) => if a ≥ 4096 then .engineIllegalWord 0 else (decodeMicro ((Sparse.find c.ucode a).getD 0)).getD (.engineIllegalWord 0)
  | none => match n.at_ with
    | .entry k => c.engWordAt e (c.entryAddr n + 4 + 2 * k)
    | .routine base off => if off ≥ 2048 || base + 2 * off ≥ localSize then .engineIllegalWord 0 else c.engWordAt e (base + 2 * off)

/-- What an engine of a core does. -/
def State.engineTurn (s : State) (core : Nat) (c : Core) (e : Eng) : List Agent :=
  let x := c.engine e
  if x.tried || x.frozen then []
  else match x.cur with
    | none => if c.canStart s.cycle e then [.engine core false e .entryStart] else []
    | some n =>
      if c.engHeld e then []
      else if n.done then (if c.canComplete e then [.engine core n.bank e .entryComplete] else [])
      else [.engine core n.bank e (c.engInstr e n)]

/-! ## Accesses, local writes and messages -/

/-- The accesses of a core whose turn has come (R312 to R317, R390). -/
def accessTurns (core : Nat) (c : Core) : List Agent :=
  (c.accs.filter (fun a => a.state == .waiting && !a.tried && c.mayPerform a)).map (.access core)

/-- The local writes that want their memory bank in a cycle: writes of one engine to one byte keep their order. -/
def writeWants (cycle : Nat) : List LWrite → List LWrite → List LWrite
  | _, [] => []
  | before, w :: r =>
    let rest := writeWants cycle (before ++ [w]) r
    if w.due ≤ cycle && !before.any (fun x => x.eng == w.eng && rangesMeet x.addr x.bytes.length w.addr w.bytes.length) then w :: rest
    else rest

/-- What a local write asks of its memory bank. -/
def LWrite.grant (w : LWrite) : Grant := { who := Eng.asker w.eng, no := 0, block := w.addr / 64 }

/-- The sectors of stream accesses, and the local writes, whose memory banks can serve them now (R148). -/
def localTurns (cycle core : Nat) (c : Core) : List Agent :=
  ((c.localWants cycle).filter (fun x => c.mayTake (x.1.grant x.2))).map (fun x => .sector core x.1 x.2)
    ++ ((writeWants cycle [] c.lwrites).filter (fun w => c.mayTake w.grant)).map (.lwrite core)

/-- The amax updates that can land. -/
def amaxTurns (cycle core : Nat) (c : Core) : List Agent := (c.amaxUpds.filter (fun u => u.due ≤ cycle)).map (.amax core)

/-- A message or event is due: by its cycle, and by the reference clock where its time is one in seconds (R1). -/
def Flight.ripe (f : Flight) (cycle refTime : Nat) : Bool := f.due ≤ cycle && f.ref.all (fun r => r ≤ refTime)

/-- The messages and events that arrive: on a channel only the oldest (R286, R357). -/
def flightTurns (cycle refTime : Nat) : List (Nat × Nat × Nat) → List Flight → List Agent
  | _, [] => []
  | chans, f :: r =>
    let rest := flightTurns cycle refTime (f.chan.toList ++ chans) r
    if f.ripe cycle refTime && !f.chan.any chans.contains then .flight f :: rest else rest

/-! ## What comes from outside -/

/-- The steps that the world outside can bring: host, links, board, security block, configuration space. -/
def external : Instr → Bool
  | .pageResponse _ _ _ | .uncorrectableError _ _ | .errorResponse _ _ | .invalidPacketDiscard _ | .flitRetry _ _ | .quenchOrder _ _
  | .sweepDoneMarker _ _ _ | .saveAreaPacket _ | .quenchReport _ _ | .latePacket _ | .heldIncrement _ _ _ | .checkpointSlice _ _
  | .submissionNotify _ | .launchQueueDescriptorWrite _ _ | .flipAcknowledge _ | .hostMemoryWrite _ _ _ | .hostMemoryRead _ _ _
  | .ptsConfigWrite _ _ | .jobTagAssign _ _ | .configWrite _ _ | .keyRelease _ | .microcodeImageVerify _ _ _ | .readyMapChange _ _ _
  | .powerCap _ | .thermalCap _ | .hostSnoop _ | .launchRecordWrite _ _ _ | .keyPolicyLoad _ | .eventLogClear | .spdmGetMeasurements
  | .coldBoot | .thermalShutdown | .lossOfPower | .putPacketApply _ | .reducePacketApply _ | .broadcastPacketApply _
  | .signalPacketApply _ | .signalAck _ _ _ | .latePatchWrite _ | .nameInvalidate _ _ => true
  | _ => false

/-- A host access waits while its line is in the middle of a transaction. -/
def State.inputWaits (s : State) (i : Instr) : Bool :=
  match i with
  | .hostMemoryWrite l _ _ | .hostMemoryRead l _ _ | .hostSnoop l => s.anyBusy [l]
  | _ => false

/-- The next of the world's steps. -/
def State.inputTurn (s : State) : List Agent :=
  match s.inputs with
  | [] => []
  | (x, i) :: _ => if s.inputWaits i then [] else [.input x i]

/-! ## The choice -/

/-- A landing of a tagged result: it comes before everything else in its cycle, so that a word that waits for it can issue then (R187). -/
def lands : Agent → Bool
  | .flight f => match f.ev with
    | .loadLand _ => true
    | _ => false
  | .stream _ _ _ | .engine _ _ _ _ | .access _ _ | .sector _ _ _ | .lwrite _ _ | .amax _ _ | .input _ _ => false

/-- The agents of one core. -/
def State.coreTurns (s : State) (p : Nat × Core) : List Agent :=
  let (i, c) := p
  s.streamTurn i c ++ streamWakes i c ++ allEngines.flatMap (s.engineTurn i c) ++ accessTurns i c ++ localTurns s.cycle i c
    ++ amaxTurns s.cycle i c

/-- Every agent that can act now. -/
def State.turns (s : State) : List Agent := s.cores.flatMap s.coreTurns ++ flightTurns s.cycle s.refTime [] s.flights ++ s.inputTurn

/-- One of some agents, by a free value where there are several. -/
def State.pick (s : State) : List Agent → Option (Agent × State)
  | [] => none
  | [a] => some (a, s)
  | a :: l => some ((a :: l).getD (Config.choice s.free % (l.length + 1)) a, s.tick)

/-- The agent that acts next. -/
def State.chosen (s : State) : Option (Agent × State) :=
  let l := s.turns
  match l.filter lands with
  | [] => s.pick l
  | t => s.pick t

/-- An agent acts. -/
def State.act (s : State) : Agent → Out
  | .stream core bank i => exec i (s.turn core bank)
  | .engine core bank e i => exec i { s with focus := { core := core, bank := bank, eng := some e } }
  | .access core a => .next (s.serve core a)
  | .sector core x p => .next (s.performSector core x p)
  | .lwrite core w =>
    .next (s.modCore core (fun c => { c.take w.grant with lwrites := c.lwrites.erase w }.storeLocal w.bank w.addr w.bytes))
  | .amax core u => .next (s.modCore core (fun c => { c with amaxUpds := c.amaxUpds.erase u }.modBank u.bank (fun b => b.updateAmax u.reg u.val)))
  | .flight f => exec f.ev { s with flights := s.flights.erase f, focus := { core := f.core, bank := f.bank, eng := f.eng } }
  | .input x i =>
    let s := { s with inputs := s.inputs.tail, focus := x }
    if external i then exec i s else .next s

/-- The core at which an agent acts. -/
def Agent.core : Agent → Nat
  | .stream c _ _ | .engine c _ _ _ | .access c _ | .sector c _ _ | .lwrite c _ | .amax c _ => c
  | .flight f => f.core
  | .input x _ => x.core

/-! ## The end of a cycle -/

/-- A result whose value is sampled when it is due (R108, R165, R169). -/
def State.sampled (s : State) (core : Nat) (bank : Bool) (x : RVal) : RVal :=
  match x with
  | .sample y =>
    let c := s.core core
    .word (match y with
      | .csr n => (s.csr core bank n).getD 0
      | .eqstat q => c.eqstatWord bank q
      | .qstat q => c.qstatWord bank q
      | .estat e => c.estatWord e
      | .sem k => (c.sem k).setWidth 64)
  | .word _ | .vec _ _ | .mask _ _ | .cond _ | .name _ | .patchReg _ => x

/-- A result that is due is written, its flags merge, and its tag is free (R48, R59, R62). -/
def Bank.land (b : Bank) (w : PendWrite) (v : RVal) : Bank :=
  let b := match w.dst with
    | none => b
    | some d => b.put d v
  let b := if w.tag = 0 then b else { b with tags := b.tags.filter (fun t => t.tag != w.tag) }
  if w.flags = 0 then b else b.completeFlags w.flags w.pc w.vecUnit

/-- The results of a bank that are due in this cycle. -/
def Bank.dueWrites (b : Bank) (cycle : Nat) : List PendWrite := b.writes.filter (fun w => w.due ≤ cycle)

/-- SREAD acquires what the units that it counts carry (R169, R319). -/
def State.acquireSample (s : State) (core : Nat) (x : RVal) : State :=
  match x with
  | .sample (.sem k) => ((Sparse.find (s.core core).semPts k.toNat).getD []).foldl (fun s u => if u.2 then s.bumpPts core u.1 else s) s
  | _ => s

/-- A result that is a sample, taken when the cycle's other effects stand (R108, R165). -/
def PendWrite.samples (w : PendWrite) : Bool :=
  match w.val with
  | .sample _ => true
  | .word _ | .vec _ _ | .mask _ _ | .cond _ | .name _ | .patchReg _ => false

/-- The results of a bank that are due are written, in issue order (R59); a sample sees what the other words deliver in the same cycle
(R108, R165; log 19). -/
def State.landBank (s : State) (core : Nat) (bank : Bool) : State :=
  let l := (s.bankAt core bank).dueWrites s.cycle
  if l.isEmpty then s
  else
    let seen := s.modBankAt core bank (fun b => (l.filter (fun w => !w.samples)).foldl (fun b w => b.land w w.val) b)
    let vals := l.map (fun w => (w, seen.sampled core bank w.val))
    let s := l.foldl (fun s w => s.acquireSample core w.val) s
    s.modBankAt core bank (fun b => vals.foldl (fun b x => b.land x.1 x.2)
      { b with writes := b.writes.filter (fun w => !decide (w.due ≤ s.cycle)) })

/-- A port reads one sector, if its memory bank is free in this cycle (R148, R155). -/
def Core.readPort (c : Core) (bank : Bool) (i : Fin 12) (x : Nat × Nat × Nat) : Core :=
  match (c.bank bank).ports[i] with
  | none => c
  | some p =>
    if p.ahead.any (fun y => y.key == x.1) || !c.mayTake (portGrant x.2.1) then c
    else
      let y : Ahead := { key := x.1, addr := x.2.1, bytes := Memory.readBytes c.mem x.2.1 x.2.2, stale := false }
      ((c.take (portGrant x.2.1)).touch bank x.2.1 x.2.2).modBank bank (fun b =>
        { b with ports := b.ports.set i (some { p with ahead := p.ahead ++ [y] }) })

/-- A sector that a port may read ahead, by two free values. -/
def Port.someSector (p : Port) (free : Nat) : List (Nat × Nat × Nat) :=
  if p.next ≥ p.total then []
  else
    let l := p.pieces (p.next + Config.choice free % (p.total - p.next))
    (l[Config.choice (free + 1) % Nat.max 1 l.length]?).toList

/-- The input ports of a bank at the end of a cycle: one for whose vector a word waits reads what it can, and any port reads some sectors
ahead, or none (R155). -/
def State.portsAhead (s : State) (core : Nat) (bank : Bool) : State :=
  (List.finRange 8).foldl (fun (s : State) i =>
    let k : Fin 12 := ⟨i.val, by omega⟩
    match (s.bankAt core bank).ports[k] with
    | none => s
    | some p =>
      let asked := if (s.core core).asks.contains (bank, i) then p.missing else []
      let free := (List.range (Config.choice s.free % 9)).flatMap (fun j => p.someSector (s.free + 1 + 2 * j))
      { s with free := s.free + 19 }.modCore core (fun c => (asked ++ free).foldl (fun c x => c.readPort bank k x) c)) s

/-! ## Arbitration of the memory banks (R148) -/

/-- The blocks that requesters still want at the end of a cycle. -/
def Core.unserved (c : Core) (cycle : Nat) : List (Nat × Nat) :=
  (c.localWants cycle).map (fun x => (0, blockOf x.2))
    ++ c.asks.flatMap (fun x => ((c.bank x.1).portNeeds [x.2]).map (fun g => (portAsker, g.block)))
    ++ (writeWants cycle [] c.lwrites).map (fun w => (Eng.asker w.eng, w.addr / 64))
    ++ allEngines.flatMap (fun e => (c.sourceWants e).map (fun b => (Eng.asker e, b)))

/-- A cycle of arbitration ends: whoever still wants a memory bank has waited while it served another. -/
def Core.arbitrate (c : Core) (cycle : Nat) : Core :=
  let wants := dedup ((c.unserved cycle).map (fun x => (x.1, unitOf x.2)))
  let wait (x : Nat × Nat) : BankWait :=
    let before := (c.waits.find? (fun w => w.who == x.1 && w.unit == x.2)).map (fun w => w.served)
    let now := (c.grants.filter (fun g => unitOf g.block == x.2)).map (fun g => g.who)
    { who := x.1, unit := x.2, served := if now.contains x.1 then [] else dedup (before.getD [] ++ now) }
  { c with grants := [], waits := (wants.map wait).filter (fun w => !w.served.isEmpty), asks := [] }

/-- What lasts for one cycle only is over. -/
def Core.refresh (c : Core) (cycle : Nat) : Core :=
  let again (e : Engine) : Engine := { e with tried := false }
  let calm (b : Bank) : Bank := { b with amaxNow := Vector.replicate 4 none }
  { c with tried := false, anvil := again c.anvil, copy := again c.copy, coll := again c.coll, bank0 := calm c.bank0, bank1 := calm c.bank1
           accs := c.accs.map (fun (a : Access) => { a with tried := false }), cmds := c.cmds.filter (fun k => !decide (k.due ≤ cycle)) }

/-- The traps of the flags that this cycle merged are raised (R48, R49). -/
def Core.settle (c : Core) : Core := { c with bank0 := c.bank0.settle, bank1 := c.bank1.settle }

/-- The end of a cycle on one core. -/
def State.endCore (s : State) (core : Nat) : State :=
  let s := (((s.landBank core false).landBank core true).portsAhead core false |>.portsAhead core true).cmdReads core
  let s := (((s.applyCsrws core false).applyCsrws core true).endFence core false).endFence core true
  s.modCore core (fun c => (c.settle.arbitrate s.cycle).refresh s.cycle)

/-- A core's tick period ends in this cycle (R308). -/
def Core.ticks (c : Core) (cycle : Nat) : Bool := c.tick.toNat != 0 && decide (c.tickAt + c.tick.toNat ≤ cycle)

/-- The cores whose tick period ends. -/
def State.ticking (s : State) : List Nat := s.cores.filterMap (fun p => if p.2.ticks s.cycle then some p.1 else none)

/-- PTS_TICK of a core, or of those that nothing has touched. -/
def State.tickCore (s : State) (core : Option Nat) : State :=
  match execPtsTick core.isNone { s with focus := { s.focus with core := core.getD 0 } } with
  | .next s => s
  | .fault _ | .refused _ => s

/-- Every clock whose period ends ticks. -/
def State.tickAll (s : State) : State :=
  let s := s.ticking.foldl (fun (s : State) i => s.tickCore (some i)) s
  if s.blank.ticks s.cycle then s.tickCore none else s

/-- Some clock ticks in this cycle. -/
def State.ticksDue (s : State) : Bool := !s.ticking.isEmpty || s.blank.ticks s.cycle

/-- The errors that this cycle corrects are counted, each for its die or stack (R335). -/
def State.countCorrected (s : State) : State :=
  { s with
    corrected := (s.ecc.headD []).foldl (fun m u => Sparse.put m u ((Sparse.find m u).getD 0 + 1)) s.corrected
    ecc := s.ecc.tail }

/-- The cycle ends: results that are due are written, a quench or an eviction moves on, and the next cycle begins. -/
def State.endCycle (s : State) : State :=
  let s := (s.cores.map (fun p => p.1)).foldl State.endCore s
  let s := s.quenchTick.evictTick.countCorrected
  { s with cycle := s.cycle + 1, refTime := s.refTime + microUnits / s.clockMHz }

end Sys2Proof.Machine
end

