-- ==== Sys2Proof/Machine/Step.lean ====
section
/-!
DEFINITION. One step of the machine, and the state in which a given word is the next to be fetched.
-/
namespace Sys2Proof.Machine

/-- One step: an agent that can act acts; where none can, the clocks that are due tick, and then the cycle ends. -/
def step (s : State) : Host.Outcome State Fault Refusal :=
  match s.chosen with
  | some (a, s) => if a.core ≥ 2048 then .fault (.noSuchCore a.core) else s.act a
  | none => .next (if s.ticksDue then s.tickAll else s.endCycle)

/-- The number of the job that `withFetch` places. -/
def fetchJob : Job :=
  { id := 0, name := 0
    rcd := { image := 0, params := 0, segtab := 0, needs := 0, lqgrant := 0, shape := 0, policy := 0, preds := [] }
    lq := 0, priv := true, pasid := none, state := .running, accepted := 0, started := 0, aged := 0, tag := 1, cores := [(0, false)]
    report := none, lastCkpt := none, reserved := [], pts := none, segs := [], params := [], evictFor := none }

/-- Core 0 with a running job in bank 0, nothing else to do, and nothing due before its next word. -/
def State.fetchReady (s : State) : State :=
  let quiet (e : Engine) : Engine := { e with cur := none, tried := false, frozen := false, sched := none }
  let core (c : Core) : Core :=
    { c with active := false, tried := false, accs := [], lwrites := [], amaxUpds := [], resumes := [], sends := []
             anvil := quiet c.anvil, copy := quiet c.copy, coll := quiet c.coll }
  let bank (b : Bank) : Bank :=
    { b with job := some 0, status := .running, priv := true, stopEng := false, arith := [], imps := [], bound := s.cycle
             prevIssue := 0, pc := 0, tags := [], writes := [] }
  let s := { s with jobs := [fetchJob], flights := [], inputs := [] }
  { s with cores := [(0, (core (s.core 0)).modBank false bank)] }

/-- The word stands at the pc of core 0's bank 0. -/
def State.fetchStream (s : State) (w : Word80) : State :=
  s.fetchReady.modBankAt 0 false (fun b => { b with istore := [(0, w)] })

/-- An entry of one word stands at the head of an engine's queue and is in progress. -/
def State.fetchEntry (s : State) (e : Eng) (layer : Option (Fin 4 × Nat)) (w : EngWord) : State :=
  let q : QCode := match e with
    | .anvil => .anvil
    | .copy => .copy0
    | .coll => .coll
  let s := s.fetchReady.modBankAt 0 false (fun b => { b with status := .idle, woken := false }.setQueue q
    { Queue.reset with en := true, count := 1, hd := .started })
  let n : Entry := { Entry.begin false q 0 1 0 none with layer := layer }
  s.modCore 0 (fun c => { c.setEngine e { c.engine e with cur := some n } with mem := Memory.writeBytes c.mem 0 (leBytes 4 1 ++ leBytes 2 w.toNat) })

/-- The engine that reads a word: the first of the three whose word it is. -/
def engineFor (w : EngWord) : Eng :=
  if (decodeEngWord .anvil w).isSome then .anvil
  else if (decodeEngWord .copy w).isSome then .copy else .coll

/-- The state with an instruction of `nbits` bits as the next one fetched: a control-stream word at the pc of core 0's bank 0, an engine
word as the only word of an entry in progress, a micro-operation at address 0 of the microcode store inside a LAYER. -/
def State.withFetchWord (s : State) (nbits w : Nat) : State :=
  if nbits = 64 then
    (s.fetchEntry .anvil (some (0, 0)) 0).modCore 0 (fun c => { c with ucode := [(0, BitVec.ofNat 64 w)], ucodeName := some 0 })
  else if nbits = 16 then s.fetchEntry (engineFor (BitVec.ofNat 16 w)) none (BitVec.ofNat 16 w)
  else s.fetchStream (BitVec.ofNat 80 w)

end Sys2Proof.Machine
end

