-- ==== Sys2Proof/Safety.lean ====
section
/-!
DEFINITION. What a safe run is, the invariants of the state that claims are stated with, what each control-stream word needs, and
what it means that an instruction completes.
-/
namespace Sys2Proof.Machine

/-- A step that neither faults nor is refused: every fault of R332 is taken inside the machine. -/
def Completes (o : Host.Outcome State Fault Refusal) : Prop := ∃ t, o = .next t

/-- A run from a state is safe when none of its steps stops the model. -/
def SafeRun (s : State) : Prop := ∀ k, Completes (Host.Core.run Sys2Proof.core k s)

/-- Every memory of the module is in its canonical form. -/
def State.memWf (s : State) : Bool :=
  Memory.wf s.hbm && Memory.wf s.hostMem && Memory.wf s.lqSlots && s.cores.all (fun p => Memory.wf p.2.mem) && Memory.wf s.blank.mem
    && s.slices.all (fun p => Memory.wf p.2.staging) && Memory.wf s.blankSlice.staging

/-- The agent that performs a step is one of a core that exists (R8, R11). -/
def State.focusExists (s : State) : Prop := s.focus.core < 2048

/-! ## What each control-stream word needs (R55 to R62, R97) -/

/-- The needs of a control-stream word, from its row of R88 to R92; none for a step of another kind, for an XM pair, for BAR and
for a word that is no instruction. -/
def needOf : Instr → Option Need
  | .nop h | .rotset h _ _ | .swait h _ | .yield h | .fence h _ => some (Need.of h)
  | .add h _ d a b | .sub h _ d a b | .min h _ d a b | .max h _ d a b =>
    some ((Need.of h).s a |>.sb b |>.ds d 1 |>.div false)
  | .mul h _ d a b | .mulh h _ d a b => some ((Need.of h).s a |>.sb b |>.ds d 3 |>.div false)
  | .div h _ d a b | .rem h _ d a b => some ((Need.of h).s a |>.sb b |>.ds d 24 |>.div true)
  | .and h d a b | .or h d a b | .xor h d a b | .andn h d a b | .shl h d a b | .shr h d a b | .sar h d a b
  | .rot h d a b => some ((Need.of h).s a |>.sb b |>.ds d 1)
  | .clz h d a | .popc h d a | .movi h d a _ _ => some ((Need.of h).s a |>.ds d 1)
  | .sel h d a b c => some ((Need.of h).c a |>.s b |>.s c |>.ds d 1)
  | .cmp h _ d a b _ => some ((Need.of h).s a |>.sb b |>.dc d 1)
  | .lea h d m => some ((Need.of h).addr m |>.ds d 1)
  | .ld h _ d m al => some ((Need.of h).addr m |>.dTag d 5 |>.tag al |>.local)
  | .st h _ m c => some ((Need.of h).addr m |>.s c |>.local)
  | .csrr h d _ | .eqstat h d _ | .qstat h d _ | .estat h d _ => some ((Need.of h).ds d 2)
  | .csrw h _ a | .sset h _ a | .fpush h a => some ((Need.of h).s a)
  | .cand h d a b | .cor h d a b | .cxor h d a b => some ((Need.of h).c a |>.c b |>.dc d 1)
  | .fadd h _ d a b | .fmul h _ d a b | .fmin h _ d a b | .fmax h _ d a b =>
    some ((Need.of h).s a |>.sb b |>.ds d 4)
  | .ffma h _ d a b c => some ((Need.of h).s a |>.s b |>.s c |>.ds d 4)
  | .fcvt h _ _ d a => some ((Need.of h).s a |>.ds d 6)
  | .fcmp h _ d a b _ => some ((Need.of h).s a |>.sb b |>.dc d 4)
  | .ftolog h _ _ d a b | .ffromlog h _ _ d a b => some ((Need.of h).s a |>.s b |>.ds d 6)
  | .vadd h ty d a b | .vsub h ty d a b | .vmin h ty d a b | .vmax h ty d a b =>
    some (((Need.ofV h).v a |>.vb b).dv d (arithLat ty 2 4))
  | .vmul h ty d a b => some (((Need.ofV h).v a |>.vb b).dv d (arithLat ty 4 4))
  | .vfma h _ d a b c => some (((Need.ofV h).v a |>.v b |>.v c).dv d 4)
  | .vrcp h _ d a | .vrsq h _ d a | .vexp2 h _ d a | .vlog2 h _ d a => some (((Need.ofV h).v a).dv d 8)
  | .vand h _ d a b | .vor h _ d a b | .vxor h _ d a b | .vshl h _ d a b | .vshr h _ d a b | .vsar h _ d a b =>
    some (((Need.ofV h).v a |>.vb b).dv d 2)
  | .vcmp h ty d a b _ => some ((Need.ofV h).v a |>.vb b |>.dm d (arithLat ty 2 2))
  | .vsel h _ d a b c => some (((Need.ofV h).m a |>.v b |>.v c).dv d 2)
  | .vcvt h _ _ d a | .vbscale h _ _ d a | .vord h _ d a => some (((Need.ofV h).v a).dv d 6)
  | .vtolog h _ _ d a b | .vfromlog h _ _ d a b | .vqnt h _ _ d a b | .vdqnt h _ _ d a b =>
    some (((Need.ofV h).v a |>.v b).dv d 6)
  | .vredadd h _ d a | .vredmax h _ d a | .vredmin h _ d a | .vscan h _ d a _ => some ((Need.ofV h).v a |>.dv d 12)
  | .vhist h _ d a b => some (((Need.ofV h).v a |>.sb b).dv d 8)
  | .vcmprs h _ d a => some (((Need.ofV h).v a).dv d 3)
  | .vperm h _ d a b => some (((Need.ofV h).v a |>.v b).dv d 3)
  | .vslide h _ d a b _ => some ((((Need.ofV h).v a).sb b).dv d 3)
  | .vbcast h _ d a | .viota h _ d a => some ((Need.ofV h).s a |>.dv d 3)
  | .vext h _ d a b => some ((Need.ofV h).v a |>.sb b |>.ds d 3)
  | .vins h _ d a b => some ((Need.ofV h).v (.v d) |>.s a |>.sb b |>.dv (.v d) 3)
  | .mand h d a b | .mor h d a b | .mxor h d a b => some ((Need.ofV h).m a |>.m b |>.dm d 2)
  | .mnot h d a => some ((Need.ofV h).m a |>.m a |>.dm d 2)
  | .mpop h _ d a | .mfirst h _ d a => some ((Need.ofV h).m a |>.ds d 2)
  | .vld h _ d m al => some ((Need.ofV h).addr m |>.dvTag d 6 |>.tag al |>.local)
  | .vst h _ m c => some ((Need.ofV h).addr m |>.v c |>.local)
  | .vgath h _ d a b _ al => some ((Need.ofV h).s a |>.v b |>.dvTag d 8 |>.tag al |>.local)
  | .vscat h _ a b _ c => some ((Need.ofV h).s a |>.v b |>.v c |>.local)
  | .portcfg h _ a => some ((Need.ofV h).s a |>.local)
  | .ldg h _ d m o al => some ((Need.of h).addr m |>.ldMod o |>.dTag d 30 |>.tag al |>.globalMem)
  | .vldg h _ d m o al => some ((Need.ofV h).addr m |>.ldMod o |>.dvTag d 30 |>.tag al |>.globalMem)
  | .stg h _ m c o => some ((Need.of h).addr m |>.s c |>.stDst o |>.globalMem)
  | .vstg h _ m c o => some ((Need.ofV h).addr m |>.v c |>.stDst o |>.globalMem)
  | .prefg h m _ | .cunpin h m | .cwb h m _ | .cinv h m _ => some ((Need.of h).addr m |>.globalMem)
  | .cpin h d m al => some ((Need.of h).addr m |>.dTag d 1 |>.tag al |>.globalMem)
  | .aadd h _ m c (.mmc _) al | .amin h _ m c _ al | .amax h _ m c _ al | .aand h _ m c _ al | .aor h _ m c _ al
  | .axor h _ m c _ al | .axchg h _ m c _ al => some ((Need.of h).addr m |>.s c |>.tag al |>.globalMem)
  | .aadd h _ m c (.patch p) al => some ((Need.of h).addr m |>.s c |>.stDst (.patch p) |>.tag al |>.globalMem)
  | .acas h _ d m c al => some ((Need.of h).addr m |>.s c |>.s (.s d) |>.tag al |>.globalMem)
  | .adcas h _ d a b c al =>
    some ((Need.of h).s a |>.s b |>.s (.s (pairRegs d).1) |>.s (.s (pairRegs d).2) |>.s (.s (pairRegs c).1) |>.s (.s (pairRegs c).2)
      |>.tag al |>.globalMem)
  | .aradd h _ a _ pair c o al | .armax h _ a _ pair c o al => some (rowNeed h a pair c o al)
  | .amove h _ d a b al => some ((Need.of h).s a |>.s b |>.dTag d 30 |>.tag al |>.globalMem)
  | .pbegin h d a _ | .pjoin h d a => some ((Need.of h).n a |>.p (.p d))
  | .ppair h d a b _ => some ((Need.of h).n a |>.n b |>.p (.p d))
  | .pseal h a | .pabort h a => some ((Need.of h).p a)
  | .psquash h a b _ | .pcomm h a b | .ncmp h _ a b => some ((Need.of h).n a |>.n b)
  | .pinv h _ a | .pdrop h a | .ndest h a => some ((Need.of h).n a)
  | .pxpl h _ a b c _ => some ((Need.of h).n a |>.n b |>.s c)
  | .pquery h d a al => some ((Need.of h).n a |>.tag al |>.dTag d 1 |>.local)
  | .nnew h _ (.tensor a) => some ((Need.of h).s a |>.globalMem)
  | .nnew h _ (.cellseg a) => some ((Need.of h).s a)
  | .nnew h _ (.aliasName a) => some ((Need.of h).n a)
  | .nres h d a al => some ((Need.of h).n a |>.dnTag d 4 |>.tag al |>.local)
  | .ncas h d a b c al => some ((Need.of h).n a |>.n b |>.n c |>.dcTag d 4 |>.tag al |>.local)
  | .nmov h (.nn _ a) | .nmov h (.sn _ a) | .nmov h (.h _ a) => some ((Need.of h).n a)
  | .nmov h (.np _ a) => some ((Need.of h).p a)
  | .nmov h (.ns _ a) => some ((Need.of h).s (.s (pairRegs a).1) |>.s (.s (pairRegs a).2))
  | .nmov h (.ld _ m _) => some ((Need.of h).addr m |>.globalMem)
  | .nmov h (.st m c _) => some ((Need.of h).addr m |>.n c |>.globalMem)
  | .br h _ | .trap h _ | .rett h | .exit h => some (Need.of h).ends
  | .brc h _ a b _ _ => some ((Need.of h).s a |>.s b |>.ends)
  | .jmpi h a | .ret h a => some ((Need.of h).s a |>.ends)
  | .call h d _ => some ((Need.of h).ds d 1 |>.ends)
  | .loop h a _ => some ((Need.of h).s (.s a) |>.ds (.s a) 1 |>.ends)
  | .ssig h _ none => some (Need.of h).local
  | .ssig h _ (some r) => some ((Need.of h).s r |>.local)
  | .sread h d _ al => some ((Need.of h).ds d 2 |>.tag al |>.local)
  | .eqpush h _ m | .launch h m | .comm h m => some ((Need.of h).addr m |>.local)
  | .eqpushv h _ a => some ((Need.of h).v a |>.local)
  | .qpop h d _ al => some ((Need.of h).dTag d 2 |>.tag al |>.local)
  | .qpush h q a => some ((Need.of h).s a |>.ds (.aq q) 1)
  | .banksw h | .idle h => some (Need.of h).privileged
  | .halt h => some ((Need.of h).privileged |>.ends)
  | .segld h m | .banksave h _ m | .bankload h _ m => some ((Need.of h).addr m |>.privileged |>.globalMem)
  | .seginv h a => some ((Need.of h).s a |>.privileged)
  | .htlbinv h a b _ | .keybind h a b | .biasflip h a b _ | .partset h a b =>
    some ((Need.of h).s a |>.s b |>.privileged)
  | .ucload h a | .quench h a _ | .qresume h a => some ((Need.of h).n a |>.privileged)
  | .ckpt h a b _ => some ((Need.of h).n (.n a) |>.s b |>.privileged)
  | .ckres h a => some ((Need.of h).n (.n a) |>.privileged)
  | _ => none

/-! ## What it says that an instruction completes -/

/-- In every state in which the word has all that it needs to issue, the instruction answers a next state: the one that `post` gives
from the state before and the state in which the word has issued and pc has moved on. -/
def Gives (i : Instr) (post : State → State → State) : Prop :=
  ∀ n s, needOf i = some n → s.classify n none = .go → exec i s = .next (post s (s.advance n none))

/-- The same where the operands also meet a condition, read in the state in which the word has issued. -/
def GivesIf (i : Instr) (cond : State → Prop) (post : State → State → State) : Prop :=
  ∀ n s, needOf i = some n → s.classify n none = .go → cond (s.advance n none) → exec i s = .next (post s (s.advance n none))

/-- The state in which an engine's word takes its effect: the engine has had its turn in this cycle. -/
def wordState (s : State) : State := s.modEngine (fun x => { x with tried := true })

/-- Where the acting engine holds an entry and a condition on it and the state holds, the word completes: `post` gives the entry, at its next
word, and the state around it. -/
def EngGives (i : Instr) (cond : Entry → State → Prop) (post : Entry → State → Entry × State) : Prop :=
  ∀ s n, s.engine.cur = some n → cond n (wordState s) →
    exec i s = .next ((post n (wordState s)).2.modEngine (fun x => { x with cur := some (post n (wordState s)).1 }))

end Sys2Proof.Machine
end

