-- ==== Sys2Proof/Certificates/Slice0/Obligations.lean ====
section
/-!
DEFINITION. The statements for the provers: for each instruction the next state of its own effect; then the frames, the laws of
the shared operations, the traps, the encodings and the invariants.
-/
open Sys2Proof Sys2Proof.Machine

namespace Sys2Proof.Machine

/-- A scalar result of one source. -/
def give1 (d : SDst) (a : SSrc) (lat : Nat) (f : Word → Word × FlagSet) (s t : State) : State :=
  let r := f (t.readS a).1
  (t.readS a).2.resultS d r.1 lat r.2 s.bank.pc

/-- A scalar result of two sources, source a read first. -/
def give2 (imm : BitVec 16 → Word) (d : SDst) (a : SSrc) (b : SrcB) (lat : Nat) (f : Word → Word → Word × FlagSet) (s t : State) : State :=
  let t' := (t.readS a).2
  let r := f (t.readS a).1 (t'.readB imm b).1
  (t'.readB imm b).2.resultS d r.1 lat r.2 s.bank.pc

/-- A condition result of two scalar sources. -/
def giveCond (imm : BitVec 16 → Word) (d : Fin 8) (a : SSrc) (b : SrcB) (lat : Nat) (f : Word → Word → Bool × FlagSet) (s t : State) :
    State :=
  let t' := (t.readS a).2
  let r := f (t.readS a).1 (t'.readB imm b).1
  (t'.readB imm b).2.resultC d r.1 lat r.2 s.bank.pc

/-- The integer z as a result of a type without saturation: its low bits, extended as the type says; no flag (R26, R101). -/
def intOut (ty : Fmt) (z : Int) : Word × FlagSet := (toWord ty (wrapTo ty.width z), 0)

/-- An exact floating value as a result of a type: rounded once to nearest, with the flags (R28, R29). -/
def fltOut (ty : Fmt) (r : FVal × FlagSet) : Nat × FlagSet := ((roundVal ty .rne false r.1).1, r.2 ||| (roundVal ty .rne false r.1).2)

/-- The same as a 64-bit register holds it. -/
def fltWord (ty : Fmt) (r : FVal × FlagSet) : Word × FlagSet := (toWord ty (fltOut ty r).1, (fltOut ty r).2)

/-- A conversion of the bits n between integer and floating formats, without an XM (R30, R111). -/
def converted (ty src : Fmt) (n : Nat) : Nat × FlagSet :=
  if src.isFlt then
    if ty.isFlt then fltOut ty (.ofBits src n, sigFlag [.ofBits src n]) else floatToInt ty .rne (.ofBits src n)
  else if ty.isFlt then fltOut ty (FVal.ofInt (readInt src n), 0) else (wrapTo ty.width (readInt src n), 0)

/-! ## Completion: the scalar class -/

end Sys2Proof.Machine

/-- ADD, SUB, MUL, MULH, DIV, REM, MIN and MAX complete with the exact result of R102 wrapped to their type, after 1, 3 or 24
cycles; a division occupies the divider for 24. -/
def Obligations.IntegerArithmeticCompletes : Prop :=
  ∀ (h : Hdr) (ty : Fmt) (d : SDst) (a : SSrc) (b : SrcB),
    let r (x : Word) : Int := readInt ty x.toNat
    let busy (t : State) : State := t.modBank (fun k => { k with divFree := t.cycle + 24 })
    Gives (.add h ty d a b) (give2 immSext d a b 1 (fun x y => intOut ty (r x + r y)))
    ∧ Gives (.sub h ty d a b) (give2 immSext d a b 1 (fun x y => intOut ty (r x - r y)))
    ∧ Gives (.mul h ty d a b) (give2 immSext d a b 3 (fun x y => intOut ty (r x * r y)))
    ∧ Gives (.mulh h ty d a b) (give2 immSext d a b 3 (fun x y => intOut ty (r x * r y / (2 ^ ty.width : Nat))))
    ∧ Gives (.min h ty d a b) (give2 immSext d a b 1 (fun x y => intOut ty (if r y < r x then r y else r x)))
    ∧ Gives (.max h ty d a b) (give2 immSext d a b 1 (fun x y => intOut ty (if r x < r y then r y else r x)))
    ∧ Gives (.div h ty d a b) (fun s t =>
        let t' := (t.readS a).2
        let x := r (t.readS a).1
        let y := r (t'.readB immSext b).1
        let q : Int := if y = 0 then (if ty.signed then -1 else (2 ^ ty.width : Nat) - 1) else Int.tdiv x y
        (busy (t'.readB immSext b).2).resultS d (intOut ty q).1 24 0 s.bank.pc)
    ∧ Gives (.rem h ty d a b) (fun s t =>
        let t' := (t.readS a).2
        let x := r (t.readS a).1
        let y := r (t'.readB immSext b).1
        (busy (t'.readB immSext b).2).resultS d (intOut ty (if y = 0 then x else Int.tmod x y)).1 24 0 s.bank.pc)

/-- The bit words complete with the functions of R103 on all 64 bits, after one cycle, without flags. -/
def Obligations.BitWordsComplete : Prop :=
  ∀ (h : Hdr) (d : SDst) (a : SSrc) (b : SrcB),
    let two (f : Word → Word → Word) := give2 immZext d a b 1 (fun x y => (f x y, 0))
    Gives (.and h d a b) (two (fun x y => x &&& y)) ∧ Gives (.or h d a b) (two (fun x y => x ||| y))
    ∧ Gives (.xor h d a b) (two (fun x y => x ^^^ y)) ∧ Gives (.andn h d a b) (two (fun x y => x &&& ~~~y))
    ∧ Gives (.shl h d a b) (two (fun x y => x <<< (y.toNat % 64))) ∧ Gives (.shr h d a b) (two (fun x y => x >>> (y.toNat % 64)))
    ∧ Gives (.sar h d a b) (two (fun x y => x.sshiftRight (y.toNat % 64)))
    ∧ Gives (.rot h d a b) (two (fun x y => x.rotateLeft (y.toNat % 64)))
    ∧ Gives (.clz h d a) (give1 d a 1 (fun x => (BitVec.ofNat 64 (if x = 0 then 64 else 63 - Nat.log2 x.toNat), 0)))
    ∧ Gives (.popc h d a) (give1 d a 1 (fun x => (BitVec.ofNat 64 ((List.range 64).countP (fun i => x.getLsbD i)), 0)))

/-- SEL, CMP, CAND, COR, CXOR, MOVI, LEA, NOP and ROTSET complete as R104, R105, R113 and R117 say. -/
def Obligations.SelectionAndConstantsComplete : Prop :=
  ∀ (h : Hdr) (ty : Fmt) (d : SDst) (c : Fin 8) (x y : CSrc) (a b2 : SSrc) (b : SrcB) (k : Cond) (v : BitVec 16) (sh : Fin 4) (m : MemOp)
    (r5 : BitVec 5) (r3 : BitVec 3),
    Gives (.sel h d x a b2) (fun s t =>
      let t' := (t.readS a).2
      (t'.readS b2).2.resultS d (if t.bank.readC x then (t.readS a).1 else (t'.readS b2).1) 1 0 s.bank.pc)
    ∧ Gives (.cmp h ty c a b k) (giveCond immSext c a b 1 (fun p q => (compareInt k (readInt ty p.toNat) (readInt ty q.toNat), 0)))
    ∧ Gives (.cand h c x y) (fun s t => t.resultC c (t.bank.readC x && t.bank.readC y) 1 0 s.bank.pc)
    ∧ Gives (.cor h c x y) (fun s t => t.resultC c (t.bank.readC x || t.bank.readC y) 1 0 s.bank.pc)
    ∧ Gives (.cxor h c x y) (fun s t => t.resultC c (t.bank.readC x != t.bank.readC y) 1 0 s.bank.pc)
    ∧ Gives (.movi h d a v sh) (give1 d a 1 (fun p => (if sh = 0 then v.signExtend 64 else p ||| (v.setWidth 64 <<< (16 * sh.val)), 0)))
    ∧ Gives (.lea h d m) (fun s t => (t.readAddr m).2.resultS d (t.readAddr m).1 1 0 s.bank.pc)
    ∧ Gives (.nop h) (fun _ t => t)
    ∧ Gives (.rotset h r5 r3) (fun _ t => t.modBank (fun k => { k with vrb := r5, mrb := r3 }))

/-- The floating words of the scalar class complete with their exact result rounded once (R109 to R112), after 4 or 6 cycles. -/
def Obligations.ScalarFloatCompletes : Prop :=
  ∀ (h : Hdr) (ty src : Fmt) (d : SDst) (c : Fin 8) (a b2 b3 : SSrc) (b : SrcB) (k : Cond),
    let r (x : Word) : FVal := FVal.ofBits ty x.toNat
    let two (f : FVal → FVal → FVal × FlagSet) := give2 (immFlt ty) d a b 4 (fun x y => fltWord ty (f (r x) (r y)))
    Gives (.fadd h ty d a b) (two (FVal.add .rne)) ∧ Gives (.fmul h ty d a b) (two FVal.mul)
    ∧ Gives (.fmin h ty d a b) (two FVal.min) ∧ Gives (.fmax h ty d a b) (two FVal.max)
    ∧ Gives (.ffma h ty d a b2 b3) (fun s t =>
        let t1 := (t.readS a).2
        let t2 := (t1.readS b2).2
        let z := fltWord ty (FVal.fma .rne (r (t.readS a).1) (r (t1.readS b2).1) (r (t2.readS b3).1))
        (t2.readS b3).2.resultS d z.1 4 z.2 s.bank.pc)
    ∧ Gives (.fcvt h ty src d a) (give1 d a 6 (fun x => (toWord ty (converted ty src x.toNat).1, (converted ty src x.toNat).2)))
    ∧ Gives (.fcmp h ty c a b k) (giveCond (immFlt ty) c a b 4 (fun x y => FVal.compare k (r x) (r y)))
    ∧ Gives (.ftolog h ty src d a b2) (give2 immSext d a (.reg b2) 6 (fun x y =>
        let z := if b10AllZero y.toNat then (Fmt.lzero ty, 0) else linToLog ty (b10Scale y.toNat) (FVal.ofBits src x.toNat)
        (toWord ty z.1, z.2)))
    ∧ Gives (.ffromlog h ty src d a b2) (give2 immSext d a (.reg b2) 6 (fun x y =>
        fltWord ty (logToLin src x.toNat y.toNat)))

/-! ## Completion: the vector class -/

namespace Sys2Proof.Machine

/-- A lane-wise result: the lanes that the guard marks, from those of the sources (R128). -/
def giveLanes (h : Hdr) (w n : Nat) (d : VDst) (lat : Nat) (srcs : List VSrc) (f : State → Nat → Nat × FlagSet) (s t : State) : State :=
  let o := lanesRun w n (fun i => (t.bank.guardMask h).getLsbD i) (f t)
  (t.advancePorts srcs).resultV d o.val o.bits lat o.flags s.bank.pc

/-- Lane i of a source, as the bits of a type. -/
def lane (ty : Fmt) (t : State) (a : VSrc) (i : Nat) : Nat := laneOf ty.width (t.vec ty a) i

/-- Lane i of B#. -/
def laneB (ty : Fmt) (t : State) (b : VSrcB) (i : Nat) : Nat := laneOf ty.width (t.vecB ty b) i

/-- A lane of two sources: an exact integer wrapped to the type, or an exact floating value rounded once (R131). -/
def laneArith (ty : Fmt) (fi : Int → Int → Int) (ff : FVal → FVal → FVal × FlagSet) (x y : Nat) : Nat × FlagSet :=
  if ty.isFlt then fltOut ty (ff (.ofBits ty x) (.ofBits ty y)) else (wrapTo ty.width (fi (readInt ty x) (readInt ty y)), 0)

end Sys2Proof.Machine

/-- VADD, VSUB, VMUL, VMIN, VMAX, VFMA and the four functions of R132 complete lane by lane (R131, R132), after the latencies of R60. -/
def Obligations.VectorArithmeticCompletes : Prop :=
  ∀ (h : Hdr) (ty : Fmt) (d : VDst) (a b2 c : VSrc) (b : VSrcB),
    let two (li : Nat) (fi : Int → Int → Int) (ff : FVal → FVal → FVal × FlagSet) :=
      giveLanes h ty.width (Fmt.lanes ty) d (if ty.isFlt then 4 else li) (a :: VSrcB.srcs b)
        (fun t i => laneArith ty fi ff (lane ty t a i) (laneB ty t b i))
    let one (f : FVal → FVal × FlagSet) :=
      giveLanes h ty.width (Fmt.lanes ty) d 8 [a] (fun t i => fltOut ty (f (.ofBits ty (lane ty t a i))))
    Gives (.vadd h ty d a b) (two 2 (fun x y => x + y) (FVal.add .rne))
    ∧ Gives (.vsub h ty d a b) (two 2 (fun x y => x - y) (fun x y => FVal.add .rne x y.negate))
    ∧ Gives (.vmul h ty d a b) (two 4 (fun x y => x * y) FVal.mul)
    ∧ Gives (.vmin h ty d a b) (two 2 (fun x y => if y < x then y else x) FVal.min)
    ∧ Gives (.vmax h ty d a b) (two 2 (fun x y => if x < y then y else x) FVal.max)
    ∧ Gives (.vfma h ty d a b2 c) (giveLanes h ty.width (Fmt.lanes ty) d 4 [a, b2, c] (fun t i =>
        fltOut ty (FVal.fma .rne (.ofBits ty (lane ty t a i)) (.ofBits ty (lane ty t b2 i)) (.ofBits ty (lane ty t c i)))))
    ∧ Gives (.vrcp h ty d a) (one FVal.recip) ∧ Gives (.vrsq h ty d a) (one FVal.rsqrt)
    ∧ Gives (.vexp2 h ty d a) (one FVal.exp2) ∧ Gives (.vlog2 h ty d a) (one FVal.log2)

/-- The vector bit words and VSEL complete lane by lane (R133, R134); VCMP leaves the bits of inactive lanes and clears those beyond the
last lane (R127, R134). -/
def Obligations.VectorBitsAndComparesComplete : Prop :=
  ∀ (h : Hdr) (ty : Fmt) (d : VDst) (dm : Fin 16) (a b2 : VSrc) (b : VSrcB) (m : MSrc) (k : Cond),
    let w := ty.width
    let two (f : Nat → Nat → Nat) := giveLanes h w (Fmt.lanes ty) d 2 (a :: VSrcB.srcs b)
      (fun t i => (f (lane ty t a i) (laneB ty t b i), 0))
    Gives (.vand h ty d a b) (two (fun x y => x &&& y)) ∧ Gives (.vor h ty d a b) (two (fun x y => x ||| y))
    ∧ Gives (.vxor h ty d a b) (two (fun x y => x ^^^ y)) ∧ Gives (.vshl h ty d a b) (two (fun x y => x * 2 ^ (y % w)))
    ∧ Gives (.vshr h ty d a b) (two (fun x y => x / 2 ^ (y % w)))
    ∧ Gives (.vsar h ty d a b) (two (fun x y => wrapTo w (sext w x / (2 ^ (y % w) : Nat))))
    ∧ Gives (.vsel h ty d m a b2) (giveLanes h w (Fmt.lanes ty) d 2 [a, b2] (fun t i =>
        (if (t.bank.readM m).getLsbD i then lane ty t a i else lane ty t b2 i, 0)))
    ∧ Gives (.vcmp h ty dm a b k) (fun s t =>
        let g := t.bank.guardMask h
        let n := Fmt.lanes ty
        let r (i : Nat) : Bool × FlagSet :=
          if ty.isFlt then FVal.compare k (.ofBits ty (lane ty t a i)) (.ofBits ty (laneB ty t b i))
          else (compareInt k (readInt ty (lane ty t a i)) (readInt ty (laneB ty t b i)), 0)
        let rs := (List.range n).map (fun i => if g.getLsbD i then r i else (false, 0))
        (t.advancePorts (a :: VSrcB.srcs b)).result (some (.reg (.m (t.bank.physM dm))))
          (.mask (BitVec.ofNat 512 (laneNat 1 (rs.map (fun x => if x.1 then 1 else 0)))) (~~~(~~~g &&& BitVec.ofNat 512 (2 ^ n - 1))))
          2 (orFlags (rs.map (fun x => x.2))) s.bank.pc true)

/-- VCVT, VTOLOG, VFROMLOG, VQNT, VDQNT, VBSCALE and VORD complete as R135 to R140 say; the half-step words where every header that an
active element uses has its reserved bits zero. -/
def Obligations.VectorConversionsComplete : Prop :=
  ∀ (h : Hdr) (ty src : Fmt) (d : VDst) (a b : VSrc),
    let n := Nat.min (Fmt.lanes ty) (Fmt.lanes src)
    let conv (sc : Fmt) (f : Nat → Nat → Nat × FlagSet) := giveLanes h ty.width n d 6 [a, b] (fun t j => f (lane src t a j) (lane sc t b (j / 32)))
    let headers (t : State) : Prop :=
      ∀ j, j < n → (t.bank.guardMask h).getLsbD j = true → lane .n32 t b (j / 32) / 2 ^ 24 = 0
    Gives (.vcvt h ty src d a) (giveLanes h ty.width n d 6 [a] (fun t j => converted ty src (lane src t a j)))
    ∧ Gives (.vtolog h ty src d a b) (conv .n16 (fun x sc =>
        if b10AllZero sc then (Fmt.lzero ty, 0) else linToLog ty (b10Scale sc) (.ofBits src x)))
    ∧ Gives (.vfromlog h ty src d a b) (conv .n16 (fun x sc => fltOut ty (logToLin src x sc)))
    ∧ GivesIf (.vqnt h ty src d a b) headers (conv .n32 (fun x hd => quantize ty.width (.ofBits src x) (.ofBits .f16 hd) (bits hd 23 16)))
    ∧ GivesIf (.vdqnt h ty src d a b) headers (conv .n32 (fun x hd =>
        fltOut ty (halfStepVal (.ofBits .f16 hd) x (bits hd 23 16))))
    ∧ Gives (.vbscale h ty src d a) (giveLanes h 16 (Fmt.lanes ty / 32) d 6 [a] (fun t k =>
        (blockScale src ((List.range 32).map (fun j => .ofBits ty (lane ty t a (32 * k + j)))), 0)))
    ∧ Gives (.vord h ty d a) (giveLanes h ty.width (Fmt.lanes ty) d 6 [a] (fun t i => (orderKey ty (lane ty t a i), 0)))

namespace Sys2Proof.Machine

/-- A result that writes its whole destination. -/
def giveWhole (d : VDst) (lat : Nat) (srcs : List VSrc) (w : VecWord) (s t : State) : State :=
  (t.advancePorts srcs).resultV d w (BitVec.allOnes 2048) lat 0 s.bank.pc

end Sys2Proof.Machine

/-- VREDADD, VREDMAX, VREDMIN and VSCAN complete with the trees and prefixes of R46 and R141 over the active lanes. VHIST, VCMPRS,
VPERM, VSLIDE, VBCAST, VEXT, VINS and VIOTA complete as R142 to R146 say. -/
def Obligations.ReductionsAndLaneMovementComplete : Prop :=
  (∀ (h : Hdr) (ty : Fmt) (d : VDst) (a : VSrc) (k : Fin 3),
     let own (x : Nat) : Int := if ty.isFlt then (x : Int) else readInt ty x
     let code (x : Int) : Nat := if ty.isFlt then x.toNat else wrapTo ty.width x
     let act (t : State) : List (Option Int) := (List.range (Fmt.lanes ty)).map (fun i =>
       if (t.bank.guardMask h).getLsbD i then some (own (lane ty t a i)) else none)
     let red (op : RedOp) (s t : State) : State :=
       let r := redTree op ty none (Nat.log2 (Fmt.lanes ty)) (act t) 0
       (t.advancePorts [a]).resultV d (BitVec.ofNat 2048 (code (r.1.getD (redEmpty op ty)) % 2 ^ ty.width)) (BitVec.allOnes 2048) 12 r.2 s.bank.pc
     Gives (.vredadd h ty d a) (red .add) ∧ Gives (.vredmax h ty d a) (red .max) ∧ Gives (.vredmin h ty d a) (red .min)
     ∧ Gives (.vscan h ty d a k) (fun s t =>
         let ys : List (Nat × FlagSet) := (scanList (RedOp.ofCode k) ty none none (act t)).map (fun r => (r.1.elim 0 code, r.2))
         (t.advancePorts [a]).resultV d (BitVec.ofNat 2048 (laneNat ty.width (ys.map (fun y => y.1))))
           (laneBits ty.width (Fmt.lanes ty) (fun i => (t.bank.guardMask h).getLsbD i)) 12 (orFlags (ys.map (fun y => y.2))) s.bank.pc))
  ∧ (∀ (h : Hdr) (ty : Fmt) (d : VDst) (r : Fin 64) (ds : SDst) (a b2 : VSrc) (sa : SSrc) (b : SrcB) (down : Bool),
       let w := ty.width
       let n := Fmt.lanes ty
       let on (t : State) (i : Nat) : Bool := (t.bank.guardMask h).getLsbD i
       Gives (.vhist h ty d a b) (fun s t =>
         let p := (t.readB immZext b).1.toNat % 64
         let digits := ((List.range n).filter (on t)).map (fun i => (lane ty t a i / 2 ^ p) % 16)
         giveWhole d 8 [a] (mkVec w 16 (fun j => digits.count j)) s (t.readB immZext b).2)
       ∧ Gives (.vcmprs h ty d a) (fun s t =>
           giveWhole d 3 [a] (BitVec.ofNat 2048 (laneNat w (((List.range n).filter (on t)).map (lane ty t a)))) s t)
       ∧ Gives (.vperm h ty d a b2) (giveLanes h w n d 3 [a, b2] (fun t i =>
           (lane ty t a (if w = 4 then 16 * (i / 16) + lane ty t b2 i else lane ty t b2 i % n), 0)))
       ∧ Gives (.vslide h ty d a b down) (fun s t =>
           let k := (t.readB immZext b).1.toNat
           let u := (t.readB immZext b).2
           let f (i : Nat) : Nat × FlagSet :=
             (if down then (if i + k < n then lane ty u a (i + k) else 0) else if k ≤ i then lane ty u a (i - k) else 0, 0)
           let o := lanesRun w n (fun i => on t i) f
           (u.advancePorts [a]).resultV d o.val o.bits 3 0 s.bank.pc)
       ∧ Gives (.vbcast h ty d sa) (fun s t =>
           (t.readS sa).2.resultV d (mkVec w n (fun _ => (t.readS sa).1.toNat)) (laneBits w n (fun i => on t i)) 3 0 s.bank.pc)
       ∧ Gives (.vext h ty ds a b) (fun s t =>
           let j := (t.readB immZext b).1.toNat % n
           ((t.readB immZext b).2.advancePorts [a]).resultS ds (toWord ty (lane ty t a j)) 3 0 s.bank.pc)
       ∧ Gives (.vins h ty r sa b) (fun s t =>
           let u := (t.readS sa).2
           let j := (u.readB immZext b).1.toNat % n
           let lane := laneBits w n (fun i => i == j)
           (u.readB immZext b).2.resultV (.v r)
             ((t.vec ty (.v r) &&& ~~~lane) ||| (mkVec w n (fun _ => (t.readS sa).1.toNat) &&& lane))
             (if on t j then BitVec.allOnes 2048 else 0) 3 0 s.bank.pc)
       ∧ Gives (.viota h ty d sa) (fun s t =>
           let x : Int := (t.readS sa).1.toInt
           let o := lanesRun w n (fun i => on t i) (fun i =>
             if ty.isFlt then fltOut ty (FVal.ofInt (x + i), 0) else (wrapTo w (x + i), 0))
           (t.readS sa).2.resultV d o.val o.bits 3 o.flags s.bank.pc))

/-- MAND, MOR, MXOR, MNOT, MPOP and MFIRST complete as R147 says, on all 512 bits or on the lanes of the type. -/
def Obligations.MaskWordsComplete : Prop :=
  ∀ (h : Hdr) (ty : Fmt) (d : Fin 16) (ds : SDst) (a b : MSrc),
    let out (f : State → MaskWord) (s t : State) : State :=
      t.result (some (.reg (.m (t.bank.physM d)))) (.mask (f t) (BitVec.allOnes 512)) 2 0 s.bank.pc true
    Gives (.mand h d a b) (out (fun t => t.bank.readM a &&& t.bank.readM b))
    ∧ Gives (.mor h d a b) (out (fun t => t.bank.readM a ||| t.bank.readM b))
    ∧ Gives (.mxor h d a b) (out (fun t => t.bank.readM a ^^^ t.bank.readM b))
    ∧ Gives (.mnot h d a) (out (fun t => ~~~t.bank.readM a))
    ∧ Gives (.mpop h ty ds a) (fun s t =>
        t.resultS ds (BitVec.ofNat 64 ((List.range (Fmt.lanes ty)).countP (fun i => (t.bank.readM a).getLsbD i))) 2 0 s.bank.pc)
    ∧ Gives (.mfirst h ty ds a) (fun s t =>
        t.resultS ds (BitVec.ofNat 64 (((List.range (Fmt.lanes ty)).find? (fun i => (t.bank.readM a).getLsbD i)).getD (Fmt.lanes ty)))
          2 0 s.bank.pc)

/-! ## Completion: local memory and CSRs -/

namespace Sys2Proof.Machine

/-- The n bytes at a local address lie in the window. -/
def inWindow (a n : Nat) : Prop := a < 0x400000 ∧ a + n ≤ 0x400000

end Sys2Proof.Machine

/-- LD, ST, VLD and VST complete where their bytes lie in the local window, a vector at a multiple of 32 (R106, R149): the accesses of a
load set out sector by sector and it lands under its tag 5 or 6 cycles later, or after that where its memory banks are wanted; those of a
store set out with its bytes, the marked ones of a vector. VGATH and VSCAT complete where no active lane's address is misaligned or outside
the window (R150), a gather no sooner than its banks' bound; PORTCFG where its descriptor keeps R153, the descriptor's sector and, for an
output port, the port's stores before it being done; the port is ready 8 cycles later. -/
def Obligations.LocalAccessesAndPortsComplete : Prop :=
  (∀ (h : Hdr) (ty : Fmt) (d : SDst) (dv : VDst) (c : SSrc) (cv : VSrc) (m : MemOp) (al : BitVec 4),
     let at_ (t : State) : Nat := (t.readAddr m).1.toNat
     let n := ty.width / 8
     let marks (t : State) : VecWord := laneBits ty.width (Fmt.lanes ty) (fun i => (t.bank.guardMask h).getLsbD i)
     GivesIf (.ld h ty d m al) (fun t => inWindow (at_ t) n) (fun _ t =>
       let u := (t.readAddr m).2
       u.loadLocal (u.newTag al [SDst.rdst d] ty 0 0 5) 4 true (loadMoves (at_ t) n))
     ∧ GivesIf (.st h ty m c) (fun t => inWindow (at_ t) n) (fun _ t =>
         let u := (t.readAddr m).2
         (u.readS c).2.storeLocal (at_ t) (leBytes n (u.readS c).1.toNat))
     ∧ GivesIf (.vld h ty dv m al) (fun t => at_ t % 32 = 0 ∧ inWindow (at_ t) 256) (fun _ t =>
         let u := (t.readAddr m).2
         (u.loadLocal (u.newTag al (u.bank.vecDst dv) ty (marks t) 0 6) 5 true
           ((loadMoves (at_ t) 256).filter (fun x => (vecBytes (marks t)).getD x.off 0 != 0))).tagPort al dv (marks t))
     ∧ GivesIf (.vst h ty m cv) (fun t => at_ t % 32 = 0 ∧ inWindow (at_ t) 256) (fun _ t =>
         ((t.readAddr m).2.advancePorts [cv]).storeMasked (at_ t) (vecBytes (t.vec ty cv)) (vecBytes (marks t))))
  ∧ (∀ (h : Hdr) (ty : Fmt) (d : VDst) (a : SSrc) (b c : VSrc) (k : Fin 8) (al : BitVec 4) (port : Fin 12),
       let g := gatherType ty
       let at_ (t : State) : List (Nat × Nat) := gatherAddrs g (t.readS a).1 (t.vec g b) k.val (t.bank.guardMask h)
       let fits (t : State) : Prop := gatherFault (g.width / 8) (at_ t) = none
       GivesIf (.vgath h ty d a b k al) fits (fun _ t =>
         let u := (t.readS a).2.advancePorts [b]
         let marks := laneBits g.width (Fmt.lanes g) (fun i => (t.bank.guardMask h).getLsbD i)
         (u.loadLocal (u.newTag al (u.bank.vecDst d) g marks 0 (7 + gatherLoad (at_ t))) 7 false (gatherMoves (g.width / 8) (at_ t))).tagPort
           al d marks)
       ∧ GivesIf (.vscat h ty a b k c) fits (fun _ t =>
           ((t.readS a).2.advancePorts [b, c]).sendStore ((at_ t).flatMap (fun p =>
             storeMoves p.2 0 (leBytes (g.width / 8) (laneOf g.width (t.vec g c) p.1)) (List.replicate (g.width / 8) 0xFF))))
       ∧ GivesIf (.portcfg h port a) (fun t =>
           let x := (t.readS a).1
           x.toNat % 32 = 0 ∧ inWindow x.toNat 32 ∧ (t.readS a).2.cur.streamWaits t.focus.bank x.toNat 32 = false
             ∧ (port.val < 8 ∨ (t.readS a).2.cur.portBusy t.focus.bank = false) ∧ Port.check ((t.readS a).2.localNat x.toNat 32) x = none)
           (fun _ t =>
             let x := (t.readS a).1
             let u := (t.readS a).2
             (u.touchLocal x.toNat 32).modBank (fun b =>
               { b with ports := b.ports.set port (some (Port.ofDesc (u.localNat x.toNat 32) (u.cycle + 8))) })))

/-- CSRR of a number in R96 completes with a sample that is taken at the end of the next cycle; CSRW of one that may be written there
and then completes, and its write takes effect at the end of the cycle (R108). -/
def Obligations.CsrWordsComplete : Prop :=
  ∀ (h : Hdr) (d : SDst) (a : SSrc) (n : BitVec 16),
    GivesIf (.csrr h d n) (fun t => (t.csr t.focus.core t.focus.bank n).isSome = true)
      (fun s t => t.result (some (SDst.rdst d)) (.sample (.csr n)) 2 0 s.bank.pc false)
    ∧ GivesIf (.csrw h n a) (fun t => ∃ u, csrWrite n (t.readS a).1 (t.readS a).2 = .ok u)
      (fun _ t => (t.readS a).2.modBank (fun b => { b with csrws := b.csrws ++ [(n, (t.readS a).1)] }))

/-! ## Completion: global memory -/

namespace Sys2Proof.Machine

/-- The bytes of a store's elements, without those that the guard leaves out. -/
def marked (v ms : List Byte) : List (Option Byte) := (v.zip ms).map (fun x => if x.2 = 0 then none else some x.1)

/-- What a store of elements of a type into the patch of a register meets (R258, R259, R279): the bytes that it covers are PATCHED; the
register holds a patch that takes the elements, whole ones, and no seal has taken the bank's part of it. -/
def storeMeets (s : State) (p : Fin 4) (name : Name) (l : List Piece) (a : Word) (v ms : List Byte) (ty : Fmt) : Prop :=
  s.translate s.bank 1 a (v.length * s.laneStep p ty / Fmt.laneBytes ty) = .ok l ∧ allPatched l = true ∧ s.bank.p[p] = some name
    ∧ ((s.patch name).bind (fun x => x.twin)).isSome = false ∧ ms.all (fun k => k == 0 || k == 0xFF) = true ∧ s.tooLate name = false
    ∧ ∃ w, s.checkWrite name false (contributor s.focus.core s.focus.bank) (fun i => locAt l (a.toNat + i)) a (marked v ms) ty = .ok w

end Sys2Proof.Machine

/-- LDG, VLDG, STG and VSTG complete where the checks of R293 to R295 pass: a load takes its tag and its accesses go on their way; a
store goes on its way to memory, or to the patch of its register with its lanes in the patch's delta type (R258, R259, R279). -/
def Obligations.GlobalLoadsAndStoresComplete : Prop :=
  ∀ (h : Hdr) (ty : Fmt) (d : SDst) (dv : VDst) (m : MemOp) (c : SSrc) (cv : VSrc) (o : LdMod) (x : Mmc) (p : Fin 4) (al : BitVec 4)
    (l : List Piece) (mode : ViewMode) (lat : Nat) (u : State) (name : Name),
    let n := ty.width / 8
    let at_ (t : State) : Word := (t.readAddr m).1
    let marks (t : State) : VecWord := laneBits ty.width (Fmt.lanes ty) (fun i => (t.bank.guardMask h).getLsbD i)
    let ones : List Byte := List.replicate n 0xFF
    let data (t : State) : List Byte := leBytes n ((t.readAddr m).2.readS c).1.toNat
    let afterS (t : State) : State := ((t.readAddr m).2.readS c).2
    let afterV (t : State) : State := (t.readAddr m).2.advancePorts [cv]
    let one (t : State) : Fmt := (afterS t).laneType p ty
    let many (t : State) : Fmt := (afterV t).laneType p ty
    let dataP (t : State) : List Byte := leBytes ((one t).width / 8) ((t.readAddr m).2.readS c).1.toNat
    let marksP (t : State) : List Byte := vecBytes (laneBits (many t).width (Fmt.lanes (many t)) (fun i => (t.bank.guardMask h).getLsbD i))
    GivesIf (.ldg h ty d m o al) (fun t => (t.readAddr m).2.loadCheck (at_ t) n o = .ok (l, mode, lat, u)) (fun _ t =>
      u.issueLoad l (at_ t).toNat n mode (loadMmc o) (isAsof o) (u.newTag al [SDst.rdst d] ty 0 0 (Nat.max lat (landTime l))) (fun _ => true))
    ∧ GivesIf (.vldg h ty dv m o al)
        (fun t => (at_ t).toNat % 32 = 0 ∧ (t.readAddr m).2.loadCheck (at_ t) 256 o = .ok (l, mode, lat, u)) (fun _ t =>
        (u.issueLoad l (at_ t).toNat 256 mode (loadMmc o) (isAsof o)
          (u.newTag al (u.bank.vecDst dv) ty (marks u) 0 (Nat.max lat (landTime l)))
          (fun i => (vecBytes (marks u)).getD i 0 != 0)).tagPort al dv (marks u))
    ∧ GivesIf (.stg h ty m c (.mmc x))
        (fun t => (afterS t).translate (afterS t).bank 1 (at_ t) n = .ok l ∧ nonePatched l = true)
        (fun _ t => (afterS t).issueStore l (at_ t).toNat x (data t) ones)
    ∧ GivesIf (.stg h ty m c (.patch p))
        (fun t => storeMeets (afterS t) p name l (at_ t) (dataP t) (List.replicate ((one t).width / 8) 0xFF) (one t))
        (fun s t => (afterS t).sendPatch name l (at_ t) (marked (dataP t) (List.replicate ((one t).width / 8) 0xFF)) (Fmt.laneBytes (one t))
          ((afterS t).laneStep p (one t)) (one t) s.bank.pc false)
    ∧ GivesIf (.vstg h ty m cv (.mmc x))
        (fun t => (at_ t).toNat % 32 = 0 ∧ (afterV t).translate (afterV t).bank 1 (at_ t) 256 = .ok l ∧ nonePatched l = true)
        (fun _ t => (afterV t).issueStore l (at_ t).toNat x (vecBytes (t.vec ty cv)) (vecBytes (marks t)))
    ∧ GivesIf (.vstg h ty m cv (.patch p))
        (fun t => (at_ t).toNat % 32 = 0 ∧ storeMeets (afterV t) p name l (at_ t) (vecBytes (t.vec ty cv)) (marksP t) (many t))
        (fun s t => (afterV t).sendPatch name l (at_ t) (marked (vecBytes (t.vec ty cv)) (marksP t)) (Fmt.laneBytes (many t))
          ((afterV t).laneStep p (many t)) (many t) s.bank.pc true)

/-- PREFG, CPIN, CUNPIN, CWB and CINV complete on a translated line of device memory: their access goes on its way; on the host window, and
PREFG without a segment, they do nothing, and CPIN answers status 1 (R291, R292). -/
def Obligations.CacheWordsComplete : Prop :=
  ∀ (h : Hdr) (d : SDst) (m : MemOp) (al : BitVec 4) (l2 : Bool) (l : List Piece) (g : Seg),
    let at_ (t : State) : Word := (t.readAddr m).1
    let u (t : State) : State := (t.readAddr m).2
    let held (t : State) : Prop := (l.head?.bind (fun p => p.seg)) = some g
      ∧ spaceOf (at_ t) ≠ .host ∧ (u t).bank.pieces 0 1 (at_ t).toNat ((at_ t).toNat + 1) = .ok l
    let host (t : State) : Prop := spaceOf (at_ t) = .host
    let pinned (t : State) : Prop := (l.head?.bind (fun p => p.seg)) = some g ∧ (u t).translate (u t).bank 0 (at_ t) 1 = .ok l
    GivesIf (.prefg h m l2) (fun t => (u t).bank.segOf (at_ t).toNat = some g ∧ spaceOf (at_ t) = .device ∧ g.allows 0 = true)
      (fun _ t => (u t).lineAccess g (at_ t) (.prefetch l2))
    ∧ GivesIf (.prefg h m l2) (fun t => (u t).bank.segOf (at_ t).toNat = none) (fun _ t => u t)
    ∧ GivesIf (.cpin h d m al) host (fun _ t => (u t).landLater al [SDst.rdst d] [.word 1] 1)
    ∧ GivesIf (.cunpin h m) (fun t => (u t).translate (u t).bank 0 (at_ t) 1 = .ok l ∧ l.head?.bind (fun p => p.seg) = none) (fun _ t => u t)
    ∧ GivesIf (.cwb h m l2) host (fun _ t => u t) ∧ GivesIf (.cinv h m l2) host (fun _ t => u t)
    ∧ GivesIf (.cpin h d m al) (fun t => pinned t ∧ spaceOf (at_ t) ≠ .host) (fun _ t =>
        ((u t).allocate ((u t).newTag al [SDst.rdst d] .i64 0 0 12)).lineAccess g (at_ t) (.pin al))
    ∧ GivesIf (.cunpin h m) pinned (fun _ t => (u t).lineAccess g (at_ t) .unpin)
    ∧ GivesIf (.cwb h m l2) held (fun _ t => (u t).lineAccess g (at_ t) (.writeBack l2))
    ∧ GivesIf (.cinv h m l2) held (fun _ t => (u t).lineAccess g (at_ t) (.dropCopies l2))

namespace Sys2Proof.Machine

/-- The tag and the access of an atomic of the acting bank. -/
def atomicGo (p : Piece) (a : Word) (n : Nat) (m : Mmc) (op : AccOp) (al : BitVec 4) (dst : List RDst) (ty : Fmt) (t : State) : State :=
  ((if al = 0 then t else t.allocate (t.newTag al dst ty 0 0 12)).atomicAccess p a n m op)

end Sys2Proof.Machine

/-- The atomics on CELL or host targets complete where they are aligned and translate: the read-modify-write goes to its home, under a
tag where it returns the old value (R298 to R302). AADD, ARADD and ARMAX through a patch register complete where their target is
PATCHED and their patch an ADD patch of the tensor: they go to the home of their line like every atomic (R298 to R300). -/
def Obligations.AtomicsAndPatchAtomicsComplete : Prop :=
  (∀ (h : Hdr) (ty : Fmt) (m : MemOp) (a b c : SSrc) (x : Mmc) (al : BitVec 4) (d : Fin 64) (sd : SDst) (pd pc2 : Fin 32) (cv : VSrc)
     (off : BitVec 16) (pair : Bool) (p : Piece) (l l2 : List Piece) (g g2 : Seg),
     let n := ty.width / 8
     let at_ (t : State) : Word := (t.readAddr m).1
     let u (t : State) : State := ((t.readAddr m).2.readS c).2
     let v (t : State) : Word := ((t.readAddr m).2.readS c).1
     let fits (t : State) : Prop := (at_ t).toNat % n = 0 ∧ (u t).translate (u t).bank 2 (at_ t) n = .ok (p :: l) ∧ nonePatched (p :: l) = true
     let one (k : Rmw) (s t : State) : State := (fun _ => atomicGo p (at_ t) n x (.rmw k ty (v t) 0 al) al (retDst c) ty (u t)) s
     let ab (t : State) : State := ((t.readS a).2.readS b).2
     let va (t : State) : Word := (t.readS a).1
     let vb (t : State) : Word := ((t.readS a).2.readS b).1
     let two (k : Nat) (t : State) : Prop := (va t).toNat % k = 0 ∧ (vb t).toNat % k = 0
       ∧ (ab t).translate (ab t).bank 2 (va t) k = .ok l ∧ (ab t).translate (ab t).bank 2 (vb t) k = .ok l2
       ∧ l.head?.bind (fun p => p.seg) = some g ∧ l2.head?.bind (fun p => p.seg) = some g2 ∧ g.patched = false ∧ g2.patched = false
     let rowAt (t : State) : Word := (t.readS a).1 + immSext off
     let rowLen : Nat := if pair then 512 else 256
     let second (t : State) : VecWord := match cv, pair with
       | .v r, true => t.vec ty (.v (r + 1))
       | _, _ => 0
     let row (mx : Bool) (_ t : State) : State :=
       atomicGo p (rowAt t) rowLen x (.row mx ty (t.vec ty cv) (second t) (t.bank.guardMask h) pair al) al
         ((rowRegs t.bank cv pair).map (fun r => RDst.reg (.v r))) ty ((t.readS a).2.advancePorts [cv])
     let rowFits (t : State) : Prop := (rowAt t).toNat % rowLen = 0
       ∧ (t.readS a).2.translate (t.readS a).2.bank 2 (rowAt t) rowLen = .ok (p :: l) ∧ nonePatched (p :: l) = true
     GivesIf (.aadd h ty m c (.mmc x) al) fits (one .add) ∧ GivesIf (.amin h ty m c x al) fits (one .min)
     ∧ GivesIf (.amax h ty m c x al) fits (one .max) ∧ GivesIf (.aand h ty m c x al) fits (one .and)
     ∧ GivesIf (.aor h ty m c x al) fits (one .or) ∧ GivesIf (.axor h ty m c x al) fits (one .xor)
     ∧ GivesIf (.axchg h ty m c x al) fits (one .xchg)
     ∧ GivesIf (.acas h ty d m c al) fits (fun _ t =>
         atomicGo p (at_ t) n plainMmc (.rmw .cas ty (v t) ((u t).bank.getS d) al) al [.reg (.s d)] ty (u t))
     ∧ GivesIf (.adcas h ty pd a b pc2 al) (fun t => two 8 t ∧ va t ≠ vb t) (fun _ t =>
         let r (q : Fin 32) (hi : Bool) : Word := (ab t).bank.getS (if hi then (pairRegs q).2 else (pairRegs q).1)
         atomicGo { addr := (va t).toNat, len := 8, seg := some g } (va t) 8 plainMmc
           (.dcas .n64 (g2.loc (vb t).toNat) g2.lease (r pd false) (r pd true) (r pc2 false) (r pc2 true) al) al
           [.reg (.s (pairRegs pd).1), .reg (.s (pairRegs pd).2)] .n64 (ab t))
     ∧ GivesIf (.amove h ty sd a b al) (two n) (fun _ t =>
         atomicGo { addr := (va t).toNat, len := n, seg := some g } (va t) n plainMmc (.move ty (g2.loc (vb t).toNat) g2.lease al) al
           [SDst.rdst sd] ty (ab t))
     ∧ GivesIf (.aradd h ty a off pair cv (.mmc x) al) rowFits (row false)
     ∧ GivesIf (.armax h ty a off pair cv (.mmc x) al) rowFits (row true))
  ∧ (∀ (h : Hdr) (ty : Fmt) (m : MemOp) (a c : SSrc) (cv : VSrc) (off : BitVec 16) (pair : Bool) (q : Fin 4) (al : BitVec 4) (p : Piece)
       (l : List Piece) (name : Name),
       let n := ty.width / 8
       let at_ (t : State) : Word := (t.readAddr m).1
       let w (t : State) : State := ((t.readAddr m).2.readS c).2
       let v (t : State) : Word := ((t.readAddr m).2.readS c).1
       let rowAt (t : State) : Word := (t.readS a).1 + immSext off
       let rowLen : Nat := if pair then 512 else 256
       let second (t : State) : VecWord := match cv, pair with
         | .v r, true => t.vec ty (.v (r + 1))
         | _, _ => 0
       let regs (t : State) : List RDst := (rowRegs t.bank cv pair).map (fun r => RDst.reg (.v r))
       let r1 (t : State) : State := (t.readS a).2.advancePorts [cv]
       let lanes (t : State) : List (Option Byte) := rowBytes ty pair (t.vec ty cv) (second t) (rowActive ty pair (t.bank.guardMask h))
       let rowFits (t : State) : Prop := (rowAt t).toNat % rowLen = 0
         ∧ (t.readS a).2.translate (t.readS a).2.bank 2 (rowAt t) rowLen = .ok (p :: l)
         ∧ (r1 t).atomicPatch q (p :: l) (rowAt t) = .ok name ∧ (r1 t).atomicCheck name (p :: l) (rowAt t) (lanes t) ty = none
       let row (mx : Bool) (_ t : State) : State :=
         atomicGo p (rowAt t) rowLen plainMmc (.patchRow mx name ty (t.vec ty cv) (second t) (t.bank.guardMask h) pair al) al (regs t) ty (r1 t)
       GivesIf (.aadd h ty m c (.patch q) al)
         (fun t => (at_ t).toNat % n = 0 ∧ (w t).translate (w t).bank 2 (at_ t) n = .ok (p :: l)
           ∧ (w t).atomicPatch q (p :: l) (at_ t) = .ok name ∧ (w t).atomicCheck name (p :: l) (at_ t) ((leBytes n (v t).toNat).map some) ty = none)
         (fun _ t => atomicGo p (at_ t) n plainMmc (.patchAdd name ty (v t) al) al (retDst c) ty (w t))
       ∧ GivesIf (.aradd h ty a off pair cv (.patch q) al) rowFits (row false)
       ∧ GivesIf (.armax h ty a off pair cv (.patch q) al) rowFits (row true))

/-! ## Completion: patches and names -/

namespace Sys2Proof.Machine

/-- The bank waits for its base home, n cycles there and the way to it (R276), and then the results are written. -/
def homeHold (u : State) (t : Tensor) (n : Nat) (s : State) (ws : List (Reg × RVal)) (v : State) : State :=
  v.hold (n + 96 * dieDist (dieOf u.focus.core) (Loc.home t.descLoc / 64)) s.bank.pc none ws

end Sys2Proof.Machine

/-- PBEGIN, PPAIR and PJOIN complete where their names are live, the bank may patch the bases, the register is empty and the rules of
R255, R256, R261 and R274 hold. PSEAL and PABORT complete for a patch in the register whose bases the bank may patch: a seal gathers a
shared patch's partials, or places the patch at the head of its chains (R263); an abort discards the opener's patch, whose name the joiners
then find GONE, or a joiner's partial (R261, R272). -/
def Obligations.PatchesOpenSealAndAbort : Prop :=
  (∀ (h : Hdr) (d : Fin 4) (a b : NSrc) (k : PKind) (t1 t2 : Tensor) (p : Patch) (y : Side) (u w : State),
     let name (t : State) (z : NSrc) : Name := t.bank.readN z
     GivesIf (.pbegin h d a k)
       (fun t => t.asTensor (name t a) = (.ok t1, u) ∧ u.patchPerm [t1] = none ∧ u.bank.p[d] = none
         ∧ kindAllowed t1.fmt (pkParts k).1 = true)
       (fun s t => u.openPatch d (name t a) none t1 t1.pre k s.bank.pc)
     ∧ GivesIf (.ppair h d a b k)
         (fun t => t.asTensor (name t a) = (.ok t1, u) ∧ u.asTensor (name t b) = (.ok t2, w) ∧ w.patchPerm [t1, t2] = none
           ∧ w.bank.p[d] = none ∧ kindAllowed t1.fmt (pkParts k).1 = true ∧ kindAllowed t2.fmt (pkParts k).1 = true
           ∧ t1.paired = true ∧ t2.paired = true ∧ t1.twin = name t b ∧ t2.twin = name t a ∧ t1.fmt = t2.fmt)
         (fun s t => w.openPatch d (name t a) (some (name t b)) t1 (t1.pre || t2.pre) k s.bank.pc)
     ∧ GivesIf (.pjoin h d a)
         (fun t => t.asPatch (name t a) = (.ok p, u) ∧ u.patchPerm ((u.sides p).map (fun z => z.t)) = none ∧ u.bank.p[d] = none
           ∧ (u.sides p).head? = some y ∧ p.sealer = none ∧ p.state = .opened ∧ p.shared = true
           ∧ u.bank.p.toList.contains (some (name t a)) = false)
         (fun s t => homeHold u y.t 40 s [(.p d, .patchReg (some (name t a)))] u))
  ∧ (∀ (h : Hdr) (a : PSrc) (p : Patch) (y : Side) (u : State),
       let who (t : State) : Nat := contributor t.focus.core t.focus.bank
       let mine (t : State) : Prop := (t.bank.readP a).bind t.patch = some p ∧ t.patchPerm ((t.sides p).map (fun z => z.t)) = none
         ∧ (t.sides p).head? = some y
       GivesIf (.pseal h a)
         (fun t => mine t ∧ p.state = .opened ∧ p.shared = false ∧ t.chainWaits (t.sealLines (t.sides p.rounded.1)) = false
           ∧ t.sealWaits (t.sides p.rounded.1) = false ∧ t.sealPatch p.rounded.1 t.focus.core = some u)
         (fun s t => (homeHold t y.t (40 + (t.coverage p.rounded.1 + 3) / 4) s [] u).modBank (fun b => b.holdFlags p.rounded.2))
       ∧ GivesIf (.pseal h a)
           (fun t => mine t ∧ p.state = .opened ∧ p.shared = true ∧ p.sealer = none ∧ t.cur.outstanding t.focus.bank = 0)
           (fun s t =>
             let cs := dedup (who t :: (p.partials ++ p.twinPartials).map (fun x => x.1))
             let v := t.modPatch p.name (fun p => { p with sealer := some (t.focus.core, t.focus.bank), awaits := cs })
             let v := v.modBank (fun b => { b with
               status := .held, holdWord := some { pc := s.bank.pc, trap := none, writes := [], flags := 0 } })
             cs.foldl (fun (v : State) c =>
               if c < savedBase then v.post (v.atHome y.t 39) none (c / 2) (c % 2 == 1) none (.partialCollect p.name c)
               else v.postHere (v.atHome y.t 39) (.partialCollect p.name c)) v)
       ∧ GivesIf (.pabort h a) (fun t => mine t ∧ p.sealer = none ∧ t.chainWaits [] = false) (fun s t =>
           homeHold t y.t 40 s [] (if p.opener = who t then (t.leaveGone p.name).killPatch p.name
             else (t.modPatch p.name (fun p =>
               { p with partials := Sparse.erase p.partials (who t), twinPartials := Sparse.erase p.twinPartials (who t) })).modBank
                 (fun b => b.emptyReg p.name))))

/-- PCOMM, PINV, PXPL, PSQUASH, PDROP and PQUERY complete where the checks of R267 to R273 pass. -/
def Obligations.ChainWordsComplete : Prop :=
  ∀ (h : Hdr) (d : Fin 16) (sd : SDst) (a b : NSrc) (c : SSrc) (x : Bool) (al : BitVec 4) (p q : Patch) (y : Side) (half : PHalf)
    (t1 : Tensor) (e : NameEnt) (lat : Nat) (u v : State),
    let name (t : State) (z : NSrc) : Name := t.bank.readN z
    let bases (s : State) (p : Patch) : List Tensor := (s.sides p).map (fun z => z.t)
    let one (t : State) : Prop := t.asPatch (name t a) = (.ok p, u) ∧ u.patchPerm (bases u p) = none ∧ (u.sides p).head? = some y
      ∧ p.sealer = none
    GivesIf (.pcomm h a b)
      (fun t => t.asPatch (name t a) = (.ok p, u) ∧ u.asPatch (name u b) = (.ok q, v) ∧ v.patchPerm (bases v p ++ bases v q) = none
        ∧ (v.sides p).head? = some y ∧ p.sealer = none ∧ q.sealer = none ∧ v.chainWaits [] = false ∧ p.state = .sealed ∧ q.state = .sealed
        ∧ (v.sidePairs p q).isEmpty = false
        ∧ (p.name ≠ q.name → ∀ z ∈ v.sidePairs p q, ∀ k ∈ shared z.1 z.2, v.commClash z.1 z.2 p q k = none))
      (fun s _ =>
        let swap (w : State) (x : Side) (k : Nat) : State :=
          (w.setChainOf x.t k ((w.chainOf x.t k).map (swapNames p.name q.name))).raiseStamp (x.t.at (k * 32)) w.cur.pts
        let w := (v.sidePairs p q).foldl (fun (w : State) z => (shared z.1 z.2).foldl (fun (w : State) k => swap w z.1 k) w) v
        homeHold v y.t 40 s [] (if p.name = q.name then v else w))
    ∧ GivesIf (.pinv h d a)
        (fun t => one t ∧ u.chainWaits (u.sealLines (u.sides p)) = false ∧ u.sealWaits (u.sides p) = false ∧ u.invClash p = none
          ∧ u.stuckFull (u.sides p) = false)
        (fun s _ =>
          let w := u.createSealed d (fun n => p.inverted n (contributor u.focus.core u.focus.bank) (u.bank.job.getD 0)) y.base y.t s.bank.pc
          if p.state = .squashed ∧ p.foldinx = true then w.modBank (fun k => k.holdFlags Flag.inx) else w)
    ∧ GivesIf (.psquash h a b x)
        (fun t => t.asTensor (name t a) = (.ok t1, u) ∧ u.asPatch (name u b) = (.ok p, v) ∧ v.patchPerm (t1 :: bases v p) = none
          ∧ p.state = .sealed ∧ p.on (name t a) = some half
          ∧ v.chainWaits (((v.upTo (name t a) half.sealNo).flatMap v.sides).flatMap (fun y => y.t.linesOf y.sectors)) = false
          ∧ v.shardBusy (name t a) = false
          ∧ v.foldClash (v.upTo (name t a) half.sealNo) = none
          ∧ (x = true → firstSome (fun (y : Side) => firstSome
              (v.splits y ((v.upTo (name t a) half.sealNo).map (fun q => q.name))) y.units) ((v.upTo (name t a) half.sealNo).flatMap v.sides) = none))
        (fun s t =>
          let r := v.foldPatches v.focus.core (name t a) (v.upTo (name t a) half.sealNo)
          homeHold r.2 t1 (40 + r.1) s [] r.2)
    ∧ GivesIf (.pdrop h a)
        (fun t => one t ∧ u.chainWaits ((u.sides p).flatMap (fun y => y.t.linesOf y.sectors)) = false
          ∧ (p.state = .squashed ∨ p.state = .sealed ∧ u.notHead p = none))
        (fun s _ =>
          let w := if p.state = .squashed then u
            else (u.sides p).foldl (fun (w : State) y => w.changeViews y.t y.sectors w.focus.core none) u
          homeHold u y.t 40 s [] ((w.killPatch p.name).journalDeath p.name))
    ∧ GivesIf (.pquery h sd a al)
        (fun t => t.resolve t.focus.core (name t a) = (.live e, lat, u) ∧ u.asPatch (name t a) = (.ok p, v) ∧ v.patchPerm (bases v p) = none
          ∧ (v.sides p).head? = some y)
        (fun _ _ => v.landLater al [SDst.rdst sd] [.word (v.queryWord p)] (v.atHome y.t 40))
    ∧ GivesIf (.pquery h sd a al)
        (fun t => t.resolve t.focus.core (name t a) = (.gone, lat, u) ∧ Name.cls (name t a) = Cls.patch)
        (fun _ _ => u.landLater al [SDst.rdst sd] [.word (BitVec.ofNat 64 (3 * 2 ^ 62))] (Nat.max 40 lat))
    ∧ GivesIf (.pxpl h d a b c x)
        (fun t =>
          let w := (t.readS c).2
          let dc := ((t.readS c).1.extractLsb' 0 32).toInt
          let dr := ((t.readS c).1.extractLsb' 32 32).toInt
          let to_ : List Side := [{ base := name t b, t := t1, h := half }]
          w.asPatch (name w a) = (.ok p, u) ∧ u.asTensor (name t b) = (.ok t1, v) ∧ v.patchPerm (bases v p ++ [t1]) = none
          ∧ (v.sides p).head? = some y ∧ p.sealer = none ∧ p.state = .sealed ∧ p.twin = none
          ∧ (x = true → v.inverse p.name = none ∧ p.inverseOf = none ∧ v.fixed p y = none)
          ∧ kindAllowed t1.fmt p.delta = true ∧ (p.delta = none → t1.fmt = y.t.fmt ∧ t1.group = y.t.group)
          ∧ colFits t1 dc = true ∧ p.half.moved y.t t1 (name t b) dr dc = some half
          ∧ v.chainWaits (v.sealLines to_ ++ (if x then y.t.linesOf y.sectors else [])) = false ∧ v.sealWaits to_ = false
          ∧ v.stuckFull to_ = false)
        (fun s t =>
          let far := if dieDist (dieOf v.focus.core) (Loc.home y.t.descLoc / 64) < dieDist (dieOf v.focus.core) (Loc.home t1.descLoc / 64)
            then t1 else y.t
          let w := v.createSealed d (fun n => { p with
            name := n, shared := false, preFlag := p.half.pre.isSome || t1.pre, state := .opened
            opener := contributor v.focus.core v.focus.bank, job := v.bank.job.getD 0, half := half, twin := none
            inverseOf := none, inexact := false, foldinx := false }) (name t b) far s.bank.pc
          if x && v.canIssueAt (name t b) then
            ((w.changeViews y.t y.sectors w.focus.core none).killPatch p.name).journalDeath p.name
          else w)

/-- NNEW, NDEST, NRES, NCAS and NCMP complete where the checks of R247 to R252 pass. The forms of NMOV move a name between n, p, h and
scalar registers, interlocked, and between an n register and 16 aligned bytes of local or CELL memory (R251). -/
def Obligations.NameWordsAndMovesComplete : Prop :=
  (∀ (h : Hdr) (d : Fin 16) (dc : Fin 8) (sa : SSrc) (a b c : NSrc) (al : BitVec 4) (e : NameEnt) (tn : Tensor) (g : Seg) (l : List Piece)
     (bytes : List Byte) (lat : Nat) (n : Name) (u w : State),
     let name (t : State) (z : NSrc) : Name := t.bank.readN z
     GivesIf (.nnew h d (.tensor sa))
       (fun t =>
         let x := (t.readS sa).1.toNat
         let v := (t.readS sa).2
         x % 64 = 0 ∧ spaceOf (t.readS sa).1 ≠ .host ∧ v.bank.pieces 0 1 x (x + 64) = .ok l ∧ l.head?.bind (fun p => p.seg) = some g
         ∧ g.patched = false ∧ v.pendingOn (g.loc x) 64 = false ∧ v.latest g x 64 = some (bytes, w)
         ∧ w.bank.tensorOf x (g.loc x) bytes = some tn)
       (fun s _ => (w.dropViews tn).newName d Cls.tensor (.tensor tn) s.bank.pc)
     ∧ GivesIf (.nnew h d (.cellseg sa)) (fun t => (t.readS sa).2.bank.cellBase (t.readS sa).1 = true)
         (fun s t => (t.readS sa).2.newName d Cls.cellseg (.cellseg (t.readS sa).1.toNat) s.bank.pc)
     ∧ GivesIf (.nnew h d (.aliasName a)) (fun t => t.resolveAs t.focus.core [Cls.tensor] (name t a) = (.ok e, lat, u))
         (fun s t => u.newName d Cls.aliasName (.aliasTo (name t a)) s.bank.pc)
     ∧ GivesIf (.ndest h a)
         (fun t => t.resolveAs t.focus.core [Cls.tensor, Cls.cellseg, Cls.aliasName] (name t a) = (.ok e, lat, u)
           ∧ (t.nameEnt (name t a)).isSome = true ∧ e.keyid = t.keyId t.bank
           ∧ (t.patchesOf (name t a)).any (fun p => p.state == .opened) = false)
         (fun s _ => (u.destroyName e).modBank (fun b =>
           { b with status := .held, holdWord := some { pc := s.bank.pc, trap := none, writes := [], flags := 0 } }))
     ∧ GivesIf (.nres h d a al) (fun t => t.resolve t.focus.core (name t a) = (.live e, lat, u) ∧ e.bind = .aliasTo n)
         (fun _ _ => (u.bumpPts u.focus.core e.pts).landLater al [.reg (.n d)] [.name n] lat)
     ∧ GivesIf (.nres h d a al) (fun t => t.resolve t.focus.core (name t a) = (.live e, lat, u) ∧ ∀ r, e.bind ≠ .aliasTo r)
         (fun _ t => u.landLater al [.reg (.n d)] [.name (name t a)] lat)
     ∧ GivesIf (.nres h d a al) (fun t => t.resolve t.focus.core (name t a) = (.gone, lat, u)) (fun _ t =>
         let v := match u.gone.find? (fun g => g.1 == name t a) with
           | none => u
           | some g => u.bumpPts u.focus.core g.2
         v.landLater al [.reg (.n d)] [.name 0] lat)
     ∧ GivesIf (.ncas h dc a b c al)
         (fun t => t.resolveAs t.focus.core [Cls.aliasName] (name t a) = (.ok e, lat, u)
           ∧ (name t c = 0 ∨ Name.formed (name t c) = true ∧ Name.cls (name t c) = Cls.tensor))
         (fun _ t =>
           let ok := e.bind == .aliasTo (name t b)
           let w := if ok then u.modEnt (name t a) (fun f => { f with bind := .aliasTo (name t c), pts := ptsMax f.pts u.cur.pts }) else u
           w.landLater al [.reg (.c dc)] [.cond ok] lat)
     ∧ Gives (.ncmp h dc a b) (fun _ t => t.resultLocked (.reg (.c dc)) (.cond (name t a == name t b)) 1))
  ∧ (∀ (h : Hdr) (d : Fin 16) (a : NSrc) (p : PSrc) (q : Fin 32) (m : MemOp) (o : Mmc) (x : Piece),
       let hi : Fin 64 := (pairRegs q).2
       let lo : Fin 64 := (pairRegs q).1
       let at_ (t : State) : Word := (t.readAddr m).1
       let u (t : State) : State := (t.readAddr m).2
       let here (t : State) : Prop := (at_ t).toNat % 16 = 0 ∧ spaceOf (at_ t) = .window ∧ inWindow (at_ t).toNat 16
       let cell (k : Nat) (t : State) : Prop := (at_ t).toNat % 16 = 0 ∧ spaceOf (at_ t) ≠ .window ∧ (u t).nameTarget k (at_ t) = .ok x
       Gives (.nmov h (.nn d a)) (fun _ t => t.resultLocked (.reg (.n d)) (.name (t.bank.readN a)) 1)
       ∧ Gives (.nmov h (.np d p)) (fun _ t => t.resultLocked (.reg (.n d)) (.name ((t.bank.readP p).getD 0)) 1)
       ∧ Gives (.nmov h (.ns d q)) (fun _ t => t.resultLocked (.reg (.n d)) (.name (t.bank.getS hi ++ t.bank.getS lo)) 1)
       ∧ Gives (.nmov h (.sn q a)) (fun _ t =>
           (t.resultLocked (.reg (.s lo)) (.word ((t.bank.readN a).extractLsb' 0 64)) 1).resultLocked (.reg (.s hi))
             (.word ((t.bank.readN a).extractLsb' 64 64)) 1)
       ∧ Gives (.nmov h (.h d a)) (fun _ t => t.resultLocked (.handle d) (.name (t.bank.readN a)) 1)
       ∧ GivesIf (.nmov h (.ld d m o)) (fun t => here t ∧ o.row = false ∧ o.opn = false
             ∧ (u t).cur.streamWaits (u t).focus.bank (at_ t).toNat 16 = false) (fun _ t =>
           ((u t).touchLocal (at_ t).toNat 16).tick.resultLocked (.reg (.n d))
             (.name (BitVec.ofNat 128 ((u t).localNat (at_ t).toNat 16))) (5 + (u t).delay))
       ∧ GivesIf (.nmov h (.ld d m o)) (fun t => cell 0 t ∧ o.row = false ∧ o.opn = false) (fun _ t =>
           (u t).modCur (fun c => c.addAll [fun w => ((u t).kind o false).access w x ((at_ t).toNat, 16) (.load .plain (.nameReg d))]))
       ∧ GivesIf (.nmov h (.st m a o)) here (fun _ t => (u t).storeLocal (at_ t).toNat (leBytes 16 ((u t).bank.readN a).toNat))
       ∧ GivesIf (.nmov h (.st m a o)) (cell 1) (fun _ t =>
           (u t).issueStore [{ x with len := 16 }] (at_ t).toNat o (leBytes 16 ((u t).bank.readN a).toNat) (List.replicate 16 0xFF)))

/-! ## Completion: control flow and synchronisation -/

namespace Sys2Proof.Machine

/-- As `GivesIf`, under a condition on the state before and the state in which the word has issued. -/
def GivesFrom (i : Instr) (cond : State → State → Prop) (post : State → State → State) : Prop :=
  ∀ n s, needOf i = some n → s.classify n none = .go → cond s (s.advance n none) → exec i s = .next (post s (s.advance n none))

/-- The stream goes on at a word address, the given number of cycles later at the earliest (R61). -/
def goTo (target : Word) (gap : Nat) (t : State) : State :=
  t.modBank (fun b => { b with pc := target.setWidth 15, bound := t.cycle + gap })

end Sys2Proof.Machine

/-- BR, BRC, JMPI, CALL, RET, LOOP, TRAP and RETT complete as R114 to R119 say: a taken transfer to an address up to 26 213 goes there in
three cycles, a loop within 32 words in one; what is not taken falls through; TRAP takes fault 0x1F and resumes after itself; RETT clears
act and goes on at rpc. -/
def Obligations.ControlFlowCompletes : Prop :=
  ∀ (h : Hdr) (ty : Fmt) (d : SDst) (a b : SSrc) (r : Fin 64) (k : Cond) (off code : BitVec 16),
    let target (s : State) : Word := branchTarget s.bank.pc off
    let there (s : State) : Prop := (target s).toNat ≤ 26213
    let next (t : State) : Prop := t.bank.pc.toNat ≤ 26213
    let holds (t : State) : Bool := compareInt k (readInt ty (t.readS a).1.toNat) (readInt ty ((t.readS a).2.readS b).1.toNat)
    let count (t : State) : Word := t.bank.getS r - 1
    let counted (s t : State) : State := t.resultS (.s r) (count t) 1 0 s.bank.pc
    GivesFrom (.br h off) (fun s _ => there s) (fun s t => goTo (target s) 3 t)
    ∧ GivesFrom (.brc h ty a b k off) (fun s t => holds t = true ∧ there s) (fun s t => goTo (target s) 3 ((t.readS a).2.readS b).2)
    ∧ GivesFrom (.brc h ty a b k off) (fun _ t => holds t = false ∧ next ((t.readS a).2.readS b).2) (fun _ t => ((t.readS a).2.readS b).2)
    ∧ GivesFrom (.jmpi h a) (fun _ t => (t.readS a).1.toNat ≤ 26213) (fun _ t => goTo (t.readS a).1 3 (t.readS a).2)
    ∧ GivesFrom (.ret h a) (fun _ t => (t.readS a).1.toNat ≤ 26213) (fun _ t => goTo (t.readS a).1 3 (t.readS a).2)
    ∧ GivesFrom (.call h d off) (fun s _ => there s)
        (fun s t => goTo (target s) 3 (t.resultS d (s.bank.pc.setWidth 64 + 1) 1 0 s.bank.pc))
    ∧ GivesFrom (.loop h r off) (fun s t => r.val ≠ 0 ∧ count t ≠ 0 ∧ there s) (fun s t =>
        goTo (target s) (if -32 ≤ off.toInt ∧ off.toInt < 0 then 1 else 3)
          ((counted s t).modBank (fun b => { b with vrb := b.vrb - 1, mrb := b.mrb - 1 })))
    ∧ GivesFrom (.loop h r off) (fun s t => r.val ≠ 0 ∧ count t = 0 ∧ next (counted s t)) counted
    ∧ Gives (.trap h code) (fun s _ => s.trap { faultDetail 0x1F code with skip := true })
    ∧ GivesFrom (.rett h) (fun _ t => t.bank.trap.act = true ∧ t.bank.trap.rpc.toNat ≤ 26213) (fun _ t =>
        goTo (t.bank.trap.rpc.setWidth 64) 3 (t.modBank (fun b => { b with trap := { b.trap with act := false }, pc := b.trap.rpc })))

/-- SWAIT, SSIG, SSET, SREAD, FENCE, YIELD, BAR and EXIT complete as R168 to R173, R177 and R178 say, where the bank owns the semaphore;
BAR and EXIT once no trap is due and all that they wait for has come. -/
def Obligations.SynchronisationCompletes : Prop :=
  ∀ (h : Hdr) (d : SDst) (a : SSrc) (k : BitVec 8) (al : BitVec 4) (scope : BitVec 3) (stage : Bool),
    let owns (t : State) : Prop := t.cur.ownsSem t.focus.bank k = true
    let due (s : State) : Option State := (if s.bank.trap.act then s else s.reportTouch).deliverDue
    let x (t : State) : Word := (t.readS a).1
    let u (t : State) : State := (t.readS a).2
    GivesIf (.swait h k) (fun t => owns t ∧ t.cur.sem k ≠ 0) (fun _ t =>
      let r := t.cur.takeSem k
      let v := (t.setCore t.focus.core r.1).modBank Bank.rereadPorts
      match r.2 with
      | none => v
      | some p => v.bumpPts v.focus.core p)
    ∧ GivesIf (.ssig h k none) (fun t => owns t ∧ t.cur.sem k ≠ 0xFFFF)
        (fun s t => t.modCur (fun c => c.addAccess (signalAccess t.focus.bank c.accSeq k none s.bank.pc)))
    ∧ GivesIf (.ssig h k (some a)) (fun t => x t &&& ~~~0x8FFF07FF = 0)
        (fun s t => (u t).modCur (fun c => c.addAccess (signalAccess (u t).focus.bank c.accSeq k (some (x t)) s.bank.pc)))
    ∧ GivesIf (.sset h k a) (fun t => owns (u t) ∧ (x t).toNat < 65536) (fun _ t =>
        (u t).modCur (fun c => { c.setSem k ((x t).setWidth 16) with
          semPts := Sparse.put c.semPts k.toNat (List.replicate ((x t).toNat % 65536) (0, false)) }))
    ∧ GivesIf (.sread h d k al) owns (fun _ t => t.resultTagged al (SDst.rdst d) (.sample (.sem k)) 2)
    ∧ Gives (.fence h scope) (fun _ t => t.modBank (fun b => { b with fenced := some scope }))
    ∧ Gives (.yield h) (fun _ t => t.leaveBank)
    ∧ (∀ s, s.classify (Need.of h).local none = .go → due s = none →
        let t := s.advance (Need.of h).local none
        t.bank.loadsLanded = true → t.cur.outstanding t.focus.bank = 0 → t.bank.stopAtBar = false →
        exec (.bar h stage) s = .next (t.arrive stage))
    ∧ GivesFrom (.exit h)
        (fun s t => due s = none ∧ t.bank.loadsLanded = true ∧ t.cur.localBusy t.focus.bank = false
          ∧ t.bank.queuesDone (t.bank.trailer.last || t.nextOverlay.isNone) = true)
        (fun _ t => t.exitTask)

/-- LAUNCH completes where its record is aligned, valid and granted, its predecessors are job names and its queue has room (R179,
R180): the job is accepted and its name goes over the record. COMM completes after a barrier has set the step-ready bit, where its
schedule is aligned, valid and in the window (R174): the bank is in the step, which ends in the next cycle where every participant is
in it and has nothing to send. -/
def Obligations.LaunchAndCommunicationStepComplete : Prop :=
  (∀ (h : Hdr) (m : MemOp),
     let at_ (t : State) : Nat := (t.readAddr m).1.toNat
     let u (t : State) : State := (t.readAddr m).2
     let bytes (t : State) : List Byte := (u t).localBytes (at_ t) 128
     let r (t : State) : LaunchRec := .parse (bytes t)
     let waits (t : State) : Bool := (u t).journaling && (u t).mark ≥ (u t).journalMark
     GivesIf (.launch h m)
       (fun t => at_ t % 64 = 0 ∧ inWindow (at_ t) 128 ∧ recordInvalid (bytes t) = false
         ∧ (u t).bank.lqgrant.getLsbD (r t).lq.val = true ∧ (u t).predFault (r t) = none ∧ (u t).queueFull (r t).lq = false
         ∧ (u t).cur.outstanding (u t).focus.bank = 0)
       (fun s t =>
         let v := ((u t).touchLocal (at_ t) 128).journalIssue
         let j := v.accept (r t) v.bank.segs (some v.cur.pts)
         let w := j.2.storeLocal (at_ t) (leBytes 16 j.1.toNat)
         if waits t then w.hold 1 s.bank.pc none [] else w))
  ∧ (∀ (h : Hdr) (m : MemOp),
       let at_ (t : State) : Nat := (t.readAddr m).1.toNat
       let u (t : State) : State := (t.readAddr m).2
       let w (t : State) : Nat := (u t).localNat (at_ t) 16
       let count (t : State) : Nat := bits (w t) 42 32
       let esize (t : State) : Nat := 16 * 2 ^ bits (w t) 45 44
       GivesIf (.comm h m)
         (fun t => t.bank.stepReady = true ∧ t.cur.coll.sched = none ∧ t.cur.localBusy t.focus.bank = false ∧ at_ t % 16 = 0 ∧ inWindow (at_ t) 16
           ∧ bits (w t) 127 46 = 0 ∧ bits (w t) 43 43 = 0 ∧ bits (w t) 45 44 ≠ 3 ∧ count t ≤ 1024
           ∧ inWindow (at_ t) (16 + count t * esize t))
         (fun _ t =>
           let stage := (u t).bank.lastBarStage
           let v := ((u t).touchLocal (at_ t) (16 + count t * esize t)).modBank (fun b =>
             { b with stepReady := false, status := .inStep stage })
           let sc : Sched := { bank := v.focus.bank, base := at_ t + 16, esize := esize t, count := count t, next := 0
                               tend := bits (w t) 31 0, t0 := v.cycle + 1 }
           let v := v.modCur (fun c => { c with coll := { c.coll with sched := some sc } })
           (match v.bank.job with
             | none => v
             | some id => if (v.participants id v.bank.stepStage).all (v.inStep stage) then
                 v.postAt (v.cycle + 1) v.focus.core v.focus.bank none (.commStepEnd id v.bank.stepStage)
               else v).leaveBank))

/-! ## Completion: queues, XM and words that are no instruction -/

/-- EQPUSH, EQPUSHV, FPUSH, QPUSH, QPOP, EQSTAT, QSTAT and ESTAT complete as R163 to R167 say: a push to an enabled queue with room enters its
entry, a pop takes the oldest entry or waits for one under its tag, a status word is sampled at the end of the next cycle. -/
def Obligations.QueueWordsComplete : Prop :=
  ∀ (h : Hdr) (d : SDst) (a : SSrc) (v : VSrc) (m : MemOp) (qc : QCode) (q : Fin 4) (q9 : Fin 9) (e : Eng) (al : BitVec 4),
    let room (t : State) : Prop := (t.bank.queue qc).en = true ∧ (t.bank.queue qc).count ≤ (t.bank.queue qc).depthm1
    let esz (t : State) : Nat := (t.bank.queue qc).esz
    let at_ (t : State) : Nat := (t.readAddr m).1.toNat
    let u (t : State) : State := (t.readAddr m).2
    let sampled (x : Sample) (s t : State) : State := t.result (some (SDst.rdst d)) (.sample x) 2 0 s.bank.pc false
    let tagged (t : State) : State := t.allocate (t.newTag al [SDst.rdst d] .i64 0 0 2)
    let some_ (t : State) : Prop := t.bank.bq[q] ≠ [] ∧ t.bank.qpops.any (fun p => p.2 == q) = false
    GivesIf (.eqpush h qc m) (fun t => room t ∧ at_ t % 16 = 0 ∧ inWindow (at_ t) (esz t) ∧ (u t).cur.streamWaits (u t).focus.bank (at_ t) (esz t) = false)
      (fun _ t => ((u t).touchLocal (at_ t) (esz t)).pushEntry qc ((u t).localBytes (at_ t) (esz t)))
    ∧ GivesIf (.eqpushv h qc v) room (fun _ t => (t.advancePorts [v]).pushEntry qc ((vecBytes (t.vec .i8 v)).take (esz t)))
    ∧ GivesIf (.fpush h a) (fun t => t.cur.fq.length < 16)
        (fun _ t => (t.readS a).2.modCur (fun c => { c with fq := c.fq ++ [((t.readS a).1.setWidth 32, (t.readS a).2.focus.bank)] }))
    ∧ Gives (.qpush h q a) (fun s t => (t.readS a).2.resultS (.aq q) (t.readS a).1 1 0 s.bank.pc)
    ∧ GivesIf (.qpop h d q al) (fun t => some_ (tagged t))
        (fun _ t => ((tagged t).popBq q).2.modBank (fun b => b.landPop ((tagged t).popBq q).2.cycle al ((tagged t).popBq q).1))
    ∧ GivesIf (.qpop h d q al) (fun t => ¬some_ (tagged t)) (fun _ t => (tagged t).modBank (fun b => { b with qpops := b.qpops ++ [(al, q)] }))
    ∧ Gives (.eqstat h d qc) (sampled (.eqstat qc)) ∧ Gives (.qstat h d q9) (sampled (.qstat q9)) ∧ Gives (.estat h d e) (sampled (.estat e))

/-- An XM and the word after it complete as one: the word's meaning under the items, where R65 allows the pair (R63 to R65); shown here
for the result of an ADD pair, adjusted, saturated and clamped. A word that is no instruction traps with fault 0x01 when its turn
comes, reporting the vector unit for the vector class (R66, R332). -/
def Obligations.XmPairsCompleteAndIllegalWordsTrap : Prop :=
  (∀ (pd : BitVec 4) (x : XmMod) (s : State),
     let w := s.bank.word (s.bank.pc.toNat + 1)
     (∀ t n f, s.bank.pc.toNat + 1 ≤ 26213 → xmPair (pd, x) (decode80 w) = some (t, n, f) → (Fields.ofWord w).pd = 0 → XmMod.fits x t n = true →
       exec (.xm pd x) s = .next (f s))
     ∧ (∀ h ty d a b, s.bank.pc.toNat + 1 ≤ 26213 → decode80 w = .add h ty d a b → (Fields.ofWord w).pd = 0 → XmMod.fits x ty 2 = true →
         s.classify ((Need.of h).s a |>.sb b |>.ds d 1 |>.div false) (some (pd, x)) = .go →
         let t := s.advance ((Need.of h).s a |>.sb b |>.ds d 1 |>.div false) (some (pd, x))
         let t1 := (t.readS a).2
         let t2 := (t1.readB immSext b).2
         let z := finishInt ty x.sat (adjI (some (pd, x)) 0 (readInt ty (t.readS a).1.toNat)
           + adjI (some (pd, x)) 1 (readInt ty (t1.readB immSext b).1.toNat))
         let lo := t2.bank.getS (Fin.ofNat 64 x.clo.toNat)
         let hi := t2.bank.getS (Fin.ofNat 64 x.chi.toNat)
         exec (.xm pd x) s = .next (t2.resultS d
           (toWord ty (if x.clen then (if ty.isFlt then clampFlt ty z.1 lo.toNat hi.toNat else clampInt ty z.1 lo.toNat hi.toNat) else z.1))
           1 z.2 s.bank.pc)))
  ∧ (∀ (w : Word80) (s : State),
       let n := Need.of (Fields.ofWord w).hdr
       s.bank.earliest n none ≤ s.cycle → s.bank.tagWait n none = false →
       exec (.illegalOpcode w) s = .next (s.trap { fault 0x01 with src := if (Fields.ofWord w).cls = 1 then 1 else 0 }))

/-! ## Completion: the system class -/

namespace Sys2Proof.Machine

/-- The bank waits for a unit outside its core to report the word complete (R331). -/
def waits (s t : State) : State :=
  t.modBank (fun b => { b with status := .held, holdWord := some { pc := s.bank.pc, trap := none, writes := [], flags := 0 } })

end Sys2Proof.Machine

/-- SEGLD, SEGINV, HTLBINV, KEYBIND, PARTSET, UCLOAD, BANKSW, IDLE and HALT complete in privileged mode as R339, R340, R344 to R354 say, where
their operands pass the checks. -/
def Obligations.SystemWordsComplete : Prop :=
  ∀ (h : Hdr) (m : MemOp) (a b : SSrc) (c : NSrc) (all : Bool) (l : List Piece) (tab : List Byte) (w : State) (e : NameEnt) (lat addr words : Nat)
    (digest : BitVec 512),
    let at_ (t : State) : Word := (t.readAddr m).1
    let u (t : State) : State := (t.readAddr m).2
    let x (t : State) : Word := (t.readS a).1
    let xs (t : State) : State := (t.readS a).2
    let y (t : State) : Word := ((t.readS a).2.readS b).1
    let ys (t : State) : State := ((t.readS a).2.readS b).2
    let slot (t : State) : Fin 128 := ((x t).extractLsb' 0 7).toFin
    let part (t : State) : BitVec 4 := (y t).extractLsb' 0 4
    let named (t : State) : List Nat := (List.range 32).filter (fun d => (x t).getLsbD d)
    let free (t : State) := (ys t).sec.bound.filter (fun p => p.1 != slot t)
    let other (t : State) : Bank := t.cur.bank !t.focus.bank
    let able (t : State) : Prop := (other t).job.isSome = true
      ∧ ((other t).status = .running ∨ (other t).status = .idle ∨ (∃ g i, (other t).status = .atBar g i)
        ∨ (∃ g, (other t).status = .inStep g) ∨ (other t).status = .held ∨ (other t).status = .pageWait)
    GivesIf (.segld h m)
      (fun t => (at_ t).toNat % 256 = 0 ∧ spaceOf (at_ t) ≠ .host ∧ (u t).translate (u t).bank 0 (at_ t) 32768 = .ok l
        ∧ l.find? (fun p => p.seg.isNone) = none ∧ (u t).bank.queuesEmpty = true ∧ (u t).anyBusy (l.flatMap Piece.lines) = false
        ∧ (u t).readPieces (u t).focus.core none l = (some tab, w)
        ∧ w.segFault (some (w.die (dieOf w.focus.core)).part) [] 0 (segEntries tab) = none)
      (fun _ _ => (w.startBias (segTable tab)).modBank (fun b => { b with segs := segTable tab, bound := w.cycle + 512 }))
    ∧ GivesIf (.seginv h a) (fun t => (x t).toNat < 1024 ∧ (xs t).bank.queuesEmpty = true)
        (fun _ t => (xs t).modBank (fun b => { b with segs := Sparse.erase b.segs (x t).toNat }))
    ∧ GivesIf (.htlbinv h a b all) (fun t => (x t).toNat < 2 ^ 20) (fun s t =>
        let pasid : BitVec 20 := (x t).setWidth 20
        let va : Option Nat := if all then none else some ((y t).toNat % 2 ^ 57)
        let hit (e : TlbEnt) : Bool := match va with
          | none => e.pasid == pasid
          | some v => e.covers pasid v
        let v := ys t
        let inv : HtlbInv := { core := v.focus.core, bank := v.focus.bank, pasid := pasid, addr := va, dies := List.range 32 }
        let v := waits s { v with dies := v.dies.map (fun (d : Die) => { d with tlb := d.tlb.filter (fun e => !hit e) })
                                  htlbInv := v.htlbInv ++ [inv] }
        (List.range 32).foldl (fun (z : State) d =>
          z.post (1 + 96 * dieDist (dieOf v.focus.core) d) none (d * 64) false none .hostTlbInvalidateAck) v)
    ∧ GivesIf (.keybind h a b)
        (fun t => (x t).toNat < 128 ∧ (y t).extractLsb' 4 59 = 0 ∧ (ys t).sec.keys.contains (slot t) = true ∧ (y t).getLsbD 63 = true
          ∧ (ys t).loadedSegs.any (fun g => g.2.keyid.toNat == (slot t).val) = false)
        (fun _ t => { ys t with sec := { (ys t).sec with bound := free t } })
    ∧ GivesIf (.keybind h a b)
        (fun t => (x t).toNat < 128 ∧ (y t).extractLsb' 4 59 = 0 ∧ (ys t).sec.keys.contains (slot t) = true ∧ (y t).getLsbD 63 = false
          ∧ (ys t).sec.bound.any (fun p => p.1 == slot t && p.2 != part t) = false)
        (fun _ t => { ys t with sec := { (ys t).sec with bound := free t ++ [(slot t, part t)] } })
    ∧ GivesIf (.partset h a b)
        (fun t => (x t).toNat < 2 ^ 32 ∧ (y t).toNat < 16 ∧ (named t).any (ys t).dieHoldsJob = false
          ∧ (ys t).loadedSegs.any (fun g => g.1 != part t && g.2.len != 0 && g.2.dieList.any (named t).contains) = false)
        (fun _ t => (named t).foldl (fun (z : State) d => z.modDie d (fun k => { k with part := part t })) (ys t))
    ∧ GivesIf (.ucload h c)
        (fun t => t.resolveAs t.focus.core [Cls.microcode] (t.bank.readN c) = (.ok e, lat, w) ∧ e.bind = .microcode addr words digest
          ∧ Config.sha3_512 (w.microWords addr words) = digest ∧ (w.cur.anvil.cur.bind (fun n => n.layer)) = none)
        (fun _ t => w.modCur (fun k => { k with
          ucode := ((List.range (Nat.min words 4096)).map (fun i =>
            (i, (BitVec.ofNat 64 (field (w.microWords addr words) (8 * i) 8) : MicroWord)))).filter (fun p => p.2 != 0)
          ucodeName := some (t.bank.readN c) }))
    ∧ GivesIf (.banksw h) able (fun _ t =>
        t.modCur (fun k => (k.modBank (!t.focus.bank) (fun b => { b with woken := true })).switchStream t.cycle))
    ∧ GivesIf (.banksw h) (fun t => ¬able t) (fun _ t => t)
    ∧ Gives (.idle h) (fun _ t => (t.modBank (fun b => { b with status := .idle, woken := false })).leaveBank)
    ∧ Gives (.halt h) (fun s t =>
        let v := (t.modBank (fun b => { b with status := .halted })).leaveBank
        match v.bank.job with
        | none => v
        | some id => v.failJob id { Report.of 0 0 with pc := s.bank.pc })

/-- BIASFLIP, BANKSAVE and BANKLOAD complete in privileged mode as R337, R338, R353 and R384 say: a flip of host-visible pages that are not
in the bias asked for is announced and waited for; a stopped and quiet bank is written out and vacated; a valid image is loaded into
an empty bank. -/
def Obligations.BanksAndBiasComplete : Prop :=
  ∀ (h : Hdr) (m : MemOp) (a b : SSrc) (dev bank : Bool) (l l2 : List Piece) (hd img : List Byte) (w z : State),
    let at_ (t : State) : Word := (t.readAddr m).1
    let u (t : State) : State := (t.readAddr m).2
    let x (t : State) : Nat := (t.readS a).1.toNat
    let y (t : State) : Nat := ((t.readS a).2.readS b).1.toNat
    let ys (t : State) : State := ((t.readS a).2.readS b).2
    let addrs (t : State) : List Nat := (List.range (y t / 4096)).map (fun i => x t + 4096 * i)
    let keys (t : State) : List Nat := (addrs t).filterMap (ys t).bank.visiblePage
    let pages (t : State) : List Nat := (keys t).filter (fun k => !(ys t).bias.any (fun z => pageKey z.1 z.2.1 z.2.2.1 == k && z.2.2.2 == dev))
    let flips (t : State) : Prop := x t % 4096 = 0 ∧ y t % 4096 = 0 ∧ 4096 ≤ y t ∧ y t ≤ 2 ^ 30
      ∧ (addrs t).find? (fun p => ((ys t).bank.visiblePage p).isNone) = none
    GivesIf (.biasflip h a b dev) (fun t => flips t ∧ pages t = []) (fun _ t => ys t)
    ∧ GivesIf (.biasflip h a b dev) (fun t => flips t ∧ pages t ≠ [] ∧ (ys t).flip = none) (fun s t =>
        let v := (ys t).dropPages (pages t)
        let f : Flip := { id := v.flipNo + 1, dev := dev, base := (keys t).headD 0 % 2 ^ 32, len := (keys t).length, pages := pages t, core := v.focus.core
                          bank := v.focus.bank }
        waits s { v with flip := some f, flipNo := v.flipNo + 1, msix := v.msix ++ [1] })
    ∧ GivesFrom (.banksave h bank m)
        (fun s t => s.saveCheck bank (at_ s) = .ok l2 ∧ (s.cur.bank bank).stopEng = true ∧ (u t).saveCheck bank (at_ t) = .ok l
          ∧ ((u t).cur.bank bank).stopEng = true ∧ (u t).bankQuiet (u t).focus.core bank true = true
          ∧ (u t).anyBusy (l.flatMap Piece.lines) = false)
        (fun _ t =>
          let v := u t
          let r := v.saveBank v.focus.core bank (2 * extentKey l + if bank then 1 else 0)
          let j := (v.cur.bank bank).job.bind v.job
          let bytes := v.imageBytes r ((j.map (fun j => j.name)).getD 0) ((j.map (fun j => j.rcd.needs)).getD 0)
          State.vacateSaved { v.writePieces l bytes with
            free := v.free + imageFree
            savedBanks := v.savedBanks.filter (fun (x : SavedBank) => x.addr / 2 != extentKey l) ++ [r] } v.focus.core bank)
    ∧ GivesIf (.bankload h bank m)
        (fun t => bank ≠ (u t).focus.bank ∧ ((u t).cur.bank bank).job = none
          ∧ (u t).imageExtent 0 (at_ t) 64 = .ok l ∧ (u t).anyBusy (l.flatMap Piece.lines) = false
          ∧ (u t).readPieces (u t).focus.core none l = (some hd, w)
          ∧ w.imageExtent 0 (at_ t) (0x100000 + 512 + field hd 32 4 + guardSize (field hd 32 4)) = .ok l2
          ∧ w.anyBusy (l2.flatMap Piece.lines) = false ∧ w.readPieces (u t).focus.core none l2 = (some img, z)
          ∧ field hd 0 4 = 0x4B4E4142 ∧ field hd 4 4 = 1 ∧ field hd 42 22 = 0
          ∧ covers (z.die (dieOf (u t).focus.core)).featmask (BitVec.ofNat 64 (field hd 24 8)) = true
          ∧ runsOverlap (imageRuns img) z.bank.runs = false ∧ z.cur.hasRoom (z.loadedBank hd img (extentKey l2)) = true)
        (fun _ t =>
          let v := { z.loadedBank hd img (extentKey l2) with bank := z.freshRegs (z.loadedBank hd img (extentKey l2)).bank }
          let r := z.modCur (fun c => c.loadBank bank v z.cycle)
          match v.bank.job with
          | none => r
          | some id => r.movePart id v.bank.gangRank ((u t).focus.core, bank))

/-- QUENCH, QRESUME, CKPT and CKRES complete in privileged mode as R361 to R375 say: a quench of a running job starts and is waited for, a
saved job is placed again, a core arrives at its checkpoint, and a saved job is brought back to one. -/
def Obligations.QuenchAndCheckpointWordsComplete : Prop :=
  ∀ (h : Hdr) (a : NSrc) (d : Fin 16) (b : SSrc) (k : BitVec 8) (now : Bool) (e : NameEnt) (lat id : Nat) (j : Job) (r : ResumeRec)
    (bk : Bool) (places : List Nat) (c : Ckpt) (w : State),
    let name (t : State) : Name := t.bank.readN a
    let step (t : State) : Nat := (t.readS b).1.toNat
    let u (t : State) : State := (t.readS b).2
    GivesIf (.quench h a now)
      (fun t => t.resolveAs t.focus.core [Cls.job] (name t) = (.ok e, lat, w) ∧ e.bind = .job id ∧ w.job id = some j ∧ j.state = .running
        ∧ w.resume.any (fun r => r.job == name t && r.state != 0) = false)
      (fun s _ => waits s (w.startQuench j now (some (w.focus.core, w.focus.bank)) false false))
    ∧ GivesIf (.qresume h a)
        (fun t => t.resolveAs t.focus.core [Cls.job] (name t) = (.ok e, lat, w) ∧ w.resume.find? (fun r => r.job == name t) = some r
          ∧ w.resumeDetail (some r) (name t) = none ∧ w.jobs.find? (fun j => j.name == name t) = some j
          ∧ w.fit j (w.holding []) [] = some (bk, places) ∧ (w.otherModules (name t) = [] ∨ Config.peersFit w.free = true)
          ∧ w.roomFor r places = true)
        (fun _ _ => w.tick.restart j r bk places)
    ∧ GivesIf (.ckpt h d b k)
        (fun t => (u t).bank.stepReady = true ∧ (u t).resolveAs (u t).focus.core [Cls.job, Cls.checkpoint] t.bank.n[d] = (.ok e, lat, w)
          ∧ w.bank.job.bind w.job = some j ∧ t.bank.n[d] = j.ckptArg ∧ w.cur.ownsSem w.focus.bank k = true
          ∧ (∀ g, w.ckpts.find? (fun c => c.job == j.id && c.name == 0) = some g → g.prev = t.bank.n[d] ∧ g.step % 2 ^ 32 = step t % 2 ^ 32)
          ∧ (∀ n x, j.lastCkpt = some (n, x) → x < step t))
        (fun s t =>
          let start : Ckpt := { name := 0, prev := t.bank.n[d], job := j.id, step := step t, marks := [], names := [], persist := [], pcs := []
                                dirty := [], patches := [], chains := [], sems := [], arrived := [], durable := false, pendingAcks := 0 }
          let v := if (w.ckpts.find? (fun c => c.job == j.id && c.name == 0)).isSome then w else { w with ckpts := w.ckpts ++ [start] }
          let v := v.modGather j.id (fun c =>
            { c with arrived := c.arrived ++ [(w.focus.core, w.focus.bank)], sems := c.sems ++ [(w.focus.core, w.focus.bank, k)] })
          let v := v.modBank (fun b =>
            { b with status := .held, holdWord := some { pc := s.bank.pc, trap := none, writes := [(.n d, .name 0)], flags := 0 } })
          match v.ckpts.find? (fun c => c.job == j.id && c.name == 0) with
          | none => v
          | some c => if (v.parts j.id).all c.arrived.contains then
              (if w.journaling && w.mark ≥ w.journalMark then v.journalIssue else v).snapshot j c
            else v)
    ∧ GivesIf (.ckres h d)
        (fun t => t.bank.n[d] ≠ 0 ∧ Name.formed t.bank.n[d] = true ∧ Name.cls t.bank.n[d] = Cls.checkpoint
          ∧ t.ckpts.find? (fun c => c.name == t.bank.n[d]) = some c ∧ t.job c.job = some j
          ∧ t.resume.find? (fun r => r.job == j.name) = some r ∧ (r.state = 1 ∨ r.state = 2 ∨ r.state = 3))
        (fun _ t => (t.rollback j c r).resultLocked (.reg (.n d)) (.name t.bank.n[d]) 1)

/-! ## Completion: engine words -/

namespace Sys2Proof.Machine

/-- The entry goes on with another stack. -/
def onWith (n : Entry) (l : List StackWord) : Entry := Entry.advance { n with pstack := l }

end Sys2Proof.Machine

/-- LIT, EXT, DUP, DROP, SWAP, OVER, NOPW and END complete with the stack effects of R68 and R195 where the stack has the values and the
room. -/
def Obligations.EngineStackWordsComplete : Prop :=
  ∀ (v : BitVec 15) (w : BitVec 14) (x y : StackWord) (r : List StackWord),
    let top (k : Nat) (n : Entry) (_ : State) : Prop := n.pstack = x :: r ∧ r.length < k
    let two (k : Nat) (n : Entry) (_ : State) : Prop := n.pstack = y :: x :: r ∧ r.length < k
    EngGives (.lit v) (fun n _ => n.pstack.length < 8) (fun n s => (onWith n (v.signExtend 48 :: n.pstack), s))
    ∧ EngGives (.ext w) (top 8) (fun n s => (onWith n (((x <<< 14) ||| w.setWidth 48) :: r), s))
    ∧ EngGives .dup (top 7) (fun n s => (onWith n (x :: x :: r), s))
    ∧ EngGives .drop (top 8) (fun n s => (onWith n r, s))
    ∧ EngGives .swap (two 7) (fun n s => (onWith n (x :: y :: r), s))
    ∧ EngGives .over (two 6) (fun n s => (onWith n (x :: y :: x :: r), s))
    ∧ EngGives .nopw (fun _ _ => True) (fun n s => (n.advance, s))
    ∧ EngGives .endw (fun _ _ => True) (fun n s => ({ n with done := true }, s))

/-- POPQ, PUSHB, CALLW, RETW, WAITK and SIGK complete as R160 and R196 to R198 say: a value is there to pop, room is there to push, the
routine lies in local memory, the semaphore is the bank's and not zero, and what the entry has asked for is done. A word that is none
of its engine's faults its entry: fault 0x0D, or 0x07 for a routine that has run out of local memory; the entry leaves the engine and
stays at the head of its queue (R68, R69, R197). -/
def Obligations.EngineFlowSignalsAndIllegalWords : Prop :=
  (∀ (a : Fin 4) (k : BitVec 8) (x : StackWord) (r : List StackWord) (q : Word) (qs : List Word) (p : WordPos) (ps : List WordPos) (c : Core),
     let bank (n : Entry) (s : State) : Bank := s.bankAt s.focus.core n.bank
     let mod (n : Entry) (s : State) (f : Bank → Bank) : State := s.modBankAt s.focus.core n.bank f
     let takes (n : Entry) (s : State) : State :=
       let u := s.setCore s.focus.core (s.cur.takeSem k).1
       match (s.cur.takeSem k).2 with
       | none => u
       | some t => u.bumpPts u.focus.core t
     EngGives (.popq a) (fun n s => n.pstack.length < 8 ∧ (bank n s).aq[a] = q :: qs)
       (fun n s => (onWith n (q.setWidth 48 :: n.pstack), mod n s (fun b => { b with aq := b.aq.set a qs })))
     ∧ EngGives (.pushb a) (fun n s => n.pstack = x :: r ∧ (bank n s).bq[a].length < 8 ∧ (bank n s).qpops.find? (fun t => t.2 == a) = none)
         (fun n s => (onWith n r, mod n s (fun b => { b with bq := b.bq.set a (b.bq[a] ++ [x.setWidth 64]) })))
     ∧ EngGives (.pushb a) (fun n s => n.pstack = x :: r ∧ (bank n s).qpops.any (fun t => t.2 == a) = true)
         (fun n s => (onWith n r, mod n s (fun b => b.pushBq s.cycle a (x.setWidth 64))))
     ∧ EngGives .callw (fun n _ => n.pstack = x :: r ∧ x.toNat % 2 = 0 ∧ x.toNat < 0x400000 ∧ n.rstack.length < 4)
         (fun n s => ({ n with pstack := r, rstack := n.advance.at_ :: n.rstack, at_ := .routine x.toNat 0 }, s))
     ∧ EngGives .retw (fun n _ => n.rstack = p :: ps) (fun n s => ({ n with
         rstack := ps
         at_ := p
         done := match p with
           | .entry i => decide (i ≥ n.header.count)
           | .routine _ _ => false }, s))
     ∧ EngGives (.waitk k) (fun n s => s.cur.ownsSem n.bank k = true ∧ s.cur.sem k ≠ 0) (fun n s => (n.advance, takes n s))
     ∧ EngGives (.sigk k)
         (fun n s => s.cur.ownsSem n.bank k = true ∧ s.cur.engDone s.engCode = true ∧ s.cur.forked n = true ∧ s.cur.incSem k s.cur.pts true = some c)
         (fun n s => (n.advance, s.setCore s.focus.core (c.wakeOwners k))))
  ∧ (∀ (w : EngWord) (s : State) (n : Entry), s.engine.cur = some n →
       let past : Option Nat := match n.at_ with
         | .routine b off => if n.layer.isNone && off < 2048 && b + 2 * off ≥ 0x400000 then some (b + 2 * off) else none
         | .entry _ => none
       let t : TrapInfo := match past with
         | some a => faultAt 0x07 (BitVec.ofNat 64 a)
         | none => fault 0x0D
       exec (.engineIllegalWord w) s = .next (
         let u := (s.engTrap s.focus.core s.engCode n t).modCore s.focus.core (fun c =>
           c.setEngine s.engCode { c.engine s.engCode with cur := none, tried := true })
         if n.fromStep.isSome then u else u.modBankAt s.focus.core n.bank (fun b => b.setQueue n.q (b.queue n.q).faulted)))

/-! ## Completion: the Anvil -/

namespace Sys2Proof.Machine

/-- A word of an entry and the micro-operation of the same effect, which a LAYER sequence holds. -/
def EngGivesBoth (i u : Instr) (cond : Entry → State → Prop) (post : Entry → State → Entry × State) : Prop :=
  EngGives i cond post ∧ EngGives u (fun n s => n.layer.isSome = true ∧ cond n s) post

/-- The Anvil registers of the entry's bank. -/
def anvilOf (n : Entry) (s : State) : AnvilBank := (s.bankAt s.focus.core n.bank).anvil

/-- The Anvil's format queue without its head. -/
def takeFormat (s : State) : State := s.modCur (fun c => { c with fq := c.fq.tail })

/-- The head of the format queue is a format word that R72 accepts and the die's features allow. -/
def formatIs (f : FmtWord) (s : State) : Prop :=
  (s.cur.fq.head?.bind (fun x => FmtWord.of x.1)) = some f ∧ f.featured (s.die (dieOf s.focus.core)).featmask = true

/-- No command on a set that a filter names is in progress. -/
def noCmd (s : State) (f : AnvilCmd → Prop) : Prop := ∀ k, k ∈ s.cur.cmds → ¬f k

end Sys2Proof.Machine

/-- SETL, SETB, ZACC, AMAXC and SWAPP, and their micro-operations, complete as R217, R218, R222, R223 and R226 say, in the order of commands
of R227. -/
def Obligations.AnvilRegisterWordsComplete : Prop :=
  ∀ (l : Fin 6) (b : Fin 8) (a : Fin 4) (x y : StackWord) (r : List StackWord) (count : BitVec 16) (stride : BitVec 32) (d : BitVec 48),
    let set (n : Entry) (s : State) (f : AnvilBank → AnvilBank) : State := s.modAnvil n f
    let owns (n : Entry) (s : State) : Prop := s.cur.ksplit = true → (n.bank = true ↔ 2 ≤ a.val)
    EngGives (.setl l) (fun n _ => n.pstack = y :: x :: r ∧ 1 ≤ x.toNat ∧ x.toNat ≤ 65535 ∧ -(2 ^ 31 : Int) ≤ y.toInt ∧ y.toInt < 2 ^ 31)
      (fun n s => (onWith n r, set n s (fun z => { z with loops := z.loops.set l (x.toNat, y.toInt) })))
    ∧ EngGives (.usetl l count stride) (fun n _ => n.layer.isSome = true ∧ count ≠ 0)
        (fun n s => (n.advance, set n s (fun z => { z with loops := z.loops.set l (count.toNat, stride.toInt) })))
    ∧ EngGives (.setb b) (fun n _ => n.pstack = x :: r) (fun n s => (onWith n r, set n s (fun z => { z with b := z.b.set b x })))
    ∧ EngGives (.usetb b d) (fun n _ => n.layer.isSome = true) (fun n s => (n.advance, set n s (fun z => { z with b := z.b.set b d })))
    ∧ EngGives (.uaddb b d) (fun n _ => n.layer.isSome = true)
        (fun n s => (n.advance, set n s (fun z => { z with b := z.b.set b (z.b[b] + d) })))
    ∧ EngGivesBoth .swapp .uswapp
        (fun n s => noCmd s (fun k => k.bank = n.bank ∧ (k.kind = .lstat ∨ ((∃ g, k.kind = .go g) ∧ s.cycle ≤ k.entered))))
        (fun n s => (n.advance, set n s (fun z => { z with stat := z.shadow, shadow := z.stat })))
    ∧ EngGivesBoth (.zacc a) (.uzacc a) (fun n s => noCmd s (fun k => k.kind = .go a ∨ k.kind = .drain a) ∧ owns n s)
        (fun n s => (n.advance, (s.modCur (fun c => { c with
          acc := c.acc.filter (fun z => z.1 / 16384 != a.val)
          marks := c.marks.filter (fun k => k / 16384 != a.val) })).startCmd (.new n (.zacc a) s.cycle (s.cycle + 3) 0)))
    ∧ EngGivesBoth (.amaxc a) (.uamaxc a) (fun _ s => noCmd s (fun k => ∃ g, k.kind = .drain g))
        (fun n s => (n.advance, s.modBankAt s.focus.core n.bank (fun b => b.writeAmax a 0)))

namespace Sys2Proof.Machine

/-- The local bytes from an address below zero or not lie in the window. -/
def intWindow (a : Int) (n : Nat) : Prop := 0 ≤ a ∧ inWindow a.toNat n

end Sys2Proof.Machine

/-- LSTAT, GO and DRAIN, and their micro-operations, complete where their format word, set and operands pass the checks of R220: the command
is on its way with the sectors of local memory that it has still to read, or with the rows that it drains under their scales and their
largest magnitudes (R225, R227, R230). A command of R227 that has read everything takes effect as it completes: a plane is filled (R221), or
the rows of the loop nest are multiplied with the stationary plane of its start and accumulated in order (R224); its flags merge into the
owning bank (R48). -/
def Obligations.TileCommandsComplete : Prop :=
  (∀ (a : Fin 4) (w : BitVec 32) (f : FmtWord),
     let head (s : State) : Prop := s.cur.fq.head?.map (fun x => x.1) = some w ∧ formatIs f s
     let owns (n : Entry) (s : State) : Prop := s.cur.ksplit = true → (n.bank = true ↔ 2 ≤ a.val)
     let base (n : Entry) (s : State) : Nat := (anvilOf n s).b[4].toNat
     let got (n : Entry) (s : State) : List (Nat × List Byte) :=
       (sectorsOf (f.checked (base n s))).map (fun x => (x.1, s.cur.anvilBytes s.cur.cmdNo x.1 x.2))
     let img (n : Entry) (s : State) : List Byte :=
       List.replicate (64 * f.tp) 0 ++ srcBytes (got n s) (base n s + 64 * f.tp) (f.tile - 64 * f.tp)
     let at_ (n : Entry) (s : State) : List (Int × Int) := (List.range (anvilOf n s).rows).map (anvilOf n s).streamAt
     let cmd (n : Entry) (k : AnvilKind) (entered due : Nat) (g : FlagSet) : AnvilCmd := { AnvilCmd.new n k entered due g with word := w }
     EngGivesBoth .lstat .ulstat
       (fun n s => head s ∧ s.cur.forked n = true ∧ noCmd s (fun k => k.bank = n.bank ∧ k.kind = .lstat)
         ∧ ¬(f.sparse = true ∧ f.b.isHalfStep = true) ∧ base n s % 32 = 0 ∧ inWindow (base n s) f.tile ∧ f.badHeader (img n s) = false
         ∧ (f.sparse = true → ∀ i q, i < 64 → q < f.kp / 4 → badNibble (f.nibble (img n s) i q) = false))
       (fun n s =>
         let u := (takeFormat s).modCur (fun c =>
           (got n s).foldl (fun (c : Core) x => (c.take (Eng.readGrant .anvil x.1)).touch n.bank x.1 x.2.length) c)
         (n.advance, u.startCmd { cmd n .lstat s.cycle (s.cycle + 7 + (f.tile + 255) / 256) 0 with
           rows := [(base n s, 0)], src := got n s, want := unread (sectorsOf [(base n s, f.tile)]) (got n s) }))
     ∧ EngGivesBoth (.go a) (.ugo a)
         (fun n s => head s ∧ s.cur.forked n = true ∧ noCmd s (fun k => k.kind = .zacc a ∨ k.kind = .drain a) ∧ owns n s
           ∧ (anvilOf n s).stat.rcd = some (f.a, f.b, f.sparse) ∧ (anvilOf n s).rows ≤ 256
           ∧ (∀ p, p ∈ at_ n s → p.1 % (4 * f.a.width : Nat) = 0 ∧ intWindow p.1 f.rowBytes
             ∧ (f.a.isLog = true → p.2 % 2 = 0 ∧ intWindow p.2 f.scaleBytes)))
         (fun n s =>
           let places := (at_ n s).map (fun y => (y.1.toNat, y.2.toNat))
           let last := Nat.max (s.cycle + 4) (s.cur.lastRow + f.cyc) + f.cyc * ((anvilOf n s).rows - 1)
           let u := (takeFormat s).modCur (fun c => { c with lastRow := last })
           (n.advance, u.startCmd { cmd n (.go a) last (last + 15) 0 with
             plane := (anvilOf n s).stat, rows := places
             want := dedup (sectorsOf (places.map (fun y => (y.1, f.rowBytes)) ++ places.map (fun y => (y.2, f.scaleBytes)))) }))
     ∧ EngGivesBoth (.drain a) (.udrain a)
         (fun n s =>
           let x := anvilOf n s
           head s ∧ s.cur.forked n = true ∧ noCmd s (fun k => k.kind = .zacc a ∨ k.kind = .go a) ∧ owns n s ∧ x.rows ≤ 256
           ∧ ¬(f.sparse = true ∧ f.b.isHalfStep = true) ∧ x.b[5].toNat % 32 = 0
           ∧ (∀ t, t < x.rows → inWindow (x.b[5].toNat + t * (8 * f.o.width)) (8 * f.o.width))
           ∧ (f.o.isLog = true → badDrainScale x.b[7] = false ∧ x.b[6].toNat % 32 = 0
             ∧ ∀ t, t < x.rows → inWindow (x.b[6].toNat + t * 32) 32))
         (fun n s =>
           let x := anvilOf n s
           let lines := (List.range x.rows).map (fun t => (t, s.cur.accRow a t))
           let done := lines.map (fun y => (y.1, f.drainRow x.b[7] y.2))
           let c := ((takeFormat s).cur).readFirst x.b[5].toNat (x.rows * (8 * f.o.width))
           let c := if f.o.isLog then c.readFirst x.b[6].toNat (x.rows * 32) else c
           let c := done.foldl (fun (c : Core) y =>
             let c := c.localWrites .anvil n.bank (x.b[5].toNat + y.1 * (8 * f.o.width)) y.2.1 (s.cycle + 8 + y.1) s.cur.cmdNo
             if f.o.isLog then c.localWrites .anvil n.bank (x.b[6].toNat + y.1 * 32) y.2.2.1 (s.cycle + 8 + y.1) s.cur.cmdNo else c) c
           let ups := lines.filterMap (fun y => (amaxCandidate y.2).map (fun m =>
             ({ bank := n.bank, reg := f.asel, val := m, due := s.cycle + 8 + y.1 } : AmaxUpd)))
           (n.advance, ((takeFormat s).setCore s.focus.core { c with amaxUpds := c.amaxUpds ++ ups }).startCmd
             (cmd n (.drain a) s.cycle (s.cycle + 7 + x.rows) (done.foldl (fun g y => g ||| y.2.2.2) 0)))))
  ∧ (∀ (s : State) (k : AnvilCmd) (a : Fin 4) (f : FmtWord),
       let core := s.focus.core
       let ends (fl : FlagSet) (u : State) : Prop :=
         exec (.anvilCommandComplete k.id) s = .next (u.mergeFlags core k.bank fl 2 k.detail k.upc)
       s.cur.cmds.find? (fun c => c.id == k.id) = some k → k.want = [] → FmtWord.of k.word = some f →
       let base := (k.rows.headD (0, 0)).1
       let plane := f.fillPlane (srcBytes k.src base f.tile)
       let sum := k.rows.zipIdx.foldl (fun g y => f.goRow a y.2 k.plane (srcBytes k.src y.1.1 f.rowBytes)
         (srcBytes k.src y.1.2 f.scaleBytes) g) { acc := s.cur.acc, marks := s.cur.marks, flags := 0 }
       (k.kind = .lstat → ends plane.2 (s.modBankAt core k.bank (fun b => { b with anvil := { b.anvil with shadow := plane.1 } })))
       ∧ (k.kind = .go a → ends sum.flags (s.modCur (fun c => { c with acc := sum.acc, marks := sum.marks })))
       ∧ (k.kind = .drain a ∨ k.kind = .zacc a → ends k.flags s))

/-- LAYER takes its entry into the microcode store, and uend, usetlc, uloop and ustripe complete there (R231 to R234). -/
def Obligations.LayerWordsComplete : Prop :=
  ∀ (a : Fin 4) (x : StackWord) (r : List StackWord) (v : BitVec 16) (target : BitVec 12) (k : Fin 4) (p : Nat),
    let inside (n : Entry) (_ : State) : Prop := n.layer = some (k, p)
    let counter (n : Entry) (s : State) : BitVec 16 := (anvilOf n s).lc[a] - 1
    let next (n : Entry) : Entry := { n with layer := some (k, p + 1), stripe := false }
    EngGives (.layer a) (fun n s => n.pstack = x :: r ∧ s.cur.ucodeName.isSome = true ∧ x.toNat < 4096)
      (fun n s => ({ n with pstack := r, layer := some (a, x.toNat), stripe := false }, s))
    ∧ EngGives .uend inside (fun n s => (Entry.advance { n with layer := none, stripe := false }, s))
    ∧ EngGives (.usetlc a v) inside (fun n s => (next n, s.modAnvil n (fun z => { z with lc := z.lc.set a v })))
    ∧ EngGives (.uloop a target) (fun n s => inside n s ∧ counter n s = 0)
        (fun n s => (next n, s.modAnvil n (fun z => { z with lc := z.lc.set a 0 })))
    ∧ EngGives (.uloop a target) (fun n s => inside n s ∧ counter n s ≠ 0)
        (fun n s => ({ n with layer := some (k, target.toNat), stripe := false },
          s.modAnvil n (fun z => { z with lc := z.lc.set a (counter n s) })))
    ∧ EngGives .ustripe inside (fun n s => ({ next n with stripe := true }, s))

/-! ## Completion: the copy engine -/

namespace Sys2Proof.Machine

/-- The operands l of a copy word that takes k of them, deepest first, and the entry without them. -/
def operands (n : Entry) (l : List StackWord) (r : List StackWord) : Prop := n.pstack = l.reverse ++ r

/-- What an engine's word does that reads ranges of local memory sector by sector (R79, R83), in the state `at_` in which it reads them: in each
turn it reads some of the sectors that it still wants, and keeps them; in the turn that reads the last ones it takes its effect with their
bytes, where `fits` holds of them, from the state before that turn's reads and the one after. -/
def EngReads (i : Instr) (ranges : Entry → State → List (Nat × Nat)) (at_ : Entry → State → State) (cond : Entry → State → Prop)
    (fits : (Nat → Nat → List Byte) → Entry → State → Prop) (post : (Nat → Nat → List Byte) → Entry → State → State → Entry × State) : Prop :=
  ∀ s n, s.engine.cur = some n → cond n (wordState s) →
    let v := at_ n (wordState s)
    let l := unread (sectorsOf (ranges n v)) n.src
    let r := v.cur.readSome v.engCode n.bank v.free l
    let w := (v.skip l.length).setCore v.focus.core r.2
    let get := srcBytes (n.src ++ r.1)
    ((unread l r.1).isEmpty = true → fits get n w →
      exec i s = .next ((post get n v w).2.modEngine (fun x => { x with cur := some (post get n v w).1 })))
    ∧ ((unread l r.1).isEmpty = false → exec i s = .next (w.modEngine (fun x =>
        { x with cur := x.cur.map (fun m => { m with src := n.src ++ r.1, want := unread l r.1 }) })))

end Sys2Proof.Machine

/-- TLOAD and TSTORE complete on a tile that fits (R192, R193, R200): the slot names a live tensor, or an OPEN patch that is no pair;
the local bytes are free of earlier accesses of the engine; the runs translate, and for a store keep the rules of R259. TPAIR and
TXPOSE complete (R201, R202): a pair's store puts the tile into the plain half and its transpose into the twin half, with the flags of
rounding; a transposing load collects the tile and writes its transpose when it is whole. A store reads its tile sector by sector. -/
def Obligations.TileAndTransposingWordsComplete : Prop :=
  (∀ (slot : Fin 16) (row col la : StackWord) (r : List StackWord) (x : Name) (b : Name × Tensor) (t : Tensor) (p : Patch) (u : State)
     (ps : List (List Piece)) (accs : List (Nat → Access)),
     let q := TileReq.of row.toNat col.toNat
     let size : Nat := tileBytes t.fmt t.group q.rows q.cols
     let bank (n : Entry) (s : State) : Bank := s.bankAt s.focus.core n.bank
     let ready (cs : List (BitVec 8)) (n : Entry) (s : State) : Prop := operands n [row, col, la] r ∧ s.cur.copyWaits n = false
       ∧ s.slotName { n with pstack := r } slot cs = (.ok x, u)
     let read (n : Entry) (v : State) (z : Tensor) : Prop := v.anyBusy [Loc.line z.descLoc] = false
       ∧ (v.fetchDesc z).reread (bank n (v.fetchDesc z)) z = .ok t
     let fits (v : State) : Prop := q.fault t la.toNat = none ∧ v.cur.engTouches .copy la.toNat size = false
     EngGives (.tload slot)
       (fun n s => ready [Cls.tensor, Cls.patch] n s ∧ u.tensorOfName x = some b ∧ read n u b.2 ∧ fits (u.fetchDesc b.2)
         ∧ (u.fetchDesc b.2).translateAll (bank n (u.fetchDesc b.2)) 0
             ((q.runs t (BitVec.ofNat 4 (n.padCode t))).map (fun r => (r.2.addr, r.2.len))) = .ok ps)
       (fun n _ =>
         let m : Entry := { n with pstack := r }
         let pad := n.padCode t
         let loads := ((q.runs t (BitVec.ofNat 4 pad)).zip ps).flatMap (fun y =>
           loadRun (copyKind m x) y.1.2 false (fun off hi => y.1.2.dst t (la.toNat + y.1.1 + y.1.2.off + off) hi) y.2)
         let v := u.fetchDesc b.2
         let v := v.modCur (fun c => (q.pads t pad).foldl (fun (c : Core) y =>
           c.localWrites .copy n.bank (la.toNat + y.1) y.2 (v.cycle + 1) 0) c)
         (m.advance, v.modCur (fun c => c.addAll loads)))
     ∧ EngReads (.tstore slot) (fun _ _ => [(la.toNat, size)]) (fun _ _ => u.fetchDesc b.2)
         (fun n s => ready [Cls.patch] n s ∧ u.patch x = some p ∧ p.state = .opened ∧ p.twin = none ∧ u.tensor p.half.base = some b.2
           ∧ read n u b.2 ∧ fits (u.fetchDesc b.2))
         (fun get n w => w.tileStores { n with pstack := r } p.name false q t (get la.toNat size) = .ok accs)
         (fun _ n _ w => (onWith n r, w.modCur (fun c => c.addAll accs))))
  ∧ (∀ (slot : Fin 16) (row col la : StackWord) (r : List StackWord) (x : Name) (b : Name × Tensor) (t w : Tensor) (p : Patch) (hw : PHalf)
       (u : State) (ps : List (List Piece)) (accs twins : List (Nat → Access)),
       let q := TileReq.of row.toNat col.toNat
       let size : Nat := tileBytes t.fmt t.group q.rows q.cols
       let sizeX : Nat := tileBytes t.fmt t.group q.cols q.rows
       let bank (n : Entry) (s : State) : Bank := s.bankAt s.focus.core n.bank
       let ready (cs : List (BitVec 8)) (n : Entry) (s : State) : Prop := operands n [row, col, la] r ∧ s.cur.copyWaits n = false
         ∧ s.slotName { n with pstack := r } slot cs = (.ok x, u)
       let read (n : Entry) (v : State) (z : Tensor) : Prop := v.anyBusy [Loc.line z.descLoc] = false
         ∧ (v.fetchDesc z).reread (bank n (v.fetchDesc z)) z = .ok t
       let v := u.fetchDesc b.2
       let flipped (get : Nat → Nat → List Byte) := transposeTile t.fmt q.rows q.cols (q.rowIn t) (get la.toNat size)
       let hi := (q.colsIn t).2
       let rhi := (min (q.row + q.rows) (t.rows : Int)).toNat
       let cut : Tensor := { w with rows := Nat.min w.rows hi, cols := Nat.min w.cols rhi }
       EngReads (.tpair slot) (fun _ _ => [(la.toNat, size)]) (fun _ _ => v)
         (fun n s => ready [Cls.patch] n s ∧ u.patch x = some p ∧ p.state = .opened ∧ p.twin = some hw ∧ u.tensor p.half.base = some b.2
           ∧ read n u b.2 ∧ v.tensor hw.base = some w ∧ t.fmt.isHalfStep = false ∧ q.fault t la.toNat = none
           ∧ q.flip.aligned w = true ∧ v.cur.engTouches .copy la.toNat size = false)
         (fun get n z => z.tileStores { n with pstack := r } p.name false q t (get la.toNat size) = .ok accs
           ∧ z.tileStores { n with pstack := r } p.name true q.flip cut (flipped get).1 = .ok twins)
         (fun get n _ z => (onWith n r, z.sendWord { n with pstack := r }
           (if (q.colsIn t).1 < hi ∧ q.row.toNat < rhi then accs ++ twins else accs) (flipped get).2))
       ∧ EngGives (.txpose slot)
           (fun n s => (s.die (dieOf s.focus.core)).featmask.getLsbD 4 = true ∧ ready [Cls.tensor, Cls.patch] n s
             ∧ u.tensorOfName x = some b ∧ read n u b.2 ∧ t.fmt.isHalfStep = false ∧ (t.fmt.isLog = true → q.rows % 32 = 0)
             ∧ q.aligned t = true ∧ la.toNat % 32 = 0 ∧ localFault la.toNat sizeX = none ∧ v.cur.engTouches .copy la.toNat sizeX = false
             ∧ v.translateAll (bank n v) 0 ((q.runs t (BitVec.ofNat 4 (n.padCode t))).map (fun r => (r.2.addr, r.2.len))) = .ok ps)
           (fun n _ =>
             let m : Entry := { n with pstack := r }
             let pad := n.padCode t
             let loads := ((q.runs t (BitVec.ofNat 4 pad)).zip ps).flatMap (fun y =>
               loadRun (copyKind m x) y.1.2 false (fun off hi => .xpose (y.1.1 + y.1.2.off + off) hi) y.2)
             let tile := (q.pads t pad).foldl (fun l y => putBytes l y.1 y.2) (List.replicate size 0)
             let z := v.modCur (fun c => { c.addAll loads with xposes := c.xposes ++
               [{ word := v.cur.accSeq, bank := n.bank, image := tile, rows := q.rows, cols := q.cols, fmt := t.fmt, laddr := la.toNat
                  detail := m.detail, upc := m.upc }] })
             (m.advance, if loads.isEmpty then z.finishXpose v.focus.core v.cur.accSeq else z)))

/-- EGATH, TPAD, LCOPY, SLOAD and SSTORE complete as R199, R203, R204, R209 and R210 say: the rows that the indices name are loaded
whole, those outside the tensor and the tails are filled; the whole source of a local copy is read before it is written. A TREE arrives;
where every participant has come with its operands the levels begin; a core without a partner goes on, and one whose part is over is
done (R207). -/
def Obligations.StagingGatherAndTreeComplete : Prop :=
  (∀ (slot : Fin 16) (o1 o2 o3 o4 : StackWord) (r : List StackWord) (x : Name) (b : Name × Tensor) (t : Tensor) (u : State)
     (ps : List (List Piece)),
     let bank (n : Entry) (s : State) : Bank := s.bankAt s.focus.core n.bank
     let idx := o1.toNat
     let count := o2.toNat
     let la := o3.toNat
     let size : Nat := tileBytes t.fmt t.group count t.cols
     let tp := tilePitch t.fmt t.cols
     let ap := auxPitch t.fmt t.group t.cols
     let v := u.fetchDesc b.2
     let row (get : Nat → Nat → List Byte) (i : Nat) : TileReq :=
       { row := (leNat (get (idx + 4 * i) 4) : Int), rows := 1, col := 0, cols := t.cols }
     let auxRow (get : Nat → Nat → List Byte) (i : Nat) : TileReq :=
       { row get i with cols := (t.cols + t.auxUnit.2 - 1) / t.auxUnit.2 * t.auxUnit.2 }
     let runs (get : Nat → Nat → List Byte) : List (Nat × Nat × Run) :=
       (List.range count).filterMap (fun i => ((row get i).run t 0 0).map (fun r => (i, i * tp, r)))
         ++ (List.range count).filterMap (fun i => ((auxRow get i).auxRun t 0).map (fun r => (i, count * tp + i * ap, r)))
     let scale (n : Entry) : Nat := if t.fmt.isLog = true ∧ n.padCode t = Fmt.lzero t.fmt then 0x200 else 0
     let blocks := t.auxBytes / t.auxUnit.1
     let fill (get : Nat → Nat → List Byte) (n : Entry) : List (Nat × List Byte) := (List.range count).flatMap (fun i =>
       let out := !(row get i).rowIn t 0
       (if out then [(i * tp, padBits t.fmt.width (n.padCode t) t.cols)] else [])
         ++ (if tp - t.rowBytes = 0 then [] else [(i * tp + t.rowBytes, List.replicate (tp - t.rowBytes) (0 : Byte))])
         ++ (if t.auxUnit.1 = 0 then [] else
           (if out then [(count * tp + i * ap,
             leBytes t.auxBytes (sumNat ((List.range blocks).map (fun k => scale n * 2 ^ (8 * t.auxUnit.1 * k)))))] else [])
             ++ [(count * tp + i * ap + t.auxBytes, List.replicate (ap - t.auxBytes) (0 : Byte))]))
     let die (s : State) : Nat := if o1.toNat < 2048 then dieOf s.focus.core else o1.toNat / 64 % 32
     let staged (store : Bool) (n : Entry) (s : State) : Prop := operands n [o1, o2, o3, o4] r ∧ s.cur.copyWaits n = false
       ∧ o1.toNat < 4096 ∧ (o1.toNat < 2048 → o1.toNat < 64) ∧ o2.toNat % 32 = 0 ∧ o3.toNat % 32 = 0 ∧ o4.toNat % 32 = 0
       ∧ 0 < o4.toNat ∧ o4.toNat ≤ 2 ^ 20 ∧ inWindow o3.toNat o4.toNat
       ∧ o2.toNat + o4.toNat ≤ (s.slice (die s) (o1.toNat % 64)).staged * 131072
       ∧ (bank n s).stagingGrant (if store then 1 else 0) (die s) (o1.toNat % 64) = true
       ∧ s.cur.engTouches .copy o3.toNat o4.toNat = false
     let move (store : Bool) (n : Entry) (s : State) : Entry × State :=
       let key := die s * 64 + o1.toNat % 64
       let units := (cutAt 32 (o4.toNat / 32 + 1) 0 o4.toNat).map (fun u => fun w =>
         { (copyKind { n with pstack := r } 0).access w { addr := o2.toNat + u.1, len := u.2, seg := none } (o2.toNat + u.1, u.2)
             (.stage store key (o2.toNat + u.1) (o3.toNat + u.1)) with target := .staging, loc := { lo := key, nd := 0, q := o2.toNat + u.1 } })
       (onWith n r, s.modCur (fun c => (if store then c.touch n.bank o3.toNat o4.toNat else c).addAll units))
     EngReads (.egath slot) (fun _ _ => [(idx, 4 * count)]) (fun _ _ => v)
       (fun n s => (s.die (dieOf s.focus.core)).featmask.getLsbD 3 = true ∧ operands n [o1, o2, o3] r ∧ s.cur.copyWaits n = false
         ∧ s.slotName { n with pstack := r } slot [Cls.tensor, Cls.patch] = (.ok x, u) ∧ u.tensorOfName x = some b
         ∧ u.anyBusy [Loc.line b.2.descLoc] = false ∧ v.reread (bank n v) b.2 = .ok t
         ∧ count ≤ 4096 ∧ t.rowBytes ≤ 512 ∧ t.pitch % 512 = 0 ∧ idx % 4 = 0 ∧ la % 32 = 0
         ∧ localFault idx (4 * count) = none ∧ localFault la size = none
         ∧ v.cur.engTouches .copy idx (4 * count) = false ∧ v.cur.engTouches .copy la size = false)
       (fun get n w => w.translateAll (bank n w) 0 ((runs get).map (fun r => (r.2.2.addr, r.2.2.len))) = .ok ps)
       (fun get n _ w =>
         let m : Entry := { n with pstack := r }
         let loads := ((runs get).zip ps).flatMap (fun y =>
           loadRun (copyKind m x) y.1.2.2 true (fun off hi => y.1.2.2.dst t (la + y.1.2.1 + off) hi) y.2)
         let z := w.modCur (fun c => ((fill get n).filter (fun y => !y.2.isEmpty)).foldl (fun (c : Core) y =>
           c.localWrites .copy n.bank (la + y.1) y.2 (w.cycle + 1) 0) c)
         (m.advance, z.modCur (fun c => c.addAll loads)))
     ∧ EngGives .tpad (fun n _ => n.pstack = o1 :: r) (fun n s => (Entry.advance { n with pstack := r, pad := some o1 }, s))
     ∧ EngReads .lcopy (fun _ _ => [(o2.toNat, o3.toNat)]) (fun _ s => s)
         (fun n s => operands n [o1, o2, o3] r ∧ o1.toNat % 32 = 0 ∧ o2.toNat % 32 = 0 ∧ o3.toNat % 32 = 0
           ∧ localFault o2.toNat o3.toNat = none ∧ localFault o1.toNat o3.toNat = none
           ∧ s.cur.forked n = true ∧ s.cur.engTouches .copy o2.toNat o3.toNat = false ∧ s.cur.engTouches .copy o1.toNat o3.toNat = false)
         (fun _ _ _ => True)
         (fun get n _ w => (onWith n r, w.modCur (fun c =>
           c.localWrites .copy n.bank o1.toNat (get o2.toNat o3.toNat) (w.cycle + 1) 0)))
     ∧ EngGives .sload (staged false) (move false)
     ∧ EngGives .sstore (staged true) (move true))
  ∧ (∀ (s : State) (n : Entry) (la k : StackWord) (r : List StackWord), s.engine.cur = some n → n.pstack = k :: la :: r →
       k.toNat % 64 = 0 → 64 ≤ k.toNat → k.toNat ≤ 262144 → la.toNat % 256 = 0 → localFault la.toNat (4 * k.toNat) = none →
       let v := wordState s
       let core := s.focus.core
       let parts := v.clusterGang core n.bank
       let stay (z : State) : Host.Outcome State Fault Refusal := .next (z.modEngine (fun x => { x with cur := some n }))
       let step (t : TreeWord) : Nat := 2 ^ (t.level - 1)
       let first (t : TreeWord) : Prop := core % 8 % (2 * step t) = 0
       (s.cur.treeAt = none → v.cur.forked n = true → v.cur.engTouches .copy la.toNat (4 * k.toNat) = false →
         exec .tree s = stay (v.modCur (fun c => { c with
           treeCount := v.cur.treeCount + 1
           treeAt := some { inst := v.cur.treeCount + 1, laddr := la.toNat, count := k.toNat, level := 0 } })))
       ∧ (∀ t, v.cur.treeAt = some t →
           (t.level = 0 → (∃ y : Nat × Nat, ∀ c, c ∈ parts → (v.treeOf n.bank t.inst c).map (fun z => (z.laddr, z.count)) = some y) →
             exec .tree s = stay (parts.foldl (fun (z : State) c => z.modCore c (fun x => x.atLevel 1)) v))
           ∧ (1 ≤ t.level → t.level ≤ 3 → first t → parts.contains (core + step t) = false →
             exec .tree s = stay (v.modCur (fun c => c.atLevel (t.level + 1))))
           ∧ (1 ≤ t.level → t.level ≤ 3 → ¬first t → parts.contains (core - step t) = false →
             exec .tree s = stay (v.modCur (fun c => c.atLevel 4)))
           ∧ (4 ≤ t.level → v.cur.copyLanded = true →
             exec .tree s = .next ((v.modCur (fun c => { c with treeAt := none })).modEngine (fun x => { x with cur := some (onWith n r) })))))

/-! ## Completion: the collective engine -/

/-- CPUT, CRED, CBCAST, CSIG and CSLOT complete as R174, R358 to R360 say: the bytes leave in packets to the core named, or to the others
of the group, once they have been read; a signal follows the entry's earlier transfers; a slot begins at its time. -/
def Obligations.CollectiveWordsComplete : Prop :=
  ∀ (a : Fin 4) (k : BitVec 8) (o1 o2 o3 o4 : StackWord) (r : List StackWord) (c : Core) (sc : Sched) (at_ : Nat),
    let core (o : StackWord) : Prop := badCoreOperand o.toNat = false
    let put (get : Nat → Nat → List Byte) (n : Entry) (w : State) (typ : BitVec 4) (arg : BitVec 8) (s : State) : Entry × State :=
      (onWith n r, w.transfer { n with pstack := r } typ arg [s.operandCore o1.toNat] o2.toNat (get o3.toNat o4.toNat))
    let puts (n : Entry) (s : State) : Prop := operands n [o1, o2, o3, o4] r ∧ core o1 ∧ s.cur.forked n = true ∧ o2.toNat % 32 = 0 ∧ o3.toNat % 32 = 0 ∧ o4.toNat % 32 = 0
      ∧ 0 < o4.toNat ∧ o4.toNat ≤ 2 ^ 20 ∧ o3.toNat + o4.toNat ≤ 0x400000 ∧ o2.toNat + o4.toNat ≤ 0x400000
    EngReads .cput (fun _ _ => [(o3.toNat, o4.toNat)]) (fun _ s => s) puts (fun _ _ _ => True) (fun get n v w => put get n w 0 0 v)
    ∧ EngReads (.cred a) (fun _ _ => [(o3.toNat, o4.toNat)]) (fun _ s => s) puts (fun _ _ _ => True)
        (fun get n v w => put get n w 1 (BitVec.ofNat 8 a.val) v)
    ∧ EngReads .cbcast (fun _ _ => [(o2.toNat, o3.toNat)]) (fun _ s => s)
        (fun n s => operands n [o1, o2, o3] r ∧ s.cur.forked n = true ∧ o1.toNat ≤ 3 ∧ o2.toNat % 32 = 0 ∧ o3.toNat % 32 = 0 ∧ 0 < o3.toNat ∧ o3.toNat ≤ 2 ^ 20
          ∧ o2.toNat + o3.toNat ≤ 0x400000)
        (fun _ _ _ => True)
        (fun get n v w => (onWith n r, w.transfer { n with pstack := r } 3 0
          ((v.groupCores n.bank o1.toNat).map (fun c => (Config.moduleNumber, BitVec.ofNat 11 c))) o2.toNat (get o2.toNat o3.toNat)))
    ∧ EngGives (.csig k)
        (fun n s => operands n [o1] r ∧ core o1 ∧ o1.toNat / 2 ^ 30 % 2 = 1 ∧ s.cur.ownsSem n.bank k = true
          ∧ (∀ y, y ∈ s.cur.sends → y.left = 0) ∧ s.cur.forked n = true ∧ s.cur.incSem k s.cur.pts true = some c)
        (fun n s => (onWith n r, s.setCore s.focus.core (c.wakeOwners k)))
    ∧ EngGives (.csig k)
        (fun n s => operands n [o1] r ∧ core o1 ∧ o1.toNat / 2 ^ 30 % 2 = 0 ∧ (∀ y, y ∈ s.cur.sends → y.left = 0)
          ∧ s.cur.forked n = true)
        (fun n s =>
          let m : Entry := { n with pstack := r }
          let d := s.operandCore o1.toNat
          (m.advance, (s.noteSend m 1).sendPacket { s.entryPacket m 2 d.1 d.2 with arg := k }))
    ∧ EngGives .cslot
        (fun n s => operands n [o1] r ∧ n.fromStep = some at_ ∧ s.cur.coll.sched = some sc ∧ sc.t0 + o1.toNat ≤ s.cycle)
        (fun n s =>
          let v := s.modCur (fun c => { c with sends := limitSends n.bank (some (sc.t0 + o1.toNat)) c.sends })
          (onWith n r, if v.cur.sends.any (fun y => y.bank == n.bank && y.limit.isSome) then
            v.postAt s.cycle s.focus.core n.bank (some .coll) .slotOverrun else v))

/-! ## Completion: the steps that the machine sends itself -/

namespace Sys2Proof.Machine

/-- Where a condition holds the step completes in the state that `post` gives. -/
def Done (i : Instr) (cond : State → Prop) (post : State → State) : Prop := ∀ s, cond s → exec i s = .next (post s)

end Sys2Proof.Machine

/-- Engines take and finish entries as R70, R158, R159 and R174 say; a tile command that completes merges its flags (R48, R227), and one that
has source sectors still to read which no bank of local memory gives it this cycle tries again in the next (R79, R148); a slot that has
begun judges the transfers before it (R174). -/
def Obligations.EngineEventsComplete : Prop :=
  ∀ (pos : Nat) (bank : Bool) (qc : QCode) (n : Entry) (id : Nat) (k : AnvilCmd),
    let head (s : State) : EntryHdr := EntryHdr.of (s.cur.headHdr ((s.cur.bank bank).queue qc))
    Done .entryStart
      (fun s => s.cur.canStart s.cycle s.engCode = true ∧ s.cur.resuming s.engCode = none ∧ s.engine.sched = none
        ∧ s.cur.nextQueue s.cycle s.engCode = some (pos, bank, qc)
        ∧ (head s).fault s.cur bank ((s.cur.bank bank).queue qc).capacity = none)
      (fun s =>
        let q := (s.cur.bank bank).queue qc
        let e := Entry.begin bank qc q.head (s.cur.headHdr q) (q.forks.headD 0) none
        let u := s.setCore s.focus.core (if (head s).wv then (s.cur.takeSem (head s).wsem).1 else s.cur)
        let v := match (if (head s).wv then (s.cur.takeSem (head s).wsem).2 else none) with
          | none => u
          | some p => u.bumpPts s.focus.core p
        v.modCore s.focus.core (fun c => (c.modBank bank (fun b => b.setQueue qc { b.queue qc with hd := .started })).setEngine s.engCode
          { c.engine s.engCode with last := pos, cur := some e }))
    ∧ Done .entryComplete
        (fun s => s.engine.cur = some n ∧ n.done = true ∧ s.cur.engDone s.engCode = true ∧ s.cur.forked n = true)
        (fun s =>
          let u := if n.header.sv then s.engSignal n n.header.ssem else s
          let v := if n.fromStep.isSome then u else u.modBankAt s.focus.core n.bank (fun b => b.setQueue n.q (b.queue n.q).complete)
          v.modEngine (fun x => { x with cur := none, tried := true }))
    ∧ Done (.anvilCommandComplete id)
        (fun s => s.cur.cmds.find? (fun c => c.id == id) = some k ∧ k.want = [] ∧ FmtWord.of k.word = none)
        (fun s => s.modBankAt s.focus.core k.bank (fun b => b.merge
          { flags := k.flags, pc := 0, vecUnit := false
            eng := some ({ fault 0x1E with src := 2, detail := k.detail, mpc := k.upc }.held s.cycle) }))
    ∧ Done (.anvilCommandComplete id)
        (fun s => s.cur.cmds.find? (fun c => c.id == id) = some k ∧ k.want ≠ []
          ∧ (∀ x, x ∈ k.want → s.cur.mayTake (Eng.readGrant .anvil x.1) = false))
        (fun s => (s.modCur (fun c => { c with cmds := c.cmds.map (fun m => if m.id == id then { m with due := s.cycle + 1 } else m) })).postAt
          (s.cycle + 1) s.focus.core k.bank (some .anvil) (.anvilCommandComplete id))
    ∧ Done .slotOverrun (fun _ => True) (fun s => s.modCur (fun c => c.judge s.focus.bank))

/-- What comes back to a bank: a landing writes its registers and frees its tag (R62, R333), a store is acknowledged (R390), a refusal
and a late write into a patch are reported (R206, R333), a signal's acknowledgement counts it (R170), a base home's report lets the
bank go on (R276). A stream goes on as R124, R177, R178 and R340 say: a woken bank issues again, a bank takes its return, the next
overlay is loaded, and a trap that is due is taken. -/
def Obligations.BankReportsAndStreamEventsComplete : Prop :=
  (∀ (t : BitVec 4) (r : TagRec) (seq : Nat) (a : Access) (code k : BitVec 8) (err : Option (BitVec 8)) (x : Word) (w : HeldWord)
     (e : Eng) (n : Entry),
     let counted (s : State) : State := s.modCur (fun c => { c with
       sigs := c.sigs.erase { bank := s.focus.bank, k := k, operand := x }
       accs := c.accs.map (fun a => if a.bank == s.focus.bank && a.eng.isNone && a.rel then { a with tried := true } else a) })
     let out (s : State) : Bool := s.cur.sigs.contains { bank := s.focus.bank, k := k, operand := x }
     let waiting (s : State) : Bool := s.journalWaits.any (fun w => w.2.1 == s.focus.core && w.2.2.1 == s.focus.bank)
     Done (.loadLand t) (fun s => s.bank.tags.find? (fun r => r.tag == t) = some r ∧ r.ready = true ∧ r.failed = false)
       (fun s =>
         let u := (s.modBank (fun b => { b with tags := b.tags.filter (fun x => x.tag != t) })).modCur (fun c =>
           c.fillStores s.focus.bank s.cycle r)
         (u.modBank (fun b => (r.dst.zip r.values).foldl (fun b x => b.put x.1 x.2) b)).memFlags s.focus.core s.focus.bank r.flags)
     ∧ Done (.loadLand t) (fun s => s.bank.tags.find? (fun r => r.tag == t) = some r ∧ r.ready = true ∧ r.failed = true)
         (fun s => (s.modBank (fun b => { b with tags := b.tags.filter (fun x => x.tag != t) })).modCur (fun c => { c with
           laccs := c.laccs.filter (fun x => !(x.waits && x.bank == s.focus.bank && x.tag == t)) }))
     ∧ Done (.storeAck seq) (fun s => s.cur.access seq = some a) (fun s =>
         ((match a.carry with
           | none => s
           | some w => s.bumpPts s.focus.core w).wordFlags s.focus.core a).finish s.focus.core a)
     ∧ Done (.errorResponse code seq) (fun s => s.cur.access seq = some a) (fun s => s.refuse s.focus.core a code)
     ∧ Done (.latePatchWrite x) (fun s => s.focus.eng = none) (fun s =>
         s.holdTrap s.focus.core s.focus.bank { faultAt 0x14 (x / 32 * 32) with src := 5 })
     ∧ Done (.latePatchWrite x) (fun s => s.focus.eng = some e ∧ (s.cur.engine e).cur = some n) (fun s =>
         s.engTrap s.focus.core e n (faultAt 0x14 (x / 32 * 32)))
     ∧ Done (.signalAck none k x) (fun s => out s = true) counted
     ∧ Done (.signalAck err k x) (fun s => err = some code ∧ out s = true) (fun s =>
         (counted s).holdTrap s.focus.core s.focus.bank { faultAt code x with src := 5, detail := k.setWidth 16 })
     ∧ Done .baseHomeReport (fun s => waiting s = true) (fun s => s.postAt (s.cycle + 1) s.focus.core s.focus.bank none .baseHomeReport)
     ∧ Done .baseHomeReport (fun s => waiting s = false ∧ s.bank.holdWord = some w ∧ w.trap = none) (fun s =>
         (s.modBank (fun b => b.resume s.cycle)).modBank (fun b =>
           (w.writes.foldl (fun b x => b.put (.reg x.1) x.2) b).completeFlags w.flags w.pc false)))
  ∧ (∀ (o : Overlay) (i : Nat) (t : ImpTrap) (a : ArithTrap),
       let queues (s : State) : Prop := ∀ q, q ∈ [QCode.anvil, .copy0, .copy1, .coll] →
         (s.bank.queue q).protected o (o.queues.any (fun x => x.1 == q)) = false
       Done .idleWake (fun s => s.bank.status = .idle ∧ s.bank.woken = true) (fun s => s.modBank (fun b =>
         { b with
           status := .running
           woken := false
           bound := Nat.max b.bound (s.cycle + 1)
           switchClaim := s.cur.active != s.focus.bank }))
       ∧ Done .bankReturn
           (fun s => s.bank.runnable = true ∧ s.cur.active ≠ s.focus.bank
             ∧ (s.bank.switchClaim = true ∨ (s.cur.bank !s.focus.bank).away = true))
           (fun s => s.modCur (fun c => c.switchStream s.cycle))
       ∧ Done .overlayLoad
           (fun s => s.bank.status = .held ∧ s.bank.holdWord = none ∧ s.nextOverlay = some (o, i) ∧ s.bank.stopEng = false ∧ queues s)
           (fun s => (s.modCur (fun c => c.loadOverlay s.focus.bank o i)).modBank (fun b =>
             { b.resume s.cycle with switchClaim := s.cur.active != s.focus.bank }))
       ∧ Done .impreciseTrapDeliver (fun s => firstImp s.bank.imps = some t ∧ s.bank.trap.act = false) (fun s =>
           let u := s.modBank (fun b => { b with imps := b.imps.erase t })
           (u.modBank (fun b => b.takeTrap s.cycle true s.bank.pc s.bank.pc
             { code := t.code, src := t.src, taddr := t.taddr, detail := t.detail, name0 := t.name0, name1 := t.name1, aflags := t.aflags
               mpc := t.mpc, skip := false })).afterTrap)
       ∧ Done .arithmeticTrap (fun s => s.bank.arith.find? (fun y => y.active || !s.bank.trap.act) = some a) (fun s =>
           ((s.modBank (fun b => { b with arith := b.arith.erase a })).modBank (fun b => b.takeTrap s.cycle false a.pc s.bank.pc
             (if a.sem then fault 0x23 else { fault 0x1E with src := if a.vecUnit then 1 else 0, aflags := a.aflags }))).afterTrap))

/-- The writes of queue control words and of the split, as steps of their own, complete as R71 and R162 say: a disabled queue takes a valid
layout, empty, and starts where en is written 1; an enabled one is disabled; a core without a job in its other bank and with empty
queues is split or not. -/
def Obligations.ControlRegisterWritesComplete : Prop :=
  ∀ (q : QCode) (v : Word),
    let off := v &&& 0x7FFFFFFFFFFFFFFF
    let on := v ||| 0x8000000000000000
    let is (en : Bool) (s : State) : Prop := (s.bank.queue q).en = en ∧ (s.bank.queue q).closing = false
    let put (x : State → Queue) (s : State) : State := s.modBank (fun b => b.setQueue q (x s))
    Done (.qcwConfigure q v) (fun s => is false s ∧ Queue.layoutFault off = none) (put (fun _ => Queue.ofWord v false))
    ∧ Done (.qcwEnable q v) (fun s => is false s ∧ Queue.layoutFault on = none) (put (fun _ => Queue.ofWord v true))
    ∧ Done (.qcwDisable q v) (is true) (put (fun s =>
        let x := s.bank.queue q
        if x.hd = .started then { x with en := false, count := Nat.min 1 x.count, closing := true, forks := x.forks.take 1 }
        else { x with en := false, count := 0, head := 0, hd := .waiting, forks := [] }))
    ∧ Done (.ksplitWrite v)
        (fun s => (s.cur.bank !s.focus.bank).job = none ∧ s.cur.bank0.queuesEmpty = true ∧ s.cur.bank1.queuesEmpty = true)
        (fun s => s.modCur (fun c => { c with ksplit := v.getLsbD 0 }))

/-- What travels between cores completes as R170, R172, R174, R355, R356, R359, R360, R363, R366 and R367 say: signals are applied, held or
turned away, packets write or combine their bytes, barriers release, a communication step ends (with the participants on other modules
through too: log 9), and packets of a quenched job are kept. -/
def Obligations.MessagesComplete : Prop :=
  ∀ (src : Nat) (sb : Bool) (tag : BitVec 16) (k : BitVec 8) (x : Word) (pts : BitVec 16) (b : Bool) (c : Core) (p : Packet) (job die : Nat)
    (stage : Option (BitVec 4)) (inst core : Nat) (link : Fin 64) (seq : Nat),
    let ack (e : Option (BitVec 8)) (s t : State) : State :=
      t.post (pathTime s.focus.core src) (some (s.focus.core, src, 1)) src sb none (.signalAck e k x)
    let mine (s : State) : Prop := p.dmod = Config.moduleNumber ∧ s.bankOfTag p.dcore.toNat p.jobtag = some b
    let write (s : State) : State := (s.modCore p.dcore.toNat (fun c => c.storeLocal b p.raddr.toNat p.data)).delivered p false
    let parts (s : State) : List (Nat × Bool) := s.participants job stage
    let through (s : State) : Prop := parts s ≠ [] ∧ (∀ q, q ∈ parts s → s.inStep stage.isSome q = true)
    let done (s : State) : Bool :=
      (parts s).all (fun q => (s.core q.1).stepDone q.2) && ((s.farParts job).isEmpty || s.peersThrough)
    Done (.remoteSignalApply src sb tag k x pts)
      (fun s => s.bankOfTag s.focus.core tag = some b ∧ s.cur.ownsSem b k = true ∧ s.cur.incSem k pts true = some c)
      (fun s => ack none s (s.setCore s.focus.core (c.wakeOwners k)))
    ∧ Done (.remoteSignalApply src sb tag k x pts) (fun s => s.bankOfTag s.focus.core tag = some b ∧ s.cur.ownsSem b k = false)
        (fun s => ack (some 0x04) s s)
    ∧ Done (.barrierRelease job die stage inst pts) (fun _ => True) (fun s => (parts s).foldl (fun (s : State) q =>
        if dieOf q.1 == die && (s.bankAt q.1 q.2).status == .atBar stage.isSome inst then
          (s.bumpPts q.1 pts).modCore q.1 (fun c => c.modBank q.2 (fun b => b.release s.cycle (c.active != q.2) inst))
        else s) s)
    ∧ Done (.commStepEnd job stage) (fun s => through s ∧ done s = false)
        (fun s => s.tick.postAt (s.cycle + 1) s.focus.core s.focus.bank none (.commStepEnd job stage))
    ∧ Done (.commStepEnd job stage) (fun s => through s ∧ done s = true) (fun s =>
        let u := (parts s).foldl State.endStep s
        ((parts s).foldl (fun (s : State) q => s.modBankAt q.1 q.2 (fun b => { b with status := .atBar stage.isSome 0 })) u).releaseBarrier
          job stage 0)
    ∧ Done (.putPacketApply p) mine write ∧ Done (.broadcastPacketApply p) mine write
    ∧ Done (.reducePacketApply p) (fun s => mine s ∧ s.inStepOf p p.dcore.toNat b = true)
        (fun s => (s.modCore p.dcore.toNat (fun c => { c with reduces := c.reduces ++ [p] })).delivered p false)
    ∧ Done (.reducePacketApply p) (fun s => mine s ∧ s.inStepOf p p.dcore.toNat b = false)
        (fun s => (combineBytes p p.dcore.toNat b s).delivered p false)
    ∧ Done (.signalPacketApply p)
        (fun s => mine s ∧ (s.core p.dcore.toNat).ownsSem b p.arg = true ∧ (s.core p.dcore.toNat).incSem p.arg p.pts true = some c)
        (fun s => (s.setCore p.dcore.toNat (c.wakeOwners p.arg)).delivered p false)
    ∧ Done (.invalidPacketDiscard p) (fun _ => True) (fun s => { s with discarded := s.discarded + 1 })
    ∧ Done (.flitRetry link seq) (fun _ => True) (fun s => s)
    ∧ Done (.saveAreaPacket p) (fun _ => True) (fun s => s.savePacket p)
    ∧ Done (.latePacket p) (fun _ => True) (fun s => s.latePacket p)
    ∧ Done (.heldIncrement tag core k) (fun _ => True) (fun s => (s.holdIncrement tag core k).getD s)

/-- Coherence requests, write-backs, forwards, invalidations and completion notices complete as R303 to R306, R324, R325 and R390 say. -/
def Obligations.CoherenceStepsComplete : Prop :=
  ∀ (r : CohReq) (l : Line) (die core : Nat) (d : BitVec 1024) (back : Option (BitVec 1024)) (t : Txn) (st : Moesi) (y : SLine),
    let atHome : Prop := r.home = true ∨ dieOf r.core = Line.homeDie r.line
    let away : Prop := r.home = false ∧ dieOf r.core ≠ Line.homeDie r.line
    let requests (i : Instr) (k : ReqKind) : Prop :=
      Done i (fun _ => atHome) (fun s => s.requestHome k { r with home := true }) ∧ Done i (fun _ => away) (fun s => s.requestProxy k r)
    let leaves (s : State) : State := s.modHome l (fun x => x.sfMod l (fun e =>
      if e.pair.isSome then e
      else { e with
        dies := e.dies &&& ~~~((1 : BitVec 32) <<< die)
        owner := if e.owner = some die then none else e.owner
        ost := if e.owner = some die then .i else e.ost }))
    let stored (s : State) : State := match (s.homeSlice l).line l with
      | some _ => s.modHome l (fun x => x.modLine l (fun y => { y with data := d, dirty := true }))
      | none => s.hbmPutLine l d
    let merged (s : State) : State := match back with
      | some d => s.homePut l d
      | none => s
    let awaits (s : State) : Prop := ((merged s).homeSlice l).awaiting l die = some t
    let left := t.awaits.erase (l, die)
    let noted (s : State) : State :=
      let u := (merged s).modHome l (fun x => x.modTxn t.line (fun t => { t with awaits := left }))
      if t.evicts.contains l && !left.any (fun p => p.1 == l) then u.modHome l (fun x => x.sfDrop l) else u
    requests (.gets r) .gets ∧ requests (.getm r) .getm ∧ requests (.upg r) .upg
    ∧ Done (.putm l die d) (fun _ => True) (fun s => leaves (stored s)) ∧ Done (.puto l die d) (fun _ => True) (fun s => leaves (stored s))
    ∧ Done (.puts l die) (fun _ => True) leaves ∧ Done (.pute l die) (fun _ => True) leaves
    ∧ Done (.forward l die true) (fun s => (s.homeSlice l).txn l = some t) (fun s => s.forwardOwned l die t.req)
    ∧ Done (.forward l die false) (fun s => (s.homeSlice l).txn l = some t) (fun s => s.forwardShared l die t.req)
    ∧ Done (.invalidate l die) (fun _ => True) (fun s => s.answer l die)
    ∧ Done (.backInvalidate l die) (fun _ => True) (fun s => s.answer l die)
    ∧ Done (.invalidationAck l die back) (fun s => awaits s ∧ left ≠ []) noted
    ∧ Done (.invalidationAck l die back) (fun s => awaits s ∧ left = [] ∧ t.evicts ≠ [])
        (fun s => ((noted s).modHome l (fun x => x.modTxn t.line (fun t => { t with evicts := [] }))).startTxn t.req t.kind)
    ∧ Done (.invalidationAck l die back) (fun s => awaits s ∧ left = [] ∧ t.evicts = [])
        (fun s => (noted s).ownNext t.req t.upgrade t.fwd)
    ∧ Done (.coherenceData l core st back)
        (fun s => dieOf core ≠ Line.homeDie l ∧ s.fillWaits (dieOf core) l (s.lineKind core l).2.2 = true)
        (fun s => s.postAt (s.cycle + 1) core false none (.coherenceData l core st back))
    ∧ Done (.coherenceData l core st (some d))
        (fun s => dieOf core ≠ Line.homeDie l ∧ s.fillWaits (dieOf core) l (s.lineKind core l).2.2 = false)
        (fun s =>
          let e := dieOf core
          let u := (s.dropDie e l).1.fill e { SLine.new l d (s.lineKind core l).1 (s.lineKind core l).2.1 (s.lineKind core l).2.2 s.cycle with
            st := st, marks := if (s.lineKind core l).1 then s.viewMarks l else [] }
          let u := u.modSliceOf e l (fun x => { x with busy := x.busy.filter (fun t => t.line != l) })
          (((u.install core l st).applyWaiting core l).drainWait e l).post (hopTime e (Line.homeDie l))
            (some (e * 64 + Line.slice l, Line.home l, 4)) (Line.home l) false none (.completionNotice l))
    ∧ Done (.coherenceData l core st back) (fun _ => dieOf core = Line.homeDie l) (fun s =>
        ((s.install core l st).applyWaiting core l).post (hopTime (dieOf core) (Line.homeDie l)) (some (dieOf core * 64 + Line.slice l, Line.home l, 4)) (Line.home l) false none
          (.completionNotice l))
    ∧ Done (.coherenceData l core st none)
        (fun s => dieOf core ≠ Line.homeDie l ∧ s.fillWaits (dieOf core) l (s.lineKind core l).2.2 = false
          ∧ (s.sliceOf (dieOf core) l).line l = some y)
        (fun s =>
          let e := dieOf core
          let u := (s.dropOthers e l core).modSliceOf e l (fun x => x.modLine l (fun y => { y with st := st }))
          let u := u.modSliceOf e l (fun x => { x with busy := x.busy.filter (fun t => t.line != l) })
          (((u.install core l st).applyWaiting core l).drainWait e l).post (hopTime e (Line.homeDie l))
            (some (e * 64 + Line.slice l, Line.home l, 4)) (Line.home l) false none (.completionNotice l))
    ∧ Done (.completionNotice l) (fun _ => True) (fun s =>
        (s.modHome l (fun x => { x with busy := x.busy.filter (fun t => t.line != l) })).drainWait (Line.homeDie l) l)

/-- Atomics at their home, leases, logical clocks and the wrap step complete as R298, R308, R309, R311, R316, R326 and R328 say. -/
def Obligations.HomesAndLeasesComplete : Prop :=
  ∀ (core seq : Nat) (a : Access) (l : Line) (y : SLine) (v m : List Byte) (mask : BitVec 2048) (t : BitVec 16) (q : BitVec 2),
    let others : List Line := match a.op with
      | .dcas _ l _ _ _ _ _ _ | .move _ l _ _ => [Loc.line l]
      | _ => []
    let held (s : State) : Prop := (s.core core).access seq = some a
    let loads (s : State) (lat : Nat) : State :=
      ((s.core core).accs.filter (fun a => a.state == .sent && Loc.line a.loc == l)).foldl (fun s a => s.atLeast core a lat) s
    let waits (s : State) : Bool := s.anyBusy (a.lines ++ others) || (a.lines ++ others).any (fun l => s.fillWaits (Line.homeDie l) l a.cls)
    let room (s : State) : Prop := s.fillWaits (Line.homeDie l) l (s.lineKind core l).2.2 = false
      ∧ s.fillWaits (dieOf core) l (s.lineKind core l).2.2 = false
    Done (.homeAtomic core seq) (fun s => held s ∧ a.target = .host) (fun s => s.hostServe core a)
    ∧ Done (.homeAtomic core seq) (fun s => held s ∧ a.target ≠ .host ∧ waits s = true)
        (fun s => s.postAt (s.cycle + 1) core a.bank a.eng (.homeAtomic core seq))
    ∧ Done (.homeAtomic core seq) (fun s => held s ∧ a.target ≠ .host ∧ waits s = false)
        (fun s => s.deviceAtomic core a)
    ∧ Done (.leaseRenew l core)
        (fun s => room s ∧ dieOf core ≠ Line.homeDie l ∧ (s.sliceOf (dieOf core) l).line l = some y ∧ ptsLe (s.core core).pts y.rts = true)
        (fun s => (s.takeLease core l y (ptsMin ((s.core core).pts + (s.core core).lease1.setWidth 16) y.rts)
          (Nat.max y.ready s.cycle + (15 + meshDist core (Line.home l)))).serveLease core l)
    ∧ Done (.leaseRenew l core)
        (fun s => room s ∧ dieOf core = Line.homeDie l ∧ (s.homeSlice l).line l = some y)
        (fun s =>
          let p := (s.core core).pts + (s.core core).lease1.setWidth 16
          let u := (loads s (30 + 2 * meshDist core (Line.home l) + 96 * dieDist (dieOf core) (Line.homeDie l) + s.missTime l (s.lineKind core l).1)).ensureHome
            l (s.lineKind core l).1 true (s.lineKind core l).2.2
          let u := u.modHome l (fun x => x.modLine l (fun y => { y with rts := ptsMax y.rts p }))
          match (u.homeSlice l).line l with
          | none => u
          | some z =>
            let ready := Nat.max z.ready (s.cycle + s.missTime l (s.lineKind core l).1)
            ((u.modHome l (fun x => x.modLine l (fun y => { y with ready := ready }))).takeLease core l z p
              (ready + (15 + meshDist core (Line.home l)))).serveLease core l)
    ∧ Done (.leaseWriteThrough core seq) (fun s => held s ∧ a.op = .store v m
        ∧ s.fillWaits (Line.homeDie (Loc.line a.loc)) (Loc.line a.loc) a.cls = false) (fun s =>
        let l := Loc.line a.loc
        let u := s.ensureHome l false true a.cls
        let u := u.homePut l (linePut (u.homeData l) a.off (Machine.merged (lineGet (u.homeData l) a.off a.len) v m))
        let w := (u.stampLease core a l).leaseWrite core l
        (w.2.modCore core (fun c => c.modAccess seq (fun a => { a with carry := some w.1 }))).ackStore core a
          (15 + meshDist core (Line.home l) + 48 * dieDist (dieOf core) (Line.homeDie l) + s.missTime l false))
    ∧ Done (.ptsTick false) (fun _ => True) (fun s =>
        let u := s.modCore s.focus.core (fun c => { c with tickAt := s.cycle })
        u.setPts s.focus.core ((u.core s.focus.core).pts + 1))
    ∧ Done (.ptsTick true) (fun s => quarterOf (s.blank.pts + 1) = quarterOf s.blank.pts ∨ s.quarter = quarterOf (s.blank.pts + 1))
        (fun s => { s with blank := { s.blank with pts := s.blank.pts + 1, tickAt := s.cycle } })
    ∧ Done (.ptsConfigWrite mask t) (fun _ => True) (fun s =>
        let u := ((List.range 2048).filter (fun i => mask.getLsbD i)).foldl (fun s i => s.modCore i (fun c => { c with pts := t, tickAt := s.cycle })) s
        { u with
          slices := Sparse.mapVals (fun x => { x with mts := t }) u.slices
          blankSlice := { u.blankSlice with mts := t }
          quarter := quarterOf t })
    ∧ Done (.wrapStep q) (fun _ => True) (fun s =>
        let f (p : BitVec 16) : BitVec 16 := if quarterOf p = q - 2 then (q - 1).setWidth 16 <<< 14 else p
        { s with
          cores := Sparse.mapVals (fun c => c.wrap q) s.cores
          blank := s.blank.wrap q
          slices := s.slices.map (fun p => (p.1, p.2.wrap (p.1 / 64) q))
          blankSlice := { s.blankSlice with mts := f s.blankSlice.mts }
          stamps := Sparse.mapVals f s.stamps
          blankStamp := f s.blankStamp
          sealPts := s.sealPts.map (fun x => (x.1, f x.2))
          patches := s.patches.map (fun p => { p with pts := f p.pts })
          table := s.table.map (fun e => { e with pts := f e.pts })
          gone := s.gone.map (fun g => (g.1, f g.2))
          jobs := s.jobs.map (fun j => { j with pts := j.pts.map f })
          flights := s.flights.map (fun x => { x with ev := wrapEvent q x.ev }) })

/-- Invalidations of names, records of the name journal and the collecting of partials complete as R248, R261 and R373 say. -/
def Obligations.NameAndSealStepsComplete : Prop :=
  ∀ (n : Name) (die id c core : Nat) (bank : Bool) (d : Dying) (w : Nat × Nat × Bool × Option Nat) (p : Patch) (u : State),
    let dropped (s : State) : State :=
      { s.modDie die (fun d => { d with names := d.names.filter (fun x => x != n) }) with
        cores := s.cores.map (fun (p : Nat × Core) =>
          if p.1 / 64 = die then (p.1, { p.2 with names := p.2.names.filter (fun x => x != n) }) else p) }
    let uses (s : State) : Bool := (dropped s).cores.any (fun p =>
      p.1 / 64 == die && p.2.accs.any (fun a => a.name == n && a.state != .performed))
    let acked (s : State) : State := { s with
      dying := s.dying.map (fun (d : Dying) => if d.ent.name == n then { d with awaits := d.awaits.filter (fun x => x != die) } else d) }
    let lastAck (s : State) : Prop := (acked s).dying.find? (fun d => d.ent.name == n && d.awaits.isEmpty) = some d
      ∧ d.earliest ≤ s.cycle ∧ s.journalWaits.any (fun w => d.waiter == some (w.2.1, w.2.2.1)) = false
    let ended (s : State) : State :=
      { (acked s).endTensor d.ent with dying := ((acked s).endTensor d.ent).dying.filter (fun x => x.ent.name != n) }
    let collected (s : State) : State := s.modPatch n (fun p => { p with
      awaits := p.awaits.filter (fun x => x != c)
      collected := p.collected ++ [c] })
    let asked (s : State) : Prop := s.patch n = some p ∧ p.sealer = some (core, bank) ∧ c ∈ p.awaits
    let sum (s : State) : Patch × FlagSet := (collected s).combine p
    let sealed (s : State) : Patch × FlagSet := (sum s).1.rounded
    Done (.nameInvalidate n die) (fun s => s.awayHome n = none ∧ uses s = true)
      (fun s => (dropped s).postAt (s.cycle + 1) (die * 64) false none (.nameInvalidate n die))
    ∧ Done (.nameInvalidate n die) (fun s => s.awayHome n = none ∧ uses s = false)
        (fun s => (dropped s).post (75 + 48 * dieDist (Config.nameHomeDie n.toNat % 32) die) none (die * 64) false none
          (.nameInvalidateAck n die))
    ∧ Done (.nameInvalidateAck n die) (fun s => (acked s).dying.find? (fun d => d.ent.name == n && d.awaits.isEmpty) = none) acked
    ∧ Done (.nameInvalidateAck n die) (fun s => lastAck s ∧ d.waiter = none) ended
    ∧ Done (.nameInvalidateAck n die) (fun s => lastAck s ∧ d.waiter = some (core, bank)) (fun s =>
        { (ended s).modBankAt core bank (fun b => b.resume (ended s).cycle) with
          gone := (ended s).gone ++ [(n, ((ended s).core core).pts)] })
    ∧ Done (.journalDurable id) (fun s => s.journalWaits.find? (fun w => w.1 == id) = some w) (fun s => { s with
        journalWaits := s.journalWaits.filter (fun x => x.1 != id)
        journalMark := match w.2.2.2 with
          | none => s.journalMark
          | some h => Nat.max s.journalMark h })
    ∧ Done (.partialCollect n c) (fun s => asked s ∧ (∃ x, x ∈ p.awaits ∧ x ≠ c)) collected
    ∧ Done (.partialCollect n c)
        (fun s => asked s ∧ (∀ x, x ∈ p.awaits → x = c)
          ∧ (collected s).anyBusy ((collected s).sealLines ((collected s).sides (sealed s).1)) = false
          ∧ (collected s).sealWaits ((collected s).sides (sealed s).1) = false ∧ (collected s).sealPatch (sealed s).1 core = some u)
        (fun s => (u.modBankAt core bank (fun b => b.holdFlags ((sum s).2 ||| (sealed s).2))).sealReport core bank none
          (1 + (u.coverage (sealed s).1 + 3) / 4))

/-- The Bellows' steps complete as R121, R182 to R185 say: the job that it chooses starts, one that is over retires, one that has failed ends,
a waiting job rises a level each millisecond, victims are asked to stop, and one out of time is saved where it stands. -/
def Obligations.JobStepsComplete : Prop :=
  ∀ (id : Nat) (j : Job) (bank : Bool) (places ids : List Nat) (u : State),
    let mine (s : State) (p : Nat × Bool) : Bool := (s.bankAt p.1 p.2).job == some id
    let stopped (s : State) : State := (j.cores.filter (mine s)).foldl (fun (s : State) p => s.modBankAt p.1 p.2 (fun b =>
      if b.isStopped || b.status == .halted then b else { b with status := .stopped none })) s
    let working (s : State) : Bool := (j.cores.filter (mine s)).any (fun p => ((stopped s).core p.1).serving p.2 || (stopped s).inFlight p)
    Done (.jobPlace id)
      (fun s => s.job id = some j ∧ j.state = .waiting ∧ s.candidate j = true
        ∧ s.select = (some (j, bank, places), u) ∧ j.id = id ∧ u.savedJob j = none ∧ u.recordBusy j = false)
      (fun _ => (u.startJob j bank places).kick)
    ∧ Done (.jobRetire id)
        (fun s => s.job id = some j ∧ j.state = .running ∧ s.jobOver j = true
          ∧ (∀ p, p ∈ j.cores → (s.core p.1).drained p.2 = true) ∧ (s.journaling = true → j.name ∈ s.journal)
          ∧ s.journalWaits.any (fun w => w.2.1 == s.focus.core && w.2.2.1 == s.focus.bank) = false)
        (fun s =>
          let pts := ptsMaxList (j.cores.map (fun p => (s.core p.1).pts))
          (((((s.vacateJob j).killOpenOf id).clearPins id).endName j.name pts).modJob id (fun j => { j with
            state := .retired
            reserved := []
            pts := some pts })).kick)
    ∧ Done (.jobFail id) (fun s => s.job id = some j ∧ j.state ≠ .retired ∧ j.state ≠ .failed ∧ working s = true)
        (fun s => (stopped s).postAt ((stopped s).cycle + 1) (stopped s).focus.core (stopped s).focus.bank none (.jobFail id))
    ∧ Done (.jobFail id) (fun s => s.job id = some j ∧ j.state ≠ .retired ∧ j.state ≠ .failed ∧ working s = false)
        (fun s =>
          let v := ((((stopped s).vacateJob j).killOpenOf id).clearPins id).modJob id (fun j => { j with state := .failed, reserved := [] })
          (v.jobs.foldl (fun s d => if d.state == .waiting && d.predNames.contains j.name then
            s.failJob d.id { Report.of 0 0 with pred := j.name } else s) v).kick)
    ∧ Done (.priorityAging id) (fun s => s.job id = some j ∧ j.state ≠ .retired ∧ j.state ≠ .failed)
        (fun s =>
          let v := (s.modJob id (fun j => { j with aged := j.aged + 1 })).kick
          v.postIn (1000 * microUnits) s.focus.core s.focus.bank none (.priorityAging id))
    ∧ Done (.preempt id)
        (fun s => s.job id = some j ∧ s.candidate j = true ∧ s.threshold.toNat ≤ j.level
          ∧ (∀ v, v ∈ s.jobs → v.evictFor ≠ some id) ∧ s.enough j [] (s.victims j) = some ids)
        (fun s => ids.foldl (fun s v => s.askVictim id v) s)
    ∧ Done (.graceTimeExpiry id) (fun s => s.job id = some j ∧ j.evictFor ≠ none ∧ j.state = .running)
        (fun s => s.startQuench j true none false true)

/-- What other modules and the flacons bring to a quench or a checkpoint completes as R362 to R372 and R388 say. -/
def Obligations.QuenchAndCheckpointEventsComplete : Prop :=
  ∀ (job n : Name) (now : Bool) (j : Job) (tag : BitVec 16) (link : Fin 64) (chan : Fin 9) (m : BitVec 12) (key : Nat) (bytes : List Byte)
    (c : Ckpt),
    let quench (f : Quench → Quench) (hit : Quench → Bool) (s : State) : State :=
      { s with quenches := s.quenches.map (fun (q : Quench) => if hit q then f q else q) }
    let acked (s : State) : State :=
      { s with ckpts := s.ckpts.map (fun (x : Ckpt) => if x.name == c.name then { x with pendingAcks := x.pendingAcks - 1 } else x) }
    let open_ (s : State) : Prop := s.ckpts.find? (fun c => c.name.toNat == key / 16 && c.pendingAcks != 0) = some c
    let up (s : State) : Prop := key % 16 = 0 → s.ready[0].getLsbD 36 = true
    Done (.quenchOrder job now) (fun s => s.jobs.find? (fun j => j.name == job && j.state == .running) = some j)
      (fun s => s.startQuench j now none true false)
    ∧ Done (.sweepDoneMarker tag link chan) (fun _ => True)
        (quench (fun q => { q with markers := dedup (q.markers ++ [(link, chan)]) }) (fun q => q.tag == tag))
    ∧ Done (.quenchReport job m) (fun _ => True)
        (fun s => { s with
          quenches := s.quenches.map (fun (q : Quench) =>
            if q.job != job then q
            else if q.remote then { q with absent := q.absent ++ [m] }
            else { q with waiting := q.waiting.filter (fun x => x != m) })
          resume := s.resume.map (fun (r : ResumeRec) =>
            if r.job == job && r.remote && r.state == 1 then { r with absent := r.absent ++ [m] } else r) })
    ∧ Done (.quenchDeadline job) (fun _ => True)
        (quench (fun q => { q with absent := q.absent ++ q.waiting, waiting := [] }) (fun q => q.job == job))
    ∧ Done (.flaconWriteAck key) (fun s => open_ s ∧ ¬up s)
        (fun s => s.postAt (s.cycle + 1) s.focus.core s.focus.bank none (.flaconWriteAck key))
    ∧ Done (.flaconWriteAck key) (fun s => open_ s ∧ up s ∧ c.pendingAcks ≠ 1) acked
    ∧ Done (.flaconWriteAck key) (fun s => open_ s ∧ up s ∧ c.pendingAcks = 1)
        (fun s => (acked s).postHere 1 (.checkpointDurable c.name))
    ∧ Done (.checkpointDurable n) (fun s => s.ckpts.find? (fun c => c.name == n && !c.durable) = some c ∧ s.job c.job = some j)
        (fun s => c.sems.foldl (fun s x => s.ckptSignal j x) { s with
          journal := s.journalKept j c
          undos := s.undos.filter (fun u => u.covered != some n)
          ckpts := s.ckpts.map (fun (x : Ckpt) =>
            if x.name == n then { x with durable := true }
            else if x.job == c.job && x.step < c.step && x.name != 0 then { x with dirty := x.dirty.map (fun p => (p.1, p.2.1, [])) }
            else x) })
    ∧ Done (.checkpointSlice key bytes) (fun _ => True)
        (fun s => { s with flacon := s.flacon.filter (fun (x : Nat × List Byte) => x.1 != key) ++ [(key, bytes)] })

/-- Host page faults and their answers, invalidations of host translations, flips, uncorrectable errors and the clearing of the log
complete as R334, R335, R342, R343, R348, R353 and R384 say. -/
def Obligations.HostPageAndErrorEventsComplete : Prop :=
  ∀ (seq page addr : Nat) (pasid p : BitVec 20) (a : Access) (x : Nat) (inv : HtlbInv) (id : BitVec 32) (f : Flip) (core no : Nat) (bank : Bool)
    (j : Job),
    let asked (s : State) : State :=
      if s.pageReqs.contains (p, x / 4096) then s
      else
        let u := { s with pageReqs := s.pageReqs ++ [(p, x / 4096)] }
        if s.pageTimeoutUs = 0 then u
        else u.postIn (s.pageTimeoutUs * microUnits) s.focus.core a.bank none (.pageRequestTimeout p (x / 4096))
    let die (s : State) : Nat := dieOf s.focus.core
    let left (s : State) : HtlbInv := { inv with dies := inv.dies.filter (fun d => d != die s) }
    let waiting (s : State) : Prop := s.htlbInv.find? (fun y => y.dies.contains (die s)) = some inv
    Done (.hostPageFault seq) (fun s => s.cur.access seq = some a ∧ s.faultingPage s.focus.core a = some (p, x))
      (fun s => match a.eng with
        | none => (asked s).modBankAt s.focus.core a.bank (fun b => if b.status == .running then { b with status := .pageWait } else b)
        | some e => (asked s).modCur (fun c => c.setEngine e { c.engine e with frozen := true }))
    ∧ Done (.pageRequestTimeout pasid page) (fun s => s.pageReqs.contains (pasid, page) = true) (fun s => s.failRequest pasid page)
    ∧ Done (.pageResponse pasid page false) (fun _ => True) (fun s => s.failRequest pasid page)
    ∧ Done (.pageResponse pasid page true) (fun _ => True) (fun s =>
        let l := s.onPage pasid page
        let u := { s.endRequest pasid page with
          dies := s.dies.map (fun (d : Die) => { d with tlb := d.tlb.filter (fun e => !e.covers pasid (page * 4096)) }) }
        let v := l.foldl (fun (s : State) x =>
          s.modCore x.1 (fun c => c.modAccess x.2.seq (fun a => { a with state := .waiting, tried := false }))) u
        l.foldl (fun (s : State) x => s.thaw x.1 x.2) v)
    ∧ Done .hostTlbInvalidateAck (fun s => waiting s ∧ s.hostInFlight (die s) inv.pasid = true)
        (fun s => s.postAt (s.cycle + 1) s.focus.core s.focus.bank none .hostTlbInvalidateAck)
    ∧ Done .hostTlbInvalidateAck (fun s => waiting s ∧ s.hostInFlight (die s) inv.pasid = false ∧ (left s).dies ≠ [])
        (fun s => { s with htlbInv := s.htlbInv.replace inv (left s) })
    ∧ Done .hostTlbInvalidateAck (fun s => waiting s ∧ s.hostInFlight (die s) inv.pasid = false ∧ (left s).dies = [])
        (fun s => { s with htlbInv := s.htlbInv.erase inv }.modBankAt inv.core inv.bank (fun b => b.resume s.cycle))
    ∧ Done (.flipAcknowledge id) (fun s => s.flip = some f ∧ f.id = id)
        (fun s => { s.setBias f.pages f.dev with flip := none }.modBankAt f.core f.bank (fun b => b.resume s.cycle))
    ∧ Done (.flipAcknowledge id) (fun s => s.flip = some f ∧ f.id ≠ id) (fun s => s)
    ∧ Done (.uncorrectableError addr (.access core bank)) (fun s => (s.bankAt core bank).job = some no)
        (fun s => (s.logBank core bank (BitVec.ofNat 64 addr)).quenchForError no (some addr))
    ∧ Done (.uncorrectableError addr (.store core bank)) (fun s => (s.bankAt core bank).job = some no)
        (fun s => (s.logBank core bank (BitVec.ofNat 64 addr)).quenchForError no none)
    ∧ Done (.uncorrectableError addr (.placement no)) (fun s => s.job no = some j ∧ s.candidate j = true)
        (fun s => (s.logNobody 0x19 (BitVec.ofNat 64 addr) j.tag).failJob no (.of 0x19 (BitVec.ofNat 64 addr)))
    ∧ Done (.uncorrectableError addr .scrub) (fun _ => True) (fun s =>
        (s.jobsMapping addr).foldl (fun s id => s.quenchForError id (some addr)) (s.logNobody 0x19 (BitVec.ofNat 64 addr) 0))
    ∧ Done .eventLogClear (fun _ => True) (fun s => { s with log := [] })

/-- The host's launches and its accesses to device memory complete as R320 and R379 to R383 say. -/
def Obligations.HostAccessesComplete : Prop :=
  ∀ (v : Word) (q : Fin 64) (slot tries : Nat) (d bytes : List Byte) (line : Line) (off : Fin 128) (len : Fin 129) (g : Seg) (u : State),
    let n := v.extractLsb' 16 16
    let nq : Fin 64 := (v.extractLsb' 0 6).toFin
    let at_ : Loc := { lo := line.lo, nd := line.nd, q := line.no * 128 + off.val }
    let bs := bytes.take (128 - off.val)
    let k := Nat.min len.val (128 - off.val)
    let free (s : State) : Prop := s.flipping at_ = false ∧ s.anyBusy [line] = false
    let conflict (s : State) : State :=
      { s.logNobody 0x21 (BitVec.ofNat 64 at_.key) 0 with errResponses := s.errResponses ++ [at_.key] }
    let rec_ (s : State) : LaunchRec := LaunchRec.parse (Memory.readBytes s.lqSlots (s.lqueues[q]).slot recordSize)
    let accepted : Name × State := u.accept (rec_ u) u.rtSegs none
    Done (.submissionNotify v)
      (fun s => (s.lqueues[nq]).enabled = true ∧ (n - (s.lqueues[nq]).expect).toNat < (s.lqueues[nq]).depth)
      (fun s => (s.modLq nq (fun x => { x with pending := if x.pending.contains n then x.pending else x.pending ++ [n] })).startReads nq)
    ∧ Done (.submissionNotify v)
        (fun s => (s.lqueues[nq]).enabled = false ∨ (s.lqueues[nq]).depth ≤ (n - (s.lqueues[nq]).expect).toNat)
        (fun s => s.logNobody 0x20 (n.setWidth 64) 0)
    ∧ Done (.notifyReread q tries)
        (fun s => (s.lqueues[q]).reading = true ∧ LaunchRec.seq (rec_ s) ≠ (s.lqueues[q]).expect ∧ tries < 64)
        (fun s => s.postIn (160 * microUnits / 1000) s.focus.core s.focus.bank none (.notifyReread q (tries + 1)))
    ∧ Done (.notifyReread q tries)
        (fun s => (s.lqueues[q]).reading = true ∧ LaunchRec.seq (rec_ s) = (s.lqueues[q]).expect
          ∧ recordInvalid (Memory.readBytes s.lqSlots (s.lqueues[q]).slot recordSize) = false ∧ s.mayIssue = (true, u)
          ∧ u.lqueues = s.lqueues ∧ u.lqSlots = s.lqSlots)
        (fun s =>
          let x := s.lqueues[q]
          let w := accepted.2.modJob (accepted.2.jobs.length - 1) (fun j => { j with
            lq := q.val
            pasid := if x.pasidValid then some x.pasid else none })
          let w := { w.modLq q (fun y => { y with reading := false, pending := y.pending.erase y.expect }) with
            lqSlots := Memory.writeBytes w.lqSlots x.slot (leBytes 16 accepted.1.toNat) }
          (w.modLq q (fun y => { y with head := (y.head + 1) % y.depth, expect := y.expect + 1 })).startReads q)
    ∧ Done (.launchQueueDescriptorWrite q d) (fun _ => True) (fun s => s.modLq q (fun x =>
        let on := (field d 6 1).testBit 0
        { x with
          offset := field d 0 4
          depth := field d 4 2
          enabled := on
          pasidValid := (field d 6 1).testBit 1
          pasid := BitVec.ofNat 20 (field d 8 4)
          head := if on then 0 else x.head
          expect := if on then 0 else x.expect }))
    ∧ Done (.launchRecordWrite q slot d) (fun _ => True) (fun s =>
        { s with lqSlots := Memory.writeBytes s.lqSlots ((s.lqueues[q]).offset + slot * 128) (d.take 128) })
    ∧ Done (.hostMemoryWrite line off bytes) (fun s => s.flipping at_ = true) conflict
    ∧ Done (.hostMemoryWrite line off bytes) (fun s => free s ∧ (s.segAt at_ = none ∨ (s.segAt at_ = some g ∧ g.patched = false ∧ g.lease = false)))
        (fun s => (s.recall line).homeStore at_ (bs.map some))
    ∧ Done (.hostMemoryWrite line off bytes) (fun s => free s ∧ s.segAt at_ = some g ∧ g.patched = true ∧ g.lease = false)
        (fun s => (s.spoilViews line (sectorMask off.val bs.length)).hbmWrite at_ bs)
    ∧ Done (.hostMemoryWrite line off bytes) (fun s => free s ∧ s.segAt at_ = some g ∧ g.patched = true ∧ g.lease = true)
        (fun s =>
          let rts := (((s.homeSlice line).line line).map (fun y => y.rts)).getD (s.homeSlice line).mts
          ((s.evictHome line).modHome line (fun x => { x with mts := ptsMax x.mts (rts + 1) })).hbmWrite at_ bs)
    ∧ Done (.hostMemoryWrite line off bytes) (fun s => free s ∧ s.segAt at_ = some g ∧ g.patched = false ∧ g.lease = true)
        (fun s => ((s.ensureHome line false true g.cls).modHome line (fun x => x.modLine line (fun y => { y with
          wts := ptsMax y.wts (y.rts + 1)
          rts := ptsMax y.wts (y.rts + 1) }))).homeStore at_ (bs.map some))
    ∧ Done (.hostMemoryRead line off len) (fun s => s.flipping at_ = true) conflict
    ∧ Done (.hostMemoryRead line off len) (fun s => free s ∧ (s.segAt at_ = none ∨ (s.segAt at_ = some g ∧ g.patched = false ∧ g.lease = false)))
        (fun s => { s.share line with hostReads := (s.share line).hostReads ++ [(s.share line).homeBytes at_ k] })
    ∧ Done (.hostMemoryRead line off len) (fun s => free s ∧ s.segAt at_ = some g ∧ g.patched = true)
        (fun s => { s with hostReads := s.hostReads ++ [(s.viewBytes at_ k .plain).1] })
    ∧ Done (.hostMemoryRead line off len) (fun s => free s ∧ s.segAt at_ = some g ∧ g.patched = false ∧ g.lease = true)
        (fun s => { s with hostReads := s.hostReads ++ [s.homeBytes at_ k] })
    ∧ Done (.hostSnoop line)
        (fun s => s.anyBusy [line] = false ∧ (s.segAt { lo := line.lo, nd := line.nd, q := line.no * 128 }).any (fun g => g.lease) = false)
        (fun s =>
          let w := (s.recall line).evictHome line
          { w with hostHeld := w.hostHeld.filter (fun h => h.1 != line) })

/-- The configuration space, the security block, readiness and power complete as R241, R354, R357, R378 and R385 to R389 say. -/
def Obligations.ManagementEventsComplete : Prop :=
  ∀ (tag : BitVec 16) (job : Name) (off : Nat) (v : Word) (slot : Fin 128) (p digest : BitVec 512) (addr words : Nat) (sig : List Byte)
    (map : Fin 4) (bit : Fin 64) (up : Bool) (steps : Fin 16),
    let extend (i : Fin 6) (d : BitVec 512) (s : State) : State := { s with sec := { s.sec with
      meas := s.sec.meas.set i (Config.sha3_512 (leBytes 64 (s.sec.meas[i]).toNat ++ leBytes 64 d.toNat)) } }
    let image (s : State) : BitVec 512 := Config.sha3_512 (s.microWords addr words)
    let field_ (o : Nat) (f : State → State) : Prop := Done (.configWrite o v) (fun _ => True) f
    let capped (s : State) : State := { s with clockMHz := 2000 - 125 * steps.val }
    let block (s : State) : Prop := s.ready[0].getLsbD 37 = true
    Done (.jobTagAssign tag job) (fun _ => True)
      (fun s => { s with jobs := s.jobs.map (fun (j : Job) => if j.name == job then { j with tag := tag } else j) })
    ∧ field_ 0x08 (fun s => { s with privq := v }) ∧ field_ 0x10 (fun s => { s with pageTimeoutUs := v.toNat })
    ∧ field_ 0x200000 (fun s => { s with threshold := v.setWidth 7 }) ∧ field_ 0x200008 (fun s => { s with graceUs := v.toNat })
    ∧ field_ 0x200010 (fun s => { s with saveReserveMiB := v.toNat })
    ∧ field_ 0x200018 (fun s => { s with quenchDeadlineUs := v.toNat })
    ∧ field_ 0x120000 (fun s => { s with log := [] })
    ∧ (∀ s, exec (.configWrite 0 v) s = exec (.submissionNotify v) s)
    ∧ (∀ s, exec (.configWrite 0x20 v) s = exec (.flipAcknowledge (v.setWidth 32)) s)
    ∧ Done (.configWrite off v) (fun _ => 0x310000 ≤ off ∧ off < 0x314000 ∧ off % 8 = 0) (fun s => s.writeScw ((off - 0x310000) / 8) v)
    ∧ Done (.configWrite off v) (fun _ => 0x300000 ≤ off ∧ off < 0x304000 ∧ off % 8 = 0) (fun s =>
        (s.mapHome ((off - 0x300000) / 4) (v.setWidth 32)).mapHome ((off - 0x300000) / 4 + 1) (v.extractLsb' 32 32))
    ∧ Done (.keyPolicyLoad digest) (fun s => block s ∧ s.sec.policy = none ∧ s.sec.keys = [])
        (fun s => { extend 5 digest s with sec := { (extend 5 digest s).sec with policy := some digest } })
    ∧ Done (.keyRelease slot) (fun s => block s ∧ s.sec.attested = true ∧ s.sec.policy = some p) (fun s =>
        if Config.policyAdmits p [s.sec.meas[0], s.sec.meas[1], s.sec.meas[3], s.sec.meas[4]] = true then
          { s with sec := { s.sec with keys := if s.sec.keys.contains slot then s.sec.keys else s.sec.keys ++ [slot] } }
        else s)
    ∧ Done (.keyRelease slot) (fun s => s.sec.attested = false) (fun s => s)
    ∧ Done (.microcodeImageVerify addr words sig) (fun s => block s ∧ words ≤ 4096 ∧ s.canIssue = true) (fun s =>
        if Config.mlDsaVerify (image s) sig = true then
          let n := (extend 2 (image s) s).journalIssue.issueName Cls.microcode
          let u := n.2.enterName n.1 (.microcode addr words (image s)) 0
          { u with sec := { u.sec with verified := u.sec.verified ++ [(addr, words, image s)] } }
        else s)
    ∧ Done (.readyMapChange map bit up) (fun s => s.ready[map].getLsbD bit.val ≠ up ∧ s.readyCan map bit up = true) (fun s =>
        let one : Word := 1#64 <<< bit.val
        { s with
          ready := s.ready.set map (if up then s.ready[map] ||| one else s.ready[map] &&& ~~~one)
          msix := s.msix ++ [0] }.kick)
    ∧ Done (.powerCap steps) (fun _ => True) capped ∧ Done (.thermalCap steps) (fun _ => True) capped
    ∧ Done .spdmGetMeasurements block (fun s => { s with
        spdmOut := s.spdmOut ++ [s.sec.meas.toList]
        sec := { s.sec with attested := true } })
    ∧ Done .thermalShutdown (fun _ => True) (fun s => s.powerOff) ∧ Done .lossOfPower (fun _ => True) (fun s => s.powerOff)
    ∧ Done .coldBoot (fun _ => True) (fun s =>
        let u := { s.powerOff with
          gen := if s.gen = 0xFFFFFF then s.gen else s.gen + 1
          mark := 0 }
        extend 4 (Config.bootDigest 5) (extend 3 (Config.bootDigest 4) (extend 1 (Config.bootDigest 2) (extend 0 (Config.bootDigest 1) u))))

/-! ## Encodings -/

/-- Every well-formed instruction that words encode is read back from its word, with every operand at every value that the encoding admits: a
control-stream word, an engine word by an engine that has it, a micro-operation (R50, R63, R68, R69, R232). -/
def Obligations.EncodedInstructionsDecode : Prop :=
  ∀ i, WellFormed i = true →
    (∀ w, encode80 i = some w → decode80 w = i)
    ∧ (∀ e w, encode16 i = some (none, w) → decode16 e w = i)
    ∧ (∀ e w, encode16 i = some (some e, w) → decode16 e w = i)
    ∧ (∀ w, encodeMicro i = some w → decodeMicro w = some i)

/-- The words that the manual writes out decode to the instructions it gives for them: one or more of each class, engine words of each engine,
and micro-operations. -/
def Obligations.SpecWordsDecode : Prop :=
  let h (usA usB : BitVec 4) : Hdr := { guard := 0, pd := 0, usA := usA, usB := usB }
  decode80 0x00201428000602010000#80 = .add (h 0 0) .i64 (.s 5) (.s 5) (.imm 0x0100)
  ∧ decode80 0x012024480001FFFF0000#80 = .and (h 0 0) (.s 9) (.s 9) (.imm 0xFFFF)
  ∧ decode80 0x2060C012153400000012#80 = .vfma (h 1 2) .f32 (.v 48) (.v 2) (.v 33) (.v 41)
  ∧ decode80 0x2386A148000A00190000#80 = .vhist { h 0 0 with guard := 3 } .n16 (.v 40) (.v 41) (.imm 12)
  ∧ decode80 0x24A0002806141E010000#80 = .vst (h 0 0) .f32 (.off (.s 5) 0x0F00) (.v 48)
  ∧ decode80 0x40001C20088400810200#80 = .ldg (h 0 0) .i32 (.s 7) (.off (.s 4) 64) (.mmc { scope := 4, order := 1, row := false, opn := false }) 2
  ∧ decode80 0x41E1C440053200010000#80 = .aradd (h 0 0) .bf16 (.s 8) 0 false (.v 41) (.patch 1) 0
  ∧ decode80 0x4221C310008000000000#80 = .pbegin (h 0 0) 0 (.n 2) .replPre
  ∧ decode80 0x43E14B0E2C6000000500#80 = .ncas (h 0 0) 2 (.n 1) (.n 2) (.n 3) 5
  ∧ decode80 0x60A000180001FFF60000#80 = .loop (h 0 0) 3 0xFFFB
  ∧ decode80 0x61E000000000000A0000#80 = .fence (h 0 0) 5
  ∧ decode80 0x80000460000000010000#80 = .eqpush (h 0 0) .copy0 (.off (.s 12) 0)
  ∧ decode80 0x80613048000000000000#80 = .fpush (h 0 0) (.s 9)
  ∧ decode80 0xA0022285FF0000000000#80
      = .xm 0 { neg := 0, abs := 4, sat := false, clen := true, clo := 10, chi := 11, scen := true, k := 0x3F, rmen := false, rm := 0
                usC := 0, usD := 0 }
  ∧ decode80 0xC0A00440000000010000#80 = .bankload (h 0 0) true (.off (.s 8) 0)
  ∧ decode80 0xC0E00308002000000000#80 = .quench (h 0 0) (.n 1) true
  ∧ decode80 0xE0000000000000000000#80 = .illegalOpcode 0xE0000000000000000000#80
  ∧ decode16 .anvil 0x8012 = .lit 18 ∧ decode16 .anvil 0x53E0 = .ext 5088 ∧ decode16 .anvil 0x3100 = .go 0
  ∧ decode16 .copy 0x2C02 = .tload 2 ∧ decode16 .copy 0x2E00 = .tpad ∧ decode16 .coll 0x2C00 = .cslot
  ∧ decodeMicro 0xB000000000000003#64 = some (.uloop 0 3) ∧ decodeMicro 0x3400000000002800#64 = some (.uaddb 4 10240)

/-! ## The step -/

/-- A step runs the decoded instruction. Where one control stream, or one engine, is all that can act, the step is `exec` of the word it has read,
with that stream or engine as the acting agent; a runnable active bank in which nothing is due reads the word at its pc, and an engine the
next word of its entry; where several agents can act, one of them does; where none can, the clocks that are due tick, and then the cycle ends. -/
def Obligations.AStepRunsTheDecodedWord : Prop :=
  (∀ (s : State) (core : Nat) (bank : Bool) (i : Instr), core < 2048 → s.turns = [.stream core bank i] → step s = exec i (s.turn core bank))
  ∧ (∀ (s : State) (core : Nat) (bank : Bool),
      let c := s.core core
      let b := c.bank bank
      core < 2048 → s.turns = s.streamTurn core c → c.active = bank → c.tried = false → b.runnable = true → b.arith = [] →
      (b.imps = [] ∨ b.trap.act = true) → ((c.bank !bank).switchClaim = false ∨ (c.bank !bank).runnable = false) →
      step s = exec (decode80 (b.word b.pc.toNat)) (s.turn core bank))
  ∧ (∀ (s : State) (core : Nat) (bank : Bool) (e : Eng) (i : Instr), core < 2048 → s.turns = [.engine core bank e i] →
      step s = exec i { s with focus := { core := core, bank := bank, eng := some e } })
  ∧ (∀ (s : State) (core : Nat) (c : Core) (e : Eng) (n : Entry), (c.engine e).tried = false → (c.engine e).frozen = false →
      (c.engine e).cur = some n → c.engHeld e = false → n.done = false → s.engineTurn core c e = [.engine core n.bank e (c.engInstr e n)])
  ∧ (∀ s : State, s.turns ≠ [] → ∃ a u, a ∈ s.turns ∧ (u = s ∨ u = s.tick) ∧
      step s = if a.core ≥ 2048 then .fault (.noSuchCore a.core) else u.act a)
  ∧ (∀ s : State, s.turns = [] → step s = .next (if s.ticksDue then s.tickAll else s.endCycle))
  ∧ (∀ w : Word80, step (State.reset.withFetchWord 80 w.toNat)
      = exec (decode80 w) ((State.reset.withFetchWord 80 w.toNat).turn 0 false))

/-- Every instruction answers a next state, and so does every step of a machine whose agents are all of cores that exist: nothing is refused,
and every fault of R332 is taken inside the machine. -/
def Obligations.EveryStepAnswers : Prop :=
  (∀ (i : Instr) (s : State), ∃ t, exec i s = .next t)
  ∧ (∀ s : State, (∀ a, a ∈ s.turns → a.core < 2048) → ∃ t, step s = .next t)
  ∧ (∀ (s : State) (f : Fault), step s = .fault f → ∃ a, a ∈ s.turns ∧ 2048 ≤ a.core ∧ f = .noSuchCore a.core)

/-- What the manual gives for reset: control and status registers of every core and both banks, nothing loaded in the Anvil, no partition,
no logical time, empty ready maps and measurement registers, and the configuration space's defaults; and every memory in its canonical form. -/
def Obligations.ResetLeavesTheStatedValues : Prop :=
  let s := State.reset
  (∀ (core : Nat) (bank : Bool),
    (∀ n : BitVec 16, n ∈ [0x00, 0x01, 0x02, 0x03, 0x08, 0x09, 0x0A, 0x0B, 0x10, 0x11, 0x12, 0x13, 0x18, 0x1C, 0x1D, 0x20, 0x21, 0x27, 0x28, 0x30,
        0x31, 0x32] → s.csr core bank n = some 0)
    ∧ s.csr core bank 0x19 = some 16 ∧ s.csr core bank 0x1A = some 64 ∧ s.csr core bank 0x1B = some 2000
    ∧ (s.core core).ucodeName = none
    ∧ (∀ k : Fin 8, (s.bankAt core bank).anvil.b[k] = 0) ∧ (∀ k : Fin 6, (s.bankAt core bank).anvil.loops[k] = (1, 0)))
  ∧ (∀ d : Nat, (s.die d).part = 0)
  ∧ s.quarter = 0 ∧ s.cycle = 0 ∧ s.threshold = 112 ∧ s.graceUs = 50 ∧ s.pageTimeoutUs = 100000 ∧ s.saveReserveMiB = 4096
  ∧ s.quenchDeadlineUs = 1500 ∧ (∀ k : Fin 4, s.ready[k] = 0) ∧ (∀ k : Fin 6, s.sec.meas[k] = 0)
  ∧ s.memWf = true

/-! ## Issue and traps -/

/-- Whatever the word, the checks at issue come first (R55, R67, R97, R98): a word that cannot issue leaves everything as it was; one that faults
there traps and does nothing else; one that waits for sectors of its input ports asks for them and leaves the rest as it was (R148, R155); one
that is guarded off only moves pc on, or traps at the end of the store. -/
def Obligations.EveryWordWaitsTrapsOrIsPassedOver : Prop :=
  ∀ (i : Instr) (n : Need) (s : State), needOf i = some n →
    (s.classify n none = .stall → exec i s = .next s)
    ∧ (∀ l, s.classify n none = .ask l → exec i s = .next (s.modCur (fun c => { c with asks := l.map (fun p => (s.focus.bank, p)) })))
    ∧ (∀ t, s.classify n none = .fault t → exec i s = .next (s.trap (n.from t)))
    ∧ (s.classify n none = .off → s.bank.pc.toNat < 26213 →
        exec i s = .next (s.modBank (fun b => { b with pc := b.pc + 1, prevIssue := s.cycle, bound := s.cycle + 1 })))
    ∧ (s.classify n none = .off → 26213 ≤ s.bank.pc.toNat →
        exec i s = .next (s.trap (faultAt 0x01 (BitVec.ofNat 64 (s.bank.pc.toNat + 1)))))

namespace Sys2Proof.Machine

/-- The words of the system class (R331). -/
def systemWord : Instr → Bool
  | .segld _ _ | .seginv _ _ | .htlbinv _ _ _ _ | .banksw _ | .banksave _ _ _ | .bankload _ _ _ | .ucload _ _ | .quench _ _ _ | .qresume _ _
  | .ckpt _ _ _ _ | .ckres _ _ | .keybind _ _ _ | .biasflip _ _ _ _ | .idle _ | .halt _ | .partset _ _ _ => true
  | _ => false

end Sys2Proof.Machine

/-- In an unprivileged bank a system word whose turn has come and whose guard holds takes fault 0x04 at its own address, and has no other
effect (R330, R331); no other word is held to privilege at issue. -/
def Obligations.SystemWordsNeedPrivilege : Prop :=
  ∀ (i : Instr) (n : Need) (s : State), needOf i = some n →
    (n.priv = systemWord i)
    ∧ (systemWord i = true → s.bank.priv = false → s.bank.earliest n none ≤ s.cycle → s.bank.tagWait n none = false →
        s.bank.pc.toNat < 26213 →
        (∀ x, s.bank.guardReg n = some x → s.locked x.2 = false ∧ s.bank.windowRead s.cycle x.1 x.2 = none) →
        s.bank.guardHolds n = true → exec i s = .next (s.trap (fault 0x04)))

/-- Taking a precise trap (R121 to R123, R125). The record names the fault and its word; the stream goes to the handler, three cycles later at
the earliest and after every result on its way; without a handler, or inside one, the bank stops, and inside one the first record stays.
Nothing else of the core changes: no register, no rotation base, no memory; the other bank and the other cores are as they were. -/
def Obligations.TrapsEnterTheHandler : Prop :=
  ∀ (s : State) (t : TrapInfo),
    let b := s.bank
    let u := s.trap t
    let rcd : TrapRec :=
      { act := true, src := t.src, imp := false, code := t.code, tpc := b.pc, taddr := t.taddr, name0 := t.name0, name1 := t.name1
        aflags := t.aflags, mpc := t.mpc, detail := t.detail, rpc := if t.skip then b.pc + 1 else b.pc }
    (b.trap.act = false → b.tvecEn = true →
      u.bank = { b with trap := rcd, prevIssue := s.cycle, bound := Nat.max (s.cycle + 3) b.drained, pc := b.tvecHdlr })
    ∧ (b.trap.act = false → b.tvecEn = false →
        u.bank = { b with trap := rcd, prevIssue := s.cycle, bound := Nat.max (s.cycle + 3) b.drained, status := .stopped none })
    ∧ (b.trap.act = true → u.bank = { b with status := .stopped (some t.code), prevIssue := s.cycle })
    ∧ (∀ w, w ∈ b.writes → w.due < b.drained)
    ∧ u.cur.setBank s.focus.bank b = s.cur
    ∧ (∀ c, c ≠ s.focus.core → u.core c = s.core c)
    ∧ { u with cores := s.cores, log := s.log, logLost := s.logLost, jobs := s.jobs, flights := s.flights, free := s.free } = s
    ∧ (∀ id, b.job = some id → u.bank.isStopped = true →
        ∃ f, f ∈ u.flights ∧ f.ev = .jobFail id ∧ s.cycle < f.due
        ∧ (∀ j, s.job id = some j → j.report = none → (u.job id).bind (fun j => j.report) = some u.bank.stopReport))

/-- TRAP raises software trap 0x1F at its own address with its code as detail, and resumes after itself (R118); RETT clears act and goes on at
rpc with the timing of a taken branch, restoring nothing else, and traps where no trap is active (R119); guarded off, each does nothing. -/
def Obligations.TrapAndReturn : Prop :=
  ∀ (h : Hdr) (code : BitVec 16) (s : State),
    let n := (Need.of h).ends
    let on (b : Bank) : Prop := b.trap.act = true ∧ b.trap.rpc.toNat ≤ 26213
    let passed : State := s.modBank (fun b => { b with pc := b.pc + 1, prevIssue := s.cycle, bound := s.cycle + 1 })
    (s.classify n none = .go → exec (.trap h code) s = .next (s.trap
      { code := 0x1F, src := 0, taddr := 0, detail := code, name0 := 0, name1 := 0, aflags := 0, mpc := 0, skip := true }))
    ∧ (s.classify n none = .off → s.bank.pc.toNat < 26213 → exec (.trap h code) s = .next passed)
    ∧ (s.classify n none = .go → on s.bank → exec (.rett h) s = .next (s.modBank (fun b => { b with
        trap := { b.trap with act := false }
        pc := b.trap.rpc
        prevIssue := s.cycle
        bound := s.cycle + 3 })))
    ∧ (s.classify n none = .go → s.bank.trap.act = false → exec (.rett h) s = .next (s.trap (fault 0x01)))
    ∧ (s.classify n none = .off → s.bank.pc.toNat < 26213 → exec (.rett h) s = .next passed)

/-- A transfer of control to an address above 26 213 traps with fault 0x01 and that address, at the word that would have transferred (R98): a
branch, a call or a taken loop to its target, a jump through a register, a return from a trap, and a fall-through. -/
def Obligations.TransfersPastTheStoreTrap : Prop :=
  ∀ (h : Hdr) (ty : Fmt) (d : SDst) (a b : SSrc) (r : Fin 64) (k : Cond) (off : BitVec 16),
    let target (s : State) : Word := branchTarget s.bank.pc off
    let past (w : Word) : Prop := 26213 < w.toNat
    let bad (i : Instr) (cond : State → State → Prop) (addr : State → State → Word) : Prop :=
      ∀ n s, needOf i = some n → s.classify n none = .go → cond s (s.advance n none) → past (addr s (s.advance n none)) →
        exec i s = .next (s.trap (faultAt 0x01 (addr s (s.advance n none))))
    let holds (t : State) : Bool := compareInt k (readInt ty (t.readS a).1.toNat) (readInt ty ((t.readS a).2.readS b).1.toNat)
    let after (_ t : State) : Word := t.bank.pc.setWidth 64
    bad (.br h off) (fun _ _ => True) (fun s _ => target s)
    ∧ bad (.brc h ty a b k off) (fun _ t => holds t = true) (fun s _ => target s)
    ∧ bad (.brc h ty a b k off) (fun _ t => holds t = false) after
    ∧ bad (.jmpi h a) (fun _ _ => True) (fun _ t => (t.readS a).1)
    ∧ bad (.ret h a) (fun _ _ => True) (fun _ t => (t.readS a).1)
    ∧ bad (.call h d off) (fun _ _ => True) (fun s _ => target s)
    ∧ bad (.loop h r off) (fun _ t => r.val ≠ 0 ∧ t.bank.getS r ≠ 1) (fun s _ => target s)
    ∧ bad (.loop h r off) (fun _ t => r.val ≠ 0 ∧ t.bank.getS r = 1) after
    ∧ bad (.rett h) (fun _ t => t.bank.trap.act = true) (fun _ t => t.bank.trap.rpc.setWidth 64)
    ∧ (∀ i n s, needOf i = some n → n.falls = true → s.bank.earliest n none ≤ s.cycle → s.bank.tagWait n none = false →
        26213 ≤ s.bank.pc.toNat → exec i s = .next (s.trap (n.from (faultAt 0x01 (BitVec.ofNat 64 (s.bank.pc.toNat + 1))))))

/-! ## Frames -/

namespace Sys2Proof.Machine

/-- The words of the scalar and vector units that read registers and write one: their results land later, and nothing is stored at issue; a
vector result for an output port sets out as a store (R154). -/
def registerWord : Instr → Bool
  | .nop _ | .add _ _ _ _ _ | .sub _ _ _ _ _ | .mul _ _ _ _ _ | .mulh _ _ _ _ _ | .div _ _ _ _ _ | .rem _ _ _ _ _ | .min _ _ _ _ _
  | .max _ _ _ _ _ | .and _ _ _ _ | .or _ _ _ _ | .xor _ _ _ _ | .andn _ _ _ _ | .shl _ _ _ _ | .shr _ _ _ _ | .sar _ _ _ _ | .rot _ _ _ _
  | .clz _ _ _ | .popc _ _ _ | .sel _ _ _ _ _ | .cmp _ _ _ _ _ _ | .movi _ _ _ _ _ | .lea _ _ _ | .cand _ _ _ _ | .cor _ _ _ _
  | .cxor _ _ _ _ | .fadd _ _ _ _ _ | .fmul _ _ _ _ _ | .ffma _ _ _ _ _ _ | .fcvt _ _ _ _ _ | .fcmp _ _ _ _ _ _ | .fmin _ _ _ _ _
  | .fmax _ _ _ _ _ | .ftolog _ _ _ _ _ _ | .ffromlog _ _ _ _ _ _ => true
  | .vadd _ _ _ _ _ | .vsub _ _ _ _ _ | .vmul _ _ _ _ _ | .vmin _ _ _ _ _ | .vmax _ _ _ _ _ | .vfma _ _ _ _ _ _ | .vrcp _ _ _ _
  | .vrsq _ _ _ _ | .vexp2 _ _ _ _ | .vlog2 _ _ _ _ | .vand _ _ _ _ _ | .vor _ _ _ _ _ | .vxor _ _ _ _ _ | .vshl _ _ _ _ _
  | .vshr _ _ _ _ _ | .vsar _ _ _ _ _ | .vcmp _ _ _ _ _ _ | .vsel _ _ _ _ _ _ | .vcvt _ _ _ _ _ | .vtolog _ _ _ _ _ _
  | .vfromlog _ _ _ _ _ _ | .vqnt _ _ _ _ _ _ | .vdqnt _ _ _ _ _ _ | .vbscale _ _ _ _ _ | .vredadd _ _ _ _ | .vredmax _ _ _ _
  | .vredmin _ _ _ _ | .vscan _ _ _ _ _ | .vhist _ _ _ _ _ | .vcmprs _ _ _ _ | .vperm _ _ _ _ _ | .vslide _ _ _ _ _ _ | .vbcast _ _ _ _
  | .vext _ _ _ _ _ | .vins _ _ _ _ _ | .viota _ _ _ _ | .mand _ _ _ _ | .mor _ _ _ _ | .mxor _ _ _ _ | .mnot _ _ _ | .mpop _ _ _ _
  | .mfirst _ _ _ _ | .vord _ _ _ _ => true
  | _ => false

/-- The words that only send requests to global memory when they issue, and the flow words. -/
def requestOrFlowWord : Instr → Bool
  | .ldg _ _ _ _ _ _ | .vldg _ _ _ _ _ _ | .prefg _ _ _ | .cpin _ _ _ _ | .cunpin _ _ | .cwb _ _ _ | .cinv _ _ _ | .amin _ _ _ _ _ _
  | .amax _ _ _ _ _ _ | .aand _ _ _ _ _ _ | .aor _ _ _ _ _ _ | .axor _ _ _ _ _ _ | .axchg _ _ _ _ _ _ | .acas _ _ _ _ _ _
  | .adcas _ _ _ _ _ _ _ | .amove _ _ _ _ _ _ => true
  | .br _ _ | .brc _ _ _ _ _ _ | .jmpi _ _ | .call _ _ _ | .ret _ _ | .loop _ _ _ | .trap _ _ | .rett _ => true
  | _ => false

end Sys2Proof.Machine

/-- The frame of the words that store nothing. Whatever such a word comes to, every register of the bank keeps its value until a result lands
(R59), the other bank of the core keeps everything, and every memory is as before; a register word that takes effect and uses no port changes
nothing but its bank's pc, issue times, pending results, popped queue registers and read ports. -/
def Obligations.WordsThatStoreNothingKeepTheRest : Prop :=
  ∀ (i : Instr) (n : Need) (s t : State), needOf i = some n → exec i s = .next t → registerWord i = true ∨ requestOrFlowWord i = true →
    let b := s.bank
    let c := t.bank
    (c.s = b.s ∧ c.v = b.v ∧ c.m = b.m ∧ c.c = b.c ∧ c.n = b.n ∧ c.h = b.h ∧ c.p = b.p ∧ c.aq = b.aq ∧ c.segs = b.segs ∧ c.istore = b.istore)
    ∧ (t.cur.mem = s.cur.mem ∧ t.hbm = s.hbm ∧ t.hostMem = s.hostMem ∧ t.slices = s.slices)
    ∧ t.bankAt s.focus.core (!s.focus.bank) = s.bankAt s.focus.core (!s.focus.bank)
    ∧ (∀ k, k ≠ s.focus.core → t.core k = s.core k)
    ∧ (registerWord i = true → n.mem = false → s.classify n none = .go →
        (∃ f, t = s.trap f) ∨
        ({ t with cores := s.cores } = s ∧ t.cur.setBank s.focus.bank b = s.cur
          ∧ { c with
              pc := b.pc
              prevIssue := b.prevIssue
              bound := b.bound
              writes := b.writes
              divFree := b.divFree
              bq := b.bq
              ports := b.ports
              touch := b.touch } = b))

/-- ST, VST and VSCAT write the bytes that R106, R149 and R150 name and no others. When the word issues its store sets out (R187): one local
access of the bank, with those bytes cut at 32-byte sectors, or none where the word waits, traps or is passed over, and no register and no
memory changes. When a sector of the access has its memory bank, the bytes it names get the marked bits of the value, in the order of the
lanes; every other byte of the core, every other core's memory, every register and every other memory stay as they were. -/
def Obligations.StoresWriteOnlyTheirBytes : Prop :=
  (∀ (h : Hdr) (ty : Fmt) (mm : MemOp) (a : SSrc) (c : SSrc) (v w : VSrc) (k : Fin 8) (s t : State),
    let at_ (u : State) : Nat := (u.readAddr mm).1.toNat
    let keeps : Prop := t.bank.s = s.bank.s ∧ t.bank.v = s.bank.v ∧ t.bank.m = s.bank.m ∧ t.bank.c = s.bank.c ∧ t.bank.n = s.bank.n
      ∧ t.bank.istore = s.bank.istore ∧ (∀ j, j ≠ s.focus.core → t.core j = s.core j) ∧ t.cur.mem = s.cur.mem ∧ t.hbm = s.hbm
      ∧ t.hostMem = s.hostMem ∧ t.slices = s.slices
    let only (i : Instr) (moves : State → List LMove) : Prop :=
      ∀ n, needOf i = some n → exec i s = .next t → keeps
        ∧ ((∃ f, t = s.trap f) → t.cur.laccs = s.cur.laccs)
        ∧ (t.cur.laccs = s.cur.laccs ∨ (s.classify n none = .go ∧ t.cur.laccs = s.cur.laccs ++ [{ LAcc.storeAt s.cycle with
            no := s.cur.accSeq
            bank := s.focus.bank
            pieces := sectorPieces (moves (s.advance n none)) }]))
    only (.st h ty mm c) (fun u => storeMoves (at_ u) 0 (leBytes (ty.width / 8) ((u.readAddr mm).2.readS c).1.toNat)
      ((leBytes (ty.width / 8) ((u.readAddr mm).2.readS c).1.toNat).map (fun _ => 0xFF)))
    ∧ only (.vst h ty mm v) (fun u => storeMoves (at_ u) 0 (vecBytes (u.vec ty v))
        (vecBytes (laneBits ty.width (Fmt.lanes ty) (fun i => (u.bank.guardMask h).getLsbD i))))
    ∧ only (.vscat h ty a v k w) (fun u =>
        let ty' := gatherType ty
        scatterMoves (ty'.width / 8) (laneOf ty'.width (u.vec ty' w))
          (gatherAddrs ty' (u.readS a).1 (u.vec ty' v) k.val (u.bank.guardMask h))))
  ∧ (∀ (l : List LMove) (m : LMove), (m ∈ (sectorPieces l).flatten ↔ m ∈ l)
      ∧ (∀ p, p ∈ sectorPieces l → m ∈ p → ∀ y, y ∈ p → y.addr / 32 = m.addr / 32))
  ∧ (∀ (s : State) (core : Nat) (x : LAcc) (p : List LMove), x.store = true →
      let t := s.performSector core x p
      let before : Nat → Byte := Memory.read (s.core core).mem
      let after : Nat → Byte := Memory.read (t.core core).mem
      (Memory.wf (s.core core).mem = true →
        (∀ j, (∀ m, m ∈ p → m.addr ≠ j) → after j = before j)
        ∧ (∀ l m r, p = l ++ m :: r → (∀ y, y ∈ r → y.addr ≠ m.addr) → (∀ y, y ∈ l → y.addr = m.addr → m.mask = 0xFF) →
            after m.addr = (before m.addr &&& ~~~m.mask) ||| (m.val &&& m.mask)))
      ∧ (t.core core).bank0 = (s.core core).bank0 ∧ (t.core core).bank1 = (s.core core).bank1
      ∧ { t with cores := s.cores } = s ∧ (∀ j, j ≠ core → t.core j = s.core j))

/-! ## Results, logical time, memories -/

/-- A result lands in its register and nowhere else (R59, R127, R128): a write to s0, c0 or m0 is discarded, the lanes of a vector that were
not active keep their contents, and a result pushed to a queue register comes last; at the end of a cycle exactly the results that are due
have left the bank's list of results on their way. -/
def Obligations.ResultsLandInTheirRegisters : Prop :=
  (∀ (b : Bank) (w : PendWrite), w.flags = 0 → w.tag = 0 →
    (∀ (r : Fin 64) (x : Word), w.dst = some (.reg (.s r)) →
      b.land w (.word x) = { b with s := if r.val = 0 then b.s else b.s.set r x }
      ∧ (∀ q, (b.land w (.word x)).getS q = if q = r ∧ r.val ≠ 0 then x else b.getS q))
    ∧ (∀ (r : Fin 8) (x : Bool), w.dst = some (.reg (.c r)) →
        b.land w (.cond x) = { b with c := if r.val = 0 then b.c else b.c.set r x }
        ∧ (∀ q, (b.land w (.cond x)).getC q = if q = r ∧ r.val ≠ 0 then x else b.getC q))
    ∧ (∀ (r : Fin 64) (x g : VecWord), w.dst = some (.reg (.v r)) →
        b.land w (.vec x g) = { b with v := b.v.set r ((b.v[r] &&& ~~~g) ||| (x &&& g)) }
        ∧ (∀ k, ((b.land w (.vec x g)).v[r]).getLsbD k = if g.getLsbD k then x.getLsbD k else (b.v[r]).getLsbD k))
    ∧ (∀ (r : Fin 16) (x g : MaskWord), w.dst = some (.reg (.m r)) →
        b.land w (.mask x g) = { b with m := if r.val = 0 then b.m else b.m.set r ((b.m[r] &&& ~~~g) ||| (x &&& g)) }
        ∧ (∀ q, q ≠ r → (b.land w (.mask x g)).getM q = b.getM q) ∧ (b.land w (.mask x g)).getM 0 = BitVec.allOnes 512)
    ∧ (∀ (q : Fin 4) (x : Word), w.dst = some (.aq q) → b.land w (.word x) = { b with aq := b.aq.set q (b.aq[q] ++ [x]) }))
  ∧ (∀ (s : State) (core : Nat) (bank : Bool),
      ((s.landBank core bank).bankAt core bank).writes = (s.bankAt core bank).writes.filter (fun z => !decide (z.due ≤ s.cycle))
      ∧ ((s.bankAt core bank).dueWrites s.cycle = [] → s.landBank core bank = s))

/-- Logical time is compared modulo 2^16 (R308) and never moves back: of two times that are not half the range apart one
comes before the other, an acquire or an access leaves a core's time at the later of the two, and a tick adds one. -/
def Obligations.LogicalTimeMovesForward : Prop :=
  (∀ x y : BitVec 16, ptsLe x y = true ↔ (y.toNat + 65536 - x.toNat) % 65536 < 32768)
  ∧ (∀ x y : BitVec 16, ptsLe x (ptsMax x y) = true ∧ (y - x = 0x8000 ∨ ptsLe x y = true ∨ ptsLe y x = true) ∧ (ptsMax x y = x ∨ ptsMax x y = y))
  ∧ (∀ (s : State) (core : Nat) (v : BitVec 16), ((s.bumpPts core v).core core).pts = ptsMax (s.core core).pts v
      ∧ ptsLe (s.core core).pts ((s.bumpPts core v).core core).pts = true
      ∧ (∀ k, k ≠ core → (s.bumpPts core v).core k = s.core k))
  ∧ (∀ (s : State) (core : Nat), ((s.tickCore (some core)).core core).pts = (s.core core).pts + 1)

/-- Every memory of the module keeps its canonical form: cells in rising order, none that reads as an unlisted one does. -/
def Obligations.EveryStepKeepsMemoriesCanonical : Prop :=
  ∀ s t : State, s.memWf = true → step s = .next t → t.memWf = true
end

