-- ==== Sys2Proof/Laws/BankImage.lean ====
section
/-!
SUPPORT. What reading a bank image can do to the fields of a saved bank that its checks look at (R336, R338).
-/
namespace Sys2Proof.Machine

/-- An item leaves the schedule of a saved bank alone and keeps at most sixteen format words. -/
def ImageSlot.fits (y : ImageSlot) : Prop :=
  ∀ x v, (y.set x v).sched = v.sched ∧ (v.fq.length ≤ 16 → (y.set x v).fq.length ≤ 16)

/-- An item of the bank's own registers touches nothing else. -/
theorem bankSlot_fits (off size : Nat) (get : Bank → Nat) (set : Nat → Bank → Bank) : (bankSlot off size get set).fits :=
  fun _ _ => ⟨rfl, id⟩

/-- A packed list gives at most the words that it may. -/
theorem unpackList_length (w most x : Nat) : (unpackList w most x).length ≤ most := by
  simp only [unpackList, List.length_map, List.length_range]
  exact Nat.min_le_left _ _

/-- Every item of an image without accumulators fits. -/
theorem slots_fit : ∀ y ∈ statusSlots ++ fileSlots ++ queueSlots ++ anvilSlots [], ImageSlot.fits y := by
  simp only [statusSlots, fileSlots, queueSlots, anvilSlots, List.forall_mem_append, List.forall_mem_map, List.forall_mem_cons,
    List.flatMap_cons, List.flatMap_nil, bankSlot_fits, implies_true, true_and, and_true, List.not_mem_nil, IsEmpty.forall_iff, List.zipIdx_nil]
  refine ⟨⟨fun x v => ⟨rfl, fun _ => ?_⟩, fun _ _ _ _ => ⟨rfl, id⟩⟩, fun _ _ => ⟨rfl, id⟩⟩
  simpa using unpackList_length 32 16 x

/-- Items that fit leave the schedule alone and keep at most sixteen format words. -/
theorem unpackSlots_fits {l : List ImageSlot} (h : ∀ y ∈ l, ImageSlot.fits y) (img : List Byte) (v : SavedBank) (hv : v.fq.length ≤ 16) :
    (unpackSlots img v l).sched = v.sched ∧ (unpackSlots img v l).fq.length ≤ 16 := by
  induction l generalizing v with
  | nil => exact ⟨rfl, hv⟩
  | cons y l ih =>
    have hy := h y (by simp) (field img y.off y.size) v
    have := ih (fun z hz => h z (by simp [hz])) (y.set (field img y.off y.size) v) (hy.2 hv)
    exact ⟨this.1.trans hy.1, this.2⟩

/-- What a blank saved bank holds after an image has been read into it: no schedule and at most sixteen format words. -/
theorem reread_blank_fits (img : List Byte) (job : Option Nat) (stage : BitVec 4) :
    ((SavedBank.blank job stage).reread img).sched = none ∧ ((SavedBank.blank job stage).reread img).fq.length ≤ 16 := by
  have h := unpackSlots_fits slots_fit img (SavedBank.blank job stage) (Nat.zero_le 16)
  simp only [SavedBank.reread, show (SavedBank.blank job stage).sets = [] from rfl]
  exact h

end Sys2Proof.Machine
end

