-- ==== Sys2Proof/Laws/Codes.lean ====
section
/-!
SUPPORT. Every operand's code reads back as the operand, and the fields of a word of fields are those fields.
-/
namespace Sys2Proof

theorem ofNat7_toNat {k : Nat} (h : k < 128) : (BitVec.ofNat 7 k).toNat = k := by
  simp [BitVec.toNat_ofNat, Nat.mod_eq_of_lt h]

@[simp] theorem SSrc.ofCode_code (x : SSrc) : SSrc.ofCode x.code = .ok x := by
  cases x with
  | s r => simp [SSrc.ofCode, SSrc.code, ofNat7_toNat (Nat.lt_trans r.isLt (by decide)), r.isLt]
  | bq q =>
    have h := q.isLt
    simp [SSrc.ofCode, SSrc.code, ofNat7_toNat (show 72 + q.val < 128 by omega), show ¬ (72 + q.val < 64) by omega,
      show 72 ≤ 72 + q.val ∧ 72 + q.val < 76 by omega]
  | zero => rfl
  | pts => rfl
  | cycle => rfl

@[simp] theorem SDst.ofCode_code (x : SDst) : SDst.ofCode x.code = .ok x := by
  cases x with
  | s r => simp [SDst.ofCode, SDst.code, ofNat7_toNat (Nat.lt_trans r.isLt (by decide)), r.isLt]
  | aq q =>
    have h := q.isLt
    simp [SDst.ofCode, SDst.code, ofNat7_toNat (show 72 + q.val < 128 by omega), show ¬ (72 + q.val < 64) by omega,
      show 72 ≤ 72 + q.val ∧ 72 + q.val < 76 by omega]

@[simp] theorem VSrc.ofCode_code (x : VSrc) : VSrc.ofCode x.code = .ok x := by
  cases x with
  | v r => simp [VSrc.ofCode, VSrc.code, ofNat7_toNat (Nat.lt_trans r.isLt (by decide)), r.isLt]
  | port i =>
    have h := i.isLt
    simp [VSrc.ofCode, VSrc.code, ofNat7_toNat (show 64 + i.val < 128 by omega), show ¬ (64 + i.val < 64) by omega,
      show 64 ≤ 64 + i.val ∧ 64 + i.val < 72 by omega]
  | zero => rfl
  | lane => rfl
  | pts => rfl
  | cycle => rfl

@[simp] theorem VDst.ofCode_code (x : VDst) : VDst.ofCode x.code = .ok x := by
  cases x with
  | v r => simp [VDst.ofCode, VDst.code, ofNat7_toNat (Nat.lt_trans r.isLt (by decide)), r.isLt]
  | port o =>
    have h := o.isLt
    simp [VDst.ofCode, VDst.code, ofNat7_toNat (show 64 + o.val < 128 by omega), show ¬ (64 + o.val < 64) by omega,
      show 64 ≤ 64 + o.val ∧ 64 + o.val < 68 by omega]

@[simp] theorem fileReg80_8 (r : Fin 8) : fileReg 80 8 (regCode 80 r.val) = .ok r := by revert r; decide
@[simp] theorem fileReg80_16 (r : Fin 16) : fileReg 80 16 (regCode 80 r.val) = .ok r := by revert r; decide
@[simp] theorem fileReg96_16 (r : Fin 16) : fileReg 96 16 (regCode 96 r.val) = .ok r := by revert r; decide
@[simp] theorem fileReg112_4 (r : Fin 4) : fileReg 112 4 (regCode 112 r.val) = .ok r := by revert r; decide
@[simp] theorem evenReg_code (r : Fin 32) : evenReg (evenCode r) = .ok r := by revert r; decide

@[simp] theorem CSrc.ofCode_code (x : CSrc) : CSrc.ofCode x.code = .ok x := by
  cases x with
  | c r => revert r; decide
  | zero => rfl

@[simp] theorem MSrc.ofCode_code (x : MSrc) : MSrc.ofCode x.code = .ok x := by
  cases x with
  | m r => revert r; decide
  | zero => rfl

@[simp] theorem NSrc.ofCode_code (x : NSrc) : NSrc.ofCode x.code = .ok x := by
  cases x with
  | n r => revert r; decide
  | zero => rfl

@[simp] theorem PSrc.ofCode_code (x : PSrc) : PSrc.ofCode x.code = .ok x := by
  cases x with
  | p r => revert r; decide
  | zero => rfl

@[simp] theorem Fmt.ofCode_code (t : Fmt) : Fmt.ofCode t.code = t := by cases t <;> rfl

@[simp] theorem Cond.ofCode_code (k : Cond) : Cond.ofCode k.code = .ok k := by cases k <;> rfl

@[simp] theorem flagOf_code (b : Bool) : flagOf (flagCode b) = .ok b := by cases b <;> rfl

@[simp] theorem QCode.ofCode_code (q : QCode) : QCode.ofCode q.code = .ok q := by cases q <;> rfl

@[simp] theorem Eng.ofCode_code (e : Eng) : Eng.ofCode e.code = .ok e := by cases e <;> rfl

theorem Fmt.code_typC (f : Fields) (t : Fmt) (p : Fmt → Bool) (hc : f.c = t.codeC) (hp : p t = true) : f.typC p = .ok t := by
  have h1 : t.codeC.toNat < 16 := by cases t <;> decide
  have h2 : Fmt.ofCode (t.codeC.setWidth 4) = t := by cases t <;> rfl
  simp only [Fields.typC, hc, h1, if_true, h2, hp]

@[simp] theorem Fmt.codeC_small (t : Fmt) : t.codeC.toNat < 16 := by cases t <;> decide

@[simp] theorem Fmt.ofCode_codeC (t : Fmt) : Fmt.ofCode (t.codeC.setWidth 4) = t := by cases t <;> rfl

@[simp] theorem Mmc.ofCode_code (m : Mmc) : Mmc.ofCode m.code = m := by
  obtain ⟨s, o, r, p⟩ := m
  revert s o r p
  decide

/-- A modifier code that keeps the rule of its scope is no patch register's. -/
theorem Mmc.code_noPatch (m : Mmc) (h : m.base = true) : fileReg 112 4 m.code = .error .operandCode := by
  obtain ⟨s, o, r, p⟩ := m
  revert s o r p
  decide

@[simp] theorem StDst.read_code (p : Mmc → Bool) (o : StDst) (h : match o with
    | .mmc m => m.base = true ∧ p m = true
    | .patch _ => True) : StDst.read p o.code = .ok o := by
  cases o with
  | mmc m =>
    obtain ⟨hb, hp⟩ := h
    simp only [StDst.read, StDst.code, Mmc.code_noPatch m hb, Mmc.read, Mmc.ofCode_code, hp, if_true, Except.map]
  | patch r => simp only [StDst.read, StDst.code, fileReg112_4]

/-- The fields of the word of some fields. -/
@[simp] theorem Fields.ofWord_toWord (f : Fields) : Fields.ofWord f.toWord = f := by
  obtain ⟨cls, op, guard, dst, a, b, c, ty, imm, i, pd, al, usA, usB⟩ := f
  simp (disch := omega) only [Fields.ofWord, Fields.toWord, BitVec.extractLsb'_append_eq_of_le, BitVec.extractLsb'_append_eq_of_add_le,
    Nat.reduceSub]
  simp [BitVec.extractLsb'_eq_self]

end Sys2Proof
end

