-- ==== Sys2Proof/Laws/State.lean ====
section
/-!
SUPPORT. What each named update of the state leaves unchanged, one lemma per field, and what it changes.
-/
namespace Sys2Proof.Machine

/-! ## Sparse maps -/

theorem Sparse.find_put_self {α : Type} (m : Sparse α) (a : Nat) (x : α) : Sparse.find (Sparse.put m a x) a = some x := by
  induction m with
  | nil => simp [Sparse.put, Sparse.find]
  | cons p r ih =>
    obtain ⟨k, v⟩ := p
    simp only [Sparse.put]
    split
    · simp [Sparse.find]
    · split
      · simp [Sparse.find]
      · rename_i h1 h2
        simp [Sparse.find, Ne.symm h2, ih]

theorem Sparse.find_put_other {α : Type} (m : Sparse α) (a b : Nat) (x : α) (h : a ≠ b) :
    Sparse.find (Sparse.put m a x) b = Sparse.find m b := by
  induction m with
  | nil => simp [Sparse.put, Sparse.find, h]
  | cons p r ih =>
    obtain ⟨k, v⟩ := p
    simp only [Sparse.put]
    split
    · simp [Sparse.find, h]
    · split
      · rename_i h1 h2
        subst h2
        simp [Sparse.find, h]
      · simp only [Sparse.find, ih]

/-! ## Replacing a core -/

@[simp] theorem State.setCore_cycle (s : State) (i : Nat) (c : Core) : (s.setCore i c).cycle = s.cycle := rfl
@[simp] theorem State.setCore_refTime (s : State) (i : Nat) (c : Core) : (s.setCore i c).refTime = s.refTime := rfl
@[simp] theorem State.setCore_clockMHz (s : State) (i : Nat) (c : Core) : (s.setCore i c).clockMHz = s.clockMHz := rfl
@[simp] theorem State.setCore_free (s : State) (i : Nat) (c : Core) : (s.setCore i c).free = s.free := rfl
@[simp] theorem State.setCore_focus (s : State) (i : Nat) (c : Core) : (s.setCore i c).focus = s.focus := rfl
@[simp] theorem State.setCore_blank (s : State) (i : Nat) (c : Core) : (s.setCore i c).blank = s.blank := rfl
@[simp] theorem State.setCore_slices (s : State) (i : Nat) (c : Core) : (s.setCore i c).slices = s.slices := rfl
@[simp] theorem State.setCore_blankSlice (s : State) (i : Nat) (c : Core) : (s.setCore i c).blankSlice = s.blankSlice := rfl
@[simp] theorem State.setCore_dies (s : State) (i : Nat) (c : Core) : (s.setCore i c).dies = s.dies := rfl
@[simp] theorem State.setCore_hbm (s : State) (i : Nat) (c : Core) : (s.setCore i c).hbm = s.hbm := rfl
@[simp] theorem State.setCore_hostMem (s : State) (i : Nat) (c : Core) : (s.setCore i c).hostMem = s.hostMem := rfl
@[simp] theorem State.setCore_stamps (s : State) (i : Nat) (c : Core) : (s.setCore i c).stamps = s.stamps := rfl
@[simp] theorem State.setCore_blankStamp (s : State) (i : Nat) (c : Core) : (s.setCore i c).blankStamp = s.blankStamp := rfl
@[simp] theorem State.setCore_releasers (s : State) (i : Nat) (c : Core) : (s.setCore i c).releasers = s.releasers := rfl
@[simp] theorem State.setCore_quarter (s : State) (i : Nat) (c : Core) : (s.setCore i c).quarter = s.quarter := rfl
@[simp] theorem State.setCore_ident (s : State) (i : Nat) (c : Core) : (s.setCore i c).ident = s.ident := rfl
@[simp] theorem State.setCore_moduleNo (s : State) (i : Nat) (c : Core) : (s.setCore i c).moduleNo = s.moduleNo := rfl
@[simp] theorem State.setCore_gen (s : State) (i : Nat) (c : Core) : (s.setCore i c).gen = s.gen := rfl
@[simp] theorem State.setCore_mark (s : State) (i : Nat) (c : Core) : (s.setCore i c).mark = s.mark := rfl
@[simp] theorem State.setCore_foreign (s : State) (i : Nat) (c : Core) : (s.setCore i c).foreign = s.foreign := rfl
@[simp] theorem State.setCore_peers (s : State) (i : Nat) (c : Core) : (s.setCore i c).peers = s.peers := rfl
@[simp] theorem State.setCore_homeMap (s : State) (i : Nat) (c : Core) : (s.setCore i c).homeMap = s.homeMap := rfl
@[simp] theorem State.setCore_table (s : State) (i : Nat) (c : Core) : (s.setCore i c).table = s.table := rfl
@[simp] theorem State.setCore_dying (s : State) (i : Nat) (c : Core) : (s.setCore i c).dying = s.dying := rfl
@[simp] theorem State.setCore_patches (s : State) (i : Nat) (c : Core) : (s.setCore i c).patches = s.patches := rfl
@[simp] theorem State.setCore_chains (s : State) (i : Nat) (c : Core) : (s.setCore i c).chains = s.chains := rfl
@[simp] theorem State.setCore_seals (s : State) (i : Nat) (c : Core) : (s.setCore i c).seals = s.seals := rfl
@[simp] theorem State.setCore_sealPts (s : State) (i : Nat) (c : Core) : (s.setCore i c).sealPts = s.sealPts := rfl
@[simp] theorem State.setCore_dirtyPages (s : State) (i : Nat) (c : Core) : (s.setCore i c).dirtyPages = s.dirtyPages := rfl
@[simp] theorem State.setCore_undos (s : State) (i : Nat) (c : Core) : (s.setCore i c).undos = s.undos := rfl
@[simp] theorem State.setCore_gone (s : State) (i : Nat) (c : Core) : (s.setCore i c).gone = s.gone := rfl
@[simp] theorem State.setCore_journal (s : State) (i : Nat) (c : Core) : (s.setCore i c).journal = s.journal := rfl
@[simp] theorem State.setCore_journalMark (s : State) (i : Nat) (c : Core) : (s.setCore i c).journalMark = s.journalMark := rfl
@[simp] theorem State.setCore_journalNo (s : State) (i : Nat) (c : Core) : (s.setCore i c).journalNo = s.journalNo := rfl
@[simp] theorem State.setCore_journalWaits (s : State) (i : Nat) (c : Core) : (s.setCore i c).journalWaits = s.journalWaits := rfl
@[simp] theorem State.setCore_jobs (s : State) (i : Nat) (c : Core) : (s.setCore i c).jobs = s.jobs := rfl
@[simp] theorem State.setCore_progs (s : State) (i : Nat) (c : Core) : (s.setCore i c).progs = s.progs := rfl
@[simp] theorem State.setCore_lqueues (s : State) (i : Nat) (c : Core) : (s.setCore i c).lqueues = s.lqueues := rfl
@[simp] theorem State.setCore_lqSlots (s : State) (i : Nat) (c : Core) : (s.setCore i c).lqSlots = s.lqSlots := rfl
@[simp] theorem State.setCore_privq (s : State) (i : Nat) (c : Core) : (s.setCore i c).privq = s.privq := rfl
@[simp] theorem State.setCore_threshold (s : State) (i : Nat) (c : Core) : (s.setCore i c).threshold = s.threshold := rfl
@[simp] theorem State.setCore_graceUs (s : State) (i : Nat) (c : Core) : (s.setCore i c).graceUs = s.graceUs := rfl
@[simp] theorem State.setCore_pageTimeoutUs (s : State) (i : Nat) (c : Core) : (s.setCore i c).pageTimeoutUs = s.pageTimeoutUs := rfl
@[simp] theorem State.setCore_saveReserveMiB (s : State) (i : Nat) (c : Core) : (s.setCore i c).saveReserveMiB = s.saveReserveMiB := rfl
@[simp] theorem State.setCore_quenchDeadlineUs (s : State) (i : Nat) (c : Core) : (s.setCore i c).quenchDeadlineUs = s.quenchDeadlineUs := rfl
@[simp] theorem State.setCore_pasids (s : State) (i : Nat) (c : Core) : (s.setCore i c).pasids = s.pasids := rfl
@[simp] theorem State.setCore_buddies (s : State) (i : Nat) (c : Core) : (s.setCore i c).buddies = s.buddies := rfl
@[simp] theorem State.setCore_corrected (s : State) (i : Nat) (c : Core) : (s.setCore i c).corrected = s.corrected := rfl
@[simp] theorem State.setCore_ecc (s : State) (i : Nat) (c : Core) : (s.setCore i c).ecc = s.ecc := rfl
@[simp] theorem State.setCore_log (s : State) (i : Nat) (c : Core) : (s.setCore i c).log = s.log := rfl
@[simp] theorem State.setCore_logLost (s : State) (i : Nat) (c : Core) : (s.setCore i c).logLost = s.logLost := rfl
@[simp] theorem State.setCore_ready (s : State) (i : Nat) (c : Core) : (s.setCore i c).ready = s.ready := rfl
@[simp] theorem State.setCore_sec (s : State) (i : Nat) (c : Core) : (s.setCore i c).sec = s.sec := rfl
@[simp] theorem State.setCore_bias (s : State) (i : Nat) (c : Core) : (s.setCore i c).bias = s.bias := rfl
@[simp] theorem State.setCore_flip (s : State) (i : Nat) (c : Core) : (s.setCore i c).flip = s.flip := rfl
@[simp] theorem State.setCore_flipNo (s : State) (i : Nat) (c : Core) : (s.setCore i c).flipNo = s.flipNo := rfl
@[simp] theorem State.setCore_hostHeld (s : State) (i : Nat) (c : Core) : (s.setCore i c).hostHeld = s.hostHeld := rfl
@[simp] theorem State.setCore_rtSegs (s : State) (i : Nat) (c : Core) : (s.setCore i c).rtSegs = s.rtSegs := rfl
@[simp] theorem State.setCore_spans (s : State) (i : Nat) (c : Core) : (s.setCore i c).spans = s.spans := rfl
@[simp] theorem State.setCore_pageReqs (s : State) (i : Nat) (c : Core) : (s.setCore i c).pageReqs = s.pageReqs := rfl
@[simp] theorem State.setCore_htlbInv (s : State) (i : Nat) (c : Core) : (s.setCore i c).htlbInv = s.htlbInv := rfl
@[simp] theorem State.setCore_resume (s : State) (i : Nat) (c : Core) : (s.setCore i c).resume = s.resume := rfl
@[simp] theorem State.setCore_quenches (s : State) (i : Nat) (c : Core) : (s.setCore i c).quenches = s.quenches := rfl
@[simp] theorem State.setCore_saveAreas (s : State) (i : Nat) (c : Core) : (s.setCore i c).saveAreas = s.saveAreas := rfl
@[simp] theorem State.setCore_ckpts (s : State) (i : Nat) (c : Core) : (s.setCore i c).ckpts = s.ckpts := rfl
@[simp] theorem State.setCore_remoteCkpts (s : State) (i : Nat) (c : Core) : (s.setCore i c).remoteCkpts = s.remoteCkpts := rfl
@[simp] theorem State.setCore_flacon (s : State) (i : Nat) (c : Core) : (s.setCore i c).flacon = s.flacon := rfl
@[simp] theorem State.setCore_savedBanks (s : State) (i : Nat) (c : Core) : (s.setCore i c).savedBanks = s.savedBanks := rfl
@[simp] theorem State.setCore_discarded (s : State) (i : Nat) (c : Core) : (s.setCore i c).discarded = s.discarded := rfl
@[simp] theorem State.setCore_outbox (s : State) (i : Nat) (c : Core) : (s.setCore i c).outbox = s.outbox := rfl
@[simp] theorem State.setCore_acksOut (s : State) (i : Nat) (c : Core) : (s.setCore i c).acksOut = s.acksOut := rfl
@[simp] theorem State.setCore_msix (s : State) (i : Nat) (c : Core) : (s.setCore i c).msix = s.msix := rfl
@[simp] theorem State.setCore_spdmOut (s : State) (i : Nat) (c : Core) : (s.setCore i c).spdmOut = s.spdmOut := rfl
@[simp] theorem State.setCore_hostReads (s : State) (i : Nat) (c : Core) : (s.setCore i c).hostReads = s.hostReads := rfl
@[simp] theorem State.setCore_errResponses (s : State) (i : Nat) (c : Core) : (s.setCore i c).errResponses = s.errResponses := rfl
@[simp] theorem State.setCore_flights (s : State) (i : Nat) (c : Core) : (s.setCore i c).flights = s.flights := rfl
@[simp] theorem State.setCore_inputs (s : State) (i : Nat) (c : Core) : (s.setCore i c).inputs = s.inputs := rfl

/-! ## Changing a core -/

@[simp] theorem State.modCore_cycle (s : State) (i : Nat) (f : Core → Core) : (s.modCore i f).cycle = s.cycle := rfl
@[simp] theorem State.modCore_refTime (s : State) (i : Nat) (f : Core → Core) : (s.modCore i f).refTime = s.refTime := rfl
@[simp] theorem State.modCore_clockMHz (s : State) (i : Nat) (f : Core → Core) : (s.modCore i f).clockMHz = s.clockMHz := rfl
@[simp] theorem State.modCore_free (s : State) (i : Nat) (f : Core → Core) : (s.modCore i f).free = s.free := rfl
@[simp] theorem State.modCore_focus (s : State) (i : Nat) (f : Core → Core) : (s.modCore i f).focus = s.focus := rfl
@[simp] theorem State.modCore_blank (s : State) (i : Nat) (f : Core → Core) : (s.modCore i f).blank = s.blank := rfl
@[simp] theorem State.modCore_slices (s : State) (i : Nat) (f : Core → Core) : (s.modCore i f).slices = s.slices := rfl
@[simp] theorem State.modCore_blankSlice (s : State) (i : Nat) (f : Core → Core) : (s.modCore i f).blankSlice = s.blankSlice := rfl
@[simp] theorem State.modCore_dies (s : State) (i : Nat) (f : Core → Core) : (s.modCore i f).dies = s.dies := rfl
@[simp] theorem State.modCore_hbm (s : State) (i : Nat) (f : Core → Core) : (s.modCore i f).hbm = s.hbm := rfl
@[simp] theorem State.modCore_hostMem (s : State) (i : Nat) (f : Core → Core) : (s.modCore i f).hostMem = s.hostMem := rfl
@[simp] theorem State.modCore_stamps (s : State) (i : Nat) (f : Core → Core) : (s.modCore i f).stamps = s.stamps := rfl
@[simp] theorem State.modCore_blankStamp (s : State) (i : Nat) (f : Core → Core) : (s.modCore i f).blankStamp = s.blankStamp := rfl
@[simp] theorem State.modCore_releasers (s : State) (i : Nat) (f : Core → Core) : (s.modCore i f).releasers = s.releasers := rfl
@[simp] theorem State.modCore_quarter (s : State) (i : Nat) (f : Core → Core) : (s.modCore i f).quarter = s.quarter := rfl
@[simp] theorem State.modCore_ident (s : State) (i : Nat) (f : Core → Core) : (s.modCore i f).ident = s.ident := rfl
@[simp] theorem State.modCore_moduleNo (s : State) (i : Nat) (f : Core → Core) : (s.modCore i f).moduleNo = s.moduleNo := rfl
@[simp] theorem State.modCore_gen (s : State) (i : Nat) (f : Core → Core) : (s.modCore i f).gen = s.gen := rfl
@[simp] theorem State.modCore_mark (s : State) (i : Nat) (f : Core → Core) : (s.modCore i f).mark = s.mark := rfl
@[simp] theorem State.modCore_foreign (s : State) (i : Nat) (f : Core → Core) : (s.modCore i f).foreign = s.foreign := rfl
@[simp] theorem State.modCore_peers (s : State) (i : Nat) (f : Core → Core) : (s.modCore i f).peers = s.peers := rfl
@[simp] theorem State.modCore_homeMap (s : State) (i : Nat) (f : Core → Core) : (s.modCore i f).homeMap = s.homeMap := rfl
@[simp] theorem State.modCore_table (s : State) (i : Nat) (f : Core → Core) : (s.modCore i f).table = s.table := rfl
@[simp] theorem State.modCore_dying (s : State) (i : Nat) (f : Core → Core) : (s.modCore i f).dying = s.dying := rfl
@[simp] theorem State.modCore_patches (s : State) (i : Nat) (f : Core → Core) : (s.modCore i f).patches = s.patches := rfl
@[simp] theorem State.modCore_chains (s : State) (i : Nat) (f : Core → Core) : (s.modCore i f).chains = s.chains := rfl
@[simp] theorem State.modCore_seals (s : State) (i : Nat) (f : Core → Core) : (s.modCore i f).seals = s.seals := rfl
@[simp] theorem State.modCore_sealPts (s : State) (i : Nat) (f : Core → Core) : (s.modCore i f).sealPts = s.sealPts := rfl
@[simp] theorem State.modCore_dirtyPages (s : State) (i : Nat) (f : Core → Core) : (s.modCore i f).dirtyPages = s.dirtyPages := rfl
@[simp] theorem State.modCore_undos (s : State) (i : Nat) (f : Core → Core) : (s.modCore i f).undos = s.undos := rfl
@[simp] theorem State.modCore_gone (s : State) (i : Nat) (f : Core → Core) : (s.modCore i f).gone = s.gone := rfl
@[simp] theorem State.modCore_journal (s : State) (i : Nat) (f : Core → Core) : (s.modCore i f).journal = s.journal := rfl
@[simp] theorem State.modCore_journalMark (s : State) (i : Nat) (f : Core → Core) : (s.modCore i f).journalMark = s.journalMark := rfl
@[simp] theorem State.modCore_journalNo (s : State) (i : Nat) (f : Core → Core) : (s.modCore i f).journalNo = s.journalNo := rfl
@[simp] theorem State.modCore_journalWaits (s : State) (i : Nat) (f : Core → Core) : (s.modCore i f).journalWaits = s.journalWaits := rfl
@[simp] theorem State.modCore_jobs (s : State) (i : Nat) (f : Core → Core) : (s.modCore i f).jobs = s.jobs := rfl
@[simp] theorem State.modCore_progs (s : State) (i : Nat) (f : Core → Core) : (s.modCore i f).progs = s.progs := rfl
@[simp] theorem State.modCore_lqueues (s : State) (i : Nat) (f : Core → Core) : (s.modCore i f).lqueues = s.lqueues := rfl
@[simp] theorem State.modCore_lqSlots (s : State) (i : Nat) (f : Core → Core) : (s.modCore i f).lqSlots = s.lqSlots := rfl
@[simp] theorem State.modCore_privq (s : State) (i : Nat) (f : Core → Core) : (s.modCore i f).privq = s.privq := rfl
@[simp] theorem State.modCore_threshold (s : State) (i : Nat) (f : Core → Core) : (s.modCore i f).threshold = s.threshold := rfl
@[simp] theorem State.modCore_graceUs (s : State) (i : Nat) (f : Core → Core) : (s.modCore i f).graceUs = s.graceUs := rfl
@[simp] theorem State.modCore_pageTimeoutUs (s : State) (i : Nat) (f : Core → Core) : (s.modCore i f).pageTimeoutUs = s.pageTimeoutUs := rfl
@[simp] theorem State.modCore_saveReserveMiB (s : State) (i : Nat) (f : Core → Core) : (s.modCore i f).saveReserveMiB = s.saveReserveMiB := rfl
@[simp] theorem State.modCore_quenchDeadlineUs (s : State) (i : Nat) (f : Core → Core) : (s.modCore i f).quenchDeadlineUs = s.quenchDeadlineUs := rfl
@[simp] theorem State.modCore_pasids (s : State) (i : Nat) (f : Core → Core) : (s.modCore i f).pasids = s.pasids := rfl
@[simp] theorem State.modCore_buddies (s : State) (i : Nat) (f : Core → Core) : (s.modCore i f).buddies = s.buddies := rfl
@[simp] theorem State.modCore_corrected (s : State) (i : Nat) (f : Core → Core) : (s.modCore i f).corrected = s.corrected := rfl
@[simp] theorem State.modCore_ecc (s : State) (i : Nat) (f : Core → Core) : (s.modCore i f).ecc = s.ecc := rfl
@[simp] theorem State.modCore_log (s : State) (i : Nat) (f : Core → Core) : (s.modCore i f).log = s.log := rfl
@[simp] theorem State.modCore_logLost (s : State) (i : Nat) (f : Core → Core) : (s.modCore i f).logLost = s.logLost := rfl
@[simp] theorem State.modCore_ready (s : State) (i : Nat) (f : Core → Core) : (s.modCore i f).ready = s.ready := rfl
@[simp] theorem State.modCore_sec (s : State) (i : Nat) (f : Core → Core) : (s.modCore i f).sec = s.sec := rfl
@[simp] theorem State.modCore_bias (s : State) (i : Nat) (f : Core → Core) : (s.modCore i f).bias = s.bias := rfl
@[simp] theorem State.modCore_flip (s : State) (i : Nat) (f : Core → Core) : (s.modCore i f).flip = s.flip := rfl
@[simp] theorem State.modCore_flipNo (s : State) (i : Nat) (f : Core → Core) : (s.modCore i f).flipNo = s.flipNo := rfl
@[simp] theorem State.modCore_hostHeld (s : State) (i : Nat) (f : Core → Core) : (s.modCore i f).hostHeld = s.hostHeld := rfl
@[simp] theorem State.modCore_rtSegs (s : State) (i : Nat) (f : Core → Core) : (s.modCore i f).rtSegs = s.rtSegs := rfl
@[simp] theorem State.modCore_spans (s : State) (i : Nat) (f : Core → Core) : (s.modCore i f).spans = s.spans := rfl
@[simp] theorem State.modCore_pageReqs (s : State) (i : Nat) (f : Core → Core) : (s.modCore i f).pageReqs = s.pageReqs := rfl
@[simp] theorem State.modCore_htlbInv (s : State) (i : Nat) (f : Core → Core) : (s.modCore i f).htlbInv = s.htlbInv := rfl
@[simp] theorem State.modCore_resume (s : State) (i : Nat) (f : Core → Core) : (s.modCore i f).resume = s.resume := rfl
@[simp] theorem State.modCore_quenches (s : State) (i : Nat) (f : Core → Core) : (s.modCore i f).quenches = s.quenches := rfl
@[simp] theorem State.modCore_saveAreas (s : State) (i : Nat) (f : Core → Core) : (s.modCore i f).saveAreas = s.saveAreas := rfl
@[simp] theorem State.modCore_ckpts (s : State) (i : Nat) (f : Core → Core) : (s.modCore i f).ckpts = s.ckpts := rfl
@[simp] theorem State.modCore_remoteCkpts (s : State) (i : Nat) (f : Core → Core) : (s.modCore i f).remoteCkpts = s.remoteCkpts := rfl
@[simp] theorem State.modCore_flacon (s : State) (i : Nat) (f : Core → Core) : (s.modCore i f).flacon = s.flacon := rfl
@[simp] theorem State.modCore_savedBanks (s : State) (i : Nat) (f : Core → Core) : (s.modCore i f).savedBanks = s.savedBanks := rfl
@[simp] theorem State.modCore_discarded (s : State) (i : Nat) (f : Core → Core) : (s.modCore i f).discarded = s.discarded := rfl
@[simp] theorem State.modCore_outbox (s : State) (i : Nat) (f : Core → Core) : (s.modCore i f).outbox = s.outbox := rfl
@[simp] theorem State.modCore_acksOut (s : State) (i : Nat) (f : Core → Core) : (s.modCore i f).acksOut = s.acksOut := rfl
@[simp] theorem State.modCore_msix (s : State) (i : Nat) (f : Core → Core) : (s.modCore i f).msix = s.msix := rfl
@[simp] theorem State.modCore_spdmOut (s : State) (i : Nat) (f : Core → Core) : (s.modCore i f).spdmOut = s.spdmOut := rfl
@[simp] theorem State.modCore_hostReads (s : State) (i : Nat) (f : Core → Core) : (s.modCore i f).hostReads = s.hostReads := rfl
@[simp] theorem State.modCore_errResponses (s : State) (i : Nat) (f : Core → Core) : (s.modCore i f).errResponses = s.errResponses := rfl
@[simp] theorem State.modCore_flights (s : State) (i : Nat) (f : Core → Core) : (s.modCore i f).flights = s.flights := rfl
@[simp] theorem State.modCore_inputs (s : State) (i : Nat) (f : Core → Core) : (s.modCore i f).inputs = s.inputs := rfl

/-! ## Changing the acting core -/

@[simp] theorem State.modCur_cycle (s : State) (f : Core → Core) : (s.modCur f).cycle = s.cycle := rfl
@[simp] theorem State.modCur_refTime (s : State) (f : Core → Core) : (s.modCur f).refTime = s.refTime := rfl
@[simp] theorem State.modCur_clockMHz (s : State) (f : Core → Core) : (s.modCur f).clockMHz = s.clockMHz := rfl
@[simp] theorem State.modCur_free (s : State) (f : Core → Core) : (s.modCur f).free = s.free := rfl
@[simp] theorem State.modCur_focus (s : State) (f : Core → Core) : (s.modCur f).focus = s.focus := rfl
@[simp] theorem State.modCur_blank (s : State) (f : Core → Core) : (s.modCur f).blank = s.blank := rfl
@[simp] theorem State.modCur_slices (s : State) (f : Core → Core) : (s.modCur f).slices = s.slices := rfl
@[simp] theorem State.modCur_blankSlice (s : State) (f : Core → Core) : (s.modCur f).blankSlice = s.blankSlice := rfl
@[simp] theorem State.modCur_dies (s : State) (f : Core → Core) : (s.modCur f).dies = s.dies := rfl
@[simp] theorem State.modCur_hbm (s : State) (f : Core → Core) : (s.modCur f).hbm = s.hbm := rfl
@[simp] theorem State.modCur_hostMem (s : State) (f : Core → Core) : (s.modCur f).hostMem = s.hostMem := rfl
@[simp] theorem State.modCur_stamps (s : State) (f : Core → Core) : (s.modCur f).stamps = s.stamps := rfl
@[simp] theorem State.modCur_blankStamp (s : State) (f : Core → Core) : (s.modCur f).blankStamp = s.blankStamp := rfl
@[simp] theorem State.modCur_releasers (s : State) (f : Core → Core) : (s.modCur f).releasers = s.releasers := rfl
@[simp] theorem State.modCur_quarter (s : State) (f : Core → Core) : (s.modCur f).quarter = s.quarter := rfl
@[simp] theorem State.modCur_ident (s : State) (f : Core → Core) : (s.modCur f).ident = s.ident := rfl
@[simp] theorem State.modCur_moduleNo (s : State) (f : Core → Core) : (s.modCur f).moduleNo = s.moduleNo := rfl
@[simp] theorem State.modCur_gen (s : State) (f : Core → Core) : (s.modCur f).gen = s.gen := rfl
@[simp] theorem State.modCur_mark (s : State) (f : Core → Core) : (s.modCur f).mark = s.mark := rfl
@[simp] theorem State.modCur_foreign (s : State) (f : Core → Core) : (s.modCur f).foreign = s.foreign := rfl
@[simp] theorem State.modCur_peers (s : State) (f : Core → Core) : (s.modCur f).peers = s.peers := rfl
@[simp] theorem State.modCur_homeMap (s : State) (f : Core → Core) : (s.modCur f).homeMap = s.homeMap := rfl
@[simp] theorem State.modCur_table (s : State) (f : Core → Core) : (s.modCur f).table = s.table := rfl
@[simp] theorem State.modCur_dying (s : State) (f : Core → Core) : (s.modCur f).dying = s.dying := rfl
@[simp] theorem State.modCur_patches (s : State) (f : Core → Core) : (s.modCur f).patches = s.patches := rfl
@[simp] theorem State.modCur_chains (s : State) (f : Core → Core) : (s.modCur f).chains = s.chains := rfl
@[simp] theorem State.modCur_seals (s : State) (f : Core → Core) : (s.modCur f).seals = s.seals := rfl
@[simp] theorem State.modCur_sealPts (s : State) (f : Core → Core) : (s.modCur f).sealPts = s.sealPts := rfl
@[simp] theorem State.modCur_dirtyPages (s : State) (f : Core → Core) : (s.modCur f).dirtyPages = s.dirtyPages := rfl
@[simp] theorem State.modCur_undos (s : State) (f : Core → Core) : (s.modCur f).undos = s.undos := rfl
@[simp] theorem State.modCur_gone (s : State) (f : Core → Core) : (s.modCur f).gone = s.gone := rfl
@[simp] theorem State.modCur_journal (s : State) (f : Core → Core) : (s.modCur f).journal = s.journal := rfl
@[simp] theorem State.modCur_journalMark (s : State) (f : Core → Core) : (s.modCur f).journalMark = s.journalMark := rfl
@[simp] theorem State.modCur_journalNo (s : State) (f : Core → Core) : (s.modCur f).journalNo = s.journalNo := rfl
@[simp] theorem State.modCur_journalWaits (s : State) (f : Core → Core) : (s.modCur f).journalWaits = s.journalWaits := rfl
@[simp] theorem State.modCur_jobs (s : State) (f : Core → Core) : (s.modCur f).jobs = s.jobs := rfl
@[simp] theorem State.modCur_progs (s : State) (f : Core → Core) : (s.modCur f).progs = s.progs := rfl
@[simp] theorem State.modCur_lqueues (s : State) (f : Core → Core) : (s.modCur f).lqueues = s.lqueues := rfl
@[simp] theorem State.modCur_lqSlots (s : State) (f : Core → Core) : (s.modCur f).lqSlots = s.lqSlots := rfl
@[simp] theorem State.modCur_privq (s : State) (f : Core → Core) : (s.modCur f).privq = s.privq := rfl
@[simp] theorem State.modCur_threshold (s : State) (f : Core → Core) : (s.modCur f).threshold = s.threshold := rfl
@[simp] theorem State.modCur_graceUs (s : State) (f : Core → Core) : (s.modCur f).graceUs = s.graceUs := rfl
@[simp] theorem State.modCur_pageTimeoutUs (s : State) (f : Core → Core) : (s.modCur f).pageTimeoutUs = s.pageTimeoutUs := rfl
@[simp] theorem State.modCur_saveReserveMiB (s : State) (f : Core → Core) : (s.modCur f).saveReserveMiB = s.saveReserveMiB := rfl
@[simp] theorem State.modCur_quenchDeadlineUs (s : State) (f : Core → Core) : (s.modCur f).quenchDeadlineUs = s.quenchDeadlineUs := rfl
@[simp] theorem State.modCur_pasids (s : State) (f : Core → Core) : (s.modCur f).pasids = s.pasids := rfl
@[simp] theorem State.modCur_buddies (s : State) (f : Core → Core) : (s.modCur f).buddies = s.buddies := rfl
@[simp] theorem State.modCur_corrected (s : State) (f : Core → Core) : (s.modCur f).corrected = s.corrected := rfl
@[simp] theorem State.modCur_ecc (s : State) (f : Core → Core) : (s.modCur f).ecc = s.ecc := rfl
@[simp] theorem State.modCur_log (s : State) (f : Core → Core) : (s.modCur f).log = s.log := rfl
@[simp] theorem State.modCur_logLost (s : State) (f : Core → Core) : (s.modCur f).logLost = s.logLost := rfl
@[simp] theorem State.modCur_ready (s : State) (f : Core → Core) : (s.modCur f).ready = s.ready := rfl
@[simp] theorem State.modCur_sec (s : State) (f : Core → Core) : (s.modCur f).sec = s.sec := rfl
@[simp] theorem State.modCur_bias (s : State) (f : Core → Core) : (s.modCur f).bias = s.bias := rfl
@[simp] theorem State.modCur_flip (s : State) (f : Core → Core) : (s.modCur f).flip = s.flip := rfl
@[simp] theorem State.modCur_flipNo (s : State) (f : Core → Core) : (s.modCur f).flipNo = s.flipNo := rfl
@[simp] theorem State.modCur_hostHeld (s : State) (f : Core → Core) : (s.modCur f).hostHeld = s.hostHeld := rfl
@[simp] theorem State.modCur_rtSegs (s : State) (f : Core → Core) : (s.modCur f).rtSegs = s.rtSegs := rfl
@[simp] theorem State.modCur_spans (s : State) (f : Core → Core) : (s.modCur f).spans = s.spans := rfl
@[simp] theorem State.modCur_pageReqs (s : State) (f : Core → Core) : (s.modCur f).pageReqs = s.pageReqs := rfl
@[simp] theorem State.modCur_htlbInv (s : State) (f : Core → Core) : (s.modCur f).htlbInv = s.htlbInv := rfl
@[simp] theorem State.modCur_resume (s : State) (f : Core → Core) : (s.modCur f).resume = s.resume := rfl
@[simp] theorem State.modCur_quenches (s : State) (f : Core → Core) : (s.modCur f).quenches = s.quenches := rfl
@[simp] theorem State.modCur_saveAreas (s : State) (f : Core → Core) : (s.modCur f).saveAreas = s.saveAreas := rfl
@[simp] theorem State.modCur_ckpts (s : State) (f : Core → Core) : (s.modCur f).ckpts = s.ckpts := rfl
@[simp] theorem State.modCur_remoteCkpts (s : State) (f : Core → Core) : (s.modCur f).remoteCkpts = s.remoteCkpts := rfl
@[simp] theorem State.modCur_flacon (s : State) (f : Core → Core) : (s.modCur f).flacon = s.flacon := rfl
@[simp] theorem State.modCur_savedBanks (s : State) (f : Core → Core) : (s.modCur f).savedBanks = s.savedBanks := rfl
@[simp] theorem State.modCur_discarded (s : State) (f : Core → Core) : (s.modCur f).discarded = s.discarded := rfl
@[simp] theorem State.modCur_outbox (s : State) (f : Core → Core) : (s.modCur f).outbox = s.outbox := rfl
@[simp] theorem State.modCur_acksOut (s : State) (f : Core → Core) : (s.modCur f).acksOut = s.acksOut := rfl
@[simp] theorem State.modCur_msix (s : State) (f : Core → Core) : (s.modCur f).msix = s.msix := rfl
@[simp] theorem State.modCur_spdmOut (s : State) (f : Core → Core) : (s.modCur f).spdmOut = s.spdmOut := rfl
@[simp] theorem State.modCur_hostReads (s : State) (f : Core → Core) : (s.modCur f).hostReads = s.hostReads := rfl
@[simp] theorem State.modCur_errResponses (s : State) (f : Core → Core) : (s.modCur f).errResponses = s.errResponses := rfl
@[simp] theorem State.modCur_flights (s : State) (f : Core → Core) : (s.modCur f).flights = s.flights := rfl
@[simp] theorem State.modCur_inputs (s : State) (f : Core → Core) : (s.modCur f).inputs = s.inputs := rfl

/-! ## Replacing the acting bank -/

@[simp] theorem State.setBank_cycle (s : State) (b : Bank) : (s.setBank b).cycle = s.cycle := rfl
@[simp] theorem State.setBank_refTime (s : State) (b : Bank) : (s.setBank b).refTime = s.refTime := rfl
@[simp] theorem State.setBank_clockMHz (s : State) (b : Bank) : (s.setBank b).clockMHz = s.clockMHz := rfl
@[simp] theorem State.setBank_free (s : State) (b : Bank) : (s.setBank b).free = s.free := rfl
@[simp] theorem State.setBank_focus (s : State) (b : Bank) : (s.setBank b).focus = s.focus := rfl
@[simp] theorem State.setBank_blank (s : State) (b : Bank) : (s.setBank b).blank = s.blank := rfl
@[simp] theorem State.setBank_slices (s : State) (b : Bank) : (s.setBank b).slices = s.slices := rfl
@[simp] theorem State.setBank_blankSlice (s : State) (b : Bank) : (s.setBank b).blankSlice = s.blankSlice := rfl
@[simp] theorem State.setBank_dies (s : State) (b : Bank) : (s.setBank b).dies = s.dies := rfl
@[simp] theorem State.setBank_hbm (s : State) (b : Bank) : (s.setBank b).hbm = s.hbm := rfl
@[simp] theorem State.setBank_hostMem (s : State) (b : Bank) : (s.setBank b).hostMem = s.hostMem := rfl
@[simp] theorem State.setBank_stamps (s : State) (b : Bank) : (s.setBank b).stamps = s.stamps := rfl
@[simp] theorem State.setBank_blankStamp (s : State) (b : Bank) : (s.setBank b).blankStamp = s.blankStamp := rfl
@[simp] theorem State.setBank_releasers (s : State) (b : Bank) : (s.setBank b).releasers = s.releasers := rfl
@[simp] theorem State.setBank_quarter (s : State) (b : Bank) : (s.setBank b).quarter = s.quarter := rfl
@[simp] theorem State.setBank_ident (s : State) (b : Bank) : (s.setBank b).ident = s.ident := rfl
@[simp] theorem State.setBank_moduleNo (s : State) (b : Bank) : (s.setBank b).moduleNo = s.moduleNo := rfl
@[simp] theorem State.setBank_gen (s : State) (b : Bank) : (s.setBank b).gen = s.gen := rfl
@[simp] theorem State.setBank_mark (s : State) (b : Bank) : (s.setBank b).mark = s.mark := rfl
@[simp] theorem State.setBank_foreign (s : State) (b : Bank) : (s.setBank b).foreign = s.foreign := rfl
@[simp] theorem State.setBank_peers (s : State) (b : Bank) : (s.setBank b).peers = s.peers := rfl
@[simp] theorem State.setBank_homeMap (s : State) (b : Bank) : (s.setBank b).homeMap = s.homeMap := rfl
@[simp] theorem State.setBank_table (s : State) (b : Bank) : (s.setBank b).table = s.table := rfl
@[simp] theorem State.setBank_dying (s : State) (b : Bank) : (s.setBank b).dying = s.dying := rfl
@[simp] theorem State.setBank_patches (s : State) (b : Bank) : (s.setBank b).patches = s.patches := rfl
@[simp] theorem State.setBank_chains (s : State) (b : Bank) : (s.setBank b).chains = s.chains := rfl
@[simp] theorem State.setBank_seals (s : State) (b : Bank) : (s.setBank b).seals = s.seals := rfl
@[simp] theorem State.setBank_sealPts (s : State) (b : Bank) : (s.setBank b).sealPts = s.sealPts := rfl
@[simp] theorem State.setBank_dirtyPages (s : State) (b : Bank) : (s.setBank b).dirtyPages = s.dirtyPages := rfl
@[simp] theorem State.setBank_undos (s : State) (b : Bank) : (s.setBank b).undos = s.undos := rfl
@[simp] theorem State.setBank_gone (s : State) (b : Bank) : (s.setBank b).gone = s.gone := rfl
@[simp] theorem State.setBank_journal (s : State) (b : Bank) : (s.setBank b).journal = s.journal := rfl
@[simp] theorem State.setBank_journalMark (s : State) (b : Bank) : (s.setBank b).journalMark = s.journalMark := rfl
@[simp] theorem State.setBank_journalNo (s : State) (b : Bank) : (s.setBank b).journalNo = s.journalNo := rfl
@[simp] theorem State.setBank_journalWaits (s : State) (b : Bank) : (s.setBank b).journalWaits = s.journalWaits := rfl
@[simp] theorem State.setBank_jobs (s : State) (b : Bank) : (s.setBank b).jobs = s.jobs := rfl
@[simp] theorem State.setBank_progs (s : State) (b : Bank) : (s.setBank b).progs = s.progs := rfl
@[simp] theorem State.setBank_lqueues (s : State) (b : Bank) : (s.setBank b).lqueues = s.lqueues := rfl
@[simp] theorem State.setBank_lqSlots (s : State) (b : Bank) : (s.setBank b).lqSlots = s.lqSlots := rfl
@[simp] theorem State.setBank_privq (s : State) (b : Bank) : (s.setBank b).privq = s.privq := rfl
@[simp] theorem State.setBank_threshold (s : State) (b : Bank) : (s.setBank b).threshold = s.threshold := rfl
@[simp] theorem State.setBank_graceUs (s : State) (b : Bank) : (s.setBank b).graceUs = s.graceUs := rfl
@[simp] theorem State.setBank_pageTimeoutUs (s : State) (b : Bank) : (s.setBank b).pageTimeoutUs = s.pageTimeoutUs := rfl
@[simp] theorem State.setBank_saveReserveMiB (s : State) (b : Bank) : (s.setBank b).saveReserveMiB = s.saveReserveMiB := rfl
@[simp] theorem State.setBank_quenchDeadlineUs (s : State) (b : Bank) : (s.setBank b).quenchDeadlineUs = s.quenchDeadlineUs := rfl
@[simp] theorem State.setBank_pasids (s : State) (b : Bank) : (s.setBank b).pasids = s.pasids := rfl
@[simp] theorem State.setBank_buddies (s : State) (b : Bank) : (s.setBank b).buddies = s.buddies := rfl
@[simp] theorem State.setBank_corrected (s : State) (b : Bank) : (s.setBank b).corrected = s.corrected := rfl
@[simp] theorem State.setBank_ecc (s : State) (b : Bank) : (s.setBank b).ecc = s.ecc := rfl
@[simp] theorem State.setBank_log (s : State) (b : Bank) : (s.setBank b).log = s.log := rfl
@[simp] theorem State.setBank_logLost (s : State) (b : Bank) : (s.setBank b).logLost = s.logLost := rfl
@[simp] theorem State.setBank_ready (s : State) (b : Bank) : (s.setBank b).ready = s.ready := rfl
@[simp] theorem State.setBank_sec (s : State) (b : Bank) : (s.setBank b).sec = s.sec := rfl
@[simp] theorem State.setBank_bias (s : State) (b : Bank) : (s.setBank b).bias = s.bias := rfl
@[simp] theorem State.setBank_flip (s : State) (b : Bank) : (s.setBank b).flip = s.flip := rfl
@[simp] theorem State.setBank_flipNo (s : State) (b : Bank) : (s.setBank b).flipNo = s.flipNo := rfl
@[simp] theorem State.setBank_hostHeld (s : State) (b : Bank) : (s.setBank b).hostHeld = s.hostHeld := rfl
@[simp] theorem State.setBank_rtSegs (s : State) (b : Bank) : (s.setBank b).rtSegs = s.rtSegs := rfl
@[simp] theorem State.setBank_spans (s : State) (b : Bank) : (s.setBank b).spans = s.spans := rfl
@[simp] theorem State.setBank_pageReqs (s : State) (b : Bank) : (s.setBank b).pageReqs = s.pageReqs := rfl
@[simp] theorem State.setBank_htlbInv (s : State) (b : Bank) : (s.setBank b).htlbInv = s.htlbInv := rfl
@[simp] theorem State.setBank_resume (s : State) (b : Bank) : (s.setBank b).resume = s.resume := rfl
@[simp] theorem State.setBank_quenches (s : State) (b : Bank) : (s.setBank b).quenches = s.quenches := rfl
@[simp] theorem State.setBank_saveAreas (s : State) (b : Bank) : (s.setBank b).saveAreas = s.saveAreas := rfl
@[simp] theorem State.setBank_ckpts (s : State) (b : Bank) : (s.setBank b).ckpts = s.ckpts := rfl
@[simp] theorem State.setBank_remoteCkpts (s : State) (b : Bank) : (s.setBank b).remoteCkpts = s.remoteCkpts := rfl
@[simp] theorem State.setBank_flacon (s : State) (b : Bank) : (s.setBank b).flacon = s.flacon := rfl
@[simp] theorem State.setBank_savedBanks (s : State) (b : Bank) : (s.setBank b).savedBanks = s.savedBanks := rfl
@[simp] theorem State.setBank_discarded (s : State) (b : Bank) : (s.setBank b).discarded = s.discarded := rfl
@[simp] theorem State.setBank_outbox (s : State) (b : Bank) : (s.setBank b).outbox = s.outbox := rfl
@[simp] theorem State.setBank_acksOut (s : State) (b : Bank) : (s.setBank b).acksOut = s.acksOut := rfl
@[simp] theorem State.setBank_msix (s : State) (b : Bank) : (s.setBank b).msix = s.msix := rfl
@[simp] theorem State.setBank_spdmOut (s : State) (b : Bank) : (s.setBank b).spdmOut = s.spdmOut := rfl
@[simp] theorem State.setBank_hostReads (s : State) (b : Bank) : (s.setBank b).hostReads = s.hostReads := rfl
@[simp] theorem State.setBank_errResponses (s : State) (b : Bank) : (s.setBank b).errResponses = s.errResponses := rfl
@[simp] theorem State.setBank_flights (s : State) (b : Bank) : (s.setBank b).flights = s.flights := rfl
@[simp] theorem State.setBank_inputs (s : State) (b : Bank) : (s.setBank b).inputs = s.inputs := rfl

/-! ## Changing the acting bank -/

@[simp] theorem State.modBank_cycle (s : State) (f : Bank → Bank) : (s.modBank f).cycle = s.cycle := rfl
@[simp] theorem State.modBank_refTime (s : State) (f : Bank → Bank) : (s.modBank f).refTime = s.refTime := rfl
@[simp] theorem State.modBank_clockMHz (s : State) (f : Bank → Bank) : (s.modBank f).clockMHz = s.clockMHz := rfl
@[simp] theorem State.modBank_free (s : State) (f : Bank → Bank) : (s.modBank f).free = s.free := rfl
@[simp] theorem State.modBank_focus (s : State) (f : Bank → Bank) : (s.modBank f).focus = s.focus := rfl
@[simp] theorem State.modBank_blank (s : State) (f : Bank → Bank) : (s.modBank f).blank = s.blank := rfl
@[simp] theorem State.modBank_slices (s : State) (f : Bank → Bank) : (s.modBank f).slices = s.slices := rfl
@[simp] theorem State.modBank_blankSlice (s : State) (f : Bank → Bank) : (s.modBank f).blankSlice = s.blankSlice := rfl
@[simp] theorem State.modBank_dies (s : State) (f : Bank → Bank) : (s.modBank f).dies = s.dies := rfl
@[simp] theorem State.modBank_hbm (s : State) (f : Bank → Bank) : (s.modBank f).hbm = s.hbm := rfl
@[simp] theorem State.modBank_hostMem (s : State) (f : Bank → Bank) : (s.modBank f).hostMem = s.hostMem := rfl
@[simp] theorem State.modBank_stamps (s : State) (f : Bank → Bank) : (s.modBank f).stamps = s.stamps := rfl
@[simp] theorem State.modBank_blankStamp (s : State) (f : Bank → Bank) : (s.modBank f).blankStamp = s.blankStamp := rfl
@[simp] theorem State.modBank_releasers (s : State) (f : Bank → Bank) : (s.modBank f).releasers = s.releasers := rfl
@[simp] theorem State.modBank_quarter (s : State) (f : Bank → Bank) : (s.modBank f).quarter = s.quarter := rfl
@[simp] theorem State.modBank_ident (s : State) (f : Bank → Bank) : (s.modBank f).ident = s.ident := rfl
@[simp] theorem State.modBank_moduleNo (s : State) (f : Bank → Bank) : (s.modBank f).moduleNo = s.moduleNo := rfl
@[simp] theorem State.modBank_gen (s : State) (f : Bank → Bank) : (s.modBank f).gen = s.gen := rfl
@[simp] theorem State.modBank_mark (s : State) (f : Bank → Bank) : (s.modBank f).mark = s.mark := rfl
@[simp] theorem State.modBank_foreign (s : State) (f : Bank → Bank) : (s.modBank f).foreign = s.foreign := rfl
@[simp] theorem State.modBank_peers (s : State) (f : Bank → Bank) : (s.modBank f).peers = s.peers := rfl
@[simp] theorem State.modBank_homeMap (s : State) (f : Bank → Bank) : (s.modBank f).homeMap = s.homeMap := rfl
@[simp] theorem State.modBank_table (s : State) (f : Bank → Bank) : (s.modBank f).table = s.table := rfl
@[simp] theorem State.modBank_dying (s : State) (f : Bank → Bank) : (s.modBank f).dying = s.dying := rfl
@[simp] theorem State.modBank_patches (s : State) (f : Bank → Bank) : (s.modBank f).patches = s.patches := rfl
@[simp] theorem State.modBank_chains (s : State) (f : Bank → Bank) : (s.modBank f).chains = s.chains := rfl
@[simp] theorem State.modBank_seals (s : State) (f : Bank → Bank) : (s.modBank f).seals = s.seals := rfl
@[simp] theorem State.modBank_sealPts (s : State) (f : Bank → Bank) : (s.modBank f).sealPts = s.sealPts := rfl
@[simp] theorem State.modBank_dirtyPages (s : State) (f : Bank → Bank) : (s.modBank f).dirtyPages = s.dirtyPages := rfl
@[simp] theorem State.modBank_undos (s : State) (f : Bank → Bank) : (s.modBank f).undos = s.undos := rfl
@[simp] theorem State.modBank_gone (s : State) (f : Bank → Bank) : (s.modBank f).gone = s.gone := rfl
@[simp] theorem State.modBank_journal (s : State) (f : Bank → Bank) : (s.modBank f).journal = s.journal := rfl
@[simp] theorem State.modBank_journalMark (s : State) (f : Bank → Bank) : (s.modBank f).journalMark = s.journalMark := rfl
@[simp] theorem State.modBank_journalNo (s : State) (f : Bank → Bank) : (s.modBank f).journalNo = s.journalNo := rfl
@[simp] theorem State.modBank_journalWaits (s : State) (f : Bank → Bank) : (s.modBank f).journalWaits = s.journalWaits := rfl
@[simp] theorem State.modBank_jobs (s : State) (f : Bank → Bank) : (s.modBank f).jobs = s.jobs := rfl
@[simp] theorem State.modBank_progs (s : State) (f : Bank → Bank) : (s.modBank f).progs = s.progs := rfl
@[simp] theorem State.modBank_lqueues (s : State) (f : Bank → Bank) : (s.modBank f).lqueues = s.lqueues := rfl
@[simp] theorem State.modBank_lqSlots (s : State) (f : Bank → Bank) : (s.modBank f).lqSlots = s.lqSlots := rfl
@[simp] theorem State.modBank_privq (s : State) (f : Bank → Bank) : (s.modBank f).privq = s.privq := rfl
@[simp] theorem State.modBank_threshold (s : State) (f : Bank → Bank) : (s.modBank f).threshold = s.threshold := rfl
@[simp] theorem State.modBank_graceUs (s : State) (f : Bank → Bank) : (s.modBank f).graceUs = s.graceUs := rfl
@[simp] theorem State.modBank_pageTimeoutUs (s : State) (f : Bank → Bank) : (s.modBank f).pageTimeoutUs = s.pageTimeoutUs := rfl
@[simp] theorem State.modBank_saveReserveMiB (s : State) (f : Bank → Bank) : (s.modBank f).saveReserveMiB = s.saveReserveMiB := rfl
@[simp] theorem State.modBank_quenchDeadlineUs (s : State) (f : Bank → Bank) : (s.modBank f).quenchDeadlineUs = s.quenchDeadlineUs := rfl
@[simp] theorem State.modBank_pasids (s : State) (f : Bank → Bank) : (s.modBank f).pasids = s.pasids := rfl
@[simp] theorem State.modBank_buddies (s : State) (f : Bank → Bank) : (s.modBank f).buddies = s.buddies := rfl
@[simp] theorem State.modBank_corrected (s : State) (f : Bank → Bank) : (s.modBank f).corrected = s.corrected := rfl
@[simp] theorem State.modBank_ecc (s : State) (f : Bank → Bank) : (s.modBank f).ecc = s.ecc := rfl
@[simp] theorem State.modBank_log (s : State) (f : Bank → Bank) : (s.modBank f).log = s.log := rfl
@[simp] theorem State.modBank_logLost (s : State) (f : Bank → Bank) : (s.modBank f).logLost = s.logLost := rfl
@[simp] theorem State.modBank_ready (s : State) (f : Bank → Bank) : (s.modBank f).ready = s.ready := rfl
@[simp] theorem State.modBank_sec (s : State) (f : Bank → Bank) : (s.modBank f).sec = s.sec := rfl
@[simp] theorem State.modBank_bias (s : State) (f : Bank → Bank) : (s.modBank f).bias = s.bias := rfl
@[simp] theorem State.modBank_flip (s : State) (f : Bank → Bank) : (s.modBank f).flip = s.flip := rfl
@[simp] theorem State.modBank_flipNo (s : State) (f : Bank → Bank) : (s.modBank f).flipNo = s.flipNo := rfl
@[simp] theorem State.modBank_hostHeld (s : State) (f : Bank → Bank) : (s.modBank f).hostHeld = s.hostHeld := rfl
@[simp] theorem State.modBank_rtSegs (s : State) (f : Bank → Bank) : (s.modBank f).rtSegs = s.rtSegs := rfl
@[simp] theorem State.modBank_spans (s : State) (f : Bank → Bank) : (s.modBank f).spans = s.spans := rfl
@[simp] theorem State.modBank_pageReqs (s : State) (f : Bank → Bank) : (s.modBank f).pageReqs = s.pageReqs := rfl
@[simp] theorem State.modBank_htlbInv (s : State) (f : Bank → Bank) : (s.modBank f).htlbInv = s.htlbInv := rfl
@[simp] theorem State.modBank_resume (s : State) (f : Bank → Bank) : (s.modBank f).resume = s.resume := rfl
@[simp] theorem State.modBank_quenches (s : State) (f : Bank → Bank) : (s.modBank f).quenches = s.quenches := rfl
@[simp] theorem State.modBank_saveAreas (s : State) (f : Bank → Bank) : (s.modBank f).saveAreas = s.saveAreas := rfl
@[simp] theorem State.modBank_ckpts (s : State) (f : Bank → Bank) : (s.modBank f).ckpts = s.ckpts := rfl
@[simp] theorem State.modBank_remoteCkpts (s : State) (f : Bank → Bank) : (s.modBank f).remoteCkpts = s.remoteCkpts := rfl
@[simp] theorem State.modBank_flacon (s : State) (f : Bank → Bank) : (s.modBank f).flacon = s.flacon := rfl
@[simp] theorem State.modBank_savedBanks (s : State) (f : Bank → Bank) : (s.modBank f).savedBanks = s.savedBanks := rfl
@[simp] theorem State.modBank_discarded (s : State) (f : Bank → Bank) : (s.modBank f).discarded = s.discarded := rfl
@[simp] theorem State.modBank_outbox (s : State) (f : Bank → Bank) : (s.modBank f).outbox = s.outbox := rfl
@[simp] theorem State.modBank_acksOut (s : State) (f : Bank → Bank) : (s.modBank f).acksOut = s.acksOut := rfl
@[simp] theorem State.modBank_msix (s : State) (f : Bank → Bank) : (s.modBank f).msix = s.msix := rfl
@[simp] theorem State.modBank_spdmOut (s : State) (f : Bank → Bank) : (s.modBank f).spdmOut = s.spdmOut := rfl
@[simp] theorem State.modBank_hostReads (s : State) (f : Bank → Bank) : (s.modBank f).hostReads = s.hostReads := rfl
@[simp] theorem State.modBank_errResponses (s : State) (f : Bank → Bank) : (s.modBank f).errResponses = s.errResponses := rfl
@[simp] theorem State.modBank_flights (s : State) (f : Bank → Bank) : (s.modBank f).flights = s.flights := rfl
@[simp] theorem State.modBank_inputs (s : State) (f : Bank → Bank) : (s.modBank f).inputs = s.inputs := rfl

/-! ## Changing a bank by core and number -/

@[simp] theorem State.modBankAt_cycle (s : State) (i : Nat) (b : Bool) (f : Bank → Bank) : (s.modBankAt i b f).cycle = s.cycle := rfl
@[simp] theorem State.modBankAt_refTime (s : State) (i : Nat) (b : Bool) (f : Bank → Bank) : (s.modBankAt i b f).refTime = s.refTime := rfl
@[simp] theorem State.modBankAt_clockMHz (s : State) (i : Nat) (b : Bool) (f : Bank → Bank) : (s.modBankAt i b f).clockMHz = s.clockMHz := rfl
@[simp] theorem State.modBankAt_free (s : State) (i : Nat) (b : Bool) (f : Bank → Bank) : (s.modBankAt i b f).free = s.free := rfl
@[simp] theorem State.modBankAt_focus (s : State) (i : Nat) (b : Bool) (f : Bank → Bank) : (s.modBankAt i b f).focus = s.focus := rfl
@[simp] theorem State.modBankAt_blank (s : State) (i : Nat) (b : Bool) (f : Bank → Bank) : (s.modBankAt i b f).blank = s.blank := rfl
@[simp] theorem State.modBankAt_slices (s : State) (i : Nat) (b : Bool) (f : Bank → Bank) : (s.modBankAt i b f).slices = s.slices := rfl
@[simp] theorem State.modBankAt_blankSlice (s : State) (i : Nat) (b : Bool) (f : Bank → Bank) : (s.modBankAt i b f).blankSlice = s.blankSlice := rfl
@[simp] theorem State.modBankAt_dies (s : State) (i : Nat) (b : Bool) (f : Bank → Bank) : (s.modBankAt i b f).dies = s.dies := rfl
@[simp] theorem State.modBankAt_hbm (s : State) (i : Nat) (b : Bool) (f : Bank → Bank) : (s.modBankAt i b f).hbm = s.hbm := rfl
@[simp] theorem State.modBankAt_hostMem (s : State) (i : Nat) (b : Bool) (f : Bank → Bank) : (s.modBankAt i b f).hostMem = s.hostMem := rfl
@[simp] theorem State.modBankAt_stamps (s : State) (i : Nat) (b : Bool) (f : Bank → Bank) : (s.modBankAt i b f).stamps = s.stamps := rfl
@[simp] theorem State.modBankAt_blankStamp (s : State) (i : Nat) (b : Bool) (f : Bank → Bank) : (s.modBankAt i b f).blankStamp = s.blankStamp := rfl
@[simp] theorem State.modBankAt_releasers (s : State) (i : Nat) (b : Bool) (f : Bank → Bank) : (s.modBankAt i b f).releasers = s.releasers := rfl
@[simp] theorem State.modBankAt_quarter (s : State) (i : Nat) (b : Bool) (f : Bank → Bank) : (s.modBankAt i b f).quarter = s.quarter := rfl
@[simp] theorem State.modBankAt_ident (s : State) (i : Nat) (b : Bool) (f : Bank → Bank) : (s.modBankAt i b f).ident = s.ident := rfl
@[simp] theorem State.modBankAt_moduleNo (s : State) (i : Nat) (b : Bool) (f : Bank → Bank) : (s.modBankAt i b f).moduleNo = s.moduleNo := rfl
@[simp] theorem State.modBankAt_gen (s : State) (i : Nat) (b : Bool) (f : Bank → Bank) : (s.modBankAt i b f).gen = s.gen := rfl
@[simp] theorem State.modBankAt_mark (s : State) (i : Nat) (b : Bool) (f : Bank → Bank) : (s.modBankAt i b f).mark = s.mark := rfl
@[simp] theorem State.modBankAt_foreign (s : State) (i : Nat) (b : Bool) (f : Bank → Bank) : (s.modBankAt i b f).foreign = s.foreign := rfl
@[simp] theorem State.modBankAt_peers (s : State) (i : Nat) (b : Bool) (f : Bank → Bank) : (s.modBankAt i b f).peers = s.peers := rfl
@[simp] theorem State.modBankAt_homeMap (s : State) (i : Nat) (b : Bool) (f : Bank → Bank) : (s.modBankAt i b f).homeMap = s.homeMap := rfl
@[simp] theorem State.modBankAt_table (s : State) (i : Nat) (b : Bool) (f : Bank → Bank) : (s.modBankAt i b f).table = s.table := rfl
@[simp] theorem State.modBankAt_dying (s : State) (i : Nat) (b : Bool) (f : Bank → Bank) : (s.modBankAt i b f).dying = s.dying := rfl
@[simp] theorem State.modBankAt_patches (s : State) (i : Nat) (b : Bool) (f : Bank → Bank) : (s.modBankAt i b f).patches = s.patches := rfl
@[simp] theorem State.modBankAt_chains (s : State) (i : Nat) (b : Bool) (f : Bank → Bank) : (s.modBankAt i b f).chains = s.chains := rfl
@[simp] theorem State.modBankAt_seals (s : State) (i : Nat) (b : Bool) (f : Bank → Bank) : (s.modBankAt i b f).seals = s.seals := rfl
@[simp] theorem State.modBankAt_sealPts (s : State) (i : Nat) (b : Bool) (f : Bank → Bank) : (s.modBankAt i b f).sealPts = s.sealPts := rfl
@[simp] theorem State.modBankAt_dirtyPages (s : State) (i : Nat) (b : Bool) (f : Bank → Bank) : (s.modBankAt i b f).dirtyPages = s.dirtyPages := rfl
@[simp] theorem State.modBankAt_undos (s : State) (i : Nat) (b : Bool) (f : Bank → Bank) : (s.modBankAt i b f).undos = s.undos := rfl
@[simp] theorem State.modBankAt_gone (s : State) (i : Nat) (b : Bool) (f : Bank → Bank) : (s.modBankAt i b f).gone = s.gone := rfl
@[simp] theorem State.modBankAt_journal (s : State) (i : Nat) (b : Bool) (f : Bank → Bank) : (s.modBankAt i b f).journal = s.journal := rfl
@[simp] theorem State.modBankAt_journalMark (s : State) (i : Nat) (b : Bool) (f : Bank → Bank) : (s.modBankAt i b f).journalMark = s.journalMark := rfl
@[simp] theorem State.modBankAt_journalNo (s : State) (i : Nat) (b : Bool) (f : Bank → Bank) : (s.modBankAt i b f).journalNo = s.journalNo := rfl
@[simp] theorem State.modBankAt_journalWaits (s : State) (i : Nat) (b : Bool) (f : Bank → Bank) : (s.modBankAt i b f).journalWaits = s.journalWaits := rfl
@[simp] theorem State.modBankAt_jobs (s : State) (i : Nat) (b : Bool) (f : Bank → Bank) : (s.modBankAt i b f).jobs = s.jobs := rfl
@[simp] theorem State.modBankAt_progs (s : State) (i : Nat) (b : Bool) (f : Bank → Bank) : (s.modBankAt i b f).progs = s.progs := rfl
@[simp] theorem State.modBankAt_lqueues (s : State) (i : Nat) (b : Bool) (f : Bank → Bank) : (s.modBankAt i b f).lqueues = s.lqueues := rfl
@[simp] theorem State.modBankAt_lqSlots (s : State) (i : Nat) (b : Bool) (f : Bank → Bank) : (s.modBankAt i b f).lqSlots = s.lqSlots := rfl
@[simp] theorem State.modBankAt_privq (s : State) (i : Nat) (b : Bool) (f : Bank → Bank) : (s.modBankAt i b f).privq = s.privq := rfl
@[simp] theorem State.modBankAt_threshold (s : State) (i : Nat) (b : Bool) (f : Bank → Bank) : (s.modBankAt i b f).threshold = s.threshold := rfl
@[simp] theorem State.modBankAt_graceUs (s : State) (i : Nat) (b : Bool) (f : Bank → Bank) : (s.modBankAt i b f).graceUs = s.graceUs := rfl
@[simp] theorem State.modBankAt_pageTimeoutUs (s : State) (i : Nat) (b : Bool) (f : Bank → Bank) : (s.modBankAt i b f).pageTimeoutUs = s.pageTimeoutUs := rfl
@[simp] theorem State.modBankAt_saveReserveMiB (s : State) (i : Nat) (b : Bool) (f : Bank → Bank) : (s.modBankAt i b f).saveReserveMiB = s.saveReserveMiB := rfl
@[simp] theorem State.modBankAt_quenchDeadlineUs (s : State) (i : Nat) (b : Bool) (f : Bank → Bank) : (s.modBankAt i b f).quenchDeadlineUs = s.quenchDeadlineUs := rfl
@[simp] theorem State.modBankAt_pasids (s : State) (i : Nat) (b : Bool) (f : Bank → Bank) : (s.modBankAt i b f).pasids = s.pasids := rfl
@[simp] theorem State.modBankAt_buddies (s : State) (i : Nat) (b : Bool) (f : Bank → Bank) : (s.modBankAt i b f).buddies = s.buddies := rfl
@[simp] theorem State.modBankAt_corrected (s : State) (i : Nat) (b : Bool) (f : Bank → Bank) : (s.modBankAt i b f).corrected = s.corrected := rfl
@[simp] theorem State.modBankAt_ecc (s : State) (i : Nat) (b : Bool) (f : Bank → Bank) : (s.modBankAt i b f).ecc = s.ecc := rfl
@[simp] theorem State.modBankAt_log (s : State) (i : Nat) (b : Bool) (f : Bank → Bank) : (s.modBankAt i b f).log = s.log := rfl
@[simp] theorem State.modBankAt_logLost (s : State) (i : Nat) (b : Bool) (f : Bank → Bank) : (s.modBankAt i b f).logLost = s.logLost := rfl
@[simp] theorem State.modBankAt_ready (s : State) (i : Nat) (b : Bool) (f : Bank → Bank) : (s.modBankAt i b f).ready = s.ready := rfl
@[simp] theorem State.modBankAt_sec (s : State) (i : Nat) (b : Bool) (f : Bank → Bank) : (s.modBankAt i b f).sec = s.sec := rfl
@[simp] theorem State.modBankAt_bias (s : State) (i : Nat) (b : Bool) (f : Bank → Bank) : (s.modBankAt i b f).bias = s.bias := rfl
@[simp] theorem State.modBankAt_flip (s : State) (i : Nat) (b : Bool) (f : Bank → Bank) : (s.modBankAt i b f).flip = s.flip := rfl
@[simp] theorem State.modBankAt_flipNo (s : State) (i : Nat) (b : Bool) (f : Bank → Bank) : (s.modBankAt i b f).flipNo = s.flipNo := rfl
@[simp] theorem State.modBankAt_hostHeld (s : State) (i : Nat) (b : Bool) (f : Bank → Bank) : (s.modBankAt i b f).hostHeld = s.hostHeld := rfl
@[simp] theorem State.modBankAt_rtSegs (s : State) (i : Nat) (b : Bool) (f : Bank → Bank) : (s.modBankAt i b f).rtSegs = s.rtSegs := rfl
@[simp] theorem State.modBankAt_spans (s : State) (i : Nat) (b : Bool) (f : Bank → Bank) : (s.modBankAt i b f).spans = s.spans := rfl
@[simp] theorem State.modBankAt_pageReqs (s : State) (i : Nat) (b : Bool) (f : Bank → Bank) : (s.modBankAt i b f).pageReqs = s.pageReqs := rfl
@[simp] theorem State.modBankAt_htlbInv (s : State) (i : Nat) (b : Bool) (f : Bank → Bank) : (s.modBankAt i b f).htlbInv = s.htlbInv := rfl
@[simp] theorem State.modBankAt_resume (s : State) (i : Nat) (b : Bool) (f : Bank → Bank) : (s.modBankAt i b f).resume = s.resume := rfl
@[simp] theorem State.modBankAt_quenches (s : State) (i : Nat) (b : Bool) (f : Bank → Bank) : (s.modBankAt i b f).quenches = s.quenches := rfl
@[simp] theorem State.modBankAt_saveAreas (s : State) (i : Nat) (b : Bool) (f : Bank → Bank) : (s.modBankAt i b f).saveAreas = s.saveAreas := rfl
@[simp] theorem State.modBankAt_ckpts (s : State) (i : Nat) (b : Bool) (f : Bank → Bank) : (s.modBankAt i b f).ckpts = s.ckpts := rfl
@[simp] theorem State.modBankAt_remoteCkpts (s : State) (i : Nat) (b : Bool) (f : Bank → Bank) : (s.modBankAt i b f).remoteCkpts = s.remoteCkpts := rfl
@[simp] theorem State.modBankAt_flacon (s : State) (i : Nat) (b : Bool) (f : Bank → Bank) : (s.modBankAt i b f).flacon = s.flacon := rfl
@[simp] theorem State.modBankAt_savedBanks (s : State) (i : Nat) (b : Bool) (f : Bank → Bank) : (s.modBankAt i b f).savedBanks = s.savedBanks := rfl
@[simp] theorem State.modBankAt_discarded (s : State) (i : Nat) (b : Bool) (f : Bank → Bank) : (s.modBankAt i b f).discarded = s.discarded := rfl
@[simp] theorem State.modBankAt_outbox (s : State) (i : Nat) (b : Bool) (f : Bank → Bank) : (s.modBankAt i b f).outbox = s.outbox := rfl
@[simp] theorem State.modBankAt_acksOut (s : State) (i : Nat) (b : Bool) (f : Bank → Bank) : (s.modBankAt i b f).acksOut = s.acksOut := rfl
@[simp] theorem State.modBankAt_msix (s : State) (i : Nat) (b : Bool) (f : Bank → Bank) : (s.modBankAt i b f).msix = s.msix := rfl
@[simp] theorem State.modBankAt_spdmOut (s : State) (i : Nat) (b : Bool) (f : Bank → Bank) : (s.modBankAt i b f).spdmOut = s.spdmOut := rfl
@[simp] theorem State.modBankAt_hostReads (s : State) (i : Nat) (b : Bool) (f : Bank → Bank) : (s.modBankAt i b f).hostReads = s.hostReads := rfl
@[simp] theorem State.modBankAt_errResponses (s : State) (i : Nat) (b : Bool) (f : Bank → Bank) : (s.modBankAt i b f).errResponses = s.errResponses := rfl
@[simp] theorem State.modBankAt_flights (s : State) (i : Nat) (b : Bool) (f : Bank → Bank) : (s.modBankAt i b f).flights = s.flights := rfl
@[simp] theorem State.modBankAt_inputs (s : State) (i : Nat) (b : Bool) (f : Bank → Bank) : (s.modBankAt i b f).inputs = s.inputs := rfl

/-! ## Changing a slice -/

@[simp] theorem State.modSlice_cycle (s : State) (d n : Nat) (f : Slice → Slice) : (s.modSlice d n f).cycle = s.cycle := rfl
@[simp] theorem State.modSlice_refTime (s : State) (d n : Nat) (f : Slice → Slice) : (s.modSlice d n f).refTime = s.refTime := rfl
@[simp] theorem State.modSlice_clockMHz (s : State) (d n : Nat) (f : Slice → Slice) : (s.modSlice d n f).clockMHz = s.clockMHz := rfl
@[simp] theorem State.modSlice_free (s : State) (d n : Nat) (f : Slice → Slice) : (s.modSlice d n f).free = s.free := rfl
@[simp] theorem State.modSlice_focus (s : State) (d n : Nat) (f : Slice → Slice) : (s.modSlice d n f).focus = s.focus := rfl
@[simp] theorem State.modSlice_cores (s : State) (d n : Nat) (f : Slice → Slice) : (s.modSlice d n f).cores = s.cores := rfl
@[simp] theorem State.modSlice_blank (s : State) (d n : Nat) (f : Slice → Slice) : (s.modSlice d n f).blank = s.blank := rfl
@[simp] theorem State.modSlice_blankSlice (s : State) (d n : Nat) (f : Slice → Slice) : (s.modSlice d n f).blankSlice = s.blankSlice := rfl
@[simp] theorem State.modSlice_dies (s : State) (d n : Nat) (f : Slice → Slice) : (s.modSlice d n f).dies = s.dies := rfl
@[simp] theorem State.modSlice_hbm (s : State) (d n : Nat) (f : Slice → Slice) : (s.modSlice d n f).hbm = s.hbm := rfl
@[simp] theorem State.modSlice_hostMem (s : State) (d n : Nat) (f : Slice → Slice) : (s.modSlice d n f).hostMem = s.hostMem := rfl
@[simp] theorem State.modSlice_stamps (s : State) (d n : Nat) (f : Slice → Slice) : (s.modSlice d n f).stamps = s.stamps := rfl
@[simp] theorem State.modSlice_blankStamp (s : State) (d n : Nat) (f : Slice → Slice) : (s.modSlice d n f).blankStamp = s.blankStamp := rfl
@[simp] theorem State.modSlice_releasers (s : State) (d n : Nat) (f : Slice → Slice) : (s.modSlice d n f).releasers = s.releasers := rfl
@[simp] theorem State.modSlice_quarter (s : State) (d n : Nat) (f : Slice → Slice) : (s.modSlice d n f).quarter = s.quarter := rfl
@[simp] theorem State.modSlice_ident (s : State) (d n : Nat) (f : Slice → Slice) : (s.modSlice d n f).ident = s.ident := rfl
@[simp] theorem State.modSlice_moduleNo (s : State) (d n : Nat) (f : Slice → Slice) : (s.modSlice d n f).moduleNo = s.moduleNo := rfl
@[simp] theorem State.modSlice_gen (s : State) (d n : Nat) (f : Slice → Slice) : (s.modSlice d n f).gen = s.gen := rfl
@[simp] theorem State.modSlice_mark (s : State) (d n : Nat) (f : Slice → Slice) : (s.modSlice d n f).mark = s.mark := rfl
@[simp] theorem State.modSlice_foreign (s : State) (d n : Nat) (f : Slice → Slice) : (s.modSlice d n f).foreign = s.foreign := rfl
@[simp] theorem State.modSlice_peers (s : State) (d n : Nat) (f : Slice → Slice) : (s.modSlice d n f).peers = s.peers := rfl
@[simp] theorem State.modSlice_homeMap (s : State) (d n : Nat) (f : Slice → Slice) : (s.modSlice d n f).homeMap = s.homeMap := rfl
@[simp] theorem State.modSlice_table (s : State) (d n : Nat) (f : Slice → Slice) : (s.modSlice d n f).table = s.table := rfl
@[simp] theorem State.modSlice_dying (s : State) (d n : Nat) (f : Slice → Slice) : (s.modSlice d n f).dying = s.dying := rfl
@[simp] theorem State.modSlice_patches (s : State) (d n : Nat) (f : Slice → Slice) : (s.modSlice d n f).patches = s.patches := rfl
@[simp] theorem State.modSlice_chains (s : State) (d n : Nat) (f : Slice → Slice) : (s.modSlice d n f).chains = s.chains := rfl
@[simp] theorem State.modSlice_seals (s : State) (d n : Nat) (f : Slice → Slice) : (s.modSlice d n f).seals = s.seals := rfl
@[simp] theorem State.modSlice_sealPts (s : State) (d n : Nat) (f : Slice → Slice) : (s.modSlice d n f).sealPts = s.sealPts := rfl
@[simp] theorem State.modSlice_dirtyPages (s : State) (d n : Nat) (f : Slice → Slice) : (s.modSlice d n f).dirtyPages = s.dirtyPages := rfl
@[simp] theorem State.modSlice_undos (s : State) (d n : Nat) (f : Slice → Slice) : (s.modSlice d n f).undos = s.undos := rfl
@[simp] theorem State.modSlice_gone (s : State) (d n : Nat) (f : Slice → Slice) : (s.modSlice d n f).gone = s.gone := rfl
@[simp] theorem State.modSlice_journal (s : State) (d n : Nat) (f : Slice → Slice) : (s.modSlice d n f).journal = s.journal := rfl
@[simp] theorem State.modSlice_journalMark (s : State) (d n : Nat) (f : Slice → Slice) : (s.modSlice d n f).journalMark = s.journalMark := rfl
@[simp] theorem State.modSlice_journalNo (s : State) (d n : Nat) (f : Slice → Slice) : (s.modSlice d n f).journalNo = s.journalNo := rfl
@[simp] theorem State.modSlice_journalWaits (s : State) (d n : Nat) (f : Slice → Slice) : (s.modSlice d n f).journalWaits = s.journalWaits := rfl
@[simp] theorem State.modSlice_jobs (s : State) (d n : Nat) (f : Slice → Slice) : (s.modSlice d n f).jobs = s.jobs := rfl
@[simp] theorem State.modSlice_progs (s : State) (d n : Nat) (f : Slice → Slice) : (s.modSlice d n f).progs = s.progs := rfl
@[simp] theorem State.modSlice_lqueues (s : State) (d n : Nat) (f : Slice → Slice) : (s.modSlice d n f).lqueues = s.lqueues := rfl
@[simp] theorem State.modSlice_lqSlots (s : State) (d n : Nat) (f : Slice → Slice) : (s.modSlice d n f).lqSlots = s.lqSlots := rfl
@[simp] theorem State.modSlice_privq (s : State) (d n : Nat) (f : Slice → Slice) : (s.modSlice d n f).privq = s.privq := rfl
@[simp] theorem State.modSlice_threshold (s : State) (d n : Nat) (f : Slice → Slice) : (s.modSlice d n f).threshold = s.threshold := rfl
@[simp] theorem State.modSlice_graceUs (s : State) (d n : Nat) (f : Slice → Slice) : (s.modSlice d n f).graceUs = s.graceUs := rfl
@[simp] theorem State.modSlice_pageTimeoutUs (s : State) (d n : Nat) (f : Slice → Slice) : (s.modSlice d n f).pageTimeoutUs = s.pageTimeoutUs := rfl
@[simp] theorem State.modSlice_saveReserveMiB (s : State) (d n : Nat) (f : Slice → Slice) : (s.modSlice d n f).saveReserveMiB = s.saveReserveMiB := rfl
@[simp] theorem State.modSlice_quenchDeadlineUs (s : State) (d n : Nat) (f : Slice → Slice) : (s.modSlice d n f).quenchDeadlineUs = s.quenchDeadlineUs := rfl
@[simp] theorem State.modSlice_pasids (s : State) (d n : Nat) (f : Slice → Slice) : (s.modSlice d n f).pasids = s.pasids := rfl
@[simp] theorem State.modSlice_buddies (s : State) (d n : Nat) (f : Slice → Slice) : (s.modSlice d n f).buddies = s.buddies := rfl
@[simp] theorem State.modSlice_corrected (s : State) (d n : Nat) (f : Slice → Slice) : (s.modSlice d n f).corrected = s.corrected := rfl
@[simp] theorem State.modSlice_ecc (s : State) (d n : Nat) (f : Slice → Slice) : (s.modSlice d n f).ecc = s.ecc := rfl
@[simp] theorem State.modSlice_log (s : State) (d n : Nat) (f : Slice → Slice) : (s.modSlice d n f).log = s.log := rfl
@[simp] theorem State.modSlice_logLost (s : State) (d n : Nat) (f : Slice → Slice) : (s.modSlice d n f).logLost = s.logLost := rfl
@[simp] theorem State.modSlice_ready (s : State) (d n : Nat) (f : Slice → Slice) : (s.modSlice d n f).ready = s.ready := rfl
@[simp] theorem State.modSlice_sec (s : State) (d n : Nat) (f : Slice → Slice) : (s.modSlice d n f).sec = s.sec := rfl
@[simp] theorem State.modSlice_bias (s : State) (d n : Nat) (f : Slice → Slice) : (s.modSlice d n f).bias = s.bias := rfl
@[simp] theorem State.modSlice_flip (s : State) (d n : Nat) (f : Slice → Slice) : (s.modSlice d n f).flip = s.flip := rfl
@[simp] theorem State.modSlice_flipNo (s : State) (d n : Nat) (f : Slice → Slice) : (s.modSlice d n f).flipNo = s.flipNo := rfl
@[simp] theorem State.modSlice_hostHeld (s : State) (d n : Nat) (f : Slice → Slice) : (s.modSlice d n f).hostHeld = s.hostHeld := rfl
@[simp] theorem State.modSlice_rtSegs (s : State) (d n : Nat) (f : Slice → Slice) : (s.modSlice d n f).rtSegs = s.rtSegs := rfl
@[simp] theorem State.modSlice_spans (s : State) (d n : Nat) (f : Slice → Slice) : (s.modSlice d n f).spans = s.spans := rfl
@[simp] theorem State.modSlice_pageReqs (s : State) (d n : Nat) (f : Slice → Slice) : (s.modSlice d n f).pageReqs = s.pageReqs := rfl
@[simp] theorem State.modSlice_htlbInv (s : State) (d n : Nat) (f : Slice → Slice) : (s.modSlice d n f).htlbInv = s.htlbInv := rfl
@[simp] theorem State.modSlice_resume (s : State) (d n : Nat) (f : Slice → Slice) : (s.modSlice d n f).resume = s.resume := rfl
@[simp] theorem State.modSlice_quenches (s : State) (d n : Nat) (f : Slice → Slice) : (s.modSlice d n f).quenches = s.quenches := rfl
@[simp] theorem State.modSlice_saveAreas (s : State) (d n : Nat) (f : Slice → Slice) : (s.modSlice d n f).saveAreas = s.saveAreas := rfl
@[simp] theorem State.modSlice_ckpts (s : State) (d n : Nat) (f : Slice → Slice) : (s.modSlice d n f).ckpts = s.ckpts := rfl
@[simp] theorem State.modSlice_remoteCkpts (s : State) (d n : Nat) (f : Slice → Slice) : (s.modSlice d n f).remoteCkpts = s.remoteCkpts := rfl
@[simp] theorem State.modSlice_flacon (s : State) (d n : Nat) (f : Slice → Slice) : (s.modSlice d n f).flacon = s.flacon := rfl
@[simp] theorem State.modSlice_savedBanks (s : State) (d n : Nat) (f : Slice → Slice) : (s.modSlice d n f).savedBanks = s.savedBanks := rfl
@[simp] theorem State.modSlice_discarded (s : State) (d n : Nat) (f : Slice → Slice) : (s.modSlice d n f).discarded = s.discarded := rfl
@[simp] theorem State.modSlice_outbox (s : State) (d n : Nat) (f : Slice → Slice) : (s.modSlice d n f).outbox = s.outbox := rfl
@[simp] theorem State.modSlice_acksOut (s : State) (d n : Nat) (f : Slice → Slice) : (s.modSlice d n f).acksOut = s.acksOut := rfl
@[simp] theorem State.modSlice_msix (s : State) (d n : Nat) (f : Slice → Slice) : (s.modSlice d n f).msix = s.msix := rfl
@[simp] theorem State.modSlice_spdmOut (s : State) (d n : Nat) (f : Slice → Slice) : (s.modSlice d n f).spdmOut = s.spdmOut := rfl
@[simp] theorem State.modSlice_hostReads (s : State) (d n : Nat) (f : Slice → Slice) : (s.modSlice d n f).hostReads = s.hostReads := rfl
@[simp] theorem State.modSlice_errResponses (s : State) (d n : Nat) (f : Slice → Slice) : (s.modSlice d n f).errResponses = s.errResponses := rfl
@[simp] theorem State.modSlice_flights (s : State) (d n : Nat) (f : Slice → Slice) : (s.modSlice d n f).flights = s.flights := rfl
@[simp] theorem State.modSlice_inputs (s : State) (d n : Nat) (f : Slice → Slice) : (s.modSlice d n f).inputs = s.inputs := rfl

/-! ## Changing a die -/

@[simp] theorem State.modDie_cycle (s : State) (d : Nat) (f : Die → Die) : (s.modDie d f).cycle = s.cycle := rfl
@[simp] theorem State.modDie_refTime (s : State) (d : Nat) (f : Die → Die) : (s.modDie d f).refTime = s.refTime := rfl
@[simp] theorem State.modDie_clockMHz (s : State) (d : Nat) (f : Die → Die) : (s.modDie d f).clockMHz = s.clockMHz := rfl
@[simp] theorem State.modDie_free (s : State) (d : Nat) (f : Die → Die) : (s.modDie d f).free = s.free := rfl
@[simp] theorem State.modDie_focus (s : State) (d : Nat) (f : Die → Die) : (s.modDie d f).focus = s.focus := rfl
@[simp] theorem State.modDie_cores (s : State) (d : Nat) (f : Die → Die) : (s.modDie d f).cores = s.cores := rfl
@[simp] theorem State.modDie_blank (s : State) (d : Nat) (f : Die → Die) : (s.modDie d f).blank = s.blank := rfl
@[simp] theorem State.modDie_slices (s : State) (d : Nat) (f : Die → Die) : (s.modDie d f).slices = s.slices := rfl
@[simp] theorem State.modDie_blankSlice (s : State) (d : Nat) (f : Die → Die) : (s.modDie d f).blankSlice = s.blankSlice := rfl
@[simp] theorem State.modDie_hbm (s : State) (d : Nat) (f : Die → Die) : (s.modDie d f).hbm = s.hbm := rfl
@[simp] theorem State.modDie_hostMem (s : State) (d : Nat) (f : Die → Die) : (s.modDie d f).hostMem = s.hostMem := rfl
@[simp] theorem State.modDie_stamps (s : State) (d : Nat) (f : Die → Die) : (s.modDie d f).stamps = s.stamps := rfl
@[simp] theorem State.modDie_blankStamp (s : State) (d : Nat) (f : Die → Die) : (s.modDie d f).blankStamp = s.blankStamp := rfl
@[simp] theorem State.modDie_releasers (s : State) (d : Nat) (f : Die → Die) : (s.modDie d f).releasers = s.releasers := rfl
@[simp] theorem State.modDie_quarter (s : State) (d : Nat) (f : Die → Die) : (s.modDie d f).quarter = s.quarter := rfl
@[simp] theorem State.modDie_ident (s : State) (d : Nat) (f : Die → Die) : (s.modDie d f).ident = s.ident := rfl
@[simp] theorem State.modDie_moduleNo (s : State) (d : Nat) (f : Die → Die) : (s.modDie d f).moduleNo = s.moduleNo := rfl
@[simp] theorem State.modDie_gen (s : State) (d : Nat) (f : Die → Die) : (s.modDie d f).gen = s.gen := rfl
@[simp] theorem State.modDie_mark (s : State) (d : Nat) (f : Die → Die) : (s.modDie d f).mark = s.mark := rfl
@[simp] theorem State.modDie_foreign (s : State) (d : Nat) (f : Die → Die) : (s.modDie d f).foreign = s.foreign := rfl
@[simp] theorem State.modDie_peers (s : State) (d : Nat) (f : Die → Die) : (s.modDie d f).peers = s.peers := rfl
@[simp] theorem State.modDie_homeMap (s : State) (d : Nat) (f : Die → Die) : (s.modDie d f).homeMap = s.homeMap := rfl
@[simp] theorem State.modDie_table (s : State) (d : Nat) (f : Die → Die) : (s.modDie d f).table = s.table := rfl
@[simp] theorem State.modDie_dying (s : State) (d : Nat) (f : Die → Die) : (s.modDie d f).dying = s.dying := rfl
@[simp] theorem State.modDie_patches (s : State) (d : Nat) (f : Die → Die) : (s.modDie d f).patches = s.patches := rfl
@[simp] theorem State.modDie_chains (s : State) (d : Nat) (f : Die → Die) : (s.modDie d f).chains = s.chains := rfl
@[simp] theorem State.modDie_seals (s : State) (d : Nat) (f : Die → Die) : (s.modDie d f).seals = s.seals := rfl
@[simp] theorem State.modDie_sealPts (s : State) (d : Nat) (f : Die → Die) : (s.modDie d f).sealPts = s.sealPts := rfl
@[simp] theorem State.modDie_dirtyPages (s : State) (d : Nat) (f : Die → Die) : (s.modDie d f).dirtyPages = s.dirtyPages := rfl
@[simp] theorem State.modDie_undos (s : State) (d : Nat) (f : Die → Die) : (s.modDie d f).undos = s.undos := rfl
@[simp] theorem State.modDie_gone (s : State) (d : Nat) (f : Die → Die) : (s.modDie d f).gone = s.gone := rfl
@[simp] theorem State.modDie_journal (s : State) (d : Nat) (f : Die → Die) : (s.modDie d f).journal = s.journal := rfl
@[simp] theorem State.modDie_journalMark (s : State) (d : Nat) (f : Die → Die) : (s.modDie d f).journalMark = s.journalMark := rfl
@[simp] theorem State.modDie_journalNo (s : State) (d : Nat) (f : Die → Die) : (s.modDie d f).journalNo = s.journalNo := rfl
@[simp] theorem State.modDie_journalWaits (s : State) (d : Nat) (f : Die → Die) : (s.modDie d f).journalWaits = s.journalWaits := rfl
@[simp] theorem State.modDie_jobs (s : State) (d : Nat) (f : Die → Die) : (s.modDie d f).jobs = s.jobs := rfl
@[simp] theorem State.modDie_progs (s : State) (d : Nat) (f : Die → Die) : (s.modDie d f).progs = s.progs := rfl
@[simp] theorem State.modDie_lqueues (s : State) (d : Nat) (f : Die → Die) : (s.modDie d f).lqueues = s.lqueues := rfl
@[simp] theorem State.modDie_lqSlots (s : State) (d : Nat) (f : Die → Die) : (s.modDie d f).lqSlots = s.lqSlots := rfl
@[simp] theorem State.modDie_privq (s : State) (d : Nat) (f : Die → Die) : (s.modDie d f).privq = s.privq := rfl
@[simp] theorem State.modDie_threshold (s : State) (d : Nat) (f : Die → Die) : (s.modDie d f).threshold = s.threshold := rfl
@[simp] theorem State.modDie_graceUs (s : State) (d : Nat) (f : Die → Die) : (s.modDie d f).graceUs = s.graceUs := rfl
@[simp] theorem State.modDie_pageTimeoutUs (s : State) (d : Nat) (f : Die → Die) : (s.modDie d f).pageTimeoutUs = s.pageTimeoutUs := rfl
@[simp] theorem State.modDie_saveReserveMiB (s : State) (d : Nat) (f : Die → Die) : (s.modDie d f).saveReserveMiB = s.saveReserveMiB := rfl
@[simp] theorem State.modDie_quenchDeadlineUs (s : State) (d : Nat) (f : Die → Die) : (s.modDie d f).quenchDeadlineUs = s.quenchDeadlineUs := rfl
@[simp] theorem State.modDie_pasids (s : State) (d : Nat) (f : Die → Die) : (s.modDie d f).pasids = s.pasids := rfl
@[simp] theorem State.modDie_buddies (s : State) (d : Nat) (f : Die → Die) : (s.modDie d f).buddies = s.buddies := rfl
@[simp] theorem State.modDie_corrected (s : State) (d : Nat) (f : Die → Die) : (s.modDie d f).corrected = s.corrected := rfl
@[simp] theorem State.modDie_ecc (s : State) (d : Nat) (f : Die → Die) : (s.modDie d f).ecc = s.ecc := rfl
@[simp] theorem State.modDie_log (s : State) (d : Nat) (f : Die → Die) : (s.modDie d f).log = s.log := rfl
@[simp] theorem State.modDie_logLost (s : State) (d : Nat) (f : Die → Die) : (s.modDie d f).logLost = s.logLost := rfl
@[simp] theorem State.modDie_ready (s : State) (d : Nat) (f : Die → Die) : (s.modDie d f).ready = s.ready := rfl
@[simp] theorem State.modDie_sec (s : State) (d : Nat) (f : Die → Die) : (s.modDie d f).sec = s.sec := rfl
@[simp] theorem State.modDie_bias (s : State) (d : Nat) (f : Die → Die) : (s.modDie d f).bias = s.bias := rfl
@[simp] theorem State.modDie_flip (s : State) (d : Nat) (f : Die → Die) : (s.modDie d f).flip = s.flip := rfl
@[simp] theorem State.modDie_flipNo (s : State) (d : Nat) (f : Die → Die) : (s.modDie d f).flipNo = s.flipNo := rfl
@[simp] theorem State.modDie_hostHeld (s : State) (d : Nat) (f : Die → Die) : (s.modDie d f).hostHeld = s.hostHeld := rfl
@[simp] theorem State.modDie_rtSegs (s : State) (d : Nat) (f : Die → Die) : (s.modDie d f).rtSegs = s.rtSegs := rfl
@[simp] theorem State.modDie_spans (s : State) (d : Nat) (f : Die → Die) : (s.modDie d f).spans = s.spans := rfl
@[simp] theorem State.modDie_pageReqs (s : State) (d : Nat) (f : Die → Die) : (s.modDie d f).pageReqs = s.pageReqs := rfl
@[simp] theorem State.modDie_htlbInv (s : State) (d : Nat) (f : Die → Die) : (s.modDie d f).htlbInv = s.htlbInv := rfl
@[simp] theorem State.modDie_resume (s : State) (d : Nat) (f : Die → Die) : (s.modDie d f).resume = s.resume := rfl
@[simp] theorem State.modDie_quenches (s : State) (d : Nat) (f : Die → Die) : (s.modDie d f).quenches = s.quenches := rfl
@[simp] theorem State.modDie_saveAreas (s : State) (d : Nat) (f : Die → Die) : (s.modDie d f).saveAreas = s.saveAreas := rfl
@[simp] theorem State.modDie_ckpts (s : State) (d : Nat) (f : Die → Die) : (s.modDie d f).ckpts = s.ckpts := rfl
@[simp] theorem State.modDie_remoteCkpts (s : State) (d : Nat) (f : Die → Die) : (s.modDie d f).remoteCkpts = s.remoteCkpts := rfl
@[simp] theorem State.modDie_flacon (s : State) (d : Nat) (f : Die → Die) : (s.modDie d f).flacon = s.flacon := rfl
@[simp] theorem State.modDie_savedBanks (s : State) (d : Nat) (f : Die → Die) : (s.modDie d f).savedBanks = s.savedBanks := rfl
@[simp] theorem State.modDie_discarded (s : State) (d : Nat) (f : Die → Die) : (s.modDie d f).discarded = s.discarded := rfl
@[simp] theorem State.modDie_outbox (s : State) (d : Nat) (f : Die → Die) : (s.modDie d f).outbox = s.outbox := rfl
@[simp] theorem State.modDie_acksOut (s : State) (d : Nat) (f : Die → Die) : (s.modDie d f).acksOut = s.acksOut := rfl
@[simp] theorem State.modDie_msix (s : State) (d : Nat) (f : Die → Die) : (s.modDie d f).msix = s.msix := rfl
@[simp] theorem State.modDie_spdmOut (s : State) (d : Nat) (f : Die → Die) : (s.modDie d f).spdmOut = s.spdmOut := rfl
@[simp] theorem State.modDie_hostReads (s : State) (d : Nat) (f : Die → Die) : (s.modDie d f).hostReads = s.hostReads := rfl
@[simp] theorem State.modDie_errResponses (s : State) (d : Nat) (f : Die → Die) : (s.modDie d f).errResponses = s.errResponses := rfl
@[simp] theorem State.modDie_flights (s : State) (d : Nat) (f : Die → Die) : (s.modDie d f).flights = s.flights := rfl
@[simp] theorem State.modDie_inputs (s : State) (d : Nat) (f : Die → Die) : (s.modDie d f).inputs = s.inputs := rfl

/-! ## Changing a job -/

@[simp] theorem State.modJob_cycle (s : State) (d : Nat) (f : Job → Job) : (s.modJob d f).cycle = s.cycle := rfl
@[simp] theorem State.modJob_refTime (s : State) (d : Nat) (f : Job → Job) : (s.modJob d f).refTime = s.refTime := rfl
@[simp] theorem State.modJob_clockMHz (s : State) (d : Nat) (f : Job → Job) : (s.modJob d f).clockMHz = s.clockMHz := rfl
@[simp] theorem State.modJob_free (s : State) (d : Nat) (f : Job → Job) : (s.modJob d f).free = s.free := rfl
@[simp] theorem State.modJob_focus (s : State) (d : Nat) (f : Job → Job) : (s.modJob d f).focus = s.focus := rfl
@[simp] theorem State.modJob_cores (s : State) (d : Nat) (f : Job → Job) : (s.modJob d f).cores = s.cores := rfl
@[simp] theorem State.modJob_blank (s : State) (d : Nat) (f : Job → Job) : (s.modJob d f).blank = s.blank := rfl
@[simp] theorem State.modJob_slices (s : State) (d : Nat) (f : Job → Job) : (s.modJob d f).slices = s.slices := rfl
@[simp] theorem State.modJob_blankSlice (s : State) (d : Nat) (f : Job → Job) : (s.modJob d f).blankSlice = s.blankSlice := rfl
@[simp] theorem State.modJob_dies (s : State) (d : Nat) (f : Job → Job) : (s.modJob d f).dies = s.dies := rfl
@[simp] theorem State.modJob_hbm (s : State) (d : Nat) (f : Job → Job) : (s.modJob d f).hbm = s.hbm := rfl
@[simp] theorem State.modJob_hostMem (s : State) (d : Nat) (f : Job → Job) : (s.modJob d f).hostMem = s.hostMem := rfl
@[simp] theorem State.modJob_stamps (s : State) (d : Nat) (f : Job → Job) : (s.modJob d f).stamps = s.stamps := rfl
@[simp] theorem State.modJob_blankStamp (s : State) (d : Nat) (f : Job → Job) : (s.modJob d f).blankStamp = s.blankStamp := rfl
@[simp] theorem State.modJob_releasers (s : State) (d : Nat) (f : Job → Job) : (s.modJob d f).releasers = s.releasers := rfl
@[simp] theorem State.modJob_quarter (s : State) (d : Nat) (f : Job → Job) : (s.modJob d f).quarter = s.quarter := rfl
@[simp] theorem State.modJob_ident (s : State) (d : Nat) (f : Job → Job) : (s.modJob d f).ident = s.ident := rfl
@[simp] theorem State.modJob_moduleNo (s : State) (d : Nat) (f : Job → Job) : (s.modJob d f).moduleNo = s.moduleNo := rfl
@[simp] theorem State.modJob_gen (s : State) (d : Nat) (f : Job → Job) : (s.modJob d f).gen = s.gen := rfl
@[simp] theorem State.modJob_mark (s : State) (d : Nat) (f : Job → Job) : (s.modJob d f).mark = s.mark := rfl
@[simp] theorem State.modJob_foreign (s : State) (d : Nat) (f : Job → Job) : (s.modJob d f).foreign = s.foreign := rfl
@[simp] theorem State.modJob_peers (s : State) (d : Nat) (f : Job → Job) : (s.modJob d f).peers = s.peers := rfl
@[simp] theorem State.modJob_homeMap (s : State) (d : Nat) (f : Job → Job) : (s.modJob d f).homeMap = s.homeMap := rfl
@[simp] theorem State.modJob_table (s : State) (d : Nat) (f : Job → Job) : (s.modJob d f).table = s.table := rfl
@[simp] theorem State.modJob_dying (s : State) (d : Nat) (f : Job → Job) : (s.modJob d f).dying = s.dying := rfl
@[simp] theorem State.modJob_patches (s : State) (d : Nat) (f : Job → Job) : (s.modJob d f).patches = s.patches := rfl
@[simp] theorem State.modJob_chains (s : State) (d : Nat) (f : Job → Job) : (s.modJob d f).chains = s.chains := rfl
@[simp] theorem State.modJob_seals (s : State) (d : Nat) (f : Job → Job) : (s.modJob d f).seals = s.seals := rfl
@[simp] theorem State.modJob_sealPts (s : State) (d : Nat) (f : Job → Job) : (s.modJob d f).sealPts = s.sealPts := rfl
@[simp] theorem State.modJob_dirtyPages (s : State) (d : Nat) (f : Job → Job) : (s.modJob d f).dirtyPages = s.dirtyPages := rfl
@[simp] theorem State.modJob_undos (s : State) (d : Nat) (f : Job → Job) : (s.modJob d f).undos = s.undos := rfl
@[simp] theorem State.modJob_gone (s : State) (d : Nat) (f : Job → Job) : (s.modJob d f).gone = s.gone := rfl
@[simp] theorem State.modJob_journal (s : State) (d : Nat) (f : Job → Job) : (s.modJob d f).journal = s.journal := rfl
@[simp] theorem State.modJob_journalMark (s : State) (d : Nat) (f : Job → Job) : (s.modJob d f).journalMark = s.journalMark := rfl
@[simp] theorem State.modJob_journalNo (s : State) (d : Nat) (f : Job → Job) : (s.modJob d f).journalNo = s.journalNo := rfl
@[simp] theorem State.modJob_journalWaits (s : State) (d : Nat) (f : Job → Job) : (s.modJob d f).journalWaits = s.journalWaits := rfl
@[simp] theorem State.modJob_progs (s : State) (d : Nat) (f : Job → Job) : (s.modJob d f).progs = s.progs := rfl
@[simp] theorem State.modJob_lqueues (s : State) (d : Nat) (f : Job → Job) : (s.modJob d f).lqueues = s.lqueues := rfl
@[simp] theorem State.modJob_lqSlots (s : State) (d : Nat) (f : Job → Job) : (s.modJob d f).lqSlots = s.lqSlots := rfl
@[simp] theorem State.modJob_privq (s : State) (d : Nat) (f : Job → Job) : (s.modJob d f).privq = s.privq := rfl
@[simp] theorem State.modJob_threshold (s : State) (d : Nat) (f : Job → Job) : (s.modJob d f).threshold = s.threshold := rfl
@[simp] theorem State.modJob_graceUs (s : State) (d : Nat) (f : Job → Job) : (s.modJob d f).graceUs = s.graceUs := rfl
@[simp] theorem State.modJob_pageTimeoutUs (s : State) (d : Nat) (f : Job → Job) : (s.modJob d f).pageTimeoutUs = s.pageTimeoutUs := rfl
@[simp] theorem State.modJob_saveReserveMiB (s : State) (d : Nat) (f : Job → Job) : (s.modJob d f).saveReserveMiB = s.saveReserveMiB := rfl
@[simp] theorem State.modJob_quenchDeadlineUs (s : State) (d : Nat) (f : Job → Job) : (s.modJob d f).quenchDeadlineUs = s.quenchDeadlineUs := rfl
@[simp] theorem State.modJob_pasids (s : State) (d : Nat) (f : Job → Job) : (s.modJob d f).pasids = s.pasids := rfl
@[simp] theorem State.modJob_buddies (s : State) (d : Nat) (f : Job → Job) : (s.modJob d f).buddies = s.buddies := rfl
@[simp] theorem State.modJob_corrected (s : State) (d : Nat) (f : Job → Job) : (s.modJob d f).corrected = s.corrected := rfl
@[simp] theorem State.modJob_ecc (s : State) (d : Nat) (f : Job → Job) : (s.modJob d f).ecc = s.ecc := rfl
@[simp] theorem State.modJob_log (s : State) (d : Nat) (f : Job → Job) : (s.modJob d f).log = s.log := rfl
@[simp] theorem State.modJob_logLost (s : State) (d : Nat) (f : Job → Job) : (s.modJob d f).logLost = s.logLost := rfl
@[simp] theorem State.modJob_ready (s : State) (d : Nat) (f : Job → Job) : (s.modJob d f).ready = s.ready := rfl
@[simp] theorem State.modJob_sec (s : State) (d : Nat) (f : Job → Job) : (s.modJob d f).sec = s.sec := rfl
@[simp] theorem State.modJob_bias (s : State) (d : Nat) (f : Job → Job) : (s.modJob d f).bias = s.bias := rfl
@[simp] theorem State.modJob_flip (s : State) (d : Nat) (f : Job → Job) : (s.modJob d f).flip = s.flip := rfl
@[simp] theorem State.modJob_flipNo (s : State) (d : Nat) (f : Job → Job) : (s.modJob d f).flipNo = s.flipNo := rfl
@[simp] theorem State.modJob_hostHeld (s : State) (d : Nat) (f : Job → Job) : (s.modJob d f).hostHeld = s.hostHeld := rfl
@[simp] theorem State.modJob_rtSegs (s : State) (d : Nat) (f : Job → Job) : (s.modJob d f).rtSegs = s.rtSegs := rfl
@[simp] theorem State.modJob_spans (s : State) (d : Nat) (f : Job → Job) : (s.modJob d f).spans = s.spans := rfl
@[simp] theorem State.modJob_pageReqs (s : State) (d : Nat) (f : Job → Job) : (s.modJob d f).pageReqs = s.pageReqs := rfl
@[simp] theorem State.modJob_htlbInv (s : State) (d : Nat) (f : Job → Job) : (s.modJob d f).htlbInv = s.htlbInv := rfl
@[simp] theorem State.modJob_resume (s : State) (d : Nat) (f : Job → Job) : (s.modJob d f).resume = s.resume := rfl
@[simp] theorem State.modJob_quenches (s : State) (d : Nat) (f : Job → Job) : (s.modJob d f).quenches = s.quenches := rfl
@[simp] theorem State.modJob_saveAreas (s : State) (d : Nat) (f : Job → Job) : (s.modJob d f).saveAreas = s.saveAreas := rfl
@[simp] theorem State.modJob_ckpts (s : State) (d : Nat) (f : Job → Job) : (s.modJob d f).ckpts = s.ckpts := rfl
@[simp] theorem State.modJob_remoteCkpts (s : State) (d : Nat) (f : Job → Job) : (s.modJob d f).remoteCkpts = s.remoteCkpts := rfl
@[simp] theorem State.modJob_flacon (s : State) (d : Nat) (f : Job → Job) : (s.modJob d f).flacon = s.flacon := rfl
@[simp] theorem State.modJob_savedBanks (s : State) (d : Nat) (f : Job → Job) : (s.modJob d f).savedBanks = s.savedBanks := rfl
@[simp] theorem State.modJob_discarded (s : State) (d : Nat) (f : Job → Job) : (s.modJob d f).discarded = s.discarded := rfl
@[simp] theorem State.modJob_outbox (s : State) (d : Nat) (f : Job → Job) : (s.modJob d f).outbox = s.outbox := rfl
@[simp] theorem State.modJob_acksOut (s : State) (d : Nat) (f : Job → Job) : (s.modJob d f).acksOut = s.acksOut := rfl
@[simp] theorem State.modJob_msix (s : State) (d : Nat) (f : Job → Job) : (s.modJob d f).msix = s.msix := rfl
@[simp] theorem State.modJob_spdmOut (s : State) (d : Nat) (f : Job → Job) : (s.modJob d f).spdmOut = s.spdmOut := rfl
@[simp] theorem State.modJob_hostReads (s : State) (d : Nat) (f : Job → Job) : (s.modJob d f).hostReads = s.hostReads := rfl
@[simp] theorem State.modJob_errResponses (s : State) (d : Nat) (f : Job → Job) : (s.modJob d f).errResponses = s.errResponses := rfl
@[simp] theorem State.modJob_flights (s : State) (d : Nat) (f : Job → Job) : (s.modJob d f).flights = s.flights := rfl
@[simp] theorem State.modJob_inputs (s : State) (d : Nat) (f : Job → Job) : (s.modJob d f).inputs = s.inputs := rfl

/-! ## Advancing the counter of free values -/

@[simp] theorem State.tick_cycle (s : State) : (s.tick).cycle = s.cycle := rfl
@[simp] theorem State.tick_refTime (s : State) : (s.tick).refTime = s.refTime := rfl
@[simp] theorem State.tick_clockMHz (s : State) : (s.tick).clockMHz = s.clockMHz := rfl
@[simp] theorem State.tick_focus (s : State) : (s.tick).focus = s.focus := rfl
@[simp] theorem State.tick_cores (s : State) : (s.tick).cores = s.cores := rfl
@[simp] theorem State.tick_blank (s : State) : (s.tick).blank = s.blank := rfl
@[simp] theorem State.tick_slices (s : State) : (s.tick).slices = s.slices := rfl
@[simp] theorem State.tick_blankSlice (s : State) : (s.tick).blankSlice = s.blankSlice := rfl
@[simp] theorem State.tick_dies (s : State) : (s.tick).dies = s.dies := rfl
@[simp] theorem State.tick_hbm (s : State) : (s.tick).hbm = s.hbm := rfl
@[simp] theorem State.tick_hostMem (s : State) : (s.tick).hostMem = s.hostMem := rfl
@[simp] theorem State.tick_stamps (s : State) : (s.tick).stamps = s.stamps := rfl
@[simp] theorem State.tick_blankStamp (s : State) : (s.tick).blankStamp = s.blankStamp := rfl
@[simp] theorem State.tick_releasers (s : State) : (s.tick).releasers = s.releasers := rfl
@[simp] theorem State.tick_quarter (s : State) : (s.tick).quarter = s.quarter := rfl
@[simp] theorem State.tick_ident (s : State) : (s.tick).ident = s.ident := rfl
@[simp] theorem State.tick_moduleNo (s : State) : (s.tick).moduleNo = s.moduleNo := rfl
@[simp] theorem State.tick_gen (s : State) : (s.tick).gen = s.gen := rfl
@[simp] theorem State.tick_mark (s : State) : (s.tick).mark = s.mark := rfl
@[simp] theorem State.tick_foreign (s : State) : (s.tick).foreign = s.foreign := rfl
@[simp] theorem State.tick_peers (s : State) : (s.tick).peers = s.peers := rfl
@[simp] theorem State.tick_homeMap (s : State) : (s.tick).homeMap = s.homeMap := rfl
@[simp] theorem State.tick_table (s : State) : (s.tick).table = s.table := rfl
@[simp] theorem State.tick_dying (s : State) : (s.tick).dying = s.dying := rfl
@[simp] theorem State.tick_patches (s : State) : (s.tick).patches = s.patches := rfl
@[simp] theorem State.tick_chains (s : State) : (s.tick).chains = s.chains := rfl
@[simp] theorem State.tick_seals (s : State) : (s.tick).seals = s.seals := rfl
@[simp] theorem State.tick_sealPts (s : State) : (s.tick).sealPts = s.sealPts := rfl
@[simp] theorem State.tick_dirtyPages (s : State) : (s.tick).dirtyPages = s.dirtyPages := rfl
@[simp] theorem State.tick_undos (s : State) : (s.tick).undos = s.undos := rfl
@[simp] theorem State.tick_gone (s : State) : (s.tick).gone = s.gone := rfl
@[simp] theorem State.tick_journal (s : State) : (s.tick).journal = s.journal := rfl
@[simp] theorem State.tick_journalMark (s : State) : (s.tick).journalMark = s.journalMark := rfl
@[simp] theorem State.tick_journalNo (s : State) : (s.tick).journalNo = s.journalNo := rfl
@[simp] theorem State.tick_journalWaits (s : State) : (s.tick).journalWaits = s.journalWaits := rfl
@[simp] theorem State.tick_jobs (s : State) : (s.tick).jobs = s.jobs := rfl
@[simp] theorem State.tick_progs (s : State) : (s.tick).progs = s.progs := rfl
@[simp] theorem State.tick_lqueues (s : State) : (s.tick).lqueues = s.lqueues := rfl
@[simp] theorem State.tick_lqSlots (s : State) : (s.tick).lqSlots = s.lqSlots := rfl
@[simp] theorem State.tick_privq (s : State) : (s.tick).privq = s.privq := rfl
@[simp] theorem State.tick_threshold (s : State) : (s.tick).threshold = s.threshold := rfl
@[simp] theorem State.tick_graceUs (s : State) : (s.tick).graceUs = s.graceUs := rfl
@[simp] theorem State.tick_pageTimeoutUs (s : State) : (s.tick).pageTimeoutUs = s.pageTimeoutUs := rfl
@[simp] theorem State.tick_saveReserveMiB (s : State) : (s.tick).saveReserveMiB = s.saveReserveMiB := rfl
@[simp] theorem State.tick_quenchDeadlineUs (s : State) : (s.tick).quenchDeadlineUs = s.quenchDeadlineUs := rfl
@[simp] theorem State.tick_pasids (s : State) : (s.tick).pasids = s.pasids := rfl
@[simp] theorem State.tick_buddies (s : State) : (s.tick).buddies = s.buddies := rfl
@[simp] theorem State.tick_corrected (s : State) : (s.tick).corrected = s.corrected := rfl
@[simp] theorem State.tick_ecc (s : State) : (s.tick).ecc = s.ecc := rfl
@[simp] theorem State.tick_log (s : State) : (s.tick).log = s.log := rfl
@[simp] theorem State.tick_logLost (s : State) : (s.tick).logLost = s.logLost := rfl
@[simp] theorem State.tick_ready (s : State) : (s.tick).ready = s.ready := rfl
@[simp] theorem State.tick_sec (s : State) : (s.tick).sec = s.sec := rfl
@[simp] theorem State.tick_bias (s : State) : (s.tick).bias = s.bias := rfl
@[simp] theorem State.tick_flip (s : State) : (s.tick).flip = s.flip := rfl
@[simp] theorem State.tick_flipNo (s : State) : (s.tick).flipNo = s.flipNo := rfl
@[simp] theorem State.tick_hostHeld (s : State) : (s.tick).hostHeld = s.hostHeld := rfl
@[simp] theorem State.tick_rtSegs (s : State) : (s.tick).rtSegs = s.rtSegs := rfl
@[simp] theorem State.tick_spans (s : State) : (s.tick).spans = s.spans := rfl
@[simp] theorem State.tick_pageReqs (s : State) : (s.tick).pageReqs = s.pageReqs := rfl
@[simp] theorem State.tick_htlbInv (s : State) : (s.tick).htlbInv = s.htlbInv := rfl
@[simp] theorem State.tick_resume (s : State) : (s.tick).resume = s.resume := rfl
@[simp] theorem State.tick_quenches (s : State) : (s.tick).quenches = s.quenches := rfl
@[simp] theorem State.tick_saveAreas (s : State) : (s.tick).saveAreas = s.saveAreas := rfl
@[simp] theorem State.tick_ckpts (s : State) : (s.tick).ckpts = s.ckpts := rfl
@[simp] theorem State.tick_remoteCkpts (s : State) : (s.tick).remoteCkpts = s.remoteCkpts := rfl
@[simp] theorem State.tick_flacon (s : State) : (s.tick).flacon = s.flacon := rfl
@[simp] theorem State.tick_savedBanks (s : State) : (s.tick).savedBanks = s.savedBanks := rfl
@[simp] theorem State.tick_discarded (s : State) : (s.tick).discarded = s.discarded := rfl
@[simp] theorem State.tick_outbox (s : State) : (s.tick).outbox = s.outbox := rfl
@[simp] theorem State.tick_acksOut (s : State) : (s.tick).acksOut = s.acksOut := rfl
@[simp] theorem State.tick_msix (s : State) : (s.tick).msix = s.msix := rfl
@[simp] theorem State.tick_spdmOut (s : State) : (s.tick).spdmOut = s.spdmOut := rfl
@[simp] theorem State.tick_hostReads (s : State) : (s.tick).hostReads = s.hostReads := rfl
@[simp] theorem State.tick_errResponses (s : State) : (s.tick).errResponses = s.errResponses := rfl
@[simp] theorem State.tick_flights (s : State) : (s.tick).flights = s.flights := rfl
@[simp] theorem State.tick_inputs (s : State) : (s.tick).inputs = s.inputs := rfl

/-! ## Sending a step -/

@[simp] theorem State.post_cycle (s : State) (n : Nat) (c : Option (Nat × Nat × Nat)) (i : Nat) (b : Bool) (e : Option Eng) (v : Instr) : (s.post n c i b e v).cycle = s.cycle := rfl
@[simp] theorem State.post_refTime (s : State) (n : Nat) (c : Option (Nat × Nat × Nat)) (i : Nat) (b : Bool) (e : Option Eng) (v : Instr) : (s.post n c i b e v).refTime = s.refTime := rfl
@[simp] theorem State.post_clockMHz (s : State) (n : Nat) (c : Option (Nat × Nat × Nat)) (i : Nat) (b : Bool) (e : Option Eng) (v : Instr) : (s.post n c i b e v).clockMHz = s.clockMHz := rfl
@[simp] theorem State.post_focus (s : State) (n : Nat) (c : Option (Nat × Nat × Nat)) (i : Nat) (b : Bool) (e : Option Eng) (v : Instr) : (s.post n c i b e v).focus = s.focus := rfl
@[simp] theorem State.post_cores (s : State) (n : Nat) (c : Option (Nat × Nat × Nat)) (i : Nat) (b : Bool) (e : Option Eng) (v : Instr) : (s.post n c i b e v).cores = s.cores := rfl
@[simp] theorem State.post_blank (s : State) (n : Nat) (c : Option (Nat × Nat × Nat)) (i : Nat) (b : Bool) (e : Option Eng) (v : Instr) : (s.post n c i b e v).blank = s.blank := rfl
@[simp] theorem State.post_slices (s : State) (n : Nat) (c : Option (Nat × Nat × Nat)) (i : Nat) (b : Bool) (e : Option Eng) (v : Instr) : (s.post n c i b e v).slices = s.slices := rfl
@[simp] theorem State.post_blankSlice (s : State) (n : Nat) (c : Option (Nat × Nat × Nat)) (i : Nat) (b : Bool) (e : Option Eng) (v : Instr) : (s.post n c i b e v).blankSlice = s.blankSlice := rfl
@[simp] theorem State.post_dies (s : State) (n : Nat) (c : Option (Nat × Nat × Nat)) (i : Nat) (b : Bool) (e : Option Eng) (v : Instr) : (s.post n c i b e v).dies = s.dies := rfl
@[simp] theorem State.post_hbm (s : State) (n : Nat) (c : Option (Nat × Nat × Nat)) (i : Nat) (b : Bool) (e : Option Eng) (v : Instr) : (s.post n c i b e v).hbm = s.hbm := rfl
@[simp] theorem State.post_hostMem (s : State) (n : Nat) (c : Option (Nat × Nat × Nat)) (i : Nat) (b : Bool) (e : Option Eng) (v : Instr) : (s.post n c i b e v).hostMem = s.hostMem := rfl
@[simp] theorem State.post_stamps (s : State) (n : Nat) (c : Option (Nat × Nat × Nat)) (i : Nat) (b : Bool) (e : Option Eng) (v : Instr) : (s.post n c i b e v).stamps = s.stamps := rfl
@[simp] theorem State.post_blankStamp (s : State) (n : Nat) (c : Option (Nat × Nat × Nat)) (i : Nat) (b : Bool) (e : Option Eng) (v : Instr) : (s.post n c i b e v).blankStamp = s.blankStamp := rfl
@[simp] theorem State.post_releasers (s : State) (n : Nat) (c : Option (Nat × Nat × Nat)) (i : Nat) (b : Bool) (e : Option Eng) (v : Instr) : (s.post n c i b e v).releasers = s.releasers := rfl
@[simp] theorem State.post_quarter (s : State) (n : Nat) (c : Option (Nat × Nat × Nat)) (i : Nat) (b : Bool) (e : Option Eng) (v : Instr) : (s.post n c i b e v).quarter = s.quarter := rfl
@[simp] theorem State.post_ident (s : State) (n : Nat) (c : Option (Nat × Nat × Nat)) (i : Nat) (b : Bool) (e : Option Eng) (v : Instr) : (s.post n c i b e v).ident = s.ident := rfl
@[simp] theorem State.post_moduleNo (s : State) (n : Nat) (c : Option (Nat × Nat × Nat)) (i : Nat) (b : Bool) (e : Option Eng) (v : Instr) : (s.post n c i b e v).moduleNo = s.moduleNo := rfl
@[simp] theorem State.post_gen (s : State) (n : Nat) (c : Option (Nat × Nat × Nat)) (i : Nat) (b : Bool) (e : Option Eng) (v : Instr) : (s.post n c i b e v).gen = s.gen := rfl
@[simp] theorem State.post_mark (s : State) (n : Nat) (c : Option (Nat × Nat × Nat)) (i : Nat) (b : Bool) (e : Option Eng) (v : Instr) : (s.post n c i b e v).mark = s.mark := rfl
@[simp] theorem State.post_foreign (s : State) (n : Nat) (c : Option (Nat × Nat × Nat)) (i : Nat) (b : Bool) (e : Option Eng) (v : Instr) : (s.post n c i b e v).foreign = s.foreign := rfl
@[simp] theorem State.post_peers (s : State) (n : Nat) (c : Option (Nat × Nat × Nat)) (i : Nat) (b : Bool) (e : Option Eng) (v : Instr) : (s.post n c i b e v).peers = s.peers := rfl
@[simp] theorem State.post_homeMap (s : State) (n : Nat) (c : Option (Nat × Nat × Nat)) (i : Nat) (b : Bool) (e : Option Eng) (v : Instr) : (s.post n c i b e v).homeMap = s.homeMap := rfl
@[simp] theorem State.post_table (s : State) (n : Nat) (c : Option (Nat × Nat × Nat)) (i : Nat) (b : Bool) (e : Option Eng) (v : Instr) : (s.post n c i b e v).table = s.table := rfl
@[simp] theorem State.post_dying (s : State) (n : Nat) (c : Option (Nat × Nat × Nat)) (i : Nat) (b : Bool) (e : Option Eng) (v : Instr) : (s.post n c i b e v).dying = s.dying := rfl
@[simp] theorem State.post_patches (s : State) (n : Nat) (c : Option (Nat × Nat × Nat)) (i : Nat) (b : Bool) (e : Option Eng) (v : Instr) : (s.post n c i b e v).patches = s.patches := rfl
@[simp] theorem State.post_chains (s : State) (n : Nat) (c : Option (Nat × Nat × Nat)) (i : Nat) (b : Bool) (e : Option Eng) (v : Instr) : (s.post n c i b e v).chains = s.chains := rfl
@[simp] theorem State.post_seals (s : State) (n : Nat) (c : Option (Nat × Nat × Nat)) (i : Nat) (b : Bool) (e : Option Eng) (v : Instr) : (s.post n c i b e v).seals = s.seals := rfl
@[simp] theorem State.post_sealPts (s : State) (n : Nat) (c : Option (Nat × Nat × Nat)) (i : Nat) (b : Bool) (e : Option Eng) (v : Instr) : (s.post n c i b e v).sealPts = s.sealPts := rfl
@[simp] theorem State.post_dirtyPages (s : State) (n : Nat) (c : Option (Nat × Nat × Nat)) (i : Nat) (b : Bool) (e : Option Eng) (v : Instr) : (s.post n c i b e v).dirtyPages = s.dirtyPages := rfl
@[simp] theorem State.post_undos (s : State) (n : Nat) (c : Option (Nat × Nat × Nat)) (i : Nat) (b : Bool) (e : Option Eng) (v : Instr) : (s.post n c i b e v).undos = s.undos := rfl
@[simp] theorem State.post_gone (s : State) (n : Nat) (c : Option (Nat × Nat × Nat)) (i : Nat) (b : Bool) (e : Option Eng) (v : Instr) : (s.post n c i b e v).gone = s.gone := rfl
@[simp] theorem State.post_journal (s : State) (n : Nat) (c : Option (Nat × Nat × Nat)) (i : Nat) (b : Bool) (e : Option Eng) (v : Instr) : (s.post n c i b e v).journal = s.journal := rfl
@[simp] theorem State.post_journalMark (s : State) (n : Nat) (c : Option (Nat × Nat × Nat)) (i : Nat) (b : Bool) (e : Option Eng) (v : Instr) : (s.post n c i b e v).journalMark = s.journalMark := rfl
@[simp] theorem State.post_journalNo (s : State) (n : Nat) (c : Option (Nat × Nat × Nat)) (i : Nat) (b : Bool) (e : Option Eng) (v : Instr) : (s.post n c i b e v).journalNo = s.journalNo := rfl
@[simp] theorem State.post_journalWaits (s : State) (n : Nat) (c : Option (Nat × Nat × Nat)) (i : Nat) (b : Bool) (e : Option Eng) (v : Instr) : (s.post n c i b e v).journalWaits = s.journalWaits := rfl
@[simp] theorem State.post_jobs (s : State) (n : Nat) (c : Option (Nat × Nat × Nat)) (i : Nat) (b : Bool) (e : Option Eng) (v : Instr) : (s.post n c i b e v).jobs = s.jobs := rfl
@[simp] theorem State.post_progs (s : State) (n : Nat) (c : Option (Nat × Nat × Nat)) (i : Nat) (b : Bool) (e : Option Eng) (v : Instr) : (s.post n c i b e v).progs = s.progs := rfl
@[simp] theorem State.post_lqueues (s : State) (n : Nat) (c : Option (Nat × Nat × Nat)) (i : Nat) (b : Bool) (e : Option Eng) (v : Instr) : (s.post n c i b e v).lqueues = s.lqueues := rfl
@[simp] theorem State.post_lqSlots (s : State) (n : Nat) (c : Option (Nat × Nat × Nat)) (i : Nat) (b : Bool) (e : Option Eng) (v : Instr) : (s.post n c i b e v).lqSlots = s.lqSlots := rfl
@[simp] theorem State.post_privq (s : State) (n : Nat) (c : Option (Nat × Nat × Nat)) (i : Nat) (b : Bool) (e : Option Eng) (v : Instr) : (s.post n c i b e v).privq = s.privq := rfl
@[simp] theorem State.post_threshold (s : State) (n : Nat) (c : Option (Nat × Nat × Nat)) (i : Nat) (b : Bool) (e : Option Eng) (v : Instr) : (s.post n c i b e v).threshold = s.threshold := rfl
@[simp] theorem State.post_graceUs (s : State) (n : Nat) (c : Option (Nat × Nat × Nat)) (i : Nat) (b : Bool) (e : Option Eng) (v : Instr) : (s.post n c i b e v).graceUs = s.graceUs := rfl
@[simp] theorem State.post_pageTimeoutUs (s : State) (n : Nat) (c : Option (Nat × Nat × Nat)) (i : Nat) (b : Bool) (e : Option Eng) (v : Instr) : (s.post n c i b e v).pageTimeoutUs = s.pageTimeoutUs := rfl
@[simp] theorem State.post_saveReserveMiB (s : State) (n : Nat) (c : Option (Nat × Nat × Nat)) (i : Nat) (b : Bool) (e : Option Eng) (v : Instr) : (s.post n c i b e v).saveReserveMiB = s.saveReserveMiB := rfl
@[simp] theorem State.post_quenchDeadlineUs (s : State) (n : Nat) (c : Option (Nat × Nat × Nat)) (i : Nat) (b : Bool) (e : Option Eng) (v : Instr) : (s.post n c i b e v).quenchDeadlineUs = s.quenchDeadlineUs := rfl
@[simp] theorem State.post_pasids (s : State) (n : Nat) (c : Option (Nat × Nat × Nat)) (i : Nat) (b : Bool) (e : Option Eng) (v : Instr) : (s.post n c i b e v).pasids = s.pasids := rfl
@[simp] theorem State.post_buddies (s : State) (n : Nat) (c : Option (Nat × Nat × Nat)) (i : Nat) (b : Bool) (e : Option Eng) (v : Instr) : (s.post n c i b e v).buddies = s.buddies := rfl
@[simp] theorem State.post_corrected (s : State) (n : Nat) (c : Option (Nat × Nat × Nat)) (i : Nat) (b : Bool) (e : Option Eng) (v : Instr) : (s.post n c i b e v).corrected = s.corrected := rfl
@[simp] theorem State.post_ecc (s : State) (n : Nat) (c : Option (Nat × Nat × Nat)) (i : Nat) (b : Bool) (e : Option Eng) (v : Instr) : (s.post n c i b e v).ecc = s.ecc := rfl
@[simp] theorem State.post_log (s : State) (n : Nat) (c : Option (Nat × Nat × Nat)) (i : Nat) (b : Bool) (e : Option Eng) (v : Instr) : (s.post n c i b e v).log = s.log := rfl
@[simp] theorem State.post_logLost (s : State) (n : Nat) (c : Option (Nat × Nat × Nat)) (i : Nat) (b : Bool) (e : Option Eng) (v : Instr) : (s.post n c i b e v).logLost = s.logLost := rfl
@[simp] theorem State.post_ready (s : State) (n : Nat) (c : Option (Nat × Nat × Nat)) (i : Nat) (b : Bool) (e : Option Eng) (v : Instr) : (s.post n c i b e v).ready = s.ready := rfl
@[simp] theorem State.post_sec (s : State) (n : Nat) (c : Option (Nat × Nat × Nat)) (i : Nat) (b : Bool) (e : Option Eng) (v : Instr) : (s.post n c i b e v).sec = s.sec := rfl
@[simp] theorem State.post_bias (s : State) (n : Nat) (c : Option (Nat × Nat × Nat)) (i : Nat) (b : Bool) (e : Option Eng) (v : Instr) : (s.post n c i b e v).bias = s.bias := rfl
@[simp] theorem State.post_flip (s : State) (n : Nat) (c : Option (Nat × Nat × Nat)) (i : Nat) (b : Bool) (e : Option Eng) (v : Instr) : (s.post n c i b e v).flip = s.flip := rfl
@[simp] theorem State.post_flipNo (s : State) (n : Nat) (c : Option (Nat × Nat × Nat)) (i : Nat) (b : Bool) (e : Option Eng) (v : Instr) : (s.post n c i b e v).flipNo = s.flipNo := rfl
@[simp] theorem State.post_hostHeld (s : State) (n : Nat) (c : Option (Nat × Nat × Nat)) (i : Nat) (b : Bool) (e : Option Eng) (v : Instr) : (s.post n c i b e v).hostHeld = s.hostHeld := rfl
@[simp] theorem State.post_rtSegs (s : State) (n : Nat) (c : Option (Nat × Nat × Nat)) (i : Nat) (b : Bool) (e : Option Eng) (v : Instr) : (s.post n c i b e v).rtSegs = s.rtSegs := rfl
@[simp] theorem State.post_spans (s : State) (n : Nat) (c : Option (Nat × Nat × Nat)) (i : Nat) (b : Bool) (e : Option Eng) (v : Instr) : (s.post n c i b e v).spans = s.spans := rfl
@[simp] theorem State.post_pageReqs (s : State) (n : Nat) (c : Option (Nat × Nat × Nat)) (i : Nat) (b : Bool) (e : Option Eng) (v : Instr) : (s.post n c i b e v).pageReqs = s.pageReqs := rfl
@[simp] theorem State.post_htlbInv (s : State) (n : Nat) (c : Option (Nat × Nat × Nat)) (i : Nat) (b : Bool) (e : Option Eng) (v : Instr) : (s.post n c i b e v).htlbInv = s.htlbInv := rfl
@[simp] theorem State.post_resume (s : State) (n : Nat) (c : Option (Nat × Nat × Nat)) (i : Nat) (b : Bool) (e : Option Eng) (v : Instr) : (s.post n c i b e v).resume = s.resume := rfl
@[simp] theorem State.post_quenches (s : State) (n : Nat) (c : Option (Nat × Nat × Nat)) (i : Nat) (b : Bool) (e : Option Eng) (v : Instr) : (s.post n c i b e v).quenches = s.quenches := rfl
@[simp] theorem State.post_saveAreas (s : State) (n : Nat) (c : Option (Nat × Nat × Nat)) (i : Nat) (b : Bool) (e : Option Eng) (v : Instr) : (s.post n c i b e v).saveAreas = s.saveAreas := rfl
@[simp] theorem State.post_ckpts (s : State) (n : Nat) (c : Option (Nat × Nat × Nat)) (i : Nat) (b : Bool) (e : Option Eng) (v : Instr) : (s.post n c i b e v).ckpts = s.ckpts := rfl
@[simp] theorem State.post_remoteCkpts (s : State) (n : Nat) (c : Option (Nat × Nat × Nat)) (i : Nat) (b : Bool) (e : Option Eng) (v : Instr) : (s.post n c i b e v).remoteCkpts = s.remoteCkpts := rfl
@[simp] theorem State.post_flacon (s : State) (n : Nat) (c : Option (Nat × Nat × Nat)) (i : Nat) (b : Bool) (e : Option Eng) (v : Instr) : (s.post n c i b e v).flacon = s.flacon := rfl
@[simp] theorem State.post_savedBanks (s : State) (n : Nat) (c : Option (Nat × Nat × Nat)) (i : Nat) (b : Bool) (e : Option Eng) (v : Instr) : (s.post n c i b e v).savedBanks = s.savedBanks := rfl
@[simp] theorem State.post_discarded (s : State) (n : Nat) (c : Option (Nat × Nat × Nat)) (i : Nat) (b : Bool) (e : Option Eng) (v : Instr) : (s.post n c i b e v).discarded = s.discarded := rfl
@[simp] theorem State.post_outbox (s : State) (n : Nat) (c : Option (Nat × Nat × Nat)) (i : Nat) (b : Bool) (e : Option Eng) (v : Instr) : (s.post n c i b e v).outbox = s.outbox := rfl
@[simp] theorem State.post_acksOut (s : State) (n : Nat) (c : Option (Nat × Nat × Nat)) (i : Nat) (b : Bool) (e : Option Eng) (v : Instr) : (s.post n c i b e v).acksOut = s.acksOut := rfl
@[simp] theorem State.post_msix (s : State) (n : Nat) (c : Option (Nat × Nat × Nat)) (i : Nat) (b : Bool) (e : Option Eng) (v : Instr) : (s.post n c i b e v).msix = s.msix := rfl
@[simp] theorem State.post_spdmOut (s : State) (n : Nat) (c : Option (Nat × Nat × Nat)) (i : Nat) (b : Bool) (e : Option Eng) (v : Instr) : (s.post n c i b e v).spdmOut = s.spdmOut := rfl
@[simp] theorem State.post_hostReads (s : State) (n : Nat) (c : Option (Nat × Nat × Nat)) (i : Nat) (b : Bool) (e : Option Eng) (v : Instr) : (s.post n c i b e v).hostReads = s.hostReads := rfl
@[simp] theorem State.post_errResponses (s : State) (n : Nat) (c : Option (Nat × Nat × Nat)) (i : Nat) (b : Bool) (e : Option Eng) (v : Instr) : (s.post n c i b e v).errResponses = s.errResponses := rfl
@[simp] theorem State.post_inputs (s : State) (n : Nat) (c : Option (Nat × Nat × Nat)) (i : Nat) (b : Bool) (e : Option Eng) (v : Instr) : (s.post n c i b e v).inputs = s.inputs := rfl

/-! ## Scheduling a step -/

@[simp] theorem State.postAt_cycle (s : State) (n i : Nat) (b : Bool) (e : Option Eng) (v : Instr) : (s.postAt n i b e v).cycle = s.cycle := rfl
@[simp] theorem State.postAt_refTime (s : State) (n i : Nat) (b : Bool) (e : Option Eng) (v : Instr) : (s.postAt n i b e v).refTime = s.refTime := rfl
@[simp] theorem State.postAt_clockMHz (s : State) (n i : Nat) (b : Bool) (e : Option Eng) (v : Instr) : (s.postAt n i b e v).clockMHz = s.clockMHz := rfl
@[simp] theorem State.postAt_free (s : State) (n i : Nat) (b : Bool) (e : Option Eng) (v : Instr) : (s.postAt n i b e v).free = s.free := rfl
@[simp] theorem State.postAt_focus (s : State) (n i : Nat) (b : Bool) (e : Option Eng) (v : Instr) : (s.postAt n i b e v).focus = s.focus := rfl
@[simp] theorem State.postAt_cores (s : State) (n i : Nat) (b : Bool) (e : Option Eng) (v : Instr) : (s.postAt n i b e v).cores = s.cores := rfl
@[simp] theorem State.postAt_blank (s : State) (n i : Nat) (b : Bool) (e : Option Eng) (v : Instr) : (s.postAt n i b e v).blank = s.blank := rfl
@[simp] theorem State.postAt_slices (s : State) (n i : Nat) (b : Bool) (e : Option Eng) (v : Instr) : (s.postAt n i b e v).slices = s.slices := rfl
@[simp] theorem State.postAt_blankSlice (s : State) (n i : Nat) (b : Bool) (e : Option Eng) (v : Instr) : (s.postAt n i b e v).blankSlice = s.blankSlice := rfl
@[simp] theorem State.postAt_dies (s : State) (n i : Nat) (b : Bool) (e : Option Eng) (v : Instr) : (s.postAt n i b e v).dies = s.dies := rfl
@[simp] theorem State.postAt_hbm (s : State) (n i : Nat) (b : Bool) (e : Option Eng) (v : Instr) : (s.postAt n i b e v).hbm = s.hbm := rfl
@[simp] theorem State.postAt_hostMem (s : State) (n i : Nat) (b : Bool) (e : Option Eng) (v : Instr) : (s.postAt n i b e v).hostMem = s.hostMem := rfl
@[simp] theorem State.postAt_stamps (s : State) (n i : Nat) (b : Bool) (e : Option Eng) (v : Instr) : (s.postAt n i b e v).stamps = s.stamps := rfl
@[simp] theorem State.postAt_blankStamp (s : State) (n i : Nat) (b : Bool) (e : Option Eng) (v : Instr) : (s.postAt n i b e v).blankStamp = s.blankStamp := rfl
@[simp] theorem State.postAt_releasers (s : State) (n i : Nat) (b : Bool) (e : Option Eng) (v : Instr) : (s.postAt n i b e v).releasers = s.releasers := rfl
@[simp] theorem State.postAt_quarter (s : State) (n i : Nat) (b : Bool) (e : Option Eng) (v : Instr) : (s.postAt n i b e v).quarter = s.quarter := rfl
@[simp] theorem State.postAt_ident (s : State) (n i : Nat) (b : Bool) (e : Option Eng) (v : Instr) : (s.postAt n i b e v).ident = s.ident := rfl
@[simp] theorem State.postAt_moduleNo (s : State) (n i : Nat) (b : Bool) (e : Option Eng) (v : Instr) : (s.postAt n i b e v).moduleNo = s.moduleNo := rfl
@[simp] theorem State.postAt_gen (s : State) (n i : Nat) (b : Bool) (e : Option Eng) (v : Instr) : (s.postAt n i b e v).gen = s.gen := rfl
@[simp] theorem State.postAt_mark (s : State) (n i : Nat) (b : Bool) (e : Option Eng) (v : Instr) : (s.postAt n i b e v).mark = s.mark := rfl
@[simp] theorem State.postAt_foreign (s : State) (n i : Nat) (b : Bool) (e : Option Eng) (v : Instr) : (s.postAt n i b e v).foreign = s.foreign := rfl
@[simp] theorem State.postAt_peers (s : State) (n i : Nat) (b : Bool) (e : Option Eng) (v : Instr) : (s.postAt n i b e v).peers = s.peers := rfl
@[simp] theorem State.postAt_homeMap (s : State) (n i : Nat) (b : Bool) (e : Option Eng) (v : Instr) : (s.postAt n i b e v).homeMap = s.homeMap := rfl
@[simp] theorem State.postAt_table (s : State) (n i : Nat) (b : Bool) (e : Option Eng) (v : Instr) : (s.postAt n i b e v).table = s.table := rfl
@[simp] theorem State.postAt_dying (s : State) (n i : Nat) (b : Bool) (e : Option Eng) (v : Instr) : (s.postAt n i b e v).dying = s.dying := rfl
@[simp] theorem State.postAt_patches (s : State) (n i : Nat) (b : Bool) (e : Option Eng) (v : Instr) : (s.postAt n i b e v).patches = s.patches := rfl
@[simp] theorem State.postAt_chains (s : State) (n i : Nat) (b : Bool) (e : Option Eng) (v : Instr) : (s.postAt n i b e v).chains = s.chains := rfl
@[simp] theorem State.postAt_seals (s : State) (n i : Nat) (b : Bool) (e : Option Eng) (v : Instr) : (s.postAt n i b e v).seals = s.seals := rfl
@[simp] theorem State.postAt_sealPts (s : State) (n i : Nat) (b : Bool) (e : Option Eng) (v : Instr) : (s.postAt n i b e v).sealPts = s.sealPts := rfl
@[simp] theorem State.postAt_dirtyPages (s : State) (n i : Nat) (b : Bool) (e : Option Eng) (v : Instr) : (s.postAt n i b e v).dirtyPages = s.dirtyPages := rfl
@[simp] theorem State.postAt_undos (s : State) (n i : Nat) (b : Bool) (e : Option Eng) (v : Instr) : (s.postAt n i b e v).undos = s.undos := rfl
@[simp] theorem State.postAt_gone (s : State) (n i : Nat) (b : Bool) (e : Option Eng) (v : Instr) : (s.postAt n i b e v).gone = s.gone := rfl
@[simp] theorem State.postAt_journal (s : State) (n i : Nat) (b : Bool) (e : Option Eng) (v : Instr) : (s.postAt n i b e v).journal = s.journal := rfl
@[simp] theorem State.postAt_journalMark (s : State) (n i : Nat) (b : Bool) (e : Option Eng) (v : Instr) : (s.postAt n i b e v).journalMark = s.journalMark := rfl
@[simp] theorem State.postAt_journalNo (s : State) (n i : Nat) (b : Bool) (e : Option Eng) (v : Instr) : (s.postAt n i b e v).journalNo = s.journalNo := rfl
@[simp] theorem State.postAt_journalWaits (s : State) (n i : Nat) (b : Bool) (e : Option Eng) (v : Instr) : (s.postAt n i b e v).journalWaits = s.journalWaits := rfl
@[simp] theorem State.postAt_jobs (s : State) (n i : Nat) (b : Bool) (e : Option Eng) (v : Instr) : (s.postAt n i b e v).jobs = s.jobs := rfl
@[simp] theorem State.postAt_progs (s : State) (n i : Nat) (b : Bool) (e : Option Eng) (v : Instr) : (s.postAt n i b e v).progs = s.progs := rfl
@[simp] theorem State.postAt_lqueues (s : State) (n i : Nat) (b : Bool) (e : Option Eng) (v : Instr) : (s.postAt n i b e v).lqueues = s.lqueues := rfl
@[simp] theorem State.postAt_lqSlots (s : State) (n i : Nat) (b : Bool) (e : Option Eng) (v : Instr) : (s.postAt n i b e v).lqSlots = s.lqSlots := rfl
@[simp] theorem State.postAt_privq (s : State) (n i : Nat) (b : Bool) (e : Option Eng) (v : Instr) : (s.postAt n i b e v).privq = s.privq := rfl
@[simp] theorem State.postAt_threshold (s : State) (n i : Nat) (b : Bool) (e : Option Eng) (v : Instr) : (s.postAt n i b e v).threshold = s.threshold := rfl
@[simp] theorem State.postAt_graceUs (s : State) (n i : Nat) (b : Bool) (e : Option Eng) (v : Instr) : (s.postAt n i b e v).graceUs = s.graceUs := rfl
@[simp] theorem State.postAt_pageTimeoutUs (s : State) (n i : Nat) (b : Bool) (e : Option Eng) (v : Instr) : (s.postAt n i b e v).pageTimeoutUs = s.pageTimeoutUs := rfl
@[simp] theorem State.postAt_saveReserveMiB (s : State) (n i : Nat) (b : Bool) (e : Option Eng) (v : Instr) : (s.postAt n i b e v).saveReserveMiB = s.saveReserveMiB := rfl
@[simp] theorem State.postAt_quenchDeadlineUs (s : State) (n i : Nat) (b : Bool) (e : Option Eng) (v : Instr) : (s.postAt n i b e v).quenchDeadlineUs = s.quenchDeadlineUs := rfl
@[simp] theorem State.postAt_pasids (s : State) (n i : Nat) (b : Bool) (e : Option Eng) (v : Instr) : (s.postAt n i b e v).pasids = s.pasids := rfl
@[simp] theorem State.postAt_buddies (s : State) (n i : Nat) (b : Bool) (e : Option Eng) (v : Instr) : (s.postAt n i b e v).buddies = s.buddies := rfl
@[simp] theorem State.postAt_corrected (s : State) (n i : Nat) (b : Bool) (e : Option Eng) (v : Instr) : (s.postAt n i b e v).corrected = s.corrected := rfl
@[simp] theorem State.postAt_ecc (s : State) (n i : Nat) (b : Bool) (e : Option Eng) (v : Instr) : (s.postAt n i b e v).ecc = s.ecc := rfl
@[simp] theorem State.postAt_log (s : State) (n i : Nat) (b : Bool) (e : Option Eng) (v : Instr) : (s.postAt n i b e v).log = s.log := rfl
@[simp] theorem State.postAt_logLost (s : State) (n i : Nat) (b : Bool) (e : Option Eng) (v : Instr) : (s.postAt n i b e v).logLost = s.logLost := rfl
@[simp] theorem State.postAt_ready (s : State) (n i : Nat) (b : Bool) (e : Option Eng) (v : Instr) : (s.postAt n i b e v).ready = s.ready := rfl
@[simp] theorem State.postAt_sec (s : State) (n i : Nat) (b : Bool) (e : Option Eng) (v : Instr) : (s.postAt n i b e v).sec = s.sec := rfl
@[simp] theorem State.postAt_bias (s : State) (n i : Nat) (b : Bool) (e : Option Eng) (v : Instr) : (s.postAt n i b e v).bias = s.bias := rfl
@[simp] theorem State.postAt_flip (s : State) (n i : Nat) (b : Bool) (e : Option Eng) (v : Instr) : (s.postAt n i b e v).flip = s.flip := rfl
@[simp] theorem State.postAt_flipNo (s : State) (n i : Nat) (b : Bool) (e : Option Eng) (v : Instr) : (s.postAt n i b e v).flipNo = s.flipNo := rfl
@[simp] theorem State.postAt_hostHeld (s : State) (n i : Nat) (b : Bool) (e : Option Eng) (v : Instr) : (s.postAt n i b e v).hostHeld = s.hostHeld := rfl
@[simp] theorem State.postAt_rtSegs (s : State) (n i : Nat) (b : Bool) (e : Option Eng) (v : Instr) : (s.postAt n i b e v).rtSegs = s.rtSegs := rfl
@[simp] theorem State.postAt_spans (s : State) (n i : Nat) (b : Bool) (e : Option Eng) (v : Instr) : (s.postAt n i b e v).spans = s.spans := rfl
@[simp] theorem State.postAt_pageReqs (s : State) (n i : Nat) (b : Bool) (e : Option Eng) (v : Instr) : (s.postAt n i b e v).pageReqs = s.pageReqs := rfl
@[simp] theorem State.postAt_htlbInv (s : State) (n i : Nat) (b : Bool) (e : Option Eng) (v : Instr) : (s.postAt n i b e v).htlbInv = s.htlbInv := rfl
@[simp] theorem State.postAt_resume (s : State) (n i : Nat) (b : Bool) (e : Option Eng) (v : Instr) : (s.postAt n i b e v).resume = s.resume := rfl
@[simp] theorem State.postAt_quenches (s : State) (n i : Nat) (b : Bool) (e : Option Eng) (v : Instr) : (s.postAt n i b e v).quenches = s.quenches := rfl
@[simp] theorem State.postAt_saveAreas (s : State) (n i : Nat) (b : Bool) (e : Option Eng) (v : Instr) : (s.postAt n i b e v).saveAreas = s.saveAreas := rfl
@[simp] theorem State.postAt_ckpts (s : State) (n i : Nat) (b : Bool) (e : Option Eng) (v : Instr) : (s.postAt n i b e v).ckpts = s.ckpts := rfl
@[simp] theorem State.postAt_remoteCkpts (s : State) (n i : Nat) (b : Bool) (e : Option Eng) (v : Instr) : (s.postAt n i b e v).remoteCkpts = s.remoteCkpts := rfl
@[simp] theorem State.postAt_flacon (s : State) (n i : Nat) (b : Bool) (e : Option Eng) (v : Instr) : (s.postAt n i b e v).flacon = s.flacon := rfl
@[simp] theorem State.postAt_savedBanks (s : State) (n i : Nat) (b : Bool) (e : Option Eng) (v : Instr) : (s.postAt n i b e v).savedBanks = s.savedBanks := rfl
@[simp] theorem State.postAt_discarded (s : State) (n i : Nat) (b : Bool) (e : Option Eng) (v : Instr) : (s.postAt n i b e v).discarded = s.discarded := rfl
@[simp] theorem State.postAt_outbox (s : State) (n i : Nat) (b : Bool) (e : Option Eng) (v : Instr) : (s.postAt n i b e v).outbox = s.outbox := rfl
@[simp] theorem State.postAt_acksOut (s : State) (n i : Nat) (b : Bool) (e : Option Eng) (v : Instr) : (s.postAt n i b e v).acksOut = s.acksOut := rfl
@[simp] theorem State.postAt_msix (s : State) (n i : Nat) (b : Bool) (e : Option Eng) (v : Instr) : (s.postAt n i b e v).msix = s.msix := rfl
@[simp] theorem State.postAt_spdmOut (s : State) (n i : Nat) (b : Bool) (e : Option Eng) (v : Instr) : (s.postAt n i b e v).spdmOut = s.spdmOut := rfl
@[simp] theorem State.postAt_hostReads (s : State) (n i : Nat) (b : Bool) (e : Option Eng) (v : Instr) : (s.postAt n i b e v).hostReads = s.hostReads := rfl
@[simp] theorem State.postAt_errResponses (s : State) (n i : Nat) (b : Bool) (e : Option Eng) (v : Instr) : (s.postAt n i b e v).errResponses = s.errResponses := rfl
@[simp] theorem State.postAt_inputs (s : State) (n i : Nat) (b : Bool) (e : Option Eng) (v : Instr) : (s.postAt n i b e v).inputs = s.inputs := rfl

/-! ## Sending a step to the acting bank -/

@[simp] theorem State.postHere_cycle (s : State) (n : Nat) (v : Instr) : (s.postHere n v).cycle = s.cycle := rfl
@[simp] theorem State.postHere_refTime (s : State) (n : Nat) (v : Instr) : (s.postHere n v).refTime = s.refTime := rfl
@[simp] theorem State.postHere_clockMHz (s : State) (n : Nat) (v : Instr) : (s.postHere n v).clockMHz = s.clockMHz := rfl
@[simp] theorem State.postHere_focus (s : State) (n : Nat) (v : Instr) : (s.postHere n v).focus = s.focus := rfl
@[simp] theorem State.postHere_cores (s : State) (n : Nat) (v : Instr) : (s.postHere n v).cores = s.cores := rfl
@[simp] theorem State.postHere_blank (s : State) (n : Nat) (v : Instr) : (s.postHere n v).blank = s.blank := rfl
@[simp] theorem State.postHere_slices (s : State) (n : Nat) (v : Instr) : (s.postHere n v).slices = s.slices := rfl
@[simp] theorem State.postHere_blankSlice (s : State) (n : Nat) (v : Instr) : (s.postHere n v).blankSlice = s.blankSlice := rfl
@[simp] theorem State.postHere_dies (s : State) (n : Nat) (v : Instr) : (s.postHere n v).dies = s.dies := rfl
@[simp] theorem State.postHere_hbm (s : State) (n : Nat) (v : Instr) : (s.postHere n v).hbm = s.hbm := rfl
@[simp] theorem State.postHere_hostMem (s : State) (n : Nat) (v : Instr) : (s.postHere n v).hostMem = s.hostMem := rfl
@[simp] theorem State.postHere_stamps (s : State) (n : Nat) (v : Instr) : (s.postHere n v).stamps = s.stamps := rfl
@[simp] theorem State.postHere_blankStamp (s : State) (n : Nat) (v : Instr) : (s.postHere n v).blankStamp = s.blankStamp := rfl
@[simp] theorem State.postHere_releasers (s : State) (n : Nat) (v : Instr) : (s.postHere n v).releasers = s.releasers := rfl
@[simp] theorem State.postHere_quarter (s : State) (n : Nat) (v : Instr) : (s.postHere n v).quarter = s.quarter := rfl
@[simp] theorem State.postHere_ident (s : State) (n : Nat) (v : Instr) : (s.postHere n v).ident = s.ident := rfl
@[simp] theorem State.postHere_moduleNo (s : State) (n : Nat) (v : Instr) : (s.postHere n v).moduleNo = s.moduleNo := rfl
@[simp] theorem State.postHere_gen (s : State) (n : Nat) (v : Instr) : (s.postHere n v).gen = s.gen := rfl
@[simp] theorem State.postHere_mark (s : State) (n : Nat) (v : Instr) : (s.postHere n v).mark = s.mark := rfl
@[simp] theorem State.postHere_foreign (s : State) (n : Nat) (v : Instr) : (s.postHere n v).foreign = s.foreign := rfl
@[simp] theorem State.postHere_peers (s : State) (n : Nat) (v : Instr) : (s.postHere n v).peers = s.peers := rfl
@[simp] theorem State.postHere_homeMap (s : State) (n : Nat) (v : Instr) : (s.postHere n v).homeMap = s.homeMap := rfl
@[simp] theorem State.postHere_table (s : State) (n : Nat) (v : Instr) : (s.postHere n v).table = s.table := rfl
@[simp] theorem State.postHere_dying (s : State) (n : Nat) (v : Instr) : (s.postHere n v).dying = s.dying := rfl
@[simp] theorem State.postHere_patches (s : State) (n : Nat) (v : Instr) : (s.postHere n v).patches = s.patches := rfl
@[simp] theorem State.postHere_chains (s : State) (n : Nat) (v : Instr) : (s.postHere n v).chains = s.chains := rfl
@[simp] theorem State.postHere_seals (s : State) (n : Nat) (v : Instr) : (s.postHere n v).seals = s.seals := rfl
@[simp] theorem State.postHere_sealPts (s : State) (n : Nat) (v : Instr) : (s.postHere n v).sealPts = s.sealPts := rfl
@[simp] theorem State.postHere_dirtyPages (s : State) (n : Nat) (v : Instr) : (s.postHere n v).dirtyPages = s.dirtyPages := rfl
@[simp] theorem State.postHere_undos (s : State) (n : Nat) (v : Instr) : (s.postHere n v).undos = s.undos := rfl
@[simp] theorem State.postHere_gone (s : State) (n : Nat) (v : Instr) : (s.postHere n v).gone = s.gone := rfl
@[simp] theorem State.postHere_journal (s : State) (n : Nat) (v : Instr) : (s.postHere n v).journal = s.journal := rfl
@[simp] theorem State.postHere_journalMark (s : State) (n : Nat) (v : Instr) : (s.postHere n v).journalMark = s.journalMark := rfl
@[simp] theorem State.postHere_journalNo (s : State) (n : Nat) (v : Instr) : (s.postHere n v).journalNo = s.journalNo := rfl
@[simp] theorem State.postHere_journalWaits (s : State) (n : Nat) (v : Instr) : (s.postHere n v).journalWaits = s.journalWaits := rfl
@[simp] theorem State.postHere_jobs (s : State) (n : Nat) (v : Instr) : (s.postHere n v).jobs = s.jobs := rfl
@[simp] theorem State.postHere_progs (s : State) (n : Nat) (v : Instr) : (s.postHere n v).progs = s.progs := rfl
@[simp] theorem State.postHere_lqueues (s : State) (n : Nat) (v : Instr) : (s.postHere n v).lqueues = s.lqueues := rfl
@[simp] theorem State.postHere_lqSlots (s : State) (n : Nat) (v : Instr) : (s.postHere n v).lqSlots = s.lqSlots := rfl
@[simp] theorem State.postHere_privq (s : State) (n : Nat) (v : Instr) : (s.postHere n v).privq = s.privq := rfl
@[simp] theorem State.postHere_threshold (s : State) (n : Nat) (v : Instr) : (s.postHere n v).threshold = s.threshold := rfl
@[simp] theorem State.postHere_graceUs (s : State) (n : Nat) (v : Instr) : (s.postHere n v).graceUs = s.graceUs := rfl
@[simp] theorem State.postHere_pageTimeoutUs (s : State) (n : Nat) (v : Instr) : (s.postHere n v).pageTimeoutUs = s.pageTimeoutUs := rfl
@[simp] theorem State.postHere_saveReserveMiB (s : State) (n : Nat) (v : Instr) : (s.postHere n v).saveReserveMiB = s.saveReserveMiB := rfl
@[simp] theorem State.postHere_quenchDeadlineUs (s : State) (n : Nat) (v : Instr) : (s.postHere n v).quenchDeadlineUs = s.quenchDeadlineUs := rfl
@[simp] theorem State.postHere_pasids (s : State) (n : Nat) (v : Instr) : (s.postHere n v).pasids = s.pasids := rfl
@[simp] theorem State.postHere_buddies (s : State) (n : Nat) (v : Instr) : (s.postHere n v).buddies = s.buddies := rfl
@[simp] theorem State.postHere_corrected (s : State) (n : Nat) (v : Instr) : (s.postHere n v).corrected = s.corrected := rfl
@[simp] theorem State.postHere_ecc (s : State) (n : Nat) (v : Instr) : (s.postHere n v).ecc = s.ecc := rfl
@[simp] theorem State.postHere_log (s : State) (n : Nat) (v : Instr) : (s.postHere n v).log = s.log := rfl
@[simp] theorem State.postHere_logLost (s : State) (n : Nat) (v : Instr) : (s.postHere n v).logLost = s.logLost := rfl
@[simp] theorem State.postHere_ready (s : State) (n : Nat) (v : Instr) : (s.postHere n v).ready = s.ready := rfl
@[simp] theorem State.postHere_sec (s : State) (n : Nat) (v : Instr) : (s.postHere n v).sec = s.sec := rfl
@[simp] theorem State.postHere_bias (s : State) (n : Nat) (v : Instr) : (s.postHere n v).bias = s.bias := rfl
@[simp] theorem State.postHere_flip (s : State) (n : Nat) (v : Instr) : (s.postHere n v).flip = s.flip := rfl
@[simp] theorem State.postHere_flipNo (s : State) (n : Nat) (v : Instr) : (s.postHere n v).flipNo = s.flipNo := rfl
@[simp] theorem State.postHere_hostHeld (s : State) (n : Nat) (v : Instr) : (s.postHere n v).hostHeld = s.hostHeld := rfl
@[simp] theorem State.postHere_rtSegs (s : State) (n : Nat) (v : Instr) : (s.postHere n v).rtSegs = s.rtSegs := rfl
@[simp] theorem State.postHere_spans (s : State) (n : Nat) (v : Instr) : (s.postHere n v).spans = s.spans := rfl
@[simp] theorem State.postHere_pageReqs (s : State) (n : Nat) (v : Instr) : (s.postHere n v).pageReqs = s.pageReqs := rfl
@[simp] theorem State.postHere_htlbInv (s : State) (n : Nat) (v : Instr) : (s.postHere n v).htlbInv = s.htlbInv := rfl
@[simp] theorem State.postHere_resume (s : State) (n : Nat) (v : Instr) : (s.postHere n v).resume = s.resume := rfl
@[simp] theorem State.postHere_quenches (s : State) (n : Nat) (v : Instr) : (s.postHere n v).quenches = s.quenches := rfl
@[simp] theorem State.postHere_saveAreas (s : State) (n : Nat) (v : Instr) : (s.postHere n v).saveAreas = s.saveAreas := rfl
@[simp] theorem State.postHere_ckpts (s : State) (n : Nat) (v : Instr) : (s.postHere n v).ckpts = s.ckpts := rfl
@[simp] theorem State.postHere_remoteCkpts (s : State) (n : Nat) (v : Instr) : (s.postHere n v).remoteCkpts = s.remoteCkpts := rfl
@[simp] theorem State.postHere_flacon (s : State) (n : Nat) (v : Instr) : (s.postHere n v).flacon = s.flacon := rfl
@[simp] theorem State.postHere_savedBanks (s : State) (n : Nat) (v : Instr) : (s.postHere n v).savedBanks = s.savedBanks := rfl
@[simp] theorem State.postHere_discarded (s : State) (n : Nat) (v : Instr) : (s.postHere n v).discarded = s.discarded := rfl
@[simp] theorem State.postHere_outbox (s : State) (n : Nat) (v : Instr) : (s.postHere n v).outbox = s.outbox := rfl
@[simp] theorem State.postHere_acksOut (s : State) (n : Nat) (v : Instr) : (s.postHere n v).acksOut = s.acksOut := rfl
@[simp] theorem State.postHere_msix (s : State) (n : Nat) (v : Instr) : (s.postHere n v).msix = s.msix := rfl
@[simp] theorem State.postHere_spdmOut (s : State) (n : Nat) (v : Instr) : (s.postHere n v).spdmOut = s.spdmOut := rfl
@[simp] theorem State.postHere_hostReads (s : State) (n : Nat) (v : Instr) : (s.postHere n v).hostReads = s.hostReads := rfl
@[simp] theorem State.postHere_errResponses (s : State) (n : Nat) (v : Instr) : (s.postHere n v).errResponses = s.errResponses := rfl
@[simp] theorem State.postHere_inputs (s : State) (n : Nat) (v : Instr) : (s.postHere n v).inputs = s.inputs := rfl

/-! ## What the updates change -/

@[simp] theorem State.core_setCore (s : State) (i : Nat) (c : Core) : (s.setCore i c).core i = c := by
  simp [State.core, State.setCore, Sparse.find_put_self]

theorem State.core_setCore_ne (s : State) (i j : Nat) (c : Core) (h : i ≠ j) : (s.setCore i c).core j = s.core j := by
  simp [State.core, State.setCore, Sparse.find_put_other _ _ _ _ h]

@[simp] theorem State.core_modCore (s : State) (i : Nat) (f : Core → Core) : (s.modCore i f).core i = f (s.core i) := by
  simp [State.modCore]

theorem State.core_modCore_ne (s : State) (i j : Nat) (f : Core → Core) (h : i ≠ j) : (s.modCore i f).core j = s.core j := by
  simp [State.modCore, State.core_setCore_ne _ _ _ _ h]

@[simp] theorem State.cur_modCur (s : State) (f : Core → Core) : (s.modCur f).cur = f s.cur := by
  simp [State.cur, State.modCur]

@[simp] theorem Core.bank_setBank (c : Core) (b : Bool) (x : Bank) : (c.setBank b x).bank b = x := by
  cases b <;> rfl

@[simp] theorem Core.bank_setBank_not (c : Core) (b : Bool) (x : Bank) : (c.setBank b x).bank (!b) = c.bank (!b) := by
  cases b <;> rfl

@[simp] theorem Core.bank_modBank (c : Core) (b : Bool) (f : Bank → Bank) : (c.modBank b f).bank b = f (c.bank b) := by
  simp [Core.modBank]

@[simp] theorem State.bank_setBank (s : State) (b : Bank) : (s.setBank b).bank = b := by
  simp [State.bank, State.setBank]

@[simp] theorem State.bank_modBank (s : State) (f : Bank → Bank) : (s.modBank f).bank = f s.bank := by
  simp [State.modBank]

@[simp] theorem State.cur_modBank (s : State) (f : Bank → Bank) : (s.modBank f).cur = s.cur.modBank s.focus.bank f := by
  simp [State.modBank, State.setBank, Core.modBank, State.bank]

@[simp] theorem State.bankAt_modBankAt (s : State) (i : Nat) (b : Bool) (f : Bank → Bank) :
    (s.modBankAt i b f).bankAt i b = f (s.bankAt i b) := by
  simp [State.bankAt, State.modBankAt]

theorem State.core_modBank_ne (s : State) (i : Nat) (f : Bank → Bank) (h : s.focus.core ≠ i) :
    (s.modBank f).core i = s.core i := by
  simp [State.modBank, State.setBank, State.modCur, State.core_modCore_ne _ _ _ _ h]

/-! ## The fields of a core whose bank is replaced -/

@[simp] theorem Core.setBank_active (c : Core) (b : Bool) (x : Bank) : (c.setBank b x).active = c.active := by cases b <;> rfl
@[simp] theorem Core.setBank_tried (c : Core) (b : Bool) (x : Bank) : (c.setBank b x).tried = c.tried := by cases b <;> rfl
@[simp] theorem Core.setBank_mem (c : Core) (b : Bool) (x : Bank) : (c.setBank b x).mem = c.mem := by cases b <;> rfl
@[simp] theorem Core.setBank_guards (c : Core) (b : Bool) (x : Bank) : (c.setBank b x).guards = c.guards := by cases b <;> rfl
@[simp] theorem Core.setBank_sems (c : Core) (b : Bool) (x : Bank) : (c.setBank b x).sems = c.sems := by cases b <;> rfl
@[simp] theorem Core.setBank_semPts (c : Core) (b : Bool) (x : Bank) : (c.setBank b x).semPts = c.semPts := by cases b <;> rfl
@[simp] theorem Core.setBank_ksplit (c : Core) (b : Bool) (x : Bank) : (c.setBank b x).ksplit = c.ksplit := by cases b <;> rfl
@[simp] theorem Core.setBank_fq (c : Core) (b : Bool) (x : Bank) : (c.setBank b x).fq = c.fq := by cases b <;> rfl
@[simp] theorem Core.setBank_acc (c : Core) (b : Bool) (x : Bank) : (c.setBank b x).acc = c.acc := by cases b <;> rfl
@[simp] theorem Core.setBank_marks (c : Core) (b : Bool) (x : Bank) : (c.setBank b x).marks = c.marks := by cases b <;> rfl
@[simp] theorem Core.setBank_ucode (c : Core) (b : Bool) (x : Bank) : (c.setBank b x).ucode = c.ucode := by cases b <;> rfl
@[simp] theorem Core.setBank_ucodeName (c : Core) (b : Bool) (x : Bank) : (c.setBank b x).ucodeName = c.ucodeName := by cases b <;> rfl
@[simp] theorem Core.setBank_anvil (c : Core) (b : Bool) (x : Bank) : (c.setBank b x).anvil = c.anvil := by cases b <;> rfl
@[simp] theorem Core.setBank_copy (c : Core) (b : Bool) (x : Bank) : (c.setBank b x).copy = c.copy := by cases b <;> rfl
@[simp] theorem Core.setBank_coll (c : Core) (b : Bool) (x : Bank) : (c.setBank b x).coll = c.coll := by cases b <;> rfl
@[simp] theorem Core.setBank_cmds (c : Core) (b : Bool) (x : Bank) : (c.setBank b x).cmds = c.cmds := by cases b <;> rfl
@[simp] theorem Core.setBank_cmdNo (c : Core) (b : Bool) (x : Bank) : (c.setBank b x).cmdNo = c.cmdNo := by cases b <;> rfl
@[simp] theorem Core.setBank_lastRow (c : Core) (b : Bool) (x : Bank) : (c.setBank b x).lastRow = c.lastRow := by cases b <;> rfl
@[simp] theorem Core.setBank_pts (c : Core) (b : Bool) (x : Bank) : (c.setBank b x).pts = c.pts := by cases b <;> rfl
@[simp] theorem Core.setBank_lease1 (c : Core) (b : Bool) (x : Bank) : (c.setBank b x).lease1 = c.lease1 := by cases b <;> rfl
@[simp] theorem Core.setBank_lease2 (c : Core) (b : Bool) (x : Bank) : (c.setBank b x).lease2 = c.lease2 := by cases b <;> rfl
@[simp] theorem Core.setBank_tick (c : Core) (b : Bool) (x : Bank) : (c.setBank b x).tick = c.tick := by cases b <;> rfl
@[simp] theorem Core.setBank_tickAt (c : Core) (b : Bool) (x : Bank) : (c.setBank b x).tickAt = c.tickAt := by cases b <;> rfl
@[simp] theorem Core.setBank_staleReads (c : Core) (b : Bool) (x : Bank) : (c.setBank b x).staleReads = c.staleReads := by cases b <;> rfl
@[simp] theorem Core.setBank_staleWindows (c : Core) (b : Bool) (x : Bank) : (c.setBank b x).staleWindows = c.staleWindows := by cases b <;> rfl
@[simp] theorem Core.setBank_msize (c : Core) (b : Bool) (x : Bank) : (c.setBank b x).msize = c.msize := by cases b <;> rfl
@[simp] theorem Core.setBank_l1 (c : Core) (b : Bool) (x : Bank) : (c.setBank b x).l1 = c.l1 := by cases b <;> rfl
@[simp] theorem Core.setBank_accs (c : Core) (b : Bool) (x : Bank) : (c.setBank b x).accs = c.accs := by cases b <;> rfl
@[simp] theorem Core.setBank_accSeq (c : Core) (b : Bool) (x : Bank) : (c.setBank b x).accSeq = c.accSeq := by cases b <;> rfl
@[simp] theorem Core.setBank_lwrites (c : Core) (b : Bool) (x : Bank) : (c.setBank b x).lwrites = c.lwrites := by cases b <;> rfl
@[simp] theorem Core.setBank_laccs (c : Core) (b : Bool) (x : Bank) : (c.setBank b x).laccs = c.laccs := by cases b <;> rfl
@[simp] theorem Core.setBank_asks (c : Core) (b : Bool) (x : Bank) : (c.setBank b x).asks = c.asks := by cases b <;> rfl
@[simp] theorem Core.setBank_grants (c : Core) (b : Bool) (x : Bank) : (c.setBank b x).grants = c.grants := by cases b <;> rfl
@[simp] theorem Core.setBank_waits (c : Core) (b : Bool) (x : Bank) : (c.setBank b x).waits = c.waits := by cases b <;> rfl
@[simp] theorem Core.setBank_amaxUpds (c : Core) (b : Bool) (x : Bank) : (c.setBank b x).amaxUpds = c.amaxUpds := by cases b <;> rfl
@[simp] theorem Core.setBank_sigs (c : Core) (b : Bool) (x : Bank) : (c.setBank b x).sigs = c.sigs := by cases b <;> rfl
@[simp] theorem Core.setBank_names (c : Core) (b : Bool) (x : Bank) : (c.setBank b x).names = c.names := by cases b <;> rfl
@[simp] theorem Core.setBank_treeCount (c : Core) (b : Bool) (x : Bank) : (c.setBank b x).treeCount = c.treeCount := by cases b <;> rfl
@[simp] theorem Core.setBank_treeAt (c : Core) (b : Bool) (x : Bank) : (c.setBank b x).treeAt = c.treeAt := by cases b <;> rfl
@[simp] theorem Core.setBank_xposes (c : Core) (b : Bool) (x : Bank) : (c.setBank b x).xposes = c.xposes := by cases b <;> rfl
@[simp] theorem Core.setBank_sends (c : Core) (b : Bool) (x : Bank) : (c.setBank b x).sends = c.sends := by cases b <;> rfl
@[simp] theorem Core.setBank_sendNo (c : Core) (b : Bool) (x : Bank) : (c.setBank b x).sendNo = c.sendNo := by cases b <;> rfl
@[simp] theorem Core.setBank_reduces (c : Core) (b : Bool) (x : Bank) : (c.setBank b x).reduces = c.reduces := by cases b <;> rfl
@[simp] theorem Core.setBank_resumes (c : Core) (b : Bool) (x : Bank) : (c.setBank b x).resumes = c.resumes := by cases b <;> rfl
@[simp] theorem Core.setBank_sendSeq (c : Core) (b : Bool) (x : Bank) : (c.setBank b x).sendSeq = c.sendSeq := by cases b <;> rfl

@[simp] theorem Core.modBank_active (c : Core) (b : Bool) (g : Bank → Bank) : (c.modBank b g).active = c.active := by cases b <;> rfl
@[simp] theorem Core.modBank_tried (c : Core) (b : Bool) (g : Bank → Bank) : (c.modBank b g).tried = c.tried := by cases b <;> rfl
@[simp] theorem Core.modBank_mem (c : Core) (b : Bool) (g : Bank → Bank) : (c.modBank b g).mem = c.mem := by cases b <;> rfl
@[simp] theorem Core.modBank_guards (c : Core) (b : Bool) (g : Bank → Bank) : (c.modBank b g).guards = c.guards := by cases b <;> rfl
@[simp] theorem Core.modBank_sems (c : Core) (b : Bool) (g : Bank → Bank) : (c.modBank b g).sems = c.sems := by cases b <;> rfl
@[simp] theorem Core.modBank_semPts (c : Core) (b : Bool) (g : Bank → Bank) : (c.modBank b g).semPts = c.semPts := by cases b <;> rfl
@[simp] theorem Core.modBank_ksplit (c : Core) (b : Bool) (g : Bank → Bank) : (c.modBank b g).ksplit = c.ksplit := by cases b <;> rfl
@[simp] theorem Core.modBank_fq (c : Core) (b : Bool) (g : Bank → Bank) : (c.modBank b g).fq = c.fq := by cases b <;> rfl
@[simp] theorem Core.modBank_acc (c : Core) (b : Bool) (g : Bank → Bank) : (c.modBank b g).acc = c.acc := by cases b <;> rfl
@[simp] theorem Core.modBank_marks (c : Core) (b : Bool) (g : Bank → Bank) : (c.modBank b g).marks = c.marks := by cases b <;> rfl
@[simp] theorem Core.modBank_ucode (c : Core) (b : Bool) (g : Bank → Bank) : (c.modBank b g).ucode = c.ucode := by cases b <;> rfl
@[simp] theorem Core.modBank_ucodeName (c : Core) (b : Bool) (g : Bank → Bank) : (c.modBank b g).ucodeName = c.ucodeName := by cases b <;> rfl
@[simp] theorem Core.modBank_anvil (c : Core) (b : Bool) (g : Bank → Bank) : (c.modBank b g).anvil = c.anvil := by cases b <;> rfl
@[simp] theorem Core.modBank_copy (c : Core) (b : Bool) (g : Bank → Bank) : (c.modBank b g).copy = c.copy := by cases b <;> rfl
@[simp] theorem Core.modBank_coll (c : Core) (b : Bool) (g : Bank → Bank) : (c.modBank b g).coll = c.coll := by cases b <;> rfl
@[simp] theorem Core.modBank_cmds (c : Core) (b : Bool) (g : Bank → Bank) : (c.modBank b g).cmds = c.cmds := by cases b <;> rfl
@[simp] theorem Core.modBank_cmdNo (c : Core) (b : Bool) (g : Bank → Bank) : (c.modBank b g).cmdNo = c.cmdNo := by cases b <;> rfl
@[simp] theorem Core.modBank_lastRow (c : Core) (b : Bool) (g : Bank → Bank) : (c.modBank b g).lastRow = c.lastRow := by cases b <;> rfl
@[simp] theorem Core.modBank_pts (c : Core) (b : Bool) (g : Bank → Bank) : (c.modBank b g).pts = c.pts := by cases b <;> rfl
@[simp] theorem Core.modBank_lease1 (c : Core) (b : Bool) (g : Bank → Bank) : (c.modBank b g).lease1 = c.lease1 := by cases b <;> rfl
@[simp] theorem Core.modBank_lease2 (c : Core) (b : Bool) (g : Bank → Bank) : (c.modBank b g).lease2 = c.lease2 := by cases b <;> rfl
@[simp] theorem Core.modBank_tick (c : Core) (b : Bool) (g : Bank → Bank) : (c.modBank b g).tick = c.tick := by cases b <;> rfl
@[simp] theorem Core.modBank_tickAt (c : Core) (b : Bool) (g : Bank → Bank) : (c.modBank b g).tickAt = c.tickAt := by cases b <;> rfl
@[simp] theorem Core.modBank_staleReads (c : Core) (b : Bool) (g : Bank → Bank) : (c.modBank b g).staleReads = c.staleReads := by cases b <;> rfl
@[simp] theorem Core.modBank_staleWindows (c : Core) (b : Bool) (g : Bank → Bank) : (c.modBank b g).staleWindows = c.staleWindows := by cases b <;> rfl
@[simp] theorem Core.modBank_msize (c : Core) (b : Bool) (g : Bank → Bank) : (c.modBank b g).msize = c.msize := by cases b <;> rfl
@[simp] theorem Core.modBank_l1 (c : Core) (b : Bool) (g : Bank → Bank) : (c.modBank b g).l1 = c.l1 := by cases b <;> rfl
@[simp] theorem Core.modBank_accs (c : Core) (b : Bool) (g : Bank → Bank) : (c.modBank b g).accs = c.accs := by cases b <;> rfl
@[simp] theorem Core.modBank_accSeq (c : Core) (b : Bool) (g : Bank → Bank) : (c.modBank b g).accSeq = c.accSeq := by cases b <;> rfl
@[simp] theorem Core.modBank_lwrites (c : Core) (b : Bool) (g : Bank → Bank) : (c.modBank b g).lwrites = c.lwrites := by cases b <;> rfl
@[simp] theorem Core.modBank_laccs (c : Core) (b : Bool) (g : Bank → Bank) : (c.modBank b g).laccs = c.laccs := by cases b <;> rfl
@[simp] theorem Core.modBank_asks (c : Core) (b : Bool) (g : Bank → Bank) : (c.modBank b g).asks = c.asks := by cases b <;> rfl
@[simp] theorem Core.modBank_grants (c : Core) (b : Bool) (g : Bank → Bank) : (c.modBank b g).grants = c.grants := by cases b <;> rfl
@[simp] theorem Core.modBank_waits (c : Core) (b : Bool) (g : Bank → Bank) : (c.modBank b g).waits = c.waits := by cases b <;> rfl
@[simp] theorem Core.modBank_amaxUpds (c : Core) (b : Bool) (g : Bank → Bank) : (c.modBank b g).amaxUpds = c.amaxUpds := by cases b <;> rfl
@[simp] theorem Core.modBank_sigs (c : Core) (b : Bool) (g : Bank → Bank) : (c.modBank b g).sigs = c.sigs := by cases b <;> rfl
@[simp] theorem Core.modBank_names (c : Core) (b : Bool) (g : Bank → Bank) : (c.modBank b g).names = c.names := by cases b <;> rfl
@[simp] theorem Core.modBank_treeCount (c : Core) (b : Bool) (g : Bank → Bank) : (c.modBank b g).treeCount = c.treeCount := by cases b <;> rfl
@[simp] theorem Core.modBank_treeAt (c : Core) (b : Bool) (g : Bank → Bank) : (c.modBank b g).treeAt = c.treeAt := by cases b <;> rfl
@[simp] theorem Core.modBank_xposes (c : Core) (b : Bool) (g : Bank → Bank) : (c.modBank b g).xposes = c.xposes := by cases b <;> rfl
@[simp] theorem Core.modBank_sends (c : Core) (b : Bool) (g : Bank → Bank) : (c.modBank b g).sends = c.sends := by cases b <;> rfl
@[simp] theorem Core.modBank_sendNo (c : Core) (b : Bool) (g : Bank → Bank) : (c.modBank b g).sendNo = c.sendNo := by cases b <;> rfl
@[simp] theorem Core.modBank_reduces (c : Core) (b : Bool) (g : Bank → Bank) : (c.modBank b g).reduces = c.reduces := by cases b <;> rfl
@[simp] theorem Core.modBank_resumes (c : Core) (b : Bool) (g : Bank → Bank) : (c.modBank b g).resumes = c.resumes := by cases b <;> rfl
@[simp] theorem Core.modBank_sendSeq (c : Core) (b : Bool) (g : Bank → Bank) : (c.modBank b g).sendSeq = c.sendSeq := by cases b <;> rfl

end Sys2Proof.Machine
end

