-- ==== Sys2Proof/Laws/Engine.lean ====
section
/-!
SUPPORT. What performing an engine's word can come to, and how a completion statement follows from the word's body.
-/
namespace Sys2Proof.Machine

/-- Without an entry nothing happens. -/
theorem State.engWord_none {s : State} (h : s.engine.cur = none) (body : Entry → State → EngResult) : s.engWord body = s := by
  simp only [State.engWord, h]

/-- A word that waits only spends the engine's turn. -/
theorem State.engWord_wait {s : State} {n : Entry} {body : Entry → State → EngResult} (h : s.engine.cur = some n)
    (hb : body n (wordState s) = .wait) : s.engWord body = wordState s := by
  simp only [wordState] at hb
  simp only [State.engWord, h, hb, wordState]

/-- A word that faults leaves its entry faulted. -/
theorem State.engWord_fault {s : State} {n : Entry} {body : Entry → State → EngResult} {t : TrapInfo} (h : s.engine.cur = some n)
    (hb : body n (wordState s) = .fault t) : s.engWord body = s.engFault s.focus.core s.engCode t := by
  simp only [wordState] at hb
  simp only [State.engWord, h, hb]

/-- A word that faults in a state of its own leaves its entry faulted there. -/
theorem State.engWord_faultIn {s u : State} {n : Entry} {body : Entry → State → EngResult} {t : TrapInfo} (h : s.engine.cur = some n)
    (hb : body n (wordState s) = .faultIn t u) : s.engWord body = u.engFault u.focus.core u.engCode t := by
  simp only [wordState] at hb
  simp only [State.engWord, h, hb]

/-- A word that goes on moves its entry to the next word. -/
theorem State.engWord_ok {s u : State} {n m : Entry} {body : Entry → State → EngResult} (h : s.engine.cur = some n)
    (hb : body n (wordState s) = .ok m u) : s.engWord body = u.modEngine (fun x => { x with cur := some m.advance }) := by
  simp only [wordState] at hb
  simp only [State.engWord, h, hb]

/-- A word that sets the position leaves it there. -/
theorem State.engWord_jump {s u : State} {n m : Entry} {body : Entry → State → EngResult} (h : s.engine.cur = some n)
    (hb : body n (wordState s) = .jump m u) : s.engWord body = u.modEngine (fun x => { x with cur := some m }) := by
  simp only [wordState] at hb
  simp only [State.engWord, h, hb]

/-- A word that has still sectors to read keeps those that it has read. -/
theorem State.engWord_more {s u : State} {n : Entry} {src : List (Nat × List Byte)} {want : List (Nat × Nat)}
    {body : Entry → State → EngResult} (h : s.engine.cur = some n) (hb : body n (wordState s) = .more src want u) :
    s.engWord body = u.modEngine (fun x => { x with cur := x.cur.map (fun m => { m with src := src, want := want }) }) := by
  simp only [wordState] at hb
  simp only [State.engWord, h, hb]

/-- A word completes as its body goes on, or jumps. -/
theorem engGives_of {i : Instr} {body : Entry → State → EngResult} {cond : Entry → State → Prop} {post : Entry → State → Entry × State}
    (he : ∀ s, exec i s = .next (s.engWord body))
    (hb : ∀ n s, cond n s → (∃ m u, body n s = .ok m u ∧ post n s = (m.advance, u)) ∨ body n s = .jump (post n s).1 (post n s).2) :
    EngGives i cond post := by
  intro s n hc hk
  rw [he]
  obtain ⟨m, u, h1, h2⟩ | h1 := hb n _ hk
  · rw [State.engWord_ok hc h1, h2]
  · rw [State.engWord_jump hc h1]

end Sys2Proof.Machine
end

