-- ==== Sys2Proof/Laws/Issue.lean ====
section
/-!
SUPPORT. What issuing a word can come to: it waits, is passed over, traps, or advances and takes effect; and how a completion
statement follows from a meaning's own body.
-/
namespace Sys2Proof.Machine

theorem State.issue_stall {s : State} {n : Need} {m : Option XmPair} (h : s.classify n m = .stall) (body : State → Result) :
    s.issue n m body = s := by simp only [State.issue, h]

theorem State.issue_fault {s : State} {n : Need} {m : Option XmPair} {t : TrapInfo} (h : s.classify n m = .fault t) (body : State → Result) :
    s.issue n m body = s.trap (n.from t) := by simp only [State.issue, h]

theorem State.issue_ask {s : State} {n : Need} {m : Option XmPair} {l : List (Fin 8)} (h : s.classify n m = .ask l) (body : State → Result) :
    s.issue n m body = s.modCur (fun c => { c with asks := l.map (fun i => (s.focus.bank, i)) }) := by simp only [State.issue, h]

theorem State.issue_off {s : State} {n : Need} {m : Option XmPair} (h : s.classify n m = .off) (body : State → Result) :
    s.issue n m body = if s.bank.pc.toNat + wordsOf m > lastWord then s.trap (fallFault s.bank m)
      else s.modBank (fun b => { b with pc := b.pc + BitVec.ofNat 15 (wordsOf m), prevIssue := s.cycle, bound := s.cycle + 1 }) := by
  simp only [State.issue, h]

theorem State.issue_go_ok {s t : State} {n : Need} {m : Option XmPair} {body : State → Result} (h : s.classify n m = .go)
    (hb : body (s.advance n m) = .ok t) : s.issue n m body = t := by simp only [State.issue, h, hb]

theorem State.issue_go_fault {s : State} {n : Need} {m : Option XmPair} {body : State → Result} {t : TrapInfo} (h : s.classify n m = .go)
    (hb : body (s.advance n m) = .fault t) : s.issue n m body = s.trap (n.from t) := by simp only [State.issue, h, hb]

theorem State.issue_go_stall {s : State} {n : Need} {m : Option XmPair} {body : State → Result} (h : s.classify n m = .go)
    (hb : body (s.advance n m) = .stall) : s.issue n m body = s := by simp only [State.issue, h, hb]

/-- Everything an issue can come to. -/
theorem State.issue_cases (s : State) (n : Need) (m : Option XmPair) (body : State → Result) :
    s.issue n m body = s ∨ (∃ l, s.issue n m body = s.modCur (fun c => { c with asks := l })) ∨ (∃ t, s.issue n m body = s.trap t)
    ∨ s.issue n m body
        = s.modBank (fun b => { b with pc := b.pc + BitVec.ofNat 15 (wordsOf m), prevIssue := s.cycle, bound := s.cycle + 1 })
    ∨ (s.classify n m = .go ∧ body (s.advance n m) = .ok (s.issue n m body)) := by
  cases h : s.classify n m with
  | stall => exact .inl (s.issue_stall h body)
  | ask l => exact .inr (.inl ⟨_, s.issue_ask h body⟩)
  | fault t => exact .inr (.inr (.inl ⟨_, s.issue_fault h body⟩))
  | off =>
    rw [s.issue_off h body]
    split
    · exact .inr (.inr (.inl ⟨_, rfl⟩))
    · exact .inr (.inr (.inr (.inl rfl)))
  | go =>
    cases hb : body (s.advance n m) with
    | stall => exact .inl (State.issue_go_stall h hb)
    | fault t => exact .inr (.inr (.inl ⟨_, State.issue_go_fault h hb⟩))
    | ok t =>
      rw [State.issue_go_ok h hb]
      exact .inr (.inr (.inr (.inr ⟨rfl, rfl⟩)))

/-- A meaning that is one issue with the word's needs completes as its body answers. -/
theorem gives_of_issue {i : Instr} {n : Need} {body : State → State → Result} {post : State → State → State}
    (hn : needOf i = some n) (he : ∀ s, exec i s = .next (s.issue n none (body s))) (hb : ∀ s t, body s t = .ok (post s t)) :
    Gives i post := by
  intro m s hm hg
  rw [hn] at hm
  cases hm
  rw [he, State.issue_go_ok hg (hb _ _)]

/-- The same under a condition on the operands. -/
theorem givesIf_of_issue {i : Instr} {n : Need} {body : State → State → Result} {cond : State → Prop} {post : State → State → State}
    (hn : needOf i = some n) (he : ∀ s, exec i s = .next (s.issue n none (body s)))
    (hb : ∀ s t, cond t → body s t = .ok (post s t)) : GivesIf i cond post := by
  intro m s hm hg hc
  rw [hn] at hm
  cases hm
  rw [he, State.issue_go_ok hg (hb _ _ hc)]

end Sys2Proof.Machine
end

