-- ==== Sys2Proof/Laws/Memory.lean ====
section
/-!
SUPPORT. Reads after writes, and the canonical form that every memory operation keeps.
-/
namespace Sys2Proof.Machine

/-- In a canonical memory nothing below the first address is listed. -/
theorem Memory.read_below {m : List Host.Cell} {lo a : Nat} (h : Memory.wfFrom lo m = true) (ha : a < lo) :
    Memory.read m a = Memory.unlisted := by
  induction m generalizing lo with
  | nil => rfl
  | cons p r ih =>
    obtain ⟨k, v⟩ := p
    simp only [Memory.wfFrom, Bool.and_eq_true, decide_eq_true_eq] at h
    have hk : k ≠ a := by omega
    simp only [Memory.read, hk, if_false]
    exact ih h.2 (by omega)

theorem Memory.wfFrom_mono {m : List Host.Cell} {lo lo' : Nat} (h : Memory.wfFrom lo m = true) (hl : lo' ≤ lo) :
    Memory.wfFrom lo' m = true := by
  cases m with
  | nil => rfl
  | cons p r =>
    obtain ⟨k, v⟩ := p
    simp only [Memory.wfFrom, Bool.and_eq_true, decide_eq_true_eq] at h ⊢
    exact ⟨⟨by omega, h.1.2⟩, h.2⟩

theorem Memory.read_write_self {m : List Host.Cell} {lo : Nat} (a : Nat) (x : Byte) (h : Memory.wfFrom lo m = true) :
    Memory.read (Memory.write m a x) a = x := by
  induction m generalizing lo with
  | nil =>
    simp only [Memory.write]
    split <;> simp_all [Memory.read]
  | cons p r ih =>
    obtain ⟨k, v⟩ := p
    simp only [Memory.wfFrom, Bool.and_eq_true, decide_eq_true_eq] at h
    simp only [Memory.write]
    split
    · rename_i hlt
      split
      · rename_i hx
        have hk : k ≠ a := by omega
        simp only [Memory.read, hk, if_false, hx]
        exact Memory.read_below h.2 (by omega)
      · simp [Memory.read]
    · split
      · rename_i _ heq
        split
        · rename_i hx
          rw [hx]
          exact Memory.read_below h.2 (by omega)
        · simp [Memory.read]
      · rename_i _ hne
        have hk : k ≠ a := Ne.symm hne
        simp only [Memory.read, hk, if_false]
        exact ih h.2

theorem Memory.read_write_other (m : List Host.Cell) (a b : Nat) (x : Byte) (h : a ≠ b) :
    Memory.read (Memory.write m a x) b = Memory.read m b := by
  induction m with
  | nil =>
    simp only [Memory.write]
    split <;> simp [Memory.read, h]
  | cons p r ih =>
    obtain ⟨k, v⟩ := p
    simp only [Memory.write]
    split
    · split <;> simp [Memory.read, h]
    · split
      · rename_i _ heq
        subst heq
        split <;> simp [Memory.read, h]
      · simp only [Memory.read, ih]

theorem Memory.wfFrom_write {m : List Host.Cell} {lo : Nat} (a : Nat) (x : Byte) (h : Memory.wfFrom lo m = true) (ha : lo ≤ a) :
    Memory.wfFrom lo (Memory.write m a x) = true := by
  induction m generalizing lo with
  | nil =>
    simp only [Memory.write]
    split <;> simp_all [Memory.wfFrom]
  | cons p r ih =>
    obtain ⟨k, v⟩ := p
    have h0 := h
    simp only [Memory.wfFrom, Bool.and_eq_true, decide_eq_true_eq] at h
    simp only [Memory.write]
    split
    · split
      · exact h0
      · rename_i hlt hx
        simp only [Memory.wfFrom, Bool.and_eq_true, decide_eq_true_eq]
        refine ⟨⟨ha, by simpa using hx⟩, ⟨⟨by omega, h.1.2⟩, h.2⟩⟩
    · split
      · rename_i _ heq
        subst heq
        split
        · exact Memory.wfFrom_mono h.2 (by omega)
        · rename_i hx
          simp only [Memory.wfFrom, Bool.and_eq_true, decide_eq_true_eq]
          exact ⟨⟨ha, by simpa using hx⟩, h.2⟩
      · simp only [Memory.wfFrom, Bool.and_eq_true, decide_eq_true_eq]
        exact ⟨h.1, ih h.2 (by omega)⟩

/-- A write keeps the canonical form. -/
theorem Memory.wf_write {m : List Host.Cell} (a : Nat) (x : Byte) (h : Memory.wf m = true) : Memory.wf (Memory.write m a x) = true :=
  Memory.wfFrom_write a x h (Nat.zero_le a)

theorem Memory.wf_writeBytes {m : List Host.Cell} (a : Nat) (l : List Byte) (h : Memory.wf m = true) :
    Memory.wf (Memory.writeBytes m a l) = true := by
  induction l generalizing m a with
  | nil => exact h
  | cons b r ih => exact ih (a + 1) (Memory.wf_write a b h)

theorem Memory.wf_writeSome {m : List Host.Cell} (a : Nat) (l : List (Option Byte)) (h : Memory.wf m = true) :
    Memory.wf (Memory.writeSome m a l) = true := by
  induction l generalizing m a with
  | nil => exact h
  | cons b r ih =>
    cases b with
    | none => exact ih (a + 1) h
    | some b => exact ih (a + 1) (Memory.wf_write a b h)

/-- A fold of single writes keeps the canonical form. -/
theorem Memory.wf_writeCells {m : List Host.Cell} (l : List Host.Cell) (h : Memory.wf m = true) :
    Memory.wf (l.foldl (fun m x => Memory.write m x.1 x.2) m) = true := by
  induction l generalizing m with
  | nil => exact h
  | cons p r ih => exact ih (Memory.wf_write p.1 p.2 h)

theorem Memory.read_writeBytes_out (m : List Host.Cell) (a b : Nat) (l : List Byte) (h : b < a ∨ a + l.length ≤ b) :
    Memory.read (Memory.writeBytes m a l) b = Memory.read m b := by
  induction l generalizing m a with
  | nil => rfl
  | cons x r ih =>
    simp only [List.length_cons] at h
    rw [Memory.writeBytes, ih _ _ (by omega), Memory.read_write_other _ _ _ _ (by omega)]

theorem Memory.read_writeBytes_in {m : List Host.Cell} (a i : Nat) (l : List Byte) (h : Memory.wf m = true) (hi : i < l.length) :
    Memory.read (Memory.writeBytes m a l) (a + i) = l[i] := by
  induction l generalizing m a i with
  | nil => simp at hi
  | cons x r ih =>
    cases i with
    | zero =>
      rw [Memory.writeBytes, Memory.read_writeBytes_out _ _ _ _ (by omega)]
      exact Memory.read_write_self a x h
    | succ i =>
      have := ih (a + 1) i (Memory.wf_write a x h) (by simpa using hi)
      rw [show a + 1 + i = a + (i + 1) from by omega] at this
      simpa [Memory.writeBytes] using this

theorem Memory.read_writeSome_out (m : List Host.Cell) (a b : Nat) (l : List (Option Byte)) (h : b < a ∨ a + l.length ≤ b) :
    Memory.read (Memory.writeSome m a l) b = Memory.read m b := by
  induction l generalizing m a with
  | nil => rfl
  | cons x r ih =>
    simp only [List.length_cons] at h
    cases x with
    | none => rw [Memory.writeSome, ih _ _ (by omega)]
    | some x => rw [Memory.writeSome, ih _ _ (by omega), Memory.read_write_other _ _ _ _ (by omega)]

/-- The bytes of a number give it back. -/
theorem leNat_leBytes (n v : Nat) : leNat (leBytes n v) = v % 256 ^ n := by
  induction n generalizing v with
  | zero => simp [leBytes, leNat, Nat.mod_one]
  | succ n ih =>
    rw [leBytes, leNat, ih, Nat.pow_succ, Nat.mul_comm (256 ^ n) 256, Nat.mod_mul, BitVec.toNat_ofNat]

theorem leBytes_length (n v : Nat) : (leBytes n v).length = n := by
  induction n generalizing v with
  | zero => rfl
  | succ n ih => simp [leBytes, ih]

end Sys2Proof.Machine
end

