-- ==== Sys2Proof/Laws/PerInstr.lean ====
section
/-!
SUPPORT. Laws said of each instruction alone. `OneKind`: an instruction has a word of at most one of the three kinds, so that where
`encode` finds a word of one kind no other kind's encoder has one (R50, R68, R232).
-/
namespace Sys2Proof.Laws

/-- An instruction with a control-stream word has no engine word and no micro-operation, and one with an engine word no micro-operation. -/
def OneKind.Statement (i : Instr) : Prop :=
  (encode80 i ≠ none → encode16 i = none ∧ encodeMicro i = none) ∧ (encode16 i ≠ none → encodeMicro i = none)

theorem OneKind.nop (h : Hdr) : OneKind.Statement (.nop h) := ⟨fun _ => ⟨rfl, rfl⟩, fun h => absurd rfl h⟩
theorem OneKind.add (h : Hdr) (ty : Fmt) (d : SDst) (a : SSrc) (b : SrcB) : OneKind.Statement (.add h ty d a b) := ⟨fun _ => ⟨rfl, rfl⟩, fun h => absurd rfl h⟩
theorem OneKind.sub (h : Hdr) (ty : Fmt) (d : SDst) (a : SSrc) (b : SrcB) : OneKind.Statement (.sub h ty d a b) := ⟨fun _ => ⟨rfl, rfl⟩, fun h => absurd rfl h⟩
theorem OneKind.mul (h : Hdr) (ty : Fmt) (d : SDst) (a : SSrc) (b : SrcB) : OneKind.Statement (.mul h ty d a b) := ⟨fun _ => ⟨rfl, rfl⟩, fun h => absurd rfl h⟩
theorem OneKind.mulh (h : Hdr) (ty : Fmt) (d : SDst) (a : SSrc) (b : SrcB) : OneKind.Statement (.mulh h ty d a b) := ⟨fun _ => ⟨rfl, rfl⟩, fun h => absurd rfl h⟩
theorem OneKind.div (h : Hdr) (ty : Fmt) (d : SDst) (a : SSrc) (b : SrcB) : OneKind.Statement (.div h ty d a b) := ⟨fun _ => ⟨rfl, rfl⟩, fun h => absurd rfl h⟩
theorem OneKind.rem (h : Hdr) (ty : Fmt) (d : SDst) (a : SSrc) (b : SrcB) : OneKind.Statement (.rem h ty d a b) := ⟨fun _ => ⟨rfl, rfl⟩, fun h => absurd rfl h⟩
theorem OneKind.min (h : Hdr) (ty : Fmt) (d : SDst) (a : SSrc) (b : SrcB) : OneKind.Statement (.min h ty d a b) := ⟨fun _ => ⟨rfl, rfl⟩, fun h => absurd rfl h⟩
theorem OneKind.max (h : Hdr) (ty : Fmt) (d : SDst) (a : SSrc) (b : SrcB) : OneKind.Statement (.max h ty d a b) := ⟨fun _ => ⟨rfl, rfl⟩, fun h => absurd rfl h⟩
theorem OneKind.and (h : Hdr) (d : SDst) (a : SSrc) (b : SrcB) : OneKind.Statement (.and h d a b) := ⟨fun _ => ⟨rfl, rfl⟩, fun h => absurd rfl h⟩
theorem OneKind.or (h : Hdr) (d : SDst) (a : SSrc) (b : SrcB) : OneKind.Statement (.or h d a b) := ⟨fun _ => ⟨rfl, rfl⟩, fun h => absurd rfl h⟩
theorem OneKind.xor (h : Hdr) (d : SDst) (a : SSrc) (b : SrcB) : OneKind.Statement (.xor h d a b) := ⟨fun _ => ⟨rfl, rfl⟩, fun h => absurd rfl h⟩
theorem OneKind.andn (h : Hdr) (d : SDst) (a : SSrc) (b : SrcB) : OneKind.Statement (.andn h d a b) := ⟨fun _ => ⟨rfl, rfl⟩, fun h => absurd rfl h⟩
theorem OneKind.shl (h : Hdr) (d : SDst) (a : SSrc) (b : SrcB) : OneKind.Statement (.shl h d a b) := ⟨fun _ => ⟨rfl, rfl⟩, fun h => absurd rfl h⟩
theorem OneKind.shr (h : Hdr) (d : SDst) (a : SSrc) (b : SrcB) : OneKind.Statement (.shr h d a b) := ⟨fun _ => ⟨rfl, rfl⟩, fun h => absurd rfl h⟩
theorem OneKind.sar (h : Hdr) (d : SDst) (a : SSrc) (b : SrcB) : OneKind.Statement (.sar h d a b) := ⟨fun _ => ⟨rfl, rfl⟩, fun h => absurd rfl h⟩
theorem OneKind.rot (h : Hdr) (d : SDst) (a : SSrc) (b : SrcB) : OneKind.Statement (.rot h d a b) := ⟨fun _ => ⟨rfl, rfl⟩, fun h => absurd rfl h⟩
theorem OneKind.clz (h : Hdr) (d : SDst) (a : SSrc) : OneKind.Statement (.clz h d a) := ⟨fun _ => ⟨rfl, rfl⟩, fun h => absurd rfl h⟩
theorem OneKind.popc (h : Hdr) (d : SDst) (a : SSrc) : OneKind.Statement (.popc h d a) := ⟨fun _ => ⟨rfl, rfl⟩, fun h => absurd rfl h⟩
theorem OneKind.sel (h : Hdr) (d : SDst) (a : CSrc) (b : SSrc) (c : SSrc) : OneKind.Statement (.sel h d a b c) := ⟨fun _ => ⟨rfl, rfl⟩, fun h => absurd rfl h⟩
theorem OneKind.cmp (h : Hdr) (ty : Fmt) (d : Fin 8) (a : SSrc) (b : SrcB) (k : Cond) : OneKind.Statement (.cmp h ty d a b k) := ⟨fun _ => ⟨rfl, rfl⟩, fun h => absurd rfl h⟩
theorem OneKind.movi (h : Hdr) (d : SDst) (a : SSrc) (v : BitVec 16) (sh : Fin 4) : OneKind.Statement (.movi h d a v sh) := ⟨fun _ => ⟨rfl, rfl⟩, fun h => absurd rfl h⟩
theorem OneKind.lea (h : Hdr) (d : SDst) (m : MemOp) : OneKind.Statement (.lea h d m) := ⟨fun _ => ⟨rfl, rfl⟩, fun h => absurd rfl h⟩
theorem OneKind.ld (h : Hdr) (ty : Fmt) (d : SDst) (m : MemOp) (al : BitVec 4) : OneKind.Statement (.ld h ty d m al) := ⟨fun _ => ⟨rfl, rfl⟩, fun h => absurd rfl h⟩
theorem OneKind.st (h : Hdr) (ty : Fmt) (m : MemOp) (c : SSrc) : OneKind.Statement (.st h ty m c) := ⟨fun _ => ⟨rfl, rfl⟩, fun h => absurd rfl h⟩
theorem OneKind.csrr (h : Hdr) (d : SDst) (csr : BitVec 16) : OneKind.Statement (.csrr h d csr) := ⟨fun _ => ⟨rfl, rfl⟩, fun h => absurd rfl h⟩
theorem OneKind.csrw (h : Hdr) (csr : BitVec 16) (a : SSrc) : OneKind.Statement (.csrw h csr a) := ⟨fun _ => ⟨rfl, rfl⟩, fun h => absurd rfl h⟩
theorem OneKind.cand (h : Hdr) (d : Fin 8) (a : CSrc) (b : CSrc) : OneKind.Statement (.cand h d a b) := ⟨fun _ => ⟨rfl, rfl⟩, fun h => absurd rfl h⟩
theorem OneKind.cor (h : Hdr) (d : Fin 8) (a : CSrc) (b : CSrc) : OneKind.Statement (.cor h d a b) := ⟨fun _ => ⟨rfl, rfl⟩, fun h => absurd rfl h⟩
theorem OneKind.cxor (h : Hdr) (d : Fin 8) (a : CSrc) (b : CSrc) : OneKind.Statement (.cxor h d a b) := ⟨fun _ => ⟨rfl, rfl⟩, fun h => absurd rfl h⟩
theorem OneKind.fadd (h : Hdr) (ty : Fmt) (d : SDst) (a : SSrc) (b : SrcB) : OneKind.Statement (.fadd h ty d a b) := ⟨fun _ => ⟨rfl, rfl⟩, fun h => absurd rfl h⟩
theorem OneKind.fmul (h : Hdr) (ty : Fmt) (d : SDst) (a : SSrc) (b : SrcB) : OneKind.Statement (.fmul h ty d a b) := ⟨fun _ => ⟨rfl, rfl⟩, fun h => absurd rfl h⟩
theorem OneKind.ffma (h : Hdr) (ty : Fmt) (d : SDst) (a : SSrc) (b : SSrc) (c : SSrc) : OneKind.Statement (.ffma h ty d a b c) := ⟨fun _ => ⟨rfl, rfl⟩, fun h => absurd rfl h⟩
theorem OneKind.fcvt (h : Hdr) (ty : Fmt) (src : Fmt) (d : SDst) (a : SSrc) : OneKind.Statement (.fcvt h ty src d a) := ⟨fun _ => ⟨rfl, rfl⟩, fun h => absurd rfl h⟩
theorem OneKind.fcmp (h : Hdr) (ty : Fmt) (d : Fin 8) (a : SSrc) (b : SrcB) (k : Cond) : OneKind.Statement (.fcmp h ty d a b k) := ⟨fun _ => ⟨rfl, rfl⟩, fun h => absurd rfl h⟩
theorem OneKind.fmin (h : Hdr) (ty : Fmt) (d : SDst) (a : SSrc) (b : SrcB) : OneKind.Statement (.fmin h ty d a b) := ⟨fun _ => ⟨rfl, rfl⟩, fun h => absurd rfl h⟩
theorem OneKind.fmax (h : Hdr) (ty : Fmt) (d : SDst) (a : SSrc) (b : SrcB) : OneKind.Statement (.fmax h ty d a b) := ⟨fun _ => ⟨rfl, rfl⟩, fun h => absurd rfl h⟩
theorem OneKind.ftolog (h : Hdr) (ty : Fmt) (src : Fmt) (d : SDst) (a : SSrc) (b : SSrc) : OneKind.Statement (.ftolog h ty src d a b) := ⟨fun _ => ⟨rfl, rfl⟩, fun h => absurd rfl h⟩
theorem OneKind.ffromlog (h : Hdr) (ty : Fmt) (src : Fmt) (d : SDst) (a : SSrc) (b : SSrc) : OneKind.Statement (.ffromlog h ty src d a b) := ⟨fun _ => ⟨rfl, rfl⟩, fun h => absurd rfl h⟩
theorem OneKind.vadd (h : Hdr) (ty : Fmt) (d : VDst) (a : VSrc) (b : VSrcB) : OneKind.Statement (.vadd h ty d a b) := ⟨fun _ => ⟨rfl, rfl⟩, fun h => absurd rfl h⟩
theorem OneKind.vsub (h : Hdr) (ty : Fmt) (d : VDst) (a : VSrc) (b : VSrcB) : OneKind.Statement (.vsub h ty d a b) := ⟨fun _ => ⟨rfl, rfl⟩, fun h => absurd rfl h⟩
theorem OneKind.vmul (h : Hdr) (ty : Fmt) (d : VDst) (a : VSrc) (b : VSrcB) : OneKind.Statement (.vmul h ty d a b) := ⟨fun _ => ⟨rfl, rfl⟩, fun h => absurd rfl h⟩
theorem OneKind.vfma (h : Hdr) (ty : Fmt) (d : VDst) (a : VSrc) (b : VSrc) (c : VSrc) : OneKind.Statement (.vfma h ty d a b c) := ⟨fun _ => ⟨rfl, rfl⟩, fun h => absurd rfl h⟩
theorem OneKind.vmin (h : Hdr) (ty : Fmt) (d : VDst) (a : VSrc) (b : VSrcB) : OneKind.Statement (.vmin h ty d a b) := ⟨fun _ => ⟨rfl, rfl⟩, fun h => absurd rfl h⟩
theorem OneKind.vmax (h : Hdr) (ty : Fmt) (d : VDst) (a : VSrc) (b : VSrcB) : OneKind.Statement (.vmax h ty d a b) := ⟨fun _ => ⟨rfl, rfl⟩, fun h => absurd rfl h⟩
theorem OneKind.vrcp (h : Hdr) (ty : Fmt) (d : VDst) (a : VSrc) : OneKind.Statement (.vrcp h ty d a) := ⟨fun _ => ⟨rfl, rfl⟩, fun h => absurd rfl h⟩
theorem OneKind.vrsq (h : Hdr) (ty : Fmt) (d : VDst) (a : VSrc) : OneKind.Statement (.vrsq h ty d a) := ⟨fun _ => ⟨rfl, rfl⟩, fun h => absurd rfl h⟩
theorem OneKind.vexp2 (h : Hdr) (ty : Fmt) (d : VDst) (a : VSrc) : OneKind.Statement (.vexp2 h ty d a) := ⟨fun _ => ⟨rfl, rfl⟩, fun h => absurd rfl h⟩
theorem OneKind.vlog2 (h : Hdr) (ty : Fmt) (d : VDst) (a : VSrc) : OneKind.Statement (.vlog2 h ty d a) := ⟨fun _ => ⟨rfl, rfl⟩, fun h => absurd rfl h⟩
theorem OneKind.vand (h : Hdr) (ty : Fmt) (d : VDst) (a : VSrc) (b : VSrcB) : OneKind.Statement (.vand h ty d a b) := ⟨fun _ => ⟨rfl, rfl⟩, fun h => absurd rfl h⟩
theorem OneKind.vor (h : Hdr) (ty : Fmt) (d : VDst) (a : VSrc) (b : VSrcB) : OneKind.Statement (.vor h ty d a b) := ⟨fun _ => ⟨rfl, rfl⟩, fun h => absurd rfl h⟩
theorem OneKind.vxor (h : Hdr) (ty : Fmt) (d : VDst) (a : VSrc) (b : VSrcB) : OneKind.Statement (.vxor h ty d a b) := ⟨fun _ => ⟨rfl, rfl⟩, fun h => absurd rfl h⟩
theorem OneKind.vshl (h : Hdr) (ty : Fmt) (d : VDst) (a : VSrc) (b : VSrcB) : OneKind.Statement (.vshl h ty d a b) := ⟨fun _ => ⟨rfl, rfl⟩, fun h => absurd rfl h⟩
theorem OneKind.vshr (h : Hdr) (ty : Fmt) (d : VDst) (a : VSrc) (b : VSrcB) : OneKind.Statement (.vshr h ty d a b) := ⟨fun _ => ⟨rfl, rfl⟩, fun h => absurd rfl h⟩
theorem OneKind.vsar (h : Hdr) (ty : Fmt) (d : VDst) (a : VSrc) (b : VSrcB) : OneKind.Statement (.vsar h ty d a b) := ⟨fun _ => ⟨rfl, rfl⟩, fun h => absurd rfl h⟩
theorem OneKind.vcmp (h : Hdr) (ty : Fmt) (d : Fin 16) (a : VSrc) (b : VSrcB) (k : Cond) : OneKind.Statement (.vcmp h ty d a b k) := ⟨fun _ => ⟨rfl, rfl⟩, fun h => absurd rfl h⟩
theorem OneKind.vsel (h : Hdr) (ty : Fmt) (d : VDst) (a : MSrc) (b : VSrc) (c : VSrc) : OneKind.Statement (.vsel h ty d a b c) := ⟨fun _ => ⟨rfl, rfl⟩, fun h => absurd rfl h⟩
theorem OneKind.vcvt (h : Hdr) (ty : Fmt) (src : Fmt) (d : VDst) (a : VSrc) : OneKind.Statement (.vcvt h ty src d a) := ⟨fun _ => ⟨rfl, rfl⟩, fun h => absurd rfl h⟩
theorem OneKind.vtolog (h : Hdr) (ty : Fmt) (src : Fmt) (d : VDst) (a : VSrc) (b : VSrc) : OneKind.Statement (.vtolog h ty src d a b) := ⟨fun _ => ⟨rfl, rfl⟩, fun h => absurd rfl h⟩
theorem OneKind.vfromlog (h : Hdr) (ty : Fmt) (src : Fmt) (d : VDst) (a : VSrc) (b : VSrc) : OneKind.Statement (.vfromlog h ty src d a b) := ⟨fun _ => ⟨rfl, rfl⟩, fun h => absurd rfl h⟩
theorem OneKind.vqnt (h : Hdr) (ty : Fmt) (src : Fmt) (d : VDst) (a : VSrc) (b : VSrc) : OneKind.Statement (.vqnt h ty src d a b) := ⟨fun _ => ⟨rfl, rfl⟩, fun h => absurd rfl h⟩
theorem OneKind.vdqnt (h : Hdr) (ty : Fmt) (src : Fmt) (d : VDst) (a : VSrc) (b : VSrc) : OneKind.Statement (.vdqnt h ty src d a b) := ⟨fun _ => ⟨rfl, rfl⟩, fun h => absurd rfl h⟩
theorem OneKind.vbscale (h : Hdr) (ty : Fmt) (tgt : Fmt) (d : VDst) (a : VSrc) : OneKind.Statement (.vbscale h ty tgt d a) := ⟨fun _ => ⟨rfl, rfl⟩, fun h => absurd rfl h⟩
theorem OneKind.vredadd (h : Hdr) (ty : Fmt) (d : VDst) (a : VSrc) : OneKind.Statement (.vredadd h ty d a) := ⟨fun _ => ⟨rfl, rfl⟩, fun h => absurd rfl h⟩
theorem OneKind.vredmax (h : Hdr) (ty : Fmt) (d : VDst) (a : VSrc) : OneKind.Statement (.vredmax h ty d a) := ⟨fun _ => ⟨rfl, rfl⟩, fun h => absurd rfl h⟩
theorem OneKind.vredmin (h : Hdr) (ty : Fmt) (d : VDst) (a : VSrc) : OneKind.Statement (.vredmin h ty d a) := ⟨fun _ => ⟨rfl, rfl⟩, fun h => absurd rfl h⟩
theorem OneKind.vscan (h : Hdr) (ty : Fmt) (d : VDst) (a : VSrc) (op : Fin 3) : OneKind.Statement (.vscan h ty d a op) := ⟨fun _ => ⟨rfl, rfl⟩, fun h => absurd rfl h⟩
theorem OneKind.vhist (h : Hdr) (ty : Fmt) (d : VDst) (a : VSrc) (b : SrcB) : OneKind.Statement (.vhist h ty d a b) := ⟨fun _ => ⟨rfl, rfl⟩, fun h => absurd rfl h⟩
theorem OneKind.vcmprs (h : Hdr) (ty : Fmt) (d : VDst) (a : VSrc) : OneKind.Statement (.vcmprs h ty d a) := ⟨fun _ => ⟨rfl, rfl⟩, fun h => absurd rfl h⟩
theorem OneKind.vperm (h : Hdr) (ty : Fmt) (d : VDst) (a : VSrc) (b : VSrc) : OneKind.Statement (.vperm h ty d a b) := ⟨fun _ => ⟨rfl, rfl⟩, fun h => absurd rfl h⟩
theorem OneKind.vslide (h : Hdr) (ty : Fmt) (d : VDst) (a : VSrc) (b : SrcB) (down : Bool) : OneKind.Statement (.vslide h ty d a b down) := ⟨fun _ => ⟨rfl, rfl⟩, fun h => absurd rfl h⟩
theorem OneKind.vbcast (h : Hdr) (ty : Fmt) (d : VDst) (a : SSrc) : OneKind.Statement (.vbcast h ty d a) := ⟨fun _ => ⟨rfl, rfl⟩, fun h => absurd rfl h⟩
theorem OneKind.vext (h : Hdr) (ty : Fmt) (d : SDst) (a : VSrc) (b : SrcB) : OneKind.Statement (.vext h ty d a b) := ⟨fun _ => ⟨rfl, rfl⟩, fun h => absurd rfl h⟩
theorem OneKind.vins (h : Hdr) (ty : Fmt) (d : Fin 64) (a : SSrc) (b : SrcB) : OneKind.Statement (.vins h ty d a b) := ⟨fun _ => ⟨rfl, rfl⟩, fun h => absurd rfl h⟩
theorem OneKind.viota (h : Hdr) (ty : Fmt) (d : VDst) (a : SSrc) : OneKind.Statement (.viota h ty d a) := ⟨fun _ => ⟨rfl, rfl⟩, fun h => absurd rfl h⟩
theorem OneKind.vld (h : Hdr) (ty : Fmt) (d : VDst) (m : MemOp) (al : BitVec 4) : OneKind.Statement (.vld h ty d m al) := ⟨fun _ => ⟨rfl, rfl⟩, fun h => absurd rfl h⟩
theorem OneKind.vst (h : Hdr) (ty : Fmt) (m : MemOp) (c : VSrc) : OneKind.Statement (.vst h ty m c) := ⟨fun _ => ⟨rfl, rfl⟩, fun h => absurd rfl h⟩
theorem OneKind.vgath (h : Hdr) (ty : Fmt) (d : VDst) (a : SSrc) (b : VSrc) (k : Fin 8) (al : BitVec 4) : OneKind.Statement (.vgath h ty d a b k al) := ⟨fun _ => ⟨rfl, rfl⟩, fun h => absurd rfl h⟩
theorem OneKind.vscat (h : Hdr) (ty : Fmt) (a : SSrc) (b : VSrc) (k : Fin 8) (c : VSrc) : OneKind.Statement (.vscat h ty a b k c) := ⟨fun _ => ⟨rfl, rfl⟩, fun h => absurd rfl h⟩
theorem OneKind.portcfg (h : Hdr) (port : Fin 12) (a : SSrc) : OneKind.Statement (.portcfg h port a) := ⟨fun _ => ⟨rfl, rfl⟩, fun h => absurd rfl h⟩
theorem OneKind.mand (h : Hdr) (d : Fin 16) (a : MSrc) (b : MSrc) : OneKind.Statement (.mand h d a b) := ⟨fun _ => ⟨rfl, rfl⟩, fun h => absurd rfl h⟩
theorem OneKind.mor (h : Hdr) (d : Fin 16) (a : MSrc) (b : MSrc) : OneKind.Statement (.mor h d a b) := ⟨fun _ => ⟨rfl, rfl⟩, fun h => absurd rfl h⟩
theorem OneKind.mxor (h : Hdr) (d : Fin 16) (a : MSrc) (b : MSrc) : OneKind.Statement (.mxor h d a b) := ⟨fun _ => ⟨rfl, rfl⟩, fun h => absurd rfl h⟩
theorem OneKind.mnot (h : Hdr) (d : Fin 16) (a : MSrc) : OneKind.Statement (.mnot h d a) := ⟨fun _ => ⟨rfl, rfl⟩, fun h => absurd rfl h⟩
theorem OneKind.mpop (h : Hdr) (ty : Fmt) (d : SDst) (a : MSrc) : OneKind.Statement (.mpop h ty d a) := ⟨fun _ => ⟨rfl, rfl⟩, fun h => absurd rfl h⟩
theorem OneKind.mfirst (h : Hdr) (ty : Fmt) (d : SDst) (a : MSrc) : OneKind.Statement (.mfirst h ty d a) := ⟨fun _ => ⟨rfl, rfl⟩, fun h => absurd rfl h⟩
theorem OneKind.vord (h : Hdr) (ty : Fmt) (d : VDst) (a : VSrc) : OneKind.Statement (.vord h ty d a) := ⟨fun _ => ⟨rfl, rfl⟩, fun h => absurd rfl h⟩
theorem OneKind.ldg (h : Hdr) (ty : Fmt) (d : SDst) (m : MemOp) (o : LdMod) (al : BitVec 4) : OneKind.Statement (.ldg h ty d m o al) := ⟨fun _ => ⟨rfl, rfl⟩, fun h => absurd rfl h⟩
theorem OneKind.stg (h : Hdr) (ty : Fmt) (m : MemOp) (c : SSrc) (o : StDst) : OneKind.Statement (.stg h ty m c o) := ⟨fun _ => ⟨rfl, rfl⟩, fun h => absurd rfl h⟩
theorem OneKind.vldg (h : Hdr) (ty : Fmt) (d : VDst) (m : MemOp) (o : LdMod) (al : BitVec 4) : OneKind.Statement (.vldg h ty d m o al) := ⟨fun _ => ⟨rfl, rfl⟩, fun h => absurd rfl h⟩
theorem OneKind.vstg (h : Hdr) (ty : Fmt) (m : MemOp) (c : VSrc) (o : StDst) : OneKind.Statement (.vstg h ty m c o) := ⟨fun _ => ⟨rfl, rfl⟩, fun h => absurd rfl h⟩
theorem OneKind.prefg (h : Hdr) (m : MemOp) (l2 : Bool) : OneKind.Statement (.prefg h m l2) := ⟨fun _ => ⟨rfl, rfl⟩, fun h => absurd rfl h⟩
theorem OneKind.aadd (h : Hdr) (ty : Fmt) (m : MemOp) (c : SSrc) (o : StDst) (al : BitVec 4) : OneKind.Statement (.aadd h ty m c o al) := ⟨fun _ => ⟨rfl, rfl⟩, fun h => absurd rfl h⟩
theorem OneKind.amin (h : Hdr) (ty : Fmt) (m : MemOp) (c : SSrc) (o : Mmc) (al : BitVec 4) : OneKind.Statement (.amin h ty m c o al) := ⟨fun _ => ⟨rfl, rfl⟩, fun h => absurd rfl h⟩
theorem OneKind.amax (h : Hdr) (ty : Fmt) (m : MemOp) (c : SSrc) (o : Mmc) (al : BitVec 4) : OneKind.Statement (.amax h ty m c o al) := ⟨fun _ => ⟨rfl, rfl⟩, fun h => absurd rfl h⟩
theorem OneKind.aand (h : Hdr) (ty : Fmt) (m : MemOp) (c : SSrc) (o : Mmc) (al : BitVec 4) : OneKind.Statement (.aand h ty m c o al) := ⟨fun _ => ⟨rfl, rfl⟩, fun h => absurd rfl h⟩
theorem OneKind.aor (h : Hdr) (ty : Fmt) (m : MemOp) (c : SSrc) (o : Mmc) (al : BitVec 4) : OneKind.Statement (.aor h ty m c o al) := ⟨fun _ => ⟨rfl, rfl⟩, fun h => absurd rfl h⟩
theorem OneKind.axor (h : Hdr) (ty : Fmt) (m : MemOp) (c : SSrc) (o : Mmc) (al : BitVec 4) : OneKind.Statement (.axor h ty m c o al) := ⟨fun _ => ⟨rfl, rfl⟩, fun h => absurd rfl h⟩
theorem OneKind.axchg (h : Hdr) (ty : Fmt) (m : MemOp) (c : SSrc) (o : Mmc) (al : BitVec 4) : OneKind.Statement (.axchg h ty m c o al) := ⟨fun _ => ⟨rfl, rfl⟩, fun h => absurd rfl h⟩
theorem OneKind.acas (h : Hdr) (ty : Fmt) (d : Fin 64) (m : MemOp) (c : SSrc) (al : BitVec 4) : OneKind.Statement (.acas h ty d m c al) := ⟨fun _ => ⟨rfl, rfl⟩, fun h => absurd rfl h⟩
theorem OneKind.adcas (h : Hdr) (ty : Fmt) (d : Fin 32) (a : SSrc) (b : SSrc) (c : Fin 32) (al : BitVec 4) : OneKind.Statement (.adcas h ty d a b c al) := ⟨fun _ => ⟨rfl, rfl⟩, fun h => absurd rfl h⟩
theorem OneKind.amove (h : Hdr) (ty : Fmt) (d : SDst) (a : SSrc) (b : SSrc) (al : BitVec 4) : OneKind.Statement (.amove h ty d a b al) := ⟨fun _ => ⟨rfl, rfl⟩, fun h => absurd rfl h⟩
theorem OneKind.aradd (h : Hdr) (ty : Fmt) (a : SSrc) (off : BitVec 16) (pair : Bool) (c : VSrc) (o : StDst) (al : BitVec 4) : OneKind.Statement (.aradd h ty a off pair c o al) := ⟨fun _ => ⟨rfl, rfl⟩, fun h => absurd rfl h⟩
theorem OneKind.armax (h : Hdr) (ty : Fmt) (a : SSrc) (off : BitVec 16) (pair : Bool) (c : VSrc) (o : StDst) (al : BitVec 4) : OneKind.Statement (.armax h ty a off pair c o al) := ⟨fun _ => ⟨rfl, rfl⟩, fun h => absurd rfl h⟩
theorem OneKind.pbegin (h : Hdr) (d : Fin 4) (a : NSrc) (k : PKind) : OneKind.Statement (.pbegin h d a k) := ⟨fun _ => ⟨rfl, rfl⟩, fun h => absurd rfl h⟩
theorem OneKind.ppair (h : Hdr) (d : Fin 4) (a : NSrc) (b : NSrc) (k : PKind) : OneKind.Statement (.ppair h d a b k) := ⟨fun _ => ⟨rfl, rfl⟩, fun h => absurd rfl h⟩
theorem OneKind.pjoin (h : Hdr) (d : Fin 4) (a : NSrc) : OneKind.Statement (.pjoin h d a) := ⟨fun _ => ⟨rfl, rfl⟩, fun h => absurd rfl h⟩
theorem OneKind.pseal (h : Hdr) (a : PSrc) : OneKind.Statement (.pseal h a) := ⟨fun _ => ⟨rfl, rfl⟩, fun h => absurd rfl h⟩
theorem OneKind.pabort (h : Hdr) (a : PSrc) : OneKind.Statement (.pabort h a) := ⟨fun _ => ⟨rfl, rfl⟩, fun h => absurd rfl h⟩
theorem OneKind.psquash (h : Hdr) (a : NSrc) (b : NSrc) (x : Bool) : OneKind.Statement (.psquash h a b x) := ⟨fun _ => ⟨rfl, rfl⟩, fun h => absurd rfl h⟩
theorem OneKind.pinv (h : Hdr) (d : Fin 16) (a : NSrc) : OneKind.Statement (.pinv h d a) := ⟨fun _ => ⟨rfl, rfl⟩, fun h => absurd rfl h⟩
theorem OneKind.pcomm (h : Hdr) (a : NSrc) (b : NSrc) : OneKind.Statement (.pcomm h a b) := ⟨fun _ => ⟨rfl, rfl⟩, fun h => absurd rfl h⟩
theorem OneKind.pxpl (h : Hdr) (d : Fin 16) (a : NSrc) (b : NSrc) (c : SSrc) (mv : Bool) : OneKind.Statement (.pxpl h d a b c mv) := ⟨fun _ => ⟨rfl, rfl⟩, fun h => absurd rfl h⟩
theorem OneKind.pdrop (h : Hdr) (a : NSrc) : OneKind.Statement (.pdrop h a) := ⟨fun _ => ⟨rfl, rfl⟩, fun h => absurd rfl h⟩
theorem OneKind.pquery (h : Hdr) (d : SDst) (a : NSrc) (al : BitVec 4) : OneKind.Statement (.pquery h d a al) := ⟨fun _ => ⟨rfl, rfl⟩, fun h => absurd rfl h⟩
theorem OneKind.nnew (h : Hdr) (d : Fin 16) (f : NNewForm) : OneKind.Statement (.nnew h d f) := ⟨fun _ => ⟨rfl, rfl⟩, fun h => absurd rfl h⟩
theorem OneKind.ndest (h : Hdr) (a : NSrc) : OneKind.Statement (.ndest h a) := ⟨fun _ => ⟨rfl, rfl⟩, fun h => absurd rfl h⟩
theorem OneKind.nres (h : Hdr) (d : Fin 16) (a : NSrc) (al : BitVec 4) : OneKind.Statement (.nres h d a al) := ⟨fun _ => ⟨rfl, rfl⟩, fun h => absurd rfl h⟩
theorem OneKind.ncas (h : Hdr) (d : Fin 8) (a : NSrc) (b : NSrc) (c : NSrc) (al : BitVec 4) : OneKind.Statement (.ncas h d a b c al) := ⟨fun _ => ⟨rfl, rfl⟩, fun h => absurd rfl h⟩
theorem OneKind.nmov (h : Hdr) (f : NMovForm) : OneKind.Statement (.nmov h f) := ⟨fun _ => ⟨rfl, rfl⟩, fun h => absurd rfl h⟩
theorem OneKind.ncmp (h : Hdr) (d : Fin 8) (a : NSrc) (b : NSrc) : OneKind.Statement (.ncmp h d a b) := ⟨fun _ => ⟨rfl, rfl⟩, fun h => absurd rfl h⟩
theorem OneKind.cpin (h : Hdr) (d : SDst) (m : MemOp) (al : BitVec 4) : OneKind.Statement (.cpin h d m al) := ⟨fun _ => ⟨rfl, rfl⟩, fun h => absurd rfl h⟩
theorem OneKind.cunpin (h : Hdr) (m : MemOp) : OneKind.Statement (.cunpin h m) := ⟨fun _ => ⟨rfl, rfl⟩, fun h => absurd rfl h⟩
theorem OneKind.cwb (h : Hdr) (m : MemOp) (l2 : Bool) : OneKind.Statement (.cwb h m l2) := ⟨fun _ => ⟨rfl, rfl⟩, fun h => absurd rfl h⟩
theorem OneKind.cinv (h : Hdr) (m : MemOp) (l2 : Bool) : OneKind.Statement (.cinv h m l2) := ⟨fun _ => ⟨rfl, rfl⟩, fun h => absurd rfl h⟩
theorem OneKind.br (h : Hdr) (off : BitVec 16) : OneKind.Statement (.br h off) := ⟨fun _ => ⟨rfl, rfl⟩, fun h => absurd rfl h⟩
theorem OneKind.brc (h : Hdr) (ty : Fmt) (a : SSrc) (b : SSrc) (k : Cond) (off : BitVec 16) : OneKind.Statement (.brc h ty a b k off) := ⟨fun _ => ⟨rfl, rfl⟩, fun h => absurd rfl h⟩
theorem OneKind.jmpi (h : Hdr) (a : SSrc) : OneKind.Statement (.jmpi h a) := ⟨fun _ => ⟨rfl, rfl⟩, fun h => absurd rfl h⟩
theorem OneKind.call (h : Hdr) (d : SDst) (off : BitVec 16) : OneKind.Statement (.call h d off) := ⟨fun _ => ⟨rfl, rfl⟩, fun h => absurd rfl h⟩
theorem OneKind.ret (h : Hdr) (a : SSrc) : OneKind.Statement (.ret h a) := ⟨fun _ => ⟨rfl, rfl⟩, fun h => absurd rfl h⟩
theorem OneKind.loop (h : Hdr) (a : Fin 64) (off : BitVec 16) : OneKind.Statement (.loop h a off) := ⟨fun _ => ⟨rfl, rfl⟩, fun h => absurd rfl h⟩
theorem OneKind.rotset (h : Hdr) (v : BitVec 5) (m : BitVec 3) : OneKind.Statement (.rotset h v m) := ⟨fun _ => ⟨rfl, rfl⟩, fun h => absurd rfl h⟩
theorem OneKind.trap (h : Hdr) (code : BitVec 16) : OneKind.Statement (.trap h code) := ⟨fun _ => ⟨rfl, rfl⟩, fun h => absurd rfl h⟩
theorem OneKind.rett (h : Hdr) : OneKind.Statement (.rett h) := ⟨fun _ => ⟨rfl, rfl⟩, fun h => absurd rfl h⟩
theorem OneKind.swait (h : Hdr) (k : BitVec 8) : OneKind.Statement (.swait h k) := ⟨fun _ => ⟨rfl, rfl⟩, fun h => absurd rfl h⟩
theorem OneKind.ssig (h : Hdr) (k : BitVec 8) (a : Option SSrc) : OneKind.Statement (.ssig h k a) := ⟨fun _ => ⟨rfl, rfl⟩, fun h => absurd rfl h⟩
theorem OneKind.sset (h : Hdr) (k : BitVec 8) (a : SSrc) : OneKind.Statement (.sset h k a) := ⟨fun _ => ⟨rfl, rfl⟩, fun h => absurd rfl h⟩
theorem OneKind.sread (h : Hdr) (d : SDst) (k : BitVec 8) (al : BitVec 4) : OneKind.Statement (.sread h d k al) := ⟨fun _ => ⟨rfl, rfl⟩, fun h => absurd rfl h⟩
theorem OneKind.bar (h : Hdr) (stage : Bool) : OneKind.Statement (.bar h stage) := ⟨fun _ => ⟨rfl, rfl⟩, fun h => absurd rfl h⟩
theorem OneKind.comm (h : Hdr) (m : MemOp) : OneKind.Statement (.comm h m) := ⟨fun _ => ⟨rfl, rfl⟩, fun h => absurd rfl h⟩
theorem OneKind.fence (h : Hdr) (scope : BitVec 3) : OneKind.Statement (.fence h scope) := ⟨fun _ => ⟨rfl, rfl⟩, fun h => absurd rfl h⟩
theorem OneKind.launch (h : Hdr) (m : MemOp) : OneKind.Statement (.launch h m) := ⟨fun _ => ⟨rfl, rfl⟩, fun h => absurd rfl h⟩
theorem OneKind.yield (h : Hdr) : OneKind.Statement (.yield h) := ⟨fun _ => ⟨rfl, rfl⟩, fun h => absurd rfl h⟩
theorem OneKind.exit (h : Hdr) : OneKind.Statement (.exit h) := ⟨fun _ => ⟨rfl, rfl⟩, fun h => absurd rfl h⟩
theorem OneKind.eqpush (h : Hdr) (q : QCode) (m : MemOp) : OneKind.Statement (.eqpush h q m) := ⟨fun _ => ⟨rfl, rfl⟩, fun h => absurd rfl h⟩
theorem OneKind.eqpushv (h : Hdr) (q : QCode) (a : VSrc) : OneKind.Statement (.eqpushv h q a) := ⟨fun _ => ⟨rfl, rfl⟩, fun h => absurd rfl h⟩
theorem OneKind.eqstat (h : Hdr) (d : SDst) (q : QCode) : OneKind.Statement (.eqstat h d q) := ⟨fun _ => ⟨rfl, rfl⟩, fun h => absurd rfl h⟩
theorem OneKind.fpush (h : Hdr) (a : SSrc) : OneKind.Statement (.fpush h a) := ⟨fun _ => ⟨rfl, rfl⟩, fun h => absurd rfl h⟩
theorem OneKind.qpop (h : Hdr) (d : SDst) (q : Fin 4) (al : BitVec 4) : OneKind.Statement (.qpop h d q al) := ⟨fun _ => ⟨rfl, rfl⟩, fun h => absurd rfl h⟩
theorem OneKind.qpush (h : Hdr) (q : Fin 4) (a : SSrc) : OneKind.Statement (.qpush h q a) := ⟨fun _ => ⟨rfl, rfl⟩, fun h => absurd rfl h⟩
theorem OneKind.qstat (h : Hdr) (d : SDst) (q : Fin 9) : OneKind.Statement (.qstat h d q) := ⟨fun _ => ⟨rfl, rfl⟩, fun h => absurd rfl h⟩
theorem OneKind.estat (h : Hdr) (d : SDst) (e : Eng) : OneKind.Statement (.estat h d e) := ⟨fun _ => ⟨rfl, rfl⟩, fun h => absurd rfl h⟩
theorem OneKind.xm (pd : BitVec 4) (x : XmMod) : OneKind.Statement (.xm pd x) := ⟨fun _ => ⟨rfl, rfl⟩, fun h => absurd rfl h⟩
theorem OneKind.illegalOpcode (w : Word80) : OneKind.Statement (.illegalOpcode w) := ⟨fun h => absurd rfl h, fun h => absurd rfl h⟩
theorem OneKind.segld (h : Hdr) (m : MemOp) : OneKind.Statement (.segld h m) := ⟨fun _ => ⟨rfl, rfl⟩, fun h => absurd rfl h⟩
theorem OneKind.seginv (h : Hdr) (a : SSrc) : OneKind.Statement (.seginv h a) := ⟨fun _ => ⟨rfl, rfl⟩, fun h => absurd rfl h⟩
theorem OneKind.htlbinv (h : Hdr) (a : SSrc) (b : SSrc) (all : Bool) : OneKind.Statement (.htlbinv h a b all) := ⟨fun _ => ⟨rfl, rfl⟩, fun h => absurd rfl h⟩
theorem OneKind.banksw (h : Hdr) : OneKind.Statement (.banksw h) := ⟨fun _ => ⟨rfl, rfl⟩, fun h => absurd rfl h⟩
theorem OneKind.banksave (h : Hdr) (bank : Bool) (m : MemOp) : OneKind.Statement (.banksave h bank m) := ⟨fun _ => ⟨rfl, rfl⟩, fun h => absurd rfl h⟩
theorem OneKind.bankload (h : Hdr) (bank : Bool) (m : MemOp) : OneKind.Statement (.bankload h bank m) := ⟨fun _ => ⟨rfl, rfl⟩, fun h => absurd rfl h⟩
theorem OneKind.ucload (h : Hdr) (a : NSrc) : OneKind.Statement (.ucload h a) := ⟨fun _ => ⟨rfl, rfl⟩, fun h => absurd rfl h⟩
theorem OneKind.quench (h : Hdr) (a : NSrc) (now : Bool) : OneKind.Statement (.quench h a now) := ⟨fun _ => ⟨rfl, rfl⟩, fun h => absurd rfl h⟩
theorem OneKind.qresume (h : Hdr) (a : NSrc) : OneKind.Statement (.qresume h a) := ⟨fun _ => ⟨rfl, rfl⟩, fun h => absurd rfl h⟩
theorem OneKind.ckpt (h : Hdr) (a : Fin 16) (b : SSrc) (k : BitVec 8) : OneKind.Statement (.ckpt h a b k) := ⟨fun _ => ⟨rfl, rfl⟩, fun h => absurd rfl h⟩
theorem OneKind.ckres (h : Hdr) (a : Fin 16) : OneKind.Statement (.ckres h a) := ⟨fun _ => ⟨rfl, rfl⟩, fun h => absurd rfl h⟩
theorem OneKind.keybind (h : Hdr) (a : SSrc) (b : SSrc) : OneKind.Statement (.keybind h a b) := ⟨fun _ => ⟨rfl, rfl⟩, fun h => absurd rfl h⟩
theorem OneKind.biasflip (h : Hdr) (a : SSrc) (b : SSrc) (dev : Bool) : OneKind.Statement (.biasflip h a b dev) := ⟨fun _ => ⟨rfl, rfl⟩, fun h => absurd rfl h⟩
theorem OneKind.idle (h : Hdr) : OneKind.Statement (.idle h) := ⟨fun _ => ⟨rfl, rfl⟩, fun h => absurd rfl h⟩
theorem OneKind.halt (h : Hdr) : OneKind.Statement (.halt h) := ⟨fun _ => ⟨rfl, rfl⟩, fun h => absurd rfl h⟩
theorem OneKind.partset (h : Hdr) (a : SSrc) (b : SSrc) : OneKind.Statement (.partset h a b) := ⟨fun _ => ⟨rfl, rfl⟩, fun h => absurd rfl h⟩
theorem OneKind.lit (v : BitVec 15) : OneKind.Statement (.lit v) := ⟨fun h => absurd rfl h, fun _ => rfl⟩
theorem OneKind.ext (v : BitVec 14) : OneKind.Statement (.ext v) := ⟨fun h => absurd rfl h, fun _ => rfl⟩
theorem OneKind.engineIllegalWord (w : EngWord) : OneKind.Statement (.engineIllegalWord w) := ⟨fun h => absurd rfl h, fun h => absurd rfl h⟩
theorem OneKind.popq (a : Fin 4) : OneKind.Statement (.popq a) := ⟨fun h => absurd rfl h, fun _ => rfl⟩
theorem OneKind.pushb (a : Fin 4) : OneKind.Statement (.pushb a) := ⟨fun h => absurd rfl h, fun _ => rfl⟩
theorem OneKind.waitk (k : BitVec 8) : OneKind.Statement (.waitk k) := ⟨fun h => absurd rfl h, fun _ => rfl⟩
theorem OneKind.sigk (k : BitVec 8) : OneKind.Statement (.sigk k) := ⟨fun h => absurd rfl h, fun _ => rfl⟩
theorem OneKind.setl (a : Fin 6) : OneKind.Statement (.setl a) := ⟨fun h => absurd rfl h, fun _ => rfl⟩
theorem OneKind.setb (a : Fin 8) : OneKind.Statement (.setb a) := ⟨fun h => absurd rfl h, fun _ => rfl⟩
theorem OneKind.zacc (a : Fin 4) : OneKind.Statement (.zacc a) := ⟨fun h => absurd rfl h, fun _ => rfl⟩
theorem OneKind.go (a : Fin 4) : OneKind.Statement (.go a) := ⟨fun h => absurd rfl h, fun _ => rfl⟩
theorem OneKind.drain (a : Fin 4) : OneKind.Statement (.drain a) := ⟨fun h => absurd rfl h, fun _ => rfl⟩
theorem OneKind.amaxc (a : Fin 4) : OneKind.Statement (.amaxc a) := ⟨fun h => absurd rfl h, fun _ => rfl⟩
theorem OneKind.layer (a : Fin 4) : OneKind.Statement (.layer a) := ⟨fun h => absurd rfl h, fun _ => rfl⟩
theorem OneKind.tload (s : Fin 16) : OneKind.Statement (.tload s) := ⟨fun h => absurd rfl h, fun _ => rfl⟩
theorem OneKind.tstore (s : Fin 16) : OneKind.Statement (.tstore s) := ⟨fun h => absurd rfl h, fun _ => rfl⟩
theorem OneKind.tpair (s : Fin 16) : OneKind.Statement (.tpair s) := ⟨fun h => absurd rfl h, fun _ => rfl⟩
theorem OneKind.egath (s : Fin 16) : OneKind.Statement (.egath s) := ⟨fun h => absurd rfl h, fun _ => rfl⟩
theorem OneKind.txpose (s : Fin 16) : OneKind.Statement (.txpose s) := ⟨fun h => absurd rfl h, fun _ => rfl⟩
theorem OneKind.cred (a : Fin 4) : OneKind.Statement (.cred a) := ⟨fun h => absurd rfl h, fun _ => rfl⟩
theorem OneKind.csig (k : BitVec 8) : OneKind.Statement (.csig k) := ⟨fun h => absurd rfl h, fun _ => rfl⟩
theorem OneKind.usetl (a : Fin 6) (count : BitVec 16) (stride : BitVec 32) : OneKind.Statement (.usetl a count stride) := ⟨fun h => absurd rfl h, fun h => absurd rfl h⟩
theorem OneKind.usetb (a : Fin 8) (x : BitVec 48) : OneKind.Statement (.usetb a x) := ⟨fun h => absurd rfl h, fun h => absurd rfl h⟩
theorem OneKind.uaddb (a : Fin 8) (d : BitVec 48) : OneKind.Statement (.uaddb a d) := ⟨fun h => absurd rfl h, fun h => absurd rfl h⟩
theorem OneKind.uzacc (a : Fin 4) : OneKind.Statement (.uzacc a) := ⟨fun h => absurd rfl h, fun h => absurd rfl h⟩
theorem OneKind.ugo (a : Fin 4) : OneKind.Statement (.ugo a) := ⟨fun h => absurd rfl h, fun h => absurd rfl h⟩
theorem OneKind.udrain (a : Fin 4) : OneKind.Statement (.udrain a) := ⟨fun h => absurd rfl h, fun h => absurd rfl h⟩
theorem OneKind.uamaxc (a : Fin 4) : OneKind.Statement (.uamaxc a) := ⟨fun h => absurd rfl h, fun h => absurd rfl h⟩
theorem OneKind.usetlc (a : Fin 4) (n : BitVec 16) : OneKind.Statement (.usetlc a n) := ⟨fun h => absurd rfl h, fun h => absurd rfl h⟩
theorem OneKind.uloop (a : Fin 4) (target : BitVec 12) : OneKind.Statement (.uloop a target) := ⟨fun h => absurd rfl h, fun h => absurd rfl h⟩
theorem OneKind.anvilCommandComplete (id : Nat) : OneKind.Statement (.anvilCommandComplete id) := ⟨fun h => absurd rfl h, fun h => absurd rfl h⟩
theorem OneKind.loadLand (tag : BitVec 4) : OneKind.Statement (.loadLand tag) := ⟨fun h => absurd rfl h, fun h => absurd rfl h⟩
theorem OneKind.storeAck (seq : Nat) : OneKind.Statement (.storeAck seq) := ⟨fun h => absurd rfl h, fun h => absurd rfl h⟩
theorem OneKind.remoteSignalApply (src : Nat) (sbank : Bool) (jobtag : BitVec 16) (k : BitVec 8) (operand : Word) (pts : BitVec 16) : OneKind.Statement (.remoteSignalApply src sbank jobtag k operand pts) := ⟨fun h => absurd rfl h, fun h => absurd rfl h⟩
theorem OneKind.signalAck (err : Option (BitVec 8)) (k : BitVec 8) (operand : Word) : OneKind.Statement (.signalAck err k operand) := ⟨fun h => absurd rfl h, fun h => absurd rfl h⟩
theorem OneKind.barrierRelease (job : Nat) (die : Nat) (stage : Option (BitVec 4)) (inst : Nat) (pts : BitVec 16) : OneKind.Statement (.barrierRelease job die stage inst pts) := ⟨fun h => absurd rfl h, fun h => absurd rfl h⟩
theorem OneKind.commStepEnd (job : Nat) (stage : Option (BitVec 4)) : OneKind.Statement (.commStepEnd job stage) := ⟨fun h => absurd rfl h, fun h => absurd rfl h⟩
theorem OneKind.jobPlace (job : Nat) : OneKind.Statement (.jobPlace job) := ⟨fun h => absurd rfl h, fun h => absurd rfl h⟩
theorem OneKind.jobRetire (job : Nat) : OneKind.Statement (.jobRetire job) := ⟨fun h => absurd rfl h, fun h => absurd rfl h⟩
theorem OneKind.jobFail (job : Nat) : OneKind.Statement (.jobFail job) := ⟨fun h => absurd rfl h, fun h => absurd rfl h⟩
theorem OneKind.priorityAging (job : Nat) : OneKind.Statement (.priorityAging job) := ⟨fun h => absurd rfl h, fun h => absurd rfl h⟩
theorem OneKind.preempt (job : Nat) : OneKind.Statement (.preempt job) := ⟨fun h => absurd rfl h, fun h => absurd rfl h⟩
theorem OneKind.wrapStep (quarter : BitVec 2) : OneKind.Statement (.wrapStep quarter) := ⟨fun h => absurd rfl h, fun h => absurd rfl h⟩
theorem OneKind.gets (r : CohReq) : OneKind.Statement (.gets r) := ⟨fun h => absurd rfl h, fun h => absurd rfl h⟩
theorem OneKind.getm (r : CohReq) : OneKind.Statement (.getm r) := ⟨fun h => absurd rfl h, fun h => absurd rfl h⟩
theorem OneKind.upg (r : CohReq) : OneKind.Statement (.upg r) := ⟨fun h => absurd rfl h, fun h => absurd rfl h⟩
theorem OneKind.putm (line : Line) (die : Nat) (data : BitVec 1024) : OneKind.Statement (.putm line die data) := ⟨fun h => absurd rfl h, fun h => absurd rfl h⟩
theorem OneKind.puto (line : Line) (die : Nat) (data : BitVec 1024) : OneKind.Statement (.puto line die data) := ⟨fun h => absurd rfl h, fun h => absurd rfl h⟩
theorem OneKind.puts (line : Line) (die : Nat) : OneKind.Statement (.puts line die) := ⟨fun h => absurd rfl h, fun h => absurd rfl h⟩
theorem OneKind.pute (line : Line) (die : Nat) : OneKind.Statement (.pute line die) := ⟨fun h => absurd rfl h, fun h => absurd rfl h⟩
theorem OneKind.forward (line : Line) (die : Nat) (excl : Bool) : OneKind.Statement (.forward line die excl) := ⟨fun h => absurd rfl h, fun h => absurd rfl h⟩
theorem OneKind.invalidate (line : Line) (die : Nat) : OneKind.Statement (.invalidate line die) := ⟨fun h => absurd rfl h, fun h => absurd rfl h⟩
theorem OneKind.invalidationAck (line : Line) (die : Nat) (data : Option (BitVec 1024)) : OneKind.Statement (.invalidationAck line die data) := ⟨fun h => absurd rfl h, fun h => absurd rfl h⟩
theorem OneKind.coherenceData (line : Line) (core : Nat) (grant : Moesi) (data : Option (BitVec 1024)) : OneKind.Statement (.coherenceData line core grant data) := ⟨fun h => absurd rfl h, fun h => absurd rfl h⟩
theorem OneKind.completionNotice (line : Line) : OneKind.Statement (.completionNotice line) := ⟨fun h => absurd rfl h, fun h => absurd rfl h⟩
theorem OneKind.backInvalidate (line : Line) (die : Nat) : OneKind.Statement (.backInvalidate line die) := ⟨fun h => absurd rfl h, fun h => absurd rfl h⟩
theorem OneKind.leaseRenew (line : Line) (core : Nat) : OneKind.Statement (.leaseRenew line core) := ⟨fun h => absurd rfl h, fun h => absurd rfl h⟩
theorem OneKind.leaseWriteThrough (core : Nat) (seq : Nat) : OneKind.Statement (.leaseWriteThrough core seq) := ⟨fun h => absurd rfl h, fun h => absurd rfl h⟩
theorem OneKind.homeAtomic (core : Nat) (seq : Nat) : OneKind.Statement (.homeAtomic core seq) := ⟨fun h => absurd rfl h, fun h => absurd rfl h⟩
theorem OneKind.nameInvalidate (name : Name) (die : Nat) : OneKind.Statement (.nameInvalidate name die) := ⟨fun h => absurd rfl h, fun h => absurd rfl h⟩
theorem OneKind.nameInvalidateAck (name : Name) (die : Nat) : OneKind.Statement (.nameInvalidateAck name die) := ⟨fun h => absurd rfl h, fun h => absurd rfl h⟩
theorem OneKind.hostPageFault (seq : Nat) : OneKind.Statement (.hostPageFault seq) := ⟨fun h => absurd rfl h, fun h => absurd rfl h⟩
theorem OneKind.pageRequestTimeout (pasid : BitVec 20) (page : Nat) : OneKind.Statement (.pageRequestTimeout pasid page) := ⟨fun h => absurd rfl h, fun h => absurd rfl h⟩
theorem OneKind.putPacketApply (p : Packet) : OneKind.Statement (.putPacketApply p) := ⟨fun h => absurd rfl h, fun h => absurd rfl h⟩
theorem OneKind.reducePacketApply (p : Packet) : OneKind.Statement (.reducePacketApply p) := ⟨fun h => absurd rfl h, fun h => absurd rfl h⟩
theorem OneKind.broadcastPacketApply (p : Packet) : OneKind.Statement (.broadcastPacketApply p) := ⟨fun h => absurd rfl h, fun h => absurd rfl h⟩
theorem OneKind.signalPacketApply (p : Packet) : OneKind.Statement (.signalPacketApply p) := ⟨fun h => absurd rfl h, fun h => absurd rfl h⟩
theorem OneKind.quenchDeadline (job : Name) : OneKind.Statement (.quenchDeadline job) := ⟨fun h => absurd rfl h, fun h => absurd rfl h⟩
theorem OneKind.flaconWriteAck (key : Nat) : OneKind.Statement (.flaconWriteAck key) := ⟨fun h => absurd rfl h, fun h => absurd rfl h⟩
theorem OneKind.checkpointDurable (ckpt : Name) : OneKind.Statement (.checkpointDurable ckpt) := ⟨fun h => absurd rfl h, fun h => absurd rfl h⟩
theorem OneKind.journalDurable (mark : Nat) : OneKind.Statement (.journalDurable mark) := ⟨fun h => absurd rfl h, fun h => absurd rfl h⟩
theorem OneKind.notifyReread (q : Fin 64) (tries : Nat) : OneKind.Statement (.notifyReread q tries) := ⟨fun h => absurd rfl h, fun h => absurd rfl h⟩
theorem OneKind.graceTimeExpiry (job : Nat) : OneKind.Statement (.graceTimeExpiry job) := ⟨fun h => absurd rfl h, fun h => absurd rfl h⟩
theorem OneKind.partialCollect (patch : Name) (contributor : Nat) : OneKind.Statement (.partialCollect patch contributor) := ⟨fun h => absurd rfl h, fun h => absurd rfl h⟩
theorem OneKind.qcwConfigure (q : QCode) (v : Word) : OneKind.Statement (.qcwConfigure q v) := ⟨fun h => absurd rfl h, fun h => absurd rfl h⟩
theorem OneKind.qcwEnable (q : QCode) (v : Word) : OneKind.Statement (.qcwEnable q v) := ⟨fun h => absurd rfl h, fun h => absurd rfl h⟩
theorem OneKind.qcwDisable (q : QCode) (v : Word) : OneKind.Statement (.qcwDisable q v) := ⟨fun h => absurd rfl h, fun h => absurd rfl h⟩
theorem OneKind.ksplitWrite (v : Word) : OneKind.Statement (.ksplitWrite v) := ⟨fun h => absurd rfl h, fun h => absurd rfl h⟩
theorem OneKind.ptsTick (untouched : Bool) : OneKind.Statement (.ptsTick untouched) := ⟨fun h => absurd rfl h, fun h => absurd rfl h⟩
theorem OneKind.latePatchWrite (addr : Word) : OneKind.Statement (.latePatchWrite addr) := ⟨fun h => absurd rfl h, fun h => absurd rfl h⟩
theorem OneKind.pageResponse (pasid : BitVec 20) (page : Nat) (ok : Bool) : OneKind.Statement (.pageResponse pasid page ok) := ⟨fun h => absurd rfl h, fun h => absurd rfl h⟩
theorem OneKind.uncorrectableError (addr : Nat) (finder : ErrFinder) : OneKind.Statement (.uncorrectableError addr finder) := ⟨fun h => absurd rfl h, fun h => absurd rfl h⟩
theorem OneKind.errorResponse (code : BitVec 8) (seq : Nat) : OneKind.Statement (.errorResponse code seq) := ⟨fun h => absurd rfl h, fun h => absurd rfl h⟩
theorem OneKind.invalidPacketDiscard (p : Packet) : OneKind.Statement (.invalidPacketDiscard p) := ⟨fun h => absurd rfl h, fun h => absurd rfl h⟩
theorem OneKind.flitRetry (link : Fin 64) (seq : Nat) : OneKind.Statement (.flitRetry link seq) := ⟨fun h => absurd rfl h, fun h => absurd rfl h⟩
theorem OneKind.quenchOrder (job : Name) (now : Bool) : OneKind.Statement (.quenchOrder job now) := ⟨fun h => absurd rfl h, fun h => absurd rfl h⟩
theorem OneKind.sweepDoneMarker (tag : BitVec 16) (link : Fin 64) (chan : Fin 9) : OneKind.Statement (.sweepDoneMarker tag link chan) := ⟨fun h => absurd rfl h, fun h => absurd rfl h⟩
theorem OneKind.saveAreaPacket (p : Packet) : OneKind.Statement (.saveAreaPacket p) := ⟨fun h => absurd rfl h, fun h => absurd rfl h⟩
theorem OneKind.quenchReport (job : Name) (module : BitVec 12) : OneKind.Statement (.quenchReport job module) := ⟨fun h => absurd rfl h, fun h => absurd rfl h⟩
theorem OneKind.latePacket (p : Packet) : OneKind.Statement (.latePacket p) := ⟨fun h => absurd rfl h, fun h => absurd rfl h⟩
theorem OneKind.heldIncrement (tag : BitVec 16) (core : Nat) (k : BitVec 8) : OneKind.Statement (.heldIncrement tag core k) := ⟨fun h => absurd rfl h, fun h => absurd rfl h⟩
theorem OneKind.checkpointSlice (key : Nat) (bytes : List Byte) : OneKind.Statement (.checkpointSlice key bytes) := ⟨fun h => absurd rfl h, fun h => absurd rfl h⟩
theorem OneKind.submissionNotify (v : Word) : OneKind.Statement (.submissionNotify v) := ⟨fun h => absurd rfl h, fun h => absurd rfl h⟩
theorem OneKind.launchQueueDescriptorWrite (q : Fin 64) (bytes : List Byte) : OneKind.Statement (.launchQueueDescriptorWrite q bytes) := ⟨fun h => absurd rfl h, fun h => absurd rfl h⟩
theorem OneKind.flipAcknowledge (id : BitVec 32) : OneKind.Statement (.flipAcknowledge id) := ⟨fun h => absurd rfl h, fun h => absurd rfl h⟩
theorem OneKind.hostMemoryWrite (line : Line) (off : Fin 128) (bytes : List Byte) : OneKind.Statement (.hostMemoryWrite line off bytes) := ⟨fun h => absurd rfl h, fun h => absurd rfl h⟩
theorem OneKind.hostMemoryRead (line : Line) (off : Fin 128) (len : Fin 129) : OneKind.Statement (.hostMemoryRead line off len) := ⟨fun h => absurd rfl h, fun h => absurd rfl h⟩
theorem OneKind.ptsConfigWrite (mask : BitVec 2048) (v : BitVec 16) : OneKind.Statement (.ptsConfigWrite mask v) := ⟨fun h => absurd rfl h, fun h => absurd rfl h⟩
theorem OneKind.jobTagAssign (tag : BitVec 16) (job : Name) : OneKind.Statement (.jobTagAssign tag job) := ⟨fun h => absurd rfl h, fun h => absurd rfl h⟩
theorem OneKind.configWrite (off : Nat) (v : Word) : OneKind.Statement (.configWrite off v) := ⟨fun h => absurd rfl h, fun h => absurd rfl h⟩
theorem OneKind.keyRelease (slot : Fin 128) : OneKind.Statement (.keyRelease slot) := ⟨fun h => absurd rfl h, fun h => absurd rfl h⟩
theorem OneKind.microcodeImageVerify (addr : Nat) (words : Nat) (signature : List Byte) : OneKind.Statement (.microcodeImageVerify addr words signature) := ⟨fun h => absurd rfl h, fun h => absurd rfl h⟩
theorem OneKind.readyMapChange (map : Fin 4) (bit : Fin 64) (up : Bool) : OneKind.Statement (.readyMapChange map bit up) := ⟨fun h => absurd rfl h, fun h => absurd rfl h⟩
theorem OneKind.powerCap (steps : Fin 16) : OneKind.Statement (.powerCap steps) := ⟨fun h => absurd rfl h, fun h => absurd rfl h⟩
theorem OneKind.thermalCap (steps : Fin 16) : OneKind.Statement (.thermalCap steps) := ⟨fun h => absurd rfl h, fun h => absurd rfl h⟩
theorem OneKind.hostSnoop (line : Line) : OneKind.Statement (.hostSnoop line) := ⟨fun h => absurd rfl h, fun h => absurd rfl h⟩
theorem OneKind.launchRecordWrite (q : Fin 64) (slot : Nat) (bytes : List Byte) : OneKind.Statement (.launchRecordWrite q slot bytes) := ⟨fun h => absurd rfl h, fun h => absurd rfl h⟩
theorem OneKind.keyPolicyLoad (digest : BitVec 512) : OneKind.Statement (.keyPolicyLoad digest) := ⟨fun h => absurd rfl h, fun h => absurd rfl h⟩
theorem OneKind.endw : OneKind.Statement .endw := ⟨fun h => absurd rfl h, fun _ => rfl⟩
theorem OneKind.nopw : OneKind.Statement .nopw := ⟨fun h => absurd rfl h, fun _ => rfl⟩
theorem OneKind.dup : OneKind.Statement .dup := ⟨fun h => absurd rfl h, fun _ => rfl⟩
theorem OneKind.drop : OneKind.Statement .drop := ⟨fun h => absurd rfl h, fun _ => rfl⟩
theorem OneKind.swap : OneKind.Statement .swap := ⟨fun h => absurd rfl h, fun _ => rfl⟩
theorem OneKind.over : OneKind.Statement .over := ⟨fun h => absurd rfl h, fun _ => rfl⟩
theorem OneKind.callw : OneKind.Statement .callw := ⟨fun h => absurd rfl h, fun _ => rfl⟩
theorem OneKind.retw : OneKind.Statement .retw := ⟨fun h => absurd rfl h, fun _ => rfl⟩
theorem OneKind.lstat : OneKind.Statement .lstat := ⟨fun h => absurd rfl h, fun _ => rfl⟩
theorem OneKind.swapp : OneKind.Statement .swapp := ⟨fun h => absurd rfl h, fun _ => rfl⟩
theorem OneKind.tpad : OneKind.Statement .tpad := ⟨fun h => absurd rfl h, fun _ => rfl⟩
theorem OneKind.lcopy : OneKind.Statement .lcopy := ⟨fun h => absurd rfl h, fun _ => rfl⟩
theorem OneKind.sload : OneKind.Statement .sload := ⟨fun h => absurd rfl h, fun _ => rfl⟩
theorem OneKind.sstore : OneKind.Statement .sstore := ⟨fun h => absurd rfl h, fun _ => rfl⟩
theorem OneKind.tree : OneKind.Statement .tree := ⟨fun h => absurd rfl h, fun _ => rfl⟩
theorem OneKind.cslot : OneKind.Statement .cslot := ⟨fun h => absurd rfl h, fun _ => rfl⟩
theorem OneKind.cput : OneKind.Statement .cput := ⟨fun h => absurd rfl h, fun _ => rfl⟩
theorem OneKind.cbcast : OneKind.Statement .cbcast := ⟨fun h => absurd rfl h, fun _ => rfl⟩
theorem OneKind.uend : OneKind.Statement .uend := ⟨fun h => absurd rfl h, fun h => absurd rfl h⟩
theorem OneKind.ulstat : OneKind.Statement .ulstat := ⟨fun h => absurd rfl h, fun h => absurd rfl h⟩
theorem OneKind.uswapp : OneKind.Statement .uswapp := ⟨fun h => absurd rfl h, fun h => absurd rfl h⟩
theorem OneKind.ustripe : OneKind.Statement .ustripe := ⟨fun h => absurd rfl h, fun h => absurd rfl h⟩
theorem OneKind.entryStart : OneKind.Statement .entryStart := ⟨fun h => absurd rfl h, fun h => absurd rfl h⟩
theorem OneKind.entryComplete : OneKind.Statement .entryComplete := ⟨fun h => absurd rfl h, fun h => absurd rfl h⟩
theorem OneKind.impreciseTrapDeliver : OneKind.Statement .impreciseTrapDeliver := ⟨fun h => absurd rfl h, fun h => absurd rfl h⟩
theorem OneKind.arithmeticTrap : OneKind.Statement .arithmeticTrap := ⟨fun h => absurd rfl h, fun h => absurd rfl h⟩
theorem OneKind.slotOverrun : OneKind.Statement .slotOverrun := ⟨fun h => absurd rfl h, fun h => absurd rfl h⟩
theorem OneKind.overlayLoad : OneKind.Statement .overlayLoad := ⟨fun h => absurd rfl h, fun h => absurd rfl h⟩
theorem OneKind.bankReturn : OneKind.Statement .bankReturn := ⟨fun h => absurd rfl h, fun h => absurd rfl h⟩
theorem OneKind.idleWake : OneKind.Statement .idleWake := ⟨fun h => absurd rfl h, fun h => absurd rfl h⟩
theorem OneKind.eventLogClear : OneKind.Statement .eventLogClear := ⟨fun h => absurd rfl h, fun h => absurd rfl h⟩
theorem OneKind.spdmGetMeasurements : OneKind.Statement .spdmGetMeasurements := ⟨fun h => absurd rfl h, fun h => absurd rfl h⟩
theorem OneKind.coldBoot : OneKind.Statement .coldBoot := ⟨fun h => absurd rfl h, fun h => absurd rfl h⟩
theorem OneKind.thermalShutdown : OneKind.Statement .thermalShutdown := ⟨fun h => absurd rfl h, fun h => absurd rfl h⟩
theorem OneKind.lossOfPower : OneKind.Statement .lossOfPower := ⟨fun h => absurd rfl h, fun h => absurd rfl h⟩
theorem OneKind.baseHomeReport : OneKind.Statement .baseHomeReport := ⟨fun h => absurd rfl h, fun h => absurd rfl h⟩
theorem OneKind.hostTlbInvalidateAck : OneKind.Statement .hostTlbInvalidateAck := ⟨fun h => absurd rfl h, fun h => absurd rfl h⟩

end Sys2Proof.Laws
end

