-- ==== Sys2Proof/Tests/Slice0.lean ====
section
/-!
SUPPORT. The model's own tests: a term that each well-formedness check refuses, words of the spec decoded, values from the spec's worked
examples, and for every statement with hypotheses a small state and operands that meet them.
-/
namespace Sys2Proof.Machine

set_option Elab.async false

/-! ## Small states -/

/-- A header with nothing in it. -/
def h0 : Hdr := { guard := 0, pd := 0, usA := 0, usB := 0 }

/-- A word that is in the table of needs has all that it needs to issue. -/
def goes (i : Instr) (s : State) : Bool :=
  match needOf i with
  | none => false
  | some n => match s.classify n none with
    | .go => true
    | .stall | .ask _ | .off | .fault _ => false

/-- The state in which a word has issued. -/
def issued (i : Instr) (s : State) : State :=
  match needOf i with
  | none => s
  | some n => s.advance n none

/-- An answer is given and satisfies a condition. -/
def okAnd {α ε : Type} (x : Except ε α) (p : α → Bool) : Bool :=
  match x with
  | .ok a => p a
  | .error _ => false

/-- The first part of an answer with a state is given, and it and the state satisfy a condition. -/
def okThen {α ε σ : Type} (x : Except ε α × σ) (p : α → σ → Bool) : Bool := okAnd x.1 (fun a => p a x.2)

/-- What an answer gives satisfies a condition. -/
def someAnd {α : Type} (x : Option α) (p : α → Bool) : Bool :=
  match x with
  | some a => p a
  | none => false

/-- The n bytes lie in the window. -/
def inside (a n : Nat) : Bool := decide (a < 0x400000) && decide (a + n ≤ 0x400000)

/-- Something is absent. -/
def absent {α : Type} (x : Option α) : Bool := x.isNone

/-- What `storeMeets` asks of a store into the patch of a register, for the pieces that translation gives. -/
def meets (t : State) (p : Fin 4) (n : Name) (a : Word) (v ms : List Byte) (ty : Fmt) : Bool :=
  okAnd (t.translate t.bank 1 a (v.length * t.laneStep p ty / Fmt.laneBytes ty)) (fun l => allPatched l && t.bank.p[p] == some n
    && absent ((t.patch n).bind (fun x => x.twin)) && ms.all (fun k => k == 0 || k == 0xFF) && !t.tooLate n
    && okAnd (t.checkWrite n false (contributor t.focus.core t.focus.bank) (fun i => locAt l (a.toNat + i)) a (marked v ms) ty)
      (fun _ => true))

/-- A segment of one die, four units long. -/
def segAt (vbase pbase : Nat) (kind : BitVec 2) (lease : Bool) : Seg :=
  { vbase := vbase, len := 4, pbase := pbase, kind := kind, lease := lease, cls := 0, policy := 1, dlo := 0, dhi := 0, keyid := 0, perm := 15
    hostVisible := false, devBias := false }

/-- A PATCHED segment at 2^32. -/
def segP : Seg := segAt 2048 0 0 false
/-- A CELL segment at 2^32 + 2^24. -/
def segC : Seg := segAt 2056 8 1 false
/-- A leased CELL segment at 2^32 + 2^25. -/
def segL : Seg := segAt 2064 16 1 true

/-- A name of the test module. -/
def nameOf (count : Nat) (cls : BitVec 8) : Name := Name.make 1 0 count cls

/-- Two tensors, two that are twins of one another, and others. -/
def tnA : Name := nameOf 1 Cls.tensor
def tnB : Name := nameOf 2 Cls.tensor
def tnX : Name := nameOf 3 Cls.tensor
def tnY : Name := nameOf 4 Cls.tensor
def pnOpen : Name := nameOf 5 Cls.patch
def pnShared : Name := nameOf 6 Cls.patch
def pnP : Name := nameOf 7 Cls.patch
def pnQ : Name := nameOf 8 Cls.patch
def pnGone : Name := nameOf 9 Cls.patch
def jnA : Name := nameOf 10 Cls.job
def anA : Name := nameOf 11 Cls.aliasName
def mnA : Name := nameOf 12 Cls.microcode
def cnA : Name := nameOf 13 Cls.checkpoint
def tnGone : Name := nameOf 14 Cls.tensor
def anB : Name := nameOf 15 Cls.aliasName

/-- A tensor of 4 rows of 64 elements in the PATCHED segment, its base at a unit of the segment. -/
def tensorAt (unit : Nat) (fmt : Fmt) (twin : Name) : Tensor :=
  { desc := 0x101000000 + 64 * unit, descLoc := segC.loc (0x101000000 + 64 * unit), base := 0x100000000 + 0x1000 * unit, rows := 4, cols := 64
    pitch := 256, fmt := fmt, group := 0, autosquash := false, pre := false, paired := twin != 0, pad := 0, aux := 0, auxpitch := 0
    twin := twin, seg := segP }

/-- An entry of the home table. -/
def entOf (n : Name) (b : Binding) : NameEnt := { name := n, bind := b, keyid := 0, job := some 0, resolvers := [], pts := 0 }

/-- A patch of one base. -/
def patchOf (n base : Name) (st : PState) (shared : Bool) (delta : Option Fmt) (payload : Sparse Byte) (deltas : Sparse (BitVec 32)) (no : Nat) :
    Patch :=
  { name := n, delta := delta, shared := shared, preFlag := false, state := st, opener := 0, job := 0
    half := { base := base, payload := payload, deltas := deltas, pre := none, sealNo := no }, twin := none, partials := [], twinPartials := [], sealer := none
    awaits := [], collected := [], inverseOf := none, neg := false, pts := 0, inexact := false, foldinx := false }

/-- The scalar registers of the test bank: addresses of the three segments and of local memory, and small numbers. -/
def regsA : Vector Word 64 :=
  ((((((((Vector.replicate 64 (0 : Word)).set 5 0x101000000).set 6 0x100000000).set 7 0x1000).set 8 0x102000000).set 9 3).set 10 0x100).set 11 1).set
    12 0x101000100

/-- The name registers of the test bank. -/
def namesA : Vector Name 16 :=
  (((((((((((((Vector.replicate 16 (0 : Name)).set 1 tnA).set 2 tnB).set 3 tnX).set 4 tnY).set 5 pnOpen).set 6 pnShared).set 7 pnP).set 8 pnQ).set
    9 pnGone).set 10 jnA).set 11 anA).set 12 mnA).set 13 cnA

/-- The local memory of the test core: a port's descriptor at 0x1000. -/
def memA : List Host.Cell := [(0x1008, 1), (0x100A, 1), (0x100C, 1), (0x100E, 1)]

/-- The first bytes of the CELL segment: a descriptor (R190) of 4 rows of 64 elements of f32 at 2^32. -/
def hbmA : List Host.Cell := [(0x800004, 1), (0x800008, 4), (0x80000C, 64), (0x800011, 1), (0x800018, 10)]

/-- A privileged bank whose job is running, with three segments, some names, one open patch in p0 and two sealed ones. -/
def ready : State :=
  { State.reset.fetchReady with
    ident := 1
    homeMap := [(1, 0)]
    moduleNo := 0
    mark := 100
    hbm := hbmA
    table := [entOf tnA (.tensor (tensorAt 0 .f32 0)), entOf tnB (.tensor (tensorAt 1 .f32 0)), entOf tnX (.tensor (tensorAt 2 .f32 tnY)),
      entOf tnY (.tensor (tensorAt 3 .f32 tnX)), entOf pnOpen .patch, entOf pnShared .patch, entOf pnP .patch, entOf pnQ .patch,
      entOf jnA (.job 0), entOf anA (.aliasTo tnA)]
    patches := [patchOf pnOpen tnA .opened false none [(64, 5)] [] 0, patchOf pnShared tnB .opened true (some .f32) [] [] 0,
      patchOf pnP tnA .sealed false (some .f32) [] [(0, 0x3F800000)] 1, patchOf pnQ tnA .sealed false (some .f32) [] [(32, 0x3F800000)] 2]
    chains := [{ lo := 0, nd := 1, sec := 0, names := [pnP] }, { lo := 0, nd := 1, sec := 1, names := [pnQ] }]
    seals := [(tnA, 2)] }.modCore 0 (fun c => { c with mem := memA }.modBank false (fun b =>
      { b with s := regsA, n := namesA, p := b.p.set 0 (some pnOpen), segs := [(0, segP), (1, segC), (2, segL)], lqgrant := 0xFFFFFFFFFFFFFFFF }))

/-- The test module with its job under a PASID. -/
def paged : State := { ready with jobs := [{ fetchJob with pasid := some 3 }] }

/-- The bank of the test core with a change. -/
def State.tweak (s : State) (f : Bank → Bank) : State := s.modBankAt 0 false f
/-- The test core with a change. -/
def State.tweakCore (s : State) (f : Core → Core) : State := s.modCore 0 f

/-- The test bank with a shared ADD patch of tnB in p1. -/
def sharedState : State := ready.tweak (fun b => { b with p := b.p.set 1 (some pnShared), s := b.s.set 6 0x100001000 })

/-! ## Every statement about a word that needs only its issue: the word can issue -/

/-- IntegerArithmeticCompletes, BitWordsComplete, SelectionAndConstantsComplete, ScalarFloatCompletes. -/
theorem test_scalar_words_can_issue : ([
    .add h0 .i64 (.s 1) (.s 5) (.imm 1), .sub h0 .i32 (.s 1) (.s 5) (.reg (.s 6)), .mul h0 .i64 (.s 1) (.s 5) (.imm 1),
    .mulh h0 .i64 (.s 1) (.s 5) (.imm 1), .div h0 .i64 (.s 1) (.s 5) (.imm 0), .rem h0 .n8 (.s 1) (.s 5) (.imm 0),
    .min h0 .i64 (.s 1) (.s 5) (.imm 1), .max h0 .i64 (.aq 1) (.s 5) (.imm 1), .and h0 (.s 1) (.s 5) (.imm 1), .or h0 (.s 1) (.s 5) (.imm 1),
    .xor h0 (.s 1) (.s 5) (.imm 1), .andn h0 (.s 1) (.s 5) (.imm 1), .shl h0 (.s 1) (.s 5) (.imm 1), .shr h0 (.s 1) (.s 5) (.imm 1),
    .sar h0 (.s 1) (.s 5) (.imm 1), .rot h0 (.s 1) (.s 5) (.imm 1), .clz h0 (.s 1) (.s 5), .popc h0 (.s 1) .cycle,
    .sel h0 (.s 1) (.c 1) (.s 5) (.s 6), .cmp h0 .i64 1 (.s 5) (.imm 1) .lt, .movi h0 (.s 1) .zero 5 0, .lea h0 (.s 1) (.off (.s 5) 4),
    .cand h0 1 (.c 1) .zero, .cor h0 1 (.c 1) (.c 2), .cxor h0 1 (.c 1) (.c 2), .nop h0, .rotset h0 31 7,
    .fadd h0 .f32 (.s 1) (.s 5) (.imm 1), .fmul h0 .f32 (.s 1) (.s 5) (.imm 1), .ffma h0 .f16 (.s 1) (.s 5) (.s 6) .zero,
    .fcvt h0 .f32 .i32 (.s 1) (.s 5), .fcmp h0 .f32 1 (.s 5) (.imm 1) .un, .fmin h0 .f32 (.s 1) (.s 5) (.imm 1),
    .fmax h0 .bf16 (.s 1) (.s 5) (.imm 1), .ftolog h0 .l8 .f32 (.s 1) (.s 5) .zero, .ffromlog h0 .f32 .l8 (.s 1) (.s 5) .zero
    ] : List Instr).all (fun i => goes i ready) = true := by decide +kernel

/-- VectorArithmeticCompletes, VectorBitsAndComparesComplete, VectorConversionsComplete, ReductionsAndLaneMovementComplete, MaskWordsComplete. -/
theorem test_vector_words_can_issue : ([
    .vadd h0 .i32 (.v 1) (.v 2) (.reg .lane), .vsub h0 .f32 (.v 1) (.v 2) (.imm 1), .vmul h0 .i32 (.v 1) (.v 2) (.imm 1),
    .vmin h0 .i32 (.v 1) (.v 2) (.imm 1), .vmax h0 .i32 (.v 1) (.v 2) (.imm 1), .vfma h0 .f32 (.v 1) (.v 2) (.v 3) (.v 4),
    .vrcp h0 .f32 (.v 1) (.v 2), .vrsq h0 .f32 (.v 1) (.v 2), .vexp2 h0 .f32 (.v 1) (.v 2), .vlog2 h0 .f32 (.v 1) (.v 2),
    .vand h0 .i32 (.v 33) (.v 40) (.imm 1), .vor h0 .i32 (.v 1) (.v 2) (.imm 1), .vxor h0 .i32 (.v 1) (.v 2) (.imm 1),
    .vshl h0 .i32 (.v 1) (.v 2) (.imm 1), .vshr h0 .i32 (.v 1) (.v 2) (.imm 1), .vsar h0 .i32 (.v 1) (.v 2) (.imm 1),
    .vcmp h0 .i32 9 (.v 2) (.imm 1) .lt, .vsel h0 .i32 (.v 1) (.m 1) (.v 2) (.v 3), .vcvt h0 .f32 .i32 (.v 1) (.v 2),
    .vtolog h0 .l8 .f32 (.v 1) (.v 2) (.v 3), .vfromlog h0 .f32 .l8 (.v 1) (.v 2) (.v 3), .vqnt h0 .h8 .f32 (.v 1) (.v 2) (.v 3),
    .vdqnt h0 .f32 .h8 (.v 1) (.v 2) (.v 3), .vbscale h0 .f32 .l8 (.v 1) (.v 2), .vord h0 .f32 (.v 1) (.v 2),
    .vredadd h0 .f32 (.v 1) (.v 2), .vredmax h0 .i8 (.v 1) (.v 2), .vredmin h0 .i8 (.v 1) (.v 2), .vscan h0 .i8 (.v 1) (.v 2) 0,
    .vhist h0 .n16 (.v 1) (.v 2) (.imm 12), .vcmprs h0 .i8 (.v 1) (.v 2), .vperm h0 .i8 (.v 1) (.v 2) (.v 3),
    .vslide h0 .i8 (.v 1) (.v 2) (.imm 1) true, .vbcast h0 .i8 (.v 1) (.s 5), .vext h0 .i8 (.s 1) (.v 2) (.imm 1),
    .vins h0 .i8 1 (.s 5) (.imm 1), .viota h0 .i8 (.v 1) (.s 5), .mand h0 1 (.m 1) (.m 2), .mor h0 1 (.m 1) .zero, .mxor h0 1 (.m 1) (.m 9),
    .mnot h0 1 (.m 1), .mpop h0 .i8 (.s 1) (.m 1), .mfirst h0 .i8 (.s 1) (.m 1)
    ] : List Instr).all (fun i => goes i ready) = true := by decide +kernel

/-- VectorConversionsComplete: the headers that the half-step words use have their reserved bits zero. -/
theorem test_headers_are_clear :
    ([.vqnt h0 .h8 .f32 (.v 1) (.v 2) (.v 3), .vdqnt h0 .f32 .h8 (.v 1) (.v 2) (.v 3)] : List Instr).all (fun i =>
      (List.range 64).all (fun j => lane .n32 (issued i ready) (.v 3) (j / 32) / 2 ^ 24 == 0)) = true := by decide +kernel

/-! ## Local memory and CSRs -/

/-- LocalAccessesAndPortsComplete: an address whose bytes lie in the window, also the last such one; a port's descriptor in memory. -/
theorem test_local_words_complete :
    (let m : MemOp := .off (.s 7) 0
     let top : MemOp := .off .zero 0xFF00
     let fits (i : Instr) (m : MemOp) (n k : Nat) : Bool := goes i ready && inside ((issued i ready).readAddr m).1.toNat n
       && ((issued i ready).readAddr m).1.toNat % k == 0
     fits (.ld h0 .i32 (.s 1) m 1) m 4 1 && fits (.st h0 .i64 m (.s 5)) m 8 1 && fits (.vld h0 .i32 (.v 1) m 1) m 256 32
       && fits (.vst h0 .i32 m (.v 1)) m 256 32
       && !fits (.st h0 .i64 top (.s 5)) top 8 1
       && goes (.vgath h0 .i32 (.v 1) (.s 7) (.v 2) 2 1) ready && goes (.vscat h0 .i32 (.s 7) (.v 2) 2 (.v 3)) ready
       && absent (gatherFault 4 (gatherAddrs .i32 (ready.readS (.s 7)).1 (ready.vec .i32 (.v 2)) 2 (ready.bank.guardMask h0)))
       && !ready.cur.streamWaits false 0x1000 32 && !ready.cur.portBusy false
       && goes (.portcfg h0 8 (.s 7)) ready && absent (Port.check (ready.localNat 0x1000 32) 0x1000)) = true := by decide +kernel

/-- CsrWordsComplete. -/
theorem test_csr_words_complete :
    (goes (.csrr h0 (.s 1) 0x20) ready && (ready.csr 0 false 0x20).isSome && goes (.csrw h0 0 (.s 9)) ready
      && (match csrWrite 0 3 ready with
        | .ok _ => true
        | .stall | .fault _ => false)) = true := by decide +kernel

/-! ## Global memory, atomics, patches and names -/

/-- GlobalLoadsAndStoresComplete: a load of CELL data, of a patched view, a whole vector; a store to CELL data and into the open patch p0. -/
theorem test_global_words_complete :
    (let o : LdMod := .mmc plainMmc
     let at_ (i : Instr) (m : MemOp) : Word := ((issued i ready).readAddr m).1
     let u (i : Instr) (m : MemOp) : State := ((issued i ready).readAddr m).2
     let load (i : Instr) (m : MemOp) (n : Nat) (o : LdMod) : Bool := goes i ready && okAnd ((u i m).loadCheck (at_ i m) n o) (fun _ => true)
     let cell : MemOp := .off (.s 5) 0x100
     let row : MemOp := .off (.s 6) 0
     let view : LdMod := .asof (.n 7)
     let v := ((issued (.stg h0 .bf16 row (.s 9) (.patch 1)) sharedState).readAddr row).2
     load (.ldg h0 .i32 (.s 1) cell o 1) cell 4 o && load (.ldg h0 .f32 (.s 1) row view 1) row 4 view
       && load (.vldg h0 .i32 (.v 1) cell o 1) cell 256 o && (at_ (.vldg h0 .i32 (.v 1) cell o 1) cell).toNat % 32 == 0
       && goes (.stg h0 .i32 cell (.s 9) (.mmc plainMmc)) ready
       && okAnd ((u (.stg h0 .i32 cell (.s 9) (.mmc plainMmc)) cell).translate ready.bank 1 0x101000100 4) nonePatched
       && goes (.vstg h0 .i32 cell (.v 1) (.mmc plainMmc)) ready && okAnd (ready.translate ready.bank 1 0x101000100 256) nonePatched
       && goes (.stg h0 .f32 row (.s 9) (.patch 0)) ready && goes (.vstg h0 .f32 row (.v 1) (.patch 0)) ready
       && goes (.stg h0 .bf16 row (.s 9) (.patch 1)) sharedState && goes (.vstg h0 .f32 row (.v 1) (.patch 1)) sharedState
       && v.laneType 1 .bf16 == .f32 && meets v 1 pnShared 0x100001000 (leBytes 4 3) (List.replicate 4 0xFF) .f32
       && meets v 1 pnShared 0x100001000 (leBytes 256 3) (List.replicate 256 0xFF) .f32) = true := by decide +kernel

/-- CacheWordsComplete. -/
theorem test_cache_words_complete :
    (let m : MemOp := .off (.s 5) 0
     let far : Word := 0x8000000000000000
     let seg (l : List Piece) : Bool := someAnd (l.head?.bind (fun p => p.seg)) (fun g => g.allows 0)
     goes (.prefg h0 m true) ready && goes (.cpin h0 (.s 1) m 1) ready && goes (.cunpin h0 m) ready && goes (.cwb h0 m false) ready
       && goes (.cinv h0 m true) ready && spaceOf ((issued (.cwb h0 m false) ready).readAddr m).1 == .device
       && someAnd (ready.bank.segOf 0x101000000) (fun g => g.allows 0)
       && spaceOf far == .host && absent (ready.bank.segOf far.toNat)
       && okAnd ((paged).translate paged.bank 0 far 1) (fun l => absent (l.head?.bind (fun p => p.seg)))
       && okAnd (ready.bank.pieces 0 1 0x101000000 0x101000001) seg && okAnd (ready.translate ready.bank 0 0x101000000 1) seg) = true := by
  decide +kernel

/-- AtomicsAndPatchAtomicsComplete, on CELL targets. -/
theorem test_atomics_complete :
    (let m : MemOp := .off (.s 5) 0x100
     let x := plainMmc
     let at_ (i : Instr) : Word := ((issued i ready).readAddr m).1
     let fits (n : Nat) : Bool := okAnd (ready.translate ready.bank 2 0x101000100 n) (fun l => !l.isEmpty && nonePatched l
       && someAnd (l.head?.bind (fun p => p.seg)) (fun g => !g.patched))
     ([.aadd h0 .i32 m (.s 9) (.mmc x) 1, .amin h0 .i32 m (.s 9) x 0, .amax h0 .i32 m (.s 9) x 0, .aand h0 .i32 m (.s 9) x 0,
       .aor h0 .i32 m (.s 9) x 0, .axor h0 .i32 m (.s 9) x 0, .axchg h0 .i32 m (.s 9) x 1, .acas h0 .i32 9 m (.s 9) 1,
       .adcas h0 .n64 5 (.s 5) (.s 12) 8 1, .amove h0 .i32 (.s 1) (.s 5) (.s 12) 1, .aradd h0 .i32 (.s 5) 0x100 false (.v 2) (.mmc x) 1,
       .armax h0 .i32 (.s 5) 0x200 true (.v 2) (.mmc x) 0] : List Instr).all (fun i => goes i ready)
       && at_ (.aadd h0 .i32 m (.s 9) (.mmc x) 1) == 0x101000100 && fits 4 && fits 8 && fits 256
       && okAnd (ready.translate ready.bank 2 0x101000200 512) nonePatched) = true := by decide +kernel

/-- AtomicsAndPatchAtomicsComplete, on the tensor of a shared patch. -/
theorem test_patch_atomics_complete :
    (let m : MemOp := .off (.s 6) 0
     let i : Instr := .aadd h0 .f32 m (.s 9) (.patch 1) 1
     let w := ((issued i sharedState).readAddr m).2
     let row : Instr := .aradd h0 .f32 (.s 6) 0 false (.v 2) (.patch 1) 1
     let r := ((issued row sharedState).readS (.s 6)).2.advancePorts [.v 2]
     goes i sharedState && goes row sharedState && goes (.armax h0 .f32 (.s 6) 0 false (.v 2) (.patch 1) 0) sharedState
       && okAnd (w.translate w.bank 2 0x100001000 4) (fun l => !l.isEmpty
            && okAnd (w.atomicPatch 1 l 0x100001000) (fun n => n == pnShared
              && absent (w.atomicCheck n l 0x100001000 ((leBytes 4 3).map some) .f32)))
       && okAnd (r.translate r.bank 2 0x100001000 256) (fun l => !l.isEmpty
            && okAnd (r.atomicPatch 1 l 0x100001000) (fun n => n == pnShared
              && absent (r.atomicCheck n l 0x100001000 (rowBytes .f32 false 0 0 (rowActive .f32 false (r.bank.guardMask h0))) .f32)))
       && meets w 1 pnShared 0x100001000 (leBytes 4 3) (List.replicate 4 0xFF) .f32 && w.laneType 1 .bf16 == .f32) = true := by decide +kernel

/-- PatchesOpenSealAndAbort: each opening word, a seal of the opener's patch, of a shared patch, and both forms of an abort. -/
theorem test_patches_open_close :
    (let ok (t : State) (n : Name) (k : Option Fmt) : Bool := okThen (t.asTensor n) (fun x u => (u.patchPerm [x]).isNone && kindAllowed x.fmt k)
     let pb : Instr := .pbegin h0 1 (.n 1) .repl
     let pp : Instr := .ppair h0 1 (.n 3) (.n 4) (.add .f32)
     let pj : Instr := .pjoin h0 1 (.n 6)
     let mine (t : State) (p : Fin 4) : Bool := someAnd ((t.bank.readP (.p p)).bind t.patch) (fun p =>
       (t.patchPerm ((t.sides p).map (fun z => z.t))).isNone && (t.sides p).head?.isSome && p.sealer.isNone)
     let ps := issued (.pseal h0 (.p 0)) ready
     let p0 := patchOf pnOpen tnA .opened false none [(64, 5)] [] 0
     let sh := issued (.pseal h0 (.p 1)) sharedState
     goes pb ready && ok (issued pb ready) tnA none && (issued pb ready).bank.p[1].isNone
       && goes pp ready && ok (issued pp ready) tnX (some .f32) && ok (issued pp ready) tnY (some .f32)
       && okThen ((issued pp ready).asTensor tnX) (fun x _ => x.paired && x.twin == tnY)
       && goes pj ready && okThen ((issued pj ready).asPatch pnShared) (fun p u => (u.patchPerm ((u.sides p).map (fun z => z.t))).isNone
            && (u.sides p).head?.isSome && p.shared && p.sealer.isNone && p.state == .opened && !u.bank.p.toList.contains (some pnShared))
       && goes (.pseal h0 (.p 0)) ready && mine ps 0 && !ps.chainWaits (ps.sealLines (ps.sides p0.rounded.1))
       && !ps.sealWaits (ps.sides p0.rounded.1) && (ps.sealPatch p0.rounded.1 0).isSome
       && goes (.pseal h0 (.p 1)) sharedState && mine sh 1 && sh.cur.outstanding false == 0
       && goes (.pabort h0 (.p 0)) ready && mine (issued (.pabort h0 (.p 0)) ready) 0) = true := by decide +kernel

/-- ChainWordsComplete: every word on the two sealed patches of tnA; the word of a dead patch. -/
theorem test_chain_words_complete :
    (let asP (t : State) (n : Name) (p : Patch → State → Bool) : Bool := okThen (t.asPatch n) (fun q u =>
       (u.patchPerm ((u.sides q).map (fun z => z.t))).isNone && (u.sides q).head?.isSome && q.sealer.isNone && p q u)
     let cm : Instr := .pcomm h0 (.n 7) (.n 8)
     let iv : Instr := .pinv h0 0 (.n 7)
     let sq : Instr := .psquash h0 (.n 1) (.n 8) true
     let dr : Instr := .pdrop h0 (.n 7)
     let qu : Instr := .pquery h0 (.s 1) (.n 7) 1
     let gn : Instr := .pquery h0 (.s 1) (.n 9) 1
     let xp (mv : Bool) : Instr := .pxpl h0 0 (.n 7) (.n 2) .zero mv
     goes cm ready && asP (issued cm ready) pnP (fun p u => asP u pnQ (fun q v => p.state == .sealed && q.state == .sealed
          && !v.chainWaits [] && !(v.sidePairs p q).isEmpty
          && (firstSome (fun (z : Side × Side) => firstSome (v.commClash z.1 z.2 p q) (shared z.1 z.2)) (v.sidePairs p q)).isNone))
       && goes iv ready && asP (issued iv ready) pnP (fun p u => !u.chainWaits (u.sealLines (u.sides p)) && !u.sealWaits (u.sides p)
            && (u.invClash p).isNone && !u.stuckFull (u.sides p))
       && goes sq ready && okThen ((issued sq ready).asTensor tnA) (fun x u => asP u pnQ (fun p v => someAnd (p.on tnA) (fun half =>
            (v.patchPerm [x]).isNone && !v.shardBusy tnA && absent (v.foldClash (v.upTo tnA half.sealNo))
            && !v.chainWaits (((v.upTo tnA half.sealNo).flatMap v.sides).flatMap (fun y => y.t.linesOf y.sectors))
            && (firstSome (fun (y : Side) => firstSome (v.splits y ((v.upTo tnA half.sealNo).map (fun q => q.name))) y.units)
              ((v.upTo tnA half.sealNo).flatMap v.sides)).isNone)))
       && goes dr ready && asP (issued dr ready) pnP (fun p u => p.state == .sealed && (u.notHead p).isNone
            && !u.chainWaits ((u.sides p).flatMap (fun y => y.t.linesOf y.sectors)))
       && goes qu ready && asP ((issued qu ready).resolve 0 pnP).2.2 pnP (fun _ _ => true)
       && (match ((issued qu ready).resolve 0 pnP).1 with
            | .live _ => true
            | .gone | .fault _ => false)
       && goes gn ready && Name.cls pnGone == Cls.patch
       && (match ((issued gn ready).resolve 0 pnGone).1 with
            | .gone => true
            | .live _ | .fault _ => false)
       && [false, true].all (fun mv => goes (xp mv) ready && asP (issued (xp mv) ready) pnP (fun p u =>
            okThen (u.asTensor tnB) (fun x v => someAnd (v.sides p).head? (fun y => someAnd (p.half.moved y.t x tnB 0 0) (fun half =>
              let sides : List Side := [{ base := tnB, t := x, h := half }]
              (v.patchPerm [x]).isNone && p.state == .sealed && p.twin.isNone && (v.inverse p.name).isNone && p.inverseOf.isNone
                && (v.fixed p y).isNone && kindAllowed x.fmt p.delta && p.delta.isSome && colFits x 0
                && !v.chainWaits (v.sealLines sides ++ y.t.linesOf y.sectors) && !v.sealWaits sides && !v.stuckFull sides)))))) = true := by
  decide +kernel

/-- NameWordsAndMovesComplete: a tensor from the descriptor in memory, a segment, an alias; a death; an alias and a name resolved; a
compare-and-swap; moves with local memory and with CELL memory. -/
theorem test_name_words_complete :
    (let live (r : Except TrapInfo NameEnt × Nat × State) : Bool := okAnd r.1 (fun _ => true)
     let nt := ((issued (.nnew h0 0 (.tensor (.s 5))) ready).readS (.s 5)).2
     let lm : MemOp := .off (.s 7) 0
     let cm : MemOp := .off (.s 5) 0x100
     let rs (n : Name) : Resolved := (ready.resolve 0 n).1
     goes (.nnew h0 0 (.tensor (.s 5))) ready
       && okAnd (nt.bank.pieces 0 1 0x101000000 0x101000040) (fun l => someAnd (l.head?.bind (fun p => p.seg)) (fun g =>
            !g.patched && !nt.pendingOn (g.loc 0x101000000) 64 && someAnd (nt.latest g 0x101000000 64) (fun r =>
              (r.2.bank.tensorOf 0x101000000 (g.loc 0x101000000) r.1).isSome)))
       && goes (.nnew h0 0 (.cellseg (.s 5))) ready && ready.bank.cellBase 0x101000000
       && goes (.nnew h0 0 (.aliasName (.n 1))) ready && live (ready.resolveAs 0 [Cls.tensor] tnA)
       && goes (.ndest h0 (.n 3)) ready && okAnd (ready.resolveAs 0 [Cls.tensor, Cls.cellseg, Cls.aliasName] tnX).1 (fun e =>
            e.keyid == ready.keyId ready.bank && (ready.nameEnt tnX).isSome && !(ready.patchesOf tnX).any (fun p => p.state == .opened))
       && goes (.nres h0 0 (.n 11) 1) ready && (match rs anA with
            | .live e => e.bind == .aliasTo tnA
            | .gone | .fault _ => false)
       && goes (.nres h0 0 (.n 1) 1) ready && (match rs tnA with
            | .live e => e.bind == .tensor (tensorAt 0 .f32 0)
            | .gone | .fault _ => false)
       && goes (.nres h0 0 (.n 9) 1) ready && (match rs pnGone with
            | .gone => true
            | .live _ | .fault _ => false)
       && goes (.ncas h0 1 (.n 11) (.n 1) (.n 2) 1) ready && live (ready.resolveAs 0 [Cls.aliasName] anA) && Name.formed tnB
       && ([.nmov h0 (.nn 0 (.n 1)), .nmov h0 (.np 0 (.p 0)), .nmov h0 (.ns 0 5), .nmov h0 (.sn 5 (.n 1)), .nmov h0 (.h 0 (.n 1)),
            .nmov h0 (.ld 0 lm plainMmc), .nmov h0 (.ld 0 cm plainMmc), .nmov h0 (.st lm (.n 1) plainMmc), .nmov h0 (.st cm (.n 1) plainMmc),
            .ncmp h0 1 (.n 1) .zero] : List Instr).all (fun i => goes i ready)
       && !ready.cur.streamWaits false 0x1000 16 && !plainMmc.row && !plainMmc.opn
       && okAnd (ready.nameTarget 0 0x101000100) (fun _ => true) && okAnd (ready.nameTarget 1 0x101000100) (fun _ => true)) = true := by
  decide +kernel

/-! ## Control flow, synchronisation, launches, communication steps, queues and XM pairs -/

/-- The test bank in a trap handler. -/
def inHandler : State := ready.tweak (fun b => { b with trap := { b.trap with act := true, rpc := 7 } })
/-- The test core with three units in each semaphore. -/
def withUnits : State := ready.tweakCore (fun c => { c with sems := Vector.replicate 256 3 })

/-- ControlFlowCompletes: an offset forwards and backwards, a comparison that holds and one that does not, a count that ends and one that
does not. -/
theorem test_control_flow_completes :
    (([.br h0 5, .brc h0 .i64 .zero (.s 11) .lt 5, .brc h0 .i64 .zero (.s 11) .gt 5, .jmpi h0 (.s 9), .ret h0 (.s 9), .call h0 (.s 1) 5,
      .loop h0 9 0xFFFB, .loop h0 11 0xFFFB, .trap h0 0] : List Instr).all (fun i => goes i ready)
      && goes (.rett h0) inHandler && (issued (.rett h0) inHandler).bank.trap.act && (issued (.rett h0) inHandler).bank.trap.rpc.toNat ≤ 26213
      && (branchTarget (ready.tweak (fun b => { b with pc := 9 })).bank.pc 0xFFFB).toNat ≤ 26213
      && (branchTarget 0 5).toNat ≤ 26213 && (ready.bank.getS 11 - 1 == 0) && (ready.bank.getS 9 - 1 != 0)
      && goes (.loop h0 9 0xFFFB) (ready.tweak (fun b => { b with pc := 9 }))
      && compareInt .lt (readInt .i64 0) (readInt .i64 1) && !compareInt .gt (readInt .i64 0) (readInt .i64 1)
      && (issued (.brc h0 .i64 .zero (.s 11) .gt 5) ready).bank.pc.toNat ≤ 26213) = true := by decide +kernel

/-- SynchronisationCompletes. -/
theorem test_synchronisation_completes :
    (let due (s : State) : Bool := absent ((if s.bank.trap.act then s else s.reportTouch).deliverDue)
     let bar := ready.advance (Need.of h0).local none
     let ex := issued (.exit h0) ready
     goes (.swait h0 200) withUnits && withUnits.cur.ownsSem false 200 && withUnits.cur.sem 200 != 0
       && goes (.ssig h0 255 none) ready && ready.cur.sem 255 != 0xFFFF && goes (.ssig h0 255 (some (.s 11))) ready
       && (1 &&& ~~~(0x8FFF07FF : Word)) == 0 && goes (.sset h0 0 (.s 9)) ready && goes (.sread h0 (.s 1) 0 1) ready
       && goes (.fence h0 4) ready && goes (.yield h0) ready
       && (match ready.classify (Need.of h0).local none with
            | .go => true
            | .stall | .ask _ | .off | .fault _ => false)
       && due ready && bar.bank.loadsLanded && bar.cur.outstanding false == 0 && !bar.bank.stopAtBar
       && goes (.exit h0) ready && ex.bank.loadsLanded && !ex.cur.localBusy false
       && ex.bank.queuesDone (ex.bank.trailer.last || ex.nextOverlay.isNone)) = true := by decide +kernel

/-- LaunchAndCommunicationStepComplete: a record and a schedule of zeros at 0x2000. -/
theorem test_launch_and_step_complete :
    (let m : MemOp := .off (.s 7) 0x1000
     let s := { ready with lqueues := ready.lqueues.set 0 { ready.lqueues[0] with depth := 4 } }
     let t := issued (.launch h0 m) s
     let u := (t.readAddr m).2
     let d := u.localBytes 0x2000 128
     let w := ready.tweak (fun b => { b with stepReady := true })
     let k := (issued (.comm h0 m) w).localNat 0x2000 16
     goes (.launch h0 m) s && (t.readAddr m).1.toNat == 0x2000 && !recordInvalid d && (LaunchRec.parse d).lq.val == 0
       && absent (u.predFault (.parse d)) && !u.queueFull 0 && u.cur.outstanding false == 0
       && goes (.comm h0 m) w && (issued (.comm h0 m) w).bank.stepReady && absent (issued (.comm h0 m) w).cur.coll.sched
       && !(issued (.comm h0 m) w).cur.localBusy false
       && bits k 127 46 == 0 && bits k 43 43 == 0 && bits k 45 44 != 3 && bits k 42 32 ≤ 1024) = true := by decide +kernel

/-- QueueWordsComplete: an enabled queue with room, an entry in bq0, an empty bq1. -/
theorem test_queue_words_complete :
    (let s := ready.tweak (fun b => { (b.setQueue .copy0 { Queue.reset with en := true }) with bq := b.bq.set 0 [5] })
     let m : MemOp := .off (.s 7) 0
     let pop (q : Fin 4) : Instr := .qpop h0 (.s 1) q 1
     let t (q : Fin 4) : State := (issued (pop q) s).allocate ((issued (pop q) s).newTag 1 [SDst.rdst (.s 1)] .i64 0 0 2)
     ([.eqpush h0 .copy0 m, .eqpushv h0 .copy0 (.v 1), .fpush h0 (.s 9), .qpush h0 0 (.s 9), pop 0, pop 1, .eqstat h0 (.s 1) .coll,
       .qstat h0 (.s 1) 8, .estat h0 (.s 1) .copy] : List Instr).all (fun i => goes i s)
       && (s.bank.queue .copy0).en && (s.bank.queue .copy0).count ≤ (s.bank.queue .copy0).depthm1 && inside 0x1000 (s.bank.queue .copy0).esz
       && !s.cur.streamWaits false 0x1000 16
       && s.cur.fq.length < 16 && (t 0).bank.bq[0] == [5] && !(t 0).bank.qpops.any (fun p => p.2 == 0) && (t 1).bank.bq[1] == []) = true := by
  decide +kernel

/-- The word of an instruction. -/
def wordOf (i : Instr) : Word80 :=
  match encode i with
  | some (_, w) => BitVec.ofNat 80 w
  | none => 0

/-- XmPairsCompleteAndIllegalWordsTrap: a pair with ADD, and a word of class 6 for the vector unit. -/
theorem test_xm_pairs_complete :
    (let x : XmMod := { neg := 4, abs := 0, sat := true, clen := true, clo := 9, chi := 5, scen := false, k := 0, rmen := false, rm := 0, usC := 0, usD := 0 }
     let i : Instr := .add h0 .i64 (.s 1) (.s 5) (.imm 1)
     let s := ready.tweak (fun b => { b with istore := [(1, wordOf i)] })
     let w := s.bank.word 1
     let n := (Need.of h0).s (.s 5) |>.sb (.imm 1) |>.ds (.s 1) 1 |>.div false
     let none_ := (Need.of (Fields.ofWord (0x11 : Word80)).hdr)
     decode80 w == i && (Fields.ofWord w).pd == 0 && XmMod.fits x .i64 2 && (xmPair (0, x) (decode80 w)).isSome
       && (match s.classify n (some (0, x)) with
            | .go => true
            | .stall | .ask _ | .off | .fault _ => false)
       && ready.bank.earliest none_ none ≤ ready.cycle && !ready.bank.tagWait none_ none) = true := by decide +kernel

/-! ## The system class -/

/-- With no home holding a line and nothing on its way, no line is busy. -/
theorem anyBusy_quiet {s : State} (h1 : s.slices = []) (h2 : s.flights = []) (h3 : s.blankSlice.busy = []) (l : List Line) :
    s.anyBusy l = false := by
  simp [State.anyBusy, State.homeSlice, State.sliceOf, State.slice, Slice.isBusy, Sparse.find, h1, h2, h3]

/-- A list of one entry, repeated, that passes after any number of itself. -/
theorem firstBad_replicate {check : List Seg → List Byte → Option (BitVec 8)} {d : List Byte}
    (h : ∀ n, check (List.replicate n (Seg.parse d)) d = none) (k n i : Nat) :
    firstBad check (List.replicate n (Seg.parse d)) i (List.replicate k d) = none := by
  induction k generalizing n i with
  | zero => rfl
  | succ k ih =>
    rw [List.replicate_succ, firstBad, h]
    simpa [List.replicate_succ'] using ih (n + 1) (i + 1)

/-- A table of one unused entry, repeated, breaks no rule (R344). -/
theorem segFault_unused {d : List Byte} (h1 : (Seg.parse d).len = 0) (h2 : (Seg.parse d).kind = 0)
    (h3 : (Seg.parse d).badFields d = false) (s : State) (part : Option (BitVec 4)) (k : Nat) :
    s.segFault part [] 0 (List.replicate k d) = none := by
  refine firstBad_replicate (n := 0) (fun n => ?_) k 0
  have ho : (List.replicate n (Seg.parse d)).any (Seg.parse d).overlaps = false := by simp [Seg.overlaps, h1]
  simp only [State.segCode, h3, ho, h2]
  cases part <;> simp [State.outside, h1]

/-- The entries of a table of zeros. -/
theorem segEntries_zeros : segEntries (List.replicate 32768 0) = List.replicate 1024 (List.replicate 32 0) := by
  refine List.eq_replicate_iff.mpr ⟨by rw [segEntries, List.length_map, List.length_range], fun x hx => ?_⟩
  obtain ⟨i, hi, rfl⟩ := List.mem_map.mp hx
  have := List.mem_range.mp hi
  rw [List.drop_replicate, List.take_replicate]
  congr 1
  omega

/-- Memory with nothing in it reads as zeros. -/
theorem homeBytes_empty {s : State} (h1 : s.slices = []) (h2 : s.hbm = []) (h3 : s.blankSlice.lines = []) (l : Loc) (n : Nat) :
    s.homeBytes l n = List.replicate n 0 := by
  refine List.eq_replicate_iff.mpr ⟨by simp [State.homeBytes], fun x hx => ?_⟩
  obtain ⟨i, -, rfl⟩ := List.mem_map.mp hx
  simp [State.homeByte, State.homeSlice, State.sliceOf, State.slice, Slice.line, Sparse.find, h1, h3, State.hbmByte, h2, Memory.read, Memory.unlisted]

/-- SystemWordsComplete: SEGLD, on a table of zeros. -/
theorem test_segment_table_loads :
    let s := { ready with hbm := [] }
    let m : MemOp := .off (.s 8) 0
    let u := ((s.advance ((Need.of h0).addr m |>.privileged |>.globalMem) none).readAddr m).2
    let l : List Piece := [{ addr := 0x102000000, len := 32768, seg := some segL }]
    (goes (.segld h0 m) s && (issued (.segld h0 m) s).bank.getS 8 == 0x102000000 && u.bank.queuesEmpty) = true
    ∧ okAnd (u.translate u.bank 0 0x102000000 32768) (fun x => x == l) = true ∧ u.anyBusy (l.flatMap Piece.lines) = false
    ∧ u.readPieces u.focus.core none l = (some (List.replicate 32768 0), u)
    ∧ u.segFault (some (u.die (dieOf u.focus.core)).part) [] 0 (segEntries (List.replicate 32768 0)) = none := by
  refine ⟨by decide +kernel, by decide +kernel, anyBusy_quiet rfl rfl rfl _, ?_, by rw [segEntries_zeros]; exact segFault_unused (by decide +kernel) (by decide +kernel) (by decide +kernel) _ _ _⟩
  have h : ∀ s : State, ∀ l n, s.slices = [] → s.hbm = [] → s.blankSlice.lines = [] → s.homeBytes l n = List.replicate n 0 :=
    fun s l n a b c => homeBytes_empty a b c l n
  simp only [State.readPieces, segL, segAt, ↓reduceIte, List.append_nil]
  rw [h] <;> rfl

/-- A name that is in no cache and in the home table is live. -/
theorem resolveAs_at_home {s : State} {core : Nat} {n : Name} {cls : List (BitVec 8)} {e : NameEnt} (h1 : (s.core core).names = [])
    (h2 : (s.die (dieOf core)).names = [])
    (h3 : (n != 0 && Name.formed n && s.homeMap.any (fun p => p.1 == Name.ident n) && !s.aboveMark n && cls.contains (Name.cls n)) = true)
    (h4 : s.nameEnt n = some e) : (s.resolveAs core cls n).1 = .ok e := by
  simp only [Bool.and_eq_true, Bool.not_eq_true', bne_iff_ne, ne_eq] at h3
  obtain ⟨⟨⟨⟨a, b⟩, c⟩, d⟩, k⟩ := h3
  simp only [State.resolveAs, State.resolve, State.resolveHome, h1, h2, h4, a, b, c, d, k, List.contains_nil, Bool.not_true, Bool.false_eq_true,
    ↓reduceIte]

/-- A digest of eight bytes of zeros, whatever the algorithm gives for them. -/
def digestA : BitVec 512 := Config.sha3_512 (List.replicate 8 0)

/-- The module with one name, of a microcode image of one word of zeros. -/
def microState : State := { ready with hbm := [], table := [entOf mnA (.microcode 0 1 digestA)] }

/-- SystemWordsComplete: UCLOAD. -/
theorem test_microcode_loads :
    goes (.ucload h0 (.n 12)) microState = true
    ∧ (microState.resolveAs 0 [Cls.microcode] mnA).1 = .ok (entOf mnA (.microcode 0 1 digestA))
    ∧ Config.sha3_512 ((microState.resolveAs 0 [Cls.microcode] mnA).2.2.microWords 0 1) = digestA
    ∧ (microState.resolveAs 0 [Cls.microcode] mnA).2.2.cur.anvil.cur.bind (fun n => n.layer) = none := by
  refine ⟨by decide +kernel, resolveAs_at_home (by decide +kernel) (by decide +kernel) (by decide +kernel) ?_, congrArg Config.sha3_512 ?_, ?_⟩
  · have h : microState.awayHome mnA = none := by decide +kernel
    rw [State.nameEnt, h]
    simp [microState, entOf]
  · decide +kernel
  · decide +kernel

/-- SystemWordsComplete: the other words. -/
theorem test_system_words_complete :
    (let s := ready.tweak (fun b => { b with s := b.s.set 9 3 |>.set 20 (2 ^ 63) })
     let keyed : State := { s with sec := { s.sec with keys := [3] } }
     let stopped := s.modBankAt 0 true (fun b => { b with job := some 0, status := .idle })
     ([.seginv h0 (.s 9), .htlbinv h0 (.s 9) (.s 5) true, .partset h0 .zero .zero, .banksw h0, .idle h0, .halt h0] : List Instr).all
         (fun i => goes i s)
       && s.bank.queuesEmpty && goes (.keybind h0 (.s 9) (.s 20)) keyed && goes (.keybind h0 (.s 9) (.s 11)) keyed
       && ((2 ^ 63 : Word).extractLsb' 4 59 == 0) && (2 ^ 63 : Word).getLsbD 63 && keyed.sec.keys.contains 3
       && !keyed.loadedSegs.any (fun g => g.2.keyid.toNat == 3) && !keyed.sec.bound.any (fun p => p.1 == 3 && p.2 != 1)
       && !s.loadedSegs.any (fun g => g.1 != 0 && g.2.len != 0 && g.2.dieList.any ([] : List Nat).contains)
       && goes (.banksw h0) stopped && (stopped.bankAt 0 true).job.isSome && (stopped.bankAt 0 true).status == .idle
       && (s.bankAt 0 true).job.isNone) = true := by decide +kernel

/-- The test bank with its CELL segment host-visible, and page lengths in s20. -/
def visible : State :=
  ready.tweak (fun b => { b with segs := [(1, { segC with hostVisible := true }), (2, segL)], s := b.s.set 20 0x1000 })

/-- BanksAndBiasComplete: BIASFLIP of one page, in device bias already or not. -/
theorem test_bias_flip_completes :
    (let key (t : State) : List Nat := [0x101000000].filterMap t.bank.visiblePage
     let there (t : State) (dev : Bool) : Bool := (key t).all (fun k => t.bias.any (fun z => pageKey z.1 z.2.1 z.2.2.1 == k && z.2.2.2 == dev))
     let g : Seg := { segC with hostVisible := true }
     let s := { visible with bias := [(g.dies.1, g.dies.2, (g.loc 0x101000000).page, true)] }
     goes (.biasflip h0 (.s 5) (.s 20) true) s && (key s).length == 1 && there s true && !there s false && s.flip.isNone) = true := by
  decide +kernel

/-- The test core with its other bank stopped and at rest. -/
def stopped : State :=
  { ready with hbm := [(0x1000000, 0x42), (0x1000001, 0x41), (0x1000002, 0x4E), (0x1000003, 0x4B), (0x1000004, 1)]
               dies := Vector.replicate 32 { Die.reset 0 with featmask := 0 } }.modBankAt 0 true
    (fun b => { b with job := some 0, status := .quenched, stopEng := true })

/-- BanksAndBiasComplete: BANKSAVE of the bank at rest. -/
theorem test_bank_save_completes :
    let m : MemOp := .off (.s 8) 0
    let u := ((stopped.advance ((Need.of h0).addr m |>.privileged |>.globalMem) none).readAddr m).2
    let l : List Piece := [{ addr := 0x102000000, len := 0x100200, seg := some segL }]
    (goes (.banksave h0 true m) stopped && okAnd (stopped.saveCheck true 0x102000000) (fun x => x == l)
      && okAnd (u.saveCheck true 0x102000000) (fun x => x == l) && (stopped.cur.bank true).stopEng && (u.cur.bank true).stopEng
      && u.bankQuiet 0 true true) = true
    ∧ u.anyBusy (l.flatMap Piece.lines) = false :=
  ⟨by decide +kernel, anyBusy_quiet rfl rfl rfl _⟩

/-- BanksAndBiasComplete: BANKLOAD of an image with nothing but its header, into the empty bank. -/
theorem test_bank_load_completes :
    let m : MemOp := .off (.s 8) 0
    let s := stopped.modBankAt 0 true (fun b => { b with job := none })
    let u := ((s.advance ((Need.of h0).addr m |>.privileged |>.globalMem) none).readAddr m).2
    let piece (n : Nat) : List Piece := [{ addr := 0x102000000, len := n, seg := some segL }]
    let at_ : Loc := segL.loc 0x102000000
    let hd := u.homeBytes at_ 64
    let img := u.homeBytes at_ 0x100200
    (goes (.bankload h0 true m) s && (u.cur.bank true).job.isNone && okAnd (u.imageExtent 0 0x102000000 64) (fun x => x == piece 64)
      && field hd 32 4 == 0 && okAnd (u.imageExtent 0 0x102000000 0x100200) (fun x => x == piece 0x100200) && field hd 0 4 == 0x4B4E4142
      && field hd 4 4 == 1 && field hd 42 22 == 0 && covers (u.die 0).featmask (BitVec.ofNat 64 (field hd 24 8))) = true
    ∧ (∀ n, u.anyBusy ((piece n).flatMap Piece.lines) = false)
    ∧ u.readPieces 0 none (piece 64) = (some hd, u) ∧ u.readPieces 0 none (piece 0x100200) = (some img, u)
    ∧ runsOverlap (imageRuns img) u.bank.runs = false ∧ u.cur.hasRoom (u.loadedBank hd img (extentKey (piece 0x100200))) = true := by
  have h (u : State) (n : Nat) : u.readPieces 0 none [{ addr := 0x102000000, len := n, seg := some segL }]
      = (some (u.homeBytes (segL.loc 0x102000000) n), u) := by
    simp only [State.readPieces, segL, segAt, ↓reduceIte, List.append_nil]
  have room (u : State) (hd img : List Byte) (k : Nat) (h1 : u.savedBanks = []) (h2 : u.cur.fq = []) :
      u.cur.hasRoom (u.loadedBank hd img k) = true := by
    have h j st := (reread_blank_fits img j st).1
    simp only [Core.hasRoom, State.loadedBank, h1, h2, List.find?_nil, Option.getD_none, List.length_nil, Nat.zero_add, Bool.and_eq_true,
      Bool.or_eq_true, decide_eq_true_eq, h, Option.isNone_none, true_or, and_true]
    exact (reread_blank_fits img _ _).2
  exact ⟨by decide +kernel, fun _ => anyBusy_quiet rfl rfl rfl _, h _ _, h _ _, rfl, room _ _ _ _ rfl rfl⟩

/-- A durable checkpoint of the test job, and one that is being gathered for it. -/
def ckptOf (n prev : Name) (durable : Bool) : Ckpt :=
  { name := n, prev := prev, job := 0, step := 2, marks := [], names := [], persist := [], pcs := [], dirty := [], patches := [], chains := []
    sems := [], arrived := [], durable := durable, pendingAcks := 0 }

/-- The record of a quench of the test job. -/
def recordOf (state : BitVec 8) (absent : List (BitVec 12)) : ResumeRec :=
  { tag := 1, job := jnA, banks := [], savearea := 0, state := state, nbank := 0, npkt := 0, step := 0, images := 0, held := 0, heldIncs := []
    absent := absent, remote := false }

/-- The test module with its job under a name and in a state. -/
def named (j : Job → Job) : State :=
  { ready with jobs := [j { fetchJob with name := jnA }], ready := ready.ready.set 0 0xFFFFFFFF, dies := Vector.replicate 32 { Die.reset 0 with featmask := 0 } }

/-- QuenchAndCheckpointWordsComplete. -/
theorem test_quench_and_checkpoint_complete :
    (let isJob (r : Except TrapInfo NameEnt × Nat × State) : Bool := okAnd r.1 (fun e => e.bind == .job 0)
     let run := named id
     let saved := { named (fun j => { j with id := 1, state := .quenched }) with resume := [recordOf 1 []] }
     let q := (saved.resolveAs 0 [Cls.job] jnA).2.2
     let at_ := { run.tweak (fun b => { b with stepReady := true, s := b.s.set 20 2 }) with ckpts := [ckptOf 0 jnA false] }
     let arrive : Instr := .ckpt h0 10 (.s 20) 5
     let w := ((((issued arrive at_).readS (.s 20)).2).resolveAs 0 [Cls.job, Cls.checkpoint] jnA)
     let old := { run with ckpts := [ckptOf cnA jnA true], resume := [recordOf 3 []] }
     goes (.quench h0 (.n 10) true) run && isJob (run.resolveAs 0 [Cls.job] jnA)
       && someAnd (run.job 0) (fun j => j.state == .running && !run.resume.any (fun r => r.job == jnA && r.state != 0))
       && goes (.qresume h0 (.n 10)) saved && isJob (saved.resolveAs 0 [Cls.job] jnA)
       && someAnd (q.resume.find? (fun r => r.job == jnA)) (fun r => absent (q.resumeDetail (some r) jnA)
            && someAnd (q.jobs.find? (fun j => j.name == jnA)) (fun j => someAnd (q.fit j (q.holding []) []) (fun p => q.roomFor r p.2)))
       && (q.otherModules jnA).isEmpty
       && goes arrive at_ && (issued arrive at_).bank.stepReady && isJob w
       && someAnd (w.2.2.bank.job.bind w.2.2.job) (fun j => j.ckptArg == jnA && absent j.lastCkpt)
       && w.2.2.cur.ownsSem false 5
       && someAnd (w.2.2.ckpts.find? (fun c => c.job == 0 && c.name == 0)) (fun c => c.prev == jnA && c.step == 2)
       && (issued arrive at_).bank.getS 20 == 2
       && goes (.ckres h0 13) old && Name.formed cnA && Name.cls cnA == Cls.checkpoint
       && someAnd (old.ckpts.find? (fun c => c.name == cnA)) (fun c => (old.job c.job).isSome)
       && someAnd (old.resume.find? (fun r => r.job == jnA)) (fun r => r.state == (3 : BitVec 8))) = true := by decide +kernel

/-! ## Engine words -/

/-- The entry that an engine of the test core has in progress. -/
def entryA (q : QCode) : Entry := Entry.begin false q 0 1 0 none

/-- A state in which the condition of a word is met by the entry in progress. -/
def engOk (e : Eng) (n : Entry) (s : State) (cond : Entry → State → Bool) : Bool :=
  let t := { s with focus := { core := 0, bank := false, eng := some e } }.modCore 0 (fun c => c.setEngine e { c.engine e with cur := some n })
  t.engine.cur == some n && cond n (wordState t)

/-- EngineStackWordsComplete at the edges of the stack's room. -/
theorem test_stack_words_complete :
    (let n := entryA .anvil
     let full (k : Nat) : Entry := { n with pstack := List.replicate k 1 }
     engOk .anvil (full 7) ready (fun m _ => m.pstack.length < 8) && engOk .anvil (full 8) ready (fun m _ => m.pstack.tail.length < 8)
       && engOk .anvil (full 7) ready (fun m _ => m.pstack.tail.length < 7) && engOk .anvil (full 8) ready (fun m _ => m.pstack.tail.tail.length < 7)
       && engOk .anvil (full 7) ready (fun m _ => m.pstack.tail.tail.length < 6)) = true := by decide +kernel

/-- EngineFlowSignalsAndIllegalWords. -/
theorem test_engine_flow_words_complete :
    (let s := (ready.tweakCore (fun c => { c with sems := Vector.replicate 256 3 })).tweak (fun b => { b with aq := b.aq.set 0 [5] })
     let n := { entryA .copy0 with pstack := [0x3FFFFE], rstack := [.entry 1, .entry 1, .entry 1] }
     let waiting := s.tweak (fun b => { b with qpops := [(1, 0)] })
     let bank (m : Entry) (t : State) : Bank := t.bankAt t.focus.core m.bank
     engOk .copy n s (fun m t => m.pstack.length < 8 && (bank m t).aq[0] == [5])
       && engOk .copy n s (fun m t => (bank m t).bq[0].length < 8 && ((bank m t).qpops.find? (fun x => x.2 == 0)).isNone)
       && engOk .copy n waiting (fun m t => (bank m t).qpops.any (fun x => x.2 == 0))
       && engOk .copy n s (fun m _ => (match m.pstack with
            | x :: _ => x.toNat % 2 == 0 && x.toNat < 0x400000
            | [] => false) && m.rstack.length < 4)
       && engOk .copy n s (fun m t => t.cur.ownsSem m.bank 255 && t.cur.sem 255 != 0)
       && engOk .copy n s (fun m t => t.cur.ownsSem m.bank 255 && t.cur.engDone t.engCode && t.cur.forked m && (t.cur.incSem 255 t.cur.pts true).isSome)
       && engOk .anvil (entryA .anvil) s (fun _ _ => true)) = true := by decide +kernel

/-- The format word of L8 data on L8 weights to f32, and the test module's Anvil with such a plane. -/
def fmtA : BitVec 32 := 0xCCA00000
/-- The test core with that format word queued, and with all features. -/
def anvilState : State :=
  ({ ready with dies := Vector.replicate 32 { Die.reset 0 with featmask := 0x7F1F } }.tweakCore (fun c => { c with fq := [(fmtA, false)] })).tweak
    (fun b => { b with anvil := { b.anvil with stat := { rcd := some (.l8, .l8, false), weights := [] } } })

/-- A tile command on its way: it has read all that it wants. -/
def cmdA (kind : AnvilKind) (want : List (Nat × Nat)) : AnvilCmd :=
  { AnvilCmd.new (entryA .anvil) kind 0 9 0 with id := 4, word := fmtA, want := want }

/-- TileCommandsComplete and EngineEventsComplete: commands that complete, one whose format word is none, and one whose sector's memory bank is
taken by another. -/
theorem test_tile_commands_land :
    (let s (k : AnvilCmd) : State := anvilState.tweakCore (fun c => { c with cmds := [k] })
     let held (k : AnvilCmd) (t : State) : Bool := t.cur.cmds.find? (fun c => c.id == k.id) == some k
     let bad : AnvilCmd := { cmdA .lstat [] with word := 0xFFFFFFFF }
     let late := (s (cmdA .lstat [(0x1000, 32)])).tweakCore (fun c => { c with grants := [{ who := 0, no := 0, block := 0x60 }] })
     [AnvilKind.lstat, .zacc 0, .go 3, .drain 1].all (fun k => held (cmdA k []) (s (cmdA k [])) && (cmdA k []).want.isEmpty)
       && (FmtWord.of fmtA).isSome && held bad (s bad) && absent (FmtWord.of bad.word)
       && held (cmdA .lstat [(0x1000, 32)]) late && !late.cur.mayTake (Eng.readGrant .anvil 0x1000)) = true := by decide +kernel

/-- AnvilRegisterWordsComplete, TileCommandsComplete and LayerWordsComplete. -/
theorem test_anvil_words_complete :
    (let n := { entryA .anvil with pstack := [0xFFFF80000000, 0xFFFF] }
     let u : Entry := { n with layer := some (0, 5) }
     let s := anvilState
     let named := s.tweakCore (fun c => { c with ucodeName := some mnA })
     engOk .anvil n s (fun m _ => match m.pstack with
         | y :: x :: _ => 1 ≤ x.toNat && x.toNat ≤ 65535 && decide (-(2 ^ 31 : Int) ≤ y.toInt) && decide (y.toInt < 2 ^ 31)
         | _ => false)
       && engOk .anvil u s (fun m t => m.layer.isSome && t.cur.cmds.isEmpty && !t.cur.ksplit && (anvilOf m t).lc[0] - 1 != 0)
       && engOk .anvil u (s.tweak (fun b => { b with anvil := { b.anvil with lc := b.anvil.lc.set 1 1 } }))
            (fun m t => (anvilOf m t).lc[1] - 1 == 0)
       && engOk .anvil n named (fun m t => t.cur.ucodeName.isSome && m.layer.isNone)
       && engOk .anvil { n with pstack := [4095] } named (fun m t => t.cur.ucodeName.isSome && m.pstack == [4095])
       && engOk .anvil n s (fun m t =>
            let x := anvilOf m t
            let got (f : FmtWord) : List (Nat × List Byte) :=
              (sectorsOf (f.checked x.b[4].toNat)).map (fun y => (y.1, t.cur.anvilBytes t.cur.cmdNo y.1 y.2))
            let img (f : FmtWord) : List Byte :=
              List.replicate (64 * f.tp) (0 : Byte) ++ srcBytes (got f) (x.b[4].toNat + 64 * f.tp) (f.tile - 64 * f.tp)
            let fits (f : FmtWord) (p : Int × Int) : Bool := p.1 % 32 == 0 && decide (0 ≤ p.1) && inside p.1.toNat (f.kp * f.a.width / 8)
              && p.2 % 2 == 0 && decide (0 ≤ p.2) && inside p.2.toNat (f.kp / 16)
            someAnd (t.cur.fq.head?.bind (fun y => FmtWord.of y.1)) (fun f => f.featured (t.die 0).featmask && t.cur.cmds.isEmpty
              && !f.sparse && x.b[4].toNat % 32 == 0 && inside x.b[4].toNat f.tile && !f.badHeader (img f) && t.cur.forked m
              && x.stat.rcd == some (f.a, f.b, f.sparse) && x.rows == 1 && ((List.range x.rows).map x.streamAt).all (fits f)
              && x.b[5].toNat % 32 == 0 && inside x.b[5].toNat (x.rows * (8 * f.o.width)) && !f.o.isLog))) = true := by decide +kernel

/-- The test module with all features, a patch of a pair, and names in the slots of its bank: a tensor, an open patch, the pair's
patch, a tensor with rows 512 bytes apart. -/
def tileState : State :=
  { ready with
    dies := Vector.replicate 32 { Die.reset 0 with featmask := 0x7F1F }
    table := ready.table ++ [entOf pnGone .patch, entOf tnGone (.tensor { tensorAt 5 .f32 0 with pitch := 512 })]
    patches := ready.patches ++ [{ patchOf pnGone tnX .opened false none [] [] 0 with
      twin := some { base := tnY, payload := [], deltas := [], pre := none, sealNo := 0 } }] }.tweak
    (fun b => { b with h := (((b.h.set 0 tnA).set 1 pnOpen).set 2 pnGone).set 3 tnGone })

/-- The sectors of ranges that are all zeros, as an entry keeps them once it has read them. -/
def hadRead (l : List (Nat × Nat)) : List (Nat × List Byte) := (sectorsOf l).map (fun x => (x.1, List.replicate x.2 0))

/-- What `EngReads` asks of the turn in which a word's last sectors are there, from the state in which it reads them. -/
def readAll (n : Entry) (v : State) (ranges : List (Nat × Nat)) (fits : (Nat → Nat → List Byte) → State → Bool) : Bool :=
  let l := unread (sectorsOf ranges) n.src
  let r := v.cur.readSome v.engCode n.bank v.free l
  (unread l r.1).isEmpty && fits (srcBytes (n.src ++ r.1)) ((v.skip l.length).setCore v.focus.core r.2)

/-- An entry with a tile of 4 rows and 32 columns at a local address, deepest first. -/
def tileEntry : Entry := { entryA .copy0 with pstack := [0x2000, 0x2000000000, 0x400000000], src := hadRead [(0x2000, 512)] }

/-- TileAndTransposingWordsComplete. -/
theorem test_tile_words_complete :
    (let q := TileReq.of 0x400000000 0x2000000000
     let named (n : Entry) (s : State) (slot : Fin 16) (cs : List (BitVec 8)) (p : Name → State → Bool) : Bool :=
       !s.cur.copyWaits n && okThen (s.slotName n slot cs) p
     let read (n : Entry) (u : State) (x : Tensor) (p : Tensor → State → Bool) : Bool :=
       !u.anyBusy [Loc.line x.descLoc] && okAnd ((u.fetchDesc x).reread (u.bankAt 0 n.bank) x) (fun t => p t (u.fetchDesc x))
     let fits (t : Tensor) (v : State) (size : Nat) : Bool := (q.fault t 0x2000).isNone && !v.cur.engTouches .copy 0x2000 size
     let runs (n : Entry) (t : Tensor) (v : State) : Bool := okAnd (v.translateAll (v.bankAt 0 n.bank) 0
       ((q.runs t (BitVec.ofNat 4 (n.padCode t))).map (fun r => (r.2.addr, r.2.len)))) (fun _ => true)
     engOk .copy tileEntry tileState (fun n s => n.pstack == ([0x400000000, 0x2000000000, 0x2000] : List StackWord).reverse
       && named n s 0 [Cls.tensor, Cls.patch] (fun x u => someAnd (u.tensorOfName x) (fun b => read n u b.2 (fun t v =>
            fits t v (tileBytes t.fmt t.group 4 32) && runs n t v
            && (s.die 0).featmask.getLsbD 4 && !t.fmt.isHalfStep && !t.fmt.isLog && q.aligned t
            && (localFault 0x2000 (tileBytes t.fmt t.group 32 4)).isNone && !v.cur.engTouches .copy 0x2000 (tileBytes t.fmt t.group 32 4))))
       && named n s 1 [Cls.patch] (fun x u => someAnd (u.patch x) (fun p => p.state == .opened && p.twin.isNone
            && someAnd (u.tensor p.half.base) (fun b => read n u b (fun t v => fits t v (tileBytes t.fmt t.group 4 32)
              && readAll n v [(0x2000, 512)] (fun get w =>
                   okAnd (w.tileStores { n with pstack := [] } p.name false q t (get 0x2000 512)) (fun _ => true))))))
       && named n s 2 [Cls.patch] (fun x u => someAnd (u.patch x) (fun p => p.state == .opened && someAnd p.twin (fun hw =>
            someAnd (u.tensor p.half.base) (fun b => read n u b (fun t v => someAnd (v.tensor hw.base) (fun w =>
              !t.fmt.isHalfStep && fits t v (tileBytes t.fmt t.group 4 32) && q.flip.aligned w
              && readAll n v [(0x2000, 512)] (fun get z =>
                   okAnd (z.tileStores { n with pstack := [] } p.name false q t (get 0x2000 512)) (fun _ => true)
                   && okAnd (z.tileStores { n with pstack := [] } p.name true q.flip { w with rows := 4, cols := 4 }
                     (transposeTile t.fmt 4 32 (q.rowIn t) (get 0x2000 512)).1) (fun _ => true)))))))))) = true := by decide +kernel

/-- StagingGatherAndTreeComplete: EGATH of rows 0 and 0 whose indices are in memory that is all zeros. -/
theorem test_gather_word_completes :
    (let e : Entry := { entryA .copy0 with pstack := [0x3000, 2, 0x2000], src := hadRead [(0x2000, 8)] }
     engOk .copy e tileState (fun n s =>
       let count := 2
       !s.cur.copyWaits n && (s.die 0).featmask.getLsbD 3
       && okThen (s.slotName { n with pstack := [] } 3 [Cls.tensor, Cls.patch]) (fun x u => someAnd (u.tensorOfName x) (fun b =>
            !u.anyBusy [Loc.line b.2.descLoc] && okAnd ((u.fetchDesc b.2).reread ((u.fetchDesc b.2).bankAt 0 n.bank) b.2) (fun t =>
              let v := u.fetchDesc b.2
              let size := tileBytes t.fmt t.group count t.cols
              t.rowBytes ≤ 512 && t.pitch % 512 == 0 && (localFault 0x2000 8).isNone && (localFault 0x3000 size).isNone
                && !v.cur.engTouches .copy 0x2000 8 && !v.cur.engTouches .copy 0x3000 size && !t.fmt.isLog && !t.fmt.isHalfStep
                && readAll n v [(0x2000, 8)] (fun get w =>
                  let row (i : Nat) : TileReq := { row := (leNat (get (0x2000 + 4 * i) 4) : Int), rows := 1, col := 0, cols := t.cols }
                  let runs := (List.range count).filterMap (fun i => (row i).run t 0 0)
                  runs.length == 2
                    && okAnd (w.translateAll (w.bankAt 0 n.bank) 0 (runs.map (fun r => (r.addr, r.len)))) (fun _ => true))))))) = true := by
  decide +kernel

/-- The test bank with a grant of staging slice 3 of every die, which holds one staging unit. -/
def stagingState : State :=
  { tileState with slices := [(3, { tileState.blankSlice with stg := 1 })] }.tweak
    (fun b => { b with segs := b.segs ++ [(3, { segAt 0x303 0 2 false with dhi := 31 })] })

/-- A reduction of 64 elements for the core of a cluster that alone holds a part of the job, with where the core stands in it. -/
def treeState (core : Nat) (at_ : Option Nat) : State :=
  { ready with
    focus := { core := core, bank := false, eng := some .copy }
    jobs := [{ fetchJob with cores := [(core, false)] }]
    cores := [(core, (ready.core 0).setEngine .copy { (ready.core 0).copy with cur := some { entryA .copy0 with pstack := [64, 0x1000] } })] }.modCore
      core (fun c => { c with treeCount := 5, treeAt := at_.map (fun l => { inst := 5, laddr := 0x1000, count := 64, level := l }) })

/-- StagingGatherAndTreeComplete: the other words; a TREE that is over and one of a cluster that has one part. -/
theorem test_staging_words_complete :
    (let sl : Entry := { entryA .copy0 with pstack := [0x20, 0x2000, 0x1FFE0, 3] }
     let lc : Entry := { entryA .copy0 with pstack := [0x20, 0x2000, 0x2020] }
     let lcAll : Entry := { lc with src := hadRead [(0x2000, 32)] }
     let at_ (core l : Nat) (s : State) : Bool := someAnd s.engine.cur (fun n => n.pstack == [64, 0x1000]
       && someAnd (wordState s).cur.treeAt (fun t => t.level == l && s.focus.core == core && (wordState s).clusterGang core n.bank == [core]))
     [false, true].all (fun store => engOk .copy sl stagingState (fun n s => n.pstack == ([3, 0x1FFE0, 0x2000, 0x20] : List StackWord).reverse
         && !s.cur.copyWaits n && inside 0x2000 32 && 0x1FFE0 + 32 ≤ (s.slice 0 3).staged * 131072
         && (s.bankAt 0 n.bank).stagingGrant (if store then 1 else 0) 0 3 && !s.cur.engTouches .copy 0x2000 32))
       && engOk .copy lc ready (fun _ s => (localFault 0x2000 32).isNone && (localFault 0x2020 32).isNone
            && !s.cur.engTouches .copy 0x2000 32 && !s.cur.engTouches .copy 0x2020 32)
       && engOk .copy lcAll ready (fun n s => s.cur.forked n && readAll n s [(0x2000, 32)] (fun _ _ => true))
       && engOk .copy lc (ready.tweakCore (fun c => { c with grants := [{ who := 0, no := 0, block := 0x60 }] })) (fun n s =>
            s.cur.forked n && !(unread (sectorsOf [(0x2000, 32)]) (s.cur.readSome .copy n.bank s.free (sectorsOf [(0x2000, 32)])).1).isEmpty)
       && someAnd (treeState 0 none).engine.cur (fun n => n.pstack == [64, 0x1000] && (wordState (treeState 0 none)).cur.forked n)
       && (localFault 0x1000 256).isNone && absent (wordState (treeState 0 none)).cur.treeAt
       && !(wordState (treeState 0 none)).cur.engTouches .copy 0x1000 256
       && at_ 0 0 (treeState 0 (some 0))
       && ((wordState (treeState 0 (some 0))).treeOf false 5 0).map (fun z => (z.laddr, z.count)) == some (0x1000, 64)
       && at_ 0 1 (treeState 0 (some 1)) && at_ 4 3 (treeState 4 (some 3)) && at_ 1 1 (treeState 1 (some 1))
       && at_ 0 4 (treeState 0 (some 4)) && (wordState (treeState 0 (some 4))).cur.copyLanded) = true := by decide +kernel

/-- CollectiveWordsComplete. -/
theorem test_collective_words_complete :
    (let e : Entry := { entryA .coll with pstack := [0x100000, 0x2000, 0x300000, 0x800007FF] }
     let b : Entry := { entryA .coll with pstack := [0x20, 0x3FFFE0, 3] }
     let put : Entry := { entryA .coll with pstack := [0x20, 0x2000, 0x300000, 5], src := hadRead [(0x2000, 0x20)] }
     let g (x : StackWord) : Entry := { entryA .coll with pstack := [x] }
     let sc : Sched := { bank := false, base := 0, esize := 16, count := 1, next := 1, tend := 9, t0 := 0 }
     let timed := ready.tweakCore (fun c => { c with coll := { c.coll with sched := some sc } })
     engOk .coll put ready (fun n s => s.cur.forked n && readAll n s [(0x2000, 0x20)] (fun _ _ => true))
       && engOk .coll e ready (fun n _ => n.pstack == ([0x800007FF, 0x300000, 0x2000, 0x100000] : List StackWord).reverse
         && !badCoreOperand 0x800007FF && decide (0x300000 + 0x100000 ≤ 0x400000))
       && engOk .coll b ready (fun n _ => n.pstack == ([3, 0x3FFFE0, 0x20] : List StackWord).reverse)
       && engOk .coll (g 0x40000000) ready (fun n s => !badCoreOperand 0x40000000 && s.cur.ownsSem n.bank 255 && s.cur.sends.isEmpty
            && (s.cur.incSem 255 s.cur.pts true).isSome)
       && engOk .coll (g 5) ready (fun _ s => !badCoreOperand 5 && s.cur.sends.isEmpty)
       && engOk .coll { g 0 with fromStep := some 0x2000 } timed (fun n s => n.fromStep == some 0x2000
            && someAnd s.cur.coll.sched (fun x => x.t0 + 0 ≤ s.cycle))) = true := by decide +kernel

/-! ## The steps that the machine sends itself -/

/-- The copy engine idle beside a queue whose head is an entry of one word at local address 0. -/
def queued : State :=
  { ready with focus := { core := 0, bank := false, eng := some .copy } }.modCore 0 (fun c => ({ c with mem := [(0, 1)] }).modBank false (fun b =>
    b.setQueue .copy0 { Queue.reset with en := true, count := 1 }))

/-- EngineEventsComplete. -/
theorem test_engine_events_complete :
    (let done := { queued with cycle := 9 }.modCore 0 (fun c => c.setEngine .copy { c.copy with cur := some { entryA .copy0 with done := true } })
     queued.cur.canStart 0 queued.engCode && absent (queued.cur.resuming queued.engCode) && absent queued.engine.sched
       && someAnd (queued.cur.nextQueue 0 queued.engCode) (fun p => p.2.1 == false && p.2.2 == .copy0)
       && absent ((EntryHdr.of (queued.cur.headHdr (queued.cur.bank0.queue .copy0))).fault queued.cur false (queued.cur.bank0.queue .copy0).capacity)
       && someAnd done.engine.cur (fun n => n.done && done.cur.forked n) && done.cur.engDone done.engCode) = true := by decide +kernel

/-- A load whose value has come, under tag 1. -/
def landing (failed : Bool) : State :=
  ready.tweak (fun b => { b with tags := [{ ready.newTag 1 [.reg (.s 1)] .i32 0 0 1 with ready := true, failed := failed }] })

/-- A store on its way. -/
def storing : State :=
  ready.issueStore [{ addr := 0x101000100, len := 4, seg := some segC }] 0x101000100 plainMmc [1, 2, 3, 4] (List.replicate 4 0xFF)

/-- A bank that waits for a report. -/
def heldState : State :=
  ready.tweak (fun b => { b with status := .held, holdWord := some { pc := 0, trap := none, writes := [], flags := 0 } })

/-- An overlay without words, the last of its image, for every stage, and the same as the loader places it. -/
def overlayObj : OverlayObj := { words := [], slot := 0xF010, data := [], allocs := [], relocs := [], trapEntry := none }
def overlayA : Overlay :=
  { words := [], data := [], guards := [], runs := [], persist := [], queues := [], trapEntry := none
    trailer := { words := 0, shi := 15, slo := 0, last := true, mask := 0 } }

/-- A trap that is due in the test bank. -/
def impA : ImpTrap :=
  { code := 0x14, src := 5, taddr := 0, detail := 0, mpc := 0, aflags := 0, name0 := 0, name1 := 0, arrived := 0 }

/-- BankReportsAndStreamEventsComplete. -/
theorem test_bank_reports_complete :
    (let overlay := { ready with progs := [(ready.bank.image, { overlays := [overlayObj, overlayObj] })] }.tweak (fun b =>
       { b with status := .held, trailer := { b.trailer with last := false }, overlay := 0 })
     let idle := ready.tweak (fun b => { b with status := .idle, woken := true })
     let claim := ready.tweakCore (fun c => { c with active := true })
     let due := ready.tweak (fun b => { b with imps := [impA], arith := [{ pc := 0, aflags := 1, vecUnit := true, active := false, sem := false }] })
     let signalled := ready.tweakCore (fun c => { c with sigs := [{ bank := false, k := 3, operand := 9 }] })
     let copying := { ready with focus := { core := 0, bank := false, eng := some .copy } }.modCore 0 (fun c =>
       c.setEngine .copy { c.copy with cur := some (entryA .copy0) })
     [false, true].all (fun f => someAnd ((landing f).bank.tags.find? (fun r => r.tag == 1)) (fun r => r.ready && r.failed == f))
       && (storing.cur.access 0).isSome && ready.focus.eng.isNone && copying.focus.eng == some .copy
       && (copying.cur.engine .copy).cur == some (entryA .copy0)
       && signalled.cur.sigs.contains { bank := false, k := 3, operand := 9 }
       && { heldState with journalWaits := [(1, 0, false, none)] }.journalWaits.any (fun w => w.2.1 == 0 && w.2.2.1 == false)
       && !heldState.journalWaits.any (fun w => w.2.1 == 0 && w.2.2.1 == false) && someAnd heldState.bank.holdWord (fun w => absent w.trap)
       && idle.bank.status == .idle && idle.bank.woken
       && claim.bank.runnable && claim.cur.active != claim.focus.bank && (claim.cur.bank !claim.focus.bank).away
       && overlay.bank.status == .held && absent overlay.bank.holdWord && overlay.nextOverlay == some (overlayA, 1) && !overlay.bank.stopEng
       && [QCode.anvil, .copy0, .copy1, .coll].all (fun q => !(overlay.bank.queue q).protected overlayA false)
       && firstImp due.bank.imps == some impA && !due.bank.trap.act
       && (due.bank.arith.find? (fun y => y.active || !due.bank.trap.act)).isSome) = true := by decide +kernel

/-- ControlRegisterWritesComplete. -/
theorem test_control_register_writes_complete :
    (let q := ready.bank.queue .coll
     let on := (ready.tweak (fun b => b.setQueue .coll { Queue.reset with en := true })).bank.queue .coll
     !q.en && !q.closing && absent (Queue.layoutFault 0) && absent (Queue.layoutFault 0x8000000000000000) && on.en && !on.closing
       && absent (ready.cur.bank true).job && ready.cur.bank0.queuesEmpty && ready.cur.bank1.queuesEmpty) = true := by decide +kernel

/-- A packet for the test bank. -/
def packetA (typ : BitVec 4) (inStep : Bool) : Packet :=
  { jobtag := 1, smod := 0, score := 5, dmod := Config.moduleNumber, dcore := 0, seq := 0, typ := typ, late := false, stepBit := inStep, arg := 0
    raddr := 0x1000, data := List.replicate 32 1, reserved := false, pts := 0, wordNo := 0, sbank := false }

/-- MessagesComplete. -/
theorem test_messages_complete :
    (packetA 0 false).dmod = Config.moduleNumber
    ∧ (let step := ready.tweak (fun b => { b with status := .inStep false })
       let sc : Sched := { bank := false, base := 0, esize := 16, count := 1, next := 1, tend := 9, t0 := 0 }
       let ended := step.tweakCore (fun c => { c with coll := { c.coll with sched := some sc } })
       let split := ready.tweakCore (fun c => { c with ksplit := true })
       ready.bankOfTag 0 1 == some false && ready.cur.ownsSem false 0 && (ready.cur.incSem 0 0 true).isSome
         && split.bankOfTag 0 1 == some false && !split.cur.ownsSem false 128
         && step.participants 0 none == [(0, false)] && step.inStep false (0, false) && !(step.core 0).stepDone false
         && (ended.participants 0 none).all (ended.inStep false) && (ended.core 0).stepDone false
         && step.inStepOf (packetA 1 true) 0 false && !step.inStepOf (packetA 1 false) 0 false) = true := by
  refine ⟨rfl, by decide +kernel⟩

/-- A line whose home is on die 0, a request of a core of another die for it, and a copy of it. -/
def lineA : Line := Loc.line (segC.loc 0x101000100)
/-- A request from die 1. -/
def reqA : CohReq := { line := lineA, core := 64, home := false }
/-- A copy. -/
def copyA : SLine :=
  { line := lineA, st := .s, data := 0, dirty := false, view := false, lease := true, cls := 0, pin := none, cores := [], owner := none, ost := .i
    wts := 0, rts := 40, stamps := [], marks := [], lru := 0, valid := 15, ready := 0 }
/-- A transaction of that request. -/
def txnA (awaits : List (Line × Nat)) (evicts : List Line) : Txn :=
  { line := lineA, req := reqA, excl := true, upgrade := false, awaits := awaits, fwd := some 1, evicts := evicts }
/-- Its home with a transaction. -/
def atHomeOf (awaits : List (Line × Nat)) (evicts : List Line) : State := ready.modHome lineA (fun x => { x with busy := [txnA awaits evicts] })

/-- CoherenceStepsComplete. -/
theorem test_coherence_steps_complete :
    (let one := atHomeOf [(lineA, 1)] []
     let two := atHomeOf [(lineA, 1), (lineA, 2)] []
     let evicting := atHomeOf [(lineA, 1)] [lineA]
     let ways : Slice := { (ready.sliceOf 1 lineA) with
       lines := (List.range 16).map (fun i => { copyA with line := { lineA with no := lineA.no + 4096 * 64 * (i + 1) } })
       busy := (List.range 16).map (fun i => { txnA [] [] with line := { lineA with no := lineA.no + 4096 * 64 * (i + 1) } }) }
     let full := ready.modSliceOf 1 lineA (fun _ => ways)
     let copied := ready.modSliceOf 1 lineA (fun x => { x with lines := [copyA] })
     Line.homeDie lineA == 0 && dieOf reqA.core != Line.homeDie lineA && !reqA.home && dieOf 5 == Line.homeDie lineA
       && ((one.homeSlice lineA).txn lineA).isSome && ((one.homePut lineA 5).homeSlice lineA).awaiting lineA 1 == some (txnA [(lineA, 1)] [])
       && (two.homeSlice lineA).awaiting lineA 1 == some (txnA [(lineA, 1), (lineA, 2)] [])
       && (evicting.homeSlice lineA).awaiting lineA 1 == some (txnA [(lineA, 1)] [lineA])
       && !copied.fillWaits 1 lineA 0 && !ready.fillWaits 1 lineA 0 && full.fillWaits 1 lineA (full.lineKind 64 lineA).2.2
       && (copied.sliceOf (dieOf 64) lineA).line lineA == some copyA) = true := by decide +kernel

/-- HomesAndLeasesComplete. -/
theorem test_homes_and_leases_complete :
    (let host := storing.tweakCore (fun c => c.modAccess 0 (fun a => { a with target := .host }))
     let busy := storing.modHome lineA (fun x => { x with busy := [txnA [] []] })
     let away := (ready.modSliceOf 1 lineA (fun x => { x with lines := [copyA] })).modCore 64 (fun c => { c with pts := 40 })
     let home := ready.modHome lineA (fun x => { x with lines := [copyA] })
     someAnd (host.cur.access 0) (fun a => a.target == .host)
       && someAnd (busy.cur.access 0) (fun a => a.target != .host && busy.anyBusy a.lines)
       && someAnd (storing.cur.access 0) (fun a => a.target != .host && !storing.anyBusy a.lines && (match a.op with
            | .store v _ => v == [1, 2, 3, 4]
            | _ => false))
       && !storing.fillWaits (Line.homeDie lineA) lineA 0 && !away.fillWaits 0 lineA 0 && !away.fillWaits 1 lineA 0
       && !home.fillWaits 0 lineA 0
       && dieOf 64 != Line.homeDie lineA && someAnd ((away.sliceOf 1 lineA).line lineA) (fun y => ptsLe (away.core 64).pts y.rts)
       && (home.homeSlice lineA).line lineA == some copyA
       && quarterOf (ready.blank.pts + 1) == quarterOf ready.blank.pts) = true := by decide +kernel

/-- NameAndSealStepsComplete. -/
theorem test_name_and_seal_steps_complete :
    (let used := storing.modCore 0 (fun c => c.modAccess 0 (fun a => { a with name := tnGone }))
     let dying (w : Option (Nat × Bool)) (l : List Nat) : State :=
       { ready with dying := [{ ent := entOf tnGone .patch, awaits := l, waiter := w, earliest := 0 }] }
     let rest (s : State) (die : Nat) : List Dying := s.dying.map (fun (d : Dying) =>
       if d.ent.name == tnGone then { d with awaits := d.awaits.filter (fun x => x != die) } else d)
     let waits := { ready with journalWaits := [(4, 0, false, some 9)] }
     let asked (l : List Nat) : State := ready.modPatch pnShared (fun p => { p with sealer := some (0, false), awaits := l })
     let last := (asked [0]).modPatch pnShared (fun p => { p with awaits := [], collected := p.collected ++ [0] })
     used.cores.any (fun p => p.1 / 64 == 0 && p.2.accs.any (fun a => a.name == tnGone && a.state != .performed))
       && !ready.cores.any (fun p => p.1 / 64 == 0 && p.2.accs.any (fun a => a.name == tnGone && a.state != .performed))
       && absent ((rest (dying none [0, 1]) 0).find? (fun d => d.ent.name == tnGone && d.awaits.isEmpty))
       && [none, some (0, false)].all (fun w => someAnd ((rest (dying w [0]) 0).find? (fun d => d.ent.name == tnGone && d.awaits.isEmpty))
            (fun d => d.earliest == 0 && d.waiter == w && !(dying w [0]).journalWaits.any (fun x => d.waiter == some (x.2.1, x.2.2.1))))
       && absent (used.awayHome tnGone)
       && (waits.journalWaits.find? (fun w => w.1 == 4)).isSome
       && someAnd ((asked [0, 2]).patch pnShared) (fun p => p.sealer == some (0, false) && p.awaits == [0, 2])
       && someAnd ((asked [0]).patch pnShared) (fun p => p.awaits == [0] && (
            let r := (last.combine p).1.rounded
            !last.anyBusy (last.sealLines (last.sides r.1)) && !last.sealWaits (last.sides r.1) && (last.sealPatch r.1 0).isSome))) = true := by
  decide +kernel

/-- A second job, waiting, of one core, and the job that runs. -/
def jobB (j : Job → Job) : State :=
  { named id with jobs := [{ fetchJob with name := jnA }, j { fetchJob with id := 1, state := .waiting, cores := [] }] }

/-- JobStepsComplete. -/
theorem test_job_steps_complete :
    (let sel := (jobB id).select
     let ended := (named id).tweak (fun b => { b with status := .ended })
     let serving := (named id).tweakCore (fun c => c.setEngine .copy { c.copy with cur := some (entryA .copy0) })
     let high := jobB (fun j => { j with rcd := { j.rcd with shape := 0x70 } })
     let low := { high with dies := Vector.replicate 32 { Die.reset 0 with featmask := 0 } }
     let grace := named (fun j => { j with evictFor := some 1 })
     let mine (s : State) (p : Nat × Bool) : Bool := (s.bankAt p.1 p.2).job == some 0
     let stopped (s : State) (j : Job) : State := (j.cores.filter (mine s)).foldl (fun (s : State) p => s.modBankAt p.1 p.2 (fun b =>
       if b.isStopped || b.status == .halted then b else { b with status := .stopped none })) s
     let working (s : State) (j : Job) : Bool := (j.cores.filter (mine s)).any (fun p => ((stopped s j).core p.1).serving p.2 || (stopped s j).inFlight p)
     someAnd ((jobB id).job 1) (fun j => j.state == .waiting && j.predNames.isEmpty && someAnd sel.1 (fun x => x.1 == j && j.id == 1
         && absent (sel.2.savedJob j) && !sel.2.recordBusy j))
       && someAnd (ended.job 0) (fun j => j.state == .running && ended.jobOver j && j.cores.all (fun p => (ended.core p.1).drained p.2)
            && !ended.journaling && ended.journalWaits.isEmpty)
       && someAnd (serving.job 0) (fun j => j.state == .running && working serving j)
       && someAnd ((named id).job 0) (fun j => !working (named id) j)
       && (jobB id).jobs.all (fun j => j.id == 0 || (jobB id).candidate j)
       && someAnd (low.job 1) (fun j => low.candidate j && low.threshold.toNat ≤ j.level && low.jobs.all (fun v => v.evictFor != some 1)
            && (low.enough j [] (low.victims j)).isSome)
       && someAnd (grace.job 0) (fun j => j.evictFor.isSome && j.state == .running)) = true := by decide +kernel

/-- QuenchAndCheckpointEventsComplete. -/
theorem test_quench_events_complete :
    (let c (acks : Nat) : Ckpt := { ckptOf cnA jnA false with pendingAcks := acks }
     let s (acks : Nat) : State := { named id with ckpts := [c acks] }
     let key := cnA.toNat * 16
     (named id).jobs.any (fun j => j.name == jnA && j.state == .running)
       && (s 9).ckpts.find? (fun c => c.name.toNat == key / 16 && c.pendingAcks != 0) == some (c 9) && key % 16 == 0
       && !(s 9).ready[0].getLsbD 36 && (s 1).ckpts.find? (fun c => c.name.toNat == (key + 3) / 16 && c.pendingAcks != 0) == some (c 1)
       && (key + 3) % 16 != 0 && (s 9).ckpts.find? (fun c => c.name.toNat == (key + 3) / 16 && c.pendingAcks != 0) == some (c 9) && (s 0).ckpts.find? (fun c => c.name == cnA && !c.durable) == some (c 0)
       && ((s 0).job 0).isSome) = true := by decide +kernel

/-- HostPageAndErrorEventsComplete. -/
theorem test_host_page_events_complete :
    (let sent : State := { storing with jobs := [{ fetchJob with pasid := some 3 }] }.modCore 0 (fun c =>
       c.modAccess 0 (fun a => { a with target := .host, vaddr := 0x8000000000000000, state := .sent }))
     let inv (l : List Nat) : HtlbInv := { core := 0, bank := false, pasid := 3, addr := none, dies := l }
     let asked (l : List Nat) : State := { named id with htlbInv := [inv l] }
     let flying : State := { sent with flights := [{ due := 0, core := 0, bank := false, eng := none, chan := none, ev := .homeAtomic 0 0 }] }
     let f : Flip := { id := 5, dev := true, base := 0, len := 2, pages := [7], core := 0, bank := false }
     someAnd (sent.cur.access 0) (fun a => someAnd (sent.faultingPage 0 a) (fun x => x.1 == 3))
       && { ready with pageReqs := [(3, 9)] }.pageReqs.contains (3, 9)
       && (asked [0, 1]).htlbInv.find? (fun y => y.dies.contains 0) == some (inv [0, 1]) && !(asked [0]).hostInFlight 0 3
       && flying.hostInFlight 0 3 && ((inv [0, 1]).dies.filter (fun d => d != 0)) == [1] && ((inv [0]).dies.filter (fun d => d != 0)) == []
       && (ready.bankAt 0 false).job == some 0 && someAnd ((jobB id).job 1) (fun j => (jobB id).candidate j)
       && { ready with flip := some f }.flip == some f && f.id == 5) = true := by decide +kernel

/-- HostAccessesComplete: a notify that is taken and one that is not, records read early and at last, and lines of each kind. -/
theorem test_host_accesses_complete :
    (let q : LQueue := { ready.lqueues[0] with enabled := true, depth := 4, reading := true, expect := 0 }
     let s := { ready with lqueues := (ready.lqueues.set 0 q).set 1 { q with expect := 1 } }
     let r (n : Fin 64) : List Byte := Memory.readBytes s.lqSlots (s.lqueues[n]).slot recordSize
     let cell := segC.loc 0x101000100
     let page := segP.loc 0x100000000
     let free (l : Loc) : Bool := !s.flipping l && !s.anyBusy [Loc.line l]
     let lease := segL.loc 0x102000000
     let both := s.tweak (fun b => { b with segs := [(0, segAt 2048 0 0 true)] })
     let flip : Flip := { id := 5, dev := true, base := 0, len := 1, pages := [(cell.lo * 64 + cell.nd) * 2 ^ 36 + cell.page], core := 0, bank := false }
     (s.lqueues[0]).enabled && ((0 : BitVec 16) - (s.lqueues[0]).expect).toNat < (s.lqueues[0]).depth && !(s.lqueues[9]).enabled
       && (s.lqueues[1]).reading && LaunchRec.seq (.parse (r 1)) != (s.lqueues[1]).expect
       && (s.lqueues[0]).reading && LaunchRec.seq (.parse (r 0)) == (s.lqueues[0]).expect && !recordInvalid (r 0) && s.mayIssue.1
       && s.mayIssue.2.lqueues == s.lqueues && s.mayIssue.2.lqSlots == s.lqSlots
       && { s with flip := some flip }.flipping cell && free cell && free page
       && someAnd (s.segAt cell) (fun g => !g.patched && !g.lease) && someAnd (s.segAt page) (fun g => g.patched && !g.lease)
       && free lease && someAnd (s.segAt lease) (fun g => !g.patched && g.lease)
       && !both.flipping page && !both.anyBusy [Loc.line page] && someAnd (both.segAt page) (fun g => g.patched && g.lease)
       && absent ((s.segAt (segC.loc 0x101000100)).filter (fun (g : Seg) => g.lease))
       && absent (State.reset.segAt cell)) = true := by decide +kernel

/-- ManagementEventsComplete. -/
theorem test_management_events_complete :
    (let up := { ready with ready := #v[0x2000000000, 0, 0, 0] }
     let told := { up with sec := { up.sec with policy := some 7, attested := true } }
     up.ready[0].getLsbD 37 && absent up.sec.policy && up.sec.keys.isEmpty && up.canIssue
       && told.ready[0].getLsbD 37 && told.sec.policy == some 7 && told.sec.attested && !ready.sec.attested
       && ready.ready[1].getLsbD 5 != true && ready.readyCan 1 5 true && up.ready[0].getLsbD 37 != false && up.readyCan 0 37 false) = true := by decide +kernel

/-! ## Encodings, steps, traps and frames -/

/-- EncodedInstructionsDecode: instructions of each kind that words encode. -/
theorem test_encodings_exist :
    (([.add h0 .i64 (.aq 3) (.s 63) (.imm 0xFFFF), .vld h0 .l16 (.port 3) (.idx (.s 1) (.s 2) 7) 15, .ncas h0 7 (.n 15) .zero (.n 1) 15,
        .xm 15 { neg := 7, abs := 0, sat := true, clen := true, clo := 63, chi := 63, scen := true, k := 63, rmen := true, rm := 3, usC := 0, usD := 15 },
        .halt h0] : List Instr).all (fun i => WellFormed i && (encode80 i).isSome)
      && ([.lit 0x7FFF, .ext 0x3FFF, .popq 3, .go 3, .tload 15, .csig 255] : List Instr).all (fun i => WellFormed i && (encode16 i).isSome)
      && ([.usetl 5 0xFFFF 0xFFFFFFFF, .usetb 7 (BitVec.allOnes 48), .uloop 3 0xFFF, .uend] : List Instr).all (fun i =>
        WellFormed i && (encodeMicro i).isSome)) = true := by decide +kernel

/-- A core that does not exist, with a bank that can issue. -/
def lost : State := { ready with cores := [(5000, ready.core 0)] }

/-- AStepRunsTheDecodedWord and EveryStepAnswers: a stream alone, an engine alone, both, nothing; a core beyond the module. -/
theorem test_agents :
    (let i : Instr := .add h0 .i64 (.s 1) (.s 5) (.imm 1)
     let one := ready.tweak (fun b => { b with istore := [(0, wordOf i)] })
     let eng := (one.tweak (fun b => { b with status := .vacant })).modCore 0 (fun c => c.setEngine .copy { c.copy with cur := some (entryA .copy0) })
     let both := one.modCore 0 (fun c => c.setEngine .copy { c.copy with cur := some (entryA .copy0) })
     one.turns == [.stream 0 false i] && one.turns == one.streamTurn 0 (one.core 0) && !(one.core 0).active && !(one.core 0).tried
       && one.bank.runnable && one.bank.arith.isEmpty && one.bank.imps.isEmpty && !one.cur.bank1.switchClaim
       && eng.turns == [.engine 0 false .copy (eng.cur.engInstr .copy (entryA .copy0))]
       && !eng.cur.copy.tried && !eng.cur.copy.frozen && !eng.cur.engHeld .copy && !(entryA .copy0).done
       && both.turns.length == 2 && both.turns.all (fun a => a.core < 2048) && State.reset.turns.isEmpty
       && lost.turns.length == 1 && lost.turns.all (fun a => a.core == 5000)) = true := by decide +kernel

/-- EveryStepAnswers: the step of a core beyond the module faults. -/
theorem test_lost_core_faults : step lost = .fault (.noSuchCore 5000) := by
  have h : lost.turns = [.stream 5000 false (.nop h0)] := by decide +kernel
  simp only [step, State.chosen, h, List.filter, lands, State.pick]
  rfl

/-- How a word's issue stands. -/
def stands (i : Instr) (s : State) (p : Ready → Bool) : Bool := someAnd (needOf i) (fun n => p (s.classify n none))

/-- EveryWordWaitsTrapsOrIsPassedOver, SystemWordsNeedPrivilege: a word that waits, one that faults, and one that is guarded off, also at the
end of the store. -/
theorem test_words_that_do_not_issue :
    (let off (r : Ready) : Bool := match r with
       | .off => true
       | .stall | .ask _ | .go | .fault _ => false
     let guarded : Hdr := { h0 with guard := 1 }
     let user := ready.tweak (fun b => { b with priv := false })
     let n := Need.of h0 |>.privileged
     stands (.nop h0) (ready.tweak (fun b => { b with bound := 1 })) (fun r => match r with
         | .stall => true
         | .ask _ | .off | .go | .fault _ => false)
       && stands (.banksw h0) user (fun r => match r with
            | .fault f => f.code == 4
            | .stall | .ask _ | .go | .off => false)
       && stands (.nop guarded) ready off && ready.bank.pc.toNat < 26213
       && stands (.br guarded 5) (ready.tweak (fun b => { b with pc := 26213 })) off
       && systemWord (.banksw h0) && !user.bank.priv && user.bank.earliest n none ≤ 0 && !user.bank.tagWait n none && user.bank.guardHolds n
       && absent (user.bank.guardReg n)) = true := by decide +kernel

/-- TrapsEnterTheHandler: with a handler and without one, in one, and a bank whose job has not failed yet. -/
theorem test_trap_states :
    (let f := fault 0x01
     let with_ := ready.tweak (fun b => { b with tvecEn := true, tvecHdlr := 9 })
     !with_.bank.trap.act && with_.bank.tvecEn && !ready.bank.trap.act && !ready.bank.tvecEn && inHandler.bank.trap.act
       && ready.bank.job == some 0 && (ready.trap f).bank.isStopped && someAnd (ready.job 0) (fun j => absent j.report)
       && (ready.tweak (fun b => { b with writes := [{ due := 7, dst := none, val := .word 0, tag := 0, flags := 0, pc := 0, vecUnit := false, interlock := false }] })).bank.writes.all
            (fun w => w.due == 7)) = true := by decide +kernel

/-- TrapAndReturn. -/
theorem test_trap_and_return_states :
    (let go (s : State) : Bool := goes (.trap h0 5) s && goes (.rett h0) s
     let guarded : Hdr := { h0 with guard := 1 }
     go ready && go inHandler && inHandler.bank.trap.rpc.toNat ≤ 26213 && !ready.bank.trap.act
       && stands (.trap guarded 5) ready (fun r => match r with
            | .off => true
            | .stall | .ask _ | .go | .fault _ => false)) = true := by decide +kernel

/-- TransfersPastTheStoreTrap: forwards past the end, and backwards past the start. -/
theorem test_transfers_past_the_store :
    (let last := ready.tweak (fun b => { b with pc := 26213, s := b.s.set 13 26214 })
     let far := last.tweak (fun b => { b with trap := { b.trap with act := true, rpc := 26214 } })
     let t (i : Instr) : State := issued i last
     let n := Need.of h0
     26213 < (branchTarget last.bank.pc 5).toNat && 26213 < (branchTarget 0 0xFFFF).toNat
       && ([.br h0 5, .brc h0 .i64 .zero (.s 11) .lt 5, .brc h0 .i64 .zero (.s 11) .gt 5, .jmpi h0 (.s 13), .ret h0 (.s 13), .call h0 (.s 1) 5,
            .loop h0 9 5, .loop h0 11 5] : List Instr).all (fun i => goes i last)
       && 26213 < ((t (.jmpi h0 (.s 13))).readS (.s 13)).1.toNat && 26213 < ((t (.brc h0 .i64 .zero (.s 11) .gt 5)).bank.pc).toNat
       && (t (.loop h0 9 5)).bank.getS 9 != 1 && (t (.loop h0 11 5)).bank.getS 11 == 1
       && goes (.rett h0) far && 26213 < (issued (.rett h0) far).bank.trap.rpc.toNat && (issued (.rett h0) far).bank.trap.act
       && n.falls && last.bank.earliest n none ≤ 0 && !last.bank.tagWait n none) = true := by decide +kernel

/-- WordsThatStoreNothingKeepTheRest, StoresWriteOnlyTheirBytes and EveryStepKeepsMemoriesCanonical: words of each kind that answer, the first
of which issues and writes a register. -/
theorem test_words_answer :
    (∃ t, exec (.add h0 .i64 (.s 1) (.s 5) (.imm 1)) ready = .next t) ∧ (∃ t, exec (.br h0 5) ready = .next t)
    ∧ (∃ t, exec (.st h0 .i32 (.off (.s 7) 0) (.s 5)) ready = .next t) ∧ (∃ t, exec (.vst h0 .i32 (.off (.s 7) 0) (.v 1)) ready = .next t)
    ∧ (∃ t, exec (.vscat h0 .i32 (.s 7) (.v 2) 2 (.v 3)) ready = .next t)
    ∧ (registerWord (.add h0 .i64 (.s 1) (.s 5) (.imm 1)) && requestOrFlowWord (.br h0 5) && Memory.wf ready.cur.mem && ready.memWf
      && State.reset.memWf) = true
    ∧ (∃ t, step State.reset = .next t) :=
  ⟨⟨_, rfl⟩, ⟨_, rfl⟩, ⟨_, rfl⟩, ⟨_, rfl⟩, ⟨_, rfl⟩, by decide +kernel, ⟨_, rfl⟩⟩

/-- ResultsLandInTheirRegisters: results for each kind of register. -/
theorem test_results_to_land :
    (let w (d : RDst) (v : RVal) : PendWrite := { due := 0, dst := some d, val := v, tag := 0, flags := 0, pc := 0, vecUnit := false, interlock := false }
     ([w (.reg (.s 0)) (.word 1), w (.reg (.c 7)) (.cond true), w (.reg (.v 63)) (.vec 1 1), w (.reg (.m 0)) (.mask 1 1), w (.aq 3) (.word 1)]).all
       (fun w => w.flags == 0 && w.tag == 0 && w.dst.isSome)) = true := by decide +kernel

/-! ## Decoding: a word of each row of the opcode table, written out from the fields of R50, the numbers of R66 and the forms of R88 to R93 -/

/-- A word with these fields (R50): class, opcode, guard, dst, srca, srcb, srcc, type, imm16, I, pd, al, usA, usB. -/
def wordG (cls op g d a b c ty imm i pd al ua ub : Nat) : Word80 :=
  BitVec.ofNat 80 (cls * 2 ^ 77 + op * 2 ^ 69 + g * 2 ^ 65 + d * 2 ^ 58 + a * 2 ^ 51 + b * 2 ^ 44 + c * 2 ^ 37 + ty * 2 ^ 33 + imm * 2 ^ 17
    + i * 2 ^ 16 + pd * 2 ^ 12 + al * 2 ^ 8 + ua * 2 ^ 4 + ub)

/-- A word with these fields and the others zero: class, opcode, dst, srca, srcb, srcc, type, imm16, I, al. -/
def wd (cls op d a b c ty imm i al : Nat) : Word80 := wordG cls op 0 d a b c ty imm i 0 al 0 0

/-- Every pair is a word and the instruction it stands for. -/
def reads (l : List (Word80 × Instr)) : Bool := l.all (fun p => decode80 p.1 == p.2)

/-- The scalar class (R88). -/
theorem test_scalar_class_decodes : reads [
    (wd 0 0x00 0 0 0 0 0 0 0 0, .nop h0), (wordG 0 0x01 13 72 73 0 0 3 0xFFFE 1 9 0 5 6, .add { guard := 13, pd := 9, usA := 5, usB := 6 } .i64 (.aq 0) (.bq 1) (.imm 0xFFFE)),
    (wd 0 0x02 5 6 7 0 2 0 0 0, .sub h0 .i32 (.s 5) (.s 6) (.reg (.s 7))), (wd 0 0x03 5 6 7 0 7 0 0 0, .mul h0 .n64 (.s 5) (.s 6) (.reg (.s 7))),
    (wd 0 0x04 5 6 7 0 3 0 0 0, .mulh h0 .i64 (.s 5) (.s 6) (.reg (.s 7))), (wd 0 0x05 5 6 7 0 0 0 0 0, .div h0 .i8 (.s 5) (.s 6) (.reg (.s 7))),
    (wd 0 0x06 5 6 7 0 1 0 0 0, .rem h0 .i16 (.s 5) (.s 6) (.reg (.s 7))), (wd 0 0x07 5 6 7 0 4 0 0 0, .min h0 .n8 (.s 5) (.s 6) (.reg (.s 7))),
    (wd 0 0x08 5 6 7 0 5 0 0 0, .max h0 .n16 (.s 5) (.s 6) (.reg (.s 7))), (wd 0 0x09 5 6 0 0 0 0x8000 1 0, .and h0 (.s 5) (.s 6) (.imm 0x8000)),
    (wd 0 0x0A 5 6 7 0 0 0 0 0, .or h0 (.s 5) (.s 6) (.reg (.s 7))), (wd 0 0x0B 5 6 7 0 0 0 0 0, .xor h0 (.s 5) (.s 6) (.reg (.s 7))),
    (wd 0 0x0C 5 6 7 0 0 0 0 0, .andn h0 (.s 5) (.s 6) (.reg (.s 7))), (wd 0 0x0D 5 6 7 0 0 0 0 0, .shl h0 (.s 5) (.s 6) (.reg (.s 7))),
    (wd 0 0x0E 5 6 7 0 0 0 0 0, .shr h0 (.s 5) (.s 6) (.reg (.s 7))), (wd 0 0x0F 5 6 7 0 0 0 0 0, .sar h0 (.s 5) (.s 6) (.reg (.s 7))),
    (wd 0 0x10 5 6 0 0 0 3 1 0, .rot h0 (.s 5) (.s 6) (.imm 3)), (wd 0 0x11 5 6 0 0 0 0 0 0, .clz h0 (.s 5) (.s 6)),
    (wd 0 0x12 5 6 0 0 0 0 0 0, .popc h0 (.s 5) (.s 6)), (wd 0 0x13 5 82 7 8 0 0 0 0, .sel h0 (.s 5) (.c 2) (.s 7) (.s 8)),
    (wd 0 0x14 83 6 7 2 3 0 0 0, .cmp h0 .i64 3 (.s 6) (.reg (.s 7)) .lt), (wd 0 0x15 5 6 0 3 0 0xABCD 1 0, .movi h0 (.s 5) (.s 6) 0xABCD 3),
    (wd 0 0x16 5 6 7 0 0 4 0 0, .lea h0 (.s 5) (.idx (.s 6) (.s 7) 4)), (wd 0 0x17 5 6 0 0 6 8 1 11, .ld h0 .n32 (.s 5) (.off (.s 6) 8) 11),
    (wd 0 0x18 0 6 0 9 3 0xFFF8 1 0, .st h0 .i64 (.off (.s 6) 0xFFF8) (.s 9)), (wd 0 0x19 5 0 0 0 0 0x15 0 0, .csrr h0 (.s 5) 0x15),
    (wd 0 0x1A 0 6 0 0 0 0x15 0 0, .csrw h0 0x15 (.s 6)), (wd 0 0x1B 80 81 87 0 0 0 0 0, .cand h0 0 (.c 1) (.c 7)),
    (wd 0 0x1C 80 81 116 0 0 0 0 0, .cor h0 0 (.c 1) .zero), (wd 0 0x1D 80 81 82 0 0 0 0 0, .cxor h0 0 (.c 1) (.c 2)),
    (wd 0 0x1E 5 6 7 0 0xA 0 0 0, .fadd h0 .f32 (.s 5) (.s 6) (.reg (.s 7))), (wd 0 0x1F 5 6 7 0 9 0 0 0, .fmul h0 .bf16 (.s 5) (.s 6) (.reg (.s 7))),
    (wd 0 0x20 5 6 7 8 8 0 0 0, .ffma h0 .f16 (.s 5) (.s 6) (.s 7) (.s 8)), (wd 0 0x21 5 6 0 0xA 3 0 0 0, .fcvt h0 .i64 .f32 (.s 5) (.s 6)),
    (wd 0 0x22 80 6 7 6 0xA 0 0 0, .fcmp h0 .f32 0 (.s 6) (.reg (.s 7)) .un), (wd 0 0x23 5 6 7 0 0xA 0 0 0, .fmin h0 .f32 (.s 5) (.s 6) (.reg (.s 7))),
    (wd 0 0x24 5 6 7 0 0xA 0 0 0, .fmax h0 .f32 (.s 5) (.s 6) (.reg (.s 7))), (wd 0 0x25 5 6 7 0xA 0xC 0 0 0, .ftolog h0 .l8 .f32 (.s 5) (.s 6) (.s 7)),
    (wd 0 0x26 5 6 7 0xB 0xA 0 0 0, .ffromlog h0 .f32 .l4 (.s 5) (.s 6) (.s 7))] = true := by decide +kernel

/-- The vector class (R89). -/
theorem test_vector_class_decodes : reads [
    (wd 1 0x00 66 64 7 0 2 0 0 0, .vadd h0 .i32 (.port 2) (.port 0) (.reg (.v 7))), (wd 1 0x01 5 6 0 0 0xA 3 1 0, .vsub h0 .f32 (.v 5) (.v 6) (.imm 3)),
    (wd 1 0x02 5 6 7 0 0 0 0 0, .vmul h0 .i8 (.v 5) (.v 6) (.reg (.v 7))), (wordG 1 0x03 15 40 33 34 35 0xA 0 0 4 0 3 0, .vfma { guard := 15, pd := 4, usA := 3, usB := 0 } .f32 (.v 40) (.v 33) (.v 34) (.v 35)),
    (wd 1 0x04 5 6 7 0 9 0 0 0, .vmin h0 .bf16 (.v 5) (.v 6) (.reg (.v 7))), (wd 1 0x05 5 6 7 0 8 0 0 0, .vmax h0 .f16 (.v 5) (.v 6) (.reg (.v 7))),
    (wd 1 0x06 5 6 0 0 0xA 0 0 0, .vrcp h0 .f32 (.v 5) (.v 6)), (wd 1 0x07 5 6 0 0 0xA 0 0 0, .vrsq h0 .f32 (.v 5) (.v 6)),
    (wd 1 0x08 5 6 0 0 0xA 0 0 0, .vexp2 h0 .f32 (.v 5) (.v 6)), (wd 1 0x09 5 6 0 0 0xA 0 0 0, .vlog2 h0 .f32 (.v 5) (.v 6)),
    (wd 1 0x0A 5 6 7 0 6 0 0 0, .vand h0 .n32 (.v 5) (.v 6) (.reg (.v 7))), (wd 1 0x0B 5 6 7 0 6 0 0 0, .vor h0 .n32 (.v 5) (.v 6) (.reg (.v 7))),
    (wd 1 0x0C 5 6 7 0 6 0 0 0, .vxor h0 .n32 (.v 5) (.v 6) (.reg (.v 7))), (wd 1 0x0D 5 6 7 0 6 0 0 0, .vshl h0 .n32 (.v 5) (.v 6) (.reg (.v 7))),
    (wd 1 0x0E 5 6 7 0 6 0 0 0, .vshr h0 .n32 (.v 5) (.v 6) (.reg (.v 7))), (wd 1 0x0F 5 6 7 0 6 0 0 0, .vsar h0 .n32 (.v 5) (.v 6) (.reg (.v 7))),
    (wd 1 0x10 95 6 7 5 2 0 0 0, .vcmp h0 .i32 15 (.v 6) (.reg (.v 7)) .ge), (wd 1 0x11 5 81 7 8 0xE 0 0 0, .vsel h0 .h4 (.v 5) (.m 1) (.v 7) (.v 8)),
    (wd 1 0x12 5 6 0 0xA 2 0 0 0, .vcvt h0 .i32 .f32 (.v 5) (.v 6)), (wd 1 0x13 5 6 116 0xA 0xC 0 0 0, .vtolog h0 .l8 .f32 (.v 5) (.v 6) .zero),
    (wd 1 0x14 5 6 7 0xD 0xA 0 0 0, .vfromlog h0 .f32 .l16 (.v 5) (.v 6) (.v 7)), (wd 1 0x15 5 6 7 0xA 0xF 0 0 0, .vqnt h0 .h8 .f32 (.v 5) (.v 6) (.v 7)),
    (wd 1 0x16 5 6 7 0xE 0xA 0 0 0, .vdqnt h0 .f32 .h4 (.v 5) (.v 6) (.v 7)), (wd 1 0x17 5 6 0 0xB 0xA 0 0 0, .vbscale h0 .f32 .l4 (.v 5) (.v 6)),
    (wd 1 0x18 5 6 0 0 2 0 0 0, .vredadd h0 .i32 (.v 5) (.v 6)), (wd 1 0x19 5 6 0 0 2 0 0 0, .vredmax h0 .i32 (.v 5) (.v 6)),
    (wd 1 0x1A 5 6 0 0 2 0 0 0, .vredmin h0 .i32 (.v 5) (.v 6)), (wd 1 0x1B 5 6 0 2 2 0 0 0, .vscan h0 .i32 (.v 5) (.v 6) 2),
    (wd 1 0x1C 5 6 0 0 6 12 1 0, .vhist h0 .n32 (.v 5) (.v 6) (.imm 12)), (wd 1 0x1D 5 6 0 0 6 0 0 0, .vcmprs h0 .n32 (.v 5) (.v 6)),
    (wd 1 0x1E 5 6 7 0 6 0 0 0, .vperm h0 .n32 (.v 5) (.v 6) (.v 7)), (wd 1 0x1F 5 6 9 1 6 0 0 0, .vslide h0 .n32 (.v 5) (.v 6) (.reg (.s 9)) true),
    (wd 1 0x20 5 6 0 0 6 0 0 0, .vbcast h0 .n32 (.v 5) (.s 6)), (wd 1 0x21 5 6 0 0 6 3 1 0, .vext h0 .n32 (.s 5) (.v 6) (.imm 3)),
    (wd 1 0x22 5 6 0 0 6 3 1 0, .vins h0 .n32 5 (.s 6) (.imm 3)), (wd 1 0x23 5 6 0 0 6 0 0 0, .viota h0 .n32 (.v 5) (.s 6)),
    (wd 1 0x24 5 6 0 0 6 64 1 1, .vld h0 .n32 (.v 5) (.off (.s 6) 64) 1), (wd 1 0x25 0 6 7 8 6 2 0 0, .vst h0 .n32 (.idx (.s 6) (.s 7) 2) (.v 8)),
    (wd 1 0x26 5 6 7 0 6 2 0 3, .vgath h0 .n32 (.v 5) (.s 6) (.v 7) 2 3), (wd 1 0x27 0 6 7 8 6 2 0 0, .vscat h0 .n32 (.s 6) (.v 7) 2 (.v 8)),
    (wd 1 0x28 0 6 0 0 0 11 0 0, .portcfg h0 11 (.s 6)), (wd 1 0x29 81 82 83 0 0 0 0 0, .mand h0 1 (.m 2) (.m 3)),
    (wd 1 0x2A 81 82 83 0 0 0 0 0, .mor h0 1 (.m 2) (.m 3)), (wd 1 0x2B 81 82 83 0 0 0 0 0, .mxor h0 1 (.m 2) (.m 3)),
    (wd 1 0x2C 81 82 0 0 0 0 0 0, .mnot h0 1 (.m 2)), (wd 1 0x2D 5 82 0 0 0 0 0 0, .mpop h0 .i8 (.s 5) (.m 2)),
    (wd 1 0x2E 5 82 0 0 6 0 0 0, .mfirst h0 .n32 (.s 5) (.m 2)), (wd 1 0x2F 5 6 0 0 0xA 0 0 0, .vord h0 .f32 (.v 5) (.v 6))] = true := by decide +kernel

/-- The memory class (R90, R246, R251, R275); the modifier codes are those of R86. -/
theorem test_memory_class_decodes : (
    let none_ : Mmc := { scope := 0, order := 0, row := false, opn := false }
    let sysBoth : Mmc := { scope := 6, order := 3, row := false, opn := false }
    reads [
    (wd 2 0x00 7 4 0 0x47 2 64 1 2, .ldg h0 .i32 (.s 7) (.off (.s 4) 64) (.mmc { scope := 4, order := 1, row := true, opn := true }) 2),
    (wd 2 0x01 0x68 4 0 9 3 8 1 0, .stg h0 .i64 (.off (.s 4) 8) (.s 9) (.mmc { scope := 6, order := 2, row := false, opn := false })),
    (wd 2 0x02 7 4 116 97 0xA 64 1 2, .vldg h0 .f32 (.v 7) (.off (.s 4) 64) (.asof (.n 1)) 2), (wd 2 0x03 113 4 5 9 0xA 2 0 0, .vstg h0 .f32 (.idx (.s 4) (.s 5) 2) (.v 9) (.patch 1)),
    (wd 2 0x04 1 4 0 0 0 64 1 0, .prefg h0 (.off (.s 4) 64) true), (wd 2 0x05 0x6C 4 0 9 3 8 1 1, .aadd h0 .i64 (.off (.s 4) 8) (.s 9) (.mmc sysBoth) 1),
    (wd 2 0x06 0 4 0 9 2 8 1 0, .amin h0 .i32 (.off (.s 4) 8) (.s 9) none_ 0), (wd 2 0x07 0 4 0 9 2 8 1 0, .amax h0 .i32 (.off (.s 4) 8) (.s 9) none_ 0),
    (wd 2 0x08 0 4 0 9 2 8 1 0, .aand h0 .i32 (.off (.s 4) 8) (.s 9) none_ 0), (wd 2 0x09 0 4 0 9 2 8 1 0, .aor h0 .i32 (.off (.s 4) 8) (.s 9) none_ 0),
    (wd 2 0x0A 0 4 0 9 2 8 1 0, .axor h0 .i32 (.off (.s 4) 8) (.s 9) none_ 0), (wd 2 0x0B 0 4 0 9 2 8 1 7, .axchg h0 .i32 (.off (.s 4) 8) (.s 9) none_ 7),
    (wd 2 0x0C 5 4 0 9 2 8 1 7, .acas h0 .i32 5 (.off (.s 4) 8) (.s 9) 7), (wd 2 0x0D 6 4 5 8 3 0 0 7, .adcas h0 .i64 3 (.s 4) (.s 5) 4 7),
    (wd 2 0x0E 6 4 5 0 3 0 0 7, .amove h0 .i64 (.s 6) (.s 4) (.s 5) 7), (wd 2 0x0F 112 4 0 9 9 0 1 0, .aradd h0 .bf16 (.s 4) 0 false (.v 9) (.patch 0) 0),
    (wd 2 0x10 0 4 0 9 0xA 64 1 2, .armax h0 .f32 (.s 4) 64 false (.v 9) (.mmc none_) 2), (wd 2 0x11 113 98 0 3 2 0 0 0, .pbegin h0 1 (.n 2) (.sharedAdd .i32)),
    (wd 2 0x12 114 98 99 1 0xA 0 0 0, .ppair h0 2 (.n 2) (.n 3) (.add .f32)), (wd 2 0x13 115 98 0 0 0 0 0 0, .pjoin h0 3 (.n 2)),
    (wd 2 0x14 0 113 0 0 0 0 0 0, .pseal h0 (.p 1)), (wd 2 0x15 0 113 0 0 0 0 0 0, .pabort h0 (.p 1)),
    (wd 2 0x16 0 98 99 1 0 0 0 0, .psquash h0 (.n 2) (.n 3) true), (wd 2 0x17 97 98 0 0 0 0 0 0, .pinv h0 1 (.n 2)),
    (wd 2 0x18 0 99 100 0 0 0 0 0, .pcomm h0 (.n 3) (.n 4)), (wd 2 0x19 97 98 99 6 0 1 0 0, .pxpl h0 1 (.n 2) (.n 3) (.s 6) true),
    (wd 2 0x1A 0 98 0 0 0 0 0 0, .pdrop h0 (.n 2)), (wd 2 0x1B 5 98 0 0 0 0 0 4, .pquery h0 (.s 5) (.n 2) 4),
    (wd 2 0x1C 97 6 0 1 0 0 0 0, .nnew h0 1 (.tensor (.s 6))), (wd 2 0x1C 97 6 0 5 0 0 0 0, .nnew h0 1 (.cellseg (.s 6))), (wd 2 0x1C 97 98 0 8 0 0 0 0, .nnew h0 1 (.aliasName (.n 2))),
    (wd 2 0x1D 0 98 0 0 0 0 0 0, .ndest h0 (.n 2)), (wd 2 0x1E 97 98 0 0 0 0 0 5, .nres h0 1 (.n 2) 5),
    (wd 2 0x1F 82 97 116 99 0 0 0 5, .ncas h0 2 (.n 1) .zero (.n 3) 5), (wd 2 0x20 97 98 0 0 0 0 0 0, .nmov h0 (.nn 1 (.n 2))),
    (wd 2 0x20 97 113 0 0 0 0 0 0, .nmov h0 (.np 1 (.p 1))), (wd 2 0x20 97 8 0 0 0 0 0 0, .nmov h0 (.ns 1 4)), (wd 2 0x20 8 97 0 0 0 0 0 0, .nmov h0 (.sn 4 (.n 1))),
    (wd 2 0x20 97 6 0 0 1 16 1 0, .nmov h0 (.ld 1 (.off (.s 6) 16) none_)), (wd 2 0x20 0 6 0 97 2 16 1 0, .nmov h0 (.st (.off (.s 6) 16) (.n 1) none_)),
    (wd 2 0x20 15 97 0 0 3 0 0 0, .nmov h0 (.h 15 (.n 1))), (wd 2 0x21 80 97 98 0 0 0 0 0, .ncmp h0 0 (.n 1) (.n 2)),
    (wd 2 0x22 5 6 0 0 0 128 1 4, .cpin h0 (.s 5) (.off (.s 6) 128) 4), (wd 2 0x23 0 6 0 0 0 128 1 0, .cunpin h0 (.off (.s 6) 128)),
    (wd 2 0x24 1 6 0 0 0 128 1 0, .cwb h0 (.off (.s 6) 128) true), (wd 2 0x25 0 6 0 0 0 128 1 0, .cinv h0 (.off (.s 6) 128) false)]) = true := by decide +kernel

/-- The flow, engine, modifier and system classes (R63, R91 to R93). -/
theorem test_other_classes_decode : reads [
    (wd 3 0x00 0 0 0 0 0 0xFFFE 0 0, .br h0 0xFFFE), (wd 3 0x01 0 6 7 3 6 5 0 0, .brc h0 .n32 (.s 6) (.s 7) .le 5), (wd 3 0x02 0 6 0 0 0 0 0 0, .jmpi h0 (.s 6)),
    (wd 3 0x03 5 0 0 0 0 7 0 0, .call h0 (.s 5) 7), (wd 3 0x04 0 6 0 0 0 0 0 0, .ret h0 (.s 6)), (wd 3 0x05 0 6 0 0 0 0xFFFB 0 0, .loop h0 6 0xFFFB),
    (wd 3 0x06 0 0 0 0 0 0x71F 0 0, .rotset h0 31 7), (wd 3 0x07 0 0 0 0 0 99 0 0, .trap h0 99), (wd 3 0x08 0 0 0 0 0 0 0 0, .rett h0),
    (wd 3 0x09 0 0 0 0 0 255 0 0, .swait h0 255), (wd 3 0x0A 0 6 0 0 0 3 0 0, .ssig h0 3 (some (.s 6))), (wd 3 0x0A 0 0 0 0 0 3 0 0, .ssig h0 3 none),
    (wd 3 0x0B 0 6 0 0 0 3 0 0, .sset h0 3 (.s 6)), (wd 3 0x0C 5 0 0 0 0 3 0 2, .sread h0 (.s 5) 3 2), (wd 3 0x0D 0 0 0 1 0 0 0 0, .bar h0 true),
    (wd 3 0x0E 0 6 0 0 0 16 1 0, .comm h0 (.off (.s 6) 16)), (wd 3 0x0F 0 0 0 0 0 6 0 0, .fence h0 6), (wd 3 0x10 0 6 0 0 0 16 1 0, .launch h0 (.off (.s 6) 16)),
    (wd 3 0x11 0 0 0 0 0 0 0 0, .yield h0), (wd 3 0x12 0 0 0 0 0 0 0 0, .exit h0),
    (wd 4 0x00 3 6 0 0 0 16 1 0, .eqpush h0 .coll (.off (.s 6) 16)), (wd 4 0x01 2 6 0 0 0 0 0 0, .eqpushv h0 .copy1 (.v 6)), (wd 4 0x02 5 0 0 1 0 0 0 0, .eqstat h0 (.s 5) .copy0),
    (wd 4 0x03 76 6 0 0 0 0 0 0, .fpush h0 (.s 6)), (wd 4 0x04 5 0 0 0 0 3 0 9, .qpop h0 (.s 5) 3 9), (wd 4 0x05 0 6 0 0 0 2 0 0, .qpush h0 2 (.s 6)),
    (wd 4 0x06 5 0 0 0 0 8 0 0, .qstat h0 (.s 5) 8), (wd 4 0x07 5 0 0 2 0 0 0 0, .estat h0 (.s 5) .coll),
    (BitVec.ofNat 80 (5 * 2 ^ 77 + 5 * 2 ^ 66 + 2 * 2 ^ 63 + 2 ^ 62 + 2 ^ 61 + 10 * 2 ^ 54 + 11 * 2 ^ 47 + 2 ^ 46 + 63 * 2 ^ 40 + 2 ^ 39 + 2 * 2 ^ 37 + 9 * 2 ^ 33 + 8 * 2 ^ 29
        + 7 * 2 ^ 12), .xm 7 { neg := 5, abs := 2, sat := true, clen := true, clo := 10, chi := 11, scen := true, k := 63, rmen := true, rm := 2, usC := 9, usD := 8 }),
    (wd 6 0x00 0 6 0 0 0 16 1 0, .segld h0 (.off (.s 6) 16)), (wd 6 0x01 0 6 0 0 0 0 0 0, .seginv h0 (.s 6)), (wd 6 0x02 0 6 7 0 0 0 0 0, .htlbinv h0 (.s 6) (.s 7) false),
    (wd 6 0x02 0 6 0 1 0 0 0 0, .htlbinv h0 (.s 6) (.s 0) true), (wd 6 0x03 0 0 0 0 0 0 0 0, .banksw h0), (wd 6 0x04 1 6 0 0 0 16 1 0, .banksave h0 true (.off (.s 6) 16)),
    (wd 6 0x05 0 6 0 0 0 16 1 0, .bankload h0 false (.off (.s 6) 16)), (wd 6 0x06 0 97 0 0 0 0 0 0, .ucload h0 (.n 1)), (wd 6 0x07 0 97 0 1 0 0 0 0, .quench h0 (.n 1) true),
    (wd 6 0x08 0 97 0 0 0 0 0 0, .qresume h0 (.n 1)), (wd 6 0x09 0 97 6 0 0 44 0 0, .ckpt h0 1 (.s 6) 44), (wd 6 0x0A 0 97 0 0 0 0 0 0, .ckres h0 1),
    (wd 6 0x0B 0 6 7 0 0 0 0 0, .keybind h0 (.s 6) (.s 7)), (wd 6 0x0C 0 6 7 1 0 0 0 0, .biasflip h0 (.s 6) (.s 7) true), (wd 6 0x0D 0 0 0 0 0 0 0 0, .idle h0),
    (wd 6 0x0E 0 0 0 0 0 0 0 0, .halt h0), (wd 6 0x0F 0 6 7 0 0 0 0 0, .partset h0 (.s 6) (.s 7))] = true := by decide +kernel

/-- Words that R50 to R66, R84 to R95 and the forms refuse: a guard of 1000, an unused field, a code of the wrong file, a type outside the group, a tagged
word without a tag, a modifier, an unassigned opcode, a reserved class, a bit of XM that must be zero. -/
theorem test_refused_words : ([wordG 0 0x01 8 5 6 7 0 3 0 0 0 0 0 0, wd 0 0x00 1 0 0 0 0 0 0 0, wd 0 0x01 80 6 7 0 3 0 0 0, wd 0 0x01 5 6 7 0 0xA 0 0 0, wd 0 0x01 5 6 7 0 3 0 1 0,
    wd 0 0x17 5 6 0 0 3 0 1 0, wd 0 0x14 80 6 7 7 3 0 0 0, wd 0 0x27 0 0 0 0 0 0 0 0, wd 1 0x29 81 82 83 0 0 0 0 1, wd 2 0x00 7 4 0 0x40 2 64 1 2, wd 2 0x26 0 0 0 0 0 0 0 0,
    wd 2 0x20 97 9 0 0 0 0 0 0, wd 3 0x13 0 0 0 0 0 0 0 0, wd 3 0x0F 0 0 0 0 0 7 0 0, wd 4 0x03 75 6 0 0 0 0 0 0, wd 5 0x01 0 0 0 0 0 0 0 0, wd 5 0x00 0 0 0 0 0 0 1 0,
    wd 6 0x10 0 0 0 0 0 0 0 0, wd 7 0x00 0 0 0 0 0 0 0 0] : List Word80).all (fun w => decode80 w == .illegalOpcode w) = true := by decide +kernel

/-- The engine words (R68, R69, R94). -/
theorem test_engine_words_decode :
    (([(0x0000, .endw), (0x8012, .lit 18), (0xFFFF, .lit 0x7FFF), (0x53E0, .ext 5088), (0x2000, .nopw), (0x2100, .dup), (0x2200, .drop), (0x2300, .swap), (0x2400, .over),
        (0x2503, .popq 3), (0x2602, .pushb 2), (0x2700, .callw), (0x2800, .retw), (0x29FF, .waitk 255), (0x2A07, .sigk 7)] : List (EngWord × Instr)).all (fun p =>
          [Eng.anvil, .copy, .coll].all (fun e => decode16 e p.1 == p.2))
      && ([(0x2C05, .setl 5), (0x2D07, .setb 7), (0x2E00, .lstat), (0x2F00, .swapp), (0x3003, .zacc 3), (0x3100, .go 0), (0x3202, .drain 2), (0x3301, .amaxc 1),
        (0x3403, .layer 3)] : List (EngWord × Instr)).all (fun p => decode16 .anvil p.1 == p.2)
      && ([(0x2C0F, .tload 15), (0x2D01, .tstore 1), (0x2E00, .tpad), (0x2F00, .lcopy), (0x3000, .sload), (0x3100, .sstore), (0x3200, .tree), (0x3302, .tpair 2), (0x3403, .egath 3),
        (0x3504, .txpose 4)] : List (EngWord × Instr)).all (fun p => decode16 .copy p.1 == p.2)
      && ([(0x2C00, .cslot), (0x2D00, .cput), (0x2E03, .cred 3), (0x2F00, .cbcast), (0x30FF, .csig 255)] : List (EngWord × Instr)).all (fun p => decode16 .coll p.1 == p.2)
      && ([(.anvil, 0x0001), (.anvil, 0x1FFF), (.anvil, 0x2001), (.copy, 0x2B00), (.anvil, 0x2C06), (.coll, 0x3101), (.copy, 0x3600), (.anvil, 0x3404)] : List (Eng × EngWord)).all
        (fun p => decode16 p.1 p.2 == .engineIllegalWord p.2)) = true := by decide +kernel

/-- The micro-operations (R232). -/
theorem test_micro_operations_decode :
    (([(0x0000000000000000, .uend), (0x1500FFFF80000001, .usetl 5 0xFFFF 0x80000001), (0x2700800000000001, .usetb 7 0x800000000001), (0x3400000000002800, .uaddb 4 10240),
        (0x4000000000000000, .ulstat), (0x5000000000000000, .uswapp), (0x6300000000000000, .uzacc 3), (0x7100000000000000, .ugo 1), (0x8200000000000000, .udrain 2),
        (0x9100000000000000, .uamaxc 1), (0xA20000000000FFFF, .usetlc 2 0xFFFF), (0xB000000000000003, .uloop 0 3), (0xC000000000000000, .ustripe)]
        : List (MicroWord × Instr)).all (fun p => decodeMicro p.1 == some p.2)
      && ([0xD000000000000000, 0x0001000000000000, 0x1600000000000000, 0x4000000000000001, 0x6400000000000000, 0xA200000000010000, 0xB000000000001000] : List MicroWord).all
        (fun w => decodeMicro w == none)) = true := by decide +kernel

/-! ## Well-formedness: an instruction that breaks each check -/

/-- Guards and types: one ill-formed instruction for each check on them. -/
theorem test_ill_formed_guards_and_types :
    (let g8 : Hdr := { h0 with guard := 8 }
     let g1 : Hdr := { h0 with guard := 1 }
     ([.nop g8, .add g8 .i64 (.s 1) (.s 2) (.imm 0), .add h0 .f32 (.s 1) (.s 2) (.imm 0), .and g8 (.s 1) (.s 2) (.imm 0), .cmp h0 .f32 0 (.s 1) (.imm 0) .eq,
       .cmp h0 .i64 0 (.s 1) (.imm 0) .un, .movi h0 (.s 1) (.s 2) 5 0, .lea g8 (.s 1) (.off (.s 2) 0), .ld h0 .bf16 (.s 1) (.off (.s 2) 0) 1, .st h0 .l4 (.off (.s 2) 0) (.s 1),
       .csrr g8 (.s 1) 0, .fadd h0 .i32 (.s 1) (.s 2) (.imm 0), .fcvt h0 .l4 .f32 (.s 1) (.s 2), .fcvt h0 .f32 .h8 (.s 1) (.s 2), .fcmp h0 .i32 0 (.s 1) (.imm 0) .eq,
       .ftolog h0 .f32 .f32 (.s 1) (.s 2) (.s 3), .ftolog h0 .l8 .i32 (.s 1) (.s 2) (.s 3), .ffromlog h0 .l8 .l8 (.s 1) (.s 2) (.s 3),
       .ffromlog h0 .f32 .f32 (.s 1) (.s 2) (.s 3), .vadd h0 .i64 (.v 1) (.v 2) (.imm 0), .vrcp h0 .i32 (.v 1) (.v 2), .vand h0 .f32 (.v 1) (.v 2) (.imm 0),
       .vcmp h0 .l8 0 (.v 1) (.imm 0) .eq, .vcmp h0 .i32 0 (.v 1) (.imm 0) .un, .vsel h0 .n64 (.v 1) (.m 1) (.v 2) (.v 3), .vcvt h0 .i64 .f32 (.v 1) (.v 2),
       .vcvt h0 .f32 .l8 (.v 1) (.v 2), .vtolog h0 .h4 .f32 (.v 1) (.v 2) (.v 3), .vtolog h0 .l4 .i8 (.v 1) (.v 2) (.v 3), .vfromlog h0 .i8 .l4 (.v 1) (.v 2) (.v 3),
       .vfromlog h0 .f32 .h4 (.v 1) (.v 2) (.v 3), .vqnt h0 .l4 .f32 (.v 1) (.v 2) (.v 3), .vqnt h0 .h4 .i8 (.v 1) (.v 2) (.v 3), .vdqnt h0 .i8 .h4 (.v 1) (.v 2) (.v 3),
       .vdqnt h0 .f32 .l4 (.v 1) (.v 2) (.v 3), .vbscale h0 .i8 .l4 (.v 1) (.v 2), .vbscale h0 .f32 .h4 (.v 1) (.v 2), .vredadd h0 .l16 (.v 1) (.v 2), .vscan h0 .i64 (.v 1) (.v 2) 0,
       .vhist h0 .i32 (.v 1) (.v 2) (.imm 0), .vcmprs h0 .i64 (.v 1) (.v 2), .vext g1 .i32 (.s 1) (.v 2) (.imm 0), .vext h0 .i64 (.s 1) (.v 2) (.imm 0),
       .vins h0 .i64 1 (.s 2) (.imm 0), .viota h0 .l4 (.v 1) (.s 2), .vld h0 .i64 (.v 1) (.off (.s 2) 0) 1, .vst h0 .n64 (.off (.s 2) 0) (.v 1),
       .vgath h0 .i64 (.v 1) (.s 2) (.v 3) 0 1, .vscat h0 .i64 (.s 2) (.v 3) 0 (.v 1), .portcfg g1 0 (.s 1), .mand g1 0 (.m 1) (.m 2), .mpop g1 .i32 (.s 1) (.m 1),
       .mpop h0 .i64 (.s 1) (.m 1), .vord h0 .i32 (.v 1) (.v 2), .br g8 0, .brc g8 .i64 (.s 1) (.s 2) .eq 0, .brc h0 .f32 (.s 1) (.s 2) .eq 0, .brc h0 .i64 (.s 1) (.s 2) .un 0,
       .jmpi g8 (.s 1), .bar g8 false, .launch g8 (.off (.s 1) 0), .eqpush g8 .anvil (.off (.s 1) 0), .qpush g8 0 (.s 1), .segld g8 (.off (.s 1) 0), .halt g8] : List Instr).all
      (fun i => !WellFormed i)) = true := by decide +kernel

/-- Tags, modifiers, register pairs and forms: one ill-formed instruction for each check on them. -/
theorem test_ill_formed_operands :
    (let g8 : Hdr := { h0 with guard := 8 }
     let m : MemOp := .off (.s 2) 0
     let mm (sc : BitVec 3) (o : BitVec 2) (row opn : Bool) : Mmc := { scope := sc, order := o, row := row, opn := opn }
     let ok := mm 0 0 false false
     let x : XmMod := { neg := 0, abs := 0, sat := false, clen := true, clo := 0, chi := 0, scen := false, k := 0, rmen := false, rm := 0, usC := 0, usD := 0 }
     ([.ld h0 .i64 (.s 1) m 0, .vld h0 .i32 (.v 1) m 0, .vgath h0 .i32 (.v 1) (.s 2) (.v 3) 0 0, .ldg h0 .i64 (.s 1) m (.mmc ok) 0, .ldg g8 .i64 (.s 1) m (.mmc ok) 1,
       .ldg h0 .l4 (.s 1) m (.mmc ok) 1, .ldg h0 .i64 (.s 1) m (.mmc (mm 7 1 false false)) 1, .ldg h0 .i64 (.s 1) m (.mmc (mm 0 1 false false)) 1,
       .ldg h0 .i64 (.s 1) m (.mmc (mm 4 0 false false)) 1, .ldg h0 .i64 (.s 1) m (.mmc (mm 4 2 false false)) 1, .ldg h0 .i64 (.s 1) (.idx (.s 1) (.s 2) 0) (.asof (.n 1)) 1,
       .stg h0 .l4 m (.s 1) (.mmc ok), .stg h0 .i64 m (.s 1) (.mmc (mm 4 1 false false)), .stg h0 .i64 m (.s 1) (.mmc (mm 0 0 true false)), .stg h0 .i64 m (.s 1) (.mmc (mm 0 0 false true)),
       .vldg h0 .i64 (.v 1) m (.mmc ok) 1, .vldg h0 .i32 (.v 1) m (.mmc ok) 0, .vldg h0 .i32 (.v 1) m (.mmc (mm 1 2 false false)) 1, .vstg h0 .n64 m (.v 1) (.mmc ok),
       .vstg h0 .i32 m (.v 1) (.mmc (mm 1 1 false false)), .prefg g8 m false, .aadd h0 .f16 m (.s 1) (.mmc ok) 0, .aadd h0 .i64 m (.s 1) (.mmc (mm 0 0 true false)) 0,
       .aadd h0 .i64 m .pts (.mmc ok) 1, .amin h0 .f32 m (.s 1) ok 0, .amin h0 .i64 m (.s 1) (mm 0 0 false true) 0, .amin h0 .i64 m (.bq 0) ok 1, .axchg h0 .i64 m (.s 1) ok 0,
       .axchg h0 .f32 m (.s 1) ok 1, .axchg h0 .i64 m .zero ok 1, .acas h0 .f32 1 m (.s 1) 1, .acas h0 .i64 1 m (.s 1) 0, .adcas h0 .i32 1 (.s 1) (.s 2) 2 1, .adcas h0 .i64 1 (.s 1) (.s 2) 2 0,
       .amove h0 .f32 (.s 1) (.s 2) (.s 3) 1, .amove h0 .i64 (.s 1) (.s 2) (.s 3) 0, .aradd h0 .i32 (.s 1) 0 false (.v 2) (.mmc ok) 0, .aradd h0 .f32 (.s 1) 0 true (.v 3) (.mmc ok) 0,
       .aradd h0 .f32 (.s 1) 0 true .zero (.mmc ok) 0, .armax h0 .f32 (.s 1) 0 false .lane (.mmc ok) 1, .armax h0 .f32 (.s 1) 0 false (.v 2) (.mmc (mm 0 0 true false)) 0,
       .pbegin h0 0 (.n 1) (.add .f16), .ppair h0 0 (.n 1) (.n 2) (.sharedAdd .i64), .pjoin g8 0 (.n 1), .pquery h0 (.s 1) (.n 1) 0, .nnew h0 0 (.aliasName .zero), .nnew g8 0 (.tensor (.s 1)),
       .ndest g8 (.n 1), .nres h0 0 (.n 1) 0, .ncas h0 0 (.n 1) (.n 2) (.n 3) 0, .nmov h0 (.np 0 .zero), .nmov h0 (.ld 0 m (mm 1 2 false false)), .nmov h0 (.st m (.n 1) (mm 1 1 false false)),
       .nmov g8 (.nn 0 (.n 1)), .ncmp g8 0 (.n 1) (.n 2), .cpin h0 (.s 1) m 0, .cunpin g8 m, .ssig h0 0 (some (.s 0)), .sset g8 0 (.s 1), .sread h0 (.s 1) 0 0, .fence h0 0, .fence h0 7,
       .qpop h0 (.s 1) 0 0, .xm 0 { x with clo := 64 }, .xm 0 { x with chi := 64 }, .illegalOpcode 0, .htlbinv h0 (.s 1) (.s 2) true, .engineIllegalWord 1] : List Instr).all
      (fun i => !WellFormed i)) = true := by decide +kernel

/-! ## Results that the manual works out -/

/-- The state after an instruction. -/
def after (i : Instr) (s : State) : State :=
  match exec i s with
  | .next t => t
  | .fault _ => s
  | .refused _ => s

/-- The last result that a word leaves on its way, with its flags. -/
def resultOf (i : Instr) (s : State) : Option (RVal × FlagSet) := (after i s).bank.writes.getLast?.map (fun w => (w.val, w.flags))

/-- The test bank with x in s1 and y in s2. -/
def with2 (x y : Word) : State := ready.tweak (fun b => { b with s := (b.s.set 1 x).set 2 y })

/-- A scalar word over s1 and s2 gives a word and flags. -/
def gives2 (i : Instr) (x y r : Word) (f : FlagSet) : Bool := resultOf i (with2 x y) == some (.word r, f)

/-- A vector word gives bytes in the lowest places, for sources v2 and v3, and flags. -/
def givesV (i : Instr) (x y : Nat) (n r : Nat) (f : FlagSet) : Bool :=
  match resultOf i (ready.tweak (fun b => { b with v := (b.v.set 2 (BitVec.ofNat 2048 x)).set 3 (BitVec.ofNat 2048 y) })) with
  | some (.vec w _, g) => w.toNat % 2 ^ n == r && g == f
  | some (.word _, _) | some (.mask _ _, _) | some (.cond _, _) | some (.name _, _) | some (.patchReg _, _) | some (.sample _, _) | none => false

/-- The integer words (R102): an i32 sum wraps and its sign fills the register, an unsigned one zero-extends; the fixed corners of DIV and REM; MULH
takes the high half, rounding down; comparison goes by the type's sign. -/
theorem test_integer_corners :
    (gives2 (.add h0 .i32 (.s 4) (.s 1) (.reg (.s 2))) 0x7FFFFFFF 1 0xFFFFFFFF80000000 0
      && gives2 (.add h0 .n8 (.s 4) (.s 1) (.reg (.s 2))) 0xFF 2 1 0
      && gives2 (.div h0 .i64 (.s 4) (.s 1) (.reg (.s 2))) 5 0 0xFFFFFFFFFFFFFFFF 0 && gives2 (.div h0 .n16 (.s 4) (.s 1) (.reg (.s 2))) 5 0 0xFFFF 0
      && gives2 (.rem h0 .i64 (.s 4) (.s 1) (.reg (.s 2))) 5 0 5 0 && gives2 (.rem h0 .i8 (.s 4) (.s 1) (.reg (.s 2))) 0xF9 2 0xFFFFFFFFFFFFFFFF 0
      && gives2 (.div h0 .i8 (.s 4) (.s 1) (.reg (.s 2))) 0x80 0xFF 0xFFFFFFFFFFFFFF80 0 && gives2 (.rem h0 .i8 (.s 4) (.s 1) (.reg (.s 2))) 0x80 0xFF 0 0
      && gives2 (.mulh h0 .i32 (.s 4) (.s 1) (.reg (.s 2))) 0xFFFFFFFF 1 0xFFFFFFFFFFFFFFFF 0
      && gives2 (.max h0 .i8 (.s 4) (.s 1) (.reg (.s 2))) 0xFF 1 1 0 && gives2 (.max h0 .n8 (.s 4) (.s 1) (.reg (.s 2))) 0xFF 1 0xFF 0) = true := by decide +kernel

/-- The bit words (R103, R88): shift amounts are taken modulo 64, an immediate is zero-extended. -/
theorem test_bit_words :
    (gives2 (.shl h0 (.s 4) (.s 1) (.reg (.s 2))) 3 65 6 0 && gives2 (.sar h0 (.s 4) (.s 1) (.imm 63)) 0x8000000000000000 0 0xFFFFFFFFFFFFFFFF 0
      && gives2 (.rot h0 (.s 4) (.s 1) (.imm 4)) 0xF000000000000001 0 0x1F 0 && gives2 (.or h0 (.s 4) (.s 1) (.imm 0x8000)) 0 0 0x8000 0
      && gives2 (.andn h0 (.s 4) (.s 1) (.reg (.s 2))) 0xFF 0x0F 0xF0 0 && gives2 (.clz h0 (.s 4) (.s 1)) 0 0 64 0 && gives2 (.popc h0 (.s 4) (.s 1)) 0xFF 0 8 0
      && gives2 (.movi h0 (.s 4) (.s 1) 0xABCD 3) 7 0 0xABCD000000000007 0 && gives2 (.movi h0 (.s 4) (.s 0) 0x8000 0) 7 0 0xFFFFFFFFFFFF8000 0) = true := by decide +kernel

/-- The conversions into L8 of R36's table, without a scale and with the scale 0x006, and the two conversions back of R40. -/
theorem test_log_conversions :
    (let toL8 (x sc r : Word) (f : FlagSet) : Bool := gives2 (.ftolog h0 .l8 .f32 (.s 4) (.s 1) (.s 2)) x sc r f
     toL8 0x40400000 0 0x19 0 && toL8 0xBDCCCCCD 0 0xCB 0 && toL8 0x3D851EB8 0 0x41 0 && toL8 0x3D75C28F 0 0x40 Flag.luf
       && toL8 0x41A00000 0 0x3F Flag.lsat && toL8 0x41A00000 6 0x3F 0
       && gives2 (.ffromlog h0 .f32 .l8 (.s 4) (.s 1) (.s 2)) 0x19 0 0x403D0900 0
       && gives2 (.ffromlog h0 .f32 .l8 (.s 4) (.s 1) (.s 2)) 0xCB 0 0xBDCE2500 0) = true := by decide +kernel

/-- Adding f32 (R28, R29): 1 + 2^-24 is a tie and takes the even 1, inexact; infinity minus infinity is the canonical NaN and invalid. -/
theorem test_float_sums :
    (gives2 (.fadd h0 .f32 (.s 4) (.s 1) (.reg (.s 2))) 0x3F800000 0x33800000 0x3F800000 Flag.inx
      && gives2 (.fadd h0 .f32 (.s 4) (.s 1) (.reg (.s 2))) 0x3F800000 0x40000000 0x40400000 0
      && gives2 (.fadd h0 .f32 (.s 4) (.s 1) (.reg (.s 2))) 0x7F800000 0xFF800000 0x7FC00000 Flag.inv) = true := by decide +kernel

/-- The worked VQNT and VDQNT of R139, the keys of VORD on f16 (R140), and VHIST's counts of 64 zero lanes (R142). -/
theorem test_vector_results :
    (let x : Nat := 0x41100000_40700000_C0000000_3FA66666
     let headers : Nat := 0x00083800_00083800
     givesV (.vqnt h0 .h4 .f32 (.v 4) (.v 2) (.v 3)) x headers 24 0x88FF4A (Flag.inx ||| Flag.sati)
       && givesV (.vdqnt h0 .f32 .h4 (.v 4) (.v 2) (.v 3)) 0x8FF4A headers 160 0x3E800000_40700000_40700000_BFE00000_3FA00000 0
       && givesV (.vord h0 .f16 (.v 4) (.v 2)) 0x3C00_0000_8000_BC00 0 64 0xBC00_8000_8000_43FF 0
       && givesV (.vhist h0 .n32 (.v 4) (.v 2) (.imm 0)) 5 0 192 (63 + 2 ^ 160) 0) = true := by decide +kernel

/-- The worked block of R45: the block's exact sum is 46341 times 2^-13, and added to 1.0 it gives 54533 times 2^-13, with no flag. -/
theorem test_worked_block :
    (someAnd (FmtWord.of 0xCCA00000) (fun f =>
      someAnd (f.blockSum [.val false 16, .val true 8] [(0, .val false 40), (1, .val false 32)]) (fun d =>
        roundVal .f32 .rne false (.num d) == (0x40B50500, 0) && f.accumulate 0x3F800000 d == (0x40D50500, 0)))) = true := by decide +kernel

/-- The placement that R236 tabulates: 64 bytes of data, W, A and C, and a queue of four 64-byte elements whose address stands in a LIT and an EXT, with the guard granules between
them, and fields that name A and the queue filled; in bank 1 the same starts at 2 MiB, where the field that names A is too narrow, and a whole core's room is needed for 3 MiB. -/
theorem test_loader_places_as_tabulated :
    (let a (n : Nat) : Alloc := { size := n, align := 32, persist := false, queue := none }
     let o : OverlayObj := { overlayObj with
       data := List.replicate 64 0
       allocs := [a 0x2800, a 0x200, { a 0x100 with persist := true }, { size := 0, align := 64, persist := false, queue := some (.anvil, 0x200C0000000#64) }]
       words := [0]
       slot := 0x1F010
       relocs := [{ add := 0, parts := [(some 0, 17, 16)], limit := 32767, label := .alloc 1 }, { add := 0, parts := [(none, 16, 14), (none, 0, 15)], limit := 2 ^ 22, label := .alloc 3 }] }
     let low := o.place 0 0x200000
     someAnd low (fun p => p.guards == [0x01, 0x2A, 0x2B, 0x2E, 0x2F, 0x31, 0x32, 0x34] && p.persist == [(0x3000, 0x100)]
         && p.queues == [(.anvil, 0x200C0003300#64)] && p.words == [0x58000000#80] && p.runs == [(0, 0x100), (0x100, 0x2A00), (0x2B00, 0x400), (0x2F00, 0x300), (0x3200, 0x300)]
         && (p.data.take 4).map (fun x => x.2) == [0, 0, 0, 0x33])
       && absent (o.place 0x200000 0x200000)
       && someAnd (({ o with relocs := o.relocs.drop 1 } : OverlayObj).place 0x200000 0x200000 |>.map (fun p => p.queues)) (fun l => l == [(.anvil, 0x200C0203300#64)])
       && absent (({ o with allocs := [a 0x300000], relocs := [] } : OverlayObj).place 0 0x200000)
       && (({ o with allocs := [a 0x300000], relocs := [] } : OverlayObj).place 0 0x400000).isSome
       && absent (({ o with allocs := [a 0x8000, a 1] } : OverlayObj).place 0 0x200000)) = true := by decide +kernel

/-- A chunk's place in a stack (R208): chunk 60 * (4 * 65 + 3) + 5 is pseudo-channel 1 of channel 2, column 0x300, bank 1 of row 1. -/
theorem test_dram_place :
    DramPlace.ofChunk 7 (60 * (4 * 65 + 3) + 5) = { stack := 7, channel := 2, pseudo := 1, bank := 1, row := 1, column := 0x300 } := by decide

/-- A bank's status in its image (R336): what is packed is read back. -/
theorem test_image_packs_and_unpacks :
    (let v : SavedBank := { SavedBank.blank none 3 with
       bank := { ready.bank with pc := 1234, tvecEn := true, tvecHdlr := 77, trap := { ready.bank.trap with act := true, code := 0x16, taddr := 5 } } }
     let u := unpackSlots (packSlots 0 v 0x40 0x200 statusSlots) { SavedBank.blank none 3 with bank := ready.bank } (statusSlots.map (fun y => { y with off := y.off - 0x40 }))
     u.bank.pc == v.bank.pc && u.bank.tvecEn && u.bank.tvecHdlr == 77 && u.bank.trap == v.bank.trap) = true := by decide +kernel

/-- EveryWordWaitsTrapsOrIsPassedOver: a word whose input port asks for a memory bank that has served another requester in this cycle. -/
theorem test_word_asks_for_a_memory_bank :
    (let p : Port := { base := 0x1000, csz := 256, counts := [1], strides := [0], next := 0, readyAt := 0, ahead := [] }
     let s := (ready.tweak (fun b => { b with ports := b.ports.set 0 (some p) })).tweakCore (fun c => { c with grants := [{ who := 0, no := 1, block := 0 }] })
     stands (.vadd h0 .i32 (.v 1) (.port 0) (.imm 1)) s (fun r => match r with
       | .ask l => l == [0]
       | .stall | .off | .go | .fault _ => false)) = true := by decide +kernel

/-- StoresWriteOnlyTheirBytes: a store of 8 bytes over a sector's end sets out in two pieces, and the first of them is a store. -/
theorem test_store_sets_out_in_sectors :
    (let s := ready.tweak (fun b => { b with s := (b.s.set 1 0x101C).set 2 0x8877665544332211 })
     let l := (after (.st h0 .i64 (.off (.s 1) 0) (.s 2)) s).cur.laccs
     l.map (fun x => (x.no, x.store, x.pieces.map (fun p => p.map (fun m => (m.addr, m.val, m.mask)))))
       == [(s.cur.accSeq, true, [[(0x101C, 0x11, 0xFF), (0x101D, 0x22, 0xFF), (0x101E, 0x33, 0xFF), (0x101F, 0x44, 0xFF)],
         [(0x1020, 0x55, 0xFF), (0x1021, 0x66, 0xFF), (0x1022, 0x77, 0xFF), (0x1023, 0x88, 0xFF)]])]
       && goes (.st h0 .i64 (.off (.s 1) 0) (.s 2)) s) = true := by decide +kernel

/-- Two results for one register in one cycle land in issue order, also where the earlier one is a sample (R59, R108). -/
theorem test_results_land_in_issue_order :
    (let w (v : RVal) : PendWrite := { due := 0, dst := some (.reg (.s 1)), val := v, tag := 0, flags := 0, pc := 0, vecUnit := false, interlock := false }
     let end_ (l : List PendWrite) : Word := ((ready.tweak (fun b => { b with arst := 5, writes := l })).landBank 0 false).bank.getS 1
     end_ [w (.sample (.csr 0)), w (.word 64)] == 64 && end_ [w (.word 64), w (.sample (.csr 0))] == 5) = true := by decide +kernel

/-- The lanes of a 4-bit format are stored two to a byte. -/
theorem test_lane_bytes : Fmt.laneBytes .l4 = 1 ∧ Fmt.laneBytes .bf16 = 2 := by decide

/-- The constant 300 000 of R68, built on an engine's stack by LIT 18 and EXT 5088. -/
theorem test_engine_constant :
    (let s : State := { ready with focus := { core := 0, bank := false, eng := some .copy } }.modCore 0 (fun c =>
       c.setEngine .copy { c.copy with cur := some (entryA .copy0) })
     someAnd (after (.ext 5088) (after (.lit 18) s)).cur.copy.cur (fun n => n.pstack == [300000])) = true := by decide +kernel

end Sys2Proof.Machine
end

section
/-!
PROOF. The bit words (R103): each is one issue, and its function on all 64 bits is the one that the statement writes out.
-/
open Sys2Proof Sys2Proof.Machine

namespace Sys2Proof.Machine

theorem bitOp_eq_issue (f : Word → Word → Word) (h : Hdr) (d : SDst) (a : SSrc) (b : SrcB) (s : State) :
    bitOp f h d a b s = s.issue ((Need.of h).s a |>.sb b |>.ds d 1) none
      (fun t => .ok (give2 immZext d a b 1 (fun x y => (f x y, 0)) s t)) := rfl

theorem bitOp1_eq_issue (f : Word → Word) (h : Hdr) (d : SDst) (a : SSrc) (s : State) :
    bitOp1 f h d a s = s.issue ((Need.of h).s a |>.ds d 1) none (fun t => .ok (give1 d a 1 (fun x => (f x, 0)) s t)) := rfl

/-- A word whose meaning is `bitOp f` completes with `f` of its operands. -/
theorem gives_of_bitOp {i : Instr} {f : Word → Word → Word} {h : Hdr} {d : SDst} {a : SSrc} {b : SrcB}
    (hn : needOf i = some ((Need.of h).s a |>.sb b |>.ds d 1)) (he : ∀ s, exec i s = .next (bitOp f h d a b s)) :
    Gives i (give2 immZext d a b 1 (fun x y => (f x y, 0))) := by
  simp only [bitOp_eq_issue] at he
  exact gives_of_issue hn he (fun _ _ => rfl)

/-- A word whose meaning is `bitOp1 f` completes with `f` of its operand. -/
theorem gives_of_bitOp1 {i : Instr} {f : Word → Word} {h : Hdr} {d : SDst} {a : SSrc}
    (hn : needOf i = some ((Need.of h).s a |>.ds d 1)) (he : ∀ s, exec i s = .next (bitOp1 f h d a s)) :
    Gives i (give1 d a 1 (fun x => (f x, 0))) := by
  simp only [bitOp1_eq_issue] at he
  exact gives_of_issue hn he (fun _ _ => rfl)

theorem or_shifts_eq_rotateLeft (x y : Word) : x <<< shamt y ||| x >>> (64 - shamt y) = x.rotateLeft (y.toNat % 64) := by
  simp only [BitVec.rotateLeft, BitVec.rotateLeftAux, shamt, Nat.mod_mod]

theorem leadingZeros_eq (x : Word) : leadingZeros x = BitVec.ofNat 64 (if x = 0 then 64 else 63 - Nat.log2 x.toNat) :=
  (apply_ite (BitVec.ofNat 64) _ _ _).symm

theorem onesBelow_eq_countP (v n : Nat) : onesBelow v n = (List.range n).countP (fun i => v.testBit i) := by
  induction n with
  | zero => rfl
  | succ n ih => rw [onesBelow, ih, List.range_succ, List.countP_append, List.countP_singleton]

end Sys2Proof.Machine

/-- Settles O2: each word is a `bitOp` or a `bitOp1`; ROT, CLZ and POPC also need their function in the form of the statement. -/
theorem bitWordsComplete : Obligations.BitWordsComplete := by
  unfold Obligations.BitWordsComplete
  intro h d a b
  have rot : Gives (.rot h d a b) (give2 immZext d a b 1 (fun x y => (x.rotateLeft (y.toNat % 64), 0))) := by
    simp only [← or_shifts_eq_rotateLeft]
    exact gives_of_bitOp rfl (fun _ => rfl)
  have clz : Gives (.clz h d a) (give1 d a 1 (fun x => (BitVec.ofNat 64 (if x = 0 then 64 else 63 - Nat.log2 x.toNat), 0))) := by
    simp only [← leadingZeros_eq]
    exact gives_of_bitOp1 rfl (fun _ => rfl)
  have popc : Gives (.popc h d a)
      (give1 d a 1 (fun x => (BitVec.ofNat 64 ((List.range 64).countP (fun i => x.getLsbD i)), 0))) := by
    simp only [BitVec.getLsbD, ← onesBelow_eq_countP]
    exact gives_of_bitOp1 rfl (fun _ => rfl)
  exact ⟨gives_of_bitOp rfl (fun _ => rfl), gives_of_bitOp rfl (fun _ => rfl), gives_of_bitOp rfl (fun _ => rfl),
    gives_of_bitOp rfl (fun _ => rfl), gives_of_bitOp rfl (fun _ => rfl), gives_of_bitOp rfl (fun _ => rfl),
    gives_of_bitOp rfl (fun _ => rfl), rot, clz, popc⟩
end

section
/-!
PROOF. TRAP and RETT (R118, R119): what an issue comes to for a word that is passed over or that faults, and two changes of one bank.
-/
open Sys2Proof Sys2Proof.Machine

namespace Sys2Proof.Machine

theorem Sparse.put_put {α : Type} (m : Sparse α) (a : Nat) (x y : α) : Sparse.put (Sparse.put m a x) a y = Sparse.put m a y := by
  induction m with
  | nil => simp [Sparse.put]
  | cons p r ih =>
    obtain ⟨k, v⟩ := p
    rcases Nat.lt_trichotomy a k with hlt | rfl | hgt
    · simp [Sparse.put, hlt]
    · simp [Sparse.put]
    · simp [Sparse.put, hgt.not_gt, hgt.ne', ih]

@[simp] theorem State.setCore_setCore (s : State) (i : Nat) (c d : Core) : (s.setCore i c).setCore i d = s.setCore i d := by
  simp only [State.setCore, Sparse.put_put]

@[simp] theorem Core.setBank_setBank (c : Core) (b : Bool) (x y : Bank) : (c.setBank b x).setBank b y = c.setBank b y := by
  cases b <;> rfl

@[simp] theorem State.setBank_setBank (s : State) (x y : Bank) : (s.setBank x).setBank y = s.setBank y := by
  simp [State.setBank, State.modCur, State.modCore]

/-- Two changes of the acting bank are one. -/
theorem State.modBank_modBank (s : State) (f g : Bank → Bank) : (s.modBank f).modBank g = s.modBank (fun b => g (f b)) := by
  simp only [State.modBank, State.bank_setBank, State.setBank_setBank]

/-- A fault is reported as it is by a word outside the vector unit, unless a port is exhausted (R332). -/
theorem Need.from_eq_self {n : Need} {t : TrapInfo} (hv : n.vec = false) (ht : t.code ≠ 0x0A) : n.from t = t := by
  have hc : (t.code == 0x0A) = false := beq_false_of_ne ht
  simp only [Need.from, hv, hc, Bool.or_false, Bool.and_false, Bool.false_eq_true, if_false]

/-- A word guarded off below the last word address only moves pc on (R55). -/
theorem State.issue_off_next {s : State} {n : Need} (h : s.classify n none = .off) (hpc : s.bank.pc.toNat < 26213) (body : State → Result) :
    s.issue n none body = s.modBank (fun b => { b with pc := b.pc + 1, prevIssue := s.cycle, bound := s.cycle + 1 }) := by
  have hin : ¬ s.bank.pc.toNat + wordsOf none > lastWord := Nat.not_lt.mpr hpc
  rw [State.issue_off h, if_neg hin]
  rfl

/-- A word without a memory access advances by changing its bank alone. -/
theorem State.advance_of_not_mem (s : State) {n : Need} (hm : n.mem = false) :
    s.advance n none = s.modBank (fun b => { b with pc := b.pc + 1, prevIssue := s.cycle, bound := s.cycle + 1 }) := by
  simp only [State.advance, hm]
  rfl

/-- A jump to a word of the store sets pc and the earliest next issue (R61). -/
theorem State.jump_setWidth {s : State} {pc : BitVec 15} (hpc : pc.toNat ≤ 26213) (gap : Nat) :
    s.jump (pc.setWidth 64) gap = .ok (s.modBank (fun b => { b with pc := pc, bound := s.cycle + gap })) := by
  have hin : ¬ (pc.setWidth 64).toNat > lastWord := by
    rw [BitVec.toNat_setWidth_of_le (by decide)]
    exact hpc.not_gt
  have hback : (pc.setWidth 64).setWidth 15 = pc := by
    rw [BitVec.setWidth_setWidth_of_le _ (by decide), BitVec.setWidth_eq]
  simp only [State.jump, if_neg hin, hback]

theorem exec_trap (h : Hdr) (code : BitVec 16) (s : State) :
    exec (.trap h code) s = .next (s.issue (Need.of h).ends none fun _ => .fault { faultDetail 0x1F code with skip := true }) := rfl

/-- What RETT does once it has issued (R119). -/
def State.rettBody (t : State) : Result :=
  if !t.bank.trap.act then .fault (fault 0x01) else (t.modBank Bank.returnTrap).jump (t.bank.trap.rpc.setWidth 64) 3

theorem exec_rett (h : Hdr) (s : State) : exec (.rett h) s = .next (s.issue (Need.of h).ends none State.rettBody) := rfl

theorem State.rettBody_of_not_act {t : State} (ha : t.bank.trap.act = false) : t.rettBody = .fault (fault 0x01) := by
  simp [State.rettBody, ha]

theorem State.rettBody_of_act {t : State} (ha : t.bank.trap.act = true) (hr : t.bank.trap.rpc.toNat ≤ 26213) :
    t.rettBody = .ok (t.modBank (fun b => { b.returnTrap with bound := t.cycle + 3 })) := by
  simp only [State.rettBody, ha, State.jump_setWidth hr, State.modBank_modBank]
  rfl

end Sys2Proof.Machine

/-- Settles O54: TRAP always faults at its turn; RETT faults or jumps as act stands, which advancing leaves as it was. -/
theorem trapAndReturn : Obligations.TrapAndReturn := by
  unfold Obligations.TrapAndReturn
  intro h code s
  have trapCode : (0x1F : BitVec 8) ≠ 0x0A := by decide
  have advanced := s.advance_of_not_mem (n := (Need.of h).ends) rfl
  have sameTrap : (s.advance (Need.of h).ends none).bank.trap = s.bank.trap := by rw [advanced, State.bank_modBank]
  refine ⟨fun hgo => ?_, fun hoff hpc => ?_, fun hgo hon => ?_, fun hgo hact => ?_, fun hoff hpc => ?_⟩
  · rw [exec_trap, State.issue_go_fault hgo rfl, Need.from_eq_self rfl trapCode]
    rfl
  · rw [exec_trap, State.issue_off_next hoff hpc]
  · obtain ⟨hact, hrpc⟩ := hon
    rw [← sameTrap] at hact hrpc
    rw [exec_rett, State.issue_go_ok hgo (State.rettBody_of_act hact hrpc), advanced, State.modBank_modBank]
    rfl
  · rw [← sameTrap] at hact
    rw [exec_rett, State.issue_go_fault hgo (State.rettBody_of_not_act hact), Need.from_eq_self rfl (by decide)]
  · rw [exec_rett, State.issue_off_next hoff hpc]
end

section
/-!
PROOF. The round trip of the encodings (R50, R63, R68, R69, R232): each field of a word that the encoder writes reads back as the operand
it was written for, so that the row of the decoder which the opcode picks gives the instruction.
-/
open Sys2Proof

namespace Sys2Proof

/-! ### Reading the fields of a word -/

@[simp] theorem Decoded.ok_bind {α β : Type} (a : α) (k : α → Decoded β) : (Except.ok a >>= k) = k a := rfl
@[simp] theorem Decoded.map_ok {α β : Type} (a : α) (k : α → β) : Except.map k (Except.ok a : Decoded α) = .ok (k a) := rfl
@[simp] theorem need_ok {b : Bool} (e : DecodeError) (h : b = true) : need b e = .ok () := by
  rw [h]
  rfl

@[simp] theorem below_mod {k n : Nat} (e : DecodeError) (x : Fin k) (h : k ≤ n) : below k (x.val % n) e = .ok x := by
  simp only [below, Nat.mod_eq_of_lt (Nat.lt_of_lt_of_le x.isLt h), x.isLt, dite_true]

@[simp] theorem below_regCode {k : Nat} (e : DecodeError) (x : Fin k) (h : k ≤ 128) : below k (regCode 0 x.val).toNat e = .ok x := by
  rw [regCode, Nat.zero_add, BitVec.toNat_ofNat, below_mod e x h]

@[simp] theorem Fields.unused_eq (f : Fields) (l : List Fld) : f.unused l = need (l.all f.isZero) .unusedField := rfl
@[simp] theorem Fields.isZero_dst (f : Fields) : f.isZero .dst = (f.dst == 0) := rfl
@[simp] theorem Fields.isZero_a (f : Fields) : f.isZero .a = (f.a == 0) := rfl
@[simp] theorem Fields.isZero_b (f : Fields) : f.isZero .b = (f.b == 0) := rfl
@[simp] theorem Fields.isZero_c (f : Fields) : f.isZero .c = (f.c == 0) := rfl
@[simp] theorem Fields.isZero_ty (f : Fields) : f.isZero .ty = (f.ty == 0) := rfl
@[simp] theorem Fields.isZero_imm (f : Fields) : f.isZero .imm = (f.imm == 0 && f.i == 0) := rfl
@[simp] theorem Fields.isZero_i (f : Fields) : f.isZero .i = (f.i == 0) := rfl
@[simp] theorem Fields.isZero_al (f : Fields) : f.isZero .al = (f.al == 0) := rfl

section
variable {cls : BitVec 3} {op : BitVec 8} {dst a b c : BitVec 7} {ty : BitVec 4} {imm : BitVec 16} {i : BitVec 1} {al : BitVec 4} {h : Hdr}

@[simp] theorem Fields.cond_mk (hc : h.cond = true) :
    Fields.cond ⟨cls, op, h.guard, dst, a, b, c, ty, imm, i, h.pd, al, h.usA, h.usB⟩ = .ok h := if_pos hc
@[simp] theorem Fields.whole_mk (hc : h.whole = true) :
    Fields.whole ⟨cls, op, h.guard, dst, a, b, c, ty, imm, i, h.pd, al, h.usA, h.usB⟩ = .ok h := if_pos hc
@[simp] theorem Fields.mask_mk :
    Fields.mask ⟨cls, op, h.guard, dst, a, b, c, ty, imm, i, h.pd, al, h.usA, h.usB⟩ = .ok h := rfl
@[simp] theorem Fields.typ_mk {t : Fmt} {p : Fmt → Bool} (hp : p t = true) :
    Fields.typ ⟨cls, op, h.guard, dst, a, b, c, t.code, imm, i, h.pd, al, h.usA, h.usB⟩ p = .ok t := by
  simp [Fields.typ, hp]
@[simp] theorem Fields.typC_mk {t : Fmt} {p : Fmt → Bool} (hp : p t = true) :
    Fields.typC ⟨cls, op, h.guard, dst, a, b, t.codeC, ty, imm, i, h.pd, al, h.usA, h.usB⟩ p = .ok t := Fmt.code_typC _ _ _ rfl hp
@[simp] theorem Fields.tag_mk (hc : tagged al = true) :
    Fields.tag ⟨cls, op, h.guard, dst, a, b, c, ty, imm, i, h.pd, al, h.usA, h.usB⟩ = .ok al := if_pos hc
@[simp] theorem Fields.shift_mk (k : Fin 8) :
    Fields.shift ⟨cls, op, h.guard, dst, a, b, c, ty, BitVec.ofNat 16 k.val, i, h.pd, al, h.usA, h.usB⟩ = .ok k := by
  simp [Fields.shift]
@[simp] theorem Fields.sem_mk (k : BitVec 8) :
    Fields.sem ⟨cls, op, h.guard, dst, a, b, c, ty, k.setWidth 16, i, h.pd, al, h.usA, h.usB⟩ = .ok k := by
  have hk : (k.setWidth 16).toNat < 256 := by
    rw [BitVec.toNat_setWidth_of_le (by decide)]
    exact k.isLt
  simp only [Fields.sem, hk, if_true, BitVec.setWidth_setWidth_of_le k (show 8 ≤ 16 by decide), BitVec.setWidth_eq]

@[simp] theorem Fields.srcB_reg (r : SSrc) :
    Fields.srcB ⟨cls, op, h.guard, dst, a, r.code, c, ty, 0#16, 0#1, h.pd, al, h.usA, h.usB⟩ = .ok (.reg r) := by
  simp [Fields.srcB]
@[simp] theorem Fields.srcB_imm (v : BitVec 16) :
    Fields.srcB ⟨cls, op, h.guard, dst, a, 0#7, c, ty, v, 1#1, h.pd, al, h.usA, h.usB⟩ = .ok (.imm v) := rfl
@[simp] theorem Fields.vsrcB_reg (r : VSrc) :
    Fields.vsrcB ⟨cls, op, h.guard, dst, a, r.code, c, ty, 0#16, 0#1, h.pd, al, h.usA, h.usB⟩ = .ok (.reg r) := by
  simp [Fields.vsrcB]
@[simp] theorem Fields.vsrcB_imm (v : BitVec 16) :
    Fields.vsrcB ⟨cls, op, h.guard, dst, a, 0#7, c, ty, v, 1#1, h.pd, al, h.usA, h.usB⟩ = .ok (.imm v) := rfl
@[simp] theorem Fields.mem_off (r : SSrc) (o : BitVec 16) :
    Fields.mem ⟨cls, op, h.guard, dst, r.code, 0#7, c, ty, o, 1#1, h.pd, al, h.usA, h.usB⟩ = .ok (.off r o) := by
  simp [Fields.mem]
@[simp] theorem Fields.mem_idx (r q : SSrc) (k : Fin 8) :
    Fields.mem ⟨cls, op, h.guard, dst, r.code, q.code, c, ty, BitVec.ofNat 16 k.val, 0#1, h.pd, al, h.usA, h.usB⟩ = .ok (.idx r q k) := by
  simp [Fields.mem]
end


/-! ### Operands with a condition -/

@[simp] theorem Mmc.read_code {p : Mmc → Bool} {o : Mmc} (h : p o = true) : Mmc.read p o.code = .ok o := by
  simp [Mmc.read, h]

theorem StDst.read_store {o : StDst} (h : o.wf = true) : StDst.read Mmc.store o.code = .ok o := by
  cases o <;> simp_all [StDst.wf, Mmc.store]

theorem StDst.read_atomic {o : StDst} (h : o.wfAtomic = true) : StDst.read Mmc.atomic o.code = .ok o := by
  cases o <;> simp_all [StDst.wfAtomic, Mmc.atomic]

theorem PKind.ofCode_code {k : PKind} (h : k.wf = true) : PKind.ofCode k.code k.ty = .ok k := by
  cases k <;> simp_all [PKind.wf, PKind.ofCode, PKind.code, PKind.ty]

theorem Cond.wf_of_isFlt {t : Fmt} (k : Cond) (h : t.isFlt = true) : k.wf t = true := by
  simp [Cond.wf, h]

theorem SSrc.code_eq_zero_iff (r : SSrc) : r.code = 0#7 ↔ r = .s 0 := by
  cases r with
  | s r => revert r; decide
  | bq q => revert q; decide
  | zero | pts | cycle => decide

theorem decodeWord_scalar {f : Fields} {i : Instr} (h : f.cls = 0) (hd : decodeScalar f = .ok i) : decodeWord f.toWord = .ok i := by
  simp only [decodeWord, Fields.ofWord_toWord, h]
  exact hd

theorem decodeWord_vector {f : Fields} {i : Instr} (h : f.cls = 1) (hd : decodeVector f = .ok i) : decodeWord f.toWord = .ok i := by
  simp only [decodeWord, Fields.ofWord_toWord, h]
  exact hd

theorem decodeWord_memory {f : Fields} {i : Instr} (h : f.cls = 2) (hd : decodeMemory f = .ok i) : decodeWord f.toWord = .ok i := by
  simp only [decodeWord, Fields.ofWord_toWord, h]
  exact hd

theorem decodeWord_flow {f : Fields} {i : Instr} (h : f.cls = 3) (hd : decodeFlow f = .ok i) : decodeWord f.toWord = .ok i := by
  simp only [decodeWord, Fields.ofWord_toWord, h]
  exact hd

theorem decodeWord_engineClass {f : Fields} {i : Instr} (h : f.cls = 4) (hd : decodeEngineClass f = .ok i) : decodeWord f.toWord = .ok i := by
  simp only [decodeWord, Fields.ofWord_toWord, h]
  exact hd

theorem decodeWord_system {f : Fields} {i : Instr} (h : f.cls = 6) (hd : decodeSystem f = .ok i) : decodeWord f.toWord = .ok i := by
  simp only [decodeWord, Fields.ofWord_toWord, h]
  exact hd


/-- The fields of ROTSET's immediate. -/
theorem rotset_fields (v : BitVec 5) (m : BitVec 3) :
    let w : BitVec 16 := 0#5 ++ m ++ 0#3 ++ v
    w.extractLsb' 0 5 = v ∧ w.extractLsb' 5 3 = 0#3 ∧ w.extractLsb' 8 3 = m ∧ w.extractLsb' 11 5 = 0#5 := by
  simp (disch := omega) only [BitVec.extractLsb'_append_eq_of_le, BitVec.extractLsb'_append_eq_of_add_le, Nat.reduceSub]
  simp [BitVec.extractLsb'_eq_self]

@[simp] theorem NSrc.ofCode_patchCode (r : Fin 4) : NSrc.ofCode (regCode 112 r.val) = .error .operandCode := by revert r; decide
@[simp] theorem NSrc.ofCode_evenCode (r : Fin 32) : NSrc.ofCode (evenCode r) = .error .operandCode := by revert r; decide
@[simp] theorem fileReg112_evenCode (r : Fin 32) : fileReg 112 4 (evenCode r) = .error .operandCode := by revert r; decide
@[simp] theorem fileReg96_evenCode (r : Fin 32) : fileReg 96 16 (evenCode r) = .error .operandCode := by revert r; decide

theorem of_and_three {a b c : Bool} (h : (a && b && c) = true) : a = true ∧ b = true ∧ c = true := by
  rwa [Bool.and_eq_true, Bool.and_eq_true, and_assoc] at h

theorem of_and_four {a b c d : Bool} (h : (a && b && c && d) = true) : a = true ∧ b = true ∧ c = true ∧ d = true := by
  rwa [Bool.and_eq_true, Bool.and_eq_true, Bool.and_eq_true, and_assoc, and_assoc] at h

theorem of_and_five {a b c d e : Bool} (h : (a && b && c && d && e) = true) :
    a = true ∧ b = true ∧ c = true ∧ d = true ∧ e = true := by
  rwa [Bool.and_eq_true, Bool.and_eq_true, Bool.and_eq_true, Bool.and_eq_true, and_assoc, and_assoc, and_assoc] at h

/-! ### Control-stream words -/

/-- Every control-stream word reads back as the instruction that it was written for: the class and the opcode pick the row of the decoder,
a chain of binds, and each of its reads succeeds. -/
theorem decodeWord_encodeFields {i : Instr} {f : Fields} (hw : WellFormed i = true) (he : encodeFields i = some f) :
    decodeWord f.toWord = .ok i := by
  cases i with
  | add h ty d a b | sub h ty d a b | mul h ty d a b | mulh h ty d a b | div h ty d a b | rem h ty d a b | min h ty d a b | max h ty d a b
  | fadd h ty d a b | fmul h ty d a b | fmin h ty d a b | fmax h ty d a b =>
    obtain rfl := Option.some.inj he
    have hc := (Bool.and_eq_true _ _).mp hw
    cases b <;> (refine decodeWord_scalar rfl ?_; change Bind.bind _ _ = _; simp [Fields.base, Fields.putB, hc])
  | cmp h ty d a b k =>
    obtain rfl := Option.some.inj he
    have hc := of_and_three hw
    cases b <;> (refine decodeWord_scalar rfl ?_; change Bind.bind _ _ = _; simp [Fields.base, Fields.putB, hc])
  | fcmp h ty d a b k =>
    obtain rfl := Option.some.inj he
    have hc := (Bool.and_eq_true _ _).mp hw
    cases b <;> (refine decodeWord_scalar rfl ?_; change Bind.bind _ _ = _; simp [Fields.base, Fields.putB, Cond.wf_of_isFlt, hc])
  | and h d a b | or h d a b | xor h d a b | andn h d a b | shl h d a b | shr h d a b | sar h d a b | rot h d a b =>
    obtain rfl := Option.some.inj he
    have hc : Hdr.cond _ = true := hw
    cases b <;> (refine decodeWord_scalar rfl ?_; change Bind.bind _ _ = _; simp [Fields.base, Fields.putB, hc])
  | clz h d a | popc h d a | sel h d a b c | csrr h d csr | csrw h csr a | cand h d a b | cor h d a b | cxor h d a b | nop h =>
    obtain rfl := Option.some.inj he
    have hc : Hdr.cond _ = true := hw
    refine decodeWord_scalar rfl ?_
    change Bind.bind _ _ = _
    simp [Fields.base, hc]
  | movi h d a v sh =>
    obtain rfl := Option.some.inj he
    have hc := (Bool.and_eq_true _ _).mp hw
    refine decodeWord_scalar rfl ?_
    change Bind.bind _ _ = _
    simp [Fields.base, hc]
  | lea h d m =>
    obtain rfl := Option.some.inj he
    have hc : Hdr.cond _ = true := hw
    cases m <;> (refine decodeWord_scalar rfl ?_; change Bind.bind _ _ = _; simp [Fields.base, Fields.putMem, hc])
  | ld h ty d m al =>
    obtain rfl := Option.some.inj he
    have hc := of_and_three hw
    cases m <;> (refine decodeWord_scalar rfl ?_; change Bind.bind _ _ = _; simp [Fields.base, Fields.putMem, hc])
  | st h ty m c =>
    obtain rfl := Option.some.inj he
    have hc := (Bool.and_eq_true _ _).mp hw
    cases m <;> (refine decodeWord_scalar rfl ?_; change Bind.bind _ _ = _; simp [Fields.base, Fields.putMem, hc])
  | ffma h ty d a b c =>
    obtain rfl := Option.some.inj he
    have hc := (Bool.and_eq_true _ _).mp hw
    refine decodeWord_scalar rfl ?_
    change Bind.bind _ _ = _
    simp [Fields.base, hc]
  | fcvt h ty src d a | ftolog h ty src d a b | ffromlog h ty src d a b =>
    obtain rfl := Option.some.inj he
    have hc := of_and_three hw
    refine decodeWord_scalar rfl ?_
    change Bind.bind _ _ = _
    simp [Fields.base, hc]
  | vadd h ty d a b | vsub h ty d a b | vmul h ty d a b | vmin h ty d a b | vmax h ty d a b =>
    obtain rfl := Option.some.inj he
    have hc : Fmt.isVArith _ = true := hw
    cases b <;> (refine decodeWord_vector rfl ?_; change Bind.bind _ _ = _; simp [Fields.base, Fields.putVB, hc])
  | vand h ty d a b | vor h ty d a b | vxor h ty d a b | vshl h ty d a b | vshr h ty d a b | vsar h ty d a b =>
    obtain rfl := Option.some.inj he
    have hc : Fmt.isVInt _ = true := hw
    cases b <;> (refine decodeWord_vector rfl ?_; change Bind.bind _ _ = _; simp [Fields.base, Fields.putVB, hc])
  | vfma h ty d a b c | vrcp h ty d a | vrsq h ty d a | vexp2 h ty d a | vlog2 h ty d a | vord h ty d a =>
    obtain rfl := Option.some.inj he
    have hc : Fmt.isFlt _ = true := hw
    refine decodeWord_vector rfl ?_
    change Bind.bind _ _ = _
    simp [Fields.base, hc]
  | vredadd h ty d a | vredmax h ty d a | vredmin h ty d a | vscan h ty d a op | viota h ty d a =>
    obtain rfl := Option.some.inj he
    have hc : Fmt.isVArith _ = true := hw
    refine decodeWord_vector rfl ?_
    change Bind.bind _ _ = _
    simp [Fields.base, hc]
  | vsel h ty d a b c | vcmprs h ty d a | vperm h ty d a b | vbcast h ty d a | vscat h ty a b k c =>
    obtain rfl := Option.some.inj he
    have hc : Fmt.isAny _ = true := hw
    refine decodeWord_vector rfl ?_
    change Bind.bind _ _ = _
    simp [Fields.base, hc]
  | vslide h ty d a b down | vins h ty d a b =>
    obtain rfl := Option.some.inj he
    have hc : Fmt.isAny _ = true := hw
    cases b <;> (refine decodeWord_vector rfl ?_; change Bind.bind _ _ = _; simp [Fields.base, Fields.putB, hc])
  | vst h ty m c =>
    obtain rfl := Option.some.inj he
    have hc : Fmt.isAny _ = true := hw
    cases m <;> (refine decodeWord_vector rfl ?_; change Bind.bind _ _ = _; simp [Fields.base, Fields.putMem, hc])
  | vld h ty d m al =>
    obtain rfl := Option.some.inj he
    have hc := (Bool.and_eq_true _ _).mp hw
    cases m <;> (refine decodeWord_vector rfl ?_; change Bind.bind _ _ = _; simp [Fields.base, Fields.putMem, hc])
  | vgath h ty d a b k al =>
    obtain rfl := Option.some.inj he
    have hc := (Bool.and_eq_true _ _).mp hw
    refine decodeWord_vector rfl ?_
    change Bind.bind _ _ = _
    simp [Fields.base, hc]
  | vcmp h ty d a b k =>
    obtain rfl := Option.some.inj he
    have hc := (Bool.and_eq_true _ _).mp hw
    cases b <;> (refine decodeWord_vector rfl ?_; change Bind.bind _ _ = _; simp [Fields.base, Fields.putVB, hc])
  | vcvt h ty src d a | vtolog h ty src d a b | vfromlog h ty src d a b | vqnt h ty src d a b | vdqnt h ty src d a b | vbscale h ty tgt d a =>
    obtain rfl := Option.some.inj he
    have hc := (Bool.and_eq_true _ _).mp hw
    refine decodeWord_vector rfl ?_
    change Bind.bind _ _ = _
    simp [Fields.base, hc]
  | mand h d a b | mor h d a b | mxor h d a b | mnot h d a | portcfg h port a =>
    obtain rfl := Option.some.inj he
    have hc : Hdr.whole _ = true := hw
    refine decodeWord_vector rfl ?_
    change Bind.bind _ _ = _
    simp [Fields.base, hc]
  | mpop h ty d a | mfirst h ty d a =>
    obtain rfl := Option.some.inj he
    have hc := (Bool.and_eq_true _ _).mp hw
    refine decodeWord_vector rfl ?_
    change Bind.bind _ _ = _
    simp [Fields.base, hc]
  | vext h ty d a b =>
    obtain rfl := Option.some.inj he
    have hc := (Bool.and_eq_true _ _).mp hw
    cases b <;> (refine decodeWord_vector rfl ?_; change Bind.bind _ _ = _; simp [Fields.base, Fields.putB, hc])
  | vhist h ty d a b =>
    obtain rfl := Option.some.inj he
    have hc : (ty == .n16 || ty == .n32) = true := hw
    cases b <;> (refine decodeWord_vector rfl ?_; change Bind.bind _ _ = _; simp [Fields.base, Fields.putB, hc])
  | pjoin h d a | pseal h a | pabort h a | psquash h a b x | pinv h d a | pcomm h a b | pdrop h a | ndest h a | ncmp h d a b =>
    obtain rfl := Option.some.inj he
    have hc : Hdr.cond _ = true := hw
    refine decodeWord_memory rfl ?_
    change Bind.bind _ _ = _
    simp [Fields.base, hc]
  | pxpl h d a b c mv =>
    obtain rfl := Option.some.inj he
    have hc : Hdr.cond _ = true := hw
    cases mv <;> (refine decodeWord_memory rfl ?_; change Bind.bind _ _ = _; simp [Fields.base, hc])
  | pquery h d a al | nres h d a al | ncas h d a b c al =>
    obtain rfl := Option.some.inj he
    have hc := (Bool.and_eq_true _ _).mp hw
    refine decodeWord_memory rfl ?_
    change Bind.bind _ _ = _
    simp [Fields.base, hc]
  | pbegin h d a k | ppair h d a b k =>
    obtain rfl := Option.some.inj he
    have hc := (Bool.and_eq_true _ _).mp hw
    refine decodeWord_memory rfl ?_
    change Bind.bind _ _ = _
    simp [Fields.base, PKind.ofCode_code, hc]
  | prefg h m l2 | cunpin h m | cwb h m l2 | cinv h m l2 =>
    obtain rfl := Option.some.inj he
    have hc : Hdr.cond _ = true := hw
    cases m <;> (refine decodeWord_memory rfl ?_; change Bind.bind _ _ = _; simp [Fields.base, Fields.putMem, hc])
  | cpin h d m al =>
    obtain rfl := Option.some.inj he
    have hc := (Bool.and_eq_true _ _).mp hw
    cases m <;> (refine decodeWord_memory rfl ?_; change Bind.bind _ _ = _; simp [Fields.base, Fields.putMem, hc])
  | stg h ty m c o =>
    obtain rfl := Option.some.inj he
    have hc := of_and_three hw
    cases m <;> (refine decodeWord_memory rfl ?_; change Bind.bind _ _ = _; simp [Fields.base, Fields.putMem, StDst.read_store, hc])
  | vstg h ty m c o =>
    obtain rfl := Option.some.inj he
    have hc := (Bool.and_eq_true _ _).mp hw
    cases m <;> (refine decodeWord_memory rfl ?_; change Bind.bind _ _ = _; simp [Fields.base, Fields.putMem, StDst.read_store, hc])
  | acas h ty d m c al =>
    obtain rfl := Option.some.inj he
    have hc := of_and_three hw
    cases m <;> (refine decodeWord_memory rfl ?_; change Bind.bind _ _ = _; simp [Fields.base, Fields.putMem, hc])
  | amove h ty d a b al =>
    obtain rfl := Option.some.inj he
    have hc := of_and_three hw
    refine decodeWord_memory rfl ?_
    change Bind.bind _ _ = _
    simp [Fields.base, hc]
  | adcas h ty d a b c al =>
    obtain rfl := Option.some.inj he
    have hc := of_and_three hw
    refine decodeWord_memory rfl ?_
    change Bind.bind _ _ = _
    simp [Fields.base, hc]
  | aradd h ty a off pair c o al | armax h ty a off pair c o al =>
    obtain rfl := Option.some.inj he
    have hc := of_and_three hw
    refine decodeWord_memory rfl ?_
    change Bind.bind _ _ = _
    simp [Fields.base, StDst.read_atomic, hc]
  | amin h ty m c o al | amax h ty m c o al | aand h ty m c o al | aor h ty m c o al | axor h ty m c o al =>
    obtain rfl := Option.some.inj he
    have hc := of_and_four hw
    simp at hc
    cases m <;> (refine decodeWord_memory rfl ?_; change Bind.bind _ _ = _; simp [Fields.base, Fields.putMem, hc])
  | aadd h ty m c o al =>
    obtain rfl := Option.some.inj he
    have hc := of_and_four hw
    simp at hc
    cases m <;> (refine decodeWord_memory rfl ?_; change Bind.bind _ _ = _; simp [Fields.base, Fields.putMem, StDst.read_atomic, hc])
  | axchg h ty m c o al =>
    obtain rfl := Option.some.inj he
    have hc := of_and_five hw
    cases m <;> (refine decodeWord_memory rfl ?_; change Bind.bind _ _ = _; simp [Fields.base, Fields.putMem, hc])
  | vldg h ty d m o al =>
    obtain rfl := Option.some.inj he
    have hc := of_and_three hw
    cases m <;> cases o <;>
      (refine decodeWord_memory rfl ?_; change Bind.bind _ _ = _
       simp_all [Fields.base, Fields.putMem, Fields.putLd, Fields.loadMem, LdMod.wf])
  | ldg h ty d m o al =>
    obtain rfl := Option.some.inj he
    have hc := of_and_four hw
    cases m <;> cases o <;>
      (refine decodeWord_memory rfl ?_; change Bind.bind _ _ = _
       simp_all [Fields.base, Fields.putMem, Fields.putLd, Fields.loadMem, LdMod.wf])
  | nnew h d f =>
    obtain rfl := Option.some.inj he
    have hc := (Bool.and_eq_true _ _).mp hw
    cases f with
    | tensor a | cellseg a =>
      refine decodeWord_memory rfl ?_
      change Bind.bind _ _ = _
      simp [Fields.base, decodeNnew, hc]
    | aliasName a =>
      refine decodeWord_memory rfl ?_
      change Bind.bind _ _ = _
      cases a with
      | n r => simp [Fields.base, decodeNnew, NSrc.code, hc]
      | zero => simp at hc
  | nmov h f =>
    obtain rfl := Option.some.inj he
    have hc := (Bool.and_eq_true _ _).mp hw
    cases f with
    | nn d a | ns d a | sn d a | h d a =>
      refine decodeWord_memory rfl ?_
      change Bind.bind _ _ = _
      simp [Fields.base, decodeNmov, hc]
    | np d a =>
      refine decodeWord_memory rfl ?_
      change Bind.bind _ _ = _
      cases a with
      | p r => simp [Fields.base, decodeNmov, PSrc.code, hc]
      | zero => simp [NMovForm.wf] at hc
    | ld d m o | st m a o =>
      cases m <;> (refine decodeWord_memory rfl ?_; change Bind.bind _ _ = _
                   simp_all [Fields.base, decodeNmov, Fields.putMem, NMovForm.wf])
  | br h off | jmpi h a | call h d off | ret h a | loop h a off | trap h code | rett h | swait h k | sset h k a | bar h stage | yield h
  | exit h =>
    obtain rfl := Option.some.inj he
    have hc : Hdr.cond _ = true := hw
    refine decodeWord_flow rfl ?_
    change Bind.bind _ _ = _
    simp [Fields.base, hc]
  | brc h ty a b k off =>
    obtain rfl := Option.some.inj he
    have hc := of_and_three hw
    refine decodeWord_flow rfl ?_
    change Bind.bind _ _ = _
    simp [Fields.base, hc]
  | comm h m | launch h m =>
    obtain rfl := Option.some.inj he
    have hc : Hdr.cond _ = true := hw
    cases m <;> (refine decodeWord_flow rfl ?_; change Bind.bind _ _ = _; simp [Fields.base, Fields.putMem, hc])
  | sread h d k al =>
    obtain rfl := Option.some.inj he
    have hc := (Bool.and_eq_true _ _).mp hw
    refine decodeWord_flow rfl ?_
    change Bind.bind _ _ = _
    simp [Fields.base, hc]
  | rotset h v m =>
    obtain rfl := Option.some.inj he
    have hc : Hdr.cond _ = true := hw
    refine decodeWord_flow rfl ?_
    change Bind.bind _ _ = _
    simp [Fields.base, hc, rotset_fields v m]
  | fence h scope =>
    obtain rfl := Option.some.inj he
    have hc := of_and_three hw
    have hs : scope.toNat % 65536 < 8 := Nat.lt_of_le_of_lt (Nat.mod_le _ _) scope.isLt
    have hz : (scope != 0#3 && scope != 7#3) = true := (Bool.and_eq_true _ _).mpr hc.2
    refine decodeWord_flow rfl ?_
    change Bind.bind _ _ = _
    simp [Fields.base, hc.1, hs, hz, -bne_iff_ne]
  | ssig h k a =>
    obtain rfl := Option.some.inj he
    obtain ⟨hc, ha⟩ := (Bool.and_eq_true _ _).mp hw
    refine decodeWord_flow rfl ?_
    change Bind.bind _ _ = _
    cases a <;> simp_all [Fields.base, SSrc.code_eq_zero_iff]
  | eqpushv h q a | eqstat h d q | fpush h a | qpush h q a | qstat h d q | estat h d e =>
    obtain rfl := Option.some.inj he
    have hc : Hdr.cond _ = true := hw
    refine decodeWord_engineClass rfl ?_
    change Bind.bind _ _ = _
    simp [Fields.base, hc]
  | eqpush h q m =>
    obtain rfl := Option.some.inj he
    have hc : Hdr.cond _ = true := hw
    cases m <;> (refine decodeWord_engineClass rfl ?_; change Bind.bind _ _ = _; simp [Fields.base, Fields.putMem, hc])
  | qpop h d q al =>
    obtain rfl := Option.some.inj he
    have hc := (Bool.and_eq_true _ _).mp hw
    refine decodeWord_engineClass rfl ?_
    change Bind.bind _ _ = _
    simp [Fields.base, hc]
  | seginv h a | banksw h | ucload h a | quench h a now | qresume h a | ckpt h a b k | ckres h a | keybind h a b | biasflip h a b dev
  | idle h | halt h | partset h a b =>
    obtain rfl := Option.some.inj he
    have hc : Hdr.cond _ = true := hw
    refine decodeWord_system rfl ?_
    change Bind.bind _ _ = _
    simp [Fields.base, hc]
  | segld h m | banksave h bank m | bankload h bank m =>
    obtain rfl := Option.some.inj he
    have hc : Hdr.cond _ = true := hw
    cases m <;> (refine decodeWord_system rfl ?_; change Bind.bind _ _ = _; simp [Fields.base, Fields.putMem, hc])
  | htlbinv h a b all =>
    obtain rfl := Option.some.inj he
    have hc := (Bool.and_eq_true _ _).mp hw
    refine decodeWord_system rfl ?_
    change Bind.bind _ _ = _
    simp [Fields.base, hc]
  | _ => cases he

/-! ### XM (R63) -/
/-- The fields of an XM word. -/
theorem encodeXm_fields (pd : BitVec 4) (x : XmMod) :
    let w := encodeXm pd x
    w.extractLsb' 77 3 = 5#3 ∧ w.extractLsb' 69 8 = 0#8 ∧ w.extractLsb' 16 13 = 0#13 ∧ w.extractLsb' 12 4 = pd ∧ w.extractLsb' 0 12 = 0#12
      ∧ XmMod.ofWord w = x := by
  simp (disch := omega) only [encodeXm, XmMod.ofWord, BitVec.extractLsb'_append_eq_of_le, BitVec.extractLsb'_append_eq_of_add_le,
    BitVec.getLsbD_append, Nat.reduceSub, Nat.reduceLT, if_true, if_false]
  simp [BitVec.extractLsb'_eq_self]

theorem decodeWord_encodeXm {x : XmMod} (pd : BitVec 4) (hw : x.wf = true) : decodeWord (encodeXm pd x) = .ok (.xm pd x) := by
  obtain ⟨hcls, hop, hres, hpd, hlow, hx⟩ := encodeXm_fields pd x
  have hd : decodeWord (encodeXm pd x) = decodeXm (encodeXm pd x) := by
    simp only [decodeWord, Fields.ofWord, hcls]
    rfl
  rw [hd]
  simp only [decodeXm, hop, hres, hpd, hlow, hx, hw]
  rfl

/-! ### Engine words -/
theorem opWord_toNat {o a : Nat} (ho : o < 32) (ha : a < 256) : (opWord o a).toNat = 0x2000 + o * 256 + a := by
  rw [opWord, BitVec.toNat_ofNat, Nat.mod_eq_of_lt (by omega)]

section
variable {o a : Nat} (ho : o < 32) (ha : a < 256)
include ho ha

/-- Neither a literal nor the end, an operation word is read by its operation and argument. -/
theorem opWord_ranges : ¬ 0x8000 ≤ (opWord o a).toNat ∧ ¬ 0x4000 ≤ (opWord o a).toNat ∧ ¬ (opWord o a).toNat = 0
    ∧ ¬ (opWord o a).toNat < 0x2000 ∧ ((opWord o a).toNat - 0x2000) / 256 = o ∧ (opWord o a).toNat % 256 = a := by
  rw [opWord_toNat ho ha]
  omega

theorem decodeEngWord_common (e : Eng) (hc : o < 0x0C) : decodeEngWord e (opWord o a) = decodeCommon o a := by
  obtain ⟨hlit, hext, hend, hlow, hop, harg⟩ := opWord_ranges ho ha
  simp only [decodeEngWord, ge_iff_le, hlit, hext, hend, hlow, hop, harg, hc, if_true, if_false]

theorem decodeEngWord_anvil (hc : ¬ o < 0x0C) : decodeEngWord .anvil (opWord o a) = decodeAnvil o a := by
  obtain ⟨hlit, hext, hend, hlow, hop, harg⟩ := opWord_ranges ho ha
  simp only [decodeEngWord, ge_iff_le, hlit, hext, hend, hlow, hop, harg, hc, if_false]

theorem decodeEngWord_copy (hc : ¬ o < 0x0C) : decodeEngWord .copy (opWord o a) = decodeCopy o a := by
  obtain ⟨hlit, hext, hend, hlow, hop, harg⟩ := opWord_ranges ho ha
  simp only [decodeEngWord, ge_iff_le, hlit, hext, hend, hlow, hop, harg, hc, if_false]

theorem decodeEngWord_coll (hc : ¬ o < 0x0C) : decodeEngWord .coll (opWord o a) = decodeColl o a := by
  obtain ⟨hlit, hext, hend, hlow, hop, harg⟩ := opWord_ranges ho ha
  simp only [decodeEngWord, ge_iff_le, hlit, hext, hend, hlow, hop, harg, hc, if_false]

end

theorem decodeEngWord_lit (e : Eng) (v : BitVec 15) : decodeEngWord e (1#1 ++ v) = some (.lit v) := by
  have hn : (1#1 ++ v).toNat = 0x8000 + v.toNat := by
    rw [BitVec.toNat_append]
    exact (Nat.two_pow_add_eq_or_of_lt v.isLt 1).symm
  have hw : (1#1 ++ v).setWidth 15 = v := by
    apply BitVec.eq_of_toNat_eq
    rw [BitVec.toNat_setWidth, hn]
    omega
  simp [decodeEngWord, hn, hw]

theorem decodeEngWord_ext (e : Eng) (v : BitVec 14) : decodeEngWord e (1#2 ++ v) = some (.ext v) := by
  have hn : (1#2 ++ v).toNat = 0x4000 + v.toNat := by
    rw [BitVec.toNat_append]
    exact (Nat.two_pow_add_eq_or_of_lt v.isLt 1).symm
  have hw : (1#2 ++ v).setWidth 14 = v := by
    apply BitVec.eq_of_toNat_eq
    rw [BitVec.toNat_setWidth, hn]
    omega
  have hlow : ¬ 0x8000 ≤ 0x4000 + v.toNat := by omega
  simp [decodeEngWord, hn, hw, hlow]

/-- Every engine word reads back as its instruction, by an engine that has it. -/
theorem decodeEngWord_encode16 {i : Instr} {o : Option Eng} {w : EngWord} (e : Eng) (he : encode16 i = some (o, w))
    (ho : ∀ x, o = some x → x = e) : decodeEngWord e w = some i := by
  -- `over` is a keyword and cannot name an alternative, so OVER comes first.
  obtain rfl | hover := eq_or_ne i .over
  · cases he
    exact decodeEngWord_common (by decide) (by decide) e (by decide)
  cases i with
  | lit v => cases he; exact decodeEngWord_lit e v
  | ext v => cases he; exact decodeEngWord_ext e v
  | endw => cases he; rfl
  | nopw | dup | drop | swap | callw | retw => cases he; exact decodeEngWord_common (by decide) (by decide) e (by decide)
  | popq a | pushb a =>
    cases he
    exact (decodeEngWord_common (by decide) (by omega) e (by decide)).trans (dif_pos a.isLt)
  | waitk k | sigk k =>
    cases he
    rw [decodeEngWord_common (by decide) k.isLt e (by decide)]
    simp [decodeCommon]
  | lstat | swapp =>
    cases he
    cases ho _ rfl
    exact decodeEngWord_anvil (by decide) (by decide) (by decide)
  | setl a | setb a | zacc a | go a | drain a | amaxc a | layer a =>
    cases he
    cases ho _ rfl
    exact (decodeEngWord_anvil (by decide) (by omega) (by decide)).trans (dif_pos a.isLt)
  | tpad | lcopy | sload | sstore | tree =>
    cases he
    cases ho _ rfl
    exact decodeEngWord_copy (by decide) (by decide) (by decide)
  | tload a | tstore a | tpair a | egath a | txpose a =>
    cases he
    cases ho _ rfl
    exact (decodeEngWord_copy (by decide) (by omega) (by decide)).trans (dif_pos a.isLt)
  | cslot | cput | cbcast =>
    cases he
    cases ho _ rfl
    exact decodeEngWord_coll (by decide) (by decide) (by decide)
  | cred a =>
    cases he
    cases ho _ rfl
    exact (decodeEngWord_coll (by decide) (by omega) (by decide)).trans (dif_pos a.isLt)
  | csig k =>
    cases he
    cases ho _ rfl
    rw [decodeEngWord_coll (by decide) k.isLt (by decide)]
    simp [decodeColl]
  | _ => cases he <;> exact absurd rfl hover

/-! ### Micro-operations -/

/-- The fields of a micro-operation. -/
theorem microWord_fields (op a : BitVec 4) (v : BitVec 48) :
    let w := microWord op a v
    w.extractLsb' 0 48 = v ∧ w.extractLsb' 48 8 = 0#8 ∧ w.extractLsb' 56 4 = a ∧ w.extractLsb' 60 4 = op := by
  simp (disch := omega) only [microWord, BitVec.extractLsb'_append_eq_of_le, BitVec.extractLsb'_append_eq_of_add_le, Nat.reduceSub]
  simp [BitVec.extractLsb'_eq_self]

/-- The two parts of a micro-operation's value. -/
theorem append_fields {m n : Nat} (x : BitVec m) (y : BitVec n) : (x ++ y).extractLsb' n m = x ∧ (x ++ y).extractLsb' 0 n = y := by
  simp (disch := omega) only [BitVec.extractLsb'_append_eq_of_le, BitVec.extractLsb'_append_eq_of_add_le, Nat.sub_self]
  simp [BitVec.extractLsb'_eq_self]

theorem decodeMicro_encodeMicro {i : Instr} {w : MicroWord} (he : encodeMicro i = some w) : decodeMicro w = some i := by
  cases i with
  | uend | ulstat | uswapp | ustripe => cases he; rfl
  | usetb a _ | uaddb a _ | uzacc a | ugo a | udrain a | uamaxc a =>
    cases he
    have ha : a.val % 16 = a.val := Nat.mod_eq_of_lt (by omega)
    simp [decodeMicro, microWord_fields, ha]
  | usetl a _ _ | usetlc a _ | uloop a _ =>
    cases he
    have ha : a.val % 16 = a.val := Nat.mod_eq_of_lt (by omega)
    simp [decodeMicro, microWord_fields, ha]
    exact append_fields _ _
  | _ => cases he

theorem encode80_cases {i : Instr} {w : Word80} (he : encode80 i = some w) :
    (∃ pd x, i = .xm pd x ∧ encodeXm pd x = w) ∨ ∃ f, encodeFields i = some f ∧ f.toWord = w := by
  unfold encode80 at he
  split at he
  · exact .inl ⟨_, _, rfl, Option.some.inj he⟩
  · exact .inr (Option.map_eq_some_iff.mp he)

theorem decodeWord_encode80 {i : Instr} {w : Word80} (hw : WellFormed i = true) (he : encode80 i = some w) : decodeWord w = .ok i := by
  obtain ⟨pd, x, rfl, rfl⟩ | ⟨f, hf, rfl⟩ := encode80_cases he
  · exact decodeWord_encodeXm pd hw
  · exact decodeWord_encodeFields hw hf

end Sys2Proof

/-- Settles O46: the three round trips. -/
theorem encodedInstructionsDecode : Obligations.EncodedInstructionsDecode := by
  unfold Obligations.EncodedInstructionsDecode
  intro i hw
  refine ⟨fun w he => ?_, fun e w he => ?_, fun e w he => ?_, fun w he => decodeMicro_encodeMicro he⟩
  · rw [decode80, decodeWord_encode80 hw he]
  · rw [decode16, decodeEngWord_encode16 e he nofun, Option.getD_some]
  · rw [decode16, decodeEngWord_encode16 e he fun _ hx => (Option.some.inj hx).symm, Option.getD_some]
end

section
/-!
PROOF. The scalar class: each word is one issue, and its body is the result that the statement writes out.
-/
open Sys2Proof Sys2Proof.Machine

namespace Sys2Proof.Machine

/-- A meaning that is one issue whose body always takes effect completes so. -/
theorem gives_of_issue_ok {i : Instr} {n : Need} {post : State → State → State} (hn : needOf i = some n)
    (he : ∀ s, exec i s = .next (s.issue n none fun t => .ok (post s t))) : Gives i post :=
  gives_of_issue hn he fun _ _ => rfl

/-- Reading a scalar source leaves the conditions as they are. -/
theorem State.readC_readS (s : State) (a : SSrc) (c : CSrc) : (s.readS a).2.bank.readC c = s.bank.readC c := by
  cases a with
  | bq q =>
    simp only [State.readS, State.popBq, State.bank_modBank]
    cases c <;> rfl
  | s r | zero | pts | cycle => rfl

/-- The result of an integer word without an XM is wrapped, whether or not an XM could saturate it (R102). -/
theorem Bank.wrapped_of_none (b : Bank) (ty : Fmt) (sats : Prop) [Decidable sats] (z : Int) :
    (if sats then b.finishI ty none z else (b.clamp ty none (wrapTo ty.width z), 0)) = (wrapTo ty.width z, 0) :=
  ite_self _

/-- The quotient of a division by zero is all ones (R102). -/
theorem divInt_eq (ty : Fmt) (x y : Int) :
    divInt ty x y = if y = 0 then (if ty.signed then -1 else ((2 ^ ty.width : Nat) : Int) - 1) else Int.tdiv x y := by
  cases hs : ty.signed <;> simp [divInt, intMax, hs]

/-- A word that occupies the divider is one issue, and its result is wrapped (R60, R102). -/
theorem intOp_div_eq_issue (f : Fmt → Int → Int → Int) (sats : Int → Bool) (h : Hdr) (ty : Fmt) (d : SDst) (a : SSrc) (b : SrcB) (s : State) :
    intOp f sats 24 true none h ty d a b s = s.issue ((Need.of h).s a |>.sb b |>.ds d 24 |>.div true) none (fun t =>
      let t' := (t.readS a).2
      let u := (t'.readB immSext b).2
      .ok ((u.modBank (fun k => { k with divFree := u.cycle + 24 })).resultS d
        (intOut ty (f ty (readInt ty (t.readS a).1.toNat) (readInt ty (t'.readB immSext b).1.toNat))).1 24 0 s.bank.pc)) := by
  simp only [intOp, Bank.wrapped_of_none]
  rfl

end Sys2Proof.Machine

/-- Settles O1: the words without a divider by their bodies; DIV and REM by `intOp_div_eq_issue`. -/
theorem integerArithmeticCompletes : Obligations.IntegerArithmeticCompletes := by
  unfold Obligations.IntegerArithmeticCompletes
  intro h ty d a b
  refine ⟨gives_of_issue rfl (fun _ => rfl) fun _ _ => rfl, gives_of_issue rfl (fun _ => rfl) fun _ _ => rfl,
    gives_of_issue rfl (fun _ => rfl) fun _ _ => rfl, gives_of_issue rfl (fun _ => rfl) fun _ _ => rfl,
    gives_of_issue rfl (fun _ => rfl) fun _ _ => rfl, gives_of_issue rfl (fun _ => rfl) fun _ _ => rfl, ?_, ?_⟩
  · simp only [← divInt_eq]
    exact gives_of_issue rfl (fun s => congrArg _ (intOp_div_eq_issue divInt _ h ty d a b s)) fun _ _ => rfl
  · exact gives_of_issue rfl (fun s => congrArg _ (intOp_div_eq_issue (fun _ => remInt) _ h ty d a b s)) fun _ _ => rfl

/-- Settles O3: each word is one issue whose body is the result named. -/
theorem selectionAndConstantsComplete : Obligations.SelectionAndConstantsComplete := by
  unfold Obligations.SelectionAndConstantsComplete
  intro h ty d c x y a b2 b k v sh m r5 r3
  have select : Gives (.sel h d x a b2) (fun s t =>
      let t' := (t.readS a).2
      (t'.readS b2).2.resultS d (if t.bank.readC x then (t.readS a).1 else (t'.readS b2).1) 1 0 s.bank.pc) := by
    refine gives_of_issue_ok rfl fun s => ?_
    change execSel h d x a b2 s = _
    simp only [execSel, State.readC_readS]
  exact ⟨select, gives_of_issue rfl (fun _ => rfl) fun _ _ => rfl,
    gives_of_issue rfl (fun _ => rfl) fun _ _ => rfl, gives_of_issue rfl (fun _ => rfl) fun _ _ => rfl,
    gives_of_issue rfl (fun _ => rfl) fun _ _ => rfl, gives_of_issue rfl (fun _ => rfl) fun _ _ => rfl,
    gives_of_issue rfl (fun _ => rfl) fun _ _ => rfl, gives_of_issue rfl (fun _ => rfl) fun _ _ => rfl,
    gives_of_issue rfl (fun _ => rfl) fun _ _ => rfl⟩

/-- Settles O4: each word is one issue whose body is the result named. -/
theorem scalarFloatCompletes : Obligations.ScalarFloatCompletes := by
  unfold Obligations.ScalarFloatCompletes
  intro h ty src d c a b2 b3 b k r two
  exact ⟨gives_of_issue rfl (fun _ => rfl) fun _ _ => rfl, gives_of_issue rfl (fun _ => rfl) fun _ _ => rfl,
    gives_of_issue rfl (fun _ => rfl) fun _ _ => rfl, gives_of_issue rfl (fun _ => rfl) fun _ _ => rfl,
    gives_of_issue rfl (fun _ => rfl) fun _ _ => rfl, gives_of_issue rfl (fun _ => rfl) fun _ _ => rfl,
    gives_of_issue rfl (fun _ => rfl) fun _ _ => rfl, gives_of_issue rfl (fun _ => rfl) fun _ _ => rfl,
    gives_of_issue rfl (fun _ => rfl) fun _ _ => rfl⟩
end

section
/-!
PROOF. The vector class: what a lane-wise word, a half-step word, a reduction and a word on whole registers come to.
-/
open Sys2Proof Sys2Proof.Machine

namespace Sys2Proof.Machine

/-- Reading a scalar source leaves the masks as they are. -/
theorem State.guardMask_readS (s : State) (a : SSrc) (h : Hdr) : (s.readS a).2.bank.guardMask h = s.bank.guardMask h := by
  cases a with
  | bq q =>
    simp only [State.readS, State.popBq, State.bank_modBank]
    rfl
  | s r | zero | pts | cycle => rfl

theorem State.guardMask_readB (s : State) (imm : BitVec 16 → Word) (b : SrcB) (h : Hdr) :
    (s.readB imm b).2.bank.guardMask h = s.bank.guardMask h := by
  cases b with
  | reg r => exact s.guardMask_readS r h
  | imm v => rfl

theorem laneOf_ite (w i : Nat) (p : Prop) [Decidable p] (x y : VecWord) :
    laneOf w (if p then x else y) i = if p then laneOf w x i else laneOf w y i :=
  apply_ite (laneOf w · i) _ _ _

theorem filterMap_ite_eq_map_filter {α β : Type} (p : α → Bool) (f : α → β) (l : List α) :
    l.filterMap (fun i => if p i then some (f i) else none) = (l.filter p).map f := by
  induction l with
  | nil => rfl
  | cons x l ih => cases hx : p x <;> simp [hx, ih]

/-- Without an XM a lane of a reduction is its code or its exact value (R141). -/
theorem redLane_none (ty : Fmt) (x : Nat) : redLane ty none x = if ty.isFlt then (x : Int) else readInt ty x := rfl

/-- Without an XM the result of a reduction is delivered as it is, or wrapped (R141). -/
theorem Bank.redFinish_none (b : Bank) (ty : Fmt) (x : Int) :
    b.redFinish ty none x = (if ty.isFlt then x.toNat else wrapTo ty.width x, 0) := by
  cases hf : ty.isFlt <;> simp only [Bank.redFinish, hf] <;> rfl

theorem FlagSet.or_zero (f : FlagSet) : f ||| 0 = f := BitVec.or_zero

/-- An exact value without flags is rounded once. -/
theorem fltOut_zero (ty : Fmt) (x : FVal) : fltOut ty (x, 0) = roundVal ty .rne false x :=
  congrArg (Prod.mk _) (BitVec.zero_or)

/-- A header's reserved bits are zero wherever an active element uses it. -/
theorem badHeader_eq_false {g : MaskWord} {v : VecWord} {n : Nat}
    (h : ∀ j, j < n → g.getLsbD j = true → laneOf 32 v (j / 32) / 2 ^ 24 = 0) : badHeader g v n = false := by
  simp only [badHeader, List.any_eq_false, List.mem_range]
  intro j hj
  simp only [Bool.and_eq_true, bne_iff_ne, ne_eq, not_and, not_not]
  exact h j hj

/-- A half-step word whose headers are in order writes its lanes (R139). -/
theorem headerOp_eq_issue (f : Nat → Nat → Nat × FlagSet) (h : Hdr) (ty src : Fmt) (d : VDst) (a b : VSrc) (s : State) :
    headerOp f h ty src d a b s = s.issue ((Need.ofV h).v a |>.v b |>.dv d 6) none (fun t =>
      if badHeader (t.bank.guardMask h) (t.vec .n32 b) (convCount ty src) then .fault (fault 0x0C)
      else .ok (giveLanes h ty.width (convCount ty src) d 6 [a, b] (fun t j => f (lane src t a j) (lane .n32 t b (j / 32))) s t)) := rfl

/-- A half-step word completes where its headers are in order (R139). -/
theorem givesIf_of_headerOp {i : Instr} {f : Nat → Nat → Nat × FlagSet} {h : Hdr} {ty src : Fmt} {d : VDst} {a b : VSrc} 
    (hn : needOf i = some ((Need.ofV h).v a |>.v b |>.dv d 6)) (he : ∀ s, exec i s = .next (headerOp f h ty src d a b s)) :
    GivesIf i (fun t => ∀ j, j < convCount ty src → (t.bank.guardMask h).getLsbD j = true → lane .n32 t b (j / 32) / 2 ^ 24 = 0)
      (giveLanes h ty.width (convCount ty src) d 6 [a, b] (fun t j => f (lane src t a j) (lane .n32 t b (j / 32)))) := by
  simp only [headerOp_eq_issue] at he
  refine givesIf_of_issue hn he fun s t hc => ?_
  rw [badHeader_eq_false hc]
  rfl

end Sys2Proof.Machine

/-- Settles O5: each word is one issue whose body is the lane-wise result named. -/
theorem vectorArithmeticCompletes : Obligations.VectorArithmeticCompletes := by
  unfold Obligations.VectorArithmeticCompletes
  intro h ty d a b2 c b two one
  exact ⟨gives_of_issue rfl (fun _ => rfl) fun _ _ => rfl, gives_of_issue rfl (fun _ => rfl) fun _ _ => rfl,
    gives_of_issue rfl (fun _ => rfl) fun _ _ => rfl, gives_of_issue rfl (fun _ => rfl) fun _ _ => rfl,
    gives_of_issue rfl (fun _ => rfl) fun _ _ => rfl, gives_of_issue rfl (fun _ => rfl) fun _ _ => rfl,
    gives_of_issue rfl (fun _ => rfl) fun _ _ => rfl, gives_of_issue rfl (fun _ => rfl) fun _ _ => rfl,
    gives_of_issue rfl (fun _ => rfl) fun _ _ => rfl, gives_of_issue rfl (fun _ => rfl) fun _ _ => rfl⟩

/-- Settles O6: VSEL picks a lane of one of two vectors, which is the lane of the one picked. -/
theorem vectorBitsAndComparesComplete : Obligations.VectorBitsAndComparesComplete := by
  unfold Obligations.VectorBitsAndComparesComplete
  intro h ty d dm a b2 b m k w two
  have select : Gives (.vsel h ty d m a b2) (giveLanes h w (Fmt.lanes ty) d 2 [a, b2] (fun t i =>
      (if (t.bank.readM m).getLsbD i then lane ty t a i else lane ty t b2 i, 0))) := by
    refine gives_of_issue (body := fun s t => .ok (giveLanes h w (Fmt.lanes ty) d 2 [a, b2] _ s t)) rfl (fun s => ?_) fun _ _ => rfl
    change execVsel h ty d m a b2 s = _
    simp only [execVsel, laneOf_ite]
    rfl
  exact ⟨gives_of_issue rfl (fun _ => rfl) fun _ _ => rfl, gives_of_issue rfl (fun _ => rfl) fun _ _ => rfl,
    gives_of_issue rfl (fun _ => rfl) fun _ _ => rfl, gives_of_issue rfl (fun _ => rfl) fun _ _ => rfl,
    gives_of_issue rfl (fun _ => rfl) fun _ _ => rfl, gives_of_issue rfl (fun _ => rfl) fun _ _ => rfl,
    select, gives_of_issue rfl (fun _ => rfl) fun _ _ => rfl⟩

/-- Settles O7: VQNT and VDQNT pass the check of their headers. -/
theorem vectorConversionsComplete : Obligations.VectorConversionsComplete := by
  unfold Obligations.VectorConversionsComplete
  intro h ty src d a b n conv headers
  have quantizes : GivesIf (.vqnt h ty src d a b) headers
      (conv .n32 (fun x hd => quantize ty.width (.ofBits src x) (.ofBits .f16 hd) (bits hd 23 16))) :=
    givesIf_of_headerOp (f := fun x hd => quantize ty.width (.ofBits src x) (.ofBits .f16 hd) (bits hd 23 16)) rfl fun _ => rfl
  have dequantize (s : State) : exec (.vdqnt h ty src d a b) s
      = .next (headerOp (fun x hd => fltOut ty (halfStepVal (.ofBits .f16 hd) x (bits hd 23 16))) h ty src d a b s) := by
    change execVdqnt h ty src d a b s = _
    simp only [execVdqnt, fltOut]
  exact ⟨gives_of_issue rfl (fun _ => rfl) fun _ _ => rfl, gives_of_issue rfl (fun _ => rfl) fun _ _ => rfl,
    gives_of_issue rfl (fun _ => rfl) fun _ _ => rfl, quantizes,
    (givesIf_of_headerOp rfl dequantize :),
    gives_of_issue rfl (fun _ => rfl) fun _ _ => rfl, gives_of_issue rfl (fun _ => rfl) fun _ _ => rfl⟩

/-- Settles O8: the trees and prefixes deliver their lanes as they are; a histogram and a compression filter the active lanes. -/
theorem reductionsAndLaneMovementComplete : Obligations.ReductionsAndLaneMovementComplete := by
  unfold Obligations.ReductionsAndLaneMovementComplete
  refine ⟨fun h ty d a k => ?_, fun h ty d r ds a b2 sa b down => ?_⟩
  · intro own code act red
    have reduce (op : RedOp) (s : State) :
        redOp op none h ty d a s = s.issue ((Need.ofV h).v a |>.dv d 12) none (fun t => .ok (red op s t)) := by
      simp only [redOp, redLane_none, Bank.redFinish_none, FlagSet.or_zero]
      rfl
    have scan (s : State) : execVscan h ty d a k s = .next (s.issue ((Need.ofV h).v a |>.dv d 12) none (fun t => .ok (
        let ys : List (Nat × FlagSet) := (scanList (RedOp.ofCode k) ty none none (act t)).map (fun r => (r.1.elim 0 code, r.2))
        (t.advancePorts [a]).resultV d (BitVec.ofNat 2048 (laneNat ty.width (ys.map (fun y => y.1))))
          (laneBits ty.width (Fmt.lanes ty) (fun i => (t.bank.guardMask h).getLsbD i)) 12 (orFlags (ys.map (fun y => y.2))) s.bank.pc))) := by
      have delivered (b : Bank) (r : Option Int × FlagSet) : (match r.1 with
          | none => (0, r.2)
          | some x => ((b.redFinish ty none x).1, r.2 ||| (b.redFinish ty none x).2)) = (r.1.elim 0 code, r.2) := by
        obtain ⟨_ | x, f⟩ := r
        · rfl
        · simp only [Bank.redFinish_none, FlagSet.or_zero]
          rfl
      dsimp only [execVscan, vscanOp]
      refine congrArg (fun body => Host.Outcome.next (s.issue ((Need.ofV h).v a |>.dv d 12) none body)) (funext fun t => ?_)
      simp only [← delivered t.bank]
      rfl
    exact ⟨gives_of_issue rfl (fun s => congrArg _ (reduce .add s)) fun _ _ => rfl,
      gives_of_issue rfl (fun s => congrArg _ (reduce .max s)) fun _ _ => rfl,
      gives_of_issue rfl (fun s => congrArg _ (reduce .min s)) fun _ _ => rfl, gives_of_issue rfl scan fun _ _ => rfl⟩
  · intro w n on
    refine ⟨?_, ?_, gives_of_issue rfl (fun _ => rfl) fun _ _ => rfl, ?_, gives_of_issue rfl (fun _ => rfl) fun _ _ => rfl,
     gives_of_issue rfl (fun _ => rfl) fun _ _ => rfl, gives_of_issue rfl (fun _ => rfl) fun _ _ => rfl, ?_⟩
    · refine gives_of_issue_ok rfl fun s => ?_
      change execVhist h ty d a b s = _
      simp only [execVhist, wholeOp, filterMap_ite_eq_map_filter, State.guardMask_readB]
      rfl
    · refine gives_of_issue_ok rfl fun s => ?_
      change execVcmprs h ty d a s = _
      simp only [execVcmprs, wholeOp, filterMap_ite_eq_map_filter]
      rfl
    · refine gives_of_issue_ok rfl fun s => ?_
      change execVslide h ty d a b down s = _
      simp only [execVslide, countOp, Bool.and_true]
      rfl
    · simp only [fltOut_zero]
      exact gives_of_issue rfl (fun _ => rfl) fun _ _ => rfl

/-- Settles O9: MPOP counts the bits that are set. -/
theorem maskWordsComplete : Obligations.MaskWordsComplete := by
  unfold Obligations.MaskWordsComplete
  intro h ty d ds a b out
  refine ⟨gives_of_issue rfl (fun _ => rfl) fun _ _ => rfl, gives_of_issue rfl (fun _ => rfl) fun _ _ => rfl,
    gives_of_issue rfl (fun _ => rfl) fun _ _ => rfl, gives_of_issue rfl (fun _ => rfl) fun _ _ => rfl, ?_,
    gives_of_issue rfl (fun _ => rfl) fun _ _ => rfl⟩
  simp only [BitVec.getLsbD, ← onesBelow_eq_countP]
  exact gives_of_issue rfl (fun _ => rfl) fun _ _ => rfl
end

section
/-!
PROOF. The words that reach local memory and the CSRs: what a checked address lets a body do.
-/
open Sys2Proof Sys2Proof.Machine

namespace Sys2Proof.Machine

theorem windowFault_of_inWindow {a n : Nat} (h : inWindow a n) : windowFault a n = none := by
  obtain ⟨h1, h2⟩ := h
  rw [windowFault, if_neg (show ¬ a ≥ localSize from Nat.not_le.mpr h1), if_neg (show ¬ a + n > localSize from Nat.not_lt.mpr h2)]

theorem vecWindow_of_inWindow {a : Nat} (h : a % 32 = 0 ∧ inWindow a 256) : vecWindow a = none := by
  rw [vecWindow, if_neg (not_not.mpr h.1), windowFault_of_inWindow h.2]

theorem vecBytes_length (v : VecWord) : (vecBytes v).length = 256 := leBytes_length _ _

@[simp] theorem State.focus_readS (s : State) (a : SSrc) : (s.readS a).2.focus = s.focus := by
  cases a with
  | bq q => rfl
  | s r | zero | pts | cycle => rfl

theorem State.guardMask_readAddr (s : State) (m : MemOp) (h : Hdr) : (s.readAddr m).2.bank.guardMask h = s.bank.guardMask h := by
  cases m with
  | off a o => exact s.guardMask_readS a h
  | idx a b k => exact ((s.readS a).2.guardMask_readS b h).trans (s.guardMask_readS a h)

end Sys2Proof.Machine

/-- Settles O10: the operands meet the checks of R106, R149, R150 and R153, and the body is then the access named. -/
theorem localAccessesAndPortsComplete : Obligations.LocalAccessesAndPortsComplete := by
  unfold Obligations.LocalAccessesAndPortsComplete
  refine ⟨fun h ty d dv c cv m al => ⟨?_, ?_, ?_, ?_⟩, fun h ty d a b c k al port => ⟨?_, ?_, ?_⟩⟩
  · exact givesIf_of_issue rfl (fun _ => rfl) fun s t hc => by simp only [windowFault_of_inWindow hc]
  · exact givesIf_of_issue rfl (fun _ => rfl) fun s t hc => by simp only [windowFault_of_inWindow hc]
  · exact givesIf_of_issue rfl (fun _ => rfl) fun s t hc => by
      simp only [vecWindow_of_inWindow hc, maskedLoads, vecBytes_length, State.guardMask_readAddr]
  · exact givesIf_of_issue rfl (fun _ => rfl) fun s t hc => by simp only [vecWindow_of_inWindow hc]
  · exact givesIf_of_issue rfl (fun _ => rfl) fun s t hc => by
      simp only at hc
      simp only [hc]
  · exact givesIf_of_issue rfl (fun _ => rfl) fun s t hc => by
      simp only at hc
      simp only [hc, scatterMoves]
  · exact givesIf_of_issue rfl (fun _ => rfl) fun s t ⟨hal, hw, hs, hb, hp⟩ => by
      have hb' : (decide (port.val ≥ 8) && (t.readS a).2.cur.portBusy t.focus.bank) = false := by
        rw [Bool.and_eq_false_iff, decide_eq_false_iff_not]
        exact hb.imp_left Nat.not_le.mpr
      simp only [hal, windowFault_of_inWindow hw, hp, State.focus_readS, hs, hb', ne_eq, not_true_eq_false, if_false, Bool.false_or,
        Bool.false_eq_true]

/-- Settles O11: the number is one of R96, and the checks of CSRW pass. -/
theorem csrWordsComplete : Obligations.CsrWordsComplete := by
  unfold Obligations.CsrWordsComplete
  intro h d a n
  refine ⟨?_, ?_⟩
  · exact givesIf_of_issue rfl (fun _ => rfl) fun s t hc => by
      rw [if_neg (by simp [Option.isSome_iff_ne_none.mp hc])]
  · exact givesIf_of_issue rfl (fun _ => rfl) fun s t ⟨u, hu⟩ => by simp only [hu]
end

section
/-!
PROOF. The global words: loads, stores, cache maintenance and atomics under the checks of R293 to R302.
-/
open Sys2Proof Sys2Proof.Machine

namespace Sys2Proof.Machine

/-- A store through a patch register that meets the checks sets out (R258, R259, R279). -/
theorem State.globalStore_patch {s : State} {p : Fin 4} {name : Name} {l : List Piece} {a : Word} {val : Fmt → List Byte × List Byte} {ty : Fmt}
    (pc : BitVec 15) (vec : Bool) (h : storeMeets s p name l a (val (s.laneType p ty)).1 (val (s.laneType p ty)).2 (s.laneType p ty)) :
    s.globalStore a val ty (.patch p) pc vec
      = .ok (s.sendPatch name l a (marked (val (s.laneType p ty)).1 (val (s.laneType p ty)).2) (Fmt.laneBytes (s.laneType p ty))
          (s.laneStep p (s.laneType p ty)) (s.laneType p ty) pc vec) := by
  obtain ⟨htr, hp, hreg, htwin, hms, hlate, w, hw⟩ := h
  have hany : (val (s.laneType p ty)).2.any (fun k => k != 0 && k != 0xFF) = false := by
    rw [← Bool.not_eq_true, List.any_eq_true]
    rintro ⟨k, hk, hne⟩
    have := List.all_eq_true.mp hms k hk
    simp_all
  simp only [State.globalStore, htr, hp, if_true, State.storePatch, hreg, htwin, Bool.false_eq_true, if_false, hany, hlate]
  simp only [marked] at hw
  simp only [hw, marked]

theorem State.globalStore_mmc {s : State} {m : Mmc} {l : List Piece} {a : Word} {val : Fmt → List Byte × List Byte} {ty : Fmt}
    (pc : BitVec 15) (vec : Bool) (htr : s.translate s.bank 1 a (val ty).1.length = .ok l) (hp : nonePatched l = true) :
    s.globalStore a val ty (.mmc m) pc vec = .ok (s.issueStore l a.toNat m (val ty).1 (val ty).2) := by
  simp only [State.globalStore, htr, hp, if_true]

/-- An atomic on an aligned, translated target that is not PATCHED takes its tag and goes on its way (R299, R302). -/
theorem State.cellAtomic_ok {s : State} {ty : Fmt} {a : Word} {p : Piece} {l : List Piece} (k : Rmw) (x cmp : Word) (m : Mmc) (al : BitVec 4)
    (dst : List RDst) (hal : a.toNat % (ty.width / 8) = 0) (htr : s.translate s.bank 2 a (ty.width / 8) = .ok (p :: l))
    (hp : nonePatched (p :: l) = true) :
    s.cellAtomic k ty a x cmp m al dst = .ok (atomicGo p a (ty.width / 8) m (.rmw k ty x cmp al) al dst ty s) := by
  simp only [State.cellAtomic, ne_eq, hal, not_true_eq_false, if_false, htr, hp, Bool.not_true, Bool.false_eq_true]
  rfl

/-- The atomics of R299 on one address, where it is aligned and translates. -/
theorem givesIf_atomicOp {i : Instr} {h : Hdr} {ty : Fmt} {m : MemOp} {c : SSrc} {x : Mmc} {al : BitVec 4} {p : Piece} {l : List Piece}
    (k : Rmw) (hn : needOf i = some ((Need.of h).addr m |>.s c |>.tag al |>.globalMem)) (he : ∀ s, exec i s = .next (atomicOp k h ty m c x al s)) :
    GivesIf i
      (fun t =>
        let u := ((t.readAddr m).2.readS c).2
        (t.readAddr m).1.toNat % (ty.width / 8) = 0 ∧ u.translate u.bank 2 (t.readAddr m).1 (ty.width / 8) = .ok (p :: l)
          ∧ nonePatched (p :: l) = true)
      (fun _ t => atomicGo p (t.readAddr m).1 (ty.width / 8) x (.rmw k ty ((t.readAddr m).2.readS c).1 0 al) al (retDst c) ty
        ((t.readAddr m).2.readS c).2) :=
  givesIf_of_issue hn he fun _ _ ⟨hal, htr, hp⟩ => State.cellAtomic_ok k _ 0 x al (retDst c) hal htr hp

end Sys2Proof.Machine

/-- Settles O12: the checks of R293 to R295 pass, and the accesses go on their way. -/
theorem globalLoadsAndStoresComplete : Obligations.GlobalLoadsAndStoresComplete := by
  unfold Obligations.GlobalLoadsAndStoresComplete
  intro h ty d dv m c cv o x p al l mode lat u name
  refine ⟨?_, ?_, ?_, ?_, ?_, ?_⟩
  · exact givesIf_of_issue rfl (fun _ => rfl) fun s t hc => by
      simp only at hc
      simp only [hc]
  · exact givesIf_of_issue rfl (fun _ => rfl) fun s t ⟨hal, hc⟩ => by
      simp only [ne_eq, hal, not_true_eq_false, if_false, hc]
  · exact givesIf_of_issue rfl (fun _ => rfl) fun s t ⟨htr, hp⟩ =>
      State.globalStore_mmc _ _ ((leBytes_length _ _).symm ▸ htr) hp
  · exact givesIf_of_issue rfl (fun _ => rfl) fun s t hc => State.globalStore_patch _ _ hc
  · exact givesIf_of_issue rfl (fun _ => rfl) fun s t ⟨hal, htr, hp⟩ => by
      refine (if_neg (not_not.mpr hal)).trans ?_
      exact State.globalStore_mmc _ _ ((vecBytes_length _).symm ▸ htr) hp
  · exact givesIf_of_issue rfl (fun _ => rfl) fun s t ⟨hal, hc⟩ => by
      refine (if_neg (not_not.mpr hal)).trans ?_
      exact State.globalStore_patch _ _ hc

/-- Settles O13: the translation of the line decides the branch that is taken. -/
theorem cacheWordsComplete : Obligations.CacheWordsComplete := by
  unfold Obligations.CacheWordsComplete
  intro h d m al l2 l g
  refine ⟨?_, ?_, ?_, ?_, ?_, ?_, ?_, ?_, ?_, ?_⟩
  · exact givesIf_of_issue rfl (fun _ => rfl) fun s t ⟨hs, hd, ha⟩ => by
      simp only [hs, hd, ha, decide_true, Bool.and_true, if_true]
  · exact givesIf_of_issue rfl (fun _ => rfl) fun s t hs => by
      simp only at hs
      simp only [hs]
  · exact givesIf_of_issue rfl (fun _ => rfl) fun s t hs => if_pos hs
  · exact givesIf_of_issue rfl (fun _ => rfl) fun s t ⟨htr, hg⟩ => by simp only [htr, hg]
  · exact givesIf_of_issue rfl (fun _ => rfl) fun s t hs => if_pos hs
  · exact givesIf_of_issue rfl (fun _ => rfl) fun s t hs => if_pos hs
  · exact givesIf_of_issue rfl (fun _ => rfl) fun s t ⟨⟨hg, htr⟩, hs⟩ => by simp only [hs, htr, hg, if_false]
  · exact givesIf_of_issue rfl (fun _ => rfl) fun s t ⟨hg, htr⟩ => by simp only [htr, hg]
  · exact givesIf_of_issue rfl (fun _ => rfl) fun s t ⟨hg, hs, htr⟩ => by simp only [hs, htr, hg, if_false]
  · exact givesIf_of_issue rfl (fun _ => rfl) fun s t ⟨hg, hs, htr⟩ => by simp only [hs, htr, hg, if_false]

/-- Settles O14: the atomics on one address by `givesIf_atomicOp`; the others by the checks of their bodies. -/
theorem atomicsAndPatchAtomicsComplete : Obligations.AtomicsAndPatchAtomicsComplete := by
  unfold Obligations.AtomicsAndPatchAtomicsComplete
  refine ⟨fun h ty m a b c x al d sd pd pc2 cv off pair p l l2 g g2 => ⟨?_, ?_, ?_, ?_, ?_, ?_, ?_, ?_, ?_, ?_, ?row, ?row'⟩,
    fun h ty m a c cv off pair q al p l name => ⟨?_, ?patchRow, ?patchRow'⟩⟩
  · exact givesIf_atomicOp .add rfl fun _ => rfl
  · exact givesIf_atomicOp .min rfl fun _ => rfl
  · exact givesIf_atomicOp .max rfl fun _ => rfl
  · exact givesIf_atomicOp .and rfl fun _ => rfl
  · exact givesIf_atomicOp .or rfl fun _ => rfl
  · exact givesIf_atomicOp .xor rfl fun _ => rfl
  · exact givesIf_atomicOp .xchg rfl fun _ => rfl
  · exact givesIf_of_issue rfl (fun _ => rfl) fun s t ⟨hal, htr, hp⟩ => State.cellAtomic_ok _ _ _ _ _ _ hal htr hp
  · exact givesIf_of_issue rfl (fun _ => rfl) fun s t ⟨⟨ha, hb, hta, htb, hg, hg2, hp, hp2⟩, hne⟩ => by
      simp only [ne_eq, ha, hb, hne, hta, htb, hg, hg2, hp, hp2, not_true_eq_false, if_false, decide_false, Bool.or_false, Bool.false_eq_true]
      rfl
  · exact givesIf_of_issue rfl (fun _ => rfl) fun s t ⟨ha, hb, hta, htb, hg, hg2, hp, hp2⟩ => by
      simp only [ne_eq, ha, hb, hta, htb, hg, hg2, hp, hp2, not_true_eq_false, if_false, Bool.false_eq_true]
      rfl
  case row | row' =>
    exact givesIf_of_issue rfl (fun _ => rfl) fun s t ⟨ha, hta, hp⟩ => by
      simp only [ne_eq, ha, hta, hp, not_true_eq_false, if_false, Bool.not_true, Bool.false_eq_true]
      rfl
  · exact givesIf_of_issue rfl (fun _ => rfl) fun s t ⟨ha, hta, hp, hk⟩ => by
      simp only [ne_eq, ha, hta, hp, hk, not_true_eq_false, if_false]
      rfl
  case patchRow | patchRow' =>
    exact givesIf_of_issue rfl (fun _ => rfl) fun s t ⟨ha, hta, hp, hk⟩ => by
      simp only [ne_eq, ha, hta, hp, not_true_eq_false, if_false]
      split
      · rename_i f hf
        exact nomatch hf.symm.trans hk
      · rfl
end

section
/-!
PROOF. The patch words: opening and joining, the seal, and the chain operations under the checks of R255 to R278.
-/
open Sys2Proof Sys2Proof.Machine

namespace Sys2Proof.Machine

/-- A fold of steps that all leave something alone leaves it alone. -/
theorem foldl_keeps {α β γ : Type} (g : α → γ) {f : α → β → α} (h : ∀ a b, g (f a b) = g a) (l : List β) (a : α) : g (l.foldl f a) = g a :=
  List.foldlRecOn l f (motive := fun x => g x = g a) rfl fun b hb x _ => (h b x).trans hb

/-- Exchanging two patches in the sectors that their sides share leaves the acting agent alone. -/
theorem State.focus_swaps (m n : Name) (l : List (Side × Side)) (s : State) :
    (l.foldl (fun (w : State) z => (shared z.1 z.2).foldl (fun (w : State) k =>
      (w.setChainOf z.1.t k ((w.chainOf z.1.t k).map (swapNames m n))).raiseStamp (z.1.t.at (k * 32)) w.cur.pts) w) s).focus = s.focus :=
  foldl_keeps State.focus (fun w z => foldl_keeps State.focus (fun _ _ => by rfl) (shared z.1 z.2) w) l s

/-- Where no pair of sides has a conflict, none is the lowest. -/
theorem lowest_eq_none {β γ : Type} (l : List β) (k : β → List Nat) (addr : β → Nat → Nat) (f : β → Nat → Option γ)
    (h : ∀ z ∈ l, ∀ c ∈ k z, f z c = none) :
    lowest (l.flatMap fun z => (k z).filterMap fun c => (f z c).map fun m => (addr z c, m)) = none := by
  have hnil : (l.flatMap fun z => (k z).filterMap fun c => (f z c).map fun m => (addr z c, m)) = [] := by
    refine List.flatMap_eq_nil_iff.mpr fun z hz => List.filterMap_eq_nil_iff.mpr fun c hc => ?_
    rw [h z hz c hc, Option.map_none]
  rw [hnil]
  rfl

end Sys2Proof.Machine

/-- Settles O15: the checks pass one after the other, and the body is the change named. -/
theorem patchesOpenSealAndAbort : Obligations.PatchesOpenSealAndAbort := by
  unfold Obligations.PatchesOpenSealAndAbort
  refine ⟨fun h d a b k t1 t2 p y u w => ⟨?_, ?_, ?_⟩, fun h a p y u => ⟨?_, ?_, ?_⟩⟩
  · exact givesIf_of_issue rfl (fun _ => rfl) fun s t ⟨ht, hp, hd, hk⟩ => by
      simp only [ht, hp, State.fullReg, hd, hk, Option.map_none, Bool.not_true, Bool.false_eq_true, if_false]
  · exact givesIf_of_issue rfl (fun _ => rfl) fun s t ⟨ht, ht2, hp, hd, hk, hk2, hpair, hpair2, htw, htw2, hf⟩ => by
      simp only [ht, ht2, hp, State.fullReg, hd, hk2, hpair, hpair2, htw, htw2, hf, Option.map_none, Bool.not_true, Bool.false_eq_true, if_false,
        beq_self_eq_true, Bool.and_self]
  · exact givesIf_of_issue rfl (fun _ => rfl) fun s t ⟨ht, hp, hd, hy, hb, hst, hsh, hin⟩ => by
      simp only [ht, hp, State.fullReg, hd, hy, Patch.busy, hb, hst, hsh, hin, Option.map_none, Option.isSome_none, Bool.not_true, Bool.false_eq_true, if_false, bne_self_eq_false, Bool.or_self]
      rfl
  · exact givesIf_of_issue rfl (fun _ => rfl) fun s t ⟨⟨hr, hp, hy⟩, hst, hsh, hc, hw, hs⟩ => by
      simp only [hr, hp, hy, hst, hsh, hc, hw, hs, Bool.false_eq_true, if_false, bne_self_eq_false, Bool.or_self]
      rfl
  · exact givesIf_of_issue rfl (fun _ => rfl) fun s t ⟨⟨hr, hp, hy⟩, hst, hsh, hb, ho⟩ => by
      simp only [hr, hp, hy, hst, hsh, Patch.busy, hb, ho, Option.isSome_none, Bool.false_eq_true, if_true, if_false, bne_self_eq_false, Bool.or_self]
  · exact givesIf_of_issue rfl (fun _ => rfl) fun s t ⟨⟨hr, hp, hy⟩, hb, hc⟩ => by
      simp only [hr, hp, hy, Patch.busy, hb, hc, Option.isSome_none, Bool.false_eq_true, if_false, Bool.or_self, homeHold]
      by_cases ho : p.opener = contributor t.focus.core t.focus.bank
      · simp only [ho, beq_self_eq_true, if_true]
        rfl
      · simp only [ho, beq_iff_eq, if_false]
        rfl

/-- Settles O16: the checks pass one after the other; PCOMM also needs that a swap leaves the acting agent alone. -/
theorem chainWordsComplete : Obligations.ChainWordsComplete := by
  unfold Obligations.ChainWordsComplete
  intro h d sd a b c x al p q y half t1 e lat u v
  refine ⟨?_, ?_, ?_, ?_, ?_, ?_, ?_⟩
  · exact givesIf_of_issue rfl (fun _ => rfl) fun s t ⟨hp, hq, hperm, hy, hb, hb2, hw, hst, hst2, hpair, hno⟩ => by
      rw [← List.map_append] at hperm
      simp only [hp, hq, hperm, hy, Patch.busy, hb, hb2, hw, hst, hst2, hpair, Option.isSome_none, Bool.false_eq_true, if_false, Bool.or_self,
        bne_self_eq_false]
      by_cases hn : p.name = q.name
      · simp only [hn, beq_self_eq_true, if_true]
        rfl
      · simp only [hn, beq_iff_eq, if_false, lowest_eq_none _ _ (fun z c => z.1.addr c) _ (hno hn), homeHold, State.atHome, State.focus_swaps]
  · exact givesIf_of_issue rfl (fun _ => rfl) fun s t ⟨⟨hp, hperm, hy, hb⟩, hw, hs, hc, hf⟩ => by
      simp only [hp, hperm, hy, Patch.busy, hb, hw, hs, hc, hf, Option.isSome_none, Bool.false_eq_true, if_false, Bool.or_self, Bool.and_eq_true,
        beq_iff_eq]
  · exact givesIf_of_issue rfl (fun _ => rfl) fun s t ⟨ht, hp, hperm, hst, hon, hw, hs, hc, hx⟩ => by
      have hsplit : (if x then firstSome (fun (y : Side) => firstSome
          (v.splits y ((v.upTo (t.bank.readN a) half.sealNo).map (fun q => q.name))) y.units)
          ((v.upTo (t.bank.readN a) half.sealNo).flatMap v.sides) else none) = none := by
        split
        · next h => exact hx h
        · rfl
      simp only [ht, hp, hperm, hst, hon, hw, hs, hc, hsplit, Bool.false_eq_true, if_false, if_true, Bool.or_self, beq_self_eq_true]
      rfl
  · exact givesIf_of_issue rfl (fun _ => rfl) fun s t ⟨⟨hp, hperm, hy, hb⟩, hw, hst⟩ => by
      simp only [hp, hperm, hy, Patch.busy, hb, hw, Option.isSome_none, Bool.false_eq_true, if_false, Bool.or_self]
      rcases hst with hst | ⟨hst, hn⟩
      · simp only [hst, if_true]
        rfl
      · simp only [hst, hn]
        rfl
  · exact givesIf_of_issue rfl (fun _ => rfl) fun s t ⟨hr, hp, hperm, hy⟩ => by
      simp only at hr hp hperm
      simp only [hr, hp, hperm, hy]
  · exact givesIf_of_issue rfl (fun _ => rfl) fun s t ⟨hr, hcls⟩ => by
      simp only [hr, hcls, bne_self_eq_false, Bool.false_eq_true, if_false]
  · exact givesIf_of_issue rfl (fun _ => rfl) fun s t ⟨hp, ht, hperm, hy, hb, hst, htw, hx, hk, hd, hcol, hm, hw, hs, hf⟩ => by
      have hfree : (x && ((v.inverse p.name).isSome || p.inverseOf.isSome)) = false := by
        rw [Bool.and_eq_false_imp]
        intro h
        simp only [hx h, Option.isSome_none, Bool.or_self]
      have hfmt : (p.delta.isNone && (t1.fmt != y.t.fmt || t1.group != y.t.group)) = false := by
        rw [Bool.and_eq_false_imp, Option.isNone_iff_eq_none]
        intro h
        simp only [hd h, bne_self_eq_false, Bool.or_self]
      have hfix : (if x then v.fixed p y else none) = none := by
        split
        · next h => exact (hx h).2.2
        · rfl
      simp only [hp, ht, hperm, hy, Patch.busy, hb, hst, htw, hfree, hk, hfmt, hcol, hm, hw, hs, hfix, hf, Option.isSome_none, Bool.not_true,
        Bool.false_eq_true, if_false, if_true, Bool.or_self, bne_self_eq_false]
end

section
/-!
PROOF. The name words and moves, and the transfers of control.
-/
open Sys2Proof Sys2Proof.Machine

namespace Sys2Proof.Machine

/-- As `givesIf_of_issue`, where the condition is on both states. -/
theorem givesFrom_of_issue {i : Instr} {n : Need} {body : State → State → Result} {cond : State → State → Prop} {post : State → State → State}
    (hn : needOf i = some n) (he : ∀ s, exec i s = .next (s.issue n none (body s))) (hb : ∀ s t, cond s t → body s t = .ok (post s t)) :
    GivesFrom i cond post := by
  intro m s hm hg hc
  rw [hn] at hm
  cases hm
  rw [he, State.issue_go_ok hg (hb _ _ hc)]

/-- A transfer to a word of the store goes there (R61, R98). -/
theorem State.jump_ok {target : Word} (h : target.toNat ≤ 26213) (gap : Nat) (t : State) : t.jump target gap = .ok (goTo target gap t) :=
  if_neg (show ¬ target.toNat > lastWord from h.not_gt)

/-- What is not taken falls through within the store (R98). -/
theorem State.fallThrough_ok {t : State} (h : t.bank.pc.toNat ≤ 26213) : t.fallThrough = .ok t :=
  if_neg (show ¬ t.bank.pc.toNat > lastWord from h.not_gt)

end Sys2Proof.Machine

/-- Settles O17: the register moves always complete; the others by the resolution or translation of their operand. -/
theorem nameWordsAndMovesComplete : Obligations.NameWordsAndMovesComplete := by
  unfold Obligations.NameWordsAndMovesComplete
  refine ⟨fun h d dc sa a b c al e tn g l bytes lat n u w => ⟨?_, ?_, ?_, ?_, ?_, ?_, ?_, ?_, gives_of_issue rfl (fun _ => rfl) fun _ _ => rfl⟩,
    fun h d a p q m o x => ⟨gives_of_issue rfl (fun _ => rfl) fun _ _ => rfl, gives_of_issue rfl (fun _ => rfl) fun _ _ => rfl,
      gives_of_issue rfl (fun _ => rfl) fun _ _ => rfl, gives_of_issue rfl (fun _ => rfl) fun _ _ => rfl,
      gives_of_issue rfl (fun _ => rfl) fun _ _ => rfl, ?_, ?_, ?_, ?_⟩⟩
  · exact givesIf_of_issue rfl (fun _ => rfl) fun s t ⟨hal, hsp, hpc, hg, hpat, hpend, hlat, ht⟩ => by
      simp only [ne_eq, hal, not_true_eq_false, hsp, hpc, hg, hpat, hpend, hlat, ht, if_false, Bool.false_eq_true]
  · exact givesIf_of_issue rfl (fun _ => rfl) fun s t hc => if_pos hc
  · exact givesIf_of_issue rfl (fun _ => rfl) fun s t hc => by
      simp only at hc
      simp only [hc]
  · exact givesIf_of_issue rfl (fun _ => rfl) fun s t ⟨hr, he, hk, hp⟩ => by
      obtain ⟨e', he'⟩ := Option.isSome_iff_exists.mp he
      simp only at hr he' hp
      simp only [hr, he', hk, hp, bne_self_eq_false, Bool.false_eq_true, if_false]
  · exact givesIf_of_issue rfl (fun _ => rfl) fun s t ⟨hr, he⟩ => by
      simp only at hr
      simp only [hr, he]
      rfl
  · exact givesIf_of_issue rfl (fun _ => rfl) fun s t ⟨hr, he⟩ => by
      simp only at hr
      simp only [hr]
      split
      · next r hb => exact absurd hb (he r)
      all_goals rfl
  · exact givesIf_of_issue rfl (fun _ => rfl) fun s t hr => by
      simp only at hr
      simp only [hr]
      rfl
  · exact givesIf_of_issue rfl (fun _ => rfl) fun s t ⟨hr, hc⟩ => by
      have hformed : (decide (t.bank.readN c ≠ 0) && !Name.formed (t.bank.readN c)) = false := by
        rcases hc with h0 | ⟨hf, -⟩
        · rw [decide_eq_false (not_not.mpr h0), Bool.false_and]
        · rw [hf, Bool.not_true, Bool.and_false]
      have hcls : (decide (t.bank.readN c ≠ 0) && decide (Name.cls (t.bank.readN c) ≠ Cls.tensor)) = false := by
        rcases hc with h0 | ⟨-, hcl⟩
        · rw [decide_eq_false (not_not.mpr h0), Bool.false_and]
        · rw [decide_eq_false (not_not.mpr hcl), Bool.and_false]
      simp only at hr
      simp only [hr, hformed, hcls, Bool.false_eq_true, if_false]
      rfl
  · exact givesIf_of_issue rfl (fun _ => rfl) fun s t ⟨⟨hal, hsp, hw⟩, hrow, hopn, hwait⟩ => by
      simp only at hal hsp hw
      simp only [ne_eq, hal, hsp, windowFault_of_inWindow hw, hrow, hopn, hwait, not_true_eq_false, Bool.or_self, Bool.false_eq_true, if_true, if_false]
  · exact givesIf_of_issue rfl (fun _ => rfl) fun s t ⟨⟨hal, hsp, hn⟩, hrow, hopn⟩ => by
      simp only at hal hsp hn
      simp only [ne_eq, hal, hsp, hn, hrow, hopn, not_true_eq_false, Bool.or_self, Bool.false_eq_true, if_false]
  · exact givesIf_of_issue rfl (fun _ => rfl) fun s t ⟨hal, hsp, hw⟩ => by
      simp only at hal hsp hw
      simp only [ne_eq, hal, hsp, windowFault_of_inWindow hw, not_true_eq_false, if_true, if_false]
  · exact givesIf_of_issue rfl (fun _ => rfl) fun s t ⟨hal, hsp, hn⟩ => by
      simp only at hal hsp hn
      simp only [ne_eq, hal, hsp, hn, not_true_eq_false, if_false]

/-- Settles O18: a transfer within the store by `State.jump_ok`, what is not taken by `State.fallThrough_ok`. -/
theorem controlFlowCompletes : Obligations.ControlFlowCompletes := by
  unfold Obligations.ControlFlowCompletes
  intro h ty d a b r k off code
  refine ⟨?_, ?_, ?_, ?_, ?_, ?_, ?_, ?_, ?_, ?_⟩
  · exact givesFrom_of_issue rfl (fun _ => rfl) fun s t hto => State.jump_ok hto 3 t
  · exact givesFrom_of_issue rfl (fun _ => rfl) fun s t ⟨hk, hto⟩ => (if_pos hk).trans (State.jump_ok hto 3 _)
  · exact givesFrom_of_issue rfl (fun _ => rfl) fun s t ⟨hk, hto⟩ => (if_neg (ne_true_of_eq_false hk)).trans (State.fallThrough_ok hto)
  · exact givesFrom_of_issue rfl (fun _ => rfl) fun s t hto => State.jump_ok hto 3 _
  · exact givesFrom_of_issue rfl (fun _ => rfl) fun s t hto => State.jump_ok hto 3 _
  · exact givesFrom_of_issue rfl (fun _ => rfl) fun s t hto => State.jump_ok hto 3 _
  · exact givesFrom_of_issue rfl (fun _ => rfl) fun s t ⟨hr, hc, hto⟩ => by
      have hnear : nearBack off = decide (-32 ≤ off.toInt ∧ off.toInt < 0) := by
        rw [nearBack, Bool.and_comm, Bool.decide_and]
      refine (if_neg hr).trans ((if_neg hc).trans ?_)
      rw [hnear]
      simp only [decide_eq_true_eq]
      exact State.jump_ok hto _ _
  · exact givesFrom_of_issue rfl (fun _ => rfl) fun s t ⟨hr, hc, hto⟩ =>
      (if_neg hr).trans ((if_pos hc).trans (State.fallThrough_ok hto))
  · intro n s hn hgo
    cases hn
    rw [exec_trap, State.issue_go_fault hgo rfl, Need.from_eq_self rfl (show (0x1F : BitVec 8) ≠ 0x0A by decide)]
  · exact givesFrom_of_issue rfl (fun s => exec_rett h s) fun s t ⟨hact, hrpc⟩ => by
      have hin : (t.bank.trap.rpc.setWidth 64).toNat ≤ 26213 := by
        rw [BitVec.toNat_setWidth_of_le (by decide)]
        exact hrpc
      exact (if_neg (by rw [hact, Bool.not_true]; decide)).trans (State.jump_ok hin 3 _)
end

section
/-!
PROOF. Synchronisation, launches and communication steps, the queues, and pairs of an XM with its word.
-/
open Sys2Proof Sys2Proof.Machine

namespace Sys2Proof.Machine

/-- A value outside a mask's zeros has no bit above 16 when it is below 2^16. -/
theorem extractLsb'_high_eq_zero {x : Word} (h : x.toNat < 65536) : x.extractLsb' 16 48 = 0 := by
  apply BitVec.eq_of_toNat_eq
  rw [BitVec.extractLsb'_toNat, Nat.shiftRight_eq_div_pow, Nat.div_eq_of_lt h]
  rfl

/-- What an XM and the word after it mean where R65 allows the pair. -/
theorem execXm_pair {pd : BitVec 4} {x : XmMod} {s : State} {t : Fmt} {n : Nat} {f : State → State}
    (hin : s.bank.pc.toNat + 1 ≤ 26213) (hp : xmPair (pd, x) (decode80 (s.bank.word (s.bank.pc.toNat + 1))) = some (t, n, f))
    (hpd : (Fields.ofWord (s.bank.word (s.bank.pc.toNat + 1))).pd = 0) (hfit : XmMod.fits x t n = true) :
    execXm pd x s = .next (f s) := by
  simp only [execXm, show ¬ s.bank.pc.toNat + 1 > lastWord from hin.not_gt, if_false, hp, hpd, hfit, decide_true, Bool.and_self, if_true]

/-- An integer result under an XM: wrapped or saturated, then clamped (R64). -/
theorem Bank.finishI_some (b : Bank) (ty : Fmt) (pd : BitVec 4) (x : XmMod) (z : Int) :
    b.finishI ty (some (pd, x)) z =
      (if x.clen then
        (if ty.isFlt then clampFlt ty (finishInt ty x.sat z).1 (b.getS (Fin.ofNat 64 x.clo.toNat)).toNat (b.getS (Fin.ofNat 64 x.chi.toNat)).toNat
          else clampInt ty (finishInt ty x.sat z).1 (b.getS (Fin.ofNat 64 x.clo.toNat)).toNat (b.getS (Fin.ofNat 64 x.chi.toNat)).toNat)
        else (finishInt ty x.sat z).1, (finishInt ty x.sat z).2) := by
  cases hc : x.clen <;> simp [Bank.finishI, Bank.clamp, Bank.clampBounds, stepI, satOf, hc]

end Sys2Proof.Machine

/-- Settles O19: the semaphore is the bank's; BAR and EXIT first find no trap due, and then issue. -/
theorem synchronisationCompletes : Obligations.SynchronisationCompletes := by
  unfold Obligations.SynchronisationCompletes
  intro h d a k al scope stage
  refine ⟨?_, ?_, ?_, ?_, ?_, gives_of_issue rfl (fun _ => rfl) fun _ _ => rfl, gives_of_issue rfl (fun _ => rfl) fun _ _ => rfl, ?_, ?_⟩
  · exact givesIf_of_issue rfl (fun _ => rfl) fun s t ⟨ho, hk⟩ => by
      simp only at ho
      simp only [ho, hk, Bool.not_true, Bool.false_eq_true, if_false] <;> rfl
  · exact givesIf_of_issue rfl (fun _ => rfl) fun s t ⟨ho, hk⟩ => by
      simp only at ho
      simp only [ho, hk, Bool.not_true, Bool.false_eq_true, if_false]
  · exact givesIf_of_issue rfl (fun _ => rfl) fun s t hx => by
      simp only at hx
      simp only [hx, bne_self_eq_false, Bool.false_eq_true, if_false]
  · exact givesIf_of_issue rfl (fun _ => rfl) fun s t ⟨ho, hx⟩ => by
      simp only [ho, extractLsb'_high_eq_zero hx, Bool.not_true, bne_self_eq_false, Bool.false_eq_true, if_false]
  · exact givesIf_of_issue rfl (fun _ => rfl) fun s t ho => if_neg (by rw [ho]; decide)
  · intro s hgo hdue t hl ho hq
    change execBar h stage s = _
    simp only [execBar, hgo, hdue]
    have hstall : ¬ ((!t.bank.loadsLanded || t.cur.outstanding t.focus.bank != 0) = true) := by
      rw [hl, ho]
      decide
    exact congrArg Host.Outcome.next (State.issue_go_ok hgo ((if_neg hstall).trans (if_neg (ne_true_of_eq_false hq))))
  · intro n s hn hgo ⟨hdue, hl, hb, hq⟩
    cases hn
    change execExit h s = _
    simp only [execExit, hgo, hdue]
    rw [State.issue_go_ok hgo]
    rw [if_neg (by simp only [hl, hb, hq, Bool.not_true, Bool.or_self]; decide)]

/-- Settles O20: the checks on the record or the schedule pass one after the other. -/
theorem launchAndCommunicationStepComplete : Obligations.LaunchAndCommunicationStepComplete := by
  unfold Obligations.LaunchAndCommunicationStepComplete
  refine ⟨fun h m => ?_, fun h m => ?_⟩
  · exact givesIf_of_issue rfl (fun _ => rfl) fun s t ⟨hal, hw, hinv, hlq, hpred, hfull, hout⟩ => by
      simp only at hal hw hinv hlq hpred hfull hout
      have hw' := windowFault_of_inWindow hw
      simp only [ne_eq, hal, recordSize, hw', hinv, hlq, hpred, hfull, hout, not_true_eq_false, Bool.not_true, bne_self_eq_false, Bool.or_self, Bool.false_eq_true, if_false]
  · exact givesIf_of_issue rfl (fun _ => rfl) fun s t ⟨hready, hs, hb, hal, hw, h1, h2, h3, h4, hw2⟩ => by
      simp only at hal hw h1 h2 h3 h4 hw2
      simp only [ne_eq, hready, hs, hb, hal, windowFault_of_inWindow hw, h1, h2, h3, h4.not_gt, windowFault_of_inWindow hw2, not_true_eq_false, Bool.not_true, Option.isSome_none, decide_false, Bool.or_self, Bool.false_eq_true, if_false] <;> rfl

/-- Settles O21: the queue is enabled and has room, or an entry is there to pop or not. -/
theorem queueWordsComplete : Obligations.QueueWordsComplete := by
  unfold Obligations.QueueWordsComplete
  intro h d a v m qc q q9 e al
  refine ⟨?_, ?_, ?_, gives_of_issue rfl (fun _ => rfl) fun _ _ => rfl, ?_, ?_, gives_of_issue rfl (fun _ => rfl) fun _ _ => rfl, gives_of_issue rfl (fun _ => rfl) fun _ _ => rfl, gives_of_issue rfl (fun _ => rfl) fun _ _ => rfl⟩
  · exact givesIf_of_issue rfl (fun _ => rfl) fun s t ⟨⟨hen, hroom⟩, hal, hw, hs⟩ => by
      simp only at hal hw hs
      have hroom' : ¬ (t.bank.queue qc).count ≥ (t.bank.queue qc).depthm1 + 1 := by omega
      simp only [ne_eq, hen, hroom', hal, windowFault_of_inWindow hw, hs, not_true_eq_false, Bool.not_true, Bool.false_eq_true, if_false]
  · exact givesIf_of_issue rfl (fun _ => rfl) fun s t ⟨hen, hroom⟩ => by
      have hroom' : ¬ (t.bank.queue qc).count ≥ (t.bank.queue qc).depthm1 + 1 := by omega
      simp only [hen, hroom', Bool.not_true, Bool.false_eq_true, if_false]
  · exact givesIf_of_issue rfl (fun _ => rfl) fun s t hroom => if_neg hroom.not_ge
  · exact givesIf_of_issue rfl (fun _ => rfl) fun s t ⟨hne, hno⟩ => by
      simp only at hne hno
      simp only [hno, List.isEmpty_eq_false_iff.mpr hne, Bool.or_self, Bool.false_eq_true, if_false]
  · exact givesIf_of_issue rfl (fun _ => rfl) fun s t hno => by
      refine if_pos ?_
      rw [Bool.or_eq_true, List.isEmpty_iff]
      by_contra hc
      rw [not_or, Bool.not_eq_true] at hc
      exact hno hc

/-- Settles O22: a pair by `execXm_pair`, its result by `Bank.finishI_some`; an illegal word traps at its turn. -/
theorem xmPairsCompleteAndIllegalWordsTrap : Obligations.XmPairsCompleteAndIllegalWordsTrap := by
  unfold Obligations.XmPairsCompleteAndIllegalWordsTrap
  refine ⟨fun pd x s => ⟨fun t n f hin hp hpd hfit => ?_, fun h ty d a b hin hdec hpd hfit hgo => ?_⟩, fun w s hcyc htag => ?_⟩
  · exact execXm_pair hin hp hpd hfit
  · have hpair := congrArg (xmPair (pd, x)) hdec
    refine (execXm_pair (t := ty) (n := 2) (f := addOp (some (pd, x)) h ty d a b) hin hpair hpd hfit).trans (congrArg Host.Outcome.next ?_)
    rw [addOp, intOp]
    refine State.issue_go_ok hgo ?_
    simp only [if_true, Bool.false_eq_true, if_false, Bank.finishI_some]
  · have hturn : ¬ (decide (s.cycle < s.bank.earliest (Need.of (Fields.ofWord w).hdr) none)
        || s.bank.tagWait (Need.of (Fields.ofWord w).hdr) none) = true := by
      simp only [htag, hcyc.not_gt, decide_false, Bool.or_self, Bool.false_eq_true, not_false_eq_true]
    exact congrArg Host.Outcome.next (if_neg hturn)
end

section
/-!
PROOF. The words of the system class that save, load, quench and checkpoint.
-/
open Sys2Proof Sys2Proof.Machine

/-- Settles O24: the checks pass one after the other; BANKSAVE goes on once the bank has been stopped. -/
theorem banksAndBiasComplete : Obligations.BanksAndBiasComplete := by
  unfold Obligations.BanksAndBiasComplete
  intro h m a b dev bank l l2 hd img w z
  refine ⟨?_, ?_, ?_, ?_⟩
  · exact givesIf_of_issue rfl (fun _ => rfl) fun s t ⟨⟨hx, hy, hlo, hhi, hv⟩, hp⟩ => by
      simp only at hx hy hlo hhi hv hp
      simp only [ne_eq, hx, hy, hlo.not_gt, hhi.not_gt, hv, hp, not_true_eq_false, decide_false, Bool.or_self, Bool.false_eq_true, if_false, List.isEmpty_nil, if_true]
  · exact givesIf_of_issue rfl (fun _ => rfl) fun s t ⟨⟨hx, hy, hlo, hhi, hv⟩, hp, hf⟩ => by
      simp only at hx hy hlo hhi hv hp hf
      simp only [ne_eq, hx, hy, hlo.not_gt, hhi.not_gt, hv, List.isEmpty_eq_false_iff.mpr hp, hf, not_true_eq_false, decide_false, Bool.or_self, Bool.false_eq_true, if_false, Option.isSome_none]
      rfl
  · intro n s hn hgo ⟨h0, hst0, h1, hst, hq, hb⟩
    cases hn
    change execBanksave h bank m s = _
    simp only at h0 h1 hst hq hb
    simp only [execBanksave, hgo, h0, hst0, if_true]
    refine congrArg Host.Outcome.next (State.issue_go_ok hgo ?_)
    simp only [h1, hst, hq, hb, Bool.not_true, Bool.or_self, Bool.false_eq_true, if_false]
  · exact givesIf_of_issue rfl (fun _ => rfl) fun s t ⟨hne, hj, hx, hb, hr, hx2, hb2, hr2, hm, hv, hz, hf, ho, hroom⟩ => by
      simp only at hne hj hx hb hr hx2 hb2 hr2
      simp only [hne, hj, hx, hb, hr, hx2, hb2, hr2, hm, hv, hz, hf, ho, hroom, beq_iff_eq, ne_eq, not_true_eq_false, decide_false, Option.isSome_none, Bool.not_true, Bool.or_self, Bool.false_eq_true, if_false] <;>
        (generalize z.loadedBank hd img (extentKey l2) = v; rfl)

/-- Settles O25: the checks pass one after the other; CKPT joins a gathering or starts one. -/
theorem quenchAndCheckpointWordsComplete : Obligations.QuenchAndCheckpointWordsComplete := by
  unfold Obligations.QuenchAndCheckpointWordsComplete
  intro h a d b k now e lat id j r bk places c w
  refine ⟨?_, ?_, ?_, ?_⟩
  · exact givesIf_of_issue rfl (fun _ => rfl) fun s t ⟨hr, he, hj, hst, hno⟩ => by
      simp only at hr hno
      simp only [hr, he, hj, hst, hno, bne_self_eq_false, Bool.or_self, Bool.false_eq_true, if_false]
      rfl
  · exact givesIf_of_issue rfl (fun _ => rfl) fun s t ⟨hr, hrec, hdet, hj, hfit, hfar, hroom⟩ => by
      simp only at hr hrec hdet hj hfar
      have hfar' : (!(w.otherModules (t.bank.readN a)).isEmpty && !Config.peersFit w.free) = false := by
        rcases hfar with hf | hf
        · rw [hf]; rfl
        · rw [hf, Bool.not_true, Bool.and_false]
      simp only [hr, hrec, hdet, hj, hfit, hfar', hroom, Bool.not_true, Bool.false_eq_true, if_false]
  · exact givesIf_of_issue rfl (fun _ => rfl) fun s t ⟨hready, hr, hj, harg, hown, hg, hlast⟩ => by
      have hagrees : (match w.ckpts.find? (fun c => c.job == j.id && c.name == 0) with
          | none => true
          | some g => g.prev == t.bank.n[d] && g.step % 2 ^ 32 == (t.readS b).1.toNat % 2 ^ 32) = true := by
        split
        · rfl
        · next g hfind =>
          obtain ⟨hprev, hstep⟩ := hg g hfind
          rw [hprev, hstep, beq_self_eq_true, beq_self_eq_true, Bool.and_self]
      have hrises : (match j.lastCkpt with
          | none => true
          | some (_, n) => decide ((t.readS b).1.toNat > n)) = true := by
        split
        · rfl
        · next c n hl => exact decide_eq_true (hlast c n hl)
      simp only at hready hr
      simp only [hready, hr, hj, Bool.not_true, Bool.false_eq_true, if_false]
      refine (if_neg ?_).trans ((if_neg ?_).trans ?_)
      · rw [Bool.not_eq_true, Bool.or_eq_false_iff, Bool.or_eq_false_iff, harg]
        exact ⟨⟨bne_self_eq_false _, harg ▸ congrArg not hagrees⟩, congrArg not hrises⟩
      · rw [hown]
        decide
      · cases hsome : (w.ckpts.find? (fun c => c.job == j.id && c.name == 0)).isSome
        all_goals
          simp only [Bool.false_eq_true, if_false, if_true]
          generalize List.find? (fun c : Ckpt => c.job == j.id && c.name == 0) (State.ckpts _) = found
          cases found with
          | none => rfl
          | some c => exact (apply_ite Result.ok _ _ _).symm
  · exact givesIf_of_issue rfl (fun _ => rfl) fun s t ⟨hx, hf, hc, hck, hj, hr, hst⟩ => by
      have hst' : (r.state == 1 || r.state == 2 || r.state == 3) = true := by
        rcases hst with h | h | h <;> rw [h] <;> rfl
      simp only [hx, hf, hc, hck, Option.bind_some, hj, hr, hst', ne_eq, not_true_eq_false, Bool.not_true, Bool.false_eq_true, if_false, if_true]
end

section
/-!
PROOF. The common words of the engines: stacks, routines, semaphores, and what a fault leaves.
-/
open Sys2Proof Sys2Proof.Machine

namespace Sys2Proof.Machine

theorem Entry.push_of_lt {n : Entry} (x : StackWord) (h : n.pstack.length < 8) : n.push x = some { n with pstack := x :: n.pstack } :=
  if_pos h

theorem Entry.pop_one {n : Entry} {x : StackWord} {r : List StackWord} (h : n.pstack = x :: r) : n.pop 1 = some ([x], { n with pstack := r }) := by
  simp [Entry.pop, h]

theorem Entry.pop_two {n : Entry} {x y : StackWord} {r : List StackWord} (h : n.pstack = y :: x :: r) :
    n.pop 2 = some ([x, y], { n with pstack := r }) := by
  simp [Entry.pop, h]

theorem Entry.popped_one {n : Entry} {x : StackWord} {r : List StackWord} (h : n.pstack = x :: r) (f : List Nat → Entry → EngResult) :
    n.popped 1 f = f [x.toNat] { n with pstack := r } := by
  simp only [Entry.popped, Entry.pop_one h, List.map_cons, List.map_nil]

/-- Where an entry goes on does not depend on its parameter stack. -/
theorem Entry.at_advance_pstack (n : Entry) (l : List StackWord) : (Entry.advance { n with pstack := l }).at_ = n.advance.at_ := by
  simp only [Entry.advance]
  split
  · rfl
  · split <;> rfl

/-- Values for which the stack has room are pushed in order (R68). -/
theorem Entry.pushed_ok (l : List StackWord) (n : Entry) (s : State) (h : n.pstack.length + l.length ≤ 8) :
    n.pushed l s = .ok { n with pstack := l.reverse ++ n.pstack } s := by
  induction l generalizing n with
  | nil => rfl
  | cons x l ih =>
    rw [List.length_cons] at h
    have hpush := ih { n with pstack := x :: n.pstack } (by rw [List.length_cons]; omega)
    simp only [Entry.pushed, List.foldl_cons, Option.bind_some, Entry.push_of_lt x (show n.pstack.length < 8 by omega)] at hpush ⊢
    rw [hpush, List.reverse_cons, List.append_assoc, List.singleton_append]

/-- Two changes that agree on the bank that stands there are the same change. -/
theorem State.modBankAt_congr {s : State} {core : Nat} {b : Bool} {f g : Bank → Bank} (h : f (s.bankAt core b) = g (s.bankAt core b)) :
    s.modBankAt core b f = s.modBankAt core b g :=
  congrArg (fun x => s.setCore core ((s.core core).setBank b x)) h

@[simp] theorem Core.engine_modBank (c : Core) (b : Bool) (f : Bank → Bank) (e : Eng) : (c.modBank b f).engine e = c.engine e := by
  cases b <;> cases e <;> rfl

@[simp] theorem State.core_addLog (s : State) (r : LogRec) (i : Nat) : (s.addLog r).core i = s.core i := by
  simp only [State.addLog]
  split <;> rfl

/-- The report of an entry's fault leaves every engine as it was. -/
theorem State.engine_engTrap (s : State) (core : Nat) (e x : Eng) (n : Entry) (t : TrapInfo) :
    ((s.engTrap core e n t).core core).engine x = (s.core core).engine x := by
  simp only [State.engTrap, State.holdTrap, State.modBankAt, State.core_modCore, Core.engine_modBank]
  split
  · rw [State.core_addLog]
  · rfl

/-- A fault of an engine's entry is reported; the entry leaves the engine and stays at the head of its queue (R68, R194). -/
theorem State.engFault_eq {s : State} {core : Nat} {e : Eng} {n : Entry} (t : TrapInfo) (h : ((s.core core).engine e).cur = some n) :
    s.engFault core e t =
      let u := (s.engTrap core e n t).modCore core (fun c => c.setEngine e { c.engine e with cur := none, tried := true })
      if n.fromStep.isSome then u else u.modBankAt core n.bank (fun b => b.setQueue n.q (b.queue n.q).faulted) := by
  have hcur : (((s.engTrap core e n t).core core).engine e).cur = some n := by rw [State.engine_engTrap, h]
  simp only [State.engFault, h, State.stopEntry, hcur]

/-- A push to a bq register for which no QPOP waits joins the queue (R167). -/
theorem Bank.pushBq_of_none {b : Bank} {q : Fin 4} (h : b.qpops.find? (fun p => p.2 == q) = none) (cycle : Nat) (x : Word) :
    b.pushBq cycle q x = { b with bq := b.bq.set q (b.bq[q] ++ [x]) } := by
  simp only [Bank.pushBq, h]

end Sys2Proof.Machine

/-- Settles O26: the stack has the values (`Entry.pop_one`, `Entry.pop_two`) and the room (`Entry.pushed_ok`). -/
theorem engineStackWordsComplete : Obligations.EngineStackWordsComplete := by
  unfold Obligations.EngineStackWordsComplete
  intro v w x y r
  refine ⟨?_, ?_, ?_, ?_, ?_, ?_, ?_, ?_⟩
  · exact engGives_of (fun _ => rfl) fun n s hc => .inl ⟨_, _, Entry.pushed_ok _ _ _ hc, rfl⟩
  · exact engGives_of (fun _ => rfl) fun n s ⟨hs, hr⟩ => .inl ⟨_, _, by
      simp only [Entry.pop_one hs]
      exact Entry.pushed_ok _ _ _ hr, rfl⟩
  · exact engGives_of (fun _ => rfl) fun n s ⟨hs, hr⟩ => .inl ⟨_, _, by
      simp only [Entry.pop_one hs]
      exact Entry.pushed_ok _ _ _ (Nat.add_le_add_right hr 1), rfl⟩
  · exact engGives_of (fun _ => rfl) fun n s ⟨hs, hr⟩ => .inl ⟨_, _, by simp only [Entry.pop_one hs], rfl⟩
  · exact engGives_of (fun _ => rfl) fun n s ⟨hs, hr⟩ => .inl ⟨_, _, by
      simp only [Entry.pop_two hs]
      exact Entry.pushed_ok _ _ _ (Nat.add_le_add_right hr 1), rfl⟩
  · exact engGives_of (fun _ => rfl) fun n s ⟨hs, hr⟩ => .inl ⟨_, _, by
      simp only [Entry.pop_two hs]
      exact Entry.pushed_ok _ _ _ (Nat.add_le_add_right hr 2), rfl⟩
  · exact engGives_of (fun _ => rfl) fun n s _ => .inl ⟨_, _, rfl, rfl⟩
  · exact engGives_of (fun _ => rfl) fun n s _ => .inr rfl

/-- Settles O27: each word by its body; an illegal word by `State.engFault_eq`. -/
theorem engineFlowSignalsAndIllegalWords : Obligations.EngineFlowSignalsAndIllegalWords := by
  unfold Obligations.EngineFlowSignalsAndIllegalWords
  refine ⟨fun a k x r q qs p ps c => ⟨?_, ?_, ?_, ?_, ?_, ?_, ?_⟩, fun w s n hc => ?_⟩
  · exact engGives_of (fun _ => rfl) fun n s ⟨hl, hq⟩ => .inl ⟨_, _, by
      simp only at hq
      simp only [Entry.push_of_lt 0 hl, hq]
      exact Entry.pushed_ok _ _ _ hl, rfl⟩
  · exact engGives_of (fun _ => rfl) fun n s ⟨hs, hl, hp⟩ => .inl ⟨_, _, by
      simp only at hl
      simp only [Entry.pop_one hs, ge_iff_le, hl.not_ge, decide_false, Bool.false_and, Bool.false_eq_true, if_false]
      exact congrArg (EngResult.ok _) (State.modBankAt_congr (Bank.pushBq_of_none hp _ _)), rfl⟩
  · exact engGives_of (fun _ => rfl) fun n s ⟨hs, hp⟩ => .inl ⟨_, _, by
      simp only at hp
      simp only [Entry.pop_one hs, hp, Bool.not_true, Bool.and_false, Bool.false_eq_true, if_false], rfl⟩
  · exact engGives_of (fun _ => rfl) fun n s ⟨hs, hal, hin, hr⟩ => .inr (by
      have heven : ¬ x.toNat % 2 = 1 := by omega
      have hin' : ¬ x.toNat ≥ localSize := hin.not_ge
      simp only [Entry.popped_one hs, List.headD_cons, heven, hin', hr.not_ge, ge_iff_le, if_false, Entry.at_advance_pstack])
  · exact engGives_of (fun _ => rfl) fun n s hs => .inr (by
      simp only [hs] <;> rfl)
  · exact engGives_of (fun _ => rfl) fun n s ⟨ho, hk⟩ => .inl ⟨_, _, by
      simp only [ho, hk, Bool.not_true, Bool.false_eq_true, if_false] <;> rfl, rfl⟩
  · exact engGives_of (fun _ => rfl) fun n s ⟨ho, hd, hf, hi⟩ => .inl ⟨_, _, by
      simp only [ho, hd, hf, State.engSignal, hi, Bool.not_true, Bool.or_self, Bool.false_eq_true, if_false], rfl⟩
  · refine congrArg Host.Outcome.next ((State.engWord_fault hc ?_).trans (State.engFault_eq _ hc))
    change (match n.at_ with
      | .routine b off => _
      | .entry _ => _) = EngResult.fault _
    cases n.at_ with
    | entry i => rfl
    | routine b off =>
      simp only
      by_cases hpast : (n.layer.isNone && off < 2048 && b + 2 * off ≥ 0x400000) = true
      · exact (if_pos hpast).trans (by rw [if_pos hpast])
      · exact (if_neg hpast).trans (by rw [if_neg hpast])
end

section
/-!
PROOF. The Anvil: register words and their micro-operations, tile commands, and the microcode store.
-/
open Sys2Proof Sys2Proof.Machine

namespace Sys2Proof.Machine

theorem Entry.popped_two {n : Entry} {x y : StackWord} {r : List StackWord} (h : n.pstack = y :: x :: r) (f : List Nat → Entry → EngResult) :
    n.popped 2 f = f [x.toNat, y.toNat] { n with pstack := r } := by
  simp only [Entry.popped, Entry.pop_two h, List.map_cons, List.map_nil]

/-- A micro-operation goes on as its body does in a LAYER sequence (R232). -/
theorem engGives_of_micro {i : Instr} {body : Entry → State → EngResult} {cond : Entry → State → Prop} {post : Entry → State → Entry × State}
    (he : ∀ s, exec i s = .next (s.microOp body))
    (hb : ∀ n s, cond n s → n.layer.isSome = true
      ∧ ((∃ m u, body n s = .ok m u ∧ post n s = (m.advance, u)) ∨ body n s = .jump (post n s).1 (post n s).2)) :
    EngGives i cond post := by
  refine engGives_of he fun n s hc => ?_
  obtain ⟨hl, hr⟩ := hb n s hc
  have hin : ¬ n.layer.isNone = true := by
    rw [Option.isNone_iff_eq_none]
    exact Option.isSome_iff_ne_none.mp hl
  simp only [if_neg hin]
  exact hr

/-- A word and the micro-operation of the same body complete alike. -/
theorem engGivesBoth_of {i u : Instr} {body : Entry → State → EngResult} {cond : Entry → State → Prop} {post : Entry → State → Entry × State}
    (hi : ∀ s, exec i s = .next (s.engWord body)) (hu : ∀ s, exec u s = .next (s.microOp body))
    (hb : ∀ n s, cond n s → body n s = .ok n (post n s).2 ∧ (post n s).1 = n.advance) : EngGivesBoth i u cond post := by
  have hok (n : Entry) (s : State) (hc : cond n s) : ∃ m v, body n s = .ok m v ∧ post n s = (m.advance, v) :=
    ⟨n, (post n s).2, (hb n s hc).1, Prod.ext (hb n s hc).2 rfl⟩
  exact ⟨engGives_of hi fun n s hc => .inl (hok n s hc), engGives_of_micro hu fun n s hc => ⟨hc.1, .inl (hok n s hc.2)⟩⟩

/-- A loop level that R217 allows is set. -/
theorem setLoop_ok {a : Fin 6} {count : Nat} {stride : Int} (hlo : 1 ≤ count) (hhi : count ≤ 65535) (hmin : -(2 ^ 31 : Int) ≤ stride)
    (hmax : stride < 2 ^ 31) (n : Entry) (s : State) :
    setLoop a count stride n s = .ok n (s.modAnvil n (fun z => { z with loops := z.loops.set a (count, stride) })) := by
  refine if_neg ?_
  simp only [Bool.or_eq_true, decide_eq_true_eq]
  push Not
  exact ⟨⟨⟨by omega, hhi⟩, hmin⟩, hmax⟩

theorem sext_toNat (y : StackWord) : sext 48 y.toNat = y.toInt := by
  have hy := y.isLt
  rw [sext, BitVec.toInt_eq_toNat_cond, Nat.mod_eq_of_lt hy]
  split <;> split <;> omega

/-- No command in progress is one that a word waits for. -/
theorem cmdWaits_eq_false {s : State} {p : AnvilCmd → Prop} {f : AnvilCmd → Bool} (h : noCmd s p) (hf : ∀ k, f k = true → p k) :
    s.cur.cmdWaits f = false := by
  rw [Core.cmdWaits, ← Bool.not_eq_true, List.any_eq_true]
  rintro ⟨k, hk, hfk⟩
  exact h k hk (hf k hfk)

/-- Whether a bank owns a set of accumulators: any, unless the core is split (R212). -/
theorem ownsSet_of {c : Core} {bank : Bool} {a : Fin 4} (h : c.ksplit = true → (bank = true ↔ 2 ≤ a.val)) : c.ownsSet bank a = true := by
  cases hk : c.ksplit with
  | false => rw [Core.ownsSet, hk]; rfl
  | true =>
    rw [Core.ownsSet, hk, Bool.not_true, Bool.false_or, beq_iff_eq, Bool.eq_iff_iff, decide_eq_true_eq]
    exact (h hk).symm

/-! ### Addresses that pass the checks of R220 -/

theorem misaligned_eq_nil {code : BitVec 8} {m : Nat} {l : List Int} (h : ∀ a ∈ l, a % (m : Int) = 0) : misaligned code m l = [] := by
  rw [misaligned, List.map_eq_nil_iff, List.filter_eq_nil_iff]
  intro a ha
  rw [h a ha, bne_self_eq_false]
  decide

theorem outOfWindow_eq_nil {l : List (Int × Nat)} (h : ∀ x ∈ l, intWindow x.1 x.2) : outOfWindow l = [] := by
  rw [outOfWindow, List.filterMap_eq_nil_iff]
  intro x hx
  obtain ⟨hpos, hin⟩ := h x hx
  rw [if_neg hpos.not_gt, windowFault_of_inWindow hin, Option.map_none]

theorem addrFault_eq_none {stream other : List Int} {ranges : List (Int × Nat)} {m k : Nat} {c d : BitVec 8}
    (hs : ∀ a ∈ stream, a % (m : Int) = 0) (ho : ∀ a ∈ other, a % (k : Int) = 0) (hr : ∀ x ∈ ranges, intWindow x.1 x.2) :
    addrFault (misaligned c m stream) (misaligned d k other) ranges = none := by
  rw [misaligned_eq_nil hs, misaligned_eq_nil ho, addrFault, outOfWindow_eq_nil hr]
  rfl

theorem intWindow_natCast {a n : Nat} (h : inWindow a n) : intWindow (a : Int) n := ⟨Int.natCast_nonneg a, h⟩

/-! ### The format word of a tile command -/

/-- Changes that agree on the acting core are the same change. -/
theorem State.modCur_congr {s : State} {f g : Core → Core} (h : f s.cur = g s.cur) : s.modCur f = s.modCur g :=
  congrArg (s.setCore s.focus.core) h

/-- A tile command whose format word is accepted goes on with it (R220). -/
theorem tileCommand_ok {s : State} {n : Entry} {w : BitVec 32} {f : FmtWord} (hw : s.cur.fq.head?.map (fun x => x.1) = some w)
    (hf : formatIs f s) (hfork : s.cur.forked n = true) (F : FmtWord → BitVec 32 → State → EngResult) :
    tileCommand n F s = F f w (takeFormat s) := by
  obtain ⟨hof, hfeat⟩ := hf
  cases hq : s.cur.fq with
  | nil =>
    rw [hq] at hw
    cases hw
  | cons x r =>
    rw [hq] at hw hof
    cases hw
    have htake : s.modCur (fun c => { c with fq := r }) = takeFormat s := State.modCur_congr (by rw [hq]; rfl)
    simp only [List.head?_cons, Option.bind_some] at hof
    simp only [tileCommand, hfork, hq, hof, htake, Bool.not_true, Bool.false_eq_true, if_false]
    exact if_pos hfeat

theorem cur_takeFormat (s : State) : (takeFormat s).cur = { s.cur with fq := s.cur.fq.tail } := State.cur_modCur _ _

/-- Taking the format word leaves the Anvil registers alone. -/
theorem anvilOf_takeFormat (s : State) (n : Entry) : anvilOf n (takeFormat s) = anvilOf n s := by
  change ((takeFormat s).cur.bank n.bank).anvil = (s.cur.bank n.bank).anvil
  rw [cur_takeFormat]
  rfl

/-- What no read of a command changes: the number of the next command, and the accumulators with their marks. -/
def Core.accState (c : Core) : Nat × Sparse (BitVec 32) × List Nat := (c.cmdNo, c.acc, c.marks)

theorem Core.accState_readForCmd (c : Core) (k : AnvilCmd) (x : Nat × Nat) : (c.readForCmd k x).accState = c.accState := by
  simp only [Core.readForCmd, Core.accState, Core.touch, Core.modBank_cmdNo, Core.modBank_acc, Core.modBank_marks, Core.take]
  split <;> rfl

theorem Core.accState_readFirst (c : Core) (a n : Nat) : (c.readFirst a n).accState = c.accState :=
  foldl_keeps Core.accState (fun c k => foldl_keeps Core.accState (fun c x => c.accState_readForCmd k x) _ c) _ c

theorem Core.cmdNo_eq_of_accState {c d : Core} (h : c.accState = d.accState) : c.cmdNo = d.cmdNo := congrArg (fun x => x.1) h

theorem Core.accRow_eq_of_accState {c d : Core} (h : c.accState = d.accState) (a : Fin 4) (t : Nat) : c.accRow a t = d.accRow a t := by
  simp only [Core.accState, Prod.mk.injEq] at h
  obtain ⟨-, hacc, hmarks⟩ := h
  simp only [Core.accRow, hacc, hmarks]

@[simp] theorem Core.engine_setEngine (c : Core) (e : Eng) (x : Engine) : (c.setEngine e x).engine e = x := by
  cases e <;> rfl

@[simp] theorem State.engine_modEngine (s : State) (f : Engine → Engine) : (s.modEngine f).engine = f s.engine := by
  change (s.modCur fun c => c.setEngine s.engCode (f (c.engine s.engCode))).cur.engine s.engCode = _
  rw [State.cur_modCur, Core.engine_setEngine]
  rfl

/-- The entry that the engine holds after a step that answered a state. -/
def entryAfter : Out → Option Entry
  | .next s => s.engine.cur
  | _ => none

/-- An entry of the Anvil inside a LAYER sequence that still holds a sector which it has read. -/
def layerEntry : Entry :=
  { Entry.begin false .anvil 0 0 0 none with layer := some (0, 0), src := [(0, [])] }

/-- The state after reset, but with that entry in the Anvil. -/
def layerState : State :=
  { State.reset with focus := { core := 0, bank := false, eng := some .anvil } }.modEngine fun x => { x with cur := some layerEntry }

end Sys2Proof.Machine

/-- Settles O28: a word and its micro-operation have one body, and no command that it waits for is in progress. -/
theorem anvilRegisterWordsComplete : Obligations.AnvilRegisterWordsComplete := by
  unfold Obligations.AnvilRegisterWordsComplete
  intro l b a x y r count stride d
  refine ⟨?_, ?_, ?_, ?_, ?_, ?_, ?_, ?_⟩
  · exact engGives_of (fun _ => rfl) fun n s ⟨hs, hlo, hhi, hmin, hmax⟩ => .inl ⟨_, _, by
      rw [Entry.popped_two hs]
      exact setLoop_ok hlo hhi (sext_toNat y ▸ hmin) (sext_toNat y ▸ hmax) _ _, by
        simp only [List.getD_cons_succ, List.getD_cons_zero, sext_toNat]
        rfl⟩
  · exact engGives_of_micro (fun _ => rfl) fun n s ⟨hl, hc⟩ => ⟨hl, .inl ⟨_, _, setLoop_ok
      (Nat.one_le_iff_ne_zero.mpr fun h0 => hc (BitVec.eq_of_toNat_eq h0)) (Nat.le_of_lt_succ count.isLt) (BitVec.le_toInt stride)
      (BitVec.toInt_lt) n s, rfl⟩⟩
  · exact engGives_of (fun _ => rfl) fun n s hs => .inl ⟨_, _, by
      rw [Entry.popped_one hs, List.getD_cons_zero, BitVec.ofNat_toNat, BitVec.setWidth_eq, setBase]
      rfl, rfl⟩
  · exact engGives_of_micro (fun _ => rfl) fun n s hl => ⟨hl, .inl ⟨_, _, rfl, rfl⟩⟩
  · exact engGives_of_micro (fun _ => rfl) fun n s hl => ⟨hl, .inl ⟨_, _, rfl, Prod.ext rfl (State.modBankAt_congr rfl)⟩⟩
  · exact engGivesBoth_of (fun _ => rfl) (fun _ => rfl) fun n s hno => ⟨if_neg (ne_true_of_eq_false (cmdWaits_eq_false hno fun k hk => by
      rw [Bool.and_eq_true, beq_iff_eq] at hk
      refine ⟨hk.1, ?_⟩
      cases hkind : k.kind <;> simp_all)), rfl⟩
  · exact engGivesBoth_of (fun _ => rfl) (fun _ => rfl) fun n s ⟨hno, ho⟩ => ⟨(if_neg (ne_true_of_eq_false (cmdWaits_eq_false hno fun k hk => by
      simpa only [Bool.or_eq_true, beq_iff_eq] using hk))).trans (if_neg (by rw [ownsSet_of ho]; decide)), rfl⟩
  · exact engGivesBoth_of (fun _ => rfl) (fun _ => rfl) fun n s hno => ⟨if_neg (ne_true_of_eq_false (cmdWaits_eq_false hno fun k hk => by
      cases hkind : k.kind <;> simp_all)), rfl⟩

/-- Settles O29: the format word by `tileCommand_ok`, the addresses by `addrFault_eq_none`; a completed command by its kind. -/
theorem tileCommandsComplete : Obligations.TileCommandsComplete := by
  unfold Obligations.TileCommandsComplete
  refine ⟨fun a w f => ⟨?_, ?_, ?_⟩, ?_⟩
  · refine engGivesBoth_of (fun _ => rfl) (fun _ => rfl) fun n s ⟨⟨hw, hf⟩, hfork, hno, hsp, hal, hin, hhd, hnib⟩ => ⟨?_, rfl⟩
    refine (if_neg (ne_true_of_eq_false (cmdWaits_eq_false hno fun k hk => by simpa using hk))).trans ?_
    rw [tileCommand_ok hw hf hfork]
    have hanvil : ((takeFormat s).bankAt (takeFormat s).focus.core n.bank).anvil = anvilOf n s := anvilOf_takeFormat s n
    have hbytes (a m : Nat) : (takeFormat s).cur.anvilBytes (takeFormat s).cur.cmdNo a m = s.cur.anvilBytes s.cur.cmdNo a m := by
      rw [cur_takeFormat]
      rfl
    have hsp' : (f.sparse && f.b.isHalfStep) = false := Bool.eq_false_iff.mpr fun h => hsp (Bool.and_eq_true_iff.mp h)
    simp only [hanvil, hbytes, windowFault_of_inWindow hin, Option.isNone_none, if_true, hsp', Bool.false_eq_true, if_false, Bool.and_true]
    refine (if_neg ?_).trans ((if_neg (ne_true_of_eq_false hhd)).trans ?_)
    · simp only [Bool.and_eq_true, List.any_eq_true, List.mem_range, not_and, not_exists, Bool.not_eq_true]
      exact fun h i hi q hq => hnib h i q hi hq
    · have haddr : addrFault [] (misaligned 0x05 32 [((anvilOf n s).b[4].toNat : Int)]) [(((anvilOf n s).b[4].toNat : Int), f.tile)] = none := by
        exact addrFault_eq_none (stream := []) (m := 1) (c := 0) (List.forall_mem_nil _) (List.forall_mem_singleton.mpr (by exact_mod_cast hal))
          (List.forall_mem_singleton.mpr (intWindow_natCast hin))
      rw [haddr]
      rfl
  · refine engGivesBoth_of (fun _ => rfl) (fun _ => rfl) fun n s ⟨⟨hw, hf⟩, hfork, hno, ho, hst, hrows, hat⟩ => ⟨?_, rfl⟩
    refine (if_neg (ne_true_of_eq_false (cmdWaits_eq_false hno fun k hk => by simpa using hk))).trans ?_
    rw [tileCommand_ok hw hf hfork]
    have hanvil : ((takeFormat s).bankAt (takeFormat s).focus.core n.bank).anvil = anvilOf n s := anvilOf_takeFormat s n
    have hown : (takeFormat s).cur.ownsSet n.bank a = true := by
      rw [cur_takeFormat]
      exact ownsSet_of ho
    have hlast : (takeFormat s).cur.lastRow = s.cur.lastRow := by rw [cur_takeFormat]
    have hrcd : ((anvilOf n s).stat.rcd != some f.rcd) = false := by
      rw [hst]
      exact bne_self_eq_false _
    have haddr : addrFault (misaligned 0x0C (4 * f.a.width) (((List.range (anvilOf n s).rows).map (anvilOf n s).streamAt).map (fun y => y.1)))
        (misaligned 0x05 2 (if f.a.isLog then ((List.range (anvilOf n s).rows).map (anvilOf n s).streamAt).map (fun y => y.2) else []))
        (((List.range (anvilOf n s).rows).map (anvilOf n s).streamAt).map (fun y => (y.1, f.rowBytes))
          ++ (if f.a.isLog then ((List.range (anvilOf n s).rows).map (anvilOf n s).streamAt).map (fun y => y.2) else []).map
            (fun y => (y, f.scaleBytes))) = none := by
      refine addrFault_eq_none (List.forall_mem_map.mpr fun p hp => (hat p hp).1) (fun x hx => ?_)
        (List.forall_mem_append.mpr ⟨List.forall_mem_map.mpr fun p hp => (hat p hp).2.1, List.forall_mem_map.mpr fun x hx => ?_⟩)
      all_goals
        split at hx
        · next hl =>
          obtain ⟨p, hp, rfl⟩ := List.mem_map.mp hx
          obtain ⟨heven, hwin⟩ := (hat p hp).2.2 hl
          assumption
        · exact nomatch hx
    simp only [hanvil, hown, hrcd, hrows.not_gt, haddr, hlast, Bool.not_true, Bool.false_eq_true, if_false, decide_false, Bool.or_self]
    rfl
  · refine engGivesBoth_of (fun _ => rfl) (fun _ => rfl) fun n s ⟨⟨hw, hf⟩, hfork, hno, ho, hrows, hsp, hal, hin, hlog⟩ => ⟨?_, rfl⟩
    refine (if_neg (ne_true_of_eq_false (cmdWaits_eq_false hno fun k hk => by simpa using hk))).trans ?_
    rw [tileCommand_ok hw hf hfork]
    have hanvil : ((takeFormat s).bankAt (takeFormat s).focus.core n.bank).anvil = anvilOf n s := anvilOf_takeFormat s n
    have hown : (takeFormat s).cur.ownsSet n.bank a = true := by
      rw [cur_takeFormat]
      exact ownsSet_of ho
    have hsp' : (f.sparse && f.b.isHalfStep) = false := Bool.eq_false_iff.mpr fun h => hsp (Bool.and_eq_true_iff.mp h)
    have hscale : (f.o.isLog && badDrainScale (anvilOf n s).b[7]) = false := Bool.and_eq_false_imp.mpr fun hl => (hlog hl).1
    have haddr : addrFault [] (misaligned 0x05 32 (((anvilOf n s).b[5].toNat : Int)
          :: (if f.o.isLog then [((anvilOf n s).b[6].toNat : Int)] else [])))
        ((List.range (anvilOf n s).rows).map (fun t => ((((anvilOf n s).b[5].toNat + t * (8 * f.o.width) : Nat) : Int), 8 * f.o.width))
          ++ (if f.o.isLog then (List.range (anvilOf n s).rows).map (fun t => ((((anvilOf n s).b[6].toNat + t * 32 : Nat) : Int), 32)) else []))
        = none := by
      refine addrFault_eq_none (stream := []) (m := 1) (c := 0) (List.forall_mem_nil _) (List.forall_mem_cons.mpr ⟨by exact_mod_cast hal, fun x hx => ?_⟩)
        (List.forall_mem_append.mpr ⟨List.forall_mem_map.mpr fun t ht => intWindow_natCast (hin t (List.mem_range.mp ht)), fun x hx => ?_⟩)
      · split at hx
        · next hl =>
          rw [List.mem_singleton.mp hx]
          exact_mod_cast (hlog hl).2.1
        · exact nomatch hx
      · split at hx
        · next hl =>
          obtain ⟨t, ht, rfl⟩ := List.mem_map.mp hx
          exact intWindow_natCast ((hlog hl).2.2 t (List.mem_range.mp ht))
        · exact nomatch hx
    have hstate : (if f.o.isLog then ((takeFormat s).cur.readFirst (anvilOf n s).b[5].toNat ((anvilOf n s).rows * (8 * f.o.width))).readFirst
          (anvilOf n s).b[6].toNat ((anvilOf n s).rows * 32)
        else (takeFormat s).cur.readFirst (anvilOf n s).b[5].toNat ((anvilOf n s).rows * (8 * f.o.width))).accState = s.cur.accState := by
      split <;> simp only [Core.accState_readFirst, cur_takeFormat] <;> rfl
    simp only [hanvil, hown, hrows.not_gt, hsp', hscale, haddr, Bool.not_true, Bool.false_eq_true, if_false, decide_false, Bool.or_self,
      Core.cmdNo_eq_of_accState hstate, Core.accRow_eq_of_accState hstate]
    rfl
  · intro s k a f core ends hfind hwant hof base plane sum
    have hready (fl : FlagSet) (u : State)
        (h : execAnvilCommandComplete k.id s = .next (u.mergeFlags core k.bank fl 2 k.detail k.upc)) : ends fl u := h
    refine ⟨fun hk => hready _ _ ?_, fun hk => hready _ _ ?_, fun hk => hready _ _ ?_⟩
    · simp only [execAnvilCommandComplete, hfind, hwant, List.isEmpty_nil, if_true, Option.getD_some, Bool.not_true, Bool.false_eq_true, if_false,
        hk, hof]
      rfl
    · simp only [execAnvilCommandComplete, hfind, hwant, List.isEmpty_nil, if_true, Option.getD_some, Bool.not_true, Bool.false_eq_true, if_false,
        hk, hof]
      rfl
    · rcases hk with hk | hk <;>
        simp only [execAnvilCommandComplete, hfind, hwant, List.isEmpty_nil, if_true, Option.getD_some, Bool.not_true, Bool.false_eq_true, if_false,
          hk, hof, Eng.src, core]

/-- Refutes O30: a micro-operation of an entry that has read sectors of local memory drops them, but the statement keeps them. -/
theorem not_layerWordsComplete : ¬ Obligations.LayerWordsComplete := by
  unfold Obligations.LayerWordsComplete
  intro h
  obtain ⟨-, -, -, -, -, hstripe⟩ := h 0 0 [] 0 0 0 0
  have hcur : layerState.engine.cur = some layerEntry := by rw [layerState, State.engine_modEngine]
  have hafter := congrArg (fun o => (entryAfter o).map Entry.src) (hstripe layerState layerEntry hcur rfl)
  have hexec : exec .ustripe layerState
      = .next ((wordState layerState).modEngine fun x => { x with cur := some { layerEntry.advance with stripe := true } }) :=
    congrArg Host.Outcome.next (State.engWord_jump hcur rfl)
  rw [hexec] at hafter
  simp only [entryAfter, State.engine_modEngine, Option.map_some] at hafter
  exact absurd hafter (by decide)
end

section
/-!
PROOF. The copy engine's own words: tiles, gathers, local copies, staging, and TREE.
-/
open Sys2Proof Sys2Proof.Machine

namespace Sys2Proof.Machine

theorem Entry.popped_operands {n : Entry} {l r : List StackWord} (h : operands n l r) (f : List Nat → Entry → EngResult) :
    n.popped l.length f = f (l.map BitVec.toNat) { n with pstack := r } := by
  rw [operands] at h
  have hlen : l.length ≤ n.pstack.length := by
    rw [h, List.length_append, List.length_reverse]
    exact Nat.le_add_right _ _
  have htake : (n.pstack.take l.length).reverse = l := by
    rw [h, ← List.length_reverse, List.take_left, List.reverse_reverse]
  have hdrop : n.pstack.drop l.length = r := by
    rw [h, ← List.length_reverse, List.drop_left]
  simp only [Entry.popped, Entry.pop, if_pos hlen, htake, hdrop]

/-- A word that reads ranges of local memory completes as the rest of its body does once they have been read. -/
theorem engReads_of {i : Instr} {body : Entry → State → EngResult} {ranges : Entry → State → List (Nat × Nat)} {at_ : Entry → State → State}
    {cond : Entry → State → Prop} {fits : (Nat → Nat → List Byte) → Entry → State → Prop}
    {post : (Nat → Nat → List Byte) → Entry → State → State → Entry × State} (r : List StackWord) (he : ∀ s, exec i s = .next (s.engWord body))
    (hb : ∀ n s, cond n s → ∃ f, body n s = withSource (ranges n (at_ n s)) f { n with pstack := r } (at_ n s)
      ∧ ∀ get w, w.focus = (at_ n s).focus → fits get n w →
        ∃ m, f get { n with pstack := r } w = .ok m (post get n (at_ n s) w).2 ∧ m.advance = (post get n (at_ n s) w).1) :
    EngReads i ranges at_ cond fits post := by
  intro s n hc hk v l got w get
  obtain ⟨f, hbody, hrest⟩ := hb n _ hk
  refine ⟨fun hall hfits => ?_, fun hmore => ?_⟩
  · obtain ⟨m, hm, hadv⟩ := hrest get w rfl hfits
    rw [he, State.engWord_ok hc (hbody.trans ((if_pos hall).trans hm)), hadv]
  · rw [he, State.engWord_more hc (hbody.trans (if_neg (ne_true_of_eq_false hmore)))]
    rfl

theorem onTensor_eq {slot : Fin 16} {feature : Option Nat} {f : List Nat → Entry → Name → Tensor → State → EngResult} {n : Entry} {s u : State}
    {o1 o2 o3 : StackWord} {r : List StackWord} {x : Name} {b : Name × Tensor} {t : Tensor} (ho : operands n [o1, o2, o3] r)
    (hw : s.cur.copyWaits n = false) (hf : feature.any (fun i => !(s.die (dieOf s.focus.core)).featmask.getLsbD i) = false)
    (hs : s.slotName { n with pstack := r } slot [Cls.tensor, Cls.patch] = (.ok x, u)) (hb : u.tensorOfName x = some b)
    (hbusy : u.anyBusy [Loc.line b.2.descLoc] = false)
    (hr : (u.fetchDesc b.2).reread ((u.fetchDesc b.2).bankAt (u.fetchDesc b.2).focus.core n.bank) b.2 = .ok t) :
    onTensor slot feature f n s = f [o1.toNat, o2.toNat, o3.toNat] { n with pstack := r } x t (u.fetchDesc b.2) := by
  refine (if_neg (ne_true_of_eq_false hw)).trans ((Entry.popped_operands ho _).trans ?_)
  simp only [hf, hs, hb, hbusy, hr, Bool.false_eq_true, if_false, List.map_cons, List.map_nil]

theorem onPatch_eq {slot : Fin 16} {f : List Nat → Entry → Patch → Tensor → State → EngResult} {n : Entry} {s u : State}
    {o1 o2 o3 : StackWord} {r : List StackWord} {x : Name} {p : Patch} {z t : Tensor} (ho : operands n [o1, o2, o3] r)
    (hw : s.cur.copyWaits n = false) (hs : s.slotName { n with pstack := r } slot [Cls.patch] = (.ok x, u)) (hp : u.patch x = some p)
    (hopen : p.state = .opened) (hz : u.tensor p.half.base = some z) (hbusy : u.anyBusy [Loc.line z.descLoc] = false)
    (hr : (u.fetchDesc z).reread ((u.fetchDesc z).bankAt (u.fetchDesc z).focus.core n.bank) z = .ok t) :
    onPatch slot f n s = f [o1.toNat, o2.toNat, o3.toNat] { n with pstack := r } p t (u.fetchDesc z) := by
  refine (if_neg (ne_true_of_eq_false hw)).trans ((Entry.popped_operands ho _).trans ?_)
  simp only [hs, hp, hopen, hz, hbusy, hr, bne_self_eq_false, Bool.false_eq_true, if_false, List.map_cons, List.map_nil]

theorem localFault_of_inWindow {a n : Nat} (hpos : 0 < n) (h : inWindow a n) : localFault a n = none := by
  have hlt : ¬ a ≥ localSize := by
    simp only [inWindow] at h
    simp only [localSize]
    omega
  rw [localFault, if_neg hpos.ne', if_neg hlt, windowFault_of_inWindow h]

theorem find?_misaligned_eq_none {l : List Nat} {m : Nat} (h : ∀ x ∈ l, x % m = 0) : l.find? (fun x => x % m ≠ 0) = none := by
  rw [List.find?_eq_none]
  intro x hx
  simp only [h x hx, ne_eq, not_true, decide_false, Bool.false_eq_true, not_false_eq_true]

theorem headD_eq_of_forall {α : Type} {l : List α} {y d : α} (h : ∀ x ∈ l, x = y) (hne : l ≠ []) : l.headD d = y := by
  cases l with
  | nil => exact absurd rfl hne
  | cons x l => exact h x List.mem_cons_self

/-- The acting engine's turn leaves its core's TREE alone. -/
theorem treeAt_wordState (s : State) : (wordState s).cur.treeAt = s.cur.treeAt := by
  rw [wordState, State.modEngine, State.cur_modCur]
  cases s.engCode <;> rfl

/-- What a staging word needs to be sent (R209): its slice, its range there and in local memory, and the bank's grant. -/
def stageReady (store : Bool) (o1 o2 o3 o4 : StackWord) (r : List StackWord) (n : Entry) (s : State) : Prop :=
  let die : Nat := if o1.toNat < 2048 then dieOf s.focus.core else o1.toNat / 64 % 32
  operands n [o1, o2, o3, o4] r ∧ s.cur.copyWaits n = false
    ∧ o1.toNat < 4096 ∧ (o1.toNat < 2048 → o1.toNat < 64) ∧ o2.toNat % 32 = 0 ∧ o3.toNat % 32 = 0 ∧ o4.toNat % 32 = 0
    ∧ 0 < o4.toNat ∧ o4.toNat ≤ 2 ^ 20 ∧ inWindow o3.toNat o4.toNat
    ∧ o2.toNat + o4.toNat ≤ (s.slice die (o1.toNat % 64)).staged * 131072
    ∧ (s.bankAt s.focus.core n.bank).stagingGrant (if store then 1 else 0) die (o1.toNat % 64) = true
    ∧ s.cur.engTouches .copy o3.toNat o4.toNat = false

/-- A staging word that is ready sends its units, sector by sector. -/
def stageSend (store : Bool) (o1 o2 o3 o4 : StackWord) (r : List StackWord) (n : Entry) (s : State) : Entry × State :=
  let die : Nat := if o1.toNat < 2048 then dieOf s.focus.core else o1.toNat / 64 % 32
  let key := die * 64 + o1.toNat % 64
  let units := (cutAt 32 (o4.toNat / 32 + 1) 0 o4.toNat).map (fun u => fun w =>
    { (copyKind { n with pstack := r } 0).access w { addr := o2.toNat + u.1, len := u.2, seg := none } (o2.toNat + u.1, u.2)
        (.stage store key (o2.toNat + u.1) (o3.toNat + u.1)) with target := .staging, loc := { lo := key, nd := 0, q := o2.toNat + u.1 } })
  (onWith n r, s.modCur (fun c => (if store then c.touch n.bank o3.toNat o4.toNat else c).addAll units))

theorem stageWord_gives {i : Instr} {o1 o2 o3 o4 : StackWord} {r : List StackWord} (store : Bool)
    (he : ∀ s, exec i s = .next (stageWord store s)) :
    EngGives i (stageReady store o1 o2 o3 o4 r) (stageSend store o1 o2 o3 o4 r) := by
  refine engGives_of he fun n s ⟨ho, hw, h4096, hdie, ho2, ho3, ho4, hpos, hmax, hin, hstaged, hgrant, htouch⟩ => .inl ⟨_, _, ?_, rfl⟩
  have hhome : o1.toNat / 2048 = 0 ↔ o1.toNat < 2048 := by omega
  have hslice : (decide (o1.toNat ≥ 4096) || decide (o1.toNat / 2048 = 0) && decide (o1.toNat / 64 % 32 ≠ 0)) = false := by
    simp only [Bool.or_eq_false_iff, Bool.and_eq_false_imp, decide_eq_true_eq, decide_eq_false_iff_not, not_not]
    exact ⟨by omega, fun h => by have := hdie (hhome.mp h); omega⟩
  refine (if_neg (ne_true_of_eq_false hw)).trans ((Entry.popped_operands ho _).trans ?_)
  simp only [List.map_cons, List.map_nil, List.getD_cons_zero, List.getD_cons_succ]
  rw [if_neg (ne_true_of_eq_false hslice), find?_misaligned_eq_none (by simp [ho2, ho3, ho4])]
  simp only [hhome, hpos.ne', hmax.not_gt, localFault_of_inWindow hpos hin, hstaged.not_gt, hgrant, htouch, decide_false, Bool.or_self,
    Bool.not_true, Bool.false_eq_true, if_false]

end Sys2Proof.Machine

/-- Settles O31: the slot's tensor by `onTensor_eq`, its patch by `onPatch_eq`, and the tile's bytes by `engReads_of`. -/
theorem tileAndTransposingWordsComplete : Obligations.TileAndTransposingWordsComplete := by
  unfold Obligations.TileAndTransposingWordsComplete
  refine ⟨fun slot row col la r x b t p u ps accs => ⟨?_, ?_⟩, fun slot row col la r x b t w p hw u ps accs twins => ⟨?_, ?_⟩⟩
  · exact engGives_of (fun _ => rfl) fun n s ⟨⟨ho, hw, hs⟩, hx, ⟨hbusy, hr⟩, ⟨hf, htouch⟩, ht⟩ => .inl ⟨_, _, by
      simp only at hr hf htouch ht
      rw [onTensor_eq ho hw rfl hs hx hbusy hr]
      simp only [List.getD_cons_zero, List.getD_cons_succ, hf, htouch, Bool.false_eq_true, if_false]
      exact (by simp only [Entry.padCode] at ht ⊢; rw [ht]), rfl⟩
  · exact engReads_of r (fun _ => rfl) fun n s ⟨⟨ho, hw, hs⟩, hp, hopen, hno, hb, ⟨hbusy, hr⟩, hf, htouch⟩ => ⟨_, by
      simp only at hr hf htouch
      refine (onPatch_eq ho hw hs hp hopen hb hbusy hr).trans ?_
      simp only [List.getD_cons_zero, List.getD_cons_succ, hno, hf, htouch, Bool.false_eq_true, if_false, Option.isSome_none]
      rfl, fun get v _ hfits => ⟨_, by
        simp only [hfits], rfl⟩⟩
  · refine engReads_of r (fun _ => rfl) fun n s ⟨⟨ho, hw, hs⟩, hp, hopen, hsome, hb, ⟨hbusy, hr⟩, htw, hh, hf, hal, htouch⟩ => ⟨_, by
      simp only at hr hf htouch htw hal
      refine (onPatch_eq ho hw hs hp hopen hb hbusy hr).trans ?_
      simp only [List.getD_cons_zero, List.getD_cons_succ, hsome, htw, hh, hf, hal, htouch, Bool.not_true, Bool.false_eq_true, if_false, Option.bind_some]
      rfl, fun get v _ ⟨h1, h2⟩ => ⟨_, by
        simp only at h1 h2
        simp only [h1, h2, Bool.and_eq_true, decide_eq_true_eq], rfl⟩⟩
  · exact engGives_of (fun _ => rfl) fun n s ⟨hfeat, ⟨ho, hw, hs⟩, hx, ⟨hbusy, hr⟩, hh, hlog, hal, hla, hf, htouch, ht⟩ => .inl ⟨_, _, by
      simp only at hr hf htouch ht hfeat hal hlog
      have hlog' : (t.fmt.isLog && (TileReq.of row.toNat col.toNat).rows % 32 != 0) = false := by
        rw [Bool.and_eq_false_imp]
        exact fun h => bne_eq_false_iff_eq.mpr (hlog h)
      rw [onTensor_eq ho hw (by simp only [Option.any_some, hfeat]; rfl) hs hx hbusy hr]
      simp only [List.getD_cons_zero, List.getD_cons_succ, hh, hlog', hal, hla, hf, htouch, Bool.or_self, Bool.not_true, ne_eq, not_true,
        Bool.false_eq_true, if_false]
      exact (by simp only [Entry.padCode] at ht ⊢; rw [ht]; rfl), rfl⟩

/-- Settles O32: a gather and a local copy by `engReads_of`, staging by `stageWord_gives`, and TREE by its level. -/
theorem stagingGatherAndTreeComplete : Obligations.StagingGatherAndTreeComplete := by
  unfold Obligations.StagingGatherAndTreeComplete
  refine ⟨fun slot o1 o2 o3 o4 r x b t u ps => ⟨?_, ?_, ?_, ?_, ?_⟩, fun s n la k r hc hn hk1 hk2 hk3 hla hf => ?_⟩
  · exact engReads_of r (fun _ => rfl) fun n s ⟨hfeat, ho, hw, hs, hx, hbusy, hr, hcount, hrow, hpitch, hidx, hla, hf1, hf2, ht1, ht2⟩ => ⟨_, by
      simp only at hr ht1 ht2 hcount hidx hla hf1 hf2
      refine (onTensor_eq ho hw (by simp only [Option.any_some, hfeat]; rfl) hs hx hbusy hr).trans ?_
      simp only [List.getD_cons_zero, List.getD_cons_succ, hcount.not_gt, hrow.not_gt, hpitch, hidx, hla, hf1, hf2, ht1, ht2,
        decide_false, Bool.or_self, ne_eq, not_true, Bool.false_eq_true, if_false]
      rfl, fun get v hfoc hfits => ⟨_, by
        simp only at hfits
        rw [hfoc] at hfits
        simp only [Entry.padCode] at hfits ⊢
        rw [hfits]
        simp only [Bool.and_eq_true, beq_iff_eq]
        rfl, rfl⟩⟩
  · exact engGives_of (fun _ => rfl) fun n s hs => .inl ⟨_, _, by simp only [Entry.pop_one hs], rfl⟩
  · exact engReads_of r (fun _ => rfl) fun n s ⟨ho, h1, h2, h3, hf1, hf2, hfork, ht1, ht2⟩ => ⟨_, by
      refine (Entry.popped_operands ho _).trans ?_
      simp only [List.map_cons, List.map_nil, List.getD_cons_zero, List.getD_cons_succ]
      rw [find?_misaligned_eq_none (by simp [h1, h2, h3])]
      have hfork' : s.cur.forked { n with pstack := r } = true := hfork
      simp only [hf1, hf2, hfork', ht1, ht2, Bool.not_true, Bool.or_self, Bool.false_eq_true, if_false]
      rfl, fun get v _ _ => ⟨_, rfl, rfl⟩⟩
  · exact stageWord_gives false (fun _ => rfl)
  · exact stageWord_gives true (fun _ => rfl)
  · have hcount : (k.toNat % 64 ≠ 0 || k.toNat < 64 || k.toNat > 262144 || la.toNat % 256 ≠ 0) = false := by
      simp [hk1, hk2, hk3, hla]
    have ho : operands n [la, k] r := hn
    have hexec : exec .tree s = execTree s := rfl
    simp only [hexec, execTree, hc]
    refine ⟨fun hnone hfork htouch => congrArg Host.Outcome.next ?_, fun t ht => ⟨fun h0 ⟨y, hall⟩ => congrArg Host.Outcome.next ?_,
      fun hl1 hl3 hfirst hp => congrArg Host.Outcome.next ?_, fun hl1 hl3 hfirst hp => congrArg Host.Outcome.next ?_,
      fun hl4 hland => congrArg Host.Outcome.next ?_⟩⟩
    · refine State.engWord_jump hc ((Entry.popped_operands ho _).trans ?_)
      simp only [List.map_cons, List.map_nil, List.getD_cons_zero, List.getD_cons_succ]
      rw [if_neg (ne_true_of_eq_false hcount)]
      simp only [hf, treeAt_wordState, hnone, hfork, htouch, Bool.not_true, Bool.or_self, Bool.false_eq_true, if_false]
    · refine State.engWord_jump hc ((Entry.popped_operands ho _).trans ?_)
      simp only [List.map_cons, List.map_nil, List.getD_cons_zero, List.getD_cons_succ]
      rw [if_neg (ne_true_of_eq_false hcount)]
      simp only [hf, ht, h0, if_true]
      have hnone : ¬ ((((wordState s).clusterGang s.focus.core n.bank).map fun c => (wordState s).treeOf n.bank t.inst c).any
          Option.isNone = true) := by
        simp only [List.any_map, List.any_eq_true, not_exists, not_and]
        intro c hc' hno
        have hy : ((wordState s).treeOf n.bank t.inst c).map (fun z => (z.laddr, z.count)) = some y := hall c hc'
        have hnone : (wordState s).treeOf n.bank t.inst c = none := Option.isNone_iff_eq_none.mp hno
        rw [hnone] at hy
        cases hy
      rw [if_neg hnone]
      refine if_neg ?_
      have hargs : ∀ x ∈ (((wordState s).clusterGang s.focus.core n.bank).map fun c => (wordState s).treeOf n.bank t.inst c).map
          (fun x => x.map fun t => (t.laddr, t.count)), x = some y := by
        intro x hx
        rw [List.map_map, List.mem_map] at hx
        obtain ⟨c, hc', rfl⟩ := hx
        exact hall c hc'
      simp only [List.any_eq_true, bne_iff_ne, not_exists, not_and, not_not]
      exact fun x hx => (hargs x hx).trans (headD_eq_of_forall hargs (List.ne_nil_of_mem hx)).symm
    · refine State.engWord_jump hc ((Entry.popped_operands ho _).trans ?_)
      simp only [List.map_cons, List.map_nil, List.getD_cons_zero, List.getD_cons_succ]
      rw [if_neg (ne_true_of_eq_false hcount)]
      simp only [hf, ht, Nat.one_le_iff_ne_zero.mp hl1, Nat.lt_succ_of_le hl3, if_true, if_false]
      exact (if_pos hfirst).trans (if_pos ((Bool.not_eq_true' _).mpr hp))
    · refine State.engWord_jump hc ((Entry.popped_operands ho _).trans ?_)
      simp only [List.map_cons, List.map_nil, List.getD_cons_zero, List.getD_cons_succ]
      rw [if_neg (ne_true_of_eq_false hcount)]
      simp only [hf, ht, Nat.one_le_iff_ne_zero.mp hl1, Nat.lt_succ_of_le hl3, if_true, if_false]
      exact (if_neg hfirst).trans (if_neg (ne_true_of_eq_false hp))
    · refine State.engWord_ok hc ((Entry.popped_operands ho _).trans ?_)
      have hne : ¬ t.level = 0 := by omega
      have hlt : ¬ t.level < 4 := hl4.not_gt
      simp only [List.map_cons, List.map_nil, List.getD_cons_zero, List.getD_cons_succ]
      rw [if_neg (ne_true_of_eq_false hcount)]
      simp only [hf, ht, hne, hlt, hland, if_true, if_false]
end

section
/-!
PROOF. The words of the collective engine.
-/
open Sys2Proof Sys2Proof.Machine

namespace Sys2Proof.Machine

theorem transferFault_eq_none {raddr laddr k : Nat} (hr : raddr % 32 = 0) (hl : laddr % 32 = 0) (hk : k % 32 = 0) (hpos : 0 < k)
    (hmax : k ≤ 2 ^ 20) (hlin : laddr + k ≤ 0x400000) (hrin : raddr + k ≤ 0x400000) : transferFault raddr laddr k = none := by
  have hrange : (decide (k = 0) || decide (k > 2 ^ 20)) = false := by
    rw [decide_eq_false hpos.ne', decide_eq_false hmax.not_gt]
    rfl
  rw [transferFault, find?_misaligned_eq_none (by simp [hr, hl, hk])]
  exact (if_neg (ne_true_of_eq_false hrange)).trans ((if_neg hlin.not_gt).trans (if_neg hrin.not_gt))

/-- A transfer whose stream's accesses are performed reads its bytes (R164, R359). -/
theorem sendFrom_of_forked {n : Entry} {s : State} (h : s.cur.forked n = true) (typ : BitVec 4) (arg : BitVec 8)
    (targets : List (BitVec 12 × BitVec 11)) (raddr laddr k : Nat) :
    sendFrom typ arg targets raddr laddr k n s
      = withSource [(laddr, k)] (fun get n s => .ok n (s.transfer n typ arg targets raddr (get laddr k))) n s := by
  rw [sendFrom, h]
  rfl

/-- No transfer of the entry is on its way. -/
theorem any_left_eq_false {l : List Send} (h : ∀ y, y ∈ l → y.left = 0) : l.any (fun y => y.left != 0) = false := by
  rw [← Bool.not_eq_true, List.any_eq_true]
  rintro ⟨y, hy, hne⟩
  exact bne_iff_ne.mp hne (h y hy)

end Sys2Proof.Machine

/-- Settles O33: a transfer by `sendFrom_of_forked` once its operands pass `transferFault`; CSIG and CSLOT by their bodies. -/
theorem collectiveWordsComplete : Obligations.CollectiveWordsComplete := by
  unfold Obligations.CollectiveWordsComplete
  intro a k o1 o2 o3 o4 r c sc at_
  refine ⟨?_, ?_, ?_, ?_, ?_, ?_⟩
  case refine_1 | refine_2 =>
    exact engReads_of r (fun _ => rfl) fun n s ⟨ho, hcore, hfork, h2, h3, h4, hpos, hmax, hlin, hrin⟩ => ⟨_, by
      refine (Entry.popped_operands ho _).trans ?_
      simp only [List.map_cons, List.map_nil, List.getD_cons_zero, List.getD_cons_succ, hcore, Bool.false_eq_true, if_false,
        transferFault_eq_none h2 h3 h4 hpos hmax hlin hrin]
      exact sendFrom_of_forked (n := { n with pstack := r }) hfork _ _ _ _ _ _, fun get v _ _ => ⟨_, rfl, rfl⟩⟩
  · exact engReads_of r (fun _ => rfl) fun n s ⟨ho, hfork, hgroup, h2, h3, hpos, hmax, hin⟩ => ⟨_, by
      refine (Entry.popped_operands ho _).trans ?_
      simp only [List.map_cons, List.map_nil, List.getD_cons_zero, List.getD_cons_succ, hgroup.not_gt, if_false,
        transferFault_eq_none h2 h2 h3 hpos hmax hin hin]
      exact sendFrom_of_forked (n := { n with pstack := r }) hfork _ _ _ _ _ _, fun get v _ _ => ⟨_, rfl, rfl⟩⟩
  · exact engGives_of (fun _ => rfl) fun n s ⟨ho, hcore, hhere, hown, hsent, hfork, hinc⟩ => .inl ⟨_, _, by
      refine (Entry.popped_operands ho _).trans ?_
      have hfork' : s.cur.forked { n with pstack := r } = true := hfork
      simp only [List.map_cons, List.map_nil, List.headD_cons, hcore, hhere, hown, any_left_eq_false hsent, hfork', State.engSignal, hinc,
        decide_true, Bool.true_and, Bool.not_true, Bool.or_self, Bool.false_eq_true, if_false, if_true], rfl⟩
  · exact engGives_of (fun _ => rfl) fun n s ⟨ho, hcore, hthere, hsent, hfork⟩ => .inl ⟨_, _, by
      refine (Entry.popped_operands ho _).trans ?_
      have hfork' : s.cur.forked { n with pstack := r } = true := hfork
      have hne : ¬ o1.toNat / 2 ^ 30 % 2 = 1 := by omega
      simp only [List.map_cons, List.map_nil, List.headD_cons, hcore, hne, any_left_eq_false hsent, hfork',
        decide_false, Bool.false_and, Bool.not_true, Bool.or_self, Bool.false_eq_true, if_false], rfl⟩
  · exact engGives_of (fun _ => rfl) fun n s ⟨ho, hstep, hsched, htime⟩ => .inl ⟨_, _, by
      refine (Entry.popped_operands ho _).trans ?_
      simp only [List.map_cons, List.map_nil, List.headD_cons, hstep, hsched, htime.not_gt, if_false]
      rfl, rfl⟩
end

section
/-!
PROOF. What engines, banks and control registers do by themselves.
-/
open Sys2Proof Sys2Proof.Machine

namespace Sys2Proof.Machine

/-- A step completes as the state that its semantics answers. -/
theorem done_of {i : Instr} {f : State → State} {cond : State → Prop} {post : State → State} (he : ∀ s, exec i s = .next (f s))
    (h : ∀ s, cond s → f s = post s) : Done i cond post :=
  fun s hc => (he s).trans (congrArg Host.Outcome.next (h s hc))

/-- Sectors that no memory bank can give now are not read. -/
theorem Core.readForCmdAll_of_busy {c : Core} (k : AnvilCmd) {l : List (Nat × Nat)}
    (h : ∀ x, x ∈ l → c.mayTake (Eng.readGrant .anvil x.1) = false) : c.readForCmdAll k l = c := by
  induction l with
  | nil => rfl
  | cons x l ih =>
    rw [Core.readForCmdAll, List.foldl_cons, if_neg (ne_true_of_eq_false (h x List.mem_cons_self))]
    exact ih fun y hy => h y (List.mem_cons_of_mem _ hy)

/-- A change that leaves the core as it is goes unseen once the core changes again. -/
theorem State.modCur_after_fixed {s : State} {g : Core → Core} (h : g s.cur = s.cur) (f : Core → Core) :
    (s.modCur g).modCur f = s.modCur f := by
  change (s.setCore s.focus.core (g s.cur)).setCore s.focus.core (f (s.modCur g).cur) = _
  rw [State.setCore_setCore, State.cur_modCur, h]
  rfl

/-- An event of which `execSignalAck` knows nothing is ignored; one that is out is counted (R170). -/
theorem execSignalAck_of_out {s : State} {k : BitVec 8} {x : Word} (h : s.cur.sigs.contains { bank := s.focus.bank, k := k, operand := x } = true)
    (err : Option (BitVec 8)) :
    execSignalAck err k x s = .next (
      let u := s.modCur (fun c => { c with
        sigs := c.sigs.erase { bank := s.focus.bank, k := k, operand := x }
        accs := c.accs.map (fun a => if a.bank == s.focus.bank && a.eng.isNone && a.rel then { a with tried := true } else a) })
      match err with
      | none => u
      | some e => u.holdTrap s.focus.core s.focus.bank { faultAt e x with src := 5, detail := k.setWidth 16 }) := by
  rw [execSignalAck, h]
  rfl

theorem any_queues_eq_false {p : QCode → Bool} (h : ∀ q, q ∈ [QCode.anvil, .copy0, .copy1, .coll] → p q = false) :
    [QCode.anvil, .copy0, .copy1, .coll].any p = false :=
  List.any_eq_false.mpr fun q hq => ne_true_of_eq_false (h q hq)

/-- The bits of a queue's layout do not depend on bit 63 (R71). -/
theorem Queue.ofWord_congr {v w : Word} (h : ∀ i, i < 63 → v.getLsbD i = w.getLsbD i) (en : Bool) : Queue.ofWord v en = Queue.ofWord w en := by
  have hx (start len : Nat) (hin : start + len ≤ 63) : v.extractLsb' start len = w.extractLsb' start len := by
    ext i hi
    rw [BitVec.getElem_extractLsb', BitVec.getElem_extractLsb', h _ (by omega)]
  rw [Queue.ofWord, Queue.ofWord, hx 40 2 (by decide), hx 30 10 (by decide), hx 0 22 (by decide)]

theorem getLsbD_off (v : Word) (i : Nat) : (v &&& 0x7FFFFFFFFFFFFFFF).getLsbD i = (v.getLsbD i && decide (i < 63)) := by
  have hmask : (0x7FFFFFFFFFFFFFFF : Word) = (BitVec.allOnes 63).setWidth 64 := by decide
  rw [hmask, BitVec.getLsbD_and, BitVec.getLsbD_setWidth, BitVec.getLsbD_allOnes]
  by_cases hi : i < 63
  · rw [decide_eq_true hi, decide_eq_true (by omega : i < 64), Bool.and_self]
  · rw [decide_eq_false hi, Bool.and_false]

theorem getLsbD_on (v : Word) (i : Nat) : (v ||| 0x8000000000000000).getLsbD i = (v.getLsbD i || decide (i = 63)) := by
  have hmask : (0x8000000000000000 : Word) = BitVec.twoPow 64 63 := by decide
  rw [hmask, BitVec.getLsbD_or, BitVec.getLsbD_twoPow]
  by_cases hi : i = 63
  · rw [hi]
    rfl
  · rw [decide_eq_false (fun h : 63 = i => hi h.symm), decide_eq_false hi, Bool.and_false]

/-- A write to a disabled queue that takes a valid layout (R71). -/
theorem qcwWrite_of_disabled {q : QCode} {v : Word} {s : State} (hen : (s.bank.queue q).en = false) (hcl : (s.bank.queue q).closing = false)
    (hl : Queue.layoutFault v = none) :
    s.take (qcwWrite q v s) = s.modBank (fun b => b.setQueue q (.ofWord v (v.getLsbD 63))) := by
  simp only [qcwWrite, hen, hcl, hl, Bool.not_false, Bool.false_eq_true, if_false, if_true, State.take]
  rfl

end Sys2Proof.Machine

/-- Settles O34: an entry starts from the first queue that calls; a late command by `Core.readForCmdAll_of_busy`. -/
theorem engineEventsComplete : Obligations.EngineEventsComplete := by
  unfold Obligations.EngineEventsComplete
  intro pos bank qc n id k
  refine ⟨?_, ?_, ?_, ?_, ?_⟩
  · exact done_of (fun _ => rfl) fun s ⟨hstart, hres, hsched, hnext, hfault⟩ => by
      simp only at hfault
      simp only [hstart, hres, hsched, hnext, hfault, Bool.not_true, Bool.false_eq_true, if_false]
      cases (EntryHdr.of (s.cur.headHdr ((s.cur.bank bank).queue qc))).wv <;> rfl
  · exact done_of (fun _ => rfl) fun s ⟨hcur, hdone, heng, hfork⟩ => by
      have hover : s.cur.canComplete s.engCode = true := by
        have hcur' : (s.cur.engine s.engCode).cur = some n := hcur
        simp only [Core.canComplete, hcur', hdone, heng, hfork, Bool.and_self]
      simp only [hover, hcur, Bool.not_true, Bool.false_eq_true, if_false]
  · exact done_of (fun _ => rfl) fun s ⟨hk, hw, hf⟩ => by
      simp only [hk, hw, hf, List.isEmpty_nil, Option.getD_some, Bool.not_true, Bool.false_eq_true, if_true, if_false]
      cases k.kind <;> rfl
  · exact done_of (fun _ => rfl) fun s ⟨hk, hw, hbusy⟩ => by
      have hne : k.want.isEmpty = false := Bool.eq_false_iff.mpr fun h => hw (List.isEmpty_iff.mp h)
      simp only [hk, hne, State.cur_modCur, Core.readForCmdAll_of_busy k hbusy, Option.getD_some, Bool.not_false, Bool.false_eq_true,
        if_true, if_false]
      exact congrArg (fun u : State => u.postAt _ _ _ _ _)
        (State.modCur_after_fixed (g := fun c => c.readForCmdAll k k.want) (Core.readForCmdAll_of_busy k hbusy) _)
  · exact done_of (fun _ => rfl) fun s _ => rfl

/-- Settles O35: each report by what it finds; a trap that is due is taken as the bank stands. -/
theorem bankReportsAndStreamEventsComplete : Obligations.BankReportsAndStreamEventsComplete := by
  unfold Obligations.BankReportsAndStreamEventsComplete
  refine ⟨fun t r seq a code k err x w e n => ⟨?_, ?_, ?_, ?_, ?_, ?_, ?_, ?_, ?_, ?_⟩, fun o i t a => ⟨?_, ?_, ?_, ?_, ?_⟩⟩
  · exact done_of (fun _ => rfl) fun s ⟨hr, hready, hok⟩ => by
      simp only [hr, hready, hok, Bool.not_true, Bool.false_eq_true, if_false]
      rfl
  · exact done_of (fun _ => rfl) fun s ⟨hr, hready, hfail⟩ => by
      have htag : (r.tag == t) = true := List.find?_some (p := fun r : TagRec => r.tag == t) hr
      rw [beq_iff_eq] at htag
      simp only [hr, hready, hfail, Bool.not_true, Bool.false_eq_true, if_false, if_true, Core.fillStores, htag]
  · exact done_of (fun _ => rfl) fun s ha => by
      simp only [ha] <;> rfl
  · exact done_of (fun _ => rfl) fun s ha => by
      simp only [ha]
  · exact done_of (fun _ => rfl) fun s he => by
      simp only [he, Option.bind_none, State.dropHere]
  · exact done_of (fun _ => rfl) fun s ⟨he, hn⟩ => by
      simp only [he, hn, Option.bind_some, Option.map_some]
  · exact fun s ho => (execSignalAck_of_out ho none)
  · rintro s ⟨rfl, ho⟩
    exact execSignalAck_of_out ho (some code)
  · exact done_of (fun _ => rfl) fun s hw => by
      simp only at hw
      simp only [hw, if_true]
  · exact done_of (fun _ => rfl) fun s ⟨hw, hh, ht⟩ => by
      simp only at hw
      simp only [hw, hh, ht, State.report, Bool.false_eq_true, if_false]
  · exact done_of (fun _ => rfl) fun s ⟨hst, hwo⟩ => by
      simp only [hst, hwo, beq_self_eq_true, Bool.and_self, if_true]
  · exact done_of (fun _ => rfl) fun s ⟨hrun, hact, hor⟩ => by
      have hor' : (s.bank.switchClaim || (s.cur.bank !s.focus.bank).away) = true := Bool.or_eq_true_iff.mpr hor
      simp only [hrun, hor', bne_iff_ne.mpr hact, Bool.and_self, if_true]
  · exact done_of (fun _ => rfl) fun s ⟨hst, hw, hn, hstop, hq⟩ => by
      simp only at hq
      simp only [hst, hw, hn, hstop, any_queues_eq_false hq, bne_self_eq_false, Option.isSome_none, Bool.or_self, Bool.false_eq_true, if_false]
  · exact done_of (fun _ => rfl) fun s ⟨ht, hact⟩ => by
      simp only [State.deliverImprecise, ht, hact, State.bank_modBank, Bool.false_eq_true, if_false]
      rfl
  · exact done_of (fun _ => rfl) fun s ha => by
      have ha' : s.bank.arithDue = some a := ha
      simp only [State.deliverArithmetic, ha', State.bank_modBank]
      rfl

/-- Settles O36: the forced enable bit is bit 63, which no field of the layout holds (`Queue.ofWord_congr`). -/
theorem controlRegisterWritesComplete : Obligations.ControlRegisterWritesComplete := by
  unfold Obligations.ControlRegisterWritesComplete
  intro q v
  refine ⟨?_, ?_, ?_, ?_⟩
  · exact done_of (fun _ => rfl) fun s ⟨⟨hen, hcl⟩, hl⟩ => by
      rw [hen, if_neg Bool.false_ne_true, qcwWrite_of_disabled hen hcl hl, getLsbD_off, Queue.ofWord_congr (w := v) fun i hi => by
        rw [getLsbD_off, decide_eq_true hi, Bool.and_true]]
      rw [show decide (63 < 63) = false from rfl, Bool.and_false]
  · exact done_of (fun _ => rfl) fun s ⟨⟨hen, hcl⟩, hl⟩ => by
      rw [hen, if_neg Bool.false_ne_true, qcwWrite_of_disabled hen hcl hl, getLsbD_on, Queue.ofWord_congr (w := v) fun i hi => by
        rw [getLsbD_on, decide_eq_false hi.ne, Bool.or_false]]
      rw [show decide (63 = 63) = true from rfl, Bool.or_true]
  · exact done_of (fun _ => rfl) fun s ⟨hen, hcl⟩ => by
      have hoff : (v &&& 0x7FFFFFFFFFFFFFFF).getLsbD 63 = false := by simp
      simp only [qcwWrite, hen, hcl, hoff, Bool.not_true, Bool.false_eq_true, if_false, if_true, State.take, Queue.disable]
      cases (s.bank.queue q).hd <;> rfl
  · exact done_of (fun _ => rfl) fun s ⟨hjob, h0, h1⟩ => by
      simp only [ksplitWriteOp, hjob, h0, h1, Option.isSome_none, Bool.and_self, Bool.not_true, Bool.false_eq_true, if_false, State.take]
end

section
/-!
PROOF. Messages, coherence, homes and leases.
-/
open Sys2Proof Sys2Proof.Machine

namespace Sys2Proof.Machine

/-- A packet for this module whose job a bank holds is applied to that bank (R356). -/
theorem State.applyPacket_of_held {s : State} {p : Packet} {b : Bool} (hd : p.dmod = Config.moduleNumber)
    (hb : s.bankOfTag p.dcore.toNat p.jobtag = some b) (f : Nat → Bool → State → State) :
    s.applyPacket p f = (f p.dcore.toNat b s).delivered p false := by
  simp only [State.applyPacket, hd, hb, bne_self_eq_false, Bool.false_eq_true, if_false]

/-- Every participant is in the step: the step's end looks at what they have done. -/
theorem not_empty_of_through {l : List (Nat × Bool)} {f : Nat × Bool → Bool} (hne : l ≠ []) (hall : ∀ q, q ∈ l → f q = true) :
    (l.isEmpty || !l.all f) = false := by
  rw [List.all_eq_true.mpr hall, List.isEmpty_eq_false_iff.mpr hne]
  rfl

/-- A request is served at the home that it has reached (R303). -/
theorem State.request_of_home {r : CohReq} (h : r.home = true ∨ dieOf r.core = Line.homeDie r.line) (s : State) (k : ReqKind) :
    s.request k r = s.requestHome k { r with home := true } :=
  if_pos (by rwa [Bool.or_eq_true, decide_eq_true_eq])

/-- A request at a slice that is no home is served there (R303). -/
theorem State.request_of_away {r : CohReq} (h : r.home = false ∧ dieOf r.core ≠ Line.homeDie r.line) (s : State) (k : ReqKind) :
    s.request k r = s.requestProxy k r :=
  if_neg (by rw [h.1, Bool.false_or, decide_eq_true_eq]; exact h.2)

/-- Data for a slice that is no home waits where the slice has no room for it. -/
theorem coherenceWaits_eq {s : State} {l : Line} {core : Nat} {w : Bool} (haway : dieOf core ≠ Line.homeDie l)
    (h : s.fillWaits (dieOf core) l (s.lineKind core l).2.2 = w) :
    (decide (dieOf core ≠ Line.homeDie l) && s.fillWaits (dieOf core) l (s.lineKind core l).2.2) = w := by
  rw [decide_eq_true haway, h, Bool.true_and]

theorem State.homeSlice_atLeast_all (l : Line) (core lat : Nat) (accs : List Access) (s : State) :
    (accs.foldl (fun s a => s.atLeast core a lat) s).homeSlice l = s.homeSlice l :=
  foldl_keeps (fun s : State => s.homeSlice l) (fun s a => by
    rw [State.atLeast]
    cases a.op.tag <;> rfl) accs s

theorem State.cycle_atLeast_all (core lat : Nat) (accs : List Access) (s : State) :
    (accs.foldl (fun s a => s.atLeast core a lat) s).cycle = s.cycle :=
  foldl_keeps State.cycle (fun s a => by
    rw [State.atLeast]
    cases a.op.tag <;> rfl) accs s

theorem State.cycle_extend (s : State) (l : Line) (p : BitVec 16) : (s.extend l p).cycle = s.cycle := rfl

/-- Where the home holds a line already, it takes no time and no line leaves. -/
theorem State.ensureHome_cycle_of_line {s : State} {l : Line} (h : ((s.homeSlice l).line l).isSome = true) (view lease : Bool) (cls : BitVec 2) :
    (s.ensureHome l view lease cls).cycle = s.cycle := by
  obtain ⟨y, hy⟩ := Option.isSome_iff_exists.mp h
  simp only [State.ensureHome, hy]
  split <;> rfl

end Sys2Proof.Machine

/-- Settles O37: a packet by `State.applyPacket_of_held`, the end of a step by what its participants have done. -/
theorem messagesComplete : Obligations.MessagesComplete := by
  unfold Obligations.MessagesComplete
  intro src sb tag k x pts b c p job die stage inst core link seq
  refine ⟨?_, ?_, ?_, ?_, ?_, ?_, ?_, ?_, ?_, ?_, ?_, ?_, ?_, ?_, ?_⟩
  · exact done_of (fun _ => rfl) fun s ⟨hb, ho, hi⟩ => by
      simp only [hb, ho, hi, Bool.not_true, Bool.false_eq_true, if_false]
  · exact done_of (fun _ => rfl) fun s ⟨hb, ho⟩ => by
      simp only [hb, ho, Bool.not_false, if_true]
  · exact done_of (fun _ => rfl) fun s _ => rfl
  · exact done_of (fun _ => rfl) fun s ⟨⟨hne, hall⟩, hdone⟩ => by
      simp only at hne hall hdone
      rw [if_neg (ne_true_of_eq_false (not_empty_of_through hne hall)), if_pos]
      simpa only [Bool.not_and, Bool.not_or, Bool.not_not, Bool.not_false] using congrArg Bool.not hdone
  · exact done_of (fun _ => rfl) fun s ⟨⟨hne, hall⟩, hdone⟩ => by
      simp only at hne hall hdone
      rw [if_neg (ne_true_of_eq_false (not_empty_of_through hne hall)), if_neg]
      rw [Bool.not_eq_true]
      simpa only [Bool.not_and, Bool.not_or, Bool.not_not, Bool.not_true] using congrArg Bool.not hdone
  · exact done_of (fun _ => rfl) fun s ⟨hd, hb⟩ => State.applyPacket_of_held hd hb _
  · exact done_of (fun _ => rfl) fun s ⟨hd, hb⟩ => State.applyPacket_of_held hd hb _
  · exact done_of (fun _ => rfl) fun s ⟨⟨hd, hb⟩, hin⟩ => by
      rw [State.applyPacket_of_held hd hb, if_pos hin]
  · exact done_of (fun _ => rfl) fun s ⟨⟨hd, hb⟩, hin⟩ => by
      rw [State.applyPacket_of_held hd hb, if_neg (ne_true_of_eq_false hin)]
  · exact done_of (fun _ => rfl) fun s ⟨⟨hd, hb⟩, ho, hi⟩ => by
      simp only [hd, hb, ho, hi, bne_self_eq_false, Bool.not_true, Bool.false_eq_true, if_false]
  · exact done_of (fun _ => rfl) fun s _ => rfl
  · exact done_of (fun _ => rfl) fun s _ => rfl
  · exact done_of (fun _ => rfl) fun s _ => rfl
  · exact done_of (fun _ => rfl) fun s _ => rfl
  · exact done_of (fun _ => rfl) fun s _ => rfl

/-- Settles O38: a request by where it stands; an acknowledgement by what is left; data by whether the die is the home. -/
theorem coherenceStepsComplete : Obligations.CoherenceStepsComplete := by
  unfold Obligations.CoherenceStepsComplete
  intro r l die core d back t st y
  have hrequest (i : Instr) (k : ReqKind) (he : ∀ s, exec i s = .next (s.request k r)) := And.intro
    (done_of he fun s (h : r.home = true ∨ dieOf r.core = Line.homeDie r.line) => State.request_of_home h s k)
    (done_of he fun s (h : r.home = false ∧ dieOf r.core ≠ Line.homeDie r.line) => State.request_of_away h s k)
  refine ⟨hrequest _ _ fun _ => rfl, hrequest _ _ fun _ => rfl, hrequest _ _ fun _ => rfl, ?_, ?_, ?_, ?_, ?_, ?_, ?_, ?_, ?_, ?_, ?_, ?_, ?_, ?_, ?_, ?_⟩
  · exact done_of (fun _ => rfl) fun s _ => rfl
  · exact done_of (fun _ => rfl) fun s _ => rfl
  · exact done_of (fun _ => rfl) fun s _ => rfl
  · exact done_of (fun _ => rfl) fun s _ => rfl
  · exact done_of (fun _ => rfl) fun s ht => by
      simp only [ht, if_true]
  · exact done_of (fun _ => rfl) fun s ht => by
      simp only [ht, Bool.false_eq_true, if_false]
  · exact done_of (fun _ => rfl) fun s _ => rfl
  · exact done_of (fun _ => rfl) fun s _ => rfl
  · exact done_of (fun _ => rfl) fun s ⟨ht, hl⟩ => by
      cases back <;> simp only at ht <;> simp only [ht, List.isEmpty_eq_false_iff.mpr hl, Bool.not_false, if_true]
  · exact done_of (fun _ => rfl) fun s ⟨ht, hl, he⟩ => by
      cases back <;> simp only at ht <;>
        simp only [ht, hl, List.isEmpty_nil, List.isEmpty_eq_false_iff.mpr he, Bool.not_true, Bool.not_false, Bool.false_eq_true, if_true, if_false]
  · exact done_of (fun _ => rfl) fun s ⟨ht, hl, he⟩ => by
      cases back <;> simp only at ht <;>
        simp only [ht, hl, he, List.isEmpty_nil, Bool.not_true, Bool.false_eq_true, if_false]
  · rintro s ⟨haway, hw⟩
    exact if_pos (coherenceWaits_eq haway hw)
  · rintro s ⟨haway, hw⟩
    refine (if_neg (ne_true_of_eq_false (coherenceWaits_eq haway hw))).trans ?_
    simp only [if_neg haway, Option.getD_some]
    cases (s.sliceOf (dieOf core) l).line l <;> rfl
  · intro s hhome
    refine (if_neg (by rw [decide_eq_false (not_not.mpr hhome), Bool.false_and]; decide)).trans ?_
    simp only [if_pos hhome]
  · rintro s ⟨haway, hw, hy⟩
    refine (if_neg (ne_true_of_eq_false (coherenceWaits_eq haway hw))).trans ?_
    simp only [if_neg haway, hy]
  · exact fun s _ => rfl

/-- Settles O39: atomics by what they wait for; a renewal at the home by `State.ensureHome_cycle_of_line`. -/
theorem homesAndLeasesComplete : Obligations.HomesAndLeasesComplete := by
  unfold Obligations.HomesAndLeasesComplete
  intro core seq a l y v m mask t q
  refine ⟨?_, ?_, ?_, ?_, ?_, ?_, ?_, ?_, ?_, ?_⟩
  · exact done_of (fun _ => rfl) fun s ⟨ha, ht⟩ => by
      simp only at ha
      simp only [ha, ht, beq_self_eq_true, if_true]
  · exact done_of (fun _ => rfl) fun s ⟨ha, ht, hw⟩ => by
      simp only at ha
      simp only [ha]
      exact (if_neg (by rwa [beq_iff_eq])).trans (if_pos hw)
  · exact done_of (fun _ => rfl) fun s ⟨ha, ht, hw⟩ => by
      simp only at ha
      simp only [ha]
      exact (if_neg (by rwa [beq_iff_eq])).trans (if_neg (ne_true_of_eq_false hw))
  · rintro s ⟨⟨h1, h2⟩, haway, hy, hfresh⟩
    change execLeaseRenew l core s = _
    rw [execLeaseRenew]
    simp only [h1, h2, haway, hy, hfresh, Bool.or_self, Bool.false_eq_true, if_false, if_true]
  · rintro s ⟨⟨h1, -⟩, hhome, hy⟩
    change execLeaseRenew l core s = _
    rw [execLeaseRenew]
    simp only [h1, hhome, hy, Option.isSome_some, State.cycle_extend, State.ensureHome_cycle_of_line, State.homeSlice_atLeast_all, State.cycle_atLeast_all,
      Bool.or_self, Bool.false_eq_true, if_false, if_true]
    simp only [State.extend] <;> rfl
  · exact done_of (fun _ => rfl) fun s ⟨ha, hop, hw⟩ => by
      simp only at ha
      simp only [ha, hop, hw, Bool.false_eq_true, if_false]
  · exact done_of (fun _ => rfl) fun s _ => rfl
  · exact done_of (fun _ => rfl) fun s hq => by
      have hcond : (decide (quarterOf (s.blank.pts + 1) = quarterOf (s.blank.pts + 1 - 1)) || decide (s.quarter = quarterOf (s.blank.pts + 1))) = true := by
        rw [Bool.or_eq_true, decide_eq_true_eq, decide_eq_true_eq, BitVec.add_sub_cancel]
        exact hq
      exact if_pos hcond
  · exact done_of (fun _ => rfl) fun s _ => rfl
  · exact done_of (fun _ => rfl) fun s _ => rfl
end

section
/-!
PROOF. The deaths of names, seals, and the Bellows.
-/
open Sys2Proof Sys2Proof.Machine

namespace Sys2Proof.Machine

/-- The name leaves the caches of a die of this module (R248). -/
theorem execNameInvalidate_of_here {n : Name} {die : Nat} {s : State} (h : s.awayHome n = none) :
    execNameInvalidate n die s = .next (
      let u := { s.modDie die (fun d => { d with names := d.names.filter (fun x => x != n) }) with
        cores := s.cores.map (fun (p : Nat × Core) =>
          if p.1 / 64 = die then (p.1, { p.2 with names := p.2.names.filter (fun x => x != n) }) else p) }
      if u.cores.any (fun p => p.1 / 64 == die && p.2.accs.any (fun a => a.name == n && a.state != .performed)) then
        u.postAt (s.cycle + 1) (die * 64) false none (.nameInvalidate n die)
      else u.post (75 + s.homeTrip n + 48 * dieDist (Config.nameHomeDie n.toNat % 32) die) none (die * 64) false none (.nameInvalidateAck n die)) := by
  rw [execNameInvalidate, h]
  simp only [beq_iff_eq]
  rfl

theorem homeTrip_of_here {n : Name} {s : State} (h : s.awayHome n = none) : s.homeTrip n = 0 := by
  simp only [State.homeTrip, h]

theorem beq_or_beq_eq_false {j : Job} (h1 : j.state ≠ .retired) (h2 : j.state ≠ .failed) :
    (j.state == .retired || j.state == .failed) = false := by
  rw [beq_eq_false_iff_ne.mpr h1, beq_eq_false_iff_ne.mpr h2]
  rfl

/-- No predecessor of a candidate has failed. -/
theorem find?_failed_eq_none {s : State} {j : Job} (h : s.candidate j = true) :
    j.predNames.find? (fun n => s.predState n == some false) = none := by
  rw [State.candidate, Bool.and_eq_true, List.all_eq_true] at h
  rw [List.find?_eq_none]
  intro n hn
  rw [beq_iff_eq.mp (h.2 n hn)]
  decide

end Sys2Proof.Machine

/-- Settles O40: an invalidation by `execNameInvalidate_of_here`; a partial by whether another contributor is left. -/
theorem nameAndSealStepsComplete : Obligations.NameAndSealStepsComplete := by
  unfold Obligations.NameAndSealStepsComplete
  intro n die id c core bank d w p u
  refine ⟨?_, ?_, ?_, ?_, ?_, ?_, ?_, ?_⟩
  · exact fun s ⟨h, hu⟩ => (execNameInvalidate_of_here h).trans (congrArg _ (if_pos hu))
  · exact fun s ⟨h, hu⟩ => (execNameInvalidate_of_here h).trans (congrArg _ ((if_neg (ne_true_of_eq_false hu)).trans (by rw [homeTrip_of_here h])))
  · exact done_of (fun _ => rfl) fun s h => by
      simp only at h
      simp only [h]
  · exact done_of (fun _ => rfl) fun s ⟨⟨hd, he, hj⟩, hw⟩ => by
      simp only [hw] at hd hj
      simp only [hd, he.not_gt, hj, hw, Bool.false_eq_true, if_false]
  · exact done_of (fun _ => rfl) fun s ⟨⟨hd, he, hj⟩, hw⟩ => by
      simp only [hw] at hd hj
      simp only [hd, he.not_gt, hj, hw, Bool.false_eq_true, if_false]
  · exact done_of (fun _ => rfl) fun s hw => by
      simp only [hw]
      cases w.2.2.2 <;> rfl
  · exact done_of (fun _ => rfl) fun s ⟨⟨hp, hs, hc⟩, x, hx, hne⟩ => by
      have hany : p.awaits.any (fun x => x != c) = true := List.any_eq_true.mpr ⟨x, hx, bne_iff_ne.mpr hne⟩
      simp only [hp, hs, List.contains_iff_mem.mpr hc, hany, Bool.not_true, Bool.false_eq_true, if_false, if_true]
  · exact done_of (fun _ => rfl) fun s ⟨⟨hp, hs, hc⟩, hall, hbusy, hwait, hseal⟩ => by
      simp only at hbusy hwait hseal
      have hany : p.awaits.any (fun x => x != c) = false :=
        List.any_eq_false.mpr fun x hx => by rw [hall x hx, bne_self_eq_false]; decide
      simp only [hp, hs, List.contains_iff_mem.mpr hc, hany, hbusy, hwait, hseal, Bool.not_true, Bool.or_self, Bool.false_eq_true, if_false]

/-- Settles O41: no predecessor of a candidate has failed; the other steps by their conditions. -/
theorem jobStepsComplete : Obligations.JobStepsComplete := by
  unfold Obligations.JobStepsComplete
  intro id j bank places ids u
  refine ⟨?_, ?_, ?_, ?_, ?_, ?_, ?_⟩
  · exact done_of (fun _ => rfl) fun s ⟨hj, hst, hc, hsel, hid, hsaved, hbusy⟩ => by
      simp only [hj, hst, find?_failed_eq_none hc, hc, hsel, hid, hsaved, hbusy, bne_self_eq_false, Bool.not_true, Bool.false_eq_true, if_false]
  · exact done_of (fun _ => rfl) fun s ⟨hj, hst, hover, hdr, hjour, hwait⟩ => by
      have hdrained : j.cores.any (fun p => !(s.core p.1).drained p.2) = false :=
        List.any_eq_false.mpr fun p hp => by rw [hdr p hp]; decide
      have hjournal : (s.journaling && !s.journal.contains j.name) = false := by
        rw [Bool.and_eq_false_imp]
        exact fun h => congrArg not (List.contains_iff_mem.mpr (hjour h))
      simp only [hj, hst, hover, hdrained, hjournal, hwait, bne_self_eq_false, Bool.not_true, Bool.or_self, Bool.false_eq_true, if_false]
  · exact done_of (fun _ => rfl) fun s ⟨hj, h1, h2, hw⟩ => by
      simp only at hw
      simp only [hj, beq_or_beq_eq_false h1 h2, hw, Bool.false_eq_true, if_false, if_true]
  · exact done_of (fun _ => rfl) fun s ⟨hj, h1, h2, hw⟩ => by
      simp only at hw
      simp only [hj, beq_or_beq_eq_false h1 h2, hw, Bool.false_eq_true, if_false]
  · exact done_of (fun _ => rfl) fun s ⟨hj, h1, h2⟩ => by
      simp only [hj, beq_or_beq_eq_false h1 h2, Bool.false_eq_true, if_false]
  · exact done_of (fun _ => rfl) fun s ⟨hj, hc, hlev, hev, hen⟩ => by
      have hnone : s.jobs.any (fun v => v.evictFor == some id) = false :=
        List.any_eq_false.mpr fun v hv => by rw [beq_eq_false_iff_ne.mpr (hev v hv)]; decide
      simp only [hj, hc, hlev.not_gt, hnone, hen, decide_false, Bool.not_true, Bool.or_self, Bool.false_eq_true, if_false]
  · exact done_of (fun _ => rfl) fun s ⟨hj, hev, hst⟩ => by
      have hsome : j.evictFor.isNone = false := Bool.eq_false_iff.mpr fun h => hev (Option.isNone_iff_eq_none.mp h)
      simp only [hj, hsome, hst, bne_self_eq_false, Bool.or_self, Bool.false_eq_true, if_false]
end

section
/-!
PROOF. Quench, checkpoint, host and management events.
-/
open Sys2Proof Sys2Proof.Machine

namespace Sys2Proof.Machine

/-- A write behind the job registers of the configuration space goes to the home map, the buddies or a slice's control word (R378). -/
theorem execConfigWrite_of_high {off : Nat} (h : 0x300000 ≤ off) (v : Word) (s : State) :
    execConfigWrite off v s =
      if 0x300000 ≤ off && off < 0x304000 && off % 8 = 0 then
        let i := (off - 0x300000) / 4
        .next ((s.mapHome i (v.setWidth 32)).mapHome (i + 1) (v.extractLsb' 32 32))
      else if 0x304000 ≤ off && off < 0x304010 && off % 8 = 0 then
        let i := (off - 0x304000) / 2
        .next { s with buddies := Vector.ofFn (fun (k : Fin 8) =>
          if i ≤ k.val && k.val < i + 4 then v.extractLsb' (16 * (k.val - i)) 12 else s.buddies[k]) }
      else if 0x310000 ≤ off && off < 0x310000 + 8 * 2048 && off % 8 = 0 then .next (s.writeScw ((off - 0x310000) / 8) v)
      else .next s := by
  have hlow : ¬ (decide (0x3000 ≤ off) && decide (off < 0x13000) && decide (off % 8 = 0)) = true := by
    rw [decide_eq_false (by omega : ¬ off < 0x13000), Bool.and_false, Bool.false_and]
    decide
  rw [execConfigWrite, if_neg (by omega), if_neg (by omega), if_neg (by omega), if_neg (by omega), if_neg hlow, if_neg (by omega),
    if_neg (by omega), if_neg (by omega), if_neg (by omega), if_neg (by omega)]

end Sys2Proof.Machine

/-- Settles O42: an acknowledgement by the ready bit of the flacon and by how many are left. -/
theorem quenchAndCheckpointEventsComplete : Obligations.QuenchAndCheckpointEventsComplete := by
  unfold Obligations.QuenchAndCheckpointEventsComplete
  intro job n now j tag link chan m key bytes c
  refine ⟨?_, ?_, ?_, ?_, ?_, ?_, ?_, ?_, ?_⟩
  · exact done_of (fun _ => rfl) fun s hj => by
      simp only [hj]
  · exact fun s _ => rfl
  · exact fun s _ => rfl
  · exact fun s _ => rfl
  · exact done_of (fun _ => rfl) fun s ⟨hc, hdown⟩ => by
      simp only [Classical.not_imp, Bool.not_eq_true] at hdown
      simp only [hc, hdown.1, hdown.2, decide_true, Bool.not_false, Bool.and_self, if_true]
  · exact done_of (fun _ => rfl) fun s ⟨hc, hup, hmore⟩ => by
      have hgo : (decide (key % 16 = 0) && !s.ready[0].getLsbD 36) = false := by
        rw [Bool.and_eq_false_imp, decide_eq_true_eq]
        exact fun h => congrArg not (hup h)
      simp only [hc]
      exact (if_neg (ne_true_of_eq_false hgo)).trans (if_neg hmore)
  · exact done_of (fun _ => rfl) fun s ⟨hc, hup, hlast⟩ => by
      have hgo : (decide (key % 16 = 0) && !s.ready[0].getLsbD 36) = false := by
        rw [Bool.and_eq_false_imp, decide_eq_true_eq]
        exact fun h => congrArg not (hup h)
      simp only [hc]
      exact (if_neg (ne_true_of_eq_false hgo)).trans (if_pos hlast)
  · exact done_of (fun _ => rfl) fun s ⟨hc, hj⟩ => by
      simp only [hc, hj]
  · exact fun s _ => rfl

/-- Settles O43: each event by the request, the access or the record that it finds. -/
theorem hostPageAndErrorEventsComplete : Obligations.HostPageAndErrorEventsComplete := by
  unfold Obligations.HostPageAndErrorEventsComplete
  intro seq page addr pasid p a x inv id f core no bank j
  refine ⟨?_, ?_, ?_, ?_, ?_, ?_, ?_, ?_, ?_, ?_, ?_, ?_, ?_, ?_⟩
  · exact done_of (fun _ => rfl) fun s ⟨ha, hp⟩ => by
      simp only [ha, hp] <;> cases a.eng <;> rfl
  · exact done_of (fun _ => rfl) fun s h => if_pos h
  · exact fun s _ => rfl
  · exact fun s _ => rfl
  · exact done_of (fun _ => rfl) fun s ⟨hw, hf⟩ => by
      simp only at hw hf
      simp only [hw, hf, if_true]
  · exact done_of (fun _ => rfl) fun s ⟨hw, hf, hl⟩ => by
      simp only at hw hf hl
      simp only [hw, hf, List.isEmpty_eq_false_iff.mpr hl, Bool.false_eq_true, if_false]
  · exact done_of (fun _ => rfl) fun s ⟨hw, hf, hl⟩ => by
      simp only at hw hf hl
      simp only [hw, hf, hl, List.isEmpty_nil, Bool.false_eq_true, if_false, if_true]
  · exact done_of (fun _ => rfl) fun s ⟨hf, hid⟩ => by
      simp only [hf, hid, bne_self_eq_false, Bool.false_eq_true, if_false]
  · exact done_of (fun _ => rfl) fun s ⟨hf, hid⟩ => by
      simp only [hf, bne_iff_ne.mpr hid, if_true]
  · exact done_of (fun _ => rfl) fun s hj => by
      simp only [hj]
  · exact done_of (fun _ => rfl) fun s hj => by
      simp only [hj]
  · exact done_of (fun _ => rfl) fun s ⟨hj, hc⟩ => by
      simp only [hj, hc, if_true]
  · exact fun s _ => rfl
  · exact fun s _ => rfl

/-- Settles O44: an access by the segment that maps its byte; a notify by its queue. -/
theorem hostAccessesComplete : Obligations.HostAccessesComplete := by
  unfold Obligations.HostAccessesComplete
  intro v q slot tries d bytes line off len g u
  refine ⟨?_, ?_, ?_, ?_, ?_, ?_, ?_, ?_, ?_, ?_, ?_, ?_, ?_, ?_, ?_, ?_⟩
  · exact done_of (fun _ => rfl) fun s ⟨hen, hd⟩ => by
      simp only [State.notify, hen, hd.not_ge, decide_false, Bool.not_true, Bool.or_self, Bool.false_eq_true, if_false]
  · exact done_of (fun _ => rfl) fun s hoff => by
      refine if_pos ?_
      rw [Bool.or_eq_true, Bool.not_eq_true', decide_eq_true_eq]
      exact hoff
  · exact done_of (fun _ => rfl) fun s ⟨hr, hseq, ht⟩ => by
      simp only at hr hseq
      simp only [hr, bne_iff_ne.mpr hseq, ht, Bool.not_true, Bool.false_eq_true, if_false, if_true]
      rfl
  · exact done_of (fun _ => rfl) fun s ⟨hr, hseq, hinv, hmay, hlq, hls⟩ => by
      simp only at hr hseq hinv hlq hls
      simp only [hr, hseq, hinv, hmay, hlq, hls, bne_self_eq_false, Bool.not_true, Bool.false_eq_true, if_false]
  · exact done_of (fun _ => rfl) fun s _ => by
      cases hon : (field d 6 1).testBit 0 <;> simp only [Bool.false_eq_true, if_false, if_true]
  · exact fun s _ => rfl
  · exact done_of (fun _ => rfl) fun s hf => if_pos hf
  · exact done_of (fun _ => rfl) fun s ⟨⟨hf, hb⟩, hg⟩ => by
      rcases hg with hg | ⟨hg, hp, hl⟩
      · simp only [hf, hb, hg, Bool.false_eq_true, if_false]
      · simp only [hf, hb, hg, hp, hl, Bool.false_eq_true, if_false]
  · exact done_of (fun _ => rfl) fun s ⟨⟨hf, hb⟩, hg, hp, hl⟩ => by
      simp only [hf, hb, hg, hp, hl, Bool.false_eq_true, if_false, if_true]
  · exact done_of (fun _ => rfl) fun s ⟨⟨hf, hb⟩, hg, hp, hl⟩ => by
      simp only [hf, hb, hg, hp, hl, Bool.false_eq_true, if_false, if_true]
      cases (s.homeSlice line).line line <;> rfl
  · exact done_of (fun _ => rfl) fun s ⟨⟨hf, hb⟩, hg, hp, hl⟩ => by
      simp only [hf, hb, hg, hp, hl, Bool.false_eq_true, if_false, if_true]
  · exact done_of (fun _ => rfl) fun s hf => if_pos hf
  · exact done_of (fun _ => rfl) fun s ⟨⟨hf, hb⟩, hg⟩ => by
      rcases hg with hg | ⟨hg, hp, hl⟩
      · simp only [hf, hb, hg, Bool.false_eq_true, if_false]
      · simp only [hf, hb, hg, hp, hl, Bool.false_eq_true, if_false]
  · exact done_of (fun _ => rfl) fun s ⟨⟨hf, hb⟩, hg, hp⟩ => by
      simp only [hf, hb, hg, hp, Bool.false_eq_true, if_false, if_true]
  · exact done_of (fun _ => rfl) fun s ⟨⟨hf, hb⟩, hg, hp, hl⟩ => by
      simp only [hf, hb, hg, hp, hl, Bool.false_eq_true, if_false, if_true]
  · exact done_of (fun _ => rfl) fun s ⟨hb, hl⟩ => by
      simp only [hb, Bool.false_eq_true, if_false]
      cases hg : s.segAt { lo := line.lo, nd := line.nd, q := line.no * 128 } with
      | none => simp only [Bool.false_eq_true, if_false]
      | some g =>
        rw [hg] at hl
        have hl' : g.lease = false := hl
        simp only [hl', Bool.false_eq_true, if_false]

/-- Settles O45: a write by its offset (`execConfigWrite_of_high`), the security block by its checks. -/
theorem managementEventsComplete : Obligations.ManagementEventsComplete := by
  unfold Obligations.ManagementEventsComplete
  intro tag job off v slot p digest addr words sig map bit up steps
  refine ⟨fun s _ => rfl, fun s _ => rfl, fun s _ => rfl, fun s _ => rfl, fun s _ => rfl, fun s _ => rfl, fun s _ => rfl, fun s _ => rfl,
    fun s => rfl, fun s => rfl, ?_, ?_, ?_, ?_, ?_, ?_, ?_, fun s _ => rfl, fun s _ => rfl, ?_, fun s _ => rfl, fun s _ => rfl, fun s _ => rfl⟩
  · rintro s ⟨hlo, hhi, hal⟩
    exact (execConfigWrite_of_high (by omega) v s).trans (by
      rw [if_neg (by simp; omega), if_neg (by simp; omega), if_pos (by simp; omega)])
  · rintro s ⟨hlo, hhi, hal⟩
    exact (execConfigWrite_of_high (by omega) v s).trans (if_pos (by simp; omega))
  · exact done_of (fun _ => rfl) fun s ⟨hb, hp, hk⟩ => by
      have hb' : s.secReady = true := hb
      have hopen : (!s.secReady || s.sec.policy.isSome || !s.sec.keys.isEmpty) = false := by
        rw [hb', hp, hk]
        rfl
      exact if_neg (ne_true_of_eq_false hopen)
  · exact done_of (fun _ => rfl) fun s ⟨hb, ha, hp⟩ => by
      have hb' : s.secReady = true := hb
      simp only [hb', ha, hp, Bool.true_and]
  · exact done_of (fun _ => rfl) fun s ha => by
      cases hp : s.sec.policy <;> simp only [ha, Bool.and_false, Bool.false_and, Bool.false_eq_true, if_false]
  · exact done_of (fun _ => rfl) fun s ⟨hb, hw, hi⟩ => by
      have hb' : s.secReady = true := hb
      cases hv : Config.mlDsaVerify (Config.sha3_512 (s.microWords addr words)) sig with
      | false =>
        simp only [hv, Bool.not_false, Bool.or_true, Bool.true_or, if_true, Bool.false_eq_true, if_false]
      | true =>
        simp only [hb', hw.not_gt, hi, hv, decide_false, Bool.not_true, Bool.or_self, Bool.false_eq_true, if_false, if_true]
        rfl
  · exact done_of (fun _ => rfl) fun s ⟨hne, hcan⟩ => by
      simp only [hcan, beq_eq_false_iff_ne.mpr hne, Bool.not_true, Bool.or_self, Bool.false_eq_true, if_false]
  · exact done_of (fun _ => rfl) fun s hb => if_pos hb
end

section
/-!
PROOF. Logical time, and results that land.
-/
open Sys2Proof Sys2Proof.Machine

namespace Sys2Proof.Machine

/-- Setting a core's logical time changes nothing else of any core (R308). -/
theorem State.core_setPts (s : State) (i j : Nat) (v : BitVec 16) :
    (s.setPts i v).core j = if j = i then { s.core i with pts := v } else s.core j := by
  have hset : ∀ u : State, (u.cores = (s.modCore i (fun c => { c with pts := v })).cores ∧ u.blank = s.blank) →
      u.core j = if j = i then { s.core i with pts := v } else s.core j := by
    rintro u ⟨hc, hb⟩
    have hu : u.core j = (s.modCore i (fun c => { c with pts := v })).core j := by
      rw [State.core, hc, hb]
      rfl
    rw [hu]
    split
    · next h => rw [h, State.modCore, State.core_setCore]
    · next h => exact State.core_modCore_ne s i j _ (Ne.symm h)
  rw [State.setPts]
  split
  · exact hset _ ⟨rfl, rfl⟩
  · exact hset _ ⟨rfl, rfl⟩

theorem State.pts_bumpPts (s : State) (i : Nat) (v : BitVec 16) : ((s.bumpPts i v).core i).pts = ptsMax (s.core i).pts v := by
  rw [State.bumpPts, State.core_setPts, if_pos rfl]

theorem State.core_bumpPts_ne (s : State) {i k : Nat} (h : k ≠ i) (v : BitVec 16) : (s.bumpPts i v).core k = s.core k := by
  rw [State.bumpPts, State.core_setPts, if_neg h]

/-- Comparing logical times modulo 2^16 (R308). -/
theorem ptsLe_iff (x y : BitVec 16) : ptsLe x y = true ↔ (y.toNat + 65536 - x.toNat) % 65536 < 32768 := by
  rw [ptsLe, decide_eq_true_eq, BitVec.toNat_sub]
  have hx := x.isLt
  have hy := y.isLt
  omega

theorem ptsLe_refl (x : BitVec 16) : ptsLe x x = true := by
  rw [ptsLe_iff]
  have hx := x.isLt
  omega

theorem ptsMax_eq (x y : BitVec 16) : ptsMax x y = x ∨ ptsMax x y = y := by
  rw [ptsMax]
  split
  · exact .inr rfl
  · exact .inl rfl

theorem ptsLe_ptsMax (x y : BitVec 16) : ptsLe x (ptsMax x y) = true := by
  rw [ptsMax]
  split
  · assumption
  · exact ptsLe_refl x

/-- Of two times that are not half the range apart one comes before the other. -/
theorem ptsLe_total (x y : BitVec 16) : y - x = 0x8000 ∨ ptsLe x y = true ∨ ptsLe y x = true := by
  have hhalf : (0x8000 : BitVec 16).toNat = 32768 := rfl
  rw [ptsLe_iff, ptsLe_iff, ← BitVec.toNat_inj, BitVec.toNat_sub, hhalf]
  have hx := x.isLt
  have hy := y.isLt
  omega

theorem State.bankAt_bumpPts (s : State) (i j : Nat) (v : BitVec 16) (b : Bool) : (s.bumpPts i v).bankAt j b = s.bankAt j b := by
  rw [State.bankAt, State.bumpPts, State.core_setPts]
  split
  · next h => rw [h]; cases b <;> rfl
  · rfl

theorem State.cycle_bumpPts (s : State) (i : Nat) (v : BitVec 16) : (s.bumpPts i v).cycle = s.cycle := by
  rw [State.bumpPts, State.setPts]
  split <;> rfl

/-- What a sample acquires changes no bank and takes no time (R169). -/
theorem State.bankAt_acquireSample (s : State) (i j : Nat) (x : RVal) (b : Bool) :
    ((s.acquireSample i x).bankAt j b, (s.acquireSample i x).cycle) = (s.bankAt j b, s.cycle) := by
  unfold State.acquireSample
  split
  · refine foldl_keeps (fun s : State => (s.bankAt j b, s.cycle)) (fun s u => ?_) _ s
    split
    · exact Prod.ext (s.bankAt_bumpPts i j u.1 b) (s.cycle_bumpPts i u.1)
    · rfl
  · rfl

theorem Bank.writes_put (b : Bank) (d : RDst) (x : RVal) : (b.put d x).writes = b.writes := by
  unfold Bank.put
  split
  · rw [Bank.setS]
    split <;> rfl
  · rfl
  · rfl
  · rfl
  · rw [Bank.setMBits, Bank.setM]
    split <;> rfl
  · rw [Bank.setC]
    split <;> rfl
  · rfl
  · rfl
  · rfl

/-- Landing a result leaves the results on their way alone. -/
theorem Bank.writes_land (b : Bank) (w : PendWrite) (x : RVal) : (b.land w x).writes = b.writes := by
  have hflags (c : Bank) (f : FlagSet) : (c.completeFlags f w.pc w.vecUnit).writes = c.writes := by
    rw [Bank.completeFlags, Bank.merge]
    split <;> rfl
  have hput : (match w.dst with
      | none => b
      | some d => b.put d x).writes = b.writes := by
    cases w.dst with
    | none => rfl
    | some d => exact b.writes_put d x
  simp only [Bank.land]
  split <;> split
  · exact hput
  · exact hput
  · exact (hflags _ _).trans hput
  · exact (hflags _ _).trans hput

/-- A result without flags and tag only writes where it goes. -/
theorem Bank.land_eq_put {b : Bank} {w : PendWrite} {d : RDst} (hf : w.flags = 0) (ht : w.tag = 0) (hd : w.dst = some d) (x : RVal) :
    b.land w x = b.put d x := by
  simp only [Bank.land, hf, ht, hd, if_true]

theorem getElem_set_fin {α : Type} {n : Nat} (v : Vector α n) (r q : Fin n) (x : α) :
    (v.set r x)[q] = if q = r then x else v[q] := by
  rw [Fin.getElem_fin, Fin.getElem_fin, Vector.getElem_set]
  simp only [Fin.ext_iff, eq_comm]

theorem Bank.getS_setS (b : Bank) (r q : Fin 64) (x : Word) : (b.setS r x).getS q = if q = r ∧ r.val ≠ 0 then x else b.getS q := by
  by_cases hr : r.val = 0
  · rw [Bank.setS, if_pos hr, if_neg fun h => h.2 hr]
  · rw [Bank.setS, if_neg hr, Bank.getS, Bank.getS, getElem_set_fin]
    by_cases hq : q = r
    · rw [hq, if_neg hr, if_pos rfl, if_pos ⟨rfl, hr⟩]
    · rw [if_neg hq, if_neg fun h : q = r ∧ r.val ≠ 0 => hq h.1]

theorem Bank.getC_setC (b : Bank) (r q : Fin 8) (x : Bool) : (b.setC r x).getC q = if q = r ∧ r.val ≠ 0 then x else b.getC q := by
  by_cases hr : r.val = 0
  · rw [Bank.setC, if_pos hr, if_neg fun h => h.2 hr]
  · rw [Bank.setC, if_neg hr, Bank.getC, Bank.getC, getElem_set_fin]
    by_cases hq : q = r
    · rw [if_pos hq, if_pos ⟨hq, hr⟩, hq, beq_eq_false_iff_ne.mpr hr, Bool.false_or]
    · rw [if_neg hq, if_neg fun h => hq h.1]

theorem Bank.getM_setM_ne (b : Bank) {r q : Fin 16} (h : q ≠ r) (x : MaskWord) : (b.setM r x).getM q = b.getM q := by
  rw [Bank.setM]
  split
  · rfl
  · rw [Bank.getM, Bank.getM, getElem_set_fin, if_neg h]

/-- A masked write of a bit: the marked bits are new, the others old. -/
theorem getLsbD_merge {n : Nat} (old x g : BitVec n) (k : Nat) :
    ((old &&& ~~~g) ||| (x &&& g)).getLsbD k = if g.getLsbD k then x.getLsbD k else old.getLsbD k := by
  rw [BitVec.getLsbD_or, BitVec.getLsbD_and, BitVec.getLsbD_and, BitVec.getLsbD_not]
  cases hg : g.getLsbD k with
  | true => simp
  | false =>
    by_cases hk : k < n
    · simp [hk]
    · simp [BitVec.getLsbD_of_ge old k (Nat.not_lt.mp hk)]

/-- The results that are due leave the list of those on their way (R59). -/
theorem Bank.writes_land_all (l : List (PendWrite × RVal)) (b : Bank) : (l.foldl (fun b x => b.land x.1 x.2) b).writes = b.writes :=
  foldl_keeps Bank.writes (fun b x => b.writes_land x.1 x.2) l b

end Sys2Proof.Machine

/-- Settles O59: logical times are compared modulo 2^16; `State.core_setPts` gives what setting a time changes. -/
theorem logicalTimeMovesForward : Obligations.LogicalTimeMovesForward := by
  unfold Obligations.LogicalTimeMovesForward
  refine ⟨ptsLe_iff, fun x y => ⟨ptsLe_ptsMax x y, ptsLe_total x y, ptsMax_eq x y⟩, fun s core v => ⟨s.pts_bumpPts core v, ?_, ?_⟩,
    fun s core => ?_⟩
  · rw [State.pts_bumpPts]
    exact ptsLe_ptsMax _ _
  · exact fun k hk => s.core_bumpPts_ne hk v
  · change ((State.setPts _ core _).core core).pts = _
    rw [State.core_setPts, if_pos rfl]
    change (State.core (State.modCore _ core _) core).pts + 1 = _
    rw [State.modCore, State.core_setCore]
    rfl

/-- Settles O58: a result is put where it goes (`Bank.land_eq_put`), and landing leaves the list of results alone. -/
theorem resultsLandInTheirRegisters : Obligations.ResultsLandInTheirRegisters := by
  unfold Obligations.ResultsLandInTheirRegisters
  refine ⟨fun b w hf ht => ⟨fun r x hd => ?_, fun r x hd => ?_, fun r x g hd => ?_, fun r x g hd => ?_, fun q x hd => Bank.land_eq_put hf ht hd _⟩,
    fun s core bank => ⟨?_, ?_⟩⟩
  · rw [Bank.land_eq_put hf ht hd]
    refine ⟨?_, fun q => b.getS_setS r q x⟩
    change b.setS r x = _
    rw [Bank.setS]
    split <;> rfl
  · rw [Bank.land_eq_put hf ht hd]
    refine ⟨?_, fun q => b.getC_setC r q x⟩
    change b.setC r x = _
    rw [Bank.setC]
    split <;> rfl
  · rw [Bank.land_eq_put hf ht hd]
    refine ⟨rfl, fun k => ?_⟩
    change (b.v.set r ((b.v[r] &&& ~~~g) ||| (x &&& g)))[r].getLsbD k = _
    rw [getElem_set_fin, if_pos rfl, getLsbD_merge]
  · rw [Bank.land_eq_put hf ht hd]
    refine ⟨?_, fun q hq => b.getM_setM_ne hq _, rfl⟩
    change b.setM r _ = _
    rw [Bank.setM]
    split <;> rfl
  · rw [State.landBank]
    split
    · next hnone =>
      rw [List.isEmpty_iff, Bank.dueWrites, List.filter_eq_nil_iff] at hnone
      exact (List.filter_eq_self.mpr fun w hw => by simpa using hnone w hw).symm
    · have hacq := foldl_keeps (fun u : State => (u.bankAt core bank, u.cycle)) (fun u w => u.bankAt_acquireSample core core (PendWrite.val w) bank)
        ((s.bankAt core bank).dueWrites s.cycle) s
      rw [Prod.mk.injEq] at hacq
      rw [State.bankAt_modBankAt, Bank.writes_land_all, hacq.1, hacq.2]
  · intro hdue
    rw [State.landBank, hdue]
    rfl
end

section
/-!
PROOF. What taking a trap changes.
-/
open Sys2Proof Sys2Proof.Machine

namespace Sys2Proof.Machine

/-- Adding a record changes the event log alone (R334). -/
theorem State.addLog_eq (s : State) (r : LogRec) : ∃ l k, s.addLog r = { s with log := l, logLost := k } := by
  rw [State.addLog]
  split
  · exact ⟨_, _, rfl⟩
  · exact ⟨s.log, _, rfl⟩

/-- The state in which a precise trap is taken: its fault is logged where R334 logs it. -/
def State.trapLogged (s : State) (t : TrapInfo) : State :=
  if loggedCode t.code then s.logHere t.code t.taddr (s.keyId s.bank) else s

theorem State.trapLogged_eq (s : State) (t : TrapInfo) : ∃ l k, s.trapLogged t = { s with log := l, logLost := k } := by
  rw [State.trapLogged]
  split
  · exact s.addLog_eq _
  · exact ⟨s.log, s.logLost, rfl⟩

/-- The bank after it has taken a precise trap (R121 to R123). -/
def State.trapBank (s : State) (t : TrapInfo) : Bank :=
  s.bank.takeTrap s.cycle false s.bank.pc (if t.skip then s.bank.pc + 1 else s.bank.pc) t

/-- A precise trap is logged, taken by the bank, and told to the job. -/
theorem State.trap_eq (s : State) (t : TrapInfo) : s.trap t = ((s.trapLogged t).setBank (s.trapBank t)).afterTrap := by
  obtain ⟨l, k, h⟩ := s.trapLogged_eq t
  change ((s.trapLogged t).modBank fun b => b.takeTrap (s.trapLogged t).cycle false (s.trapLogged t).bank.pc
    (if t.skip then (s.trapLogged t).bank.pc + 1 else (s.trapLogged t).bank.pc) t).afterTrap = _
  rw [h]
  rfl

/-- After a trap a job may have failed, and that travels; nothing else has changed (R121). -/
theorem State.afterTrap_eq (s : State) : ∃ j f n, s.afterTrap = { s with jobs := j, flights := f, free := n } := by
  rw [State.afterTrap]
  split
  · split
    · exact ⟨s.jobs, s.flights, s.free, rfl⟩
    · exact ⟨_, _, _, rfl⟩
  · exact ⟨s.jobs, s.flights, s.free, rfl⟩

/-- Everything that a precise trap can change. -/
theorem State.trap_changes (s : State) (t : TrapInfo) : ∃ l k j f n,
    s.trap t = { s.setBank (s.trapBank t) with log := l, logLost := k, jobs := j, flights := f, free := n } := by
  obtain ⟨l, k, hl⟩ := s.trapLogged_eq t
  obtain ⟨j, f, n, ha⟩ := ((s.trapLogged t).setBank (s.trapBank t)).afterTrap_eq
  refine ⟨l, k, j, f, n, ?_⟩
  rw [State.trap_eq, ha, hl]
  rfl

theorem State.bank_trap (s : State) (t : TrapInfo) : (s.trap t).bank = s.trapBank t := by
  obtain ⟨l, k, j, f, n, h⟩ := s.trap_changes t
  rw [h]
  exact State.bank_setBank s _

theorem State.cur_trap (s : State) (t : TrapInfo) : (s.trap t).cur = s.cur.setBank s.focus.bank (s.trapBank t) := by
  obtain ⟨l, k, j, f, n, h⟩ := s.trap_changes t
  rw [h]
  exact State.cur_modCur s (fun c => c.setBank s.focus.bank (s.trapBank t))

theorem State.core_trap_ne (s : State) (t : TrapInfo) {c : Nat} (h : c ≠ s.focus.core) : (s.trap t).core c = s.core c := by
  obtain ⟨l, k, j, f, n, ht⟩ := s.trap_changes t
  rw [ht]
  exact State.core_modCore_ne s _ c (fun c => c.setBank s.focus.bank (s.trapBank t)) (Ne.symm h)

theorem Core.setBank_bank (c : Core) (b : Bool) : c.setBank b (c.bank b) = c := by cases b <;> rfl

theorem lt_foldl_max_succ {α : Type} (f : α → Nat) (x : α) (l : List α) (m : Nat) (h : x ∈ l ∨ f x < m) :
    f x < l.foldl (fun m w => Nat.max m (f w + 1)) m := by
  induction l generalizing m with
  | nil =>
    rcases h with h | h
    · exact absurd h List.not_mem_nil
    · exact h
  | cons y l ih =>
    rw [List.foldl_cons]
    refine ih _ ?_
    rcases h with h | h
    · rcases List.mem_cons.mp h with rfl | h
      · exact .inr (Nat.lt_of_lt_of_le (Nat.lt_succ_self _) (Nat.le_max_right _ _))
      · exact .inl h
    · exact .inr (Nat.lt_of_lt_of_le h (Nat.le_max_left _ _))

theorem Bank.due_lt_drained {b : Bank} {w : PendWrite} (h : w ∈ b.writes) : w.due < b.drained :=
  lt_foldl_max_succ PendWrite.due w b.writes 0 (.inl h)

theorem Bank.takeTrap_job (b : Bank) (cycle : Nat) (imp : Bool) (tpc rpc : BitVec 15) (t : TrapInfo) :
    (b.takeTrap cycle imp tpc rpc t).job = b.job := by
  rw [Bank.takeTrap]
  split
  · rfl
  · cases b.tvecEn <;> rfl

theorem State.job_modJob (s : State) (id : Nat) (f : Job → Job) (hid : ∀ j : Job, (f j).id = j.id) :
    (s.modJob id f).job id = (s.job id).map f := by
  change (s.jobs.map _).find? _ = (s.jobs.find? _).map f
  induction s.jobs with
  | nil => rfl
  | cons j l ih =>
    cases hj : j.id == id
    · rw [List.map_cons, hj, if_neg (by decide), List.find?_cons, hj, List.find?_cons, hj]
      exact ih
    · have hf : ((f j).id == id) = true := by rw [hid, hj]
      rw [List.map_cons, hj, if_pos rfl, List.find?_cons, hf, List.find?_cons, hj]
      rfl

/-- A bank that a trap has stopped fails its job: a message goes out, and the report is the bank's, unless the job has one (R121). -/
theorem State.afterTrap_of_stopped {s : State} {id : Nat} (hj : s.bank.job = some id) (hs : s.bank.isStopped = true) :
    (∃ f, f ∈ s.afterTrap.flights ∧ f.ev = .jobFail id ∧ s.cycle < f.due)
    ∧ (∀ j, s.job id = some j → j.report = none → (s.afterTrap.job id).bind (fun j => j.report) = some s.bank.stopReport) := by
  rw [State.afterTrap, if_pos hs, hj]
  refine ⟨⟨_, List.mem_append_right _ (List.mem_singleton.mpr rfl), rfl, ?_⟩, fun j hid hr => ?_⟩
  · exact Nat.lt_of_lt_of_le (Nat.lt_succ_self _) (Nat.le_add_right _ _)
  · change ((s.modJob id _).job id).bind _ = _
    rw [State.job_modJob, hid]
    · change Job.report (if j.report.isNone then _ else j) = _
      rw [hr]
      rfl
    · intro j
      cases j.report <;> rfl

end Sys2Proof.Machine

/-- Settles O53: `State.trap_changes` lists what a trap can change; the bank is the one that has taken it. -/
theorem trapsEnterTheHandler : Obligations.TrapsEnterTheHandler := by
  unfold Obligations.TrapsEnterTheHandler
  intro s t b u rcd
  have hu : u.bank = s.trapBank t := s.bank_trap t
  refine ⟨fun ha hv => ?_, fun ha hv => ?_, fun ha => ?_, fun w => Bank.due_lt_drained, ?_, fun c hc => s.core_trap_ne t hc, ?_,
    fun id hid hstop => ?_⟩
  · rw [hu, State.trapBank, Bank.takeTrap, if_neg (by simp [ha, b]), if_pos hv]
  · rw [hu, State.trapBank, Bank.takeTrap, if_neg (by simp [ha, b]), if_neg (by simp [hv, b])]
  · rw [hu, State.trapBank, Bank.takeTrap, if_pos ha]
  · rw [s.cur_trap, Core.setBank_setBank]
    exact Core.setBank_bank _ _
  · obtain ⟨l, k, j, f, n, h⟩ := s.trap_changes t
    rw [show u = _ from h]
    rfl
  · obtain ⟨l, k, hl⟩ := s.trapLogged_eq t
    have hb : ((s.trapLogged t).setBank (s.trapBank t)).bank = s.trapBank t := State.bank_setBank _ _
    rw [hu] at hstop ⊢
    obtain ⟨hf, hr⟩ := State.afterTrap_of_stopped (s := (s.trapLogged t).setBank (s.trapBank t)) (id := id)
      (by rw [hb, State.trapBank, Bank.takeTrap_job]; exact hid) (by rw [hb]; exact hstop)
    rw [hb] at hr
    obtain ⟨f, hmem, hev, hdue⟩ := hf
    refine ⟨f, ?_, hev, ?_, fun j hj => ?_⟩
    · rw [show u = _ from s.trap_eq t]
      exact hmem
    · rw [hl] at hdue
      exact hdue
    · rw [show u = _ from s.trap_eq t]
      refine hr j ?_
      rw [hl]
      exact hj
end

section
/-!
PROOF. What the words that store nothing leave as it was: the two relations, and the operations that keep them.
-/
open Sys2Proof Sys2Proof.Machine

namespace Sys2Proof.Machine

/-! ## What a word that stores nothing leaves as it was -/

/-- The registers, the segment table and the words of a bank are the same. -/
structure SameRegs (b b' : Bank) : Prop where
  s : b'.s = b.s
  v : b'.v = b.v
  m : b'.m = b.m
  c : b'.c = b.c
  n : b'.n = b.n
  h : b'.h = b.h
  p : b'.p = b.p
  aq : b'.aq = b.aq
  segs : b'.segs = b.segs
  istore : b'.istore = b.istore

/-- Two states agree on the registers of the acting bank, on the other bank, on every other core and on every memory. -/
structure Quiet (s t : State) : Prop where
  focus : t.focus = s.focus
  regs : SameRegs s.bank t.bank
  other : t.cur.bank (!s.focus.bank) = s.cur.bank (!s.focus.bank)
  mem : t.cur.mem = s.cur.mem
  cores : ∀ k, k ≠ s.focus.core → t.core k = s.core k
  hbm : t.hbm = s.hbm
  hostMem : t.hostMem = s.hostMem
  slices : t.slices = s.slices

theorem SameRegs.refl (b : Bank) : SameRegs b b := ⟨rfl, rfl, rfl, rfl, rfl, rfl, rfl, rfl, rfl, rfl⟩

theorem SameRegs.trans {a b c : Bank} (h : SameRegs a b) (k : SameRegs b c) : SameRegs a c :=
  ⟨k.s.trans h.s, k.v.trans h.v, k.m.trans h.m, k.c.trans h.c, k.n.trans h.n, k.h.trans h.h, k.p.trans h.p, k.aq.trans h.aq,
    k.segs.trans h.segs, k.istore.trans h.istore⟩

theorem Quiet.refl (s : State) : Quiet s s := ⟨rfl, .refl _, rfl, rfl, fun _ _ => rfl, rfl, rfl, rfl⟩

theorem Quiet.trans {s t u : State} (h : Quiet s t) (k : Quiet t u) : Quiet s u := by
  have hother := k.other
  have hcores := k.cores
  rw [h.focus] at hother hcores
  exact ⟨k.focus.trans h.focus, h.regs.trans k.regs, hother.trans h.other, k.mem.trans h.mem,
    fun i hi => (hcores i hi).trans (h.cores i hi), k.hbm.trans h.hbm, k.hostMem.trans h.hostMem, k.slices.trans h.slices⟩

/-- A change outside the cores and the memories. -/
theorem Quiet.of_cores {s t : State} (hf : t.focus = s.focus) (hc : t.cores = s.cores) (hb : t.blank = s.blank) (h1 : t.hbm = s.hbm)
    (h2 : t.hostMem = s.hostMem) (h3 : t.slices = s.slices) : Quiet s t := by
  have hcore : ∀ i, t.core i = s.core i := fun i => by rw [State.core, State.core, hc, hb]
  have hcur : t.cur = s.cur := by rw [State.cur, State.cur, hcore, hf]
  have hbank : t.bank = s.bank := by rw [State.bank, State.bank, hcur, hf]
  refine ⟨hf, ?_, by rw [hcur], by rw [hcur], fun k _ => hcore k, h1, h2, h3⟩
  rw [hbank]
  exact .refl _

theorem Quiet.modCur {s : State} {f : Core → Core} (hr : SameRegs s.bank ((f s.cur).bank s.focus.bank))
    (ho : (f s.cur).bank (!s.focus.bank) = s.cur.bank (!s.focus.bank)) (hm : (f s.cur).mem = s.cur.mem) : Quiet s (s.modCur f) := by
  have hcur : (s.modCur f).cur = f s.cur := State.cur_modCur s f
  refine ⟨rfl, ?_, ?_, ?_, fun k hk => State.core_modCore_ne s _ k f (Ne.symm hk), rfl, rfl, rfl⟩
  · change SameRegs s.bank ((s.modCur f).cur.bank s.focus.bank)
    rw [hcur]
    exact hr
  · rw [hcur]
    exact ho
  · rw [hcur]
    exact hm

/-- A change of the acting core outside its banks and its memory. -/
theorem Quiet.modCur_of_banks {s : State} {f : Core → Core} (h0 : (f s.cur).bank0 = s.cur.bank0) (h1 : (f s.cur).bank1 = s.cur.bank1)
    (hm : (f s.cur).mem = s.cur.mem) : Quiet s (s.modCur f) := by
  have hbank : ∀ b, (f s.cur).bank b = s.cur.bank b := fun b => by rw [Core.bank, Core.bank, h0, h1]
  refine .modCur ?_ (hbank _) hm
  rw [hbank]
  exact .refl _

theorem Quiet.modBank {s : State} {f : Bank → Bank} (h : SameRegs s.bank (f s.bank)) : Quiet s (s.modBank f) := by
  have hbank : (s.cur.setBank s.focus.bank (f s.bank)).bank s.focus.bank = f s.bank := Core.bank_setBank _ _ _
  refine Quiet.modCur (f := fun c => c.setBank s.focus.bank (f s.bank)) ?_ (Core.bank_setBank_not _ _ _) (Core.setBank_mem _ _ _)
  rw [hbank]
  exact h

theorem Quiet.modBankAt {s : State} {i : Nat} {b : Bool} {f : Bank → Bank} (hi : s.focus.core = i) (hb : s.focus.bank = b)
    (h : ∀ x, SameRegs x (f x)) : Quiet s (s.modBankAt i b f) := by
  subst hi hb
  exact Quiet.modBank (f := f) (h _)

theorem Quiet.foldl {α : Type} {g : State → α → State} (h : ∀ s a, Quiet s (g s a)) (l : List α) (s : State) : Quiet s (l.foldl g s) := by
  induction l generalizing s with
  | nil => exact .refl s
  | cons a l ih => exact (h s a).trans (ih (g s a))

theorem Quiet.bumpPts (s : State) (v : BitVec 16) : Quiet s (s.bumpPts s.focus.core v) := by
  have hpts : Quiet s (s.modCore s.focus.core (fun c => { c with pts := ptsMax (s.core s.focus.core).pts v })) := .modCur_of_banks rfl rfl rfl
  rw [State.bumpPts, State.setPts]
  split
  · exact hpts
  · exact hpts.trans (.of_cores rfl rfl rfl rfl rfl rfl)

/-- A fence that ends brings the times of its loads to the core and no value to a register (R173). -/
theorem Quiet.passFence (s : State) : Quiet s s.passFence := by
  rw [State.passFence, State.endFence]
  split
  · exact .refl s
  · split
    · exact .refl s
    · next sc _ _ =>
      have hfold : ∀ (l : List (Nat × BitVec 16)) (u : State), u.focus.core = s.focus.core →
          Quiet u (l.foldl (fun (s' : State) x => s'.bumpPts s.focus.core x.2) u) := by
        intro l
        induction l with
        | nil => exact fun u _ => .refl u
        | cons x l ih =>
          intro u hu
          have hstep := Quiet.bumpPts u x.2
          rw [hu] at hstep
          exact hstep.trans (ih _ (by rw [hstep.focus]; exact hu))
      have htimes := hfold ((s.bankAt s.focus.core s.focus.bank).readStamp.filter (fun x => x.1 ≤ sc.toNat)) s rfl
      exact htimes.trans (.modBankAt (congrArg Focus.core htimes.focus) (congrArg Focus.bank htimes.focus)
        fun x => ⟨rfl, rfl, rfl, rfl, rfl, rfl, rfl, rfl, rfl, rfl⟩)

theorem SameRegs.takeTrap (b : Bank) (cycle : Nat) (imp : Bool) (tpc rpc : BitVec 15) (t : TrapInfo) :
    SameRegs b (b.takeTrap cycle imp tpc rpc t) := by
  rw [Bank.takeTrap]
  split
  · exact ⟨rfl, rfl, rfl, rfl, rfl, rfl, rfl, rfl, rfl, rfl⟩
  · cases b.tvecEn <;> exact ⟨rfl, rfl, rfl, rfl, rfl, rfl, rfl, rfl, rfl, rfl⟩

theorem Quiet.trap (s : State) (t : TrapInfo) : Quiet s (s.trap t) := by
  obtain ⟨l, k, j, f, n, h⟩ := s.trap_changes t
  have hset : Quiet s (s.setBank (s.trapBank t)) := Quiet.modBank (f := fun _ => s.trapBank t) (SameRegs.takeTrap _ _ _ _ _ _)
  rw [h]
  exact hset.trans (.of_cores rfl rfl rfl rfl rfl rfl)

/-! ## What a register word can change -/

/-- Two banks differ at most in pc, issue times, results on their way, the divider, popped queue registers, ports and a touched guard. -/
abbrev SameButResults (b c : Bank) : Prop :=
  { c with
    pc := b.pc, prevIssue := b.prevIssue, bound := b.bound, writes := b.writes, divFree := b.divFree, bq := b.bq, ports := b.ports
    touch := b.touch } = b

theorem SameButResults.trans {a b c : Bank} (h : SameButResults a b) (k : SameButResults b c) : SameButResults a c :=
  calc
    _ = { ({ c with
        pc := b.pc, prevIssue := b.prevIssue, bound := b.bound, writes := b.writes, divFree := b.divFree, bq := b.bq, ports := b.ports
        touch := b.touch } : Bank) with
        pc := a.pc, prevIssue := a.prevIssue, bound := a.bound, writes := a.writes, divFree := a.divFree, bq := a.bq, ports := a.ports
        touch := a.touch } := rfl
    _ = a := by rw [show ({ c with
        pc := b.pc, prevIssue := b.prevIssue, bound := b.bound, writes := b.writes, divFree := b.divFree, bq := b.bq, ports := b.ports
        touch := b.touch } : Bank) = b from k]; exact h

theorem SameButResults.sameRegs {b c : Bank} (h : SameButResults b c) : SameRegs b c := by
  have field : ∀ {α : Type} (f : Bank → α), f { c with
      pc := b.pc, prevIssue := b.prevIssue, bound := b.bound, writes := b.writes, divFree := b.divFree, bq := b.bq, ports := b.ports
      touch := b.touch } = f b := fun f => congrArg f h
  exact ⟨field Bank.s, field Bank.v, field Bank.m, field Bank.c, field Bank.n, field Bank.h, field Bank.p, field Bank.aq, field Bank.segs,
    field Bank.istore⟩

/-- Only the acting bank has changed, and in it only what a register word changes. -/
structure BankOnly (s t : State) : Prop where
  state : { t with cores := s.cores } = s
  core : t.cur.setBank s.focus.bank s.bank = s.cur
  bank : SameButResults s.bank t.bank

theorem BankOnly.refl (s : State) : BankOnly s s := ⟨rfl, Core.setBank_bank _ _, rfl⟩

theorem BankOnly.trans {s t u : State} (h : BankOnly s t) (k : BankOnly t u) : BankOnly s u := by
  have hfocus : ({ t with cores := s.cores } : State).focus = s.focus := by rw [h.state]
  change t.focus = s.focus at hfocus
  refine ⟨?_, ?_, h.bank.trans k.bank⟩
  · calc
      { u with cores := s.cores } = { ({ u with cores := t.cores } : State) with cores := s.cores } := rfl
      _ = s := by rw [k.state, h.state]
  · calc
      u.cur.setBank s.focus.bank s.bank = (u.cur.setBank s.focus.bank t.bank).setBank s.focus.bank s.bank := by rw [Core.setBank_setBank]
      _ = s.cur := by rw [← hfocus, k.core, hfocus, h.core]

/-- A step of a word that stores nothing; where the word uses no memory, only its bank has changed. -/
structure Touched (mem : Bool) (s t : State) : Prop where
  quiet : Quiet s t
  bankOnly : mem = false → BankOnly s t

theorem Touched.refl (mem : Bool) (s : State) : Touched mem s s := ⟨.refl s, fun _ => .refl s⟩

theorem Touched.trans {mem : Bool} {s t u : State} (h : Touched mem s t) (k : Touched mem t u) : Touched mem s u :=
  ⟨h.quiet.trans k.quiet, fun hm => (h.bankOnly hm).trans (k.bankOnly hm)⟩

theorem Touched.of_mem {mem : Bool} {s t : State} (hm : mem = true) (h : Quiet s t) : Touched mem s t :=
  ⟨h, fun hf => absurd (hm.symm.trans hf) (by decide)⟩

theorem Touched.modBank {mem : Bool} {s : State} {f : Bank → Bank} (h : SameButResults s.bank (f s.bank)) : Touched mem s (s.modBank f) := by
  refine ⟨.modBank h.sameRegs, fun _ => ⟨rfl, ?_, ?_⟩⟩
  · have hcur : (s.modBank f).cur = s.cur.setBank s.focus.bank (f s.bank) := State.cur_modCur _ _
    rw [hcur, Core.setBank_setBank]
    exact Core.setBank_bank _ _
  · rw [State.bank_modBank]
    exact h

/-! ## Operands -/

theorem Touched.readS (mem : Bool) (s : State) (a : SSrc) : Touched mem s (s.readS a).2 := by
  cases a with
  | bq q => exact .modBank (f := fun b => { b with bq := b.bq.set q s.bank.bq[q].tail }) rfl
  | _ => exact .refl mem s

theorem Touched.readB (mem : Bool) (s : State) (imm : BitVec 16 → Word) (b : SrcB) : Touched mem s (s.readB imm b).2 := by
  cases b with
  | reg r => exact .readS mem s r
  | imm v => exact .refl mem s

theorem Touched.readAddr (mem : Bool) (s : State) (m : MemOp) : Touched mem s (s.readAddr m).2 := by
  cases m with
  | off a o => exact .readS mem s a
  | idx a b k => exact (Touched.readS mem s a).trans (.readS mem _ b)

/-- A source that is an input port. -/
def VSrc.isPort : VSrc → Bool
  | .port _ => true
  | _ => false

/-- A destination that is an output port. -/
def VDst.isPort : VDst → Bool
  | .port _ => true
  | .v _ => false

@[simp] theorem Need.mem_v (n : Need) (x : VSrc) : (n.v x).mem = (n.mem || VSrc.isPort x) := by cases x <;> simp [Need.v, VSrc.isPort]

@[simp] theorem Need.mem_vb (n : Need) (b : VSrcB) : (n.vb b).mem = (n.mem || (VSrcB.srcs b).any VSrc.isPort) := by
  cases b <;> simp [Need.vb, VSrcB.srcs]

@[simp] theorem Need.mem_dv (n : Need) (d : VDst) (lat : Nat) : (n.dv d lat).mem = (n.mem || VDst.isPort d) := by
  cases d <;> simp [Need.dv, VDst.isPort]

@[simp] theorem Need.mem_s (n : Need) (x : SSrc) : (n.s x).mem = n.mem := by cases x <;> rfl

@[simp] theorem Need.mem_sb (n : Need) (b : SrcB) : (n.sb b).mem = n.mem := by
  cases b with
  | reg r => exact n.mem_s r
  | imm v => rfl

@[simp] theorem Need.mem_m (n : Need) (x : MSrc) : (n.m x).mem = n.mem := by cases x <;> rfl

@[simp] theorem Need.mem_ds (n : Need) (d : SDst) (lat : Nat) : (n.ds d lat).mem = n.mem := by cases d <;> rfl

@[simp] theorem Need.mem_dm (n : Need) (d : Fin 16) (lat : Nat) : (n.dm d lat).mem = n.mem := rfl

theorem SameRegs.recordTouch (b : Bank) (x : Option Nat) : SameRegs b (b.recordTouch x) := by
  cases x with
  | none => exact .refl b
  | some a =>
    rw [Bank.recordTouch]
    cases b.touch <;> exact ⟨rfl, rfl, rfl, rfl, rfl, rfl, rfl, rfl, rfl, rfl⟩

theorem Quiet.modCur_modBank {s : State} {f : Bank → Bank} (h : SameRegs s.bank (f s.bank)) :
    Quiet s (s.modCur (fun c => c.modBank s.focus.bank f)) := Quiet.modBank (f := f) h

/-- A sector read for a port takes its memory bank and may touch a guard. -/
theorem Quiet.modCur_takeTouch (s : State) (g : Grant) (a n : Nat) : Quiet s (s.modCur (fun c => (c.take g).touch s.focus.bank a n)) := by
  have hbanks : ∀ c : Core, (c.take g).bank = c.bank ∧ (c.take g).mem = c.mem := fun c => by
    rw [Core.take]
    split <;> exact ⟨rfl, rfl⟩
  obtain ⟨hbank, hmem⟩ := hbanks s.cur
  refine .modCur ?_ ?_ ?_
  · rw [Core.touch, Core.bank_modBank, hbank]
    exact .recordTouch _ _
  · rw [Core.touch, Core.modBank, Core.bank_setBank_not, hbank]
  · rw [Core.touch, Core.modBank_mem, hmem]

theorem Quiet.advancePort (s : State) (i : Fin 12) : Quiet s (s.advancePort i) := by
  rw [State.advancePort]
  split
  · exact .refl s
  · next p _ =>
    exact (Quiet.foldl (fun u x => .modCur_takeTouch u _ _ _) p.missing s).trans (.modBank ⟨rfl, rfl, rfl, rfl, rfl, rfl, rfl, rfl, rfl, rfl⟩)

theorem portsOf_eq_nil {l : List VSrc} (h : l.any VSrc.isPort = false) : portsOf l = [] := by
  have hnone : ∀ f : VSrc → Option (Fin 8), (∀ x, x ∈ l → f x = none) → dedup (l.filterMap f) = [] := fun f hf => by
    rw [List.filterMap_eq_nil_iff.mpr hf]
    rfl
  refine hnone _ fun x hx => ?_
  have hp := List.any_eq_false.mp h x hx
  cases x with
  | port i => exact absurd rfl hp
  | _ => rfl

theorem Touched.advancePorts {mem : Bool} {l : List VSrc} (h : l.any VSrc.isPort = true → mem = true) (s : State) :
    Touched mem s (s.advancePorts l) := by
  cases hp : l.any VSrc.isPort with
  | true => exact .of_mem (h hp) (.foldl (fun u i => .advancePort u _) _ s)
  | false =>
    rw [State.advancePorts, portsOf_eq_nil hp]
    exact .refl mem s

/-! ## Results -/

theorem Touched.result (mem : Bool) (s : State) (d : Option RDst) (x : RVal) (lat : Nat) (f : FlagSet) (pc : BitVec 15) (vec : Bool) :
    Touched mem s (s.result d x lat f pc vec) := .modBank rfl

/-- A local access that sets out touches guards and waits in the core. -/
theorem Quiet.addLocal (s : State) (x : LAcc) (l : List LMove) : Quiet s (s.modCur (fun c => c.addLocal s.focus.bank x l)) := by
  have hcore : ∀ c : Core, ∃ y, (c.addLocal s.focus.bank x l).bank s.focus.bank = (c.bank s.focus.bank).recordTouch y
      ∧ (c.addLocal s.focus.bank x l).bank (!s.focus.bank) = c.bank (!s.focus.bank) ∧ (c.addLocal s.focus.bank x l).mem = c.mem := by
    intro c
    rw [Core.addLocal]
    split
    · exact ⟨none, rfl, rfl, rfl⟩
    · exact ⟨_, Core.bank_modBank _ _ _, Core.bank_setBank_not _ _ _, Core.modBank_mem _ _ _⟩
  obtain ⟨y, hbank, hother, hmem⟩ := hcore s.cur
  refine .modCur ?_ hother hmem
  rw [hbank]
  exact .recordTouch _ _

theorem Quiet.toPort {send : State → List LMove → State} (hs : ∀ s l, Quiet s (send s l)) (s : State) (o : Fin 4) (v m : VecWord) :
    Quiet s (s.toPort o v m send) := by
  rw [State.toPort]
  split
  · exact .refl s
  · exact (hs s _).trans (.modBank ⟨rfl, rfl, rfl, rfl, rfl, rfl, rfl, rfl, rfl, rfl⟩)

theorem Touched.resultV {mem : Bool} {d : VDst} (h : VDst.isPort d = true → mem = true) (s : State) (w bits : VecWord) (lat : Nat) (f : FlagSet)
    (pc : BitVec 15) : Touched mem s (s.resultV d w bits lat f pc) := by
  cases d with
  | v r => exact .result mem s _ _ _ _ _ _
  | port o => exact .of_mem (h rfl) ((Quiet.toPort (fun u l => .addLocal u _ l) s o w bits).trans (Touched.result mem _ _ _ _ _ _ _).quiet)

end Sys2Proof.Machine

end

section
/-!
PROOF. Every word with needs is one issue; what the register words and the request words come to.
-/
open Sys2Proof Sys2Proof.Machine

namespace Sys2Proof.Machine

/-! ## The effects of the register words -/

/-- A meaning is one issue with given needs, and what its body can come to is related to the state in which the word has issued. -/
def Issues (f : State → State) (n : Need) (R : State → State → Prop) : Prop :=
  ∃ body : State → State → Result, (∀ s, f s = s.issue n none (body s)) ∧ ∀ s t u, body s t = .ok u → R t u

/-- The same of an instruction. -/
def Runs (i : Instr) (n : Need) (R : State → State → Prop) : Prop := ∃ f, (∀ s, exec i s = .next (f s)) ∧ Issues f n R

theorem Runs.of {i : Instr} {f : State → State} {n : Need} {R : State → State → Prop} (h : Issues f n R) (he : ∀ s, exec i s = .next (f s)) :
    Runs i n R := ⟨f, he, h⟩

/-- A body that always takes effect. -/
theorem Issues.of_ok {f : State → State} {n : Need} {R : State → State → Prop} {post : State → State → State}
    (he : ∀ s, f s = s.issue n none fun t => .ok (post s t)) (h : ∀ s t, R t (post s t)) : Issues f n R :=
  ⟨fun s t => .ok (post s t), he, fun s t u hu => by cases hu; exact h s t⟩

theorem Runs.of_ok {i : Instr} {n : Need} {R : State → State → Prop} {post : State → State → State}
    (he : ∀ s, exec i s = .next (s.issue n none fun t => .ok (post s t))) (h : ∀ s t, R t (post s t)) : Runs i n R :=
  ⟨fun s => s.issue n none fun t => .ok (post s t), he, .of_ok (fun _ => rfl) h⟩

theorem intOp_issues (f : Fmt → Int → Int → Int) (sats : Int → Bool) (lat : Nat) (dv : Bool) (h : Hdr) (ty : Fmt) (d : SDst) (a : SSrc)
    (b : SrcB) (mem : Bool) :
    Issues (intOp f sats lat dv none h ty d a b) ((Need.of h).s a |>.sb b |>.ds d lat |>.div dv) (Touched mem) := by
  unfold intOp
  refine Issues.of_ok (fun _ => rfl) fun s t => ?_
  have hread := (Touched.readS mem t a).trans (.readB mem _ immSext b)
  cases dv with
  | false => exact hread.trans (.result ..)
  | true => exact (hread.trans (.modBank (f := fun x => { x with divFree := ((t.readS a).2.readB immSext b).2.cycle + 24 }) rfl)).trans (.result ..)

theorem bitOp_issues (f : Word → Word → Word) (h : Hdr) (d : SDst) (a : SSrc) (b : SrcB) (mem : Bool) :
    Issues (bitOp f h d a b) ((Need.of h).s a |>.sb b |>.ds d 1) (Touched mem) := by
  unfold bitOp
  exact .of_ok (fun _ => rfl) fun s t => ((Touched.readS mem t a).trans (.readB mem _ immZext b)).trans (.result ..)

theorem bitOp1_issues (f : Word → Word) (h : Hdr) (d : SDst) (a : SSrc) (mem : Bool) :
    Issues (bitOp1 f h d a) ((Need.of h).s a |>.ds d 1) (Touched mem) := by
  unfold bitOp1
  exact .of_ok (fun _ => rfl) fun s t => (Touched.readS mem t a).trans (.result ..)

theorem condOp_issues (f : Bool → Bool → Bool) (h : Hdr) (d : Fin 8) (a b : CSrc) (mem : Bool) :
    Issues (condOp f h d a b) ((Need.of h).c a |>.c b |>.dc d 1) (Touched mem) := by
  unfold condOp
  exact .of_ok (fun _ => rfl) fun s t => .result mem t ..

theorem fltOp_issues (f : RMode → FVal → FVal → FVal × FlagSet) (h : Hdr) (ty : Fmt) (d : SDst) (a : SSrc) (b : SrcB) (mem : Bool) :
    Issues (fltOp f none h ty d a b) ((Need.of h).s a |>.sb b |>.ds d 4) (Touched mem) := by
  unfold fltOp
  exact .of_ok (fun _ => rfl) fun s t => ((Touched.readS mem t a).trans (.readB mem _ (immFlt ty) b)).trans (.result ..)

theorem ffmaOp_issues (h : Hdr) (ty : Fmt) (d : SDst) (a b c : SSrc) (mem : Bool) :
    Issues (ffmaOp none h ty d a b c) ((Need.of h).s a |>.s b |>.s c |>.ds d 4) (Touched mem) := by
  unfold ffmaOp
  exact .of_ok (fun _ => rfl) fun s t =>
    (((Touched.readS mem t a).trans (.readS mem _ b)).trans (.readS mem _ c)).trans (.result ..)

theorem fcvtOp_issues (h : Hdr) (ty src : Fmt) (d : SDst) (a : SSrc) (mem : Bool) :
    Issues (fcvtOp none h ty src d a) ((Need.of h).s a |>.ds d 6) (Touched mem) := by
  unfold fcvtOp
  exact .of_ok (fun _ => rfl) fun s t => (Touched.readS mem t a).trans (.result ..)

theorem maskOp_issues (f : MaskWord → MaskWord → MaskWord) (h : Hdr) (d : Fin 16) (a b : MSrc) (mem : Bool) :
    Issues (maskOp f h d a b) ((Need.ofV h).m a |>.m b |>.dm d 2) (Touched mem) := by
  unfold maskOp
  exact .of_ok (fun _ => rfl) fun s t => .result mem t ..

theorem maskCount_issues (f : Nat → Nat → Nat) (h : Hdr) (ty : Fmt) (d : SDst) (a : MSrc) (mem : Bool) :
    Issues (maskCount f h ty d a) ((Need.ofV h).m a |>.ds d 2) (Touched mem) := by
  unfold maskCount
  exact .of_ok (fun _ => rfl) fun s t => .result mem t ..

@[simp] theorem Need.mem_of (h : Hdr) : (Need.of h).mem = false := rfl

@[simp] theorem Need.mem_ofV (h : Hdr) : (Need.ofV h).mem = false := rfl

/-! A word of the vector unit takes the next vectors of its ports, and its result may set out as a store: where it has a port, it uses memory. -/

/-- The ports that a word reads and writes are accesses to memory that its needs name. -/
def PortsNeedMem (n : Need) (d : VDst) (srcs : List VSrc) : Prop :=
  (srcs.any VSrc.isPort = true → n.mem = true) ∧ (VDst.isPort d = true → n.mem = true)

theorem Touched.vectorResult {n : Need} {d : VDst} {srcs : List VSrc} (hp : PortsNeedMem n d srcs) (s : State) (w bits : VecWord) (lat : Nat)
    (f : FlagSet) (pc : BitVec 15) : Touched n.mem s ((s.advancePorts srcs).resultV d w bits lat f pc) :=
  (Touched.advancePorts hp.1 s).trans (.resultV hp.2 ..)

theorem portsNeedMem_dv {n : Need} {srcs : List VSrc} (h : srcs.any VSrc.isPort = true → n.mem = true) (d : VDst) (lat : Nat) :
    PortsNeedMem (n.dv d lat) d srcs :=
  ⟨fun hs => by rw [Need.mem_dv, h hs, Bool.true_or], fun hd => by rw [Need.mem_dv, hd, Bool.or_true]⟩

theorem laneOp_issues {need : Need} {srcs : List VSrc} (hp : srcs.any VSrc.isPort = true → need.mem = true) (h : Hdr) (dw n : Nat) (d : VDst)
    (lat : Nat) (f : State → Nat → Nat × FlagSet) :
    Issues (laneOp need none h dw n d lat srcs f) (need.dv d lat) (Touched (need.dv d lat).mem) := by
  unfold laneOp
  exact .of_ok (fun _ => rfl) fun s t => .vectorResult (portsNeedMem_dv hp d lat) t ..

theorem redOp_issues (op : RedOp) (h : Hdr) (ty : Fmt) (d : VDst) (a : VSrc) :
    Issues (redOp op none h ty d a) ((Need.ofV h).v a |>.dv d 12) (Touched ((Need.ofV h).v a |>.dv d 12).mem) := by
  unfold redOp
  exact .of_ok (fun _ => rfl) fun s t => .vectorResult (portsNeedMem_dv (by simp) d 12) t ..

theorem vscanOp_issues (h : Hdr) (ty : Fmt) (d : VDst) (a : VSrc) (k : Fin 3) :
    Issues (vscanOp none h ty d a k) ((Need.ofV h).v a |>.dv d 12) (Touched ((Need.ofV h).v a |>.dv d 12).mem) := by
  unfold vscanOp
  exact .of_ok (fun _ => rfl) fun s t => .vectorResult (portsNeedMem_dv (by simp) d 12) t ..

/-- The half-step words check their headers before they take effect (R139). -/
theorem headerOp_issues (f : Nat → Nat → Nat × FlagSet) (h : Hdr) (ty src : Fmt) (d : VDst) (a b : VSrc) :
    Issues (headerOp f h ty src d a b) ((Need.ofV h).v a |>.v b |>.dv d 6) (Touched ((Need.ofV h).v a |>.v b |>.dv d 6).mem) := by
  unfold headerOp
  refine ⟨_, fun _ => rfl, fun s t u hu => ?_⟩
  dsimp only at hu
  split at hu
  · cases hu
  · cases hu
    exact .vectorResult (portsNeedMem_dv (by simp) d 6) t ..

theorem wholeOp_issues {need : Need} {srcs : List VSrc} (hp : srcs.any VSrc.isPort = true → need.mem = true) (d : VDst) (lat : Nat)
    {f : State → VecWord × State} (hf : ∀ mem t, Touched mem t (f t).2) :
    Issues (wholeOp need d lat srcs f) (need.dv d lat) (Touched (need.dv d lat).mem) := by
  unfold wholeOp
  exact .of_ok (fun _ => rfl) fun s t => (hf _ t).trans (.vectorResult (portsNeedMem_dv hp d lat) _ ..)

theorem countOp_issues {need : Need} {srcs : List VSrc} (hp : srcs.any VSrc.isPort = true → need.mem = true) (h : Hdr) (ty : Fmt) (d : VDst)
    (b : SrcB) (f : State → Nat → Nat → Nat) (act : Nat → Nat → Bool) :
    Issues (countOp need h ty d b srcs f act) ((need.sb b).dv d 3) (Touched ((need.sb b).dv d 3).mem) := by
  unfold countOp
  exact .of_ok (fun _ => rfl) fun s t =>
    (Touched.readB _ t immZext b).trans (.vectorResult (portsNeedMem_dv (by simpa using hp) d 3) _ ..)

theorem vecArith_issues (fi : Int → Int → Int) (ff : RMode → FVal → FVal → FVal × FlagSet) (li : Nat) (h : Hdr) (ty : Fmt) (d : VDst)
    (a : VSrc) (b : VSrcB) : Issues (vecArith fi ff li none h ty d a b) (((Need.ofV h).v a |>.vb b).dv d (arithLat ty li 4))
      (Touched (((Need.ofV h).v a |>.vb b).dv d (arithLat ty li 4)).mem) := by
  unfold vecArith
  exact laneOp_issues (by simp) h _ _ d _ _

theorem vecFun_issues (f : FVal → FVal × FlagSet) (h : Hdr) (ty : Fmt) (d : VDst) (a : VSrc) :
    Issues (vecFun f none h ty d a) (((Need.ofV h).v a).dv d 8) (Touched (((Need.ofV h).v a).dv d 8).mem) := by
  unfold vecFun
  exact laneOp_issues (by simp) h _ _ d _ _

theorem vecBits_issues (f : Nat → Nat → Nat → Nat) (h : Hdr) (ty : Fmt) (d : VDst) (a : VSrc) (b : VSrcB) :
    Issues (vecBits f h ty d a b) (((Need.ofV h).v a |>.vb b).dv d 2) (Touched (((Need.ofV h).v a |>.vb b).dv d 2).mem) := by
  unfold vecBits
  exact laneOp_issues (by simp) h _ _ d _ _

theorem convOp_issues (sw : Nat) (f : Nat → Nat → Nat × FlagSet) (h : Hdr) (ty src : Fmt) (d : VDst) (a b : VSrc) :
    Issues (convOp sw f h ty src d a b) (((Need.ofV h).v a |>.v b).dv d 6) (Touched (((Need.ofV h).v a |>.v b).dv d 6).mem) := by
  unfold convOp
  exact laneOp_issues (by simp) h _ _ d _ _

theorem vfmaOp_issues (h : Hdr) (ty : Fmt) (d : VDst) (a b c : VSrc) :
    Issues (vfmaOp none h ty d a b c) (((Need.ofV h).v a |>.v b |>.v c).dv d 4) (Touched (((Need.ofV h).v a |>.v b |>.v c).dv d 4).mem) := by
  unfold vfmaOp
  exact laneOp_issues (by simp [or_assoc]) h _ _ d _ _

theorem vcvtOp_issues (h : Hdr) (ty src : Fmt) (d : VDst) (a : VSrc) :
    Issues (vcvtOp none h ty src d a) (((Need.ofV h).v a).dv d 6) (Touched (((Need.ofV h).v a).dv d 6).mem) := by
  unfold vcvtOp
  exact laneOp_issues (by simp) h _ _ d _ _

/-! ## Every register word is one issue with such an effect -/

theorem registerWord_runs {i : Instr} {n : Need} (hn : needOf i = some n) (hr : registerWord i = true) : Runs i n (Touched n.mem) := by
  cases i with
  | add h ty d a b | sub h ty d a b | mul h ty d a b | mulh h ty d a b | div h ty d a b | rem h ty d a b | min h ty d a b | max h ty d a b =>
    cases hn
    exact .of (intOp_issues _ _ _ _ h ty d a b _) fun _ => rfl
  | and h d a b | or h d a b | xor h d a b | andn h d a b | shl h d a b | shr h d a b | sar h d a b | rot h d a b =>
    cases hn
    exact .of (bitOp_issues _ h d a b _) fun _ => rfl
  | clz h d a | popc h d a =>
    cases hn
    exact .of (bitOp1_issues _ h d a _) fun _ => rfl
  | cand h d a b | cor h d a b | cxor h d a b =>
    cases hn
    exact .of (condOp_issues _ h d a b _) fun _ => rfl
  | fadd h ty d a b | fmul h ty d a b | fmin h ty d a b | fmax h ty d a b =>
    cases hn
    exact .of (fltOp_issues _ h ty d a b _) fun _ => rfl
  | ffma h ty d a b c =>
    cases hn
    exact .of (ffmaOp_issues h ty d a b c _) fun _ => rfl
  | fcvt h ty src d a =>
    cases hn
    exact .of (fcvtOp_issues h ty src d a _) fun _ => rfl
  | vadd h ty d a b | vsub h ty d a b | vmul h ty d a b | vmin h ty d a b | vmax h ty d a b =>
    cases hn
    exact .of (vecArith_issues _ _ _ h ty d a b) fun _ => rfl
  | vand h ty d a b | vor h ty d a b | vxor h ty d a b | vshl h ty d a b | vshr h ty d a b | vsar h ty d a b =>
    cases hn
    exact .of (vecBits_issues _ h ty d a b) fun _ => rfl
  | vfma h ty d a b c =>
    cases hn
    exact .of (vfmaOp_issues h ty d a b c) fun _ => rfl
  | vrcp h ty d a | vrsq h ty d a | vexp2 h ty d a | vlog2 h ty d a =>
    cases hn
    exact .of (vecFun_issues _ h ty d a) fun _ => rfl
  | vcvt h ty src d a =>
    cases hn
    exact .of (vcvtOp_issues h ty src d a) fun _ => rfl
  | vbscale h ty src d a =>
    cases hn
    exact .of (laneOp_issues (srcs := [a]) (by simp) h _ _ d _ _) fun _ => rfl
  | vord h ty d a =>
    cases hn
    exact .of (laneOp_issues (srcs := [a]) (by simp) h _ _ d _ _) fun _ => rfl
  | vsel h ty d a b c =>
    cases hn
    exact .of (laneOp_issues (srcs := [b, c]) (by simp) h _ _ d _ _) fun _ => rfl
  | vperm h ty d a b =>
    cases hn
    exact .of (laneOp_issues (srcs := [a, b]) (by simp) h _ _ d _ _) fun _ => rfl
  | vtolog h ty src d a b | vfromlog h ty src d a b =>
    cases hn
    exact .of (convOp_issues _ _ h ty src d a b) fun _ => rfl
  | vqnt h ty src d a b | vdqnt h ty src d a b =>
    cases hn
    exact .of (headerOp_issues _ h ty src d a b) fun _ => rfl
  | vredadd h ty d a | vredmax h ty d a | vredmin h ty d a =>
    cases hn
    exact .of (redOp_issues _ h ty d a) fun _ => rfl
  | vscan h ty d a k =>
    cases hn
    exact .of (vscanOp_issues h ty d a k) fun _ => rfl
  | vhist h ty d a b =>
    cases hn
    exact .of (wholeOp_issues (srcs := [a]) (by simp) d _ (fun mem t => .readB mem t immZext b)) fun _ => rfl
  | vcmprs h ty d a =>
    cases hn
    exact .of (wholeOp_issues (srcs := [a]) (by simp) d _ (fun mem t => .refl mem t)) fun _ => rfl
  | vslide h ty d a b down =>
    cases hn
    exact .of (countOp_issues (srcs := [a]) (by simp) h ty d b _ _) fun _ => rfl
  | mand h d a b | mor h d a b | mxor h d a b =>
    cases hn
    exact .of (maskOp_issues _ h d a b _) fun _ => rfl
  | mnot h d a =>
    cases hn
    exact .of (maskOp_issues _ h d a a _) fun _ => rfl
  | mpop h ty d a | mfirst h ty d a =>
    cases hn
    exact .of (maskCount_issues _ h ty d a _) fun _ => rfl
  | nop h =>
    cases hn
    exact .of_ok (fun _ => rfl) fun s t => .refl _ t
  | sel h d a b c =>
    cases hn
    exact .of_ok (fun _ => rfl) fun s t => ((Touched.readS _ t b).trans (.readS _ _ c)).trans (.result ..)
  | cmp h ty d a b k =>
    cases hn
    exact .of_ok (fun _ => rfl) fun s t => ((Touched.readS _ t a).trans (.readB _ _ immSext b)).trans (.result ..)
  | fcmp h ty d a b k =>
    cases hn
    exact .of_ok (fun _ => rfl) fun s t => ((Touched.readS _ t a).trans (.readB _ _ (immFlt ty) b)).trans (.result ..)
  | movi h d a v sh =>
    cases hn
    exact .of_ok (fun _ => rfl) fun s t => (Touched.readS _ t a).trans (.result ..)
  | lea h d m =>
    cases hn
    exact .of_ok (fun _ => rfl) fun s t => (Touched.readAddr _ t m).trans (.result ..)
  | ftolog h ty src d a b | ffromlog h ty src d a b =>
    cases hn
    exact .of_ok (fun _ => rfl) fun s t => ((Touched.readS _ t a).trans (.readS _ _ b)).trans (.result ..)
  | vcmp h ty d a b k =>
    cases hn
    exact .of_ok (fun _ => rfl) fun s t => (Touched.advancePorts (l := a :: VSrcB.srcs b) (by simp) t).trans (.result ..)
  | vbcast h ty d a | viota h ty d a =>
    cases hn
    exact .of_ok (fun _ => rfl) fun s t => (Touched.readS _ t a).trans (.resultV (by simp) ..)
  | vext h ty d a b =>
    cases hn
    exact .of_ok (fun _ => rfl) fun s t =>
      ((Touched.readB _ t immZext b).trans (.advancePorts (l := [a]) (by simp) _)).trans (.result ..)
  | vins h ty d a b =>
    cases hn
    exact .of_ok (fun _ => rfl) fun s t => ((Touched.readS _ t a).trans (.readB _ _ immZext b)).trans (.result ..)
  | _ => cases hr

/-! ## The effects of the request words and the flow words -/

/-- What a body comes to leaves the registers and memories as they were. -/
def Result.Keeps (s : State) (r : Result) : Prop := ∀ u, r = .ok u → Quiet s u

theorem Result.Keeps.ok {s u : State} (h : Quiet s u) : (Result.ok u).Keeps s := fun _ hu => by
  cases hu
  exact h

theorem Result.Keeps.fault (s : State) (t : TrapInfo) : (Result.fault t).Keeps s := fun _ hu => nomatch hu

theorem Result.Keeps.after {s t : State} {r : Result} (h : Quiet s t) (k : r.Keeps t) : r.Keeps s := fun u hu => h.trans (k u hu)

theorem Quiet.readS (s : State) (a : SSrc) : Quiet s (s.readS a).2 := (Touched.readS true s a).quiet

theorem Quiet.readAddr (s : State) (m : MemOp) : Quiet s (s.readAddr m).2 := (Touched.readAddr true s m).quiet

theorem Quiet.allocate (s : State) (r : TagRec) : Quiet s (s.allocate r) := .modBank ⟨rfl, rfl, rfl, rfl, rfl, rfl, rfl, rfl, rfl, rfl⟩

theorem Quiet.postHere (s : State) (min : Nat) (ev : Instr) : Quiet s (s.postHere min ev) := .of_cores rfl rfl rfl rfl rfl rfl

theorem Core.addAll_keeps {α : Type} {g : Core → α} (h : ∀ c a, g (Core.addAccess c a) = g c) (c : Core) (l : List (Nat → Access)) :
    g (c.addAll l) = g c := by
  rw [Core.addAll]
  exact foldl_keeps g (fun c' f => h c' (f c.accSeq)) l c

theorem Quiet.addAll (s : State) (l : List (Nat → Access)) : Quiet s (s.modCur (fun c => c.addAll l)) :=
  .modCur_of_banks (Core.addAll_keeps (g := Core.bank0) (fun _ _ => rfl) _ l) (Core.addAll_keeps (g := Core.bank1) (fun _ _ => rfl) _ l)
    (Core.addAll_keeps (g := Core.mem) (fun _ _ => rfl) _ l)

theorem Quiet.landLater (s : State) (t : BitVec 4) (dst : List RDst) (vals : List RVal) (min : Nat) : Quiet s (s.landLater t dst vals min) :=
  (Quiet.allocate s _).trans (.postHere _ min _)

theorem Quiet.lineAccess (s : State) (g : Seg) (a : Word) (op : AccOp) : Quiet s (s.lineAccess g a op) := .addAll s _

theorem Quiet.noteResolver (s : State) (n : Name) : Quiet s (s.noteResolver n) := by
  rw [State.noteResolver]
  split
  · exact .refl s
  · exact .of_cores rfl rfl rfl rfl rfl rfl

/-- A name that a core resolves enters its cache and its die's. -/
theorem Quiet.keepName (s : State) (n : Name) : Quiet s ((s.modCore s.focus.core (fun c => { c with names := cacheName 64 c.names n })).modDie
    (dieOf s.focus.core) (fun d => { d with names := cacheName 8192 d.names n })) :=
  (Quiet.modCur_of_banks (f := fun c => { c with names := cacheName 64 c.names n }) rfl rfl rfl).trans (.of_cores rfl rfl rfl rfl rfl rfl)

theorem Quiet.resolve (s : State) (n : Name) : Quiet s (s.resolve s.focus.core n).2.2 := by
  simp only [State.resolve]
  split
  · exact .refl s
  · split
    · exact .keepName s n
    · split
      · dsimp only
        split
        · exact .noteResolver s n
        · exact (Quiet.keepName s n).trans (.noteResolver _ n)
      · exact .refl s

theorem Quiet.resolveAs (s : State) (l : List (BitVec 8)) (n : Name) : Quiet s (s.resolveAs s.focus.core l n).2.2 := .resolve s n

theorem Quiet.loadMode {s s' : State} {o : LdMod} {a : Word} {first : Loc} {v : ViewMode} {lat : Nat}
    (h : s.loadMode o a first = .ok (v, lat, s')) : Quiet s s' := by
  cases o with
  | mmc m =>
    cases h
    exact .refl s
  | asof n =>
    have hres := Quiet.resolveAs s [Cls.patch] (s.bank.readN n)
    rw [State.loadMode] at h
    split at h
    · cases h
    · next lat' t heq =>
      rw [heq] at hres
      split at h
      · split at h
        · split at h
          · cases h
            exact hres
          · cases h
        · cases h
      · cases h

theorem Quiet.loadCheck {s s' : State} {a : Word} {n : Nat} {o : LdMod} {l : List Piece} {v : ViewMode} {lat : Nat}
    (h : s.loadCheck a n o = .ok (l, v, lat, s')) : Quiet s s' := by
  unfold State.loadCheck at h
  split at h
  · cases h
  · cases o with
    | mmc m | asof n =>
      dsimp only at h
      split at h
      · cases h
      · split at h
        · cases h
        · split at h
          · cases h
          · next hm =>
            cases h
            exact .loadMode hm

theorem Quiet.issueLoad (s : State) (l : List Piece) (a n : Nat) (mode : ViewMode) (m : Mmc) (asof : Bool) (r : TagRec) (active : Nat → Bool) :
    Quiet s (s.issueLoad l a n mode m asof r active) := by
  unfold State.issueLoad
  dsimp only
  generalize List.filter _ _ = units
  split
  · exact (Quiet.allocate s _).trans (.postHere _ _ _)
  · exact (Quiet.allocate s r).trans (.addAll _ _)

theorem Quiet.tagPort (s : State) (al : BitVec 4) (d : VDst) (bits : VecWord) : Quiet s (s.tagPort al d bits) := by
  cases d with
  | v r => exact .refl s
  | port o => exact .toPort (fun u l => .addLocal u _ l) s o 0 bits

theorem Quiet.retTag (s : State) (al : BitVec 4) (dst : List RDst) (ty : Fmt) (bits : VecWord) : Quiet s (s.retTag al dst ty bits) := by
  rw [State.retTag]
  split
  · exact .refl s
  · exact .allocate s _

/-- An atomic goes on its way to its home under the tag of its old value. -/
theorem Quiet.atomic (s : State) (al : BitVec 4) (dst : List RDst) (ty : Fmt) (bits : VecWord) (p : Piece) (a : Word) (n : Nat) (m : Mmc)
    (op : AccOp) : Quiet s ((s.retTag al dst ty bits).atomicAccess p a n m op) := (Quiet.retTag s al dst ty bits).trans (.addAll _ _)

theorem Result.Keeps.cellAtomic {s : State} {k : Rmw} {ty : Fmt} {a x cmp : Word} {m : Mmc} {al : BitVec 4} {dst : List RDst} :
    (s.cellAtomic k ty a x cmp m al dst).Keeps s := by
  rw [State.cellAtomic]
  split
  · exact .fault s _
  · split
    · exact .fault s _
    · split
      · exact .ok (.refl s)
      · split
        · exact .fault s _
        · exact .ok (.atomic ..)

theorem Result.Keeps.jump {s : State} {target : Word} {gap : Nat} : (s.jump target gap).Keeps s := by
  rw [State.jump]
  split
  · exact .fault s _
  · exact .ok (.modBank ⟨rfl, rfl, rfl, rfl, rfl, rfl, rfl, rfl, rfl, rfl⟩)

theorem Result.Keeps.fallThrough {s : State} : s.fallThrough.Keeps s := by
  rw [State.fallThrough]
  split
  · exact .fault s _
  · exact .ok (.refl s)

/-- A body with such effects. -/
theorem Runs.of_keeps {i : Instr} {n : Need} {body : State → State → Result} (he : ∀ s, exec i s = .next (s.issue n none (body s)))
    (h : ∀ s t, (body s t).Keeps t) : Runs i n Quiet := ⟨fun s => s.issue n none (body s), he, body, fun _ => rfl, h⟩

theorem atomicOp_runs {i : Instr} {k : Rmw} {h : Hdr} {ty : Fmt} {mm : MemOp} {c : SSrc} {o : Mmc} {al : BitVec 4}
    (he : ∀ s, exec i s = .next (atomicOp k h ty mm c o al s)) :
    Runs i ((Need.of h).addr mm |>.s c |>.tag al |>.globalMem) Quiet := by
  unfold atomicOp at he
  exact .of_keeps (body := fun _ t => ((t.readAddr mm).2.readS c).2.cellAtomic k ty (t.readAddr mm).1 ((t.readAddr mm).2.readS c).1 0 o al (retDst c))
    he fun s t => .after ((Quiet.readAddr t mm).trans (.readS _ c)) .cellAtomic

theorem requestOrFlowWord_runs {i : Instr} {n : Need} (hn : needOf i = some n) (hr : requestOrFlowWord i = true) : Runs i n Quiet := by
  cases i with
  | ldg h ty d mm o al =>
    cases hn
    refine .of_keeps (fun _ => rfl) fun s t => .after (.readAddr t mm) ?_
    dsimp only
    split
    · exact .fault _ _
    · next hl => exact .ok ((Quiet.loadCheck hl).trans (.issueLoad ..))
  | vldg h ty d mm o al =>
    cases hn
    refine .of_keeps (fun _ => rfl) fun s t => .after (.readAddr t mm) ?_
    dsimp only
    split
    · exact .fault _ _
    · split
      · exact .fault _ _
      · next hl => exact .ok (((Quiet.loadCheck hl).trans (.issueLoad ..)).trans (.tagPort ..))
  | prefg h mm l2 =>
    cases hn
    refine .of_keeps (fun _ => rfl) fun s t => .after (.readAddr t mm) ?_
    dsimp only
    split
    · exact .ok (.refl _)
    · split
      · exact .ok (.lineAccess ..)
      · exact .ok (.refl _)
  | cpin h d mm al =>
    cases hn
    refine .of_keeps (fun _ => rfl) fun s t => .after (.readAddr t mm) ?_
    dsimp only
    split
    · exact .ok (.landLater ..)
    · split
      · exact .fault _ _
      · split
        · exact .ok (.landLater ..)
        · exact .ok ((Quiet.allocate _ _).trans (.lineAccess ..))
  | cunpin h mm =>
    cases hn
    refine .of_keeps (fun _ => rfl) fun s t => .after (.readAddr t mm) ?_
    dsimp only
    split
    · exact .fault _ _
    · split
      · exact .ok (.refl _)
      · exact .ok (.lineAccess ..)
  | cwb h mm l2 | cinv h mm l2 =>
    cases hn
    refine .of_keeps (fun _ => rfl) fun s t => .after (.readAddr t mm) ?_
    dsimp only
    split
    · exact .ok (.refl _)
    · split
      · split
        · split
          · exact .ok (.lineAccess ..)
          · exact .fault _ _
        · exact .fault _ _
      · split
        · exact .ok (.refl _)
        · exact .ok (.lineAccess ..)
  | amin h ty mm c o al | amax h ty mm c o al | aand h ty mm c o al | aor h ty mm c o al | axor h ty mm c o al | axchg h ty mm c o al =>
    cases hn
    exact atomicOp_runs fun _ => rfl
  | acas h ty d mm c al =>
    cases hn
    exact .of_keeps (fun _ => rfl) fun s t => .after ((Quiet.readAddr t mm).trans (.readS _ c)) .cellAtomic
  | adcas h ty d a b c al | amove h ty d a b al =>
    cases hn
    refine .of_keeps (fun _ => rfl) fun s t => .after ((Quiet.readS t a).trans (.readS _ b)) ?_
    dsimp only
    split
    · exact .fault _ _
    · split
      · exact .fault _ _
      · split
        · exact .fault _ _
        · exact .fault _ _
        · exact .fault _ _
        · split
          · split
            · exact .fault _ _
            · split
              · exact .fault _ _
              · exact .ok (.atomic ..)
          · exact .fault _ _
          · exact .fault _ _
  | br h off =>
    cases hn
    exact .of_keeps (fun _ => rfl) fun s t => .jump
  | brc h ty a b k off =>
    cases hn
    refine .of_keeps (fun _ => rfl) fun s t => .after ((Quiet.readS t a).trans (.readS _ b)) ?_
    dsimp only
    split
    · exact .jump
    · exact .fallThrough
  | jmpi h a | ret h a =>
    cases hn
    exact .of_keeps (fun _ => rfl) fun s t => .after (.readS t a) .jump
  | call h d off =>
    cases hn
    exact .of_keeps (fun _ => rfl) fun s t => .after (Touched.result true ..).quiet .jump
  | loop h a off =>
    cases hn
    refine .of_keeps (fun _ => rfl) fun s t => ?_
    dsimp only
    split
    · exact .fault _ _
    · split
      · exact .after (Touched.result true ..).quiet .fallThrough
      · exact .after ((Touched.result true ..).quiet.trans (.modBank ⟨rfl, rfl, rfl, rfl, rfl, rfl, rfl, rfl, rfl, rfl⟩)) .jump
  | trap h code =>
    cases hn
    exact .of_keeps (fun _ => rfl) fun s t => .fault _ _
  | rett h =>
    cases hn
    refine .of_keeps (fun _ => rfl) fun s t => ?_
    split
    · exact .fault _ _
    · exact .after (.modBank ⟨rfl, rfl, rfl, rfl, rfl, rfl, rfl, rfl, rfl, rfl⟩) .jump
  | _ => cases hr

/-- The words whose meaning at their turn is more than one issue: EXIT delivers a held trap first, and BANKSAVE stops the bank that it saves. -/
def splitWord : Instr → Bool
  | .exit _ | .banksave _ _ _ => true
  | _ => false

/-- Every other word with needs is one issue (R55 to R62). -/
theorem exec_eq_issue {i : Instr} {n : Need} (hn : needOf i = some n) (hi : splitWord i = false) :
    ∃ body : State → State → Result, ∀ s, exec i s = .next (s.issue n none (body s)) := by
  cases hr : registerWord i with
  | true =>
    obtain ⟨f, he, body, hf, -⟩ := registerWord_runs hn hr
    exact ⟨body, fun s => by rw [he, hf]⟩
  | false =>
    cases i with
    | aadd h ty m c o al => cases o <;> cases hn <;> exact ⟨_, fun _ => rfl⟩
    | aradd h ty a off pair c o al | armax h ty a off pair c o al => cases hn; exact ⟨_, fun _ => rfl⟩
    | nnew h d f => cases f <;> cases hn <;> exact ⟨_, fun _ => rfl⟩
    | nmov h f => cases f <;> cases hn <;> exact ⟨_, fun _ => rfl⟩
    | ssig h k a => cases a <;> cases hn <;> exact ⟨_, fun _ => rfl⟩
    | exit h | banksave h bank m => cases hi
    | _ => cases hr <;> cases hn <;> exact ⟨_, fun _ => rfl⟩

/-! ## What a word comes to that does not take effect -/

/-- A word with needs whose turn has not come is one issue (R55 to R62). -/
theorem exec_of_not_go {i : Instr} {n : Need} {s : State} (hn : needOf i = some n) (hg : s.classify n none ≠ .go) :
    ∃ body, exec i s = .next (s.issue n none body) := by
  cases hi : splitWord i with
  | false =>
    obtain ⟨body, hb⟩ := exec_eq_issue hn hi
    exact ⟨body s, hb s⟩
  | true =>
    cases i with
    | exit h =>
      cases hn
      change ∃ body, execExit h s = .next (s.issue (Need.of h).ends none body)
      unfold execExit
      cases hc : s.classify (Need.of h).ends none with
      | go => exact absurd hc hg
      | _ =>
        simp only [hc]
        exact ⟨_, rfl⟩
    | banksave h bank m =>
      cases hn
      change ∃ body, execBanksave h bank m s = .next (s.issue ((Need.of h).addr m |>.privileged |>.globalMem) none body)
      unfold execBanksave
      cases hc : s.classify ((Need.of h).addr m |>.privileged |>.globalMem) none with
      | go => exact absurd hc hg
      | _ =>
        simp only [hc]
        exact ⟨_, rfl⟩
    | _ => cases hi

theorem exec_of_stall {i : Instr} {n : Need} {s : State} (hn : needOf i = some n) (h : s.classify n none = .stall) : exec i s = .next s := by
  obtain ⟨body, hb⟩ := exec_of_not_go (s := s) hn (by simp [h])
  rw [hb, State.issue_stall h]

theorem exec_of_ask {i : Instr} {n : Need} {s : State} {l : List (Fin 8)} (hn : needOf i = some n) (h : s.classify n none = .ask l) :
    exec i s = .next (s.modCur (fun c => { c with asks := l.map (fun p => (s.focus.bank, p)) })) := by
  obtain ⟨body, hb⟩ := exec_of_not_go (s := s) hn (by simp [h])
  rw [hb, State.issue_ask h]

theorem exec_of_fault {i : Instr} {n : Need} {s : State} {t : TrapInfo} (hn : needOf i = some n) (h : s.classify n none = .fault t) :
    exec i s = .next (s.trap (n.from t)) := by
  obtain ⟨body, hb⟩ := exec_of_not_go (s := s) hn (by simp [h])
  rw [hb, State.issue_fault h]

theorem exec_of_off {i : Instr} {n : Need} {s : State} (hn : needOf i = some n) (h : s.classify n none = .off) (hpc : s.bank.pc.toNat < 26213) :
    exec i s = .next (s.modBank (fun b => { b with pc := b.pc + 1, prevIssue := s.cycle, bound := s.cycle + 1 })) := by
  obtain ⟨body, hb⟩ := exec_of_not_go (s := s) hn (by simp [h])
  rw [hb, State.issue_off_next h hpc]

/-- A word guarded off at the last word address falls through past the store (R98). -/
theorem exec_of_off_last {i : Instr} {n : Need} {s : State} (hn : needOf i = some n) (h : s.classify n none = .off)
    (hpc : 26213 ≤ s.bank.pc.toNat) : exec i s = .next (s.trap (faultAt 0x01 (BitVec.ofNat 64 (s.bank.pc.toNat + 1)))) := by
  obtain ⟨body, hb⟩ := exec_of_not_go (s := s) hn (by simp [h])
  have hout : s.bank.pc.toNat + wordsOf none > lastWord := Nat.lt_succ_of_le hpc
  rw [hb, State.issue_off h, if_pos hout]
  rfl

end Sys2Proof.Machine

/-- Settles O51: before its turn every word with needs is one issue (`exec_of_not_go`). -/
theorem everyWordWaitsTrapsOrIsPassedOver : Obligations.EveryWordWaitsTrapsOrIsPassedOver := by
  unfold Obligations.EveryWordWaitsTrapsOrIsPassedOver
  exact fun i n s hn => ⟨exec_of_stall hn, fun l => exec_of_ask hn, fun t => exec_of_fault hn, exec_of_off hn, exec_of_off_last hn⟩
end

section
/-!
PROOF. Privilege, and transfers past the store.
-/
open Sys2Proof Sys2Proof.Machine

namespace Sys2Proof.Machine

/-! ## Privilege -/

@[simp] theorem Need.priv_s (n : Need) (x : SSrc) : (n.s x).priv = n.priv := by cases x <;> rfl

@[simp] theorem Need.priv_sb (n : Need) (b : SrcB) : (n.sb b).priv = n.priv := by
  cases b with
  | reg r => exact n.priv_s r
  | imm v => rfl

@[simp] theorem Need.priv_v (n : Need) (x : VSrc) : (n.v x).priv = n.priv := by cases x <;> rfl

@[simp] theorem Need.priv_vb (n : Need) (b : VSrcB) : (n.vb b).priv = n.priv := by
  cases b with
  | reg r => exact n.priv_v r
  | imm v => rfl

@[simp] theorem Need.priv_c (n : Need) (x : CSrc) : (n.c x).priv = n.priv := by cases x <;> rfl

@[simp] theorem Need.priv_m (n : Need) (x : MSrc) : (n.m x).priv = n.priv := by cases x <;> rfl

@[simp] theorem Need.priv_n (n : Need) (x : NSrc) : (n.n x).priv = n.priv := by cases x <;> rfl

@[simp] theorem Need.priv_p (n : Need) (x : PSrc) : (n.p x).priv = n.priv := by cases x <;> rfl

@[simp] theorem Need.priv_addr (n : Need) (m : MemOp) : (n.addr m).priv = n.priv := by
  cases m with
  | off a o => exact n.priv_s a
  | idx a b k => exact ((n.s a).priv_s b).trans (n.priv_s a)

@[simp] theorem Need.priv_ds (n : Need) (d : SDst) (lat : Nat) : (n.ds d lat).priv = n.priv := by cases d <;> rfl

@[simp] theorem Need.priv_dv (n : Need) (d : VDst) (lat : Nat) : (n.dv d lat).priv = n.priv := by cases d <;> rfl

@[simp] theorem Need.priv_dTag (n : Need) (d : SDst) (lat : Nat) : (n.dTag d lat).priv = n.priv := by cases d <;> rfl

@[simp] theorem Need.priv_dvTag (n : Need) (d : VDst) (lat : Nat) : (n.dvTag d lat).priv = n.priv := by cases d <;> rfl

@[simp] theorem Need.priv_ldMod (n : Need) (o : LdMod) : (n.ldMod o).priv = n.priv := by
  cases o with
  | mmc m => rfl
  | asof x => exact n.priv_n x

@[simp] theorem Need.priv_stDst (n : Need) (o : StDst) : (n.stDst o).priv = n.priv := by cases o <;> rfl

@[simp] theorem Need.priv_of (h : Hdr) : (Need.of h).priv = false := rfl

@[simp] theorem Need.priv_ofV (h : Hdr) : (Need.ofV h).priv = false := rfl

@[simp] theorem Need.priv_dc (n : Need) (d : Fin 8) (lat : Nat) : (n.dc d lat).priv = n.priv := rfl

@[simp] theorem Need.priv_dm (n : Need) (d : Fin 16) (lat : Nat) : (n.dm d lat).priv = n.priv := rfl

@[simp] theorem Need.priv_dcTag (n : Need) (d : Fin 8) (lat : Nat) : (n.dcTag d lat).priv = n.priv := rfl

@[simp] theorem Need.priv_dnTag (n : Need) (d : Fin 16) (lat : Nat) : (n.dnTag d lat).priv = n.priv := rfl

@[simp] theorem Need.priv_tag (n : Need) (al : BitVec 4) : (n.tag al).priv = n.priv := rfl

@[simp] theorem Need.priv_local (n : Need) : n.local.priv = n.priv := rfl

@[simp] theorem Need.priv_globalMem (n : Need) : n.globalMem.priv = n.priv := rfl

@[simp] theorem Need.priv_privileged (n : Need) : n.privileged.priv = true := rfl

@[simp] theorem Need.priv_div (n : Need) (x : Bool) : (n.div x).priv = n.priv := rfl

@[simp] theorem Need.priv_ends (n : Need) : n.ends.priv = n.priv := rfl

theorem rowNeed_priv (h : Hdr) (a : SSrc) (pair : Bool) (c : VSrc) (o : StDst) (al : BitVec 4) : (rowNeed h a pair c o al).priv = false := by
  cases c <;> cases pair <;> simp [rowNeed]

/-- The system words, and no others, need privilege (R330, R331). -/
theorem priv_eq_systemWord {i : Instr} {n : Need} (hn : needOf i = some n) : n.priv = systemWord i := by
  cases i with
  | aadd h ty m c o al => cases o <;> cases hn <;> simp [systemWord]
  | aradd h ty a off pair c o al | armax h ty a off pair c o al =>
    cases hn
    exact rowNeed_priv ..
  | nnew h d f => cases f <;> cases hn <;> simp [systemWord]
  | nmov h f => cases f <;> cases hn <;> simp [systemWord]
  | ssig h k a => cases a <;> cases hn <;> simp [systemWord]
  | _ => cases hn <;> simp [systemWord]

/-- A word of the control stream that allocates no tag and is none of the vector unit's. -/
def Need.plain (n : Need) : Prop := n.al = 0 ∧ n.vec = false

theorem Need.plain_of (h : Hdr) : (Need.of h).plain := ⟨rfl, rfl⟩

theorem Need.plain_s {n : Need} (h : n.plain) (x : SSrc) : (n.s x).plain := by cases x <;> exact h

theorem Need.plain_sb {n : Need} (h : n.plain) (b : SrcB) : (n.sb b).plain := by
  cases b with
  | reg r => exact plain_s h r
  | imm v => exact h

theorem Need.plain_n {n : Need} (h : n.plain) (x : NSrc) : (n.n x).plain := by cases x <;> exact h

theorem Need.plain_addr {n : Need} (h : n.plain) (m : MemOp) : (n.addr m).plain := by
  cases m with
  | off a o => exact plain_s h a
  | idx a b k => exact plain_s (plain_s h a) b

theorem plain_of_systemWord {i : Instr} {n : Need} (hn : needOf i = some n) (hi : systemWord i = true) : n.plain := by
  cases i with
  | banksw h | idle h | halt h =>
    cases hn
    exact Need.plain_of h
  | segld h m | banksave h bank m | bankload h bank m =>
    cases hn
    exact Need.plain_addr (Need.plain_of h) m
  | seginv h a =>
    cases hn
    exact Need.plain_s (Need.plain_of h) a
  | htlbinv h a b all | keybind h a b | biasflip h a b dev | partset h a b =>
    cases hn
    exact Need.plain_s (Need.plain_s (Need.plain_of h) a) b
  | ucload h a | quench h a now | qresume h a =>
    cases hn
    exact Need.plain_n (Need.plain_of h) a
  | ckpt h a b k =>
    cases hn
    exact Need.plain_s (Need.plain_n (Need.plain_of h) _) b
  | ckres h a =>
    cases hn
    exact Need.plain_n (Need.plain_of h) _
  | _ => cases hi

theorem firstFault_eq_none {α : Type} {f : α → Option TrapInfo} {l : List α} (h : ∀ x, x ∈ l → f x = none) : firstFault f l = none := by
  induction l with
  | nil => rfl
  | cons x l ih =>
    rw [firstFault, h x List.mem_cons_self]
    exact ih fun y hy => h y (List.mem_cons_of_mem x hy)

theorem Bank.tagPending_zero (b : Bank) : b.tagPending 0#4 = false := rfl

/-- A word that needs privilege in a bank without it faults once its turn has come and its guard holds. -/
theorem State.classify_of_unprivileged {s : State} {n : Need} (hpriv : n.priv = true) (hal : n.al = 0) (hb : s.bank.priv = false)
    (htime : s.bank.earliest n none ≤ s.cycle) (htag : s.bank.tagWait n none = false) (hpc : s.bank.pc.toNat < 26213)
    (hguard : ∀ x, s.bank.guardReg n = some x → s.locked x.2 = false ∧ s.bank.windowRead s.cycle x.1 x.2 = none)
    (hholds : s.bank.guardHolds n = true) : s.classify n none = .fault (fault 0x04) := by
  have hin : ¬ s.bank.pc.toNat + wordsOf none > lastWord := Nat.not_lt.mpr hpc
  have hlocked : (s.bank.guardReg n).toList.any (fun x => s.locked x.2) = false :=
    List.any_eq_false.mpr fun x hx => by simp [(hguard x (Option.mem_toList.mp hx)).1]
  have hread : firstFault (fun x => s.bank.windowRead s.cycle x.1 x.2) (s.bank.guardReg n).toList = none :=
    firstFault_eq_none fun x hx => (hguard x (Option.mem_toList.mp hx)).2
  simp [State.classify, Nat.not_lt.mpr htime, htag, hin, hlocked, hread, hholds, hpriv, hal, hb, Bank.tagPending_zero]

/-! ## Transfers past the store -/

theorem State.jump_past {target : Word} (h : 26213 < target.toNat) (gap : Nat) (t : State) :
    t.jump target gap = .fault (faultAt 0x01 target) := if_pos h

theorem State.fallThrough_past {t : State} {pc : BitVec 15} (hpc : t.bank.pc = pc) (h : 26213 < (pc.setWidth 64).toNat) :
    t.fallThrough = .fault (faultAt 0x01 (pc.setWidth 64)) := by
  subst hpc
  rw [BitVec.toNat_setWidth_of_le (by decide)] at h
  exact if_pos h

/-- A word outside the vector unit whose body finds a bad address traps with it. -/
theorem exec_of_badAddress {i : Instr} {n : Need} {s : State} {body : State → Result} {a : Word}
    (he : exec i s = .next (s.issue n none body)) (hg : s.classify n none = .go) (hv : n.vec = false)
    (hb : body (s.advance n none) = .fault (faultAt 0x01 a)) : exec i s = .next (s.trap (faultAt 0x01 a)) := by
  have hcode : (0x01 : BitVec 8) ≠ 0x0A := by decide
  rw [he, State.issue_go_fault hg hb, Need.from_eq_self hv hcode]

/-- The fall-through past the last word is found before the guard (R98). -/
theorem State.classify_of_past {s : State} {n : Need} (hf : n.falls = true) (htime : s.bank.earliest n none ≤ s.cycle)
    (htag : s.bank.tagWait n none = false) (hpc : 26213 ≤ s.bank.pc.toNat) : s.classify n none = .fault (fallFault s.bank none) := by
  have hout : s.bank.pc.toNat + wordsOf none > lastWord := Nat.lt_succ_of_le hpc
  simp [State.classify, Nat.not_lt.mpr htime, htag, hf, hout]

theorem State.pc_readS (s : State) (a : SSrc) : (s.readS a).2.bank.pc = s.bank.pc := by
  cases a with
  | bq q =>
    change (s.modBank _).bank.pc = _
    rw [State.bank_modBank]
  | _ => rfl

theorem State.pc_resultS (s : State) (d : SDst) (w : Word) (lat : Nat) (f : FlagSet) (pc : BitVec 15) :
    (s.resultS d w lat f pc).bank.pc = s.bank.pc := by
  rw [State.resultS, State.result, State.bank_modBank]

theorem Need.vec_s (n : Need) (x : SSrc) : (n.s x).vec = n.vec := by cases x <;> rfl

theorem Need.vec_ds (n : Need) (d : SDst) (lat : Nat) : (n.ds d lat).vec = n.vec := by cases d <;> rfl

end Sys2Proof.Machine

/-- Settles O52: only the system words need privilege (`priv_eq_systemWord`), and the checks before it pass. -/
theorem systemWordsNeedPrivilege : Obligations.SystemWordsNeedPrivilege := by
  unfold Obligations.SystemWordsNeedPrivilege
  refine fun i n s hn => ⟨priv_eq_systemWord hn, fun hi hb htime htag hpc hguard hholds => ?_⟩
  have hpriv : n.priv = true := (priv_eq_systemWord hn).trans hi
  obtain ⟨hal, hvec⟩ := plain_of_systemWord hn hi
  rw [exec_of_fault hn (State.classify_of_unprivileged hpriv hal hb htime htag hpc hguard hholds), Need.from_eq_self hvec (by decide)]

/-- Settles O55: a transfer finds its bad address in its body; a fall-through is found before the guard. -/
theorem transfersPastTheStoreTrap : Obligations.TransfersPastTheStoreTrap := by
  unfold Obligations.TransfersPastTheStoreTrap
  intro h ty d a b r k off target past bad holds after
  have vec1 (a : SSrc) : (Need.s (Need.of h) a).ends.vec = false := Need.vec_s _ a
  have vec2 : ((Need.of h).s a |>.s b).ends.vec = false := (Need.vec_s _ b).trans (Need.vec_s _ a)
  refine ⟨?_, ?_, ?_, ?_, ?_, ?_, ?_, ?_, ?_, fun i n s hn hf htime htag hpc => exec_of_fault hn (State.classify_of_past hf htime htag hpc)⟩
  · intro n s hn hg _ hp
    cases hn
    exact exec_of_badAddress rfl hg rfl (State.jump_past hp 3 _)
  · intro n s hn hg hc hp
    cases hn
    exact exec_of_badAddress rfl hg vec2 ((if_pos hc).trans (State.jump_past hp 3 _))
  · intro n s hn hg hc hp
    cases hn
    exact exec_of_badAddress rfl hg vec2 ((if_neg (Bool.eq_false_iff.mp hc)).trans
      (State.fallThrough_past ((State.pc_readS _ b).trans (State.pc_readS _ a)) hp))
  · intro n s hn hg _ hp
    cases hn
    exact exec_of_badAddress rfl hg (vec1 a) (State.jump_past hp 3 _)
  · intro n s hn hg _ hp
    cases hn
    exact exec_of_badAddress rfl hg (vec1 a) (State.jump_past hp 3 _)
  · intro n s hn hg _ hp
    cases hn
    exact exec_of_badAddress rfl hg (Need.vec_ds _ d 1) (State.jump_past hp 3 _)
  · intro n s hn hg hc hp
    cases hn
    obtain ⟨hr, hs⟩ := hc
    exact exec_of_badAddress rfl hg rfl ((if_neg hr).trans ((if_neg (sub_ne_zero.mpr hs)).trans (State.jump_past hp _ _)))
  · intro n s hn hg hc hp
    cases hn
    obtain ⟨hr, hs⟩ := hc
    exact exec_of_badAddress rfl hg rfl ((if_neg hr).trans ((if_pos (sub_eq_zero.mpr hs)).trans
      (State.fallThrough_past (State.pc_resultS ..) hp)))
  · intro n s hn hg ha hp
    cases hn
    exact exec_of_badAddress rfl hg rfl ((if_neg (by simp [ha])).trans (State.jump_past hp 3 _))
end

section
/-!
PROOF. The frame of the words that store nothing, and of the local stores.
-/
open Sys2Proof Sys2Proof.Machine

namespace Sys2Proof.Machine

/-! ## The frame of these words -/

theorem Touched.advance (s : State) (n : Need) : Touched n.mem s (s.advance n none) := by
  rw [State.advance]
  cases hm : n.mem with
  | true => exact .of_mem rfl ((Quiet.passFence s).trans (.modBank ⟨rfl, rfl, rfl, rfl, rfl, rfl, rfl, rfl, rfl, rfl⟩))
  | false => exact .modBank rfl

theorem Quiet.issue {s : State} {n : Need} {body : State → Result} (hb : ∀ t u, body t = .ok u → Quiet t u) : Quiet s (s.issue n none body) := by
  rcases s.issue_cases n none body with h | ⟨l, h⟩ | ⟨t, h⟩ | h | ⟨-, h⟩
  · rw [h]
    exact .refl s
  · rw [h]
    exact .modCur_of_banks rfl rfl rfl
  · rw [h]
    exact .trap s t
  · rw [h]
    exact .modBank ⟨rfl, rfl, rfl, rfl, rfl, rfl, rfl, rfl, rfl, rfl⟩
  · exact (Touched.advance s n).quiet.trans (hb _ _ h)

theorem quiet_of_runs {i : Instr} {n : Need} {s t : State} (hr : Runs i n Quiet) (he : exec i s = .next t) : Quiet s t := by
  obtain ⟨f, hf, body, hbody, hq⟩ := hr
  rw [hf, hbody] at he
  cases he
  exact .issue (hq s)

theorem Runs.quiet {i : Instr} {n : Need} {mem : Bool} (h : Runs i n (Touched mem)) : Runs i n Quiet := by
  obtain ⟨f, hf, body, hbody, hq⟩ := h
  exact ⟨f, hf, body, hbody, fun s t u hu => (hq s t u hu).quiet⟩

/-- What a register word without a memory access comes to at its turn. -/
theorem trap_or_bankOnly {i : Instr} {n : Need} {s t : State} (hr : Runs i n (Touched n.mem)) (hm : n.mem = false)
    (hg : s.classify n none = .go) (he : exec i s = .next t) : (∃ f, t = s.trap f) ∨ BankOnly s t := by
  obtain ⟨f, hf, body, hbody, hq⟩ := hr
  rw [hf, hbody] at he
  cases he
  cases hb : body s (s.advance n none) with
  | stall =>
    rw [State.issue_go_stall hg hb]
    exact .inr (.refl s)
  | fault t =>
    rw [State.issue_go_fault hg hb]
    exact .inl ⟨_, rfl⟩
  | ok u =>
    rw [State.issue_go_ok hg hb]
    exact .inr (((Touched.advance s n).trans (hq _ _ _ hb)).bankOnly hm)

/-! ## Local stores that set out -/

/-- Two states agree on the accesses of the acting core's stream, their numbers, and the cycle. -/
structure SameAccs (s t : State) : Prop where
  laccs : t.cur.laccs = s.cur.laccs
  accSeq : t.cur.accSeq = s.cur.accSeq
  cycle : t.cycle = s.cycle

theorem SameAccs.refl (s : State) : SameAccs s s := ⟨rfl, rfl, rfl⟩

theorem SameAccs.trans {s t u : State} (h : SameAccs s t) (k : SameAccs t u) : SameAccs s u :=
  ⟨k.laccs.trans h.laccs, k.accSeq.trans h.accSeq, k.cycle.trans h.cycle⟩

theorem SameAccs.modCur {s : State} {f : Core → Core} (hl : (f s.cur).laccs = s.cur.laccs) (ha : (f s.cur).accSeq = s.cur.accSeq) :
    SameAccs s (s.modCur f) := by
  refine ⟨?_, ?_, rfl⟩
  · rw [State.cur_modCur]
    exact hl
  · rw [State.cur_modCur]
    exact ha

theorem SameAccs.modBank (s : State) (f : Bank → Bank) : SameAccs s (s.modBank f) :=
  .modCur (f := fun c => c.setBank s.focus.bank (f s.bank)) (Core.setBank_laccs _ _ _) (Core.setBank_accSeq _ _ _)

theorem SameAccs.foldl {α : Type} {g : State → α → State} (h : ∀ s a, SameAccs s (g s a)) (l : List α) (s : State) :
    SameAccs s (l.foldl g s) := by
  induction l generalizing s with
  | nil => exact .refl s
  | cons a l ih => exact (h s a).trans (ih (g s a))

theorem SameAccs.readS (s : State) (a : SSrc) : SameAccs s (s.readS a).2 := by
  cases a with
  | bq q => exact .modBank s (fun b => { b with bq := b.bq.set q s.bank.bq[q].tail })
  | _ => exact .refl s

theorem SameAccs.readAddr (s : State) (m : MemOp) : SameAccs s (s.readAddr m).2 := by
  cases m with
  | off a o => exact .readS s a
  | idx a b k => exact (SameAccs.readS s a).trans (.readS _ b)

theorem SameAccs.advancePorts (s : State) (l : List VSrc) : SameAccs s (s.advancePorts l) := by
  refine .foldl (fun u i => ?_) _ s
  rw [State.advancePort]
  split
  · exact .refl u
  · next p _ =>
    refine (SameAccs.foldl (fun u x => ?_) p.missing u).trans (.modBank _ _)
    have htake : ∀ c : Core, (c.take (portGrant x.2.1)).laccs = c.laccs ∧ (c.take (portGrant x.2.1)).accSeq = c.accSeq := fun c => by
      rw [Core.take]
      split <;> exact ⟨rfl, rfl⟩
    obtain ⟨hl, ha⟩ := htake u.cur
    exact .modCur ((Core.modBank_laccs _ _ _).trans hl) ((Core.modBank_accSeq _ _ _).trans ha)

/-- A change of cores that leaves the accesses of each. -/
theorem SameAccs.of_cores {s t : State} (hf : t.focus = s.focus)
    (hc : ∀ j, (t.core j).laccs = (s.core j).laccs ∧ (t.core j).accSeq = (s.core j).accSeq) (hy : t.cycle = s.cycle) : SameAccs s t := by
  refine ⟨?_, ?_, hy⟩
  · rw [State.cur, hf]
    exact (hc _).1
  · rw [State.cur, hf]
    exact (hc _).2

theorem SameAccs.bumpPts (s : State) (i : Nat) (v : BitVec 16) : SameAccs s (s.bumpPts i v) := by
  refine .of_cores ?_ (fun j => ?_) (State.cycle_bumpPts s i v)
  · rw [State.bumpPts, State.setPts]
    split <;> rfl
  · rw [State.bumpPts, State.core_setPts]
    split
    · next h =>
      rw [h]
      exact ⟨rfl, rfl⟩
    · exact ⟨rfl, rfl⟩

theorem SameAccs.modBankAt (s : State) (i : Nat) (b : Bool) (f : Bank → Bank) : SameAccs s (s.modBankAt i b f) := by
  refine .of_cores rfl (fun j => ?_) rfl
  rcases eq_or_ne i j with rfl | h
  · rw [State.modBankAt, State.core_modCore]
    exact ⟨Core.modBank_laccs _ _ _, Core.modBank_accSeq _ _ _⟩
  · rw [State.modBankAt, State.core_modCore_ne _ _ _ _ h]
    exact ⟨rfl, rfl⟩

theorem SameAccs.passFence (s : State) : SameAccs s s.passFence := by
  rw [State.passFence, State.endFence]
  split
  · exact .refl s
  · split
    · exact .refl s
    · exact (SameAccs.foldl (fun u x => .bumpPts u _ _) _ s).trans (.modBankAt _ _ _ _)

theorem SameAccs.advance (s : State) (n : Need) : SameAccs s (s.advance n none) := by
  rw [State.advance]
  cases n.mem with
  | true => exact (SameAccs.passFence s).trans (.modBank _ _)
  | false => exact .modBank s _

theorem laccs_trap (s : State) (t : TrapInfo) : (s.trap t).cur.laccs = s.cur.laccs := by rw [State.cur_trap, Core.setBank_laccs]

/-- The access that a store of the acting stream becomes, or none where it has no byte (R187). -/
theorem laccs_sendStore (s : State) (l : List LMove) : (s.sendStore l).cur.laccs = s.cur.laccs
    ∨ (s.sendStore l).cur.laccs = s.cur.laccs
      ++ [{ LAcc.storeAt s.cycle with no := s.cur.accSeq, bank := s.focus.bank, pieces := sectorPieces l }] := by
  have hcur : (s.sendStore l).cur = s.cur.addLocal s.focus.bank (.storeAt s.cycle) l := State.cur_modCur _ _
  rw [hcur, Core.addLocal]
  split
  · exact .inl rfl
  · refine .inr ?_
    dsimp only [Core.touchBytes]
    rw [Core.modBank_laccs, Core.modBank_accSeq]

/-- What the body of a local store comes to: its bytes set out from a state that differs only in what its operands and ports have changed. -/
def SendsOnly (body : State → Result) (moves : State → List LMove) : Prop :=
  ∀ t u, body t = .ok u → ∃ v, Quiet t v ∧ SameAccs t v ∧ u = v.sendStore (moves t)

/-- What a local store leaves unchanged, and the one access that it may add (R187). -/
structure StoreFrame (s t : State) (n : Need) (moves : State → List LMove) : Prop where
  quiet : Quiet s t
  trap : (∃ f, t = s.trap f) → t.cur.laccs = s.cur.laccs
  access : t.cur.laccs = s.cur.laccs ∨ (s.classify n none = .go ∧ t.cur.laccs = s.cur.laccs ++ [{ LAcc.storeAt s.cycle with
    no := s.cur.accSeq, bank := s.focus.bank, pieces := sectorPieces (moves (s.advance n none)) }])

theorem storeFrame_issue {s : State} {n : Need} {body : State → Result} {moves : State → List LMove} (hb : SendsOnly body moves) :
    StoreFrame s (s.issue n none body) n moves := by
  have hquiet : Quiet s (s.issue n none body) := .issue fun t u hu => by
    obtain ⟨v, hv, -, rfl⟩ := hb t u hu
    exact hv.trans (.addLocal v _ _)
  refine ⟨hquiet, fun ⟨f, hf⟩ => hf ▸ laccs_trap s f, ?_⟩
  rcases s.issue_cases n none body with h | ⟨l, h⟩ | ⟨t, h⟩ | h | ⟨hg, h⟩
  · exact .inl (by rw [h])
  · exact .inl (by rw [h, State.cur_modCur])
  · exact .inl (by rw [h, laccs_trap])
  · exact .inl (by rw [h, (SameAccs.modBank s _).laccs])
  · obtain ⟨v, hv, ha, hu⟩ := hb _ _ h
    have hsame := (SameAccs.advance s n).trans ha
    have hfocus : v.focus = s.focus := hv.focus.trans (Touched.advance s n).quiet.focus
    rw [hu]
    refine (laccs_sendStore v _).imp (fun hl => by rw [hl, hsame.laccs]) fun hl => ⟨hg, ?_⟩
    rw [hl, hsame.laccs, hsame.accSeq, hsame.cycle, hfocus]

theorem storeFrame_of_exec {i : Instr} {n : Need} {s t : State} {body : State → Result} {moves : State → List LMove}
    (he : exec i s = .next (s.issue n none body)) (hb : SendsOnly body moves) (ht : exec i s = .next t) : StoreFrame s t n moves := by
  rw [he] at ht
  cases ht
  exact storeFrame_issue hb

/-! ## Sectors -/

/-- The bytes of a piece lie in one sector. -/
def OneSector (p : List LMove) : Prop := ∀ x, x ∈ p → ∀ y, y ∈ p → y.addr / 32 = x.addr / 32

theorem mem_flatten_addMove (m x : LMove) (ps : List (List LMove)) : x ∈ (addMove m ps).flatten ↔ x = m ∨ x ∈ ps.flatten := by
  induction ps with
  | nil => simp [addMove]
  | cons p r ih =>
    rw [addMove]
    split
    · simp only [List.flatten_cons, List.mem_append, List.mem_singleton]
      tauto
    · simp only [List.flatten_cons, List.mem_append, ih]
      tauto

theorem oneSector_addMove {m : LMove} {ps : List (List LMove)} (h : ∀ p, p ∈ ps → OneSector p) : ∀ p, p ∈ addMove m ps → OneSector p := by
  induction ps with
  | nil =>
    intro p hp
    simp only [addMove, List.mem_singleton] at hp
    subst hp
    intro x hx y hy
    rw [List.mem_singleton.mp hx, List.mem_singleton.mp hy]
  | cons p r ih =>
    have hp := h p List.mem_cons_self
    have hr := ih fun q hq => h q (List.mem_cons_of_mem p hq)
    rw [addMove]
    split
    · next hany =>
      obtain ⟨z, hz, hzm⟩ := List.any_eq_true.mp hany
      have hsame : ∀ x, x ∈ p ++ [m] → x.addr / 32 = m.addr / 32 := fun x hx => by
        rcases List.mem_append.mp hx with hx | hx
        · exact (hp z hz x hx).trans (beq_iff_eq.mp hzm)
        · rw [List.mem_singleton.mp hx]
      intro q hq
      rcases List.mem_cons.mp hq with rfl | hq
      · exact fun x hx y hy => (hsame y hy).trans (hsame x hx).symm
      · exact h q (List.mem_cons_of_mem p hq)
    · intro q hq
      rcases List.mem_cons.mp hq with rfl | hq
      · exact hp
      · exact hr q hq

theorem mem_flatten_foldl_addMove (x : LMove) (l : List LMove) (ps : List (List LMove)) :
    x ∈ (l.foldl (fun ps m => addMove m ps) ps).flatten ↔ x ∈ l ∨ x ∈ ps.flatten := by
  induction l generalizing ps with
  | nil => simp
  | cons m l ih =>
    rw [List.foldl_cons, ih, mem_flatten_addMove, List.mem_cons]
    tauto

theorem mem_flatten_sectorPieces (l : List LMove) (x : LMove) : x ∈ (sectorPieces l).flatten ↔ x ∈ l := by
  rw [sectorPieces, mem_flatten_foldl_addMove]
  simp

theorem oneSector_sectorPieces (l : List LMove) : ∀ p, p ∈ sectorPieces l → OneSector p :=
  List.foldlRecOn l (fun ps m => addMove m ps) (motive := fun ps => ∀ p, p ∈ ps → OneSector p) (fun _ hp => nomatch hp)
    fun _ hps _ _ => oneSector_addMove hps

/-! ## A sector's bytes reach the memory -/

theorem Memory.wf_writeMoves {mem : List Host.Cell} (p : List LMove) (h : Memory.wf mem = true) : Memory.wf (writeMoves mem p) = true :=
  List.foldlRecOn p (fun mem m => m.write mem) (motive := fun m => Memory.wf m = true) h fun _ hm _ _ => Memory.wf_write _ _ hm

theorem read_writeMoves_of_not_mem (mem : List Host.Cell) {p : List LMove} {j : Nat} (h : ∀ m, m ∈ p → m.addr ≠ j) :
    Memory.read (writeMoves mem p) j = Memory.read mem j := by
  induction p generalizing mem with
  | nil => rfl
  | cons m p ih =>
    change Memory.read (writeMoves (m.write mem) p) j = _
    rw [ih _ fun y hy => h y (List.mem_cons_of_mem m hy), LMove.write, Memory.read_write_other _ _ _ _ (h m List.mem_cons_self)]

/-- A byte that is written once last keeps its unmarked bits and takes the marked ones; an earlier write to it matters only to the bits that
are not marked. -/
theorem read_writeMoves_of_last {mem : List Host.Cell} (hw : Memory.wf mem = true) {l r : List LMove} {m : LMove}
    (hr : ∀ y, y ∈ r → y.addr ≠ m.addr) (hl : ∀ y, y ∈ l → y.addr = m.addr → m.mask = 0xFF) :
    Memory.read (writeMoves mem (l ++ m :: r)) m.addr = (Memory.read mem m.addr &&& ~~~m.mask) ||| (m.val &&& m.mask) := by
  have hsplit : writeMoves mem (l ++ m :: r) = writeMoves (m.write (writeMoves mem l)) r := List.foldl_append
  have hwrite : Memory.read (m.write (writeMoves mem l)) m.addr
      = (Memory.read (writeMoves mem l) m.addr &&& ~~~m.mask) ||| (m.val &&& m.mask) :=
    Memory.read_write_self (lo := 0) _ _ (Memory.wf_writeMoves l hw)
  rw [hsplit, read_writeMoves_of_not_mem _ hr, hwrite]
  by_cases hmask : m.mask = 0xFF
  · have hnone : ∀ y : Byte, y &&& ~~~m.mask = 0 := fun y => by
      rw [hmask]
      exact BitVec.and_zero
    rw [hnone, hnone]
  · rw [read_writeMoves_of_not_mem _ fun y hy hya => hmask (hl y hy hya)]

/-- A store's sector that has its memory bank. -/
theorem State.core_performSector_store {x : LAcc} (hx : x.store = true) (s : State) (core : Nat) (p : List LMove) :
    (s.performSector core x p).core core
      = { ((s.core core).take (x.grant p)).dropPiece x.no p with mem := writeMoves (s.core core).mem p } := by
  have hmem : (((s.core core).take (x.grant p)).dropPiece x.no p).mem = (s.core core).mem := by
    rw [Core.take]
    split <;> rfl
  rw [State.performSector, if_pos hx, State.core_modCore, State.core_modCore, hmem]

end Sys2Proof.Machine

/-- Settles O56: every such word is one issue whose body keeps registers and memories (`registerWord_runs`, `requestOrFlowWord_runs`). -/
theorem wordsThatStoreNothingKeepTheRest : Obligations.WordsThatStoreNothingKeepTheRest := by
  unfold Obligations.WordsThatStoreNothingKeepTheRest
  intro i n s t hn he hword b c
  have hq : Quiet s t := by
    rcases hword with hr | hr
    · exact quiet_of_runs (registerWord_runs hn hr).quiet he
    · exact quiet_of_runs (requestOrFlowWord_runs hn hr) he
  obtain ⟨hfocus, ⟨hs, hv, hm, hc, hnn, hh, hp, haq, hsegs, histore⟩, hother, hmem, hcores, hhbm, hhost, hslices⟩ := hq
  refine ⟨⟨hs, hv, hm, hc, hnn, hh, hp, haq, hsegs, histore⟩, ⟨hmem, hhbm, hhost, hslices⟩, ?_, hcores, fun hr hmem hg => ?_⟩
  · rw [State.cur, State.cur, hfocus] at hother
    exact hother
  · exact (trap_or_bankOnly (registerWord_runs hn hr) hmem hg he).imp id fun hb => ⟨hb.state, hb.core, hb.bank⟩

/-- Settles O57: a store word adds at most one access (`storeFrame_issue`); its sectors hold its bytes and write them. -/
theorem storesWriteOnlyTheirBytes : Obligations.StoresWriteOnlyTheirBytes := by
  unfold Obligations.StoresWriteOnlyTheirBytes
  refine ⟨fun h ty mm a c v w k s t => ?_, fun l m => ⟨mem_flatten_sectorPieces l m, fun p hp hm y hy => oneSector_sectorPieces l p hp m hm y hy⟩,
    fun s core x p hx => ?_⟩
  · intro at_ keeps only
    have only_of {i : Instr} {moves : State → List LMove}
        (hf : ∀ n, needOf i = some n → exec i s = .next t → StoreFrame s t n moves) : only i moves := fun n hn he => by
      obtain ⟨hq, htrap, hacc⟩ := hf n hn he
      exact ⟨⟨hq.regs.s, hq.regs.v, hq.regs.m, hq.regs.c, hq.regs.n, hq.regs.istore, hq.cores, hq.mem, hq.hbm, hq.hostMem, hq.slices⟩, htrap,
        hacc⟩
    refine ⟨?_, ?_, ?_⟩
    · refine only_of (moves := fun u => storeMoves (at_ u) 0 (leBytes (ty.width / 8) ((u.readAddr mm).2.readS c).1.toNat)
        ((leBytes (ty.width / 8) ((u.readAddr mm).2.readS c).1.toNat).map (fun _ => 0xFF))) fun n hn he => ?_
      cases hn
      refine storeFrame_of_exec rfl (fun u x hx => ?_) he
      dsimp only at hx
      split at hx
      · cases hx
      · cases hx
        exact ⟨_, (Quiet.readAddr u mm).trans (.readS _ c), (SameAccs.readAddr u mm).trans (.readS _ c), rfl⟩
    · refine only_of (moves := fun u => storeMoves (at_ u) 0 (vecBytes (u.vec ty v))
        (vecBytes (laneBits ty.width (Fmt.lanes ty) (fun i => (u.bank.guardMask h).getLsbD i)))) fun n hn he => ?_
      cases hn
      refine storeFrame_of_exec rfl (fun u x hx => ?_) he
      dsimp only at hx
      split at hx
      · cases hx
      · cases hx
        exact ⟨_, (Quiet.readAddr u mm).trans (Touched.advancePorts (mem := true) (fun _ => rfl) _).quiet,
          (SameAccs.readAddr u mm).trans (.advancePorts _ [v]), rfl⟩
    · refine only_of (moves := fun u => scatterMoves ((gatherType ty).width / 8) (laneOf (gatherType ty).width (u.vec (gatherType ty) w))
        (gatherAddrs (gatherType ty) (u.readS a).1 (u.vec (gatherType ty) v) k.val (u.bank.guardMask h))) fun n hn he => ?_
      cases hn
      refine storeFrame_of_exec rfl (fun u x hx => ?_) he
      dsimp only at hx
      split at hx
      · cases hx
      · cases hx
        exact ⟨_, (Quiet.readS u a).trans (Touched.advancePorts (mem := true) (fun _ => rfl) _).quiet,
          (SameAccs.readS u a).trans (.advancePorts _ [v, w]), rfl⟩
  · intro u before after
    have hcore := State.core_performSector_store hx s core p
    have hafter : after = Memory.read (writeMoves (s.core core).mem p) := congrArg (fun c => Memory.read c.mem) hcore
    have hbanks : (((s.core core).take (x.grant p)).dropPiece x.no p).bank0 = (s.core core).bank0
        ∧ (((s.core core).take (x.grant p)).dropPiece x.no p).bank1 = (s.core core).bank1 := by
      rw [Core.take]
      split <;> exact ⟨rfl, rfl⟩
    refine ⟨fun hw => ⟨fun j hj => ?_, fun l m r hp hr hl => ?_⟩, ?_, ?_, ?_, fun j hj => ?_⟩
    · rw [hafter]
      exact read_writeMoves_of_not_mem _ hj
    · rw [hafter, hp]
      exact read_writeMoves_of_last hw hr hl
    · rw [hcore]
      exact hbanks.1
    · rw [hcore]
      exact hbanks.2
    · change ({ s.performSector core x p with cores := s.cores } : State) = s
      rw [State.performSector, if_pos hx]
      rfl
    · change (s.performSector core x p).core j = _
      rw [State.performSector, if_pos hx, State.core_modCore_ne _ _ _ _ (Ne.symm hj), State.core_modCore_ne _ _ _ _ (Ne.symm hj)]
end

section
/-!
PROOF. Words that the manual writes out, and what reset leaves.
-/
open Sys2Proof Sys2Proof.Machine

namespace Sys2Proof.Machine

theorem State.bankAt_reset (core : Nat) (bank : Bool) : State.reset.bankAt core bank = Bank.reset := by cases bank <;> rfl

end Sys2Proof.Machine

/-- Settles O47: each word is decoded by evaluation. -/
theorem specWordsDecode : Obligations.SpecWordsDecode := by
  unfold Obligations.SpecWordsDecode
  refine ⟨by decide, by decide, by decide, by decide, by decide, by decide, by decide, by decide, by decide, by decide, by decide, by decide,
    by decide, by decide, by decide, by decide, by decide, by decide, by decide, by decide, by decide, by decide, by decide, by decide, by decide⟩

/-- Settles O50: every core and bank stands as the blank ones (`State.bankAt_reset`). -/
theorem resetLeavesTheStatedValues : Obligations.ResetLeavesTheStatedValues := by
  unfold Obligations.ResetLeavesTheStatedValues
  refine ⟨fun core bank => ⟨?_, ?_, ?_, ?_, rfl, fun k => ?_, fun k => ?_⟩, fun d => ?_, rfl, rfl, rfl, rfl, rfl, rfl, rfl, fun k => ?_,
    fun k => ?_, rfl⟩
  · have hbank : (State.reset.core core).bank bank = Bank.reset := State.bankAt_reset core bank
    simp only [List.forall_mem_cons, List.not_mem_nil, false_implies, implies_true, and_true, State.csr, hbank]
    exact ⟨rfl, rfl, rfl, rfl, rfl, rfl, rfl, rfl, rfl, rfl, rfl, rfl, rfl, rfl, rfl, rfl, rfl, rfl, rfl, rfl, rfl, rfl⟩
  · cases bank <;> rfl
  · cases bank <;> rfl
  · cases bank <;> rfl
  · rw [State.bankAt_reset]
    exact Vector.getElem_replicate _
  · rw [State.bankAt_reset]
    exact Vector.getElem_replicate _
  · exact congrArg Die.part (Vector.getElem_ofFn _)
  · exact Vector.getElem_replicate _
  · exact Vector.getElem_replicate _
end

section
/-!
PROOF. Which agent acts in a step, and that it answers.
-/
open Sys2Proof Sys2Proof.Machine

namespace Sys2Proof.Machine

theorem State.pick_of_ne_nil {l : List Agent} (h : l ≠ []) (s : State) : ∃ a u, s.pick l = some (a, u) ∧ a ∈ l ∧ (u = s ∨ u = s.tick) := by
  match l, h with
  | [a], _ => exact ⟨a, s, rfl, List.mem_singleton.mpr rfl, .inl rfl⟩
  | a :: b :: l, _ =>
    refine ⟨_, s.tick, rfl, ?_, .inr rfl⟩
    have hlt : Config.choice s.free % ((b :: l).length + 1) < (a :: b :: l).length := Nat.mod_lt _ (Nat.succ_pos _)
    rw [List.getD_eq_getElem _ _ hlt]
    exact List.getElem_mem hlt

/-- Where some agent can act, one of those that can is chosen. -/
theorem State.chosen_of_ne_nil {s : State} (h : s.turns ≠ []) : ∃ a u, s.chosen = some (a, u) ∧ a ∈ s.turns ∧ (u = s ∨ u = s.tick) := by
  cases hl : s.turns.filter lands with
  | nil =>
    obtain ⟨a, u, hp, hmem, hu⟩ := s.pick_of_ne_nil h
    exact ⟨a, u, by simp only [State.chosen, hl, hp], hmem, hu⟩
  | cons x r =>
    obtain ⟨a, u, hp, hmem, hu⟩ := s.pick_of_ne_nil (l := x :: r) (by simp)
    have hin : a ∈ s.turns := List.mem_of_mem_filter (hl ▸ hmem)
    exact ⟨a, u, by simp only [State.chosen, hl, hp], hin, hu⟩

/-- Where one agent is all that can act, it acts. -/
theorem step_of_turns_singleton {s : State} {a : Agent} (h : s.turns = [a]) (ha : a.core < 2048) : step s = s.act a := by
  have hchosen : s.chosen = some (a, s) := by
    cases hl : lands a <;> simp [State.chosen, h, hl, State.pick]
  simp only [step, hchosen, if_neg (Nat.not_le.mpr ha)]

theorem step_of_turns_nil {s : State} (h : s.turns = []) : step s = .next (if s.ticksDue then s.tickAll else s.endCycle) := by
  have hchosen : s.chosen = none := by simp [State.chosen, h, State.pick]
  simp only [step, hchosen]

theorem step_of_turns_ne_nil {s : State} (h : s.turns ≠ []) : ∃ a u, a ∈ s.turns ∧ (u = s ∨ u = s.tick) ∧
    step s = if a.core ≥ 2048 then .fault (.noSuchCore a.core) else u.act a := by
  obtain ⟨a, u, hc, hmem, hu⟩ := State.chosen_of_ne_nil h
  exact ⟨a, u, hmem, hu, by simp only [step, hc]⟩

/-- A runnable active bank in which nothing is due takes its turn with the word at its pc. -/
theorem State.streamTurn_of_quiet {s : State} {core : Nat} {c : Core} {bank : Bool} (ha : c.active = bank) (ht : c.tried = false)
    (hr : (c.bank bank).runnable = true) (harith : (c.bank bank).arith = [])
    (himp : (c.bank bank).imps = [] ∨ (c.bank bank).trap.act = true)
    (hclaim : (c.bank !bank).switchClaim = false ∨ (c.bank !bank).runnable = false) :
    s.streamTurn core c = [.stream core bank (c.bank bank).instr] := by
  subst ha
  have hdue : ((c.bank c.active).arithDue.isSome || (!(c.bank c.active).imps.isEmpty && !(c.bank c.active).trap.act)) = false := by
    rcases himp with h | h <;> simp [Bank.arithDue, harith, h]
  have hno : ((c.bank !c.active).switchClaim && (c.bank !c.active).runnable) = false := by
    rcases hclaim with h | h <;> simp [h]
  simp [State.streamTurn, hr, ht, hdue, hno]

theorem State.engineTurn_of_cur {s : State} {core : Nat} {c : Core} {e : Eng} {n : Entry} (ht : (c.engine e).tried = false)
    (hf : (c.engine e).frozen = false) (hc : (c.engine e).cur = some n) (hh : c.engHeld e = false) (hd : n.done = false) :
    s.engineTurn core c e = [.engine core n.bank e (c.engInstr e n)] := by
  simp [State.engineTurn, ht, hf, hc, hh, hd]

theorem State.turns_fetchStream (w : Word80) : (State.reset.fetchStream w).turns = [.stream 0 false (decode80 w)] := by
  rfl

theorem exists_next_ite {p : Prop} [Decidable p] {x y : Out} (hx : ∃ t, x = .next t) (hy : ∃ t, y = .next t) :
    ∃ t, (if p then x else y) = .next t := by
  split
  · exact hx
  · exact hy

/-- No instruction is refused, and none faults the machine: every fault of R332 is taken inside it. -/
theorem exec_next (i : Instr) (s : State) : ∃ t, exec i s = .next t := by
  cases i with
  | signalAck err k operand =>
    exact exists_next_ite ⟨_, rfl⟩ ⟨_, rfl⟩
  | coherenceData line core grant data =>
    exact exists_next_ite ⟨_, rfl⟩ ⟨_, rfl⟩
  | configWrite off v =>
    change ∃ t, execConfigWrite off v s = .next t
    unfold execConfigWrite
    repeat' refine exists_next_ite ?_ ?_
    all_goals exact ⟨_, rfl⟩
  | _ => exact ⟨_, rfl⟩

theorem State.act_next (s : State) (a : Agent) : ∃ t, s.act a = .next t := by
  cases a with
  | stream core bank i => exact exec_next i _
  | engine core bank e i => exact exec_next i _
  | flight f => exact exec_next f.ev _
  | input x i =>
    change ∃ t, (if external i then exec i _ else .next _) = .next t
    split
    · exact exec_next i _
    · exact ⟨_, rfl⟩
  | _ => exact ⟨_, rfl⟩

end Sys2Proof.Machine

/-- Settles O48: the one agent that can act is chosen (`step_of_turns_singleton`), and a quiet bank takes its turn with its word. -/
theorem aStepRunsTheDecodedWord : Obligations.AStepRunsTheDecodedWord := by
  unfold Obligations.AStepRunsTheDecodedWord
  refine ⟨fun s core bank i hc ht => step_of_turns_singleton ht hc, fun s core bank => ?_, fun s core bank e i hc ht => step_of_turns_singleton ht hc,
    fun s core c e n => State.engineTurn_of_cur, fun s => step_of_turns_ne_nil, fun s => step_of_turns_nil, fun w => ?_⟩
  · intro c b hc hturns ha ht hr harith himp hclaim
    rw [State.streamTurn_of_quiet ha ht hr harith himp hclaim] at hturns
    exact step_of_turns_singleton hturns hc
  · have hturns : (State.reset.withFetchWord 80 w.toNat).turns = [.stream 0 false (decode80 w)] := by
      change (State.reset.fetchStream (BitVec.ofNat 80 w.toNat)).turns = _
      rw [BitVec.ofNat_toNat, BitVec.setWidth_eq, State.turns_fetchStream]
    exact step_of_turns_singleton hturns (Nat.zero_lt_succ 2047)

/-- Settles O49: every arm answers a next state (`exec_next`), and a step runs an agent of its turns. -/
theorem everyStepAnswers : Obligations.EveryStepAnswers := by
  unfold Obligations.EveryStepAnswers
  refine ⟨exec_next, fun s hcores => ?_, fun s f hf => ?_⟩
  · by_cases h : s.turns = []
    · exact ⟨_, step_of_turns_nil h⟩
    · obtain ⟨a, u, hmem, -, hstep⟩ := step_of_turns_ne_nil h
      rw [hstep, if_neg (Nat.not_le.mpr (hcores a hmem))]
      exact u.act_next a
  · by_cases h : s.turns = []
    · rw [step_of_turns_nil h] at hf
      cases hf
    · obtain ⟨a, u, hmem, -, hstep⟩ := step_of_turns_ne_nil h
      rw [hstep] at hf
      split at hf
      · next hcore =>
        cases hf
        exact ⟨a, hmem, hcore, rfl⟩
      · obtain ⟨t, ht⟩ := u.act_next a
        rw [ht] at hf
        cases hf
end

section
/-!
PROOF. Every step keeps every memory canonical: one lemma for each function of the model that answers a state, a core, a slice or a
result. A function whose writes leave the memories alone keeps them by definition (its lemma is `hs`); the memories change only through
`Memory.write`, which keeps the canonical form.
-/
open Sys2Proof Sys2Proof.Machine

namespace Sys2Proof.Machine

/-! ## The invariant, in the parts of the state that it reads -/

/-- A core whose local memory is in its canonical form. -/
def Core.Canon (c : Core) : Prop := Memory.wf c.mem = true

/-- A slice whose staging memory is in its canonical form. -/
def Slice.Canon (x : Slice) : Prop := Memory.wf x.staging = true

/-- `State.memWf` on the parts of the state that it reads. -/
structure Canonical (hbm hostMem lqSlots : List Host.Cell) (cores : Sparse Core) (blank : Core) (slices : Sparse Slice)
  (blankSlice : Slice) : Prop where
  hbm : Memory.wf hbm = true
  hostMem : Memory.wf hostMem = true
  lqSlots : Memory.wf lqSlots = true
  cores : ∀ p ∈ cores, p.2.Canon
  blank : blank.Canon
  slices : ∀ p ∈ slices, p.2.Canon
  blankSlice : blankSlice.Canon

/-- `State.memWf` as a proposition that a change of any other field leaves as it is, by definition. -/
def State.Canon (s : State) : Prop := Canonical s.hbm s.hostMem s.lqSlots s.cores s.blank s.slices s.blankSlice

theorem State.memWf_iff (s : State) : s.memWf = true ↔ s.Canon := by
  simp only [State.memWf, Bool.and_eq_true, List.all_eq_true]
  constructor
  · rintro ⟨⟨⟨⟨⟨⟨h1, h2⟩, h3⟩, h4⟩, h5⟩, h6⟩, h7⟩
    exact ⟨h1, h2, h3, h4, h5, h6, h7⟩
  · rintro ⟨h1, h2, h3, h4, h5, h6, h7⟩
    exact ⟨⟨⟨⟨⟨⟨h1, h2⟩, h3⟩, h4⟩, h5⟩, h6⟩, h7⟩

/-- What an instruction of a control stream comes to, where it goes on, is canonical. -/
def Result.Canon : Result → Prop
  | .ok s => s.Canon
  | _ => True

/-- What an engine word comes to, where it leaves a state, is canonical. -/
def EngResult.Canon : EngResult → Prop
  | .faultIn _ s | .ok _ s | .jump _ s | .more _ _ s => s.Canon
  | _ => True

/-- A step that answers a state answers a canonical one. -/
def OutCanon : Out → Prop
  | .next s => s.Canon
  | _ => True

/-! ## Sparse maps -/

theorem Sparse.forall_put {α : Type} {P : α → Prop} {m : Sparse α} {k : Nat} {x : α} (h : ∀ p ∈ m, P p.2) (hx : P x) :
    ∀ p ∈ Sparse.put m k x, P p.2 := by
  induction m with
  | nil =>
    intro p hp
    rw [List.mem_singleton.mp hp]
    exact hx
  | cons q r ih =>
    obtain ⟨hq, hr⟩ := List.forall_mem_cons.mp h
    simp only [Sparse.put]
    split
    · exact List.forall_mem_cons.mpr ⟨hx, h⟩
    · split
      · exact List.forall_mem_cons.mpr ⟨hx, hr⟩
      · exact List.forall_mem_cons.mpr ⟨hq, ih hr⟩

theorem Sparse.of_find {α : Type} {P : α → Prop} {m : Sparse α} {k : Nat} {x : α} (h : ∀ p ∈ m, P p.2) (hf : Sparse.find m k = some x) :
    P x := by
  induction m with
  | nil => exact nomatch hf
  | cons q r ih =>
    obtain ⟨hq, hr⟩ := List.forall_mem_cons.mp h
    simp only [Sparse.find] at hf
    split at hf
    · exact Option.some.inj hf ▸ hq
    · exact ih hr hf

theorem Sparse.of_getD {α : Type} {P : α → Prop} {m : Sparse α} {k : Nat} {d : α} (h : ∀ p ∈ m, P p.2) (hd : P d) :
    P ((Sparse.find m k).getD d) := by
  cases hf : Sparse.find m k with
  | none => exact hd
  | some x => exact Sparse.of_find h hf

theorem Sparse.forall_mapVals {α : Type} {P : α → Prop} {m : Sparse α} {f : α → α} (h : ∀ p ∈ m, P p.2) (hf : ∀ x, P x → P (f x)) :
    ∀ p ∈ Sparse.mapVals f m, P p.2 := by
  intro p hp
  obtain ⟨q, hq, rfl⟩ := List.mem_map.mp hp
  exact hf q.2 (h q hq)

namespace State.Canon

variable {s : State}

/-! ## Reading and replacing cores and slices -/

theorem core {i : Nat} (h : s.Canon) : (s.core i).Canon := Sparse.of_getD h.cores h.blank

theorem cur (h : s.Canon) : s.cur.Canon := h.core

theorem slice {die sl : Nat} (h : s.Canon) : (s.slice die sl).Canon := Sparse.of_getD h.slices h.blankSlice

theorem setCore {i : Nat} {c : Core} (h : s.Canon) (hc : c.Canon) :
    (s.setCore i c).Canon := { h with cores := Sparse.forall_put h.cores hc }

theorem modCore {i : Nat} {f : Core → Core} (h : s.Canon) (hf : ∀ c, c.Canon → (f c).Canon) :
    (s.modCore i f).Canon := h.setCore (hf _ h.core)

theorem modCur {f : Core → Core} (h : s.Canon) (hf : ∀ c, c.Canon → (f c).Canon) : (s.modCur f).Canon := h.modCore hf

theorem modSlice {die sl : Nat} {f : Slice → Slice} (h : s.Canon) (hf : ∀ x, x.Canon → (f x).Canon) : (s.modSlice die sl f).Canon :=
  { h with slices := Sparse.forall_put h.slices (hf _ h.slice) }

theorem mapCores {f : Core → Core} (h : s.Canon) (hf : ∀ c, c.Canon → (f c).Canon) :
    State.Canon { s with cores := Sparse.mapVals f s.cores } :=
  { h with cores := Sparse.forall_mapVals h.cores hf }

theorem mapSlices {f : Slice → Slice} (h : s.Canon) (hf : ∀ x, x.Canon → (f x).Canon) :
    State.Canon { s with slices := Sparse.mapVals f s.slices } :=
  { h with slices := Sparse.forall_mapVals h.slices hf }

theorem foldl {α : Type} {l : List α} {f : State → α → State} (h : s.Canon) (hf : ∀ s x, s.Canon → (f s x).Canon) :
    (l.foldl f s).Canon := by
  induction l generalizing s with
  | nil => exact h
  | cons x r ih => exact ih (hf s x h)

end State.Canon

/-! ## Taking results apart -/

theorem State.Canon.fst_of_eq {α : Type} {p : State × α} {s : State} {x : α} (h : p.1.Canon) (e : p = (s, x)) : s.Canon := by
  subst e
  exact h

theorem State.Canon.snd_of_eq {α : Type} {p : α × State} {s : State} {x : α} (h : p.2.Canon) (e : p = (x, s)) : s.Canon := by
  subst e
  exact h

theorem State.Canon.snd_snd_of_eq {α β : Type} {p : α × β × State} {s : State} {x : α} {y : β} (h : p.2.2.Canon) (e : p = (x, y, s)) :
    s.Canon := by
  subst e
  exact h

theorem Result.Canon.of_ok {r : Result} {s : State} (h : r.Canon) (e : r = .ok s) : s.Canon := by
  subst e
  exact h

theorem EngResult.Canon.of_faultIn {r : EngResult} {t : TrapInfo} {s : State} (h : r.Canon) (e : r = .faultIn t s) : s.Canon := by
  subst e
  exact h

theorem EngResult.Canon.of_ok {r : EngResult} {n : Entry} {s : State} (h : r.Canon) (e : r = .ok n s) : s.Canon := by
  subst e
  exact h

theorem EngResult.Canon.of_jump {r : EngResult} {n : Entry} {s : State} (h : r.Canon) (e : r = .jump n s) : s.Canon := by
  subst e
  exact h

theorem EngResult.Canon.of_more {r : EngResult} {src : List (Nat × List Byte)} {want : List (Nat × Nat)} {s : State} (h : r.Canon)
    (e : r = .more src want s) : s.Canon := by
  subst e
  exact h

theorem OutCanon.of_next {o : Out} {s : State} (h : OutCanon o) (e : o = .next s) : s.Canon := by
  subst e
  exact h

/-! ## Folds -/

theorem Core.Canon.foldl {α : Type} {l : List α} {f : Core → α → Core} {c : Core} (h : c.Canon) (hf : ∀ c x, c.Canon → (f c x).Canon) :
    (l.foldl f c).Canon := by
  induction l generalizing c with
  | nil => exact h
  | cons x r ih => exact ih (hf c x h)

theorem State.Canon.foldl_snd {α β : Type} {l : List α} {f : β × State → α → β × State} {p : β × State} (h : p.2.Canon)
    (hf : ∀ p x, p.2.Canon → (f p x).2.Canon) : (l.foldl f p).2.Canon := by
  induction l generalizing p with
  | nil => exact h
  | cons x r ih => exact ih (hf p x h)

theorem State.Canon.foldl_fst {α β : Type} {l : List α} {f : State × β → α → State × β} {p : State × β} (h : p.1.Canon)
    (hf : ∀ p x, p.1.Canon → (f p x).1.Canon) : (l.foldl f p).1.Canon := by
  induction l generalizing p with
  | nil => exact h
  | cons x r ih => exact ih (hf p x h)

theorem Memory.wf_writeRuns {m : List Host.Cell} (l : List (Nat × List Byte)) (h : Memory.wf m = true) :
    Memory.wf (l.foldl (fun m x => Memory.writeBytes m x.1 x.2) m) = true := by
  induction l generalizing m with
  | nil => exact h
  | cons x r ih => exact ih (Memory.wf_writeBytes x.1 x.2 h)

/-! ## Choices -/

theorem State.Canon.ite {c : Prop} [Decidable c] {s t : State} (hs : s.Canon) (ht : t.Canon) : (if c then s else t).Canon := by
  split
  · exact hs
  · exact ht

theorem Result.Canon.ite {c : Prop} [Decidable c] {r q : Result} (hr : r.Canon) (hq : q.Canon) : (if c then r else q).Canon := by
  split
  · exact hr
  · exact hq

theorem EngResult.Canon.ite {c : Prop} [Decidable c] {r q : EngResult} (hr : r.Canon) (hq : q.Canon) : (if c then r else q).Canon := by
  split
  · exact hr
  · exact hq

theorem OutCanon.ite {c : Prop} [Decidable c] {o p : Out} (ho : OutCanon o) (hp : OutCanon p) : OutCanon (if c then o else p) := by
  split
  · exact ho
  · exact hp

theorem Result.Canon.ok {s : State} (hs : s.Canon) : (Result.ok s).Canon := hs

theorem Core.Canon.ite {p : Prop} [Decidable p] {c d : Core} (hc : c.Canon) (hd : d.Canon) : (if p then c else d).Canon := by
  split
  · exact hc
  · exact hd

theorem Slice.Canon.ite {p : Prop} [Decidable p] {x y : Slice} (hx : x.Canon) (hy : y.Canon) : (if p then x else y).Canon := by
  split
  · exact hx
  · exact hy

variable {s : State}

/-! ## The state -/

theorem Core.Canon.reset : Core.reset.Canon := rfl

theorem Slice.Canon.reset : Slice.reset.Canon := rfl

theorem State.Canon.reset : State.reset.Canon :=
  { hbm := rfl
    hostMem := rfl
    lqSlots := rfl
    cores := fun _ h => nomatch h
    blank := .reset
    slices := fun _ h => nomatch h
    blankSlice := .reset }

/-! ## Logs, traps, posted events and banks -/

theorem Core.Canon.setBank {c : Core} {b : Bool} {x : Bank} (hc : c.Canon) : (c.setBank b x).Canon :=
  .ite hc hc

theorem Core.Canon.modBank {c : Core} {b : Bool} {f : Bank → Bank} (hc : c.Canon) : (c.modBank b f).Canon :=
  hc.setBank

theorem State.Canon.setBank {b : Bank} (hs : s.Canon) : (s.setBank b).Canon :=
  hs.modCur fun _ hc => hc.setBank

theorem State.Canon.modBank {f : Bank → Bank} (hs : s.Canon) : (s.modBank f).Canon :=
  hs.setBank

theorem State.Canon.modBankAt {i : Nat} {b : Bool} {f : Bank → Bank} (hs : s.Canon) : (s.modBankAt i b f).Canon :=
  hs.modCore fun _ hc => hc.modBank

theorem State.Canon.modDie {d : Nat} {f : Die → Die} (hs : s.Canon) : (s.modDie d f).Canon :=
  hs

theorem State.Canon.modJob {id : Nat} {f : Job → Job} (hs : s.Canon) : (s.modJob id f).Canon :=
  hs

theorem State.Canon.tick (hs : s.Canon) : s.tick.Canon :=
  hs

theorem State.Canon.post {min : Nat} {chan : Option (Nat × Nat × Nat)} {core : Nat} {bank : Bool} {eng : Option Eng} {ev : Instr}
    (hs : s.Canon) : (s.post min chan core bank eng ev).Canon :=
  hs

theorem State.Canon.postAt {due core : Nat} {bank : Bool} {eng : Option Eng} {ev : Instr} (hs : s.Canon) :
    (s.postAt due core bank eng ev).Canon :=
  hs

theorem State.Canon.postIn {units core : Nat} {bank : Bool} {eng : Option Eng} {ev : Instr} (hs : s.Canon) :
    (s.postIn units core bank eng ev).Canon :=
  hs

theorem State.Canon.postHere {min : Nat} {ev : Instr} (hs : s.Canon) : (s.postHere min ev).Canon :=
  hs.post

theorem State.Canon.setPts {i : Nat} {v : BitVec 16} (hs : s.Canon) : (s.setPts i v).Canon := by
  have h := hs.modCore (i := i) (f := fun c => { c with pts := v }) fun c hc => hc
  unfold State.setPts
  dsimp only
  split <;> exact h

theorem State.Canon.bumpPts {i : Nat} {v : BitVec 16} (hs : s.Canon) : (s.bumpPts i v).Canon :=
  hs.setPts

theorem State.Canon.addLog {r : LogRec} (hs : s.Canon) : (s.addLog r).Canon :=
  .ite hs hs

theorem State.Canon.logHere {code : BitVec 8} {addr : Word} {keyid : BitVec 7} (hs : s.Canon) : (s.logHere code addr keyid).Canon :=
  hs.addLog

theorem State.Canon.logNobody {code : BitVec 8} {addr : Word} {jobtag : BitVec 16} (hs : s.Canon) : (s.logNobody code addr jobtag).Canon :=
  hs.addLog

theorem State.Canon.afterTrap (hs : s.Canon) : s.afterTrap.Canon := by
  unfold State.afterTrap
  refine .ite ?_ hs
  split
  · exact hs
  · exact hs.modJob.postHere

theorem State.Canon.trap {t : TrapInfo} (hs : s.Canon) : (s.trap t).Canon :=
  .afterTrap (.modBank (.ite hs.logHere hs))

theorem State.Canon.holdTrap {core : Nat} {bank : Bool} {t : TrapInfo} (hs : s.Canon) : (s.holdTrap core bank t).Canon :=
  hs.modBankAt

theorem State.Canon.mergeFlags {core : Nat} {bank : Bool} {f : FlagSet} {src : BitVec 4} {detail : BitVec 16} {upc : BitVec 12}
    (hs : s.Canon) : (s.mergeFlags core bank f src detail upc).Canon :=
  hs.modBankAt

theorem State.Canon.deliverImprecise (hs : s.Canon) : s.deliverImprecise.Canon := by
  unfold State.deliverImprecise
  split
  · exact hs
  · exact .ite hs hs.modBank.modBank.afterTrap

theorem State.Canon.deliverArithmetic (hs : s.Canon) : s.deliverArithmetic.Canon := by
  unfold State.deliverArithmetic
  split
  · exact hs
  · exact hs.modBank.modBank.afterTrap

theorem Core.Canon.touch {c : Core} {bank : Bool} {a n : Nat} (hc : c.Canon) : (c.touch bank a n).Canon :=
  hc.modBank

theorem Core.Canon.touchBytes {c : Core} {bank : Bool} {l : List Nat} (hc : c.Canon) : (c.touchBytes bank l).Canon :=
  hc.modBank

theorem Core.Canon.storeLocal {c : Core} {bank : Bool} {a : Nat} {bs : List Byte} (hc : c.Canon) : (c.storeLocal bank a bs).Canon :=
  Memory.wf_writeBytes a bs hc.touch

theorem Core.Canon.take {c : Core} {g : Grant} (hc : c.Canon) : (c.take g).Canon :=
  .ite hc hc

theorem Core.Canon.takeAll {c d : Core} {l : List Grant} (hc : c.Canon) (e : c.takeAll l = some d) : d.Canon := by
  induction l generalizing c with
  | nil => exact Option.some.inj e ▸ hc
  | cons g r ih =>
    unfold Core.takeAll at e
    split at e
    · exact ih hc.take e
    · exact nomatch e

theorem Core.Canon.addLocal {c : Core} {bank : Bool} {x : LAcc} {l : List LMove} (hc : c.Canon) : (c.addLocal bank x l).Canon :=
  .ite hc hc.touchBytes

theorem Core.Canon.dropPiece {c : Core} {no : Nat} {p : List LMove} (hc : c.Canon) : (c.dropPiece no p).Canon :=
  hc

theorem State.Canon.touchLocal {a n : Nat} (hs : s.Canon) : (s.touchLocal a n).Canon :=
  hs.modCur fun _ hc => hc.touch

theorem State.Canon.sendStore {l : List LMove} (hs : s.Canon) : (s.sendStore l).Canon :=
  hs.modCur fun _ hc => hc.addLocal

theorem State.Canon.storeLocal {a : Nat} {bs : List Byte} (hs : s.Canon) : (s.storeLocal a bs).Canon :=
  hs.sendStore

theorem State.Canon.sendTagStore {t : BitVec 4} {l : List LMove} (hs : s.Canon) : (s.sendTagStore t l).Canon :=
  hs.modCur fun _ hc => hc.addLocal

theorem Core.Canon.setSem {c : Core} {k : BitVec 8} {v : BitVec 16} (hc : c.Canon) : (c.setSem k v).Canon :=
  hc

theorem Core.Canon.incSem {c d : Core} {k : BitVec 8} {pts : BitVec 16} {acq : Bool} (hc : c.Canon) (e : c.incSem k pts acq = some d) :
    d.Canon := by
  unfold Core.incSem at e
  split at e
  · exact nomatch e
  · exact Option.some.inj e ▸ hc

theorem Core.Canon.wakeOwners {c : Core} {k : BitVec 8} (hc : c.Canon) : (c.wakeOwners k).Canon :=
  hc

theorem State.Canon.incSem {core : Nat} {k : BitVec 8} {pts : BitVec 16} {tell : Nat × Bool} {t : TrapInfo} (hs : s.Canon) :
    (s.incSem core k pts tell t).Canon := by
  unfold State.incSem
  split
  · exact hs.setCore (hs.core.incSem ‹_›).wakeOwners
  · exact hs.holdTrap

theorem Core.Canon.takeSem {c : Core} {k : BitVec 8} (hc : c.Canon) : (c.takeSem k).1.Canon :=
  hc

/-! ## Operands and results -/

theorem State.Canon.popBq {q : Fin 4} (hs : s.Canon) : (s.popBq q).2.Canon :=
  hs.modBank

theorem State.Canon.readS {x : SSrc} (hs : s.Canon) : (s.readS x).2.Canon := by
  unfold State.readS
  split
  · exact hs
  · exact hs.popBq
  all_goals exact hs

theorem State.Canon.readB {imm : BitVec 16 → Word} {x : SrcB} (hs : s.Canon) : (s.readB imm x).2.Canon := by
  unfold State.readB
  split
  · exact hs.readS
  · exact hs

theorem State.Canon.readAddr {x : MemOp} (hs : s.Canon) : (s.readAddr x).2.Canon := by
  unfold State.readAddr
  split
  · split
    · exact hs.readS.snd_of_eq ‹_›
  · split
    · split
      · exact (hs.readS.snd_of_eq ‹_›).readS.snd_of_eq ‹_›

theorem State.Canon.advancePort {i : Fin 12} (hs : s.Canon) : (s.advancePort i).Canon := by
  unfold State.advancePort
  split
  · exact hs
  dsimp only
  exact .modBank (hs.foldl (fun s1 x hs1 => hs1.modCur (fun c hc => hc.take.touch)))

theorem State.Canon.storeMasked {a : Nat} {v m : List Byte} (hs : s.Canon) : (s.storeMasked a v m).Canon :=
  hs.sendStore

theorem State.Canon.toPort {o : Fin 4} {v m : VecWord} {send : State → List LMove → State} (hs : s.Canon)
    (hsend : ∀ t x1, t.Canon → (send t x1).Canon) : (s.toPort o v m send).Canon := by
  unfold State.toPort
  dsimp only
  split
  · exact hs
  · exact (hsend _ _ hs).modBank

theorem State.Canon.storePort {o : Fin 4} {v m : VecWord} (hs : s.Canon) : (s.storePort o v m).Canon :=
  hs.toPort fun _ _ ht => ht.sendStore

theorem State.Canon.advancePorts {l : List VSrc} (hs : s.Canon) : (s.advancePorts l).Canon :=
  hs.foldl fun _ _ hs1 => hs1.advancePort

/-! ## Issue -/

theorem State.Canon.endFence {core : Nat} {bank : Bool} (hs : s.Canon) : (s.endFence core bank).Canon := by
  unfold State.endFence
  split
  · exact hs
  · exact .ite hs (.modBankAt (hs.foldl (fun s1 x hs1 => hs1.bumpPts)))

theorem State.Canon.passFence (hs : s.Canon) : s.passFence.Canon :=
  hs.endFence

theorem State.Canon.advance {n : Need} {m : Option XmPair} (hs : s.Canon) : (s.advance n m).Canon :=
  .modBank (.ite hs.passFence hs)

theorem State.Canon.issue {n : Need} {m : Option XmPair} {body : State → Result} (hs : s.Canon) (hbody : ∀ t, t.Canon → (body t).Canon) :
    (s.issue n m body).Canon := by
  unfold State.issue
  split
  · exact hs
  · exact hs.modCur fun c hc => hc
  · exact .ite hs.trap hs.modBank
  · exact hs.trap
  · split
    · exact hs
    · exact hs.trap
    · exact (hbody _ hs.advance).of_ok ‹_›

theorem State.Canon.result {d : Option RDst} {x : RVal} {lat : Nat} {f : FlagSet} {pc : BitVec 15} {vec : Bool} (hs : s.Canon) :
    (s.result d x lat f pc vec).Canon :=
  hs.modBank

theorem State.Canon.resultS {d : SDst} {w : Word} {lat : Nat} {f : FlagSet} {pc : BitVec 15} (hs : s.Canon) :
    (s.resultS d w lat f pc).Canon :=
  hs.result

theorem State.Canon.resultLocked {r : RDst} {x : RVal} {lat : Nat} (hs : s.Canon) : (s.resultLocked r x lat).Canon :=
  hs.modBank

theorem State.Canon.resultV {d : VDst} {w bits : VecWord} {lat : Nat} {f : FlagSet} {pc : BitVec 15} (hs : s.Canon) :
    (s.resultV d w bits lat f pc).Canon := by
  unfold State.resultV
  split
  · exact hs.result
  · exact hs.storePort.result

theorem State.Canon.allocate {r : TagRec} (hs : s.Canon) : (s.allocate r).Canon :=
  hs.modBank

theorem State.Canon.resultTagged {t : BitVec 4} {d : RDst} {x : RVal} {lat : Nat} (hs : s.Canon) : (s.resultTagged t d x lat).Canon :=
  hs.allocate.modBank

theorem State.Canon.landLater {t : BitVec 4} {dst : List RDst} {vals : List RVal} {min : Nat} (hs : s.Canon) :
    (s.landLater t dst vals min).Canon :=
  hs.allocate.postHere

theorem State.Canon.loadLocal {r : TagRec} {lat : Nat} {exact : Bool} {l : List LMove} (hs : s.Canon) : (s.loadLocal r lat exact l).Canon :=
  .ite hs.allocate.postAt (hs.allocate.modCur (fun _ hc => hc.addLocal))

/-! ## The scalar words -/

theorem State.Canon.intOp {f : Fmt → Int → Int → Int} {sats : Int → Bool} {lat : Nat} {divider : Bool} {m : Option XmPair} {h : Hdr}
    {ty : Fmt} {d : SDst} {a : SSrc} {b : SrcB} (hs : s.Canon) : (intOp f sats lat divider m h ty d a b s).Canon :=
  hs.issue fun _ ht => .resultS (.ite ht.readS.readB.modBank ht.readS.readB)

theorem State.Canon.bitOp {f : Word → Word → Word} {h : Hdr} {d : SDst} {a : SSrc} {b : SrcB} (hs : s.Canon) : (bitOp f h d a b s).Canon :=
  hs.issue fun _ ht => ht.readS.readB.resultS

theorem State.Canon.bitOp1 {f : Word → Word} {h : Hdr} {d : SDst} {a : SSrc} (hs : s.Canon) : (bitOp1 f h d a s).Canon :=
  hs.issue fun _ ht => ht.readS.resultS

theorem State.Canon.execSel {h : Hdr} {d : SDst} {a : CSrc} {b c : SSrc} (hs : s.Canon) : OutCanon (execSel h d a b c s) :=
  hs.issue fun _ ht => ht.readS.readS.resultS

theorem State.Canon.resultC {d : Fin 8} {x : Bool} {lat : Nat} {f : FlagSet} {pc : BitVec 15} (hs : s.Canon) :
    (s.resultC d x lat f pc).Canon :=
  hs.result

theorem State.Canon.execCmp {h : Hdr} {ty : Fmt} {d : Fin 8} {a : SSrc} {b : SrcB} {k : Cond} (hs : s.Canon) :
    OutCanon (execCmp h ty d a b k s) :=
  hs.issue fun _ ht => ht.readS.readB.resultC

theorem State.Canon.condOp {f : Bool → Bool → Bool} {h : Hdr} {d : Fin 8} {a b : CSrc} (hs : s.Canon) : (condOp f h d a b s).Canon :=
  hs.issue fun _ ht => ht.resultC

theorem State.Canon.execMovi {h : Hdr} {d : SDst} {a : SSrc} {v : BitVec 16} {sh : Fin 4} (hs : s.Canon) :
    OutCanon (execMovi h d a v sh s) :=
  hs.issue fun _ ht => ht.readS.resultS

theorem State.Canon.execLea {h : Hdr} {d : SDst} {mm : MemOp} (hs : s.Canon) : OutCanon (execLea h d mm s) :=
  hs.issue fun _ ht => ht.readAddr.resultS

theorem State.Canon.fltOp {f : RMode → FVal → FVal → FVal × FlagSet} {m : Option XmPair} {h : Hdr} {ty : Fmt} {d : SDst} {a : SSrc}
    {b : SrcB} (hs : s.Canon) : (fltOp f m h ty d a b s).Canon :=
  hs.issue fun _ ht => ht.readS.readB.resultS

theorem State.Canon.ffmaOp {m : Option XmPair} {h : Hdr} {ty : Fmt} {d : SDst} {a b c : SSrc} (hs : s.Canon) :
    (ffmaOp m h ty d a b c s).Canon :=
  hs.issue fun _ ht => ht.readS.readS.readS.resultS

theorem State.Canon.fcvtOp {m : Option XmPair} {h : Hdr} {ty src : Fmt} {d : SDst} {a : SSrc} (hs : s.Canon) :
    (fcvtOp m h ty src d a s).Canon :=
  hs.issue fun _ ht => ht.readS.resultS

theorem State.Canon.execFcmp {h : Hdr} {ty : Fmt} {d : Fin 8} {a : SSrc} {b : SrcB} {k : Cond} (hs : s.Canon) :
    OutCanon (execFcmp h ty d a b k s) :=
  hs.issue fun _ ht => ht.readS.readB.resultC

theorem State.Canon.execFtolog {h : Hdr} {ty src : Fmt} {d : SDst} {a b : SSrc} (hs : s.Canon) : OutCanon (execFtolog h ty src d a b s) :=
  hs.issue fun _ ht => ht.readS.readS.resultS

theorem State.Canon.execFfromlog {h : Hdr} {ty src : Fmt} {d : SDst} {a b : SSrc} (hs : s.Canon) :
    OutCanon (execFfromlog h ty src d a b s) :=
  hs.issue fun _ ht => ht.readS.readS.resultS

/-! ## The vector words -/

theorem State.Canon.laneOp {need : Need} {m : Option XmPair} {h : Hdr} {dw n : Nat} {d : VDst} {lat : Nat} {srcs : List VSrc}
    {f : State → Nat → Nat × FlagSet} (hs : s.Canon) : (laneOp need m h dw n d lat srcs f s).Canon :=
  hs.issue fun _ ht => ht.advancePorts.resultV

theorem State.Canon.vecArith {fi : Int → Int → Int} {ff : RMode → FVal → FVal → FVal × FlagSet} {li : Nat} {m : Option XmPair} {h : Hdr}
    {ty : Fmt} {d : VDst} {a : VSrc} {b : VSrcB} (hs : s.Canon) : (vecArith fi ff li m h ty d a b s).Canon :=
  hs.laneOp

theorem State.Canon.vfmaOp {m : Option XmPair} {h : Hdr} {ty : Fmt} {d : VDst} {a b c : VSrc} (hs : s.Canon) :
    (vfmaOp m h ty d a b c s).Canon :=
  hs.laneOp

theorem State.Canon.vecFun {f : FVal → FVal × FlagSet} {m : Option XmPair} {h : Hdr} {ty : Fmt} {d : VDst} {a : VSrc} (hs : s.Canon) :
    (vecFun f m h ty d a s).Canon :=
  hs.laneOp

theorem State.Canon.vecBits {f : Nat → Nat → Nat → Nat} {h : Hdr} {ty : Fmt} {d : VDst} {a : VSrc} {b : VSrcB} (hs : s.Canon) :
    (vecBits f h ty d a b s).Canon :=
  hs.laneOp

theorem State.Canon.execVcmp {h : Hdr} {ty : Fmt} {d : Fin 16} {a : VSrc} {b : VSrcB} {k : Cond} (hs : s.Canon) :
    OutCanon (execVcmp h ty d a b k s) :=
  hs.issue fun _ ht => ht.advancePorts.result

theorem State.Canon.vcvtOp {m : Option XmPair} {h : Hdr} {ty src : Fmt} {d : VDst} {a : VSrc} (hs : s.Canon) :
    (vcvtOp m h ty src d a s).Canon :=
  hs.laneOp

theorem State.Canon.convOp {sw : Nat} {f : Nat → Nat → Nat × FlagSet} {h : Hdr} {ty src : Fmt} {d : VDst} {a b : VSrc} (hs : s.Canon) :
    (convOp sw f h ty src d a b s).Canon :=
  hs.laneOp

theorem State.Canon.headerOp {f : Nat → Nat → Nat × FlagSet} {h : Hdr} {ty src : Fmt} {d : VDst} {a b : VSrc} (hs : s.Canon) :
    (headerOp f h ty src d a b s).Canon :=
  hs.issue fun _ ht => .ite trivial ht.advancePorts.resultV

theorem State.Canon.redOp {op : RedOp} {m : Option XmPair} {h : Hdr} {ty : Fmt} {d : VDst} {a : VSrc} (hs : s.Canon) :
    (redOp op m h ty d a s).Canon :=
  hs.issue fun _ ht => ht.advancePorts.resultV

theorem State.Canon.vscanOp {m : Option XmPair} {h : Hdr} {ty : Fmt} {d : VDst} {a : VSrc} {k : Fin 3} (hs : s.Canon) :
    (vscanOp m h ty d a k s).Canon :=
  hs.issue fun _ ht => ht.advancePorts.resultV

theorem State.Canon.wholeOp {need : Need} {d : VDst} {lat : Nat} {srcs : List VSrc} {f : State → VecWord × State} (hs : s.Canon)
    (hf : ∀ t, t.Canon → (f t).2.Canon) : (wholeOp need d lat srcs f s).Canon :=
  hs.issue fun _ ht => (hf _ ht).advancePorts.resultV

theorem State.Canon.execVhist {h : Hdr} {ty : Fmt} {d : VDst} {a : VSrc} {b : SrcB} (hs : s.Canon) : OutCanon (execVhist h ty d a b s) :=
  hs.wholeOp fun _ ht => ht.readB

theorem State.Canon.countOp {need : Need} {h : Hdr} {ty : Fmt} {d : VDst} {b : SrcB} {srcs : List VSrc} {f : State → Nat → Nat → Nat}
    {act : Nat → Nat → Bool} (hs : s.Canon) : (countOp need h ty d b srcs f act s).Canon :=
  hs.issue fun _ ht => ht.readB.advancePorts.resultV

theorem State.Canon.execVbcast {h : Hdr} {ty : Fmt} {d : VDst} {a : SSrc} (hs : s.Canon) : OutCanon (execVbcast h ty d a s) :=
  hs.issue fun _ ht => ht.readS.resultV

theorem State.Canon.execVext {h : Hdr} {ty : Fmt} {d : SDst} {a : VSrc} {b : SrcB} (hs : s.Canon) : OutCanon (execVext h ty d a b s) :=
  hs.issue fun _ ht => ht.readB.advancePorts.resultS

theorem State.Canon.execVins {h : Hdr} {ty : Fmt} {d : Fin 64} {a : SSrc} {b : SrcB} (hs : s.Canon) : OutCanon (execVins h ty d a b s) :=
  hs.issue fun _ ht => ht.readS.readB.resultV

theorem State.Canon.execViota {h : Hdr} {ty : Fmt} {d : VDst} {a : SSrc} (hs : s.Canon) : OutCanon (execViota h ty d a s) :=
  hs.issue fun _ ht => ht.readS.resultV

theorem State.Canon.resultM {d : Fin 16} {w : MaskWord} {pc : BitVec 15} (hs : s.Canon) : (s.resultM d w pc).Canon :=
  hs.result

theorem State.Canon.maskOp {f : MaskWord → MaskWord → MaskWord} {h : Hdr} {d : Fin 16} {a b : MSrc} (hs : s.Canon) :
    (maskOp f h d a b s).Canon :=
  hs.issue fun _ ht => ht.resultM

theorem State.Canon.maskCount {f : Nat → Nat → Nat} {h : Hdr} {ty : Fmt} {d : SDst} {a : MSrc} (hs : s.Canon) :
    (maskCount f h ty d a s).Canon :=
  hs.issue fun _ ht => ht.resultS

/-! ## The control and status registers -/

theorem Core.Canon.setEngine {c : Core} {e : Eng} {x : Engine} (hc : c.Canon) : (c.setEngine e x).Canon := by
  unfold Core.setEngine
  split <;> exact hc

theorem State.Canon.qcwWrite {q : QCode} {v : Word} (hs : s.Canon) : (qcwWrite q v s).Canon := by
  unfold Machine.qcwWrite
  refine .ite trivial (.ite ?_ (.ite hs hs.modBank))
  split
  · exact trivial
  · exact hs.modBank

theorem State.Canon.ksplitWriteOp {v : Word} (hs : s.Canon) : (ksplitWriteOp v s).Canon :=
  .ite trivial (.ite trivial (hs.modCur (fun _ hc => hc)))

theorem State.Canon.execCsrr {h : Hdr} {d : SDst} {n : BitVec 16} (hs : s.Canon) : OutCanon (execCsrr h d n s) :=
  hs.issue fun _ ht => .ite trivial ht.result

theorem State.Canon.privWrite {r : State} (_ : s.Canon) (hr : r.Canon) : (privWrite s r).Canon :=
  .ite hr trivial

theorem State.Canon.modTrap {f : TrapRec → TrapRec} (hs : s.Canon) : (s.modTrap f).Canon :=
  hs.modBank

theorem State.Canon.csrWrite {n : BitVec 16} {v : Word} (hs : s.Canon) : (csrWrite n v s).Canon := by
  unfold Machine.csrWrite
  split
  · exact hs.modBank
  · exact hs.modBank
  · exact hs.modBank
  · exact hs.privWrite hs.modBank
  · exact hs.qcwWrite
  · exact hs.qcwWrite
  · exact hs.qcwWrite
  · exact hs.qcwWrite
  · exact hs.modBank
  · exact hs.modBank
  · exact hs.modBank
  · exact hs.modBank
  · exact hs.privWrite (hs.modCur (fun c hc => hc))
  · exact hs.privWrite (hs.modCur (fun c hc => hc))
  · exact hs.privWrite (hs.modCur (fun c hc => hc))
  · exact hs.modCur fun c hc => hc
  · exact hs.modCur fun c hc => hc
  · exact hs.modTrap
  · exact hs.modTrap
  · exact hs.modTrap
  · exact hs.modTrap
  · exact hs.modTrap
  · exact hs.modTrap
  · exact hs.modTrap
  · exact hs.modTrap
  · exact hs.privWrite hs.modBank
  · exact .ite hs.ksplitWriteOp trivial
  · exact hs.modBank
  · exact hs.modCur fun c hc => hc
  · exact trivial

theorem State.Canon.execCsrw {h : Hdr} {n : BitVec 16} {a : SSrc} (hs : s.Canon) : OutCanon (execCsrw h n a s) := by
  unfold Machine.execCsrw
  refine hs.issue fun t ht => ?_
  dsimp only
  split
  · exact trivial
  · exact trivial
  · exact ht.readS.modBank

theorem State.Canon.applyCsrws {core : Nat} {bank : Bool} (hs : s.Canon) : (s.applyCsrws core bank).Canon := by
  unfold State.applyCsrws
  refine .ite hs (.foldl (.modBankAt hs) fun s1 x hs1 => ?_)
  split
  · exact hs1.csrWrite.of_ok ‹_›
  · exact hs1
  · exact hs1

theorem State.Canon.take {r : Result} (hs : s.Canon) (hr : r.Canon) : (s.take r).Canon := by
  cases r with
  | stall => exact hs
  | fault t => exact hs.trap
  | ok u => exact hr

/-! ## Local memory -/

theorem State.Canon.execLd {h : Hdr} {ty : Fmt} {d : SDst} {mm : MemOp} {al : BitVec 4} (hs : s.Canon) :
    OutCanon (execLd h ty d mm al s) := by
  unfold Machine.execLd
  refine hs.issue fun t ht => ?_
  dsimp only
  split
  · exact trivial
  · exact ht.readAddr.loadLocal

theorem State.Canon.execSt {h : Hdr} {ty : Fmt} {mm : MemOp} {c : SSrc} (hs : s.Canon) : OutCanon (execSt h ty mm c s) := by
  unfold Machine.execSt
  refine hs.issue fun t ht => ?_
  dsimp only
  split
  · exact trivial
  · exact ht.readAddr.readS.storeLocal

theorem State.Canon.tagPort {al : BitVec 4} {d : VDst} {bits : VecWord} (hs : s.Canon) : (s.tagPort al d bits).Canon := by
  unfold State.tagPort
  split
  · exact hs
  · exact hs.toPort fun t x1 ht => ht.sendTagStore

theorem State.Canon.execVld {h : Hdr} {ty : Fmt} {d : VDst} {mm : MemOp} {al : BitVec 4} (hs : s.Canon) :
    OutCanon (execVld h ty d mm al s) := by
  unfold Machine.execVld
  refine hs.issue fun t ht => ?_
  dsimp only
  split
  · exact trivial
  · exact ht.readAddr.loadLocal.tagPort

theorem State.Canon.execVst {h : Hdr} {ty : Fmt} {mm : MemOp} {c : VSrc} (hs : s.Canon) : OutCanon (execVst h ty mm c s) := by
  unfold Machine.execVst
  refine hs.issue fun t ht => ?_
  dsimp only
  split
  · exact trivial
  · exact ht.readAddr.advancePorts.storeMasked

theorem State.Canon.execVgath {h : Hdr} {ty : Fmt} {d : VDst} {a : SSrc} {b : VSrc} {k : Fin 8} {al : BitVec 4} (hs : s.Canon) :
    OutCanon (execVgath h ty d a b k al s) := by
  unfold Machine.execVgath
  refine hs.issue fun t ht => ?_
  dsimp only
  split
  · exact trivial
  · exact ht.readS.advancePorts.loadLocal.tagPort

theorem State.Canon.execVscat {h : Hdr} {ty : Fmt} {a : SSrc} {b : VSrc} {k : Fin 8} {c : VSrc} (hs : s.Canon) :
    OutCanon (execVscat h ty a b k c s) := by
  unfold Machine.execVscat
  refine hs.issue fun t ht => ?_
  dsimp only
  split
  · exact trivial
  · exact ht.readS.advancePorts.sendStore

theorem State.Canon.execPortcfg {h : Hdr} {port : Fin 12} {a : SSrc} (hs : s.Canon) : OutCanon (execPortcfg h port a s) := by
  unfold Machine.execPortcfg
  refine hs.issue fun t ht => ?_
  dsimp only
  split
  · exact trivial
  split
  · exact trivial
  split
  · exact trivial
  split
  · exact trivial
  · exact ht.readS.touchLocal.modBank

/-! ## Control flow -/

theorem State.Canon.jump {target : Word} {gap : Nat} (hs : s.Canon) : (s.jump target gap).Canon :=
  .ite trivial hs.modBank

theorem State.Canon.fallThrough (hs : s.Canon) : s.fallThrough.Canon :=
  .ite trivial hs

theorem State.Canon.execBr {h : Hdr} {off : BitVec 16} (hs : s.Canon) : OutCanon (execBr h off s) :=
  hs.issue fun _ ht => ht.jump

theorem State.Canon.execBrc {h : Hdr} {ty : Fmt} {a b : SSrc} {k : Cond} {off : BitVec 16} (hs : s.Canon) :
    OutCanon (execBrc h ty a b k off s) := by
  unfold Machine.execBrc
  refine hs.issue fun t ht => ?_
  dsimp only
  split
  · exact ht.readS.readS.jump
  · exact ht.readS.readS.fallThrough

theorem State.Canon.jumpOp {h : Hdr} {a : SSrc} (hs : s.Canon) : (jumpOp h a s).Canon :=
  hs.issue fun _ ht => ht.readS.jump

theorem State.Canon.execCall {h : Hdr} {d : SDst} {off : BitVec 16} (hs : s.Canon) : OutCanon (execCall h d off s) :=
  hs.issue fun _ ht => ht.resultS.jump

theorem State.Canon.execLoop {h : Hdr} {a : Fin 64} {off : BitVec 16} (hs : s.Canon) : OutCanon (execLoop h a off s) :=
  hs.issue fun _ ht => .ite trivial (.ite ht.resultS.fallThrough ht.resultS.modBank.jump)

theorem State.Canon.illegalOp {h : Hdr} {src : BitVec 4} {addr : Word} (hs : s.Canon) : (illegalOp h src addr s).Canon :=
  .ite hs hs.trap

theorem State.Canon.xmPair {m : XmPair} {i : Instr} {ty : Fmt} {n : Nat} {f : State → State} (hs : s.Canon)
    (e : xmPair m i = some (ty, n, f)) : (f s).Canon := by
  have hf : ∀ {u : Fmt} {k : Nat} {g : State → State}, some (u, k, g) = some (ty, n, f) → (g s).Canon → (f s).Canon := by
    intro u k g e hg
    obtain ⟨-, -, rfl⟩ := Option.some.inj e
    exact hg
  unfold Machine.xmPair at e
  split at e
  iterate 8 exact hf e hs.intOp
  iterate 2 exact hf e hs.fltOp
  · exact hf e hs.ffmaOp
  iterate 2 exact hf e hs.fltOp
  · exact hf e hs.fcvtOp
  iterate 3 exact hf e hs.vecArith
  · exact hf e hs.vfmaOp
  iterate 2 exact hf e hs.vecArith
  iterate 4 exact hf e hs.vecFun
  · exact hf e hs.vcvtOp
  iterate 3 exact hf e hs.redOp
  · exact hf e hs.vscanOp
  · exact nomatch e

theorem State.Canon.execXm {pd : BitVec 4} {x : XmMod} (hs : s.Canon) : OutCanon (execXm pd x s) := by
  unfold Machine.execXm
  show State.Canon _
  split
  · exact hs.illegalOp
  split
  · exact hs.illegalOp
  split
  · exact hs.xmPair ‹_›
  · exact hs.illegalOp

/-! ## Synchronisation and the queues -/

theorem Core.Canon.addAccess {c : Core} {a : Access} (hc : c.Canon) : (c.addAccess a).Canon :=
  hc

theorem Core.Canon.dropAccess {c : Core} {seq : Nat} (hc : c.Canon) : (c.dropAccess seq).Canon := by
  unfold Core.dropAccess
  split <;> exact hc

theorem State.Canon.pushEntry {q : QCode} {image : List Byte} (hs : s.Canon) : (s.pushEntry q image).Canon :=
  hs.tick.storeLocal.modBank

theorem State.Canon.execEqpush {h : Hdr} {q : QCode} {m : MemOp} (hs : s.Canon) : OutCanon (execEqpush h q m s) := by
  unfold Machine.execEqpush
  refine hs.issue fun t ht => ?_
  dsimp only
  split
  · exact trivial
  split
  · exact trivial
  split
  · exact trivial
  split
  · exact trivial
  split
  · exact trivial
  · exact ht.readAddr.touchLocal.pushEntry

theorem State.Canon.execFpush {h : Hdr} {a : SSrc} (hs : s.Canon) : OutCanon (execFpush h a s) :=
  hs.issue fun _ ht => .ite trivial (ht.readS.modCur fun _ hc => hc)

theorem State.Canon.execQpush {h : Hdr} {q : Fin 4} {a : SSrc} (hs : s.Canon) : OutCanon (execQpush h q a s) :=
  hs.issue fun _ ht => ht.readS.resultS

theorem State.Canon.execEqstat {h : Hdr} {d : SDst} {q : QCode} (hs : s.Canon) : OutCanon (execEqstat h d q s) :=
  hs.issue fun _ ht => ht.result

theorem State.Canon.execQstat {h : Hdr} {d : SDst} {q : Fin 9} (hs : s.Canon) : OutCanon (execQstat h d q s) :=
  hs.issue fun _ ht => ht.result

theorem State.Canon.execEstat {h : Hdr} {d : SDst} {e : Eng} (hs : s.Canon) : OutCanon (execEstat h d e s) :=
  hs.issue fun _ ht => ht.result

theorem State.Canon.execSwait {h : Hdr} {k : BitVec 8} (hs : s.Canon) : OutCanon (execSwait h k s) := by
  unfold Machine.execSwait
  refine hs.issue fun t ht => .ite trivial (.ite trivial ?_)
  show State.Canon _
  split
  · exact .modBank (ht.setCore ht.cur)
  · exact .bumpPts (.modBank (ht.setCore ht.cur))

theorem State.Canon.execSset {h : Hdr} {k : BitVec 8} {a : SSrc} (hs : s.Canon) : OutCanon (execSset h k a s) := by
  unfold Machine.execSset
  refine hs.issue fun t ht => ?_
  dsimp only
  split
  · exact trivial
  split
  · exact trivial
  · exact ht.readS.modCur fun c hc => hc

theorem State.Canon.execSsig {h : Hdr} {k : BitVec 8} {a : Option SSrc} (hs : s.Canon) : OutCanon (execSsig h k a s) := by
  unfold Machine.execSsig
  split
  · exact hs.issue fun t ht => .ite trivial (.ite trivial (ht.modCur (fun c hc => hc.addAccess)))
  · exact hs.issue fun t ht => .ite trivial (ht.readS.modCur fun c hc => hc.addAccess)

theorem Core.Canon.countSend {c : Core} {bank : Bool} {dmod : BitVec 12} {dcore : BitVec 11} (hc : c.Canon) :
    (c.countSend bank dmod dcore).Canon :=
  hc

theorem State.Canon.lateOverflow {pc : BitVec 15} (hs : s.Canon) : (s.lateOverflow pc).Canon :=
  hs.modBank

theorem State.Canon.sendSignal {k : BitVec 8} {operand : Option Word} {pc : BitVec 15} (hs : s.Canon) :
    (s.sendSignal k operand pc).Canon := by
  unfold State.sendSignal
  split
  · split
    · exact hs.setCore (hs.cur.incSem ‹_›).wakeOwners
    · exact hs.lateOverflow
  · rename_i x
    split
    · exact .post (.modCur (.modCur hs fun c hc => hc) fun c hc => hc.countSend)
    have h := State.Canon.modCur (f := fun c => c.countSend s.focus.bank (x.extractLsb' 16 12) (x.extractLsb' 0 11))
      (hs.modCur (f := fun c => { c with sigs := c.sigs ++ [{ bank := s.focus.bank, k := k, operand := x }] }) fun c hc => hc)
      fun c hc => hc.countSend
    exact h

theorem State.Canon.holdIncrement {t : State} {tag : BitVec 16} {core : Nat} {k : BitVec 8} (hs : s.Canon)
    (e : s.holdIncrement tag core k = some t) :
    t.Canon := by
  unfold State.holdIncrement at e
  split at e
  · exact nomatch e
  · split at e <;> exact Option.some.inj e ▸ hs

theorem State.Canon.execRemoteSignalApply {src : Nat} {sbank : Bool} {tag : BitVec 16} {k : BitVec 8} {operand : Word} {pts : BitVec 16}
    (hs : s.Canon) : OutCanon (execRemoteSignalApply src sbank tag k operand pts s) := by
  unfold Machine.execRemoteSignalApply
  show State.Canon _
  split
  · refine .ite hs.post ?_
    split
    · exact (hs.setCore (hs.cur.incSem ‹_›).wakeOwners).post
    · exact hs.post
  · split
    · exact (hs.holdIncrement ‹_›).post
    · exact hs.post

theorem State.Canon.execSignalAck {err : Option (BitVec 8)} {k : BitVec 8} {operand : Word} (hs : s.Canon) :
    OutCanon (execSignalAck err k operand s) := by
  unfold Machine.execSignalAck
  refine .ite hs ?_
  split
  · exact hs.modCur fun c hc => hc
  · exact .holdTrap (hs.modCur (fun c hc => hc))

theorem Core.Canon.switchStream {c : Core} {cycle : Nat} (hc : c.Canon) : (c.switchStream cycle).Canon :=
  .modBank hc

theorem State.Canon.leaveBank (hs : s.Canon) : s.leaveBank.Canon :=
  .ite (hs.modCur (fun _ hc => hc.switchStream)) hs

theorem State.Canon.deliverDue {t : State} (hs : s.Canon) (e : s.deliverDue = some t) : t.Canon := by
  unfold State.deliverDue at e
  split at e
  · exact Option.some.inj e ▸ hs.deliverArithmetic
  split at e
  · exact Option.some.inj e ▸ hs.deliverImprecise
  · exact nomatch e

theorem State.Canon.reportTouch (hs : s.Canon) : s.reportTouch.Canon := by
  unfold State.reportTouch
  split
  · exact hs
  · exact hs.modBank.holdTrap

theorem State.Canon.releaseBarrier {job : Nat} {stage : Option (BitVec 4)} {inst : Nat} (hs : s.Canon) :
    (s.releaseBarrier job stage inst).Canon := by
  unfold State.releaseBarrier
  refine .ite (hs.foldl (fun s1 x hs1 => hs1.tick.postAt)) ?_
  split
  · exact hs.tick
  · exact hs.tick.foldl fun s1 x hs1 => hs1.tick.postAt

theorem State.Canon.arrive {isStage : Bool} (hs : s.Canon) : (s.arrive isStage).Canon := by
  unfold State.arrive
  dsimp only
  split
  · exact hs.modBank
  · exact .leaveBank (.ite hs.modBank.releaseBarrier hs.modBank)

theorem State.Canon.execBar {h : Hdr} {isStage : Bool} (hs : s.Canon) : OutCanon (execBar h isStage s) := by
  have hr : (if s.bank.trap.act then s else s.reportTouch).Canon := by
    split
    · exact hs
    · exact hs.reportTouch
  unfold Machine.execBar
  show State.Canon _
  split
  · dsimp only
    split
    · exact hr.deliverDue ‹_›
    refine hs.issue fun t ht => ?_
    split
    · exact trivial
    split
    · exact ht.modBank
    · exact ht.arrive
  all_goals exact hs.issue fun t ht => ht

end Sys2Proof.Machine

end

section
/-!
PROOF. Every step keeps every memory canonical, continued: names, homes, coherence, leases, and the global accesses.
-/
open Sys2Proof Sys2Proof.Machine

namespace Sys2Proof.Machine

variable {s : State}

/-! ## The name table -/

theorem State.Canon.issueName {cls : BitVec 8} (hs : s.Canon) : (s.issueName cls).2.Canon :=
  .ite hs hs

theorem State.Canon.enterName {n : Name} {b : Binding} {keyid : BitVec 7} (hs : s.Canon) : (s.enterName n b keyid).Canon :=
  hs

theorem State.Canon.modTables {f : List NameEnt → List NameEnt} (hs : s.Canon) : (s.modTables f).Canon :=
  hs

theorem State.Canon.removeName {n : Name} (hs : s.Canon) : (s.removeName n).Canon :=
  hs.modTables

theorem State.Canon.modEnt {n : Name} {f : NameEnt → NameEnt} (hs : s.Canon) : (s.modEnt n f).Canon :=
  hs.modTables

theorem State.Canon.setPeer {p : Peer} (hs : s.Canon) : (s.setPeer p).Canon :=
  hs

theorem State.Canon.noteResolver {n : Name} (hs : s.Canon) : (s.noteResolver n).Canon := by
  unfold State.noteResolver
  split
  · exact hs
  · exact hs.modEnt

theorem State.Canon.resolve {core : Nat} {n : Name} (hs : s.Canon) : (s.resolve core n).2.2.Canon := by
  unfold State.resolve
  dsimp only
  split
  · exact hs
  split
  · exact .modDie (hs.modCore (fun c hc => hc))
  split
  · exact .noteResolver (.ite hs (.modDie (hs.modCore (fun c hc => hc))))
  · exact hs

theorem State.Canon.resolveAs {core : Nat} {classes : List (BitVec 8)} {n : Name} (hs : s.Canon) :
    (s.resolveAs core classes n).2.2.Canon := by
  unfold State.resolveAs
  split
  · exact hs.resolve.snd_snd_of_eq ‹_›

/-! ## Homes -/

theorem State.Canon.hbmWrite {l : Loc} {bs : List Byte} (hs : s.Canon) : (s.hbmWrite l bs).Canon := by
  induction bs generalizing s l with
  | nil => exact hs
  | cons b r ih => exact ih { hs with hbm := Memory.wf_write _ _ hs.hbm }

theorem State.Canon.hbmPutLine {l : Line} {d : BitVec 1024} (hs : s.Canon) : (s.hbmPutLine l d).Canon :=
  hs.hbmWrite

theorem State.Canon.raiseStamp {l : Loc} {p : BitVec 16} (hs : s.Canon) : (s.raiseStamp l p).Canon :=
  hs

theorem State.Canon.modPatch {n : Name} {f : Patch → Patch} (hs : s.Canon) : (s.modPatch n f).Canon :=
  hs

theorem State.Canon.setChain {lo nd sec : Nat} {names : List Name} (hs : s.Canon) : (s.setChain lo nd sec names).Canon :=
  hs

/-! ## Coherence -/

theorem Core.Canon.modAccess {c : Core} {seq : Nat} {f : Access → Access} (hc : c.Canon) : (c.modAccess seq f).Canon :=
  hc

theorem State.Canon.tagReady {core : Nat} {bank : Bool} {t : BitVec 4} (hs : s.Canon) : (s.tagReady core bank t).Canon := by
  unfold State.tagReady
  split
  · exact hs
  · exact hs.modBankAt.post

theorem State.Canon.localDone {core : Nat} {x : LAcc} (hs : s.Canon) : (s.localDone core x).Canon :=
  .ite hs.modBankAt.postAt hs.modBankAt.post

theorem State.Canon.performSector {core : Nat} {x : LAcc} {p : List LMove} (hs : s.Canon) : (s.performSector core x p).Canon := by
  unfold State.performSector
  dsimp only
  have h := hs.modCore (i := core) (f := fun c => (c.take (x.grant p)).dropPiece x.no p) fun c hc => hc.take.dropPiece
  split
  · exact h.modCore fun c hc => Memory.wf_writeMoves p hc
  split
  · exact h.modBankAt
  · exact h.modBankAt.localDone

theorem State.Canon.finish {core : Nat} {a : Access} (hs : s.Canon) : (s.finish core a).Canon := by
  unfold State.finish
  split
  · exact hs.modCore fun c hc => hc.dropAccess
  · exact .ite (hs.modCore (fun c hc => hc.dropAccess)) (.tagReady (hs.modCore (fun c hc => hc.dropAccess)))

theorem State.Canon.atLeast {core : Nat} {a : Access} {lat : Nat} (hs : s.Canon) : (s.atLeast core a lat).Canon := by
  unfold State.atLeast
  split
  · exact hs
  · exact hs.modBankAt

theorem State.Canon.notBefore {core : Nat} {a : Access} {cycle : Nat} (hs : s.Canon) : (s.notBefore core a cycle).Canon := by
  unfold State.notBefore
  split
  · exact hs
  · exact hs.modBankAt

theorem State.Canon.readStamp {core : Nat} {a : Access} {p : BitVec 16} (hs : s.Canon) : (s.readStamp core a p).Canon := by
  unfold State.readStamp
  split
  · exact hs
  · exact .ite hs.bumpPts (.ite hs.modBankAt hs)

theorem State.Canon.memFlags {core : Nat} {bank : Bool} {f : FlagSet} (hs : s.Canon) : (s.memFlags core bank f).Canon :=
  hs.mergeFlags

theorem Core.Canon.localWrites {c : Core} {e : Eng} {bank : Bool} {addr : Nat} {bytes : List Byte} {due cmd : Nat} (hc : c.Canon) :
    (c.localWrites e bank addr bytes due cmd).Canon :=
  hc

theorem State.Canon.arriveLocal {core : Nat} {a : Access} {addr : Nat} {bytes : List Byte} {min : Nat} (hs : s.Canon) :
    (s.arriveLocal core a addr bytes min).Canon :=
  hs.modCore fun _ hc => hc.localWrites

theorem State.Canon.engTrap {core : Nat} {e : Eng} {n : Entry} {t : TrapInfo} (hs : s.Canon) : (s.engTrap core e n t).Canon :=
  .holdTrap (.ite hs.addLog hs)

theorem State.Canon.stopEntry {core : Nat} {e : Eng} (hs : s.Canon) : (s.stopEntry core e).Canon := by
  unfold State.stopEntry
  split
  · exact hs
  dsimp only
  exact .ite (hs.modCore (fun c hc => hc.setEngine)) (.modBankAt (hs.modCore (fun c hc => hc.setEngine)))

theorem State.Canon.engFault {core : Nat} {e : Eng} {t : TrapInfo} (hs : s.Canon) : (s.engFault core e t).Canon := by
  unfold State.engFault
  split
  · exact hs
  · exact hs.engTrap.stopEntry

theorem State.Canon.finishXpose {core word : Nat} (hs : s.Canon) : (s.finishXpose core word).Canon := by
  unfold State.finishXpose
  split
  · exact hs
  · exact .mergeFlags (hs.modCore (fun c hc => hc))

theorem State.Canon.deliver {core : Nat} {a : Access} {bytes : List Byte} {marks : List FlagSet} (hs : s.Canon) :
    (s.deliver core a bytes marks).Canon := by
  unfold State.deliver
  split
  · exact hs.modBankAt
  · exact hs.modBankAt
  · exact hs.arriveLocal.memFlags
  · refine .ite ?_ hs.arriveLocal.memFlags
    split
    · exact hs
    · exact hs.holdTrap.stopEntry
  · exact .ite (.memFlags (hs.modCore (fun c hc => hc))) (.finishXpose (.memFlags (hs.modCore (fun c hc => hc))))
  · exact hs

theorem Core.Canon.modL1 {c : Core} {l : Line} {f : L1Line → L1Line} (hc : c.Canon) : (c.modL1 l f).Canon :=
  hc

theorem Core.Canon.dropL1 {c : Core} {l : Line} (hc : c.Canon) : (c.dropL1 l).Canon :=
  hc

theorem Slice.Canon.modLine {x : Slice} {l : Line} {f : SLine → SLine} (hx : x.Canon) : (x.modLine l f).Canon :=
  hx

theorem Slice.Canon.dropLine {x : Slice} {l : Line} (hx : x.Canon) : (x.dropLine l).Canon :=
  hx

theorem State.Canon.sliceOf {die : Nat} {l : Line} (hs : s.Canon) : (s.sliceOf die l).Canon :=
  hs.slice

theorem State.Canon.modSliceOf {die : Nat} {l : Line} {f : Slice → Slice} (hs : s.Canon) (hf : ∀ x, x.Canon → (f x).Canon) :
    (s.modSliceOf die l f).Canon :=
  hs.modSlice fun _ hx => hf _ hx

theorem State.Canon.homeSlice {l : Line} (hs : s.Canon) : (s.homeSlice l).Canon :=
  hs.sliceOf

theorem State.Canon.modHome {l : Line} {f : Slice → Slice} (hs : s.Canon) (hf : ∀ x, x.Canon → (f x).Canon) : (s.modHome l f).Canon :=
  hs.modSliceOf fun _ hx => hf _ hx

theorem State.Canon.dropL1s {l : Line} {cs : List Nat} (hs : s.Canon) : (s.dropL1s l cs).1.Canon := by
  induction cs generalizing s with
  | nil => exact hs
  | cons c r ih => exact ih (hs.modCore fun c hc => hc.dropL1)

theorem State.Canon.dropDie {die : Nat} {l : Line} (hs : s.Canon) : (s.dropDie die l).1.Canon := by
  unfold State.dropDie
  split
  · exact hs
  dsimp only
  split
  · exact hs.dropL1s.modSliceOf fun x hx => hx.modLine
  · exact hs.dropL1s.modSliceOf fun x hx => hx.dropLine

theorem State.Canon.homePut {l : Line} {d : BitVec 1024} (hs : s.Canon) : (s.homePut l d).Canon := by
  unfold State.homePut
  split
  · exact hs.modHome fun x hx => hx.modLine
  · exact hs.hbmPutLine

theorem Slice.Canon.sfDrop {x : Slice} {l : Line} (hx : x.Canon) : (x.sfDrop l).Canon :=
  hx

theorem Slice.Canon.sfMod {x : Slice} {l : Line} {f : SfEntry → SfEntry} (hx : x.Canon) : (x.sfMod l f).Canon :=
  hx

theorem State.Canon.recall {l : Line} (hs : s.Canon) : (s.recall l).Canon := by
  unfold State.recall
  refine .modHome (.dropDie (.foldl hs fun t d ht => ?_)) fun x hx => hx.sfDrop
  dsimp only
  split
  · exact ht.dropDie.homePut
  · exact ht.dropDie

theorem State.Canon.evictHome {l : Line} (hs : s.Canon) : (s.evictHome l).Canon := by
  unfold State.evictHome
  dsimp only
  split
  · exact hs.recall
  · exact .modHome (.ite hs.recall.hbmPutLine hs.recall) fun x hx => hx

theorem State.Canon.evictLine {die : Nat} {y : SLine} (hs : s.Canon) : (s.evictLine die y).Canon := by
  unfold State.evictLine
  split
  · exact hs.evictHome
  dsimp only
  split
  · exact hs.dropDie
  · exact hs.dropDie.post

theorem State.Canon.fill {die : Nat} {y : SLine} (hs : s.Canon) : (s.fill die y).Canon := by
  unfold State.fill
  refine .ite (hs.modSliceOf (fun x hx => hx.modLine)) (.ite (hs.modSliceOf (fun x hx => hx)) ?_)
  split
  · exact hs.modSliceOf fun x hx => hx
  · exact hs.evictLine.modSliceOf fun x hx => hx

theorem State.Canon.ensureHome {l : Line} {view lease : Bool} {cls : BitVec 2} (hs : s.Canon) : (s.ensureHome l view lease cls).Canon := by
  unfold State.ensureHome
  split
  · exact .ite (hs.modHome (fun x hx => hx.modLine)) (hs.modHome (fun x hx => hx.modLine))
  · exact hs.fill

theorem State.Canon.leaveL1 {core : Nat} {x : L1Line} (hs : s.Canon) : (s.leaveL1 core x).Canon :=
  .ite hs (hs.modSliceOf (fun _ hx1 => hx1.modLine))

theorem State.Canon.fillL1 {core : Nat} {x : L1Line} (hs : s.Canon) : (s.fillL1 core x).Canon := by
  unfold State.fillL1
  refine .ite (hs.modCore (fun c hc => hc.modL1)) (.ite (hs.modCore (fun c hc => hc)) ?_)
  split
  · exact hs.modCore fun c hc => hc
  · exact .modCore (.leaveL1 (hs.modCore (fun c hc => hc.dropL1))) fun c hc => hc

theorem State.Canon.readCopy {core : Nat} {a : Access} {x : L1Line} (hs : s.Canon) : (s.readCopy core a x).Canon :=
  .finish (.deliver (.ite (.bumpPts (hs.modCore (fun _ hc => hc.modL1))) (.readStamp (hs.modCore (fun _ hc => hc.modL1)))))

theorem State.Canon.ackStore {core : Nat} {a : Access} {min : Nat} (hs : s.Canon) : (s.ackStore core a min).Canon :=
  .post (hs.modCore (fun _ hc => hc.modAccess))

theorem State.Canon.noteRelease {l : Loc} {core : Nat} {bank : Bool} {scope : Nat} (hs : s.Canon) :
    (s.noteRelease l core bank scope).Canon :=
  .ite hs hs

theorem State.Canon.publishStamps {core : Nat} {a : Access} (hs : s.Canon) : (s.publishStamps core a).Canon :=
  .ite (hs.foldl (fun _ _ hs1 => hs1.raiseStamp.noteRelease)) hs

theorem State.Canon.writeCopy {core : Nat} {a : Access} {v m : List Byte} (hs : s.Canon) : (s.writeCopy core a v m).Canon :=
  .ackStore (.publishStamps (hs.modCore (fun _ hc => hc.modL1)))

theorem State.Canon.applyLine {core : Nat} {a : Access} (hs : s.Canon) : (s.applyLine core a).Canon := by
  unfold State.applyLine
  split
  · exact hs.finish
  split
  · exact hs.modCore fun c hc => hc.modAccess
  split
  · exact .ite hs.writeCopy (hs.modCore (fun c hc => hc.modAccess))
  · exact .ite hs.readCopy (hs.modCore (fun c hc => hc.modAccess))
  · exact hs

theorem State.Canon.applyWaiting {core : Nat} {l : Line} (hs : s.Canon) : (s.applyWaiting core l).Canon :=
  hs.foldl fun _ _ hs1 => hs1.applyLine

theorem State.Canon.shareOwner {die : Nat} {l : Line} {owned : Bool} (hs : s.Canon) : (s.shareOwner die l owned).Canon := by
  unfold State.shareOwner
  split
  · exact hs
  split
  · exact hs
  split
  · exact hs
  dsimp only
  exact .modSliceOf (hs.modCore (fun c hc => hc.modL1)) fun x hx => hx.modLine

theorem State.Canon.install {core : Nat} {l : Line} {st : Moesi} (hs : s.Canon) : (s.install core l st).Canon := by
  unfold State.install
  dsimp only
  split
  · exact hs
  · exact .fillL1 (hs.modSliceOf fun x hx => hx.modLine)

theorem State.Canon.dropOthers {die : Nat} {l : Line} {keep : Nat} (hs : s.Canon) : (s.dropOthers die l keep).Canon := by
  unfold State.dropOthers
  split
  · exact hs
  · exact hs.dropL1s.modSliceOf fun x hx => hx.modLine

theorem State.Canon.sendReq {k : ReqKind} {r : CohReq} {min : Nat} (hs : s.Canon) : (s.sendReq k r min).Canon :=
  hs.post

theorem Slice.Canon.compress {x y : Slice} {n : Nat} (hx : x.Canon) (e : x.compress n = some y) : y.Canon := by
  unfold Slice.compress at e
  dsimp only at e
  split at e
  · exact nomatch e
  split at e
  · exact nomatch e
  · exact Option.some.inj e ▸ hx

theorem Slice.Canon.sfJoin {x : Slice} {l : Line} {die now : Nat} (hx : x.Canon) : (x.sfJoin l die now).Canon :=
  hx

theorem Slice.Canon.sfSet {x : Slice} {l : Line} {dies : BitVec 32} {owner : Option Nat} {ost : Moesi} {now : Nat} (hx : x.Canon) :
    (x.sfSet l dies owner ost now).Canon :=
  .ite hx hx

theorem Slice.Canon.modTxn {x : Slice} {l : Line} {f : Txn → Txn} (hx : x.Canon) : (x.modTxn l f).Canon :=
  hx

theorem State.Canon.grantFrom {from_ : Nat} {r : CohReq} {st : Moesi} {d : Option (BitVec 1024)} {extra : Nat} (hs : s.Canon) :
    (s.grantFrom from_ r st d extra).Canon :=
  hs.post

theorem State.Canon.homeRead {r : CohReq} (hs : s.Canon) : (s.homeRead r).Canon := by
  unfold State.homeRead
  dsimp only
  split
  · exact .ite hs.ensureHome.grantFrom hs.ensureHome.post
  · exact .grantFrom (.ite hs.ensureHome.shareOwner
      (.ite (hs.ensureHome.shareOwner.modHome (fun x hx => hx.sfJoin)) (hs.ensureHome.shareOwner.modHome (fun x hx => hx.sfSet))))

theorem State.Canon.takeOwner {r : CohReq} (hs : s.Canon) : (s.takeOwner r).Canon :=
  .ite (hs.dropOthers.modHome (fun _ hx => hx.sfDrop)) (hs.dropDie.modHome (fun _ hx => hx.sfSet))

theorem State.Canon.homeOwn {r : CohReq} {data : Bool} (hs : s.Canon) : (s.homeOwn r data).Canon :=
  hs.ensureHome.takeOwner.grantFrom

theorem State.Canon.ownNext {r : CohReq} {upgrade : Bool} {fwd : Option Nat} (hs : s.Canon) : (s.ownNext r upgrade fwd).Canon := by
  unfold State.ownNext
  split
  · exact hs.post
  · exact hs.homeOwn

theorem State.Canon.sendInvalidations {l : Line} {back : Bool} {ds : List Nat} (hs : s.Canon) : (s.sendInvalidations l back ds).Canon := by
  induction ds generalizing s with
  | nil => exact hs
  | cons d r ih => exact ih hs.post

theorem State.Canon.startTxn {r : CohReq} {k : ReqKind} (hs : s.Canon) : (s.startTxn r k).Canon := by
  unfold State.startTxn
  split
  · exact hs.homeRead
  · dsimp only
    exact .ite (.ownNext (hs.modHome (fun x hx => hx.modTxn))) (.sendInvalidations (hs.modHome (fun x hx => hx.modTxn)))
  · dsimp only
    exact .ite (.ownNext (hs.modHome (fun x hx => hx.modTxn))) (.sendInvalidations (hs.modHome (fun x hx => hx.modTxn)))

theorem State.Canon.waitAt {die : Nat} {k : ReqKind} {r : CohReq} (hs : s.Canon) : (s.waitAt die k r).Canon :=
  hs.modSliceOf fun _ hx => hx

theorem State.Canon.drainWait {die : Nat} {l : Line} (hs : s.Canon) : (s.drainWait die l).Canon :=
  .foldl (hs.modSliceOf (fun _ hx => hx)) fun _ _ hs1 => hs1.postAt

theorem State.Canon.requestHome {k : ReqKind} {r : CohReq} (hs : s.Canon) : (s.requestHome k r).Canon := by
  unfold State.requestHome
  refine .ite hs.waitAt (.ite (.startTxn (hs.modHome (fun x hx => hx))) ?_)
  split
  · exact .startTxn (.modHome (hs.modHome (fun x hx => hs.homeSlice.compress ‹_›)) (fun x hx => hx))
  dsimp only
  exact .ite hs.waitAt (.foldl (hs.modHome (fun x hx => hx)) (fun s1 x hs1 => hs1.sendInvalidations))

theorem State.Canon.takePut {die : Nat} {l : Line} (hs : s.Canon) : (s.takePut die l).2.Canon := by
  unfold State.takePut
  dsimp only
  split <;> exact hs

theorem State.Canon.requestProxy {k : ReqKind} {r : CohReq} (hs : s.Canon) : (s.requestProxy k r).Canon := by
  unfold State.requestProxy
  refine .ite hs.waitAt (.ite hs.postAt ?_)
  split
  · exact .ite hs.evictLine.postAt hs.shareOwner.install.applyWaiting
  · exact .sendReq (hs.modSliceOf (fun x hx => hx))
  · exact .ite (.applyWaiting (.install (hs.dropOthers.modSliceOf (fun x hx => hx.modLine)))) (.sendReq (hs.modSliceOf (fun x hx => hx)))
  · exact .sendReq (hs.modSliceOf (fun x hx => hx))

theorem State.Canon.request {k : ReqKind} {r : CohReq} (hs : s.Canon) : (s.request k r).Canon :=
  .ite hs.requestHome hs.requestProxy

theorem State.Canon.leaveHome {l : Line} {die : Nat} (hs : s.Canon) : (s.leaveHome l die).Canon :=
  hs.modHome fun _ hx => hx.sfMod

theorem State.Canon.putBack {l : Line} {die : Nat} {d : BitVec 1024} (hs : s.Canon) : (s.putBack l die d).Canon :=
  hs.homePut.leaveHome

theorem State.Canon.surrender {die : Nat} {l : Line} (hs : s.Canon) : (s.surrender die l).1.Canon := by
  unfold State.surrender
  split <;> exact (hs.takePut.snd_of_eq ‹_›).dropDie

theorem State.Canon.answer {l : Line} {die : Nat} (hs : s.Canon) : (s.answer l die).Canon := by
  unfold State.answer
  split
  · exact hs.modDie.post
  · exact hs.surrender.post

theorem State.Canon.forwardShared {l : Line} {die : Nat} {r : CohReq} (hs : s.Canon) : (s.forwardShared l die r).Canon := by
  unfold State.forwardShared
  dsimp only
  split
  · refine .homeRead (.leaveHome ?_)
    split
    · exact hs.shareOwner.takePut.homePut
    · exact hs.shareOwner.takePut
  · exact .grantFrom (.modHome (.ite (.homePut (hs.shareOwner.modSliceOf (fun x hx => hx.modLine)))
      (hs.shareOwner.modSliceOf (fun x hx => hx.modLine))) (fun x hx => hx.sfMod))

theorem State.Canon.forwardOwned {l : Line} {die : Nat} {r : CohReq} (hs : s.Canon) : (s.forwardOwned l die r).Canon := by
  unfold State.forwardOwned
  refine .grantFrom (.takeOwner ?_)
  split
  · refine .homePut ?_
    split <;> exact (hs.takePut.snd_of_eq ‹_›).dropDie
  · split <;> exact (hs.takePut.snd_of_eq ‹_›).dropDie

theorem State.Canon.execForward {l : Line} {die : Nat} {excl : Bool} (hs : s.Canon) : OutCanon (execForward l die excl s) := by
  unfold Machine.execForward
  show State.Canon _
  split
  · exact hs
  · exact .ite hs.forwardOwned hs.forwardShared

theorem State.Canon.execInvalidationAck {l : Line} {die : Nat} {d : Option (BitVec 1024)} (hs : s.Canon) :
    OutCanon (execInvalidationAck l die d s) := by
  unfold Machine.execInvalidationAck
  extract_lets s1
  have h1 : s1.Canon := by
    dsimp only [s1]
    split
    · exact hs.homePut
    · exact hs
  clear_value s1
  show State.Canon _
  split
  · exact h1
  extract_lets left s2 s3
  have h2 : s2.Canon := h1.modHome fun x hx => hx.modTxn
  have h3 : s3.Canon := .ite (h2.modHome fun x hx => hx.sfDrop) h2
  exact .ite h3 (.ite (.startTxn (h3.modHome fun x hx => hx.modTxn)) h3.ownNext)

theorem State.Canon.execCoherenceData {l : Line} {core : Nat} {st : Moesi} {d : Option (BitVec 1024)} (hs : s.Canon) :
    OutCanon (execCoherenceData l core st d s) := by
  unfold Machine.execCoherenceData
  dsimp only
  split
  · exact hs.postAt
  refine .post ?_
  split
  · exact hs.install.applyWaiting
  refine .drainWait (.applyWaiting (.install (.modSliceOf ?_ (fun x hx => hx))))
  split
  · exact hs.dropOthers.modSliceOf fun x hx => hx.modLine
  · exact hs.dropDie.fill

theorem State.Canon.execCompletionNotice {l : Line} (hs : s.Canon) : OutCanon (execCompletionNotice l s) :=
  State.Canon.drainWait (hs.modHome (fun _ hx => hx))

/-! ## Leases -/

theorem State.Canon.readLease {core : Nat} {a : Access} {x : L1Line} (hs : s.Canon) : (s.readLease core a x).Canon := by
  unfold State.readLease
  refine .finish ?_
  split
  · exact .deliver (.ite hs.bumpPts.notBefore.bumpPts hs.bumpPts.notBefore.readStamp)
  · exact .ite hs.bumpPts.notBefore.bumpPts hs.bumpPts.notBefore.readStamp

theorem State.Canon.hitLease {core : Nat} {a : Access} {x : L1Line} (hs : s.Canon) : (s.hitLease core a x).Canon :=
  .readLease (hs.modCore (fun _ hc => hc.modL1))

theorem State.Canon.takeLease {core : Nat} {l : Line} {y : SLine} {rts : BitVec 16} {ready : Nat} (hs : s.Canon) :
    (s.takeLease core l y rts ready).Canon := by
  unfold State.takeLease
  refine .ite hs (.fillL1 ?_)
  split
  · exact hs
  · exact .ite hs (hs.modCore (fun c hc => hc))

theorem State.Canon.extend {l : Line} {p : BitVec 16} (hs : s.Canon) : (s.extend l p).Canon :=
  hs.modHome fun _ hx => hx.modLine

theorem State.Canon.serveLease {core : Nat} {l : Line} (hs : s.Canon) : (s.serveLease core l).Canon := by
  unfold State.serveLease
  refine hs.foldl fun s1 x hs1 => ?_
  split
  · exact hs1.finish
  · split
    · exact hs1
    · exact hs1.readLease
  · exact hs1

theorem State.Canon.execLeaseRenew {l : Line} {core : Nat} (hs : s.Canon) : OutCanon (execLeaseRenew l core s) := by
  unfold Machine.execLeaseRenew
  refine State.Canon.ite hs.postAt (.ite ?_ ?_)
  · dsimp only
    split
    · exact .extend (.ensureHome (hs.foldl (fun s1 x hs1 => hs1.atLeast)))
    · exact .serveLease (.takeLease (.modHome (.extend (.ensureHome (hs.foldl (fun s1 x hs1 => hs1.atLeast)))) (fun x hx => hx.modLine)))
  · dsimp only
    split
    · refine .ite hs ?_
      split
      · exact .extend (.ensureHome (hs.foldl (fun s1 x hs1 => hs1.atLeast)))
      · exact .fill (.modHome (.extend (.ensureHome (hs.foldl (fun s1 x hs1 => hs1.atLeast)))) (fun x hx => hx.modLine))
    · refine .serveLease (.takeLease (.ite hs ?_))
      split
      · exact .extend (.ensureHome (hs.foldl (fun s1 x hs1 => hs1.atLeast)))
      · exact .fill (.modHome (.extend (.ensureHome (hs.foldl (fun s1 x hs1 => hs1.atLeast)))) (fun x hx => hx.modLine))

theorem State.Canon.leaseWrite {core : Nat} {l : Line} (hs : s.Canon) : (s.leaseWrite core l).2.Canon := by
  unfold State.leaseWrite
  split
  · exact hs
  · exact .ite (.fillL1 (hs.modHome (fun x hx => hx.modLine)))
      (.modSliceOf (.fillL1 (hs.modHome (fun x hx => hx.modLine))) (fun x hx => hx.dropLine))

theorem State.Canon.stampLease {core : Nat} {a : Access} {l : Line} (hs : s.Canon) : (s.stampLease core a l).Canon :=
  .ite (hs.publishStamps.modHome (fun _ hx => hx.modLine)) hs

theorem State.Canon.execLeaseWriteThrough {core seq : Nat} (hs : s.Canon) : OutCanon (execLeaseWriteThrough core seq s) := by
  unfold Machine.execLeaseWriteThrough
  split
  · exact hs
  dsimp only
  split
  · exact hs.postAt
  split
  · exact .ackStore (hs.ensureHome.homePut.stampLease.leaseWrite.modCore (fun c hc => hc.modAccess))
  · exact hs

theorem State.Canon.execPtsTick {untouched : Bool} (hs : s.Canon) : OutCanon (execPtsTick untouched s) := by
  unfold Machine.execPtsTick
  split
  · have h : State.Canon { s with blank := { s.blank with pts := s.blank.pts + 1, tickAt := s.cycle } } := { hs with blank := hs.blank }
    dsimp only
    split <;> exact h
  · exact .setPts (hs.modCore fun c hc => hc)

theorem State.Canon.execPtsConfigWrite {mask : BitVec 2048} {v : BitVec 16} (hs : s.Canon) : OutCanon (execPtsConfigWrite mask v s) := by
  unfold Machine.execPtsConfigWrite
  generalize (List.range 2048).filter (fun i => mask.getLsbD i) = l
  have h : (l.foldl (fun (s : State) i => s.modCore i (fun c => { c with pts := v, tickAt := s.cycle })) s).Canon :=
    .foldl hs fun s i hs => hs.modCore fun c hc => hc
  exact { h with
    slices := Sparse.forall_mapVals (f := fun x => { x with mts := v }) h.slices fun _ hx => hx
    blankSlice := h.blankSlice }

theorem Core.Canon.wrap {c : Core} {q : BitVec 2} (hc : c.Canon) : (c.wrap q).Canon :=
  hc

theorem Slice.Canon.wrap {x : Slice} {die : Nat} {q : BitVec 2} (hx : x.Canon) : (x.wrap die q).Canon :=
  hx

theorem State.Canon.execWrapStep {q : BitVec 2} (hs : s.Canon) : OutCanon (execWrapStep q s) :=
  { hs with
    cores := Sparse.forall_mapVals hs.cores fun _ hc => hc.wrap
    blank := hs.blank.wrap
    slices := List.forall_mem_map.mpr fun p hp => (hs.slices p hp).wrap
    blankSlice := hs.blankSlice }

/-! ## Writes into patches -/

theorem State.Canon.patchWrite {n : Name} {twin : Bool} {who : Nat} {ty : Fmt} {w : PWrite} (hs : s.Canon) :
    (s.patchWrite n twin who ty w).2.Canon := by
  unfold State.patchWrite
  split
  · exact hs
  · exact hs.modPatch

/-! ## Accesses -/

theorem Core.Canon.addAll {c : Core} {l : List (Nat → Access)} (hc : c.Canon) : (c.addAll l).Canon := hc.foldl fun _ _ h => h.addAccess

theorem State.Canon.hostAddr {core : Nat} {pasid : BitVec 20} {va : Nat} {store : Bool} (hs : s.Canon) :
    (s.hostAddr core pasid va store).2.Canon := by
  unfold State.hostAddr
  dsimp only
  split
  · exact .ite (hs.modCore (fun c hc => hc)) hs
  split
  · exact .ite (hs.modCore (fun c hc => hc)) hs
  split
  · exact .ite (hs.modCore (fun c hc => hc)) hs
  · exact .modDie (.ite (hs.modCore (fun c hc => hc)) hs)

theorem State.Canon.hostPieces {core : Nat} {pasid : BitVec 20} {store : Bool} {l : List (Nat × Nat)} (hs : s.Canon) :
    (s.hostPieces core pasid store l).2.Canon := by
  induction l generalizing s with
  | nil => exact hs
  | cons x r ih =>
    unfold State.hostPieces
    split
    · exact hs.hostAddr.snd_of_eq ‹_›
    have ht := ih (hs.hostAddr.snd_of_eq ‹_›)
    split <;> exact ht.snd_of_eq ‹_›

theorem State.Canon.share {l : Line} (hs : s.Canon) : (s.share l).Canon := by
  unfold State.share
  dsimp only
  split
  · exact hs.shareOwner
  split
  · exact hs.shareOwner.shareOwner
  · exact .modHome (.ite (.homePut (hs.shareOwner.shareOwner.modSliceOf (fun x hx => hx.modLine)))
      (hs.shareOwner.shareOwner.modSliceOf (fun x hx => hx.modLine))) fun x hx => hx.sfMod

theorem State.Canon.homeStore {l : Loc} {bs : List (Option Byte)} (hs : s.Canon) : (s.homeStore l bs).Canon := by
  induction bs generalizing s l with
  | nil => exact hs
  | cons b r ih =>
    refine ih ?_
    cases b with
    | none => exact hs
    | some b => exact hs.homePut

theorem State.Canon.takeLines {view lease : Bool} {cls : BitVec 2} {l : List Line} (hs : s.Canon) : (s.takeLines view lease cls l).Canon :=
  hs.foldl fun _ _ hs1 => .ensureHome (.ite hs1 hs1.recall)

theorem State.Canon.afterWrite {core : Nat} {a : Access} {lease : Bool} {ls : List Line} (hs : s.Canon) :
    (s.afterWrite core a lease ls).2.Canon := by
  unfold State.afterWrite
  split
  · exact .foldl_snd hs fun p l hp => hp.stampLease.leaseWrite
  · exact hs.publishStamps

/-! ## Serving accesses -/

theorem Core.Canon.fillStores {c : Core} {bank : Bool} {cycle : Nat} {r : TagRec} (hc : c.Canon) : (c.fillStores bank cycle r).Canon :=
  hc

theorem State.Canon.execLoadLand {t : BitVec 4} (hs : s.Canon) : OutCanon (execLoadLand t s) := by
  unfold Machine.execLoadLand
  show State.Canon _
  split
  · exact hs
  · exact .ite hs (.ite (hs.modBank.modCur (fun c hc => hc.fillStores))
      (.memFlags (.modBank (hs.modBank.modCur (fun c hc => hc.fillStores)))))

theorem State.Canon.wordFlags {core : Nat} {a : Access} (hs : s.Canon) : (s.wordFlags core a).Canon := by
  unfold State.wordFlags
  refine .ite hs.memFlags ?_
  split
  · exact hs.modCore fun c hc => hc.modAccess
  split
  · exact hs.mergeFlags
  · exact hs.modBankAt
  · exact hs

theorem State.Canon.execStoreAck {seq : Nat} (hs : s.Canon) : OutCanon (execStoreAck seq s) := by
  unfold Machine.execStoreAck
  split
  · exact hs
  refine .finish (.wordFlags ?_)
  split
  · exact hs
  · exact hs.bumpPts

theorem State.Canon.refuse {core : Nat} {a : Access} {code : BitVec 8} (hs : s.Canon) : (s.refuse core a code).Canon := by
  unfold State.refuse
  dsimp only
  split
  · refine .holdTrap (.finish ?_)
    split
    · exact hs.addLog
    · exact hs.addLog.modBankAt
  · refine .stopEntry (.holdTrap (.finish ?_))
    split
    · exact hs.addLog
    · exact hs.addLog.modBankAt

theorem State.Canon.execErrorResponse {code : BitVec 8} {seq : Nat} (hs : s.Canon) : OutCanon (execErrorResponse code seq s) := by
  unfold Machine.execErrorResponse
  split
  · exact hs
  · exact hs.refuse

theorem State.Canon.answerAtomic {core : Nat} {a : Access} {vals : List RVal} {flags : FlagSet} {w : Option (BitVec 16)} {min : Nat}
    (hs : s.Canon) : (s.answerAtomic core a vals flags w min).Canon := by
  unfold State.answerAtomic
  refine .ackStore (.modCore ?_ (fun c hc => hc.modAccess))
  split
  · exact hs.modCore fun c hc => hc.modAccess
  · exact hs.modBankAt

theorem State.Canon.readLeaseHome {core : Nat} {ls : List Line} {view : Bool} {cls : BitVec 2} (hs : s.Canon) :
    (s.readLeaseHome core ls view cls).Canon := by
  unfold State.readLeaseHome
  refine .foldl (hs.foldl (fun s1 x hs1 => hs1.ensureHome.extend)) fun s1 x hs1 => ?_
  split
  · exact hs1
  · exact hs1.bumpPts

theorem State.Canon.acquireStamps {core : Nat} {a : Access} (hs : s.Canon) : (s.acquireStamps core a).Canon :=
  hs.readStamp

theorem State.Canon.dropLate {core : Nat} {a : Access} (hs : s.Canon) : (s.dropLate core a).Canon :=
  hs.holdTrap

theorem State.Canon.dropHere {addr : Word} (hs : s.Canon) : (s.dropHere addr).Canon :=
  hs.holdTrap

theorem State.Canon.execLatePatchWrite {addr : Word} (hs : s.Canon) : OutCanon (execLatePatchWrite addr s) := by
  unfold Machine.execLatePatchWrite
  split
  · exact hs.dropHere
  · exact hs.engTrap

theorem State.Canon.contribute {core : Nat} {a : Access} {n : Name} {twin : Bool} {bytes : List (Option Byte)} {ty : Fmt} (hs : s.Canon) :
    (s.contribute core a n twin bytes ty).2.Canon := by
  unfold State.contribute
  dsimp only
  split
  · exact hs.dropLate
  · exact hs.patchWrite

theorem State.Canon.patchMax {who : Nat} {a : Access} {patch : Name} {ty : Fmt} {x x2 : VecWord} {l : List Nat} (hs : s.Canon) :
    (s.patchMax who a patch ty x x2 l).1.Canon := by
  induction l generalizing s with
  | nil => exact hs
  | cons i r ih => exact ih hs.modPatch

theorem State.Canon.deviceAtomic {core : Nat} {a : Access} (hs : s.Canon) : (s.deviceAtomic core a).Canon := by
  unfold State.deviceAtomic
  dsimp only
  split
  · exact hs.takeLines.acquireStamps.homeStore.afterWrite.answerAtomic
  · exact .answerAtomic (.afterWrite (hs.takeLines.acquireStamps.foldl (fun s1 x hs1 => hs1.homeStore)))
  · exact hs.contribute.answerAtomic
  · refine .answerAtomic ?_
    split
    · exact hs.contribute
    split
    · exact hs.patchMax
    · exact hs.dropLate
  · exact .answerAtomic (.afterWrite (.afterWrite
      (.ite hs.takeLines.takeLines.acquireStamps.acquireStamps.homeStore.homeStore hs.takeLines.takeLines.acquireStamps.acquireStamps)))
  · exact .answerAtomic (.afterWrite (.homeStore
      (.ite hs.takeLines.takeLines.acquireStamps.acquireStamps.readLeaseHome hs.takeLines.takeLines.acquireStamps.acquireStamps)))
  all_goals exact hs

theorem State.Canon.hostWrite {l : List (Nat × Nat)} {bs : List (Option Byte)} (hs : s.Canon) : (s.hostWrite l bs).Canon := by
  induction l generalizing s bs with
  | nil => exact hs
  | cons x r ih => exact ih { hs with hostMem := Memory.wf_writeSome _ _ hs.hostMem }

theorem State.Canon.hostAtomic {core : Nat} {a : Access} {l : List (Nat × Nat)} {old : List Byte} (hs : s.Canon) :
    (s.hostAtomic core a l old).Canon := by
  unfold State.hostAtomic
  split
  · exact hs.hostWrite.answerAtomic
  · exact hs.hostWrite.answerAtomic
  · exact hs.finish

theorem State.Canon.hostServe {core : Nat} {a : Access} (hs : s.Canon) : (s.hostServe core a).Canon := by
  unfold State.hostServe
  split
  · exact .hostAtomic (hs.modCore fun c hc => hc.modAccess)
  split
  · exact hs.refuse
  split
  · exact .postAt ((hs.hostPieces.snd_of_eq ‹_›).modCore fun c hc => hc.modAccess)
  have h1 := hs.hostPieces.snd_of_eq ‹_›
  dsimp only
  split
  · exact .ite (h1.modCore fun c hc => hc.modAccess) h1.deliver.finish
  · exact .ite (h1.modCore fun c hc => hc.modAccess) h1.hostWrite.ackStore
  iterate 2 exact .ite h1.postAt (.ite h1.hostAtomic (.post (h1.modCore fun c hc => hc.modAccess)))
  all_goals exact h1.finish

theorem State.Canon.execHomeAtomic {core seq : Nat} (hs : s.Canon) : OutCanon (execHomeAtomic core seq s) := by
  unfold Machine.execHomeAtomic
  show State.Canon _
  split
  · exact hs
  dsimp only
  exact .ite hs.hostServe (.ite hs.postAt hs.deviceAtomic)

theorem State.Canon.obtain {l : Loc} {own : Bool} (hs : s.Canon) : (s.obtain l own).Canon :=
  .ite hs hs

theorem State.Canon.pin {l : Line} {view lease : Bool} {cls : BitVec 2} {job : Nat} (hs : s.Canon) :
    (s.pin l view lease cls job).2.Canon := by
  unfold State.pin
  dsimp only
  split
  · split
    · exact hs
    split
    · exact hs
    · exact hs.modHome fun x hx => hx.modLine
  · split
    · exact hs
    · exact hs.ensureHome.modHome fun x hx => hx.modLine

theorem State.Canon.cleanL1 {core : Nat} {l : Line} (hs : s.Canon) : (s.cleanL1 core l).Canon := by
  unfold State.cleanL1
  split
  · exact hs
  split
  · exact hs
  dsimp only
  exact .modSliceOf (hs.modCore (fun c hc => hc.modL1)) fun x hx => hx.modLine

theorem State.Canon.invalidateL1 {core : Nat} {l : Line} (hs : s.Canon) : (s.invalidateL1 core l).Canon := by
  unfold State.invalidateL1
  split
  · exact hs
  · exact .leaveL1 (hs.modCore (fun c hc => hc.dropL1))

theorem State.Canon.cleanAll {l : Line} (hs : s.Canon) : (s.cleanAll l).Canon := by
  unfold State.cleanAll
  extract_lets s1 clean s2 s3
  have h2 : s2.Canon := by
    dsimp only [s2]
    split
    · exact hs.share
    · exact .ite hs.share hs.share.hbmPutLine
  have h3 : s3.Canon := .modHome h2 fun x hx => hx.modLine.sfMod
  exact { h3 with
    cores := Sparse.forall_mapVals h3.cores fun _ hc => hc.modL1
    slices := List.forall_mem_map.mpr fun p hp => by
      split
      · exact h3.slices p hp
      · exact (h3.slices p hp).modLine }

theorem State.Canon.invalidateAll {l : Line} (hs : s.Canon) : (s.invalidateAll l).Canon := by
  have h := hs.recall (l := l)
  have hd : State.Canon { s.recall l with
      cores := Sparse.mapVals (fun c => c.dropL1 l) (s.recall l).cores
      slices := (s.recall l).slices.map (fun (p : Nat × Slice) => if p.1 / 64 = Line.homeDie l then p else (p.1, p.2.dropLine l)) } :=
    { h with
      cores := Sparse.forall_mapVals h.cores fun _ hc => hc.dropL1
      slices := List.forall_mem_map.mpr fun p hp => by
        split
        · exact h.slices p hp
        · exact (h.slices p hp).dropLine }
  unfold State.invalidateAll
  dsimp only
  split
  · exact hd
  split
  · split
    · exact .modHome hd.hbmPutLine fun x hx => hx.modLine
    · exact hd
  · exact hd.evictHome

theorem State.Canon.directRead {core : Nat} {a : Access} {mode : ViewMode} (hs : s.Canon) : (s.directRead core a mode).Canon := by
  unfold State.directRead
  split
  · exact .finish (.deliver (.atLeast (.readStamp (hs.foldl (fun s1 x hs1 => hs1.share)))))
  · exact hs.readLeaseHome.readStamp.atLeast.deliver.finish
  · exact .finish (.deliver (.atLeast (.foldl (.ite hs.readLeaseHome hs) (fun s1 x hs1 => hs1.bumpPts))))
  · exact .finish (.deliver (.atLeast (.foldl (.ite hs.readLeaseHome hs) (fun s1 x hs1 => hs1.bumpPts))))
  · exact hs.finish
  · exact hs.finish

theorem State.Canon.cachedRead {core : Nat} {a : Access} (hs : s.Canon) : (s.cachedRead core a).Canon := by
  unfold State.cachedRead
  refine .ite (hs.modCore (fun c hc => hc.modAccess)) (.ite ?_ ?_)
  · split
    · exact .ite hs.hitLease (.post (hs.atLeast.modCore (fun c hc => hc.modAccess)))
    · exact .post (hs.atLeast.modCore (fun c hc => hc.modAccess))
  · split
    · refine .ite (.sendReq (.modCore (.atLeast (.leaveL1 (hs.modCore (fun c hc => hc.dropL1)))) (fun c hc => hc.modAccess))) ?_
      split
      · exact hs.finish
      · exact hs.readCopy
    · exact .sendReq (hs.atLeast.modCore (fun c hc => hc.modAccess))

theorem State.Canon.cachedWrite {core : Nat} {a : Access} {v m : List Byte} (hs : s.Canon) : (s.cachedWrite core a v m).Canon := by
  unfold State.cachedWrite
  refine .ite (hs.modCore (fun c hc => hc.modAccess)) (.ite (.post (hs.modCore (fun c hc => hc.modAccess))) ?_)
  split
  · exact .ite hs.writeCopy (.sendReq (hs.modCore (fun c hc => hc.modAccess)))
  · exact .sendReq (hs.modCore (fun c hc => hc.modAccess))

theorem State.Canon.directWrite {core : Nat} {a : Access} {v m : List Byte} (hs : s.Canon) : (s.directWrite core a v m).Canon :=
  .ackStore (.modCore hs.takeLines.homeStore.afterWrite fun _ hc => hc.modAccess)

theorem State.Canon.directPatch {core : Nat} {a : Access} {n : Name} {twin : Bool} {bytes : List (Option Byte)} {ty : Fmt} (hs : s.Canon) :
    (s.directPatch core a n twin bytes ty).Canon := by
  unfold State.directPatch
  refine .ackStore (.modCore ?_ (fun c hc => hc.modAccess))
  split
  · exact hs.dropLate
  · exact hs.patchWrite

theorem State.Canon.serveStage {core : Nat} {a : Access} {store : Bool} {slice off laddr : Nat} (hs : s.Canon) :
    (s.serveStage core a store slice off laddr).Canon := by
  unfold State.serveStage
  split
  · exact .ackStore (hs.modSlice fun x hx => Memory.wf_writeBytes _ _ hx)
  · exact hs.arriveLocal.finish

theorem State.Canon.serve {core : Nat} {a : Access} (hs : s.Canon) : (s.serve core a).Canon := by
  unfold State.serve
  refine .ite ?_ (.ite (hs.modCore fun c hc => hc.modAccess) ?_)
  · split
    · exact hs.finish
    · exact hs.refuse
  extract_lets s1
  have h1 : s1.Canon := .ite hs hs.obtain
  clear_value s1
  dsimp only
  split
  · exact .sendSignal (.modCur (by exact h1) fun c hc => hc.dropAccess)
  · exact .ite h1.hostServe (.ite h1.directRead h1.cachedRead)
  · exact .ite h1.hostServe (.ite h1.directWrite h1.cachedWrite)
  · exact h1.directPatch
  iterate 6 exact .post (h1.modCore fun c hc => hc.modAccess)
  · exact h1.serveStage
  · exact .ite h1.finish (.ackStore (.ite h1.cleanAll h1.cleanL1))
  · exact .ackStore (.ite h1.invalidateAll h1.invalidateL1)
  · exact h1.cachedRead
  · exact h1.pin.answerAtomic
  · exact .ackStore (h1.modHome fun x hx => hx.modLine)

theorem State.Canon.execHostPageFault {seq : Nat} (hs : s.Canon) : OutCanon (execHostPageFault seq s) := by
  unfold Machine.execHostPageFault
  show State.Canon _
  split
  · exact hs
  split
  · exact hs.modCur fun c hc => hc.modAccess
  dsimp only
  split
  · exact .modBankAt (.ite hs (.ite hs (.postIn hs)))
  · exact .modCur (.ite hs (.ite hs (.postIn hs))) fun c hc => hc.setEngine

/-! ## The global words -/

theorem State.Canon.loadMode {t : State} {o : LdMod} {a : Word} {first : Loc} {v : ViewMode} {lat : Nat} (hs : s.Canon)
    (e : s.loadMode o a first = .ok (v, lat, t)) : t.Canon := by
  unfold State.loadMode at e
  split at e
  · obtain ⟨-, hs'⟩ := Prod.mk.inj (Except.ok.inj e)
    exact (Prod.mk.inj hs').2 ▸ hs
  · dsimp only at e
    split at e
    · exact nomatch e
    rename_i hr
    have ht := hs.resolveAs.snd_snd_of_eq hr
    split at e
    · split at e
      · split at e
        · exact (Prod.mk.inj (Prod.mk.inj (Except.ok.inj e)).2).2 ▸ ht
        · exact nomatch e
      · exact nomatch e
    · exact nomatch e

theorem State.Canon.loadCheck {t : State} {a : Word} {n : Nat} {o : LdMod} {l : List Piece} {v : ViewMode} {lat : Nat} (hs : s.Canon)
    (e : s.loadCheck a n o = .ok (l, v, lat, t)) : t.Canon := by
  unfold State.loadCheck at e
  split at e
  · exact nomatch e
  extract_lets m asof at e
  split at e
  · exact nomatch e
  split at e
  · exact nomatch e
  split at e
  · exact nomatch e
  rename_i hm
  have ht := hs.loadMode hm
  exact (Prod.mk.inj (Prod.mk.inj (Prod.mk.inj (Except.ok.inj e)).2).2).2 ▸ ht

theorem State.Canon.issueLoad {l : List Piece} {a n : Nat} {mode : ViewMode} {m : Mmc} {asof : Bool} {r : TagRec} {active : Nat → Bool}
    (hs : s.Canon) : (s.issueLoad l a n mode m asof r active).Canon :=
  .ite hs.allocate.postHere (hs.allocate.modCur (fun _ hc => hc.addAll))

theorem State.Canon.execLdg {h : Hdr} {ty : Fmt} {d : SDst} {mm : MemOp} {o : LdMod} {al : BitVec 4} (hs : s.Canon) :
    OutCanon (execLdg h ty d mm o al s) := by
  unfold Machine.execLdg
  refine hs.issue fun t ht => ?_
  dsimp only
  split
  · exact trivial
  · exact (ht.readAddr.loadCheck ‹_›).issueLoad

theorem State.Canon.execVldg {h : Hdr} {ty : Fmt} {d : VDst} {mm : MemOp} {o : LdMod} {al : BitVec 4} (hs : s.Canon) :
    OutCanon (execVldg h ty d mm o al s) := by
  unfold Machine.execVldg
  refine hs.issue fun t ht => ?_
  dsimp only
  split
  · exact trivial
  split
  · exact trivial
  · exact (ht.readAddr.loadCheck ‹_›).issueLoad.tagPort

theorem State.Canon.issueStore {l : List Piece} {a : Nat} {m : Mmc} {v mk : List Byte} (hs : s.Canon) : (s.issueStore l a m v mk).Canon :=
  hs.modCur fun _ hc => hc.addAll

theorem State.Canon.sendPatch {n : Name} {l : List Piece} {a : Word} {bytes : List (Option Byte)} {fw wb : Nat} {ty : Fmt} {pc : BitVec 15}
    {vec : Bool} (hs : s.Canon) : (s.sendPatch n l a bytes fw wb ty pc vec).Canon :=
  hs.modCur fun _ hc => hc.addAll

theorem State.Canon.storePatch {p : Fin 4} {l : List Piece} {a : Word} {v mk : List Byte} {ty : Fmt} {pc : BitVec 15} {vec : Bool}
    (hs : s.Canon) : (s.storePatch p l a v mk ty pc vec).Canon := by
  unfold State.storePatch
  split
  · exact trivial
  refine .ite trivial (.ite trivial (.ite hs.dropHere ?_))
  dsimp only
  split
  · exact trivial
  · exact hs.sendPatch

theorem State.Canon.globalStore {a : Word} {val : Fmt → List Byte × List Byte} {ty : Fmt} {o : StDst} {pc : BitVec 15} {vec : Bool}
    (hs : s.Canon) : (s.globalStore a val ty o pc vec).Canon := by
  unfold State.globalStore
  split
  · dsimp only
    split
    · exact trivial
    · exact .ite hs.issueStore trivial
  · dsimp only
    split
    · exact trivial
    · exact .ite hs.storePatch trivial

theorem State.Canon.execStg {h : Hdr} {ty : Fmt} {mm : MemOp} {c : SSrc} {o : StDst} (hs : s.Canon) : OutCanon (execStg h ty mm c o s) :=
  hs.issue fun _ ht => ht.readAddr.readS.globalStore

theorem State.Canon.execVstg {h : Hdr} {ty : Fmt} {mm : MemOp} {c : VSrc} {o : StDst} (hs : s.Canon) :
    OutCanon (execVstg h ty mm c o s) := by
  unfold Machine.execVstg
  refine hs.issue fun t ht => ?_
  dsimp only
  split
  · exact trivial
  · exact ht.readAddr.advancePorts.globalStore

theorem State.Canon.lineAccess {g : Seg} {a : Word} {op : AccOp} (hs : s.Canon) : (s.lineAccess g a op).Canon :=
  hs.modCur fun _ hc => hc.addAll

theorem State.Canon.execPrefg {h : Hdr} {mm : MemOp} {l2 : Bool} (hs : s.Canon) : OutCanon (execPrefg h mm l2 s) := by
  unfold Machine.execPrefg
  refine hs.issue fun t ht => ?_
  dsimp only
  split
  · exact ht.readAddr
  · exact .ite ht.readAddr.lineAccess ht.readAddr

theorem State.Canon.execCpin {h : Hdr} {d : SDst} {mm : MemOp} {al : BitVec 4} (hs : s.Canon) : OutCanon (execCpin h d mm al s) := by
  unfold Machine.execCpin
  refine hs.issue fun t ht => ?_
  dsimp only
  split
  · exact ht.readAddr.landLater
  split
  · exact trivial
  split
  · exact ht.readAddr.landLater
  · exact ht.readAddr.allocate.lineAccess

theorem State.Canon.execCunpin {h : Hdr} {mm : MemOp} (hs : s.Canon) : OutCanon (execCunpin h mm s) := by
  unfold Machine.execCunpin
  refine hs.issue fun t ht => ?_
  dsimp only
  split
  · exact trivial
  split
  · exact ht.readAddr
  · exact ht.readAddr.lineAccess

theorem State.Canon.maintain {h : Hdr} {mm : MemOp} {op : AccOp} (hs : s.Canon) : (s.maintain h mm op).Canon := by
  unfold State.maintain
  refine hs.issue fun t ht => ?_
  dsimp only
  split
  · exact ht.readAddr
  split
  · split
    · split
      · exact ht.readAddr.lineAccess
      · exact trivial
    · exact trivial
  · split
    · exact ht.readAddr
    · exact ht.readAddr.lineAccess

theorem State.Canon.atomicAccess {p : Piece} {a : Word} {n : Nat} {m : Mmc} {op : AccOp} (hs : s.Canon) :
    (s.atomicAccess p a n m op).Canon :=
  hs.modCur fun _ hc => hc.addAll

theorem State.Canon.retTag {al : BitVec 4} {dst : List RDst} {ty : Fmt} {bits : VecWord} (hs : s.Canon) : (s.retTag al dst ty bits).Canon :=
  .ite hs hs.allocate

theorem State.Canon.cellAtomic {k : Rmw} {ty : Fmt} {a x cmp : Word} {m : Mmc} {al : BitVec 4} {dst : List RDst} (hs : s.Canon) :
    (s.cellAtomic k ty a x cmp m al dst).Canon := by
  unfold State.cellAtomic
  refine .ite trivial ?_
  split
  · exact trivial
  split
  · exact hs
  · exact .ite trivial hs.retTag.atomicAccess

theorem State.Canon.atomicOp {k : Rmw} {h : Hdr} {ty : Fmt} {mm : MemOp} {c : SSrc} {o : Mmc} {al : BitVec 4} (hs : s.Canon) :
    (atomicOp k h ty mm c o al s).Canon :=
  hs.issue fun _ ht => ht.readAddr.readS.cellAtomic

theorem State.Canon.execAadd {h : Hdr} {ty : Fmt} {mm : MemOp} {c : SSrc} {o : StDst} {al : BitVec 4} (hs : s.Canon) :
    OutCanon (execAadd h ty mm c o al s) := by
  unfold Machine.execAadd
  split
  · exact hs.atomicOp
  refine hs.issue fun t ht => ?_
  dsimp only
  split
  · exact trivial
  split
  · exact trivial
  split
  · exact trivial
  split
  · exact trivial
  · exact ht.readAddr.readS
  · exact ht.readAddr.readS.retTag.atomicAccess

theorem State.Canon.execAcas {h : Hdr} {ty : Fmt} {d : Fin 64} {mm : MemOp} {c : SSrc} {al : BitVec 4} (hs : s.Canon) :
    OutCanon (execAcas h ty d mm c al s) :=
  hs.issue fun _ ht => ht.readAddr.readS.cellAtomic

theorem State.Canon.execAdcas {h : Hdr} {x : Fmt} {d : Fin 32} {a b : SSrc} {c : Fin 32} {al : BitVec 4} (hs : s.Canon) :
    OutCanon (execAdcas h x d a b c al s) := by
  unfold Machine.execAdcas
  refine hs.issue fun t ht => ?_
  dsimp only
  split
  · exact trivial
  split
  · exact trivial
  split
  · exact trivial
  · exact trivial
  · exact trivial
  · split
    · split
      · exact trivial
      split
      · exact trivial
      · exact ht.readS.readS.retTag.atomicAccess
    · exact trivial
    · exact trivial

theorem State.Canon.execAmove {h : Hdr} {ty : Fmt} {d : SDst} {a b : SSrc} {al : BitVec 4} (hs : s.Canon) :
    OutCanon (execAmove h ty d a b al s) := by
  refine hs.issue fun t ht => .ite trivial (.ite trivial ?_)
  split
  · exact trivial
  · exact trivial
  · exact trivial
  · split
    · exact .ite trivial (.ite trivial (.atomicAccess ht.readS.readS.retTag))
    · exact trivial
    · exact trivial

theorem State.Canon.rowAtomic {mx : Bool} {h : Hdr} {ty : Fmt} {a : SSrc} {off : BitVec 16} {pair : Bool} {c : VSrc} {o : StDst}
    {al : BitVec 4} (hs : s.Canon) : (rowAtomic mx h ty a off pair c o al s).Canon := by
  refine hs.issue fun t ht => .ite trivial ?_
  split
  · exact trivial
  split
  · exact ht.readS
  dsimp only
  split
  · exact .ite trivial (.atomicAccess ht.readS.advancePorts.retTag)
  split
  · exact trivial
  split
  · exact trivial
  · exact .atomicAccess ht.readS.advancePorts.retTag

end Sys2Proof.Machine

end

section
/-!
PROOF. Every step keeps every memory canonical, continued: the name and patch words, and the engines.
-/
open Sys2Proof Sys2Proof.Machine

namespace Sys2Proof.Machine

variable {s : State}

/-! ## The name words -/

theorem State.Canon.hold {min : Nat} {pc : BitVec 15} {t : Option TrapInfo} {writes : List (Reg × RVal)} (hs : s.Canon) :
    (s.hold min pc t writes).Canon :=
  hs.modBank.postHere

theorem State.Canon.report (hs : s.Canon) : s.report.Canon := by
  unfold State.report
  split
  · exact hs
  dsimp only
  split
  · exact .afterTrap (.modBank (.ite hs.modBank.logHere hs.modBank))
  · exact hs.modBank.modBank

theorem State.Canon.journalRecord {high : Option Nat} (hs : s.Canon) : (s.journalRecord high).Canon := hs

theorem State.Canon.journalDeath {n : Name} (hs : s.Canon) : (s.journalDeath n).Canon :=
  .ite (.journalRecord hs) hs

theorem State.Canon.journalIssue (hs : s.Canon) : s.journalIssue.Canon :=
  .ite hs.journalRecord hs

theorem State.Canon.issueAt {base : Name} {cls : BitVec 8} {b : Binding} (hs : s.Canon) : (s.issueAt base cls b).2.Canon := by
  unfold State.issueAt
  split
  · exact .enterName (.ite hs.journalIssue hs.journalIssue)
  · exact hs.setPeer

theorem State.Canon.execJournalDurable {id : Nat} (hs : s.Canon) : OutCanon (execJournalDurable id s) := by
  unfold Machine.execJournalDurable
  split
  · exact hs
  dsimp only
  split <;> exact hs

theorem State.Canon.dropViews {t : Tensor} (hs : s.Canon) : (s.dropViews t).Canon :=
  hs.foldl fun _ _ hs1 => hs1.evictHome

theorem State.Canon.latest {t : State} {g : Seg} {a n : Nat} {bs : List Byte} (hs : s.Canon) (e : s.latest g a n = some (bs, t)) :
    t.Canon := by
  unfold State.latest at e
  dsimp only at e
  split at e
  · exact nomatch e
  obtain ⟨-, rfl⟩ := Prod.mk.inj (Option.some.inj e)
  split
  · exact hs
  · exact hs.foldl fun t x ht => ht.share

theorem State.Canon.newName {d : Fin 16} {cls : BitVec 8} {b : Binding} {pc : BitVec 15} (hs : s.Canon) : (s.newName d cls b pc).Canon :=
  .ite hs.tick.resultLocked (.ite (.hold (.enterName (.ite hs.journalIssue hs.journalIssue)))
    (.resultLocked (.tick (.enterName (.ite hs.journalIssue hs.journalIssue)))))

theorem State.Canon.execNnew {h : Hdr} {d : Fin 16} {f : NNewForm} (hs : s.Canon) : OutCanon (execNnew h d f s) := by
  unfold Machine.execNnew
  split
  · refine hs.issue fun t ht => ?_
    dsimp only
    refine .ite trivial (.ite trivial ?_)
    split
    · exact trivial
    split
    · exact trivial
    refine .ite trivial (.ite trivial ?_)
    split
    · exact trivial
    split
    · exact trivial
    · exact (ht.readS.latest ‹_›).dropViews.newName
  · exact hs.issue fun t ht => .ite ht.readS.newName trivial
  · refine hs.issue fun t ht => ?_
    dsimp only
    split
    · exact trivial
    · exact (ht.resolveAs.snd_snd_of_eq ‹_›).newName

theorem State.Canon.unchain {n : Name} (hs : s.Canon) : (s.unchain n).Canon :=
  hs

theorem State.Canon.emptyRegs {n : Name} (hs : s.Canon) : (s.emptyRegs n).Canon := hs.mapCores fun _ hc => hc

theorem State.Canon.killPatch {n : Name} (hs : s.Canon) : (s.killPatch n).Canon :=
  hs.unchain.removeName.emptyRegs

theorem State.Canon.leaveGone {n : Name} (hs : s.Canon) : (s.leaveGone n).Canon := hs.modBank.mapCores fun _ hc => hc

theorem State.Canon.buryPatches {e : NameEnt} (hs : s.Canon) : (s.buryPatches e).Canon := by
  unfold State.buryPatches
  split
  · exact hs.foldl fun s1 x hs1 => hs1.removeName
  all_goals exact hs

theorem State.Canon.destroyName {e : NameEnt} (hs : s.Canon) : (s.destroyName e).Canon :=
  .foldl (.foldl hs.buryPatches.removeName.journalDeath (fun _ _ hs1 => hs1.post)) fun _ _ hs1 => hs1.postHere

theorem State.Canon.endTensor {e : NameEnt} (hs : s.Canon) : (s.endTensor e).Canon := by
  unfold State.endTensor
  split
  · exact .dropViews (hs.foldl (fun s1 x hs1 => hs1.killPatch))
  all_goals exact hs

theorem State.Canon.execNdest {h : Hdr} {a : NSrc} (hs : s.Canon) : OutCanon (execNdest h a s) := by
  unfold Machine.execNdest
  refine hs.issue fun t ht => ?_
  dsimp only
  split
  · exact trivial
  split
  · exact trivial
  · exact .ite ht.logHere.modBank.trap (.ite trivial (ht.resolveAs.snd_snd_of_eq ‹_›).destroyName.modBank)

theorem State.Canon.execNameInvalidate {n : Name} {die : Nat} (hs : s.Canon) : OutCanon (execNameInvalidate n die s) := by
  unfold Machine.execNameInvalidate
  extract_lets s1 here s2 s3
  have h1 : s1.Canon := by
    dsimp only [s1]
    split
    · exact hs.buryPatches.removeName (n := n)
    · exact hs
  have h3 : s3.Canon :=
    { h1 with
      cores := List.forall_mem_map.mpr fun p hp => by
        split
        · exact h1.cores p hp
        · exact h1.cores p hp }
  exact State.Canon.ite h3.postAt h3.post

theorem State.Canon.execNameInvalidateAck {n : Name} {die : Nat} (hs : s.Canon) : OutCanon (execNameInvalidateAck n die s) := by
  unfold Machine.execNameInvalidateAck
  show State.Canon _
  split
  · exact hs
  split
  · exact hs
  split
  · exact hs
  rename_i d _ _ _
  have h := State.Canon.endTensor (s := { s with dying := s.dying.map (fun (d : Dying) =>
    if d.ent.name == n then { d with awaits := d.awaits.filter (fun x => x != die) } else d) }) (e := d.ent) hs
  dsimp only
  split
  · exact h
  · exact h.modBankAt

theorem State.Canon.landReg {al : BitVec 4} {r : Reg} {v : RVal} {min : Nat} (hs : s.Canon) : (s.landReg al r v min).Canon :=
  hs.landLater

theorem State.Canon.execNres {h : Hdr} {d : Fin 16} {a : NSrc} {al : BitVec 4} (hs : s.Canon) : OutCanon (execNres h d a al s) := by
  unfold Machine.execNres
  refine hs.issue fun t ht => ?_
  dsimp only
  split
  · exact trivial
  · refine State.Canon.landReg ?_
    split
    · exact ht.resolve
    · exact ht.resolve.bumpPts
  · split
    · exact ht.resolve.bumpPts.landReg
    all_goals exact ht.resolve.landReg

theorem State.Canon.execNcas {h : Hdr} {d : Fin 8} {a b c : NSrc} {al : BitVec 4} (hs : s.Canon) : OutCanon (execNcas h d a b c al s) := by
  unfold Machine.execNcas
  refine hs.issue fun t ht => ?_
  dsimp only
  split
  · exact trivial
  · have h1 := ht.resolveAs.snd_snd_of_eq ‹_›
    exact .ite trivial (.ite trivial (State.Canon.landReg (.ite h1.modEnt h1)))

theorem State.Canon.nmovReg {h : Hdr} {n : Need → Need} {f : State → State} (hs : s.Canon) (hf : ∀ t, t.Canon → (f t).Canon) :
    (nmovReg h n f s).Canon :=
  hs.issue fun _ ht => hf _ ht

theorem State.Canon.execNmov {h : Hdr} {f : NMovForm} (hs : s.Canon) : OutCanon (execNmov h f s) := by
  unfold Machine.execNmov
  split
  · exact hs.nmovReg fun t ht => ht.resultLocked
  · exact hs.nmovReg fun t ht => ht.resultLocked
  · exact hs.nmovReg fun t ht => ht.resultLocked
  · exact hs.nmovReg fun t ht => ht.resultLocked.resultLocked
  · exact hs.nmovReg fun t ht => ht.resultLocked
  · refine hs.issue fun t ht => .ite trivial (.ite ?_ ?_)
    · split
      · exact trivial
      · exact .ite trivial (.ite trivial ht.readAddr.touchLocal.tick.resultLocked)
    · split
      · exact trivial
      · exact .ite trivial (ht.readAddr.modCur fun c hc => hc.addAll)
  · refine hs.issue fun t ht => .ite trivial (.ite ?_ ?_)
    · split
      · exact trivial
      · exact ht.readAddr.storeLocal
    · split
      · exact trivial
      · exact ht.readAddr.issueStore

/-! ## The patch words -/

theorem State.Canon.setChainOf {t : Tensor} {sec : Nat} {l : List Name} (hs : s.Canon) : (s.setChainOf t sec l).Canon :=
  hs.setChain

theorem State.Canon.homeTrap {t : Tensor} {n : Nat} {pc : BitVec 15} {f : TrapInfo} (hs : s.Canon) : (s.homeTrap t n pc f).Canon :=
  hs.hold

theorem State.Canon.asTensor {n : Name} (hs : s.Canon) : (s.asTensor n).2.Canon := by
  unfold State.asTensor
  split
  · exact hs.resolveAs.snd_snd_of_eq ‹_›

theorem State.Canon.asPatch {n : Name} (hs : s.Canon) : (s.asPatch n).2.Canon := by
  unfold State.asPatch
  split
  · exact hs.resolveAs.snd_snd_of_eq ‹_›

theorem State.Canon.spoilViews {l : Line} {m : BitVec 4} (hs : s.Canon) : (s.spoilViews l m).Canon :=
  { hs with
    cores := Sparse.forall_mapVals hs.cores fun _ hc => hc.modL1
    slices := Sparse.forall_mapVals hs.slices fun _ hx => hx.modLine }

theorem State.Canon.changeViews {t : Tensor} {secs : List Nat} {core : Nat} {earlier : Option (BitVec 16)} (hs : s.Canon) :
    (s.changeViews t secs core earlier).Canon :=
  .foldl (hs.foldl (fun _ _ hs1 => .ite (.bumpPts (hs1.evictHome.modHome (fun _ hx1 => hx1))) hs1.spoilViews)) fun _ _ hs1 =>
    hs1.raiseStamp

theorem State.Canon.openPatch {d : Fin 4} {base : Name} {twin : Option Name} {t : Tensor} {pre : Bool} {k : PKind} {pc : BitVec 15}
    (hs : s.Canon) : (s.openPatch d base twin t pre k pc).Canon := by
  unfold State.openPatch
  split
  · exact hs.hold
  · exact .hold hs.issueAt

theorem State.Canon.execPbegin {h : Hdr} {d : Fin 4} {a : NSrc} {k : PKind} (hs : s.Canon) : OutCanon (execPbegin h d a k s) := by
  unfold Machine.execPbegin
  refine hs.issue fun t ht => ?_
  dsimp only
  split
  · exact trivial
  split
  · exact trivial
  split
  · exact trivial
  · have h1 := ht.asTensor.snd_of_eq ‹_›
    exact .ite h1.homeTrap h1.openPatch

theorem State.Canon.execPpair {h : Hdr} {d : Fin 4} {a b : NSrc} {k : PKind} (hs : s.Canon) : OutCanon (execPpair h d a b k s) := by
  unfold Machine.execPpair
  refine hs.issue fun t ht => ?_
  dsimp only
  split
  · exact trivial
  split
  · exact trivial
  split
  · exact trivial
  split
  · exact trivial
  · have h1 := (ht.asTensor.snd_of_eq ‹_›).asTensor.snd_of_eq ‹_›
    exact .ite h1.homeTrap (.ite h1.homeTrap (.ite h1.homeTrap h1.openPatch))

theorem State.Canon.execPjoin {h : Hdr} {d : Fin 4} {a : NSrc} (hs : s.Canon) : OutCanon (execPjoin h d a s) := by
  unfold Machine.execPjoin
  refine hs.issue fun t ht => ?_
  dsimp only
  split
  · exact trivial
  split
  · exact trivial
  split
  · exact trivial
  split
  · exact trivial
  · have h1 := ht.asPatch.snd_of_eq ‹_›
    exact .ite trivial (.ite h1.homeTrap h1.hold)

theorem State.Canon.raiseSealTime {base : Name} {p : BitVec 16} (hs : s.Canon) : (s.raiseSealTime base p).Canon :=
  hs

theorem State.Canon.takeSeal {base : Name} (hs : s.Canon) : (s.takeSeal base).2.Canon :=
  hs

theorem State.Canon.only {names : List Name} (hs : s.Canon) : (s.only names).Canon :=
  hs

theorem State.Canon.foldSide {from_ : State} {x : Side} (hs : s.Canon) (_ : from_.Canon) : (s.foldSide from_ x).Canon :=
  hs.foldl fun _ _ hs1 => hs1.hbmWrite

theorem State.Canon.foldPatches {core : Nat} {base : Name} {ps : List Patch} (hs : s.Canon) : (s.foldPatches core base ps).2.Canon :=
  .foldl (.foldl (hs.foldl (fun _ _ hs1 => hs1.changeViews)) (fun _ _ hs1 => hs1.foldSide hs.only)) fun _ _ hs1 => hs1.unchain

theorem State.Canon.makeRoom {t : State} {core : Nat} {x : Side} (hs : s.Canon) (e : s.makeRoom core x = some t) : t.Canon := by
  unfold State.makeRoom at e
  split at e
  · exact Option.some.inj e ▸ hs
  split at e
  · exact nomatch e
  split at e
  · exact nomatch e
  dsimp only at e
  split at e
  · exact nomatch e
  · exact Option.some.inj e ▸ hs.foldPatches

theorem State.Canon.makeRooms {t : State} {core : Nat} {l : List Side} (hs : s.Canon) (e : s.makeRooms core l = some t) : t.Canon := by
  induction l generalizing s with
  | nil => exact Option.some.inj e ▸ hs
  | cons x r ih =>
    unfold State.makeRooms at e
    split at e
    · exact nomatch e
    · exact ih (hs.makeRoom ‹_›) e

theorem State.Canon.append {n : Name} {x : Side} (hs : s.Canon) : (s.append n x).Canon :=
  hs.foldl fun _ _ hs1 => hs1.setChainOf

theorem State.Canon.sealPatch {t : State} {p : Patch} {core : Nat} (hs : s.Canon) (e : s.sealPatch p core = some t) : t.Canon := by
  have htwin : ∀ {w : State} {o : Option PHalf}, w.Canon →
      (match o with
        | none => (0, w)
        | some h => w.takeSeal h.base : Nat × State).2.Canon := by
    intro w o hw
    split
    · exact hw
    · exact hw.takeSeal
  have hend : ∀ {w : State} {q : Patch}, w.Canon →
      ((if (w.patch q.name).isSome then w.modPatch q.name (fun _ => q) else
        { w with patches := w.patches ++ [q] }).emptyRegs q.name).Canon :=
    fun hw => .emptyRegs (.ite hw.modPatch hw)
  unfold State.sealPatch at e
  split at e
  · exact nomatch e
  rename_i u hu
  extract_lets takes image sides p1 s1 carried time s2 at e
  have h1 : s1.Canon := .foldl (hs.makeRooms hu) fun s x hs => hs.changeViews
  have h2 : s2.Canon := .foldl h1 fun s x hs => hs.raiseSealTime
  clear_value s2
  rw [← Option.some.inj e]
  exact hend (.foldl (htwin h2.takeSeal) fun s x hs => hs.append)

theorem State.Canon.sealReport {core : Nat} {bank : Bool} {full : Option Name} {min : Nat} (hs : s.Canon) :
    (s.sealReport core bank full min).Canon := by
  unfold State.sealReport
  refine .post ?_
  split
  · exact hs
  · exact hs.modBankAt

theorem State.Canon.execPartialCollect {n : Name} {c : Nat} (hs : s.Canon) : OutCanon (execPartialCollect n c s) := by
  unfold Machine.execPartialCollect
  show State.Canon _
  split
  · exact hs
  split
  · exact hs
  refine .ite hs (.ite hs.modPatch (.ite hs.modPatch.modPatch.postAt ?_))
  split
  · dsimp only
    exact .sealReport (.ite hs.modPatch.modPatch.killPatch hs.modPatch.modPatch)
  · exact (hs.modPatch.sealPatch ‹_›).modBankAt.sealReport

theorem State.Canon.execPseal {h : Hdr} {a : PSrc} (hs : s.Canon) : OutCanon (execPseal h a s) := by
  unfold Machine.execPseal
  refine hs.issue fun t ht => ?_
  split
  · exact trivial
  split
  · exact trivial
  split
  · exact trivial
  refine .ite ht.homeTrap (.ite (.ite trivial (ht.modPatch.modBank.foldl (fun s1 x hs1 => .ite hs1.post hs1.postHere))) (.ite trivial ?_))
  dsimp only
  split
  · exact ht.homeTrap
  · exact (ht.sealPatch ‹_›).hold.modBank

theorem State.Canon.execPabort {h : Hdr} {a : PSrc} (hs : s.Canon) : OutCanon (execPabort h a s) := by
  refine hs.issue fun t ht => ?_
  split
  · exact trivial
  split
  · exact trivial
  split
  · exact trivial
  dsimp only
  exact .ite trivial (.ite ht.leaveGone.killPatch.hold ht.modPatch.modBank.hold)

theorem State.Canon.killOpenOf {job : Nat} (hs : s.Canon) : (s.killOpenOf job).Canon :=
  hs.foldl fun _ _ hs1 => hs1.killPatch

theorem State.Canon.execPcomm {h : Hdr} {a b : NSrc} (hs : s.Canon) : OutCanon (execPcomm h a b s) := by
  refine hs.issue fun t ht => ?_
  split
  · exact trivial
  split
  · exact trivial
  split
  · exact trivial
  split
  · exact trivial
  have h1 := (ht.asPatch.snd_of_eq ‹_›).asPatch.snd_of_eq ‹_›
  refine .ite trivial (.ite h1.homeTrap (.ite h1.homeTrap (.ite h1.hold ?_)))
  split
  · exact h1.homeTrap
  · exact State.Canon.hold (h1.foldl fun s1 x hs1 => hs1.foldl fun s2 x1 hs2 => hs2.setChainOf.raiseStamp)

theorem State.Canon.createSealed {d : Fin 16} {make : Name → Patch} {base : Name} {t : Tensor} {pc : BitVec 15} (hs : s.Canon) :
    (s.createSealed d make base t pc).Canon := by
  unfold State.createSealed
  dsimp only
  split
  · exact hs.hold
  refine .hold ?_
  have h := hs.issueAt (base := base) (cls := Cls.patch) (b := .patch)
  cases e : (s.issueAt base Cls.patch .patch).2.sealPatch (make (s.issueAt base Cls.patch .patch).1)
    (s.issueAt base Cls.patch .patch).2.focus.core with
  | none => exact h
  | some t => exact h.sealPatch e

theorem State.Canon.execPinv {h : Hdr} {d : Fin 16} {a : NSrc} (hs : s.Canon) : OutCanon (execPinv h d a s) := by
  refine hs.issue fun t ht => ?_
  split
  · exact trivial
  split
  · exact trivial
  split
  · exact trivial
  refine .ite trivial ?_
  split
  · exact (ht.asPatch.snd_of_eq ‹_›).homeTrap
  · have h1 := ht.asPatch.snd_of_eq ‹_›
    exact .ite h1.homeTrap (State.Canon.ite h1.createSealed.modBank h1.createSealed)

theorem State.Canon.execPxpl {h : Hdr} {d : Fin 16} {a b : NSrc} {c : SSrc} {mv : Bool} (hs : s.Canon) :
    OutCanon (execPxpl h d a b c mv s) := by
  unfold Machine.execPxpl
  refine hs.issue fun t ht => ?_
  dsimp only
  split
  · exact trivial
  split
  · exact trivial
  split
  · exact trivial
  split
  · exact trivial
  have h1 := (ht.readS.asPatch.snd_of_eq ‹_›).asTensor.snd_of_eq ‹_›
  refine .ite trivial (.ite h1.homeTrap (.ite h1.homeTrap (.ite h1.homeTrap ?_)))
  split
  · exact h1.homeTrap
  refine .ite trivial ?_
  split
  · exact h1.homeTrap
  · exact .ite h1.homeTrap (State.Canon.ite h1.createSealed.changeViews.killPatch.journalDeath h1.createSealed)

theorem State.Canon.execPsquash {h : Hdr} {a b : NSrc} {x : Bool} (hs : s.Canon) : OutCanon (execPsquash h a b x s) := by
  unfold Machine.execPsquash
  refine hs.issue fun t ht => ?_
  dsimp only
  split
  · exact trivial
  split
  · exact trivial
  split
  · exact trivial
  have h1 := (ht.asTensor.snd_of_eq ‹_›).asPatch.snd_of_eq ‹_›
  split
  · exact .ite trivial h1.homeTrap
  refine .ite trivial ?_
  split
  · exact h1.homeTrap
  · exact h1.foldPatches.hold

theorem State.Canon.execPdrop {h : Hdr} {a : NSrc} (hs : s.Canon) : OutCanon (execPdrop h a s) := by
  refine hs.issue fun t ht => ?_
  split
  · exact trivial
  split
  · exact trivial
  split
  · exact trivial
  have h1 := ht.asPatch.snd_of_eq ‹_›
  refine .ite trivial ?_
  split
  · exact h1.homeTrap
  · exact h1.killPatch.journalDeath.hold
  split
  · exact h1.homeTrap
  · exact State.Canon.hold (.journalDeath (.killPatch (h1.foldl fun s1 x hs1 => hs1.changeViews)))

theorem State.Canon.execPquery {h : Hdr} {d : SDst} {a : NSrc} {al : BitVec 4} (hs : s.Canon) : OutCanon (execPquery h d a al s) := by
  unfold Machine.execPquery
  refine hs.issue fun t ht => ?_
  dsimp only
  split
  · exact trivial
  · exact .ite trivial ht.resolve.landLater
  · split
    · exact trivial
    split
    · exact trivial
    · exact (ht.resolve.asPatch.snd_of_eq ‹_›).landLater

/-! ## What the engines share -/

theorem State.Canon.modEngine {f : Engine → Engine} (hs : s.Canon) : (s.modEngine f).Canon :=
  hs.modCur fun _ hc => hc.setEngine

theorem State.Canon.engWord {body : Entry → State → EngResult} (hs : s.Canon) (hbody : ∀ x t1, t1.Canon → (body x t1).Canon) :
    (s.engWord body).Canon := by
  unfold State.engWord
  split
  · exact hs
  split
  · exact hs.modEngine
  · exact hs.engFault
  · exact ((hbody _ _ hs.modEngine).of_faultIn ‹_›).engFault
  · exact ((hbody _ _ hs.modEngine).of_ok ‹_›).modEngine
  · exact ((hbody _ _ hs.modEngine).of_jump ‹_›).modEngine
  · exact ((hbody _ _ hs.modEngine).of_more ‹_›).modEngine

theorem EngResult.Canon.popped {n : Entry} {k : Nat} {f : List Nat → Entry → EngResult} (hf : ∀ x x1, (f x x1).Canon) :
    (n.popped k f).Canon := by
  unfold Entry.popped
  split
  · exact trivial
  · exact hf _ _

theorem State.Canon.pushed {n : Entry} {l : List StackWord} (hs : s.Canon) : (n.pushed l s).Canon := by
  unfold Entry.pushed
  split
  · exact trivial
  · exact hs

theorem Core.Canon.readSector {c : Core} {e : Eng} {bank : Bool} {x : Nat × Nat} (hc : c.Canon) : (c.readSector e bank x).2.Canon :=
  hc.take.touch

theorem Core.Canon.readFree {c : Core} {e : Eng} {bank : Bool} {free : Nat} {l : List (Nat × Nat)} (hc : c.Canon) :
    (c.readFree e bank free l).2.Canon := by
  induction l generalizing c free with
  | nil => exact hc
  | cons x r ih =>
    unfold Core.readFree
    split
    · exact ih hc.readSector
    · exact ih hc

theorem Core.Canon.readSome {c : Core} {e : Eng} {bank : Bool} {free : Nat} {l : List (Nat × Nat)} (hc : c.Canon) :
    (c.readSome e bank free l).2.Canon := by
  unfold Core.readSome
  split
  · split
    · exact hc
    · exact hc.readSector
  · exact hc.readFree

theorem State.Canon.skip {n : Nat} (hs : s.Canon) : (s.skip n).Canon :=
  hs

theorem State.Canon.withSource {ranges : List (Nat × Nat)} {f : (Nat → Nat → List Byte) → Entry → State → EngResult} {n : Entry}
    (hs : s.Canon) (hf : ∀ x x1 t2, t2.Canon → (f x x1 t2).Canon) : (withSource ranges f n s).Canon := by
  unfold Machine.withSource
  dsimp only
  split
  · exact hf _ _ _ (hs.skip.setCore hs.cur.readSome)
  · exact hs.skip.setCore hs.cur.readSome

theorem State.Canon.execExt {v : BitVec 14} (hs : s.Canon) : OutCanon (execExt v s) := by
  unfold Machine.execExt
  refine hs.engWord fun x t1 ht1 => ?_
  split
  · exact ht1.pushed
  · exact trivial

theorem State.Canon.execEngineIllegalWord {x : EngWord} (hs : s.Canon) : OutCanon (execEngineIllegalWord x s) := by
  unfold Machine.execEngineIllegalWord
  refine hs.engWord fun x1 t1 ht1 => ?_
  split
  · exact .ite trivial trivial
  · exact trivial

theorem State.Canon.execDup (hs : s.Canon) : OutCanon (execDup s) := by
  unfold Machine.execDup
  refine hs.engWord fun x t1 ht1 => ?_
  split
  · exact ht1.pushed
  · exact trivial

theorem State.Canon.execDrop (hs : s.Canon) : OutCanon (execDrop s) := by
  unfold Machine.execDrop
  refine hs.engWord fun x t1 ht1 => ?_
  split
  · exact ht1
  · exact trivial

theorem State.Canon.execSwap (hs : s.Canon) : OutCanon (execSwap s) := by
  unfold Machine.execSwap
  refine hs.engWord fun x t1 ht1 => ?_
  split
  · exact ht1.pushed
  · exact trivial

theorem State.Canon.execOver (hs : s.Canon) : OutCanon (execOver s) := by
  unfold Machine.execOver
  refine hs.engWord fun x t1 ht1 => ?_
  split
  · exact ht1.pushed
  · exact trivial

theorem State.Canon.execPopq {a : Fin 4} (hs : s.Canon) : OutCanon (execPopq a s) := by
  unfold Machine.execPopq
  refine hs.engWord fun x t1 ht1 => ?_
  dsimp only
  split
  · exact trivial
  split
  · exact trivial
  · exact ht1.modBankAt.pushed

theorem State.Canon.execPushb {a : Fin 4} (hs : s.Canon) : OutCanon (execPushb a s) := by
  unfold Machine.execPushb
  refine hs.engWord fun x t1 ht1 => ?_
  split
  · exact .ite trivial ht1.modBankAt
  · exact trivial

theorem State.Canon.execRetw (hs : s.Canon) : OutCanon (execRetw s) := by
  unfold Machine.execRetw
  refine hs.engWord fun x t1 ht1 => ?_
  split
  · exact trivial
  · exact ht1

theorem State.Canon.execWaitk {k : BitVec 8} (hs : s.Canon) : OutCanon (execWaitk k s) := by
  unfold Machine.execWaitk
  refine hs.engWord fun x t1 ht1 => .ite trivial (.ite trivial ?_)
  show State.Canon _
  split
  · exact ht1.setCore ht1.cur
  · exact .bumpPts (ht1.setCore ht1.cur)

theorem State.Canon.engSignal {n : Entry} {k : BitVec 8} (hs : s.Canon) : (s.engSignal n k).Canon := by
  unfold State.engSignal
  split
  · exact hs.setCore (hs.cur.incSem ‹_›).wakeOwners
  · exact hs.engTrap

theorem State.Canon.startStep {sc : Sched} (hs : s.Canon) : (s.startStep sc).Canon := by
  unfold State.startStep
  dsimp only
  split
  · exact hs.modEngine.engTrap
  · exact .ite hs.modEngine.engTrap hs.modEngine.modEngine

theorem State.Canon.resumeEntry {x : Eng × Entry × Option Name} (hs : s.Canon) : (s.resumeEntry x).Canon :=
  .ite (.engFault (.modEngine (hs.modCur (fun _ hc => hc)))) (.modEngine (hs.modCur (fun _ hc => hc)))

theorem State.Canon.execEntryStart (hs : s.Canon) : OutCanon (execEntryStart s) := by
  unfold Machine.execEntryStart
  refine State.Canon.ite hs ?_
  split
  · exact hs.resumeEntry
  split
  · exact hs.startStep
  split
  · exact hs
  dsimp only
  split
  · exact hs.engTrap.modCore fun c hc => hc.modBank.setEngine
  refine .modCore ?_ fun c hc => hc.modBank.setEngine
  split
  · refine hs.setCore ?_
    split
    · exact hs.cur.takeSem
    · exact hs.cur
  · refine .bumpPts (hs.setCore ?_)
    split
    · exact hs.cur.takeSem
    · exact hs.cur

theorem State.Canon.execEntryComplete (hs : s.Canon) : OutCanon (execEntryComplete s) := by
  unfold Machine.execEntryComplete
  refine State.Canon.ite hs ?_
  split
  · exact hs
  dsimp only
  exact .modEngine (.ite (.ite hs.engSignal hs) (.modBankAt (.ite hs.engSignal hs)))

/-! ## The Anvil -/

theorem State.Canon.startCmd {k : AnvilCmd} (hs : s.Canon) : (s.startCmd k).Canon :=
  .postAt (hs.modCur (fun _ hc => hc))

theorem Core.Canon.readForCmd {c : Core} {k : AnvilCmd} {x : Nat × Nat} (hc : c.Canon) : (c.readForCmd k x).Canon :=
  hc.take.touch

theorem Core.Canon.readForCmdAll {c : Core} {k : AnvilCmd} {l : List (Nat × Nat)} (hc : c.Canon) : (c.readForCmdAll k l).Canon := by
  refine .foldl hc fun c x hc => ?_
  split
  · exact hc.readForCmd
  · exact hc

theorem State.Canon.cmdReads {core : Nat} (hs : s.Canon) : (s.cmdReads core).Canon := by
  unfold State.cmdReads
  refine hs.foldl fun s1 x hs1 => hs1.skip.modCore fun c hc => ?_
  dsimp only
  split
  · exact hc.readForCmdAll
  · exact hc.readForCmdAll.readForCmdAll

theorem Core.Canon.readFirst {c : Core} {a n : Nat} (hc : c.Canon) : (c.readFirst a n).Canon :=
  .foldl hc fun _ _ hc => .foldl hc fun _ _ hc => hc.readForCmd

theorem State.Canon.tileCommand {n : Entry} {f : FmtWord → BitVec 32 → State → EngResult} (hs : s.Canon)
    (hf : ∀ x x1 t2, t2.Canon → (f x x1 t2).Canon) : (tileCommand n f s).Canon := by
  unfold Machine.tileCommand
  refine .ite trivial ?_
  split
  · exact trivial
  dsimp only
  split
  · exact hs.modCur fun c hc => hc
  · exact .ite (hf _ _ _ (hs.modCur (fun c hc => hc))) (hs.modCur (fun c hc => hc))

theorem State.Canon.modAnvil {n : Entry} {f : AnvilBank → AnvilBank} (hs : s.Canon) : (s.modAnvil n f).Canon :=
  hs.modBankAt

theorem State.Canon.setLoop {a : Fin 6} {count : Nat} {stride : Int} {n : Entry} (hs : s.Canon) : (setLoop a count stride n s).Canon :=
  .ite trivial hs.modAnvil

theorem State.Canon.setBase {a : Fin 8} {v : StackWord} {n : Entry} (hs : s.Canon) : (setBase a v n s).Canon :=
  hs.modAnvil

theorem State.Canon.swapPlanes {n : Entry} (hs : s.Canon) : (swapPlanes n s).Canon :=
  .ite trivial hs.modAnvil

theorem Core.Canon.clearSet {c : Core} {a : Fin 4} (hc : c.Canon) : (c.clearSet a).Canon :=
  hc

theorem State.Canon.zeroSet {a : Fin 4} {n : Entry} (hs : s.Canon) : (zeroSet a n s).Canon :=
  .ite trivial (.ite trivial (State.Canon.startCmd (hs.modCur (fun _ hc => hc.clearSet))))

theorem State.Canon.clearAmax {a : Fin 4} {n : Entry} (hs : s.Canon) : (clearAmax a n s).Canon :=
  .ite trivial hs.modBankAt

theorem State.Canon.loadStationary {n : Entry} (hs : s.Canon) : (loadStationary n s).Canon := by
  unfold Machine.loadStationary
  refine .ite trivial (hs.tileCommand fun x x1 t2 ht2 => (.ite ht2 (.ite ht2 (.ite ht2 ?_))))
  split
  · exact ht2
  dsimp only
  exact State.Canon.startCmd (ht2.modCur (fun c hc => hc.foldl (fun c1 x2 hc1 => hc1.take.touch)))

theorem State.Canon.finishLstat {core : Nat} {k : AnvilCmd} {f : FmtWord} (hs : s.Canon) : (s.finishLstat core k f).2.Canon :=
  hs.modBankAt

theorem State.Canon.stream {a : Fin 4} {n : Entry} (hs : s.Canon) : (stream a n s).Canon := by
  unfold Machine.stream
  refine .ite trivial (hs.tileCommand fun x x1 t2 ht2 => (.ite ht2 (.ite ht2 ?_)))
  dsimp only
  split
  · exact ht2
  · exact State.Canon.startCmd (ht2.modCur (fun c hc => hc))

theorem State.Canon.finishGo {core : Nat} {k : AnvilCmd} {a : Fin 4} {f : FmtWord} (hs : s.Canon) : (s.finishGo core k a f).2.Canon :=
  hs.setCore hs.core

theorem State.Canon.execAnvilCommandComplete {id : Nat} (hs : s.Canon) : OutCanon (execAnvilCommandComplete id s) := by
  unfold Machine.execAnvilCommandComplete
  show State.Canon _
  split
  · exact hs
  refine .ite (.postAt (.modCur (.ite hs (hs.modCur (fun c hc => hc.readForCmdAll))) (fun c hc => hc))) (.mergeFlags ?_)
  split
  · exact .finishLstat (.ite hs (hs.modCur (fun c hc => hc.readForCmdAll)))
  · exact .finishGo (.ite hs (hs.modCur (fun c hc => hc.readForCmdAll)))
  · exact .ite hs (hs.modCur (fun c hc => hc.readForCmdAll))

theorem State.Canon.drainSet {a : Fin 4} {n : Entry} (hs : s.Canon) : (drainSet a n s).Canon := by
  unfold Machine.drainSet
  refine .ite trivial (hs.tileCommand fun x x1 t2 ht2 => (.ite ht2 (.ite ht2 ?_)))
  dsimp only
  split
  · exact ht2
  · exact State.Canon.startCmd (ht2.setCore (.foldl (.ite ht2.cur.readFirst.readFirst ht2.cur.readFirst)
      (fun c x2 hc => .ite hc.localWrites.localWrites hc.localWrites)))

theorem State.Canon.microOp {body : Entry → State → EngResult} (hs : s.Canon) (hbody : ∀ x t1, t1.Canon → (body x t1).Canon) :
    (s.microOp body).Canon :=
  hs.engWord fun _ _ ht1 => .ite trivial (hbody _ _ ht1)

/-! ## The collective words -/

theorem State.Canon.modResume {tag : BitVec 16} {f : ResumeRec → ResumeRec} (hs : s.Canon) : (s.modResume tag f).Canon :=
  hs

theorem State.Canon.modSaveArea {tag : BitVec 16} {f : SaveArea → SaveArea} (hs : s.Canon) : (s.modSaveArea tag f).Canon :=
  hs

theorem State.Canon.savePacket {p : Packet} (hs : s.Canon) : (s.savePacket p).Canon := by
  unfold State.savePacket
  split
  · exact hs
  · exact .ite (.ite hs hs.logNobody.modResume) hs.modSaveArea.modResume

theorem State.Canon.latePacket {p : Packet} (hs : s.Canon) : (s.latePacket p).Canon := by
  unfold State.latePacket
  dsimp only
  split
  · exact hs.addLog.savePacket
  · exact .modResume hs.addLog

theorem State.Canon.divertPacket {p : Packet} (hs : s.Canon) : (s.divertPacket p).Canon := by
  unfold State.divertPacket
  split
  · exact .ite hs.latePacket hs.savePacket
  · exact hs.latePacket

theorem State.Canon.sendPacket {p : Packet} (hs : s.Canon) : (s.sendPacket p).Canon :=
  .ite (.post (hs.modCur (fun _ hc => hc.countSend))) (hs.modCur (fun _ hc => hc.countSend))

theorem State.Canon.noteSend {n : Entry} {count : Nat} (hs : s.Canon) : (s.noteSend n count).Canon :=
  hs.modCur fun _ hc => hc

theorem State.Canon.transfer {n : Entry} {typ : BitVec 4} {arg : BitVec 8} {targets : List (BitVec 12 × BitVec 11)} {raddr : Nat}
    {bytes : List Byte} (hs : s.Canon) : (s.transfer n typ arg targets raddr bytes).Canon :=
  hs.noteSend.foldl fun _ _ hs1 => hs1.foldl (fun _ _ hs2 => hs2.sendPacket)

theorem State.Canon.sendFrom {typ : BitVec 4} {arg : BitVec 8} {targets : List (BitVec 12 × BitVec 11)} {raddr laddr k : Nat} {n : Entry}
    (hs : s.Canon) : (sendFrom typ arg targets raddr laddr k n s).Canon :=
  .ite trivial (hs.withSource (fun _ _ _ ht2 => ht2.transfer))

theorem State.Canon.putWord {typ : BitVec 4} {arg : BitVec 8} {n : Entry} (hs : s.Canon) : (putWord typ arg n s).Canon := by
  unfold Machine.putWord
  refine EngResult.Canon.popped fun x x1 => .ite trivial ?_
  split
  · exact trivial
  · exact hs.sendFrom

theorem State.Canon.execCbcast (hs : s.Canon) : OutCanon (execCbcast s) := by
  unfold Machine.execCbcast
  refine hs.engWord fun x t1 ht1 => EngResult.Canon.popped fun x1 x11 => .ite trivial ?_
  split
  · exact trivial
  · exact ht1.sendFrom

theorem State.Canon.execCsig {k : BitVec 8} (hs : s.Canon) : OutCanon (execCsig k s) := by
  unfold Machine.execCsig
  refine hs.engWord fun x t1 ht1 => EngResult.Canon.popped fun x1 x11 => ?_
  exact .ite trivial (.ite trivial (.ite trivial (.ite ht1.engSignal ht1.noteSend.sendPacket)))

theorem State.Canon.execCslot (hs : s.Canon) : OutCanon (execCslot s) := by
  unfold Machine.execCslot
  refine hs.engWord fun x t1 ht1 => EngResult.Canon.popped fun x1 x11 => ?_
  split
  · dsimp only
    exact .ite trivial (State.Canon.ite (.postAt (ht1.modCur (fun c hc => hc))) (ht1.modCur (fun c hc => hc)))
  · exact trivial

theorem Core.Canon.judge {c : Core} {bank : Bool} (hc : c.Canon) : (c.judge bank).Canon :=
  hc.modBank

theorem State.Canon.ackOut {p : Packet} {code : BitVec 8} (hs : s.Canon) : (s.ackOut p code).Canon :=
  hs

theorem State.Canon.delivered {p : Packet} {err : Bool} (hs : s.Canon) : (s.delivered p err).Canon := by
  unfold State.delivered
  refine .ite hs.ackOut (.ite (hs.modCore (fun c hc => hc)) ?_)
  split
  · exact .holdTrap (hs.modCore (fun c hc => hc))
  · exact .ite (.engFault (hs.modCore (fun c hc => hc))) (.holdTrap (hs.modCore (fun c hc => hc)))

theorem State.Canon.applyPacket {p : Packet} {f : Nat → Bool → State → State} (hs : s.Canon)
    (hf : ∀ x x1 t2, t2.Canon → (f x x1 t2).Canon) : (s.applyPacket p f).Canon := by
  unfold State.applyPacket
  refine .ite hs.delivered ?_
  split
  · exact (hf _ _ _ hs).delivered
  · exact .ite hs.divertPacket hs.delivered

theorem State.Canon.putBytesOf {p : Packet} {core : Nat} {bank : Bool} (hs : s.Canon) : (putBytesOf p core bank s).Canon :=
  hs.modCore fun _ hc => hc.storeLocal

theorem State.Canon.combineBytes {p : Packet} {core : Nat} {bank : Bool} (hs : s.Canon) : (combineBytes p core bank s).Canon :=
  .mergeFlags (hs.modCore (fun _ hc => hc.storeLocal))

theorem State.Canon.execSignalPacketApply {p : Packet} (hs : s.Canon) : OutCanon (execSignalPacketApply p s) := by
  unfold Machine.execSignalPacketApply
  refine State.Canon.ite hs.delivered ?_
  split
  · split
    · exact (hs.holdIncrement ‹_›).delivered
    · exact hs.delivered
  · refine .ite hs.delivered ?_
    split
    · exact (hs.setCore (hs.core.incSem ‹_›).wakeOwners).delivered
    refine .ite hs.ackOut ?_
    dsimp only
    split
    · exact hs.delivered.engTrap
    · exact hs.delivered.holdTrap

theorem State.Canon.execComm {h : Hdr} {m : MemOp} (hs : s.Canon) : OutCanon (execComm h m s) := by
  refine hs.issue fun t ht => ?_
  split
  · exact trivial
  split
  · exact trivial
  dsimp only
  split
  · exact trivial
  split
  · exact trivial
  split
  · exact trivial
  split
  · exact trivial
  refine .leaveBank ?_
  split
  · exact ht.readAddr.touchLocal.modBank.modCur fun c hc => hc
  split
  · exact .postAt (ht.readAddr.touchLocal.modBank.modCur (fun c hc => hc))
  · exact ht.readAddr.touchLocal.modBank.modCur fun c hc => hc

theorem State.Canon.endStep {p : Nat × Bool} (hs : s.Canon) : (s.endStep p).Canon :=
  .foldl (hs.setCore (.judge hs.core)) fun _ _ hs1 => hs1.combineBytes

theorem State.Canon.execCommStepEnd {job : Nat} {stage : Option (BitVec 4)} (hs : s.Canon) : OutCanon (execCommStepEnd job stage s) :=
  State.Canon.ite hs (.ite hs.tick.postAt (.releaseBarrier
    (.foldl (hs.foldl (fun _ _ hs1 => hs1.endStep)) (fun _ _ hs1 => hs1.modBankAt))))

theorem State.Canon.execHeldIncrement {tag : BitVec 16} {core : Nat} {k : BitVec 8} (hs : s.Canon) :
    OutCanon (execHeldIncrement tag core k s) := by
  show State.Canon _
  cases e : s.holdIncrement tag core k with
  | none => exact hs
  | some t => exact hs.holdIncrement e

end Sys2Proof.Machine

end

section
/-!
PROOF. Every step keeps every memory canonical, continued: saved banks, jobs, quenches, checkpoints, tile copies and the system words.
-/
open Sys2Proof Sys2Proof.Machine

namespace Sys2Proof.Machine

variable {s : State}

/-! ## Segments -/

theorem State.Canon.startBias {t : Sparse Seg} (hs : s.Canon) : (s.startBias t).Canon :=
  hs.foldl (fun _ _ hs1 => .ite hs1 (hs1.foldl (fun _ _ hs2 => .ite hs2 hs2)))

theorem State.Canon.readPieces {core : Nat} {pasid : Option (BitVec 20)} {l : List Piece} (hs : s.Canon) :
    (s.readPieces core pasid l).2.Canon := by
  induction l generalizing s with
  | nil => exact hs
  | cons p r ih =>
    have hrest : ∀ {q : Option (List Byte) × State}, q.2.Canon →
        (let (x, t) := q
         match x with
          | none => (none, t)
          | some bs => match t.readPieces core pasid r with
            | (none, u) => (none, u)
            | (some cs, u) => (some (bs ++ cs), u) : Option (List Byte) × State).2.Canon := by
      intro q hq
      dsimp only
      split
      · exact hq
      · split <;> exact (ih hq).snd_of_eq ‹_›
    refine hrest ?_
    split
    · exact .ite hs (.foldl hs fun t x ht => ht.share)
    split
    · exact hs
    · split <;> exact hs.hostPieces.snd_of_eq ‹_›

/-! ## Loading a job -/

theorem Core.Canon.loadOverlay {c : Core} {bank : Bool} {o : Overlay} {index : Nat} (hc : c.Canon) :
    (c.loadOverlay bank o index).Canon := by
  have h : Memory.wf (o.data.foldl (fun m x => Memory.write m x.1 x.2) c.mem) = true := Memory.wf_writeCells o.data hc
  exact .modBank h

theorem Core.Canon.clearFor {c : Core} {bank : Bool} (hc : c.Canon) : (c.clearFor bank).Canon := by
  have h := hc.foldl (l := c.ownedSems bank) (f := fun c k => { c.setSem k 0 with semPts := Sparse.erase c.semPts k.toNat }) fun c k hc =>
    hc
  exact h

theorem Core.Canon.vacate {c : Core} {bank : Bool} (hc : c.Canon) : (c.vacate bank).Canon :=
  hc.setBank

theorem State.Canon.exitTask (hs : s.Canon) : s.exitTask.Canon := by
  unfold State.exitTask
  split
  · exact hs.modBank.postHere
  dsimp only
  split
  · exact hs.modBank.leaveBank
  · exact .ite hs.modBank.leaveBank.post hs.modBank.leaveBank

theorem State.Canon.execExit {h : Hdr} (hs : s.Canon) : OutCanon (execExit h s) := by
  have hr : (if s.bank.trap.act then s else s.reportTouch).Canon := by
    split
    · exact hs
    · exact hs.reportTouch
  unfold Machine.execExit
  show State.Canon _
  split
  · dsimp only
    split
    · exact hr.deliverDue ‹_›
    refine hs.issue fun t ht => ?_
    split
    · exact trivial
    · exact ht.exitTask
  all_goals exact hs.issue fun t ht => ht

theorem State.Canon.execOverlayLoad (hs : s.Canon) : OutCanon (execOverlayLoad s) := by
  unfold Machine.execOverlayLoad
  refine State.Canon.ite hs ?_
  split
  · exact hs
  · exact .ite hs.postAt (.modBank (hs.modCur (fun c hc => hc.loadOverlay)))

/-! ## Bank images -/

theorem State.Canon.movePart {id rank : Nat} {at_ : Nat × Bool} (hs : s.Canon) : (s.movePart id rank at_).Canon := by
  unfold State.movePart
  split
  · exact hs
  · exact .modJob hs

theorem State.Canon.vacateSaved {core : Nat} {bank : Bool} (hs : s.Canon) : (s.vacateSaved core bank).Canon := by
  unfold State.vacateSaved
  dsimp only
  split
  · exact hs.setCore (.vacate (.clearFor hs.core))
  · exact .movePart (hs.setCore (.vacate (.clearFor hs.core)))

theorem Core.Canon.loadBank {c : Core} {bank : Bool} {v : SavedBank} {cycle : Nat} (hc : c.Canon) : (c.loadBank bank v cycle).Canon := by
  have hsems : ∀ {d : Core} {l : List (Nat × BitVec 16 × List (BitVec 16 × Bool))}, d.Canon → (l.foldl (fun (c : Core) x =>
      if c.ownsSem bank (BitVec.ofNat 8 x.1) then
        { c.setSem (BitVec.ofNat 8 x.1) x.2.1 with semPts := Sparse.put c.semPts x.1 x.2.2 } else c) d).Canon := by
    intro d l hd
    refine hd.foldl fun c x hc => ?_
    split <;> exact hc
  exact .foldl (.foldl (Memory.wf_writeRuns v.runBytes (hsems hc.setBank)) fun c a hc => hc.addAccess) fun c x hc => hc

theorem State.Canon.writePieces {l : List Piece} {bs : List Byte} (hs : s.Canon) : (s.writePieces l bs).Canon := by
  induction l generalizing s bs with
  | nil => exact hs
  | cons p r ih =>
    refine ih ?_
    split
    · exact hs
    · exact hs.takeLines.homeStore

theorem State.Canon.execBanksave {h : Hdr} {bank : Bool} {m : MemOp} (hs : s.Canon) : OutCanon (execBanksave h bank m s) := by
  unfold Machine.execBanksave
  extract_lets n body
  have hbody : (s.issue n none body).Canon := hs.issue fun t ht => by
    dsimp only [body]
    split
    · exact trivial
    · exact .ite trivial (State.Canon.vacateSaved ht.readAddr.writePieces)
  show State.Canon _
  split
  · dsimp only
    split
    · exact hbody
    · exact .ite hbody (hs.modCur fun c hc => hc.modBank)
  all_goals exact hbody

theorem State.Canon.execBankload {h : Hdr} {bank : Bool} {m : MemOp} (hs : s.Canon) : OutCanon (Machine.execBankload h bank m s) := by
  unfold Machine.execBankload
  refine hs.issue fun t ht => ?_
  have ha := ht.readAddr (x := m)
  generalize t.readAddr m = y at ha ⊢
  obtain ⟨a, t⟩ := y
  refine .ite trivial (.ite trivial ?_)
  split
  · exact trivial
  refine .ite trivial ?_
  split
  · exact trivial
  rename_i e
  have hu := ha.readPieces.snd_of_eq e
  dsimp only
  split
  · exact trivial
  refine .ite trivial ?_
  split
  · exact trivial
  rename_i e
  have hv := hu.readPieces.snd_of_eq e
  clear * - hv
  split
  · exact trivial
  split
  · exact trivial
  split
  · exact trivial
  generalize State.loadedBank _ _ _ _ = v
  refine Result.Canon.ite trivial (Result.Canon.ok ?_)
  split
  · exact hv.modCur fun c hc => hc.loadBank
  · exact .movePart (hv.modCur fun c hc => hc.loadBank)

/-! ## The Bellows -/

theorem State.Canon.postOnce {min : Nat} {ev : Instr} (hs : s.Canon) : (s.postOnce min ev).Canon :=
  .ite hs hs.post

theorem State.Canon.issueOr {cls : BitVec 8} (hs : s.Canon) : (s.issueOr cls).2.Canon := by
  unfold State.issueOr
  split
  · exact hs.issueName
  · exact hs

theorem State.Canon.accept {r : LaunchRec} {segs : Sparse Seg} {pts : Option (BitVec 16)} (hs : s.Canon) :
    (s.accept r segs pts).2.Canon := by
  unfold State.accept
  have h : (if (s.issueOr Cls.job).1 = 0 then (s.issueOr Cls.job).2
      else (s.issueOr Cls.job).2.enterName (s.issueOr Cls.job).1 (.job s.jobs.length) r.keyid).Canon := by
    split
    · exact hs.issueOr
    · exact hs.issueOr.enterName
  exact h

theorem State.Canon.execLaunch {h : Hdr} {m : MemOp} (hs : s.Canon) : OutCanon (execLaunch h m s) := by
  unfold Machine.execLaunch
  refine hs.issue fun t ht => ?_
  dsimp only
  split
  · exact trivial
  split
  · exact trivial
  split
  · exact trivial
  split
  · exact trivial
  split
  · exact trivial
  split
  · exact trivial
  show State.Canon _
  split
  · exact ht.readAddr.touchLocal.journalIssue.accept.storeLocal.hold
  · exact ht.readAddr.touchLocal.journalIssue.accept.storeLocal

theorem State.Canon.select (hs : s.Canon) : s.select.2.Canon :=
  hs

theorem State.Canon.kick (hs : s.Canon) : s.kick.Canon :=
  hs.foldl fun _ _ hs1 => .ite hs1.postOnce hs1

theorem State.Canon.readFor {j : Job} {a n : Nat} (hs : s.Canon) : (s.readFor j a n).2.Canon := by
  unfold State.readFor
  split
  · exact hs
  · split <;> exact hs.readPieces.snd_of_eq ‹_›

theorem State.Canon.failJob {id : Nat} {r : Report} (hs : s.Canon) : (s.failJob id r).Canon :=
  hs.modJob.postOnce

theorem Core.Canon.takeIn {c : Core} {bank whole : Bool} (hc : c.Canon) : (c.takeIn bank whole).Canon :=
  .clearFor (.ite hc hc)

theorem State.Canon.bumpAll {core : Nat} {l : List (BitVec 16)} (hs : s.Canon) : (s.bumpAll core l).Canon :=
  hs.foldl fun _ _ hs1 => hs1.bumpPts

theorem State.Canon.startCore {j : Job} {g : ProgImage} {params : List Byte} {segs : Sparse Seg} {bank : Bool} {rank core : Nat}
    (hs : s.Canon) : (s.startCore j g params segs bank rank core).Canon := by
  unfold State.startCore
  dsimp only
  split
  · exact hs
  · exact .bumpAll (hs.modCore (fun c hc => hc.takeIn.setBank.loadOverlay))

theorem State.Canon.startJob {j : Job} {bank : Bool} {cores : List Nat} (hs : s.Canon) : (s.startJob j bank cores).Canon := by
  unfold State.startJob
  split
  · rename_i e
    exact (hs.readFor.snd_of_eq e).failJob
  · rename_i e
    have h1 := hs.readFor.snd_of_eq e
    split
    · exact h1.failJob
    split
    · rename_i e
      exact (h1.readFor.snd_of_eq e).failJob
    · rename_i e
      have h2 := h1.readFor.snd_of_eq e
      split
      · rename_i e
        exact (h2.readFor.snd_of_eq e).failJob
      · rename_i e
        have h3 := h2.readFor.snd_of_eq e
        split
        · exact h3.failJob
        · exact .foldl h3.modJob.startBias fun s x hs => hs.startCore

theorem State.Canon.arriveNow {src core : Nat} {ev : Instr} (hs : s.Canon) : (s.arriveNow src core ev).Canon :=
  hs

theorem State.Canon.rewait {id : Nat} {p : Nat × Bool} (hs : s.Canon) : (s.rewait id p).Canon := by
  unfold State.rewait
  dsimp only
  split
  · exact .ite hs.post hs
  · exact .ite hs.releaseBarrier hs
  · exact .ite hs.post hs
  all_goals exact hs

theorem State.Canon.applyHeld {tag : BitVec 16} {core : Nat} {k : BitVec 8} (hs : s.Canon) : (s.applyHeld tag core k).Canon := by
  unfold State.applyHeld
  split
  · exact hs
  · exact hs.incSem

theorem State.Canon.restart {j : Job} {r : ResumeRec} {bank : Bool} {cores : List Nat} (hs : s.Canon) : (s.restart j r bank cores).Canon :=
  .foldl (.foldl (.foldl (.foldl (.modJob (hs.foldl (fun _ _ hs1 => hs1.movePart)))
    (fun _ _ hs1 => hs1.modCore (fun _ hc => hc.takeIn.loadBank))) (fun _ _ hs1 => hs1.arriveNow))
    (fun _ _ hs1 => hs1.applyHeld)) fun _ _ hs1 => hs1.rewait

theorem State.Canon.execJobPlace {id : Nat} (hs : s.Canon) : OutCanon (execJobPlace id s) := by
  unfold Machine.execJobPlace
  show State.Canon _
  split
  · exact hs
  refine .ite hs ?_
  split
  · exact hs.failJob
  refine .ite hs ?_
  split
  all_goals have h1 := hs.select.snd_of_eq ‹_›
  · refine .ite (.postOnce (.ite h1.postOnce h1)) ?_
    split
    · exact .ite h1.restart.kick h1.postOnce
    · exact .ite h1.postOnce h1.startJob.kick
  · exact .ite h1.postOnce h1

theorem State.Canon.forgetBank {p : Nat × Bool} (hs : s.Canon) : (s.forgetBank p).Canon :=
  .modCore hs fun _ hc => hc

theorem State.Canon.vacateJob {j : Job} (hs : s.Canon) : (s.vacateJob j).Canon :=
  hs.foldl (fun _ _ hs1 => .ite (hs1.forgetBank.modCore (fun _ hc => hc.vacate)) hs1)

theorem State.Canon.endName {n : Name} {pts : BitVec 16} (hs : s.Canon) : (s.endName n pts).Canon :=
  (hs.removeName (n := n)).mapCores fun _ hc => hc

theorem State.Canon.clearPins {id : Nat} (hs : s.Canon) : (s.clearPins id).Canon := hs.mapSlices fun _ hx => hx

theorem State.Canon.execJobRetire {id : Nat} (hs : s.Canon) : OutCanon (execJobRetire id s) := by
  unfold Machine.execJobRetire
  show State.Canon _
  split
  · exact hs
  · exact .ite hs (.ite hs.postAt (.ite hs.journalDeath.postHere (.ite hs.postAt hs.vacateJob.killOpenOf.clearPins.endName.modJob.kick)))

theorem State.Canon.execJobFail {id : Nat} (hs : s.Canon) : OutCanon (execJobFail id s) := by
  unfold Machine.execJobFail
  show State.Canon _
  split
  · exact hs
  · exact .ite hs (.ite (.postAt (hs.foldl (fun s1 x hs1 => hs1.modBankAt)))
      (.kick (.foldl (.modJob (.clearPins (.killOpenOf (.vacateJob (hs.foldl (fun s1 x hs1 => hs1.modBankAt))))))
      (fun s1 x hs1 => .ite hs1.failJob hs1))))

theorem State.Canon.execPriorityAging {id : Nat} (hs : s.Canon) : OutCanon (execPriorityAging id s) := by
  unfold Machine.execPriorityAging
  show State.Canon _
  split
  · exact hs
  · exact .ite hs hs.modJob.kick.postIn

/-! ## Quenches -/

theorem State.Canon.modQuench {id : Nat} {f : Quench → Quench} (hs : s.Canon) : (s.modQuench id f).Canon :=
  hs

theorem State.Canon.startQuench {j : Job} {now : Bool} {issuer : Option (Nat × Bool)} {remote requeue : Bool} (hs : s.Canon) :
    (s.startQuench j now issuer remote requeue).Canon :=
  .ite hs.modQuench (.ite (hs.foldl (fun _ _ hs1 => hs1.modBankAt)) (.postIn (hs.foldl (fun _ _ hs1 => hs1.modBankAt))))

theorem State.Canon.letGo {p : Nat × Bool} (hs : s.Canon) : (s.letGo p).Canon :=
  hs.modBankAt

theorem State.Canon.withdraw {id : Nat} (hs : s.Canon) : (s.withdraw id).Canon :=
  hs.foldl fun _ _ hs1 => hs1.foldl (fun _ _ hs2 => hs2.modBankAt)

theorem State.Canon.stopParts {q : Quench} (hs : s.Canon) : (s.stopParts q).Canon :=
  .foldl (hs.withdraw.foldl (fun _ _ hs1 => hs1.letGo)) fun _ _ hs1 => hs1.modBankAt

theorem State.Canon.mayIssue (hs : s.Canon) : s.mayIssue.2.Canon := by
  unfold State.mayIssue
  split
  · exact hs
  · exact .ite hs hs.journalIssue

theorem State.Canon.openArea {q : Quench} {keyid : BitVec 7} (hs : s.Canon) : (s.openArea q keyid).Canon := by
  unfold State.openArea
  have h : (if (s.issueOr Cls.savearea).1 = 0 then (s.issueOr Cls.savearea).2
      else (s.issueOr Cls.savearea).2.enterName (s.issueOr Cls.savearea).1 (.savearea q.tag) keyid).Canon := by
    split
    · exact hs.issueOr
    · exact hs.issueOr.enterName
  exact h

theorem State.Canon.sweep {q : Quench} (hs : s.Canon) : (s.sweep q).Canon :=
  .modSaveArea (.foldl hs (fun _ _ hs1 => hs1.savePacket))

theorem State.Canon.saveParts {q : Quench} (hs : s.Canon) : (s.saveParts q).Canon :=
  .modResume (.tick (hs.foldl (fun _ _ hs1 => hs1.vacateSaved)))

theorem State.Canon.endQuench {q : Quench} (hs : s.Canon) : (s.endQuench q).Canon :=
  .kick (hs.modResume.modJob.foldl (fun _ _ hs1 => hs1.letGo))

theorem State.Canon.quenchStep {q : Quench} (hs : s.Canon) : (s.quenchStep q).Canon := by
  unfold State.quenchStep
  dsimp only
  split
  · exact hs
  refine .ite (hs.modQuench.foldl (fun s1 x hs1 => hs1.letGo)) ?_
  split
  · exact .ite hs.modQuench.stopParts.modQuench hs.modQuench
  · refine .ite ?_ hs.modQuench
    split
    · exact (hs.modQuench.mayIssue.snd_of_eq ‹_›).openArea.modQuench
    · exact hs.modQuench.mayIssue.snd_of_eq ‹_›
  · exact .ite hs.modQuench.sweep.modQuench hs.modQuench
  · exact hs.modQuench.saveParts.modQuench
  · exact .ite hs.modQuench.endQuench hs.modQuench

theorem State.Canon.quenchTick (hs : s.Canon) : s.quenchTick.Canon :=
  hs.foldl fun _ _ hs1 => hs1.quenchStep

theorem State.Canon.execQuench {h : Hdr} {a : NSrc} {now : Bool} (hs : s.Canon) : OutCanon (execQuench h a now s) := by
  unfold Machine.execQuench
  refine hs.issue fun t ht => ?_
  dsimp only
  split
  · exact trivial
  split
  · split
    · exact ht.resolveAs.snd_snd_of_eq ‹_›
    · have h1 := ht.resolveAs.snd_snd_of_eq ‹_›
      exact .ite h1 h1.startQuench.modBank
  all_goals exact ht.resolveAs.snd_snd_of_eq ‹_›

theorem State.Canon.execQresume {h : Hdr} {a : NSrc} (hs : s.Canon) : OutCanon (execQresume h a s) := by
  unfold Machine.execQresume
  refine hs.issue fun t ht => ?_
  dsimp only
  split
  · exact trivial
  split
  · exact trivial
  split
  · split
    · exact trivial
    · exact .ite trivial (.ite trivial (ht.resolveAs.snd_snd_of_eq ‹_›).tick.restart)
  · exact trivial

theorem State.Canon.execQuenchOrder {job : Name} {now : Bool} (hs : s.Canon) : OutCanon (execQuenchOrder job now s) := by
  unfold Machine.execQuenchOrder
  split
  · exact hs
  · exact hs.startQuench

theorem State.Canon.execQuenchReport {job : Name} {m : BitVec 12} (hs : s.Canon) : OutCanon (execQuenchReport job m s) :=
  hs

theorem State.Canon.askVictim {h id : Nat} (hs : s.Canon) : (s.askVictim h id).Canon :=
  .postIn (hs.modJob.foldl (fun _ _ hs1 => hs1.modBankAt))

theorem State.Canon.execPreempt {id : Nat} (hs : s.Canon) : OutCanon (execPreempt id s) := by
  unfold Machine.execPreempt
  show State.Canon _
  split
  · exact hs
  refine .ite hs ?_
  split
  · exact hs
  · exact hs.foldl fun s1 x hs1 => hs1.askVictim

theorem State.Canon.spare {id : Nat} (hs : s.Canon) : (s.spare id).Canon :=
  .foldl (.modJob hs) fun _ _ hs1 => hs1.modBankAt

theorem State.Canon.evictStep {v : Job} (hs : s.Canon) : (s.evictStep v).Canon := by
  unfold State.evictStep
  split
  · exact hs
  · exact .ite hs (.ite hs.spare (.ite hs (.ite (.ite hs.postOnce.spare hs.postOnce) hs.startQuench)))

theorem State.Canon.evictTick (hs : s.Canon) : s.evictTick.Canon :=
  hs.foldl fun _ _ hs1 => .ite hs1.evictStep hs1

theorem State.Canon.execGraceTimeExpiry {id : Nat} (hs : s.Canon) : OutCanon (execGraceTimeExpiry id s) := by
  unfold Machine.execGraceTimeExpiry
  show State.Canon _
  split
  · exact hs
  · exact .ite hs hs.startQuench

/-! ## Checkpoints -/

theorem State.Canon.modGather {id : Nat} {f : Ckpt → Ckpt} (hs : s.Canon) : (s.modGather id f).Canon :=
  hs

theorem State.Canon.writeShard {n : Name} {tag : BitVec 16} (hs : s.Canon) : (s.writeShard n tag).Canon :=
  .foldl hs fun _ _ hs1 => hs1.post

theorem State.Canon.snapshot {j : Job} {c : Ckpt} (hs : s.Canon) : (s.snapshot j c).Canon := by
  unfold State.snapshot
  have h : (if (s.issueOr Cls.checkpoint).1 = 0 then (s.issueOr Cls.checkpoint).2
      else (s.issueOr Cls.checkpoint).2.enterName (s.issueOr Cls.checkpoint).1 (.checkpoint j.id c.step) j.rcd.keyid).Canon := by
    split
    · exact hs.issueOr
    · exact hs.issueOr.enterName
  exact .writeShard (.foldl h fun s p hs => hs.modBankAt.post)

theorem State.Canon.execCkpt {h : Hdr} {a : Fin 16} {b : SSrc} {k : BitVec 8} (hs : s.Canon) : OutCanon (Machine.execCkpt h a b k s) := by
  have htail : ∀ {v : State} {j : Job} {waits : Bool}, v.Canon →
      Result.Canon (match v.ckpts.find? (fun c => c.job == j.id && c.name == 0) with
        | none => .ok v
        | some c => if (v.parts j.id).all c.arrived.contains then .ok ((if waits then v.journalIssue else v).snapshot j c) else .ok v) := by
    intro v j waits hv
    split
    · exact hv
    · exact .ite (State.Canon.snapshot (.ite hv.journalIssue hv)) hv
  unfold Machine.execCkpt
  refine hs.issue fun t ht => .ite trivial ?_
  split
  · exact trivial
  rename_i e
  have hu := ht.readS.resolveAs.snd_snd_of_eq e
  split
  · exact hu
  · exact .ite trivial (.ite trivial (htail (.modBank (.modGather (.ite hu hu)))))

theorem State.Canon.execFlaconWriteAck {key : Nat} (hs : s.Canon) : OutCanon (execFlaconWriteAck key s) := by
  unfold Machine.execFlaconWriteAck
  show State.Canon _
  split
  · exact hs
  · exact .ite hs.postAt (.ite (.postHere hs) hs)

theorem State.Canon.ckptSignal {j : Job} {x : Nat × Bool × BitVec 8} (hs : s.Canon) : (s.ckptSignal j x).Canon := by
  unfold State.ckptSignal
  split
  · exact hs.incSem
  cases e : s.holdIncrement j.tag x.1 x.2.2 with
  | none => exact hs
  | some t => exact hs.holdIncrement e

theorem State.Canon.execCheckpointDurable {n : Name} (hs : s.Canon) : OutCanon (execCheckpointDurable n s) := by
  unfold Machine.execCheckpointDurable
  split
  · exact hs
  split
  · exact hs
  dsimp only
  exact .foldl hs fun s1 x hs1 => hs1.ckptSignal

theorem State.Canon.undoFold {c : Ckpt} {u : Undo} (hs : s.Canon) : (s.undoFold c u).Canon :=
  .foldl (hs.foldl (fun _ _ hs1 => hs1.evictHome)) fun _ _ hs1 => hs1.hbmWrite

theorem State.Canon.rollback {j : Job} {c : Ckpt} {r : ResumeRec} (hs : s.Canon) : (s.rollback j c r).Canon := by
  unfold State.rollback
  extract_lets mine s1 later s2 s3 dead s4 banks s5
  have h1 : s1.Canon := .foldl hs.killOpenOf fun s p hs => hs.killPatch
  clear_value s1
  have h2 : s2.Canon := .foldl h1 fun s u hs => hs.undoFold
  clear_value s2
  have h4 : s4.Canon := .foldl h2 fun s e hs => .endName (.foldl hs.killPatch fun s p hs => hs.killPatch)
  clear_value s4
  exact h4

theorem State.Canon.restoreFrom {x : RemoteCkpt} (hs : s.Canon) : (s.restoreFrom x).Canon :=
  hs.foldl fun _ _ hs1 => hs1.hbmWrite

theorem State.Canon.mixedSteps {d : Fin 16} {addr : Word} (hs : s.Canon) : (s.mixedSteps d addr).Canon :=
  hs.logNobody.resultLocked

theorem State.Canon.execCkres {h : Hdr} {a : Fin 16} (hs : s.Canon) : OutCanon (execCkres h a s) := by
  unfold Machine.execCkres
  refine hs.issue fun t ht => .ite trivial (.ite trivial (.ite trivial ?_))
  dsimp only
  split
  · exact .ite ht.rollback.resultLocked trivial
  refine .ite trivial ?_
  split
  · exact ht.mixedSteps
  refine .ite trivial (.ite ht.mixedSteps ?_)
  split
  · exact ht.mixedSteps
  · exact ht.restoreFrom.resultLocked

/-! ## The tile copies -/

theorem State.Canon.fetchDesc {t : Tensor} (hs : s.Canon) : (s.fetchDesc t).Canon :=
  hs.share

theorem State.Canon.slotName {n : Entry} {slot : Fin 16} {classes : List (BitVec 8)} (hs : s.Canon) : (s.slotName n slot classes).2.Canon :=
  State.Canon.resolveAs (core := s.focus.core) (classes := classes) (n := (s.bankAt s.focus.core n.bank).h[slot]) hs

theorem State.Canon.onTensor {slot : Fin 16} {feature : Option Nat} {f : List Nat → Entry → Name → Tensor → State → EngResult} {n : Entry}
    (hs : s.Canon) (hf : ∀ x x1 x2 x3 t4, t4.Canon → (f x x1 x2 x3 t4).Canon) : (onTensor slot feature f n s).Canon := by
  unfold Machine.onTensor
  refine .ite trivial (EngResult.Canon.popped fun x x1 => (.ite trivial ?_))
  split
  · exact trivial
  split
  · exact trivial
  refine .ite trivial ?_
  dsimp only
  split
  · exact trivial
  · exact hf _ _ _ _ _ (hs.slotName.snd_of_eq ‹_›).fetchDesc

theorem State.Canon.execTload {slot : Fin 16} (hs : s.Canon) : OutCanon (execTload slot s) := by
  unfold Machine.execTload
  refine hs.engWord fun x t1 ht1 => ht1.onTensor fun x1 x11 x2 x3 t4 ht4 => ?_
  dsimp only
  split
  · exact trivial
  refine .ite trivial ?_
  split
  · exact trivial
  · exact State.Canon.modCur (ht4.modCur (fun c hc => hc.foldl (fun c1 x4 hc1 => hc1.localWrites))) fun c hc => hc.addAll

theorem State.Canon.execTxpose {slot : Fin 16} (hs : s.Canon) : OutCanon (execTxpose slot s) := by
  unfold Machine.execTxpose
  refine hs.engWord fun x t1 ht1 => ht1.onTensor fun x1 x11 x2 x3 t4 ht4 => .ite trivial (.ite trivial (.ite trivial ?_))
  split
  · exact trivial
  refine .ite trivial ?_
  dsimp only
  split
  · exact trivial
  · exact State.Canon.ite (.finishXpose (ht4.modCur (fun c hc => hc.addAll))) (ht4.modCur (fun c hc => hc.addAll))

theorem State.Canon.execEgath {slot : Fin 16} (hs : s.Canon) : OutCanon (execEgath slot s) := by
  unfold Machine.execEgath
  refine hs.engWord fun x t1 ht1 => ht1.onTensor fun x1 x11 x2 x3 t4 ht4 => .ite trivial (.ite trivial (.ite trivial ?_))
  split
  · exact trivial
  · exact trivial
  · refine .ite trivial (ht4.withSource fun x4 x12 t2 ht2 => ?_)
    dsimp only
    split
    · exact trivial
    · exact State.Canon.modCur (ht2.modCur (fun c hc => hc.foldl (fun c1 x5 hc1 => hc1.localWrites))) fun c hc => hc.addAll

theorem State.Canon.sendWord {n : Entry} {l : List (Nat → Access)} {f : FlagSet} (hs : s.Canon) : (s.sendWord n l f).Canon := by
  unfold State.sendWord
  split
  · exact hs.mergeFlags
  · exact hs.modCur fun c hc => hc.addAll

theorem State.Canon.onPatch {slot : Fin 16} {f : List Nat → Entry → Patch → Tensor → State → EngResult} {n : Entry} (hs : s.Canon)
    (hf : ∀ x x1 x2 x3 t4, t4.Canon → (f x x1 x2 x3 t4).Canon) : (onPatch slot f n s).Canon := by
  unfold Machine.onPatch
  refine .ite trivial (EngResult.Canon.popped fun x x1 => ?_)
  split
  · exact trivial
  split
  · exact trivial
  refine .ite trivial ?_
  split
  · exact trivial
  refine .ite trivial ?_
  dsimp only
  split
  · exact trivial
  · exact hf _ _ _ _ _ (hs.slotName.snd_of_eq ‹_›).fetchDesc

theorem State.Canon.execTstore {slot : Fin 16} (hs : s.Canon) : OutCanon (execTstore slot s) := by
  unfold Machine.execTstore
  refine hs.engWord fun x t1 ht1 => ht1.onPatch fun x1 x11 x2 x3 t4 ht4 => .ite trivial ?_
  split
  · exact trivial
  refine .ite trivial (ht4.withSource fun x4 x12 t2 ht2 => ?_)
  split
  · exact trivial
  · exact ht2.modCur fun c hc => hc.addAll

theorem State.Canon.execTpair {slot : Fin 16} (hs : s.Canon) : OutCanon (execTpair slot s) := by
  unfold Machine.execTpair
  refine hs.engWord fun x t1 ht1 => ht1.onPatch fun x1 x11 x2 x3 t4 ht4 => ?_
  dsimp only
  split
  · exact trivial
  refine .ite trivial ?_
  split
  · exact trivial
  refine .ite trivial (.ite trivial (ht4.withSource fun x4 x12 t2 ht2 => ?_))
  split
  · exact trivial
  · exact trivial
  · exact trivial
  · exact ht2.sendWord

theorem State.Canon.execTpad (hs : s.Canon) : OutCanon (execTpad s) := by
  unfold Machine.execTpad
  refine hs.engWord fun x t1 ht1 => ?_
  split
  · exact ht1
  · exact trivial

theorem State.Canon.execLcopy (hs : s.Canon) : OutCanon (execLcopy s) := by
  unfold Machine.execLcopy
  refine hs.engWord fun x t1 ht1 => EngResult.Canon.popped fun x1 x11 => ?_
  dsimp only
  split
  · exact trivial
  split
  · exact trivial
  · exact trivial
  · exact .ite trivial (ht1.withSource (fun x2 x12 t2 ht2 => ht2.modCur (fun c hc => hc.localWrites)))

theorem State.Canon.stageWord {store : Bool} (hs : s.Canon) : (stageWord store s).Canon := by
  unfold Machine.stageWord
  refine hs.engWord fun x t1 ht1 => .ite trivial (EngResult.Canon.popped fun x1 x11 => (.ite trivial ?_))
  split
  · exact trivial
  refine .ite trivial ?_
  split
  · exact trivial
  · exact .ite trivial (.ite trivial (.ite trivial (ht1.modCur (fun c hc => .addAll (.ite hc.touch hc)))))

theorem Core.Canon.atLevel {c : Core} {j : Nat} (hc : c.Canon) : (c.atLevel j).Canon :=
  hc

theorem State.Canon.treeAdd {n : Entry} {t : TreeWord} {partner : Nat} (hs : s.Canon) : (s.treeAdd n t partner).Canon := by
  unfold State.treeAdd
  dsimp only
  split
  · exact .mergeFlags (.modCur (((hs.skip.setCore hs.cur.readSome).skip.setCore (hs.skip.setCore hs.cur.readSome).core.readSome).modCore
      (fun c hc => hc.atLevel)) (fun c hc => hc.localWrites.atLevel))
  · exact (hs.skip.setCore hs.cur.readSome).skip.setCore (hs.skip.setCore hs.cur.readSome).core.readSome

theorem State.Canon.treeLevel {n : Entry} {parts : List Nat} {t : TreeWord} (hs : s.Canon) : (s.treeLevel n parts t).Canon := by
  unfold State.treeLevel
  refine .ite (.ite (hs.modCur (fun c hc => hc.atLevel)) ?_) (.ite trivial (hs.modCur (fun c hc => hc.atLevel)))
  split
  · exact .ite hs.treeAdd trivial
  · exact trivial

theorem State.Canon.execTree (hs : s.Canon) : OutCanon (execTree s) := by
  unfold Machine.execTree
  split
  · exact hs
  refine hs.engWord fun x t1 ht1 => EngResult.Canon.popped fun x1 x11 => .ite trivial ?_
  split
  · exact trivial
  split
  · exact .ite trivial (ht1.modCur (fun c hc => hc))
  dsimp only
  exact .ite (.ite trivial (.ite (State.Canon.foldl (ht1.modCur (fun c hc => hc)) (fun s1 x2 hs1 => hs1.engFault.modCore (fun c hc => hc)))
    (ht1.foldl (fun s1 x2 hs1 => hs1.modCore (fun c hc => hc.atLevel))))) (.ite ht1.treeLevel (.ite (ht1.modCur (fun c hc => hc)) trivial))

/-! ## The system words -/

theorem State.Canon.execSegld {h : Hdr} {m : MemOp} (hs : s.Canon) : OutCanon (execSegld h m s) := by
  unfold Machine.execSegld
  refine hs.issue fun t ht => ?_
  dsimp only
  split
  · exact trivial
  split
  · exact trivial
  split
  · exact trivial
  split
  · exact trivial
  split
  · exact trivial
  split
  · exact trivial
  rename_i e
  split
  · exact trivial
  · exact (ht.readAddr.readPieces.snd_of_eq e).startBias.modBank

theorem State.Canon.execSeginv {h : Hdr} {a : SSrc} (hs : s.Canon) : OutCanon (execSeginv h a s) := by
  unfold Machine.execSeginv
  refine hs.issue fun t ht => ?_
  dsimp only
  split
  · exact trivial
  split
  · exact trivial
  · exact ht.readS.modBank

theorem State.Canon.execHtlbinv {h : Hdr} {a b : SSrc} {all : Bool} (hs : s.Canon) : OutCanon (execHtlbinv h a b all s) := by
  unfold Machine.execHtlbinv
  refine hs.issue fun t ht => ?_
  dsimp only
  split
  · exact trivial
  · exact .foldl (.modBank ht.readS.readS) fun s1 x hs1 => hs1.post

theorem State.Canon.execHostTlbInvalidateAck (hs : s.Canon) : OutCanon (execHostTlbInvalidateAck s) := by
  unfold Machine.execHostTlbInvalidateAck
  show State.Canon _
  split
  · exact hs
  · exact .ite hs.postAt (.ite (.modBankAt hs) hs)

theorem State.Canon.execUcload {h : Hdr} {a : NSrc} (hs : s.Canon) : OutCanon (execUcload h a s) := by
  unfold Machine.execUcload
  refine hs.issue fun t ht => ?_
  dsimp only
  split
  · exact trivial
  split
  · exact .ite trivial (.ite trivial ((ht.resolveAs.snd_snd_of_eq ‹_›).modCur (fun c hc => hc)))
  all_goals exact trivial

theorem State.Canon.execKeybind {h : Hdr} {a b : SSrc} (hs : s.Canon) : OutCanon (execKeybind h a b s) := by
  unfold Machine.execKeybind
  refine hs.issue fun t ht => ?_
  dsimp only
  split
  · exact trivial
  split
  · split
    · exact trivial
    · exact ht.readS.readS
  · split
    · exact trivial
    · exact ht.readS.readS

theorem State.Canon.execPartset {h : Hdr} {a b : SSrc} (hs : s.Canon) : OutCanon (execPartset h a b s) := by
  unfold Machine.execPartset
  refine hs.issue fun t ht => ?_
  dsimp only
  split
  · exact trivial
  split
  · exact trivial
  · exact ht.readS.readS.foldl fun s1 x hs1 => hs1.modDie

theorem State.Canon.setBias {pages : List Nat} {dev : Bool} (hs : s.Canon) : (s.setBias pages dev).Canon :=
  hs

theorem State.Canon.dropPages {pages : List Nat} (hs : s.Canon) : (s.dropPages pages).Canon :=
  hs.foldl fun _ _ hs1 => .evictHome (.ite hs1 hs1.recall)

theorem State.Canon.execBiasflip {h : Hdr} {a b : SSrc} {dev : Bool} (hs : s.Canon) : OutCanon (execBiasflip h a b dev s) := by
  unfold Machine.execBiasflip
  refine hs.issue fun t ht => ?_
  dsimp only
  split
  · exact trivial
  split
  · exact trivial
  split
  · exact ht.readS.readS
  split
  · exact trivial
  · exact .modBank ht.readS.readS.dropPages

theorem State.Canon.execFlipAcknowledge {id : BitVec 32} (hs : s.Canon) : OutCanon (execFlipAcknowledge id s) := by
  unfold Machine.execFlipAcknowledge
  show State.Canon _
  split
  · exact hs
  · exact .ite hs (.modBankAt hs)

theorem State.Canon.execHalt {h : Hdr} (hs : s.Canon) : OutCanon (execHalt h s) := by
  unfold Machine.execHalt
  refine hs.issue fun t ht => ?_
  show State.Canon _
  split
  · exact ht.modBank.leaveBank
  · exact ht.modBank.leaveBank.failJob

theorem State.Canon.thaw {core : Nat} {a : Access} (hs : s.Canon) : (s.thaw core a).Canon := by
  unfold State.thaw
  split
  · exact .ite hs (hs.modCore (fun c hc => hc.setEngine))
  · exact .ite hs (hs.modCore (fun c hc => hc.modBank))

theorem State.Canon.failPage {core : Nat} {a : Access} {page : Nat} (hs : s.Canon) : (s.failPage core a page).Canon := by
  unfold State.failPage
  dsimp only
  split
  · refine .engFault (.thaw (.finish ?_))
    split
    · exact hs
    · exact hs.modBankAt
  · refine .trap (.modBank (.thaw (.finish ?_)))
    split
    · exact hs
    · exact hs.modBankAt

theorem State.Canon.endRequest {pasid : BitVec 20} {page : Nat} (hs : s.Canon) : (s.endRequest pasid page).Canon :=
  hs

theorem State.Canon.failRequest {pasid : BitVec 20} {page : Nat} (hs : s.Canon) : (s.failRequest pasid page).Canon :=
  hs.endRequest.foldl fun _ _ hs1 => hs1.failPage

theorem State.Canon.poison {id key : Nat} (hs : s.Canon) : (s.poison id key).Canon :=
  hs.foldl fun _ _ hs1 => hs1.modCore (fun _ hc => .modBank hc)

theorem State.Canon.quenchForError {id : Nat} {key : Option Nat} (hs : s.Canon) : (s.quenchForError id key).Canon := by
  unfold State.quenchForError
  split
  · exact hs
  refine .ite ?_ ?_
  · refine .startQuench ?_
    split
    · exact hs
    · exact hs.poison
  · split
    · exact hs
    · exact hs.poison

theorem State.Canon.logBank {core : Nat} {bank : Bool} {addr : Word} (hs : s.Canon) : (s.logBank core bank addr).Canon :=
  .logHere hs

theorem State.Canon.execUncorrectableError {addr : Nat} {finder : ErrFinder} (hs : s.Canon) :
    OutCanon (execUncorrectableError addr finder s) := by
  unfold Machine.execUncorrectableError
  show State.Canon _
  split
  · split
    · exact hs.logBank.quenchForError
    · exact hs.logBank
  · split
    · exact hs.logBank.quenchForError
    · exact hs.logBank
  · split
    · exact .ite hs.logNobody.failJob hs
    · exact hs
  · exact hs.logNobody.foldl fun s1 x hs1 => hs1.quenchForError

end Sys2Proof.Machine

end

section
/-!
PROOF. Every step keeps every memory canonical, concluded: the host, the dispatch, the cycle and the step.
-/
open Sys2Proof Sys2Proof.Machine

namespace Sys2Proof.Machine

variable {s : State}

/-! ## The host -/

theorem State.Canon.modLq {q : Fin 64} {f : LQueue → LQueue} (hs : s.Canon) : (s.modLq q f).Canon :=
  hs

theorem State.Canon.startReads {q : Fin 64} (hs : s.Canon) : (s.startReads q).Canon :=
  .ite hs hs.modLq.postHere

theorem State.Canon.notify {q : Fin 64} {n : BitVec 16} (hs : s.Canon) : (s.notify q n).Canon :=
  .ite hs.logNobody hs.modLq.startReads

theorem State.Canon.execNotifyReread {q : Fin 64} {tries : Nat} (hs : s.Canon) : OutCanon (Machine.execNotifyReread q tries s) := by
  have hlast : ∀ {v : State} {a : Nat} {l : List Byte} {f : LQueue → LQueue}, v.Canon →
      ((State.modLq { v with lqSlots := Memory.writeBytes v.lqSlots a l } q f).startReads q).Canon :=
    fun hv => .startReads (.modLq { hv with lqSlots := Memory.wf_writeBytes _ _ hv.lqSlots })
  unfold Machine.execNotifyReread
  extract_lets x d r done
  refine State.Canon.ite hs (.ite (.ite hs.postIn hs.modLq.logNobody) (.ite hs.modLq.logNobody ?_))
  split
  · rename_i e
    exact (hs.mayIssue.snd_of_eq e).postHere
  · rename_i u e
    have ha := (hs.mayIssue.snd_of_eq e).accept (r := r) (segs := u.rtSegs) (pts := none)
    generalize u.accept r u.rtSegs none = y at ha ⊢
    obtain ⟨n, v⟩ := y
    have hd : (done (v.modJob (v.jobs.length - 1)
      (fun j => { j with lq := q.val, pasid := if x.pasidValid then some x.pasid else none }))).Canon := ha
    exact hlast hd

theorem State.Canon.execLaunchRecordWrite {q : Fin 64} {slot : Nat} {d : List Byte} (hs : s.Canon) :
    OutCanon (execLaunchRecordWrite q slot d s) := { hs with lqSlots := Memory.wf_writeBytes _ _ hs.lqSlots }

theorem State.Canon.hostConflict {l : Loc} (hs : s.Canon) : (s.hostConflict l).Canon :=
  hs.logNobody

theorem State.Canon.execHostMemoryWrite {line : Line} {off : Fin 128} {bytes : List Byte} (hs : s.Canon) :
    OutCanon (execHostMemoryWrite line off bytes s) := by
  unfold Machine.execHostMemoryWrite
  refine State.Canon.ite hs.hostConflict (.ite hs ?_)
  split
  · exact .ite (.hbmWrite (.ite (hs.evictHome.modHome (fun x hx => hx)) hs.spoilViews))
      (.ite (.homeStore (hs.ensureHome.modHome (fun x hx => hx.modLine))) hs.recall.homeStore)
  · exact hs.recall.homeStore

theorem State.Canon.execHostMemoryRead {line : Line} {off : Fin 128} {len : Fin 129} (hs : s.Canon) :
    OutCanon (execHostMemoryRead line off len s) := by
  unfold Machine.execHostMemoryRead
  refine State.Canon.ite hs.hostConflict (.ite hs ?_)
  split
  · refine .ite hs ?_
    dsimp only
    split
    · exact hs
    · exact hs.share
  · dsimp only
    exact hs.share

theorem State.Canon.execHostSnoop {line : Line} (hs : s.Canon) : OutCanon (execHostSnoop line s) := by
  unfold Machine.execHostSnoop
  refine State.Canon.ite hs ?_
  extract_lets lease t
  have ht : t.Canon := .evictHome (.ite hs hs.recall)
  clear_value t
  exact ht

theorem State.Canon.mapHome {i : Nat} {ident : BitVec 32} (hs : s.Canon) : (s.mapHome i ident).Canon :=
  hs

theorem State.Canon.writeScw {i : Nat} {v : Word} (hs : s.Canon) : (s.writeScw i v).Canon := by
  unfold State.writeScw
  refine .foldl (hs.modSlice (fun x hx => hx)) fun s1 x hs1 => .ite ?_ hs1
  split
  · exact hs1
  · exact hs1.evictLine

theorem State.Canon.execConfigWrite {off : Nat} {v : Word} (hs : s.Canon) : OutCanon (execConfigWrite off v s) := by
  have hsub : OutCanon (execSubmissionNotify v s) := hs.notify
  have hclr : OutCanon (execEventLogClear s) := hs
  unfold Machine.execConfigWrite
  exact .ite hsub (.ite hs (.ite hs (.ite hs.execFlipAcknowledge (.ite hs (.ite hclr (.ite hs (.ite hs (.ite hs (.ite hs
    (.ite hs (.ite hs (.ite hs.writeScw hs))))))))))))

theorem State.Canon.measure {i : Fin 6} {digest : BitVec 512} (hs : s.Canon) : (s.measure i digest).Canon :=
  hs

theorem State.Canon.execKeyPolicyLoad {digest : BitVec 512} (hs : s.Canon) : OutCanon (execKeyPolicyLoad digest s) := by
  unfold Machine.execKeyPolicyLoad
  split <;> exact hs

theorem State.Canon.execKeyRelease {slot : Fin 128} (hs : s.Canon) : OutCanon (execKeyRelease slot s) := by
  unfold Machine.execKeyRelease
  show State.Canon _
  split
  · exact hs
  dsimp only
  exact .ite hs hs

theorem State.Canon.execMicrocodeImageVerify {addr words : Nat} {signature : List Byte} (hs : s.Canon) :
    OutCanon (execMicrocodeImageVerify addr words signature s) :=
  State.Canon.ite hs hs.measure.journalIssue.issueName

theorem State.Canon.execReadyMapChange {map : Fin 4} {bit : Fin 64} {up : Bool} (hs : s.Canon) :
    OutCanon (execReadyMapChange map bit up s) :=
  State.Canon.ite hs (.kick hs)

theorem State.Canon.setClock {mhz : Nat} (hs : s.Canon) : (s.setClock mhz).Canon :=
  hs

theorem State.Canon.cap {steps : Fin 16} (hs : s.Canon) : (s.cap steps).Canon :=
  hs.setClock

theorem State.Canon.powerOff (hs : s.Canon) : s.powerOff.Canon := { State.Canon.reset with hostMem := hs.hostMem }

theorem State.Canon.execColdBoot (hs : s.Canon) : OutCanon (execColdBoot s) :=
  State.Canon.measure (.measure (.measure (.measure hs.powerOff)))

/-! ## An instruction -/

theorem State.Canon.exec {i : Instr} (hs : s.Canon) : OutCanon (exec i s) := by
  unfold Machine.exec
  cases i with
  | nop => exact hs.issue fun t ht => ht
  | add | sub | mul | mulh | div | rem | min | max => exact hs.intOp
  | and | or | xor | andn | shl | shr | sar | rot => exact hs.bitOp
  | clz | popc => exact hs.bitOp1
  | sel => exact hs.execSel
  | cmp => exact hs.execCmp
  | movi => exact hs.execMovi
  | lea => exact hs.execLea
  | ld => exact hs.execLd
  | st => exact hs.execSt
  | csrr => exact hs.execCsrr
  | csrw => exact hs.execCsrw
  | cand | cor | cxor => exact hs.condOp
  | fadd | fmul => exact hs.fltOp
  | ffma => exact hs.ffmaOp
  | fcvt => exact hs.fcvtOp
  | fcmp => exact hs.execFcmp
  | fmin | fmax => exact hs.fltOp
  | ftolog => exact hs.execFtolog
  | ffromlog => exact hs.execFfromlog
  | vadd | vsub | vmul => exact hs.vecArith
  | vfma => exact hs.vfmaOp
  | vmin | vmax => exact hs.vecArith
  | vrcp | vrsq | vexp2 | vlog2 => exact hs.vecFun
  | vand | vor | vxor | vshl | vshr | vsar => exact hs.vecBits
  | vcmp => exact hs.execVcmp
  | vsel => exact hs.laneOp
  | vcvt => exact hs.vcvtOp
  | vtolog | vfromlog => exact hs.convOp
  | vqnt | vdqnt => exact hs.headerOp
  | vbscale => exact hs.laneOp
  | vredadd | vredmax | vredmin => exact hs.redOp
  | vscan => exact hs.vscanOp
  | vhist => exact hs.execVhist
  | vcmprs => exact hs.wholeOp fun t ht => ht
  | vperm => exact hs.laneOp
  | vslide => exact hs.countOp
  | vbcast => exact hs.execVbcast
  | vext => exact hs.execVext
  | vins => exact hs.execVins
  | viota => exact hs.execViota
  | vld => exact hs.execVld
  | vst => exact hs.execVst
  | vgath => exact hs.execVgath
  | vscat => exact hs.execVscat
  | portcfg => exact hs.execPortcfg
  | mand | mor | mxor | mnot => exact hs.maskOp
  | mpop | mfirst => exact hs.maskCount
  | vord => exact hs.laneOp
  | ldg => exact hs.execLdg
  | stg => exact hs.execStg
  | vldg => exact hs.execVldg
  | vstg => exact hs.execVstg
  | prefg => exact hs.execPrefg
  | aadd => exact hs.execAadd
  | amin | amax | aand | aor | axor | axchg => exact hs.atomicOp
  | acas => exact hs.execAcas
  | adcas => exact hs.execAdcas
  | amove => exact hs.execAmove
  | aradd | armax => exact hs.rowAtomic
  | pbegin => exact hs.execPbegin
  | ppair => exact hs.execPpair
  | pjoin => exact hs.execPjoin
  | pseal => exact hs.execPseal
  | pabort => exact hs.execPabort
  | psquash => exact hs.execPsquash
  | pinv => exact hs.execPinv
  | pcomm => exact hs.execPcomm
  | pxpl => exact hs.execPxpl
  | pdrop => exact hs.execPdrop
  | pquery => exact hs.execPquery
  | nnew => exact hs.execNnew
  | ndest => exact hs.execNdest
  | nres => exact hs.execNres
  | ncas => exact hs.execNcas
  | nmov => exact hs.execNmov
  | ncmp => exact hs.issue fun t ht => ht.resultLocked
  | cpin => exact hs.execCpin
  | cunpin => exact hs.execCunpin
  | cwb | cinv => exact hs.maintain
  | br => exact hs.execBr
  | brc => exact hs.execBrc
  | jmpi => exact hs.jumpOp
  | call => exact hs.execCall
  | ret => exact hs.jumpOp
  | loop => exact hs.execLoop
  | rotset => exact hs.issue fun t ht => ht.modBank
  | trap => exact hs.issue fun t ht => trivial
  | rett => exact hs.issue fun t ht => .ite trivial ht.modBank.jump
  | swait => exact hs.execSwait
  | ssig => exact hs.execSsig
  | sset => exact hs.execSset
  | sread => exact hs.issue fun t ht => .ite trivial ht.resultTagged
  | bar => exact hs.execBar
  | comm => exact hs.execComm
  | fence => exact hs.issue fun t ht => ht.modBank
  | launch => exact hs.execLaunch
  | yield => exact hs.issue fun t ht => ht.leaveBank
  | exit => exact hs.execExit
  | eqpush => exact hs.execEqpush
  | eqpushv => exact hs.issue fun t ht => .ite trivial (.ite trivial ht.advancePorts.pushEntry)
  | eqstat => exact hs.execEqstat
  | fpush => exact hs.execFpush
  | qpop => exact hs.issue fun t ht => .ite ht.allocate.modBank ht.allocate.modBank.modBank
  | qpush => exact hs.execQpush
  | qstat => exact hs.execQstat
  | estat => exact hs.execEstat
  | xm => exact hs.execXm
  | illegalOpcode => exact hs.illegalOp
  | segld => exact hs.execSegld
  | seginv => exact hs.execSeginv
  | htlbinv => exact hs.execHtlbinv
  | banksw => exact hs.issue fun t ht => .ite (ht.modCur (fun c hc => hc.modBank.switchStream)) ht
  | banksave => exact hs.execBanksave
  | bankload => exact hs.execBankload
  | ucload => exact hs.execUcload
  | quench => exact hs.execQuench
  | qresume => exact hs.execQresume
  | ckpt => exact hs.execCkpt
  | ckres => exact hs.execCkres
  | keybind => exact hs.execKeybind
  | biasflip => exact hs.execBiasflip
  | idle => exact hs.issue fun t ht => ht.modBank.leaveBank
  | halt => exact hs.execHalt
  | partset => exact hs.execPartset
  | lit => exact hs.engWord fun x t1 ht1 => ht1.pushed
  | ext => exact hs.execExt
  | engineIllegalWord => exact hs.execEngineIllegalWord
  | popq => exact hs.execPopq
  | pushb => exact hs.execPushb
  | waitk => exact hs.execWaitk
  | sigk => exact hs.engWord fun x t1 ht1 => .ite trivial (.ite trivial ht1.engSignal)
  | setl => exact hs.engWord fun x t1 ht1 => EngResult.Canon.popped fun x1 x11 => ht1.setLoop
  | setb => exact hs.engWord fun x t1 ht1 => EngResult.Canon.popped fun x1 x11 => ht1.setBase
  | zacc => exact hs.engWord fun x t1 ht1 => ht1.zeroSet
  | go => exact hs.engWord fun x t1 ht1 => ht1.stream
  | drain => exact hs.engWord fun x t1 ht1 => ht1.drainSet
  | amaxc => exact hs.engWord fun x t1 ht1 => ht1.clearAmax
  | layer => exact hs.engWord fun x t1 ht1 => EngResult.Canon.popped (fun x1 x11 => .ite trivial (.ite trivial ht1))
  | tload => exact hs.execTload
  | tstore => exact hs.execTstore
  | tpair => exact hs.execTpair
  | egath => exact hs.execEgath
  | txpose => exact hs.execTxpose
  | cred => exact hs.engWord fun x t1 ht1 => ht1.putWord
  | csig => exact hs.execCsig
  | usetl => exact hs.microOp fun x t1 ht1 => ht1.setLoop
  | usetb | uaddb => exact hs.microOp fun x t1 ht1 => ht1.setBase
  | uzacc => exact hs.microOp fun x t1 ht1 => ht1.zeroSet
  | ugo => exact hs.microOp fun x t1 ht1 => ht1.stream
  | udrain => exact hs.microOp fun x t1 ht1 => ht1.drainSet
  | uamaxc => exact hs.microOp fun x t1 ht1 => ht1.clearAmax
  | usetlc => exact hs.microOp fun x t1 ht1 => ht1.modAnvil
  | uloop => exact hs.microOp fun x t1 ht1 => .ite ht1.modAnvil ht1.modAnvil
  | anvilCommandComplete => exact hs.execAnvilCommandComplete
  | loadLand => exact hs.execLoadLand
  | storeAck => exact hs.execStoreAck
  | remoteSignalApply => exact hs.execRemoteSignalApply
  | signalAck => exact hs.execSignalAck
  | barrierRelease => exact hs.foldl fun s1 x hs1 => .ite (hs1.bumpPts.modCore (fun c hc => hc.modBank)) hs1
  | commStepEnd => exact hs.execCommStepEnd
  | jobPlace => exact hs.execJobPlace
  | jobRetire => exact hs.execJobRetire
  | jobFail => exact hs.execJobFail
  | priorityAging => exact hs.execPriorityAging
  | preempt => exact hs.execPreempt
  | wrapStep => exact hs.execWrapStep
  | gets | getm | upg => exact hs.request
  | putm | puto => exact hs.putBack
  | puts | pute => exact hs.leaveHome
  | forward => exact hs.execForward
  | invalidate => exact hs.answer
  | invalidationAck => exact hs.execInvalidationAck
  | coherenceData => exact hs.execCoherenceData
  | completionNotice => exact hs.execCompletionNotice
  | backInvalidate => exact hs.answer
  | leaseRenew => exact hs.execLeaseRenew
  | leaseWriteThrough => exact hs.execLeaseWriteThrough
  | homeAtomic => exact hs.execHomeAtomic
  | nameInvalidate => exact hs.execNameInvalidate
  | nameInvalidateAck => exact hs.execNameInvalidateAck
  | hostPageFault => exact hs.execHostPageFault
  | pageRequestTimeout => exact State.Canon.ite hs.failRequest hs
  | putPacketApply => exact hs.applyPacket fun x x1 t2 ht2 => ht2.putBytesOf
  | reducePacketApply => exact hs.applyPacket fun x x1 t2 ht2 => .ite (ht2.modCore (fun c hc => hc)) ht2.combineBytes
  | broadcastPacketApply => exact hs.applyPacket fun x x1 t2 ht2 => ht2.putBytesOf
  | signalPacketApply => exact hs.execSignalPacketApply
  | quenchDeadline => exact hs
  | flaconWriteAck => exact hs.execFlaconWriteAck
  | checkpointDurable => exact hs.execCheckpointDurable
  | journalDurable => exact hs.execJournalDurable
  | notifyReread => exact hs.execNotifyReread
  | graceTimeExpiry => exact hs.execGraceTimeExpiry
  | partialCollect => exact hs.execPartialCollect
  | qcwConfigure | qcwEnable => exact State.Canon.ite hs (hs.take hs.qcwWrite)
  | qcwDisable => exact State.Canon.ite (hs.take hs.qcwWrite) hs
  | ksplitWrite => exact hs.take hs.ksplitWriteOp
  | ptsTick => exact hs.execPtsTick
  | latePatchWrite => exact hs.execLatePatchWrite
  | pageResponse => exact State.Canon.ite hs.failRequest (.foldl (.foldl hs fun s1 x hs1 => hs1.modCore fun c hc => hc.modAccess)
      fun s1 x hs1 => hs1.thaw)
  | uncorrectableError => exact hs.execUncorrectableError
  | errorResponse => exact hs.execErrorResponse
  | invalidPacketDiscard | flitRetry => exact hs
  | quenchOrder => exact hs.execQuenchOrder
  | sweepDoneMarker => exact hs
  | saveAreaPacket => exact hs.savePacket
  | quenchReport => exact hs.execQuenchReport
  | latePacket => exact hs.latePacket
  | heldIncrement => exact hs.execHeldIncrement
  | checkpointSlice => exact hs
  | submissionNotify => exact hs.notify
  | launchQueueDescriptorWrite => exact hs.modLq
  | flipAcknowledge => exact hs.execFlipAcknowledge
  | hostMemoryWrite => exact hs.execHostMemoryWrite
  | hostMemoryRead => exact hs.execHostMemoryRead
  | ptsConfigWrite => exact hs.execPtsConfigWrite
  | jobTagAssign => exact hs
  | configWrite => exact hs.execConfigWrite
  | keyRelease => exact hs.execKeyRelease
  | microcodeImageVerify => exact hs.execMicrocodeImageVerify
  | readyMapChange => exact hs.execReadyMapChange
  | powerCap | thermalCap => exact hs.cap
  | hostSnoop => exact hs.execHostSnoop
  | launchRecordWrite => exact hs.execLaunchRecordWrite
  | keyPolicyLoad => exact hs.execKeyPolicyLoad
  | endw | nopw => exact hs.engWord fun x t1 ht1 => ht1
  | dup => exact hs.execDup
  | drop => exact hs.execDrop
  | swap => exact hs.execSwap
  | callw => exact hs.engWord fun x t1 ht1 => EngResult.Canon.popped (fun x1 x11 => .ite trivial (.ite trivial (.ite trivial ht1)))
  | retw => exact hs.execRetw
  | lstat => exact hs.engWord fun x t1 ht1 => ht1.loadStationary
  | swapp => exact hs.engWord fun x t1 ht1 => ht1.swapPlanes
  | tpad => exact hs.execTpad
  | lcopy => exact hs.execLcopy
  | sload | sstore => exact hs.stageWord
  | tree => exact hs.execTree
  | cslot => exact hs.execCslot
  | cput => exact hs.engWord fun x t1 ht1 => ht1.putWord
  | cbcast => exact hs.execCbcast
  | uend => exact hs.microOp fun x t1 ht1 => ht1
  | ulstat => exact hs.microOp fun x t1 ht1 => ht1.loadStationary
  | uswapp => exact hs.microOp fun x t1 ht1 => ht1.swapPlanes
  | ustripe => exact hs.microOp fun x t1 ht1 => ht1
  | entryStart => exact hs.execEntryStart
  | entryComplete => exact hs.execEntryComplete
  | impreciseTrapDeliver => exact hs.deliverImprecise
  | arithmeticTrap => exact hs.deliverArithmetic
  | slotOverrun => exact hs.modCur fun c hc => hc.judge
  | overlayLoad => exact hs.execOverlayLoad
  | bankReturn => exact State.Canon.ite (hs.modCur (fun c hc => hc.switchStream)) hs
  | idleWake => exact State.Canon.ite hs.modBank hs
  | eventLogClear => exact hs
  | spdmGetMeasurements => exact State.Canon.ite hs hs
  | coldBoot => exact hs.execColdBoot
  | thermalShutdown | lossOfPower => exact hs.powerOff
  | baseHomeReport => exact State.Canon.ite hs.postAt hs.report
  | hostTlbInvalidateAck => exact hs.execHostTlbInvalidateAck
  -- OVER, whose name is a keyword and cannot name an alternative.
  | _ => exact hs.execOver

/-! ## The end of a cycle -/

theorem State.Canon.turn {core : Nat} {bank : Bool} (hs : s.Canon) : (s.turn core bank).Canon :=
  .modCore hs fun _ hc => hc

theorem State.Canon.pick {t : State} {l : List Agent} {a : Agent} (hs : s.Canon) (e : s.pick l = some (a, t)) : t.Canon := by
  unfold State.pick at e
  split at e
  · exact nomatch e
  · exact (Prod.mk.inj (Option.some.inj e)).2 ▸ hs
  · exact (Prod.mk.inj (Option.some.inj e)).2 ▸ hs

theorem State.Canon.chosen {t : State} {a : Agent} (hs : s.Canon) (e : s.chosen = some (a, t)) : t.Canon := by
  unfold State.chosen at e
  dsimp only at e
  split at e
  · exact hs.pick e
  · exact hs.pick e

theorem State.Canon.act {x : Agent} (hs : s.Canon) : OutCanon (s.act x) := by
  unfold State.act
  split
  · exact hs.turn.exec
  · exact State.Canon.exec hs
  · exact hs.serve
  · exact hs.performSector
  · exact hs.modCore fun c hc => .storeLocal hc.take
  · exact hs.modCore fun c hc => .modBank hc
  · exact State.Canon.exec hs
  · dsimp only
    exact .ite (State.Canon.exec hs) hs

theorem State.Canon.acquireSample {core : Nat} {x : RVal} (hs : s.Canon) : (s.acquireSample core x).Canon := by
  unfold State.acquireSample
  split
  · exact hs.foldl fun s1 x hs1 => .ite hs1.bumpPts hs1
  · exact hs

theorem State.Canon.landBank {core : Nat} {bank : Bool} (hs : s.Canon) : (s.landBank core bank).Canon :=
  .ite hs (.modBankAt (hs.foldl (fun _ _ hs1 => hs1.acquireSample)))

theorem Core.Canon.readPort {c : Core} {bank : Bool} {i : Fin 12} {x : Nat × Nat × Nat} (hc : c.Canon) : (c.readPort bank i x).Canon := by
  unfold Core.readPort
  split
  · exact hc
  · exact .ite hc hc.take.touch.modBank

theorem State.Canon.portsAhead {core : Nat} {bank : Bool} (hs : s.Canon) : (s.portsAhead core bank).Canon := by
  unfold State.portsAhead
  refine hs.foldl fun s1 x hs1 => ?_
  dsimp only
  split
  · exact hs1
  · exact .modCore hs1 fun c hc => hc.foldl fun c1 x1 hc1 => hc1.readPort

theorem Core.Canon.arbitrate {c : Core} {cycle : Nat} (hc : c.Canon) : (c.arbitrate cycle).Canon :=
  hc

theorem Core.Canon.refresh {c : Core} {cycle : Nat} (hc : c.Canon) : (c.refresh cycle).Canon :=
  hc

theorem Core.Canon.settle {c : Core} (hc : c.Canon) : c.settle.Canon :=
  hc

theorem State.Canon.endCore {core : Nat} (hs : s.Canon) : (s.endCore core).Canon := by
  unfold State.endCore
  exact hs.landBank.landBank.portsAhead.portsAhead.cmdReads.applyCsrws.applyCsrws.endFence.endFence.modCore fun c hc =>
    hc.settle.arbitrate.refresh

theorem State.Canon.tickCore {core : Option Nat} (hs : s.Canon) : (s.tickCore core).Canon := by
  unfold State.tickCore
  split
  · exact (State.Canon.execPtsTick (s := { s with focus := { s.focus with core := core.getD 0 } }) hs).of_next ‹_›
  · exact hs
  · exact hs

theorem State.Canon.tickAll (hs : s.Canon) : s.tickAll.Canon :=
  .ite (.tickCore (hs.foldl (fun _ _ hs1 => hs1.tickCore))) (hs.foldl (fun _ _ hs1 => hs1.tickCore))

theorem State.Canon.countCorrected (hs : s.Canon) : s.countCorrected.Canon :=
  hs

theorem State.Canon.endCycle (hs : s.Canon) : s.endCycle.Canon := by
  unfold State.endCycle
  exact .evictTick (.quenchTick (hs.foldl (fun s1 x hs1 => hs1.endCore)))

/-! ## A step -/

theorem State.Canon.step (hs : s.Canon) : OutCanon (step s) := by
  unfold Machine.step
  split
  · exact .ite trivial (hs.chosen ‹_›).act
  · exact State.Canon.ite hs.tickAll hs.endCycle

end Sys2Proof.Machine

/-- Settles O60: every function that the step calls keeps every memory canonical, down to the writes of single bytes, which do. -/
theorem everyStepKeepsMemoriesCanonical : Obligations.EveryStepKeepsMemoriesCanonical := by
  unfold Obligations.EveryStepKeepsMemoriesCanonical
  intro s t hs hst
  exact (State.memWf_iff t).mpr (((State.memWf_iff s).mp hs).step.of_next hst)

end
